-- ==== Sys2Proof/Word.lean ====
section
/-! DEFINITION. The word types, their plainest arithmetic and fixed-length vectors (spec/00_scope.md R7, R12). -/

namespace Sys2Proof

/-- A byte. -/
abbrev Byte := BitVec 8
/-- A 16-bit word. -/
abbrev W16 := BitVec 16
/-- A 32-bit word. -/
abbrev W32 := BitVec 32
/-- A 64-bit word. -/
abbrev W64 := BitVec 64

/-- Bits [hi:lo] of a word, both ends included (R7). -/
abbrev bits {w : Nat} (x : BitVec w) (hi lo : Nat) : BitVec (hi - lo + 1) :=
  x.extractLsb hi lo

/-- One bit of a word. -/
abbrev bit {w : Nat} (x : BitVec w) (i : Nat) : Bool := x.getLsbD i

/-- A Bool as a natural number, for packing flags. -/
abbrev b2n (b : Bool) : Nat := if b then 1 else 0

/-- Bits [hi:lo] of a natural number. -/
abbrev nbits (x hi lo : Nat) : Nat := x / 2 ^ lo % 2 ^ (hi - lo + 1)

/-- One bit of a natural number. -/
abbrev nbit (x i : Nat) : Bool := x.testBit i

/-- One place of a vector, set. -/
def vset {α : Type} {n : Nat} (v : Vector α n) (i : Fin n) (x : α) : Vector α n :=
  v.set i.1 x i.2

/-- One place of a vector. -/
def vget {α : Type} {n : Nat} (v : Vector α n) (i : Fin n) : α := v[i.1]'i.2

/-- One place of a vector, changed by a function. -/
def vmod {α : Type} {n : Nat} (v : Vector α n) (i : Fin n) (f : α → α) : Vector α n :=
  vset v i (f (vget v i))

@[simp] theorem vget_vset_self {α : Type} {n : Nat} (v : Vector α n) (i : Fin n) (x : α) :
    vget (vset v i x) i = x := by simp [vget, vset]

theorem vget_vset_ne {α : Type} {n : Nat} (v : Vector α n) (i j : Fin n) (x : α) (h : i ≠ j) :
    vget (vset v i x) j = vget v j := by
  have : i.1 ≠ j.1 := fun e => h (Fin.ext e)
  simp [vget, vset, Vector.getElem_set_ne, this]

@[simp] theorem vget_vmod_self {α : Type} {n : Nat} (v : Vector α n) (i : Fin n) (f : α → α) :
    vget (vmod v i f) i = f (vget v i) := by simp [vmod]

theorem vget_vmod_ne {α : Type} {n : Nat} (v : Vector α n) (i j : Fin n) (f : α → α) (h : i ≠ j) :
    vget (vmod v i f) j = vget v j := by simp [vmod, vget_vset_ne, h]

@[simp] theorem vget_replicate {α : Type} {n : Nat} (i : Fin n) (x : α) :
    vget (Vector.replicate n x) i = x := by simp [vget]

end Sys2Proof
end

