-- ==== Sys2Proof/Machine/Exact.lean ====
section
/-! DEFINITION. Exact numbers and the rounding modes (spec/00_scope.md R12, spec/02_number_formats.md R49-R51). -/

namespace Sys2Proof.Machine

/-- An exact rational number, numerator over positive denominator. -/
structure Q where
  num : Int
  den : Nat
deriving DecidableEq, Repr

/-- A rational in lowest terms. -/
def qmk (n : Int) (d : Nat) : Q :=
  let g := Nat.gcd n.natAbs d
  if g ≤ 1 then ⟨n, if d = 0 then 1 else d⟩ else ⟨n / g, d / g⟩

def qofInt (n : Int) : Q := ⟨n, 1⟩
def qzero : Q := ⟨0, 1⟩
def qone : Q := ⟨1, 1⟩
def qneg (a : Q) : Q := ⟨-a.num, a.den⟩
def qabs (a : Q) : Q := ⟨a.num.natAbs, a.den⟩
def qadd (a b : Q) : Q := qmk (a.num * b.den + b.num * a.den) (a.den * b.den)
def qsub (a b : Q) : Q := qadd a (qneg b)
def qmul (a b : Q) : Q := qmk (a.num * b.num) (a.den * b.den)
/-- Division; a division by zero gives 0 and is guarded by every caller. -/
def qdiv (a b : Q) : Q :=
  if b.num = 0 then qzero
  else qmk (a.num * b.den * b.num.sign) (a.den * b.num.natAbs)
def qlt (a b : Q) : Bool := a.num * b.den < b.num * a.den
def qle (a b : Q) : Bool := a.num * b.den ≤ b.num * a.den
def qeq (a b : Q) : Bool := a.num * b.den == b.num * a.den
def qisZero (a : Q) : Bool := a.num == 0
def qneg? (a : Q) : Bool := a.num < 0
def qmax (a b : Q) : Q := if qlt a b then b else a
def qmin (a b : Q) : Q := if qlt b a then b else a
def qfloor (a : Q) : Int := a.num.fdiv a.den
def qceil (a : Q) : Int := -((-a.num).fdiv a.den)

/-- 2 to the power k, for any integer k. -/
def qpow2 (k : Int) : Q :=
  if k ≥ 0 then ⟨(2 ^ k.toNat : Nat), 1⟩ else ⟨1, 2 ^ (-k).toNat⟩

/-- floor(log2 |q|) of a nonzero q. -/
def qlog2 (q : Q) : Int :=
  let n := q.num.natAbs
  let e : Int := (Nat.log2 n : Int) - Nat.log2 q.den
  if qle (qpow2 e) (qabs q) then e else e - 1

/-- Length in bits of a natural number, 0 for 0. -/
def bitLen (n : Nat) : Nat := if n = 0 then 0 else Nat.log2 n + 1

/-- The rounding modes of R12. -/
inductive Rm where
  | rne | rna | rtz | rup | rdn | rto
deriving DecidableEq, Repr

/-- The rounding field of R51; none for the reserved codes. -/
def rmOfCode (c : Nat) : Option Rm :=
  match c with
  | 0 => some .rne | 1 => some .rna | 2 => some .rtz
  | 3 => some .rup | 4 => some .rdn | 5 => some .rto
  | _ => none

/-- An exact value rounded to an integer (R12, R51). -/
def roundInt (m : Rm) (q : Q) : Int :=
  let f := qfloor q
  let r := qsub q (qofInt f)
  if qisZero r then f else
  let half : Q := ⟨1, 2⟩
  match m with
  | .rdn => f
  | .rup => f + 1
  | .rtz => if f < 0 then f + 1 else f
  | .rne => if qlt r half then f else if qlt half r then f + 1 else if f % 2 = 0 then f else f + 1
  | .rna => if qlt r half then f else if qlt half r then f + 1 else if f < 0 then f else f + 1
  | .rto =>
    let t := if f < 0 then f + 1 else f
    if t % 2 ≠ 0 then t else if qneg? q then t - 1 else t + 1

/-- A value rounded to a float grid of p fraction bits and least exponent emin, the exponent
unbounded above (subnormal steps kept). -/
def roundGrid (m : Rm) (p : Nat) (emin : Int) (q : Q) : Q :=
  if qisZero q then qzero else
  let e := max (qlog2 q) emin
  let u := qpow2 (e - p)
  qmul (qofInt (roundInt m (qdiv q u))) u

/-- Integer square root, bit by bit from bit k down; structural on k. -/
def isqrtFrom (n : Nat) : Nat → Nat → Nat
  | 0, acc => if (acc + 1) * (acc + 1) ≤ n then acc + 1 else acc
  | k + 1, acc =>
    let c := acc + 2 ^ (k + 1)
    isqrtFrom n k (if c * c ≤ n then c else acc)

/-- floor(sqrt n). -/
def isqrt (n : Nat) : Nat := if n = 0 then 0 else isqrtFrom n (Nat.log2 n / 2 + 1) 0

/-- A value with the sign and rounding class of sqrt q: the truncation of sqrt q to a multiple of 2^k,
with 1/4 of that unit added when sqrt q is not exact and its fraction lies below one half, 3/4 when above,
so that every rounding of R12 to a multiple of 2^k (and 2^(k+1)) is that of sqrt q. -/
def qsqrtSticky (q : Q) (k : Int) : Q :=
  -- sqrt(q) / 2^(k-1) truncated
  let s := qdiv q (qpow2 (2 * (k - 1)))
  let fl := (qfloor s).toNat
  let r := isqrt fl
  let exact := qeq (qofInt ((r * r : Nat) : Int)) s
  let v := qmul (qofInt (r : Int)) (qpow2 (k - 1))
  if exact then v else qadd v (qpow2 (k - 2))

/-- Extended reals with NaN: the values a pan computes with (zero has no sign, R44, R45). -/
inductive XVal where
  | nan
  | inf (neg : Bool)
  | fin (q : Q)
deriving DecidableEq, Repr

def XVal.isNan : XVal → Bool
  | .nan => true
  | _ => false
def XVal.isFin : XVal → Bool
  | .fin _ => true
  | _ => false
def XVal.isZero : XVal → Bool
  | .fin q => qisZero q
  | _ => false
def xzero : XVal := .fin qzero

/-- Sign of an extended real, negative true. -/
def XVal.sgn : XVal → Bool
  | .nan => false
  | .inf n => n
  | .fin q => qneg? q

/-- Magnitude comparison of non-NaN extended reals. -/
def xlt : XVal → XVal → Bool
  | .inf a, .inf b => a && !b
  | .inf a, .fin _ => a
  | .fin _, .inf b => !b
  | .fin a, .fin b => qlt a b
  | _, _ => false

/-- The INVALID causes of R150 as coded in CAP_CAUSE (R477). -/
inductive Inval where
  | zeroinf | infinf | scalerange
deriving DecidableEq, Repr

def Inval.code : Inval → Nat
  | .zeroinf => 1
  | .infinf => 2
  | .scalerange => 3

/-- Sum of two extended reals, with the INVALID of R184. -/
def xadd : XVal → XVal → XVal × Option Inval
  | .nan, _ => (.nan, none)
  | _, .nan => (.nan, none)
  | .inf a, .inf b => if a = b then (.inf a, none) else (.nan, some .infinf)
  | .inf a, .fin _ => (.inf a, none)
  | .fin _, .inf b => (.inf b, none)
  | .fin a, .fin b => (.fin (qadd a b), none)

def xneg : XVal → XVal
  | .nan => .nan
  | .inf a => .inf (!a)
  | .fin q => .fin (qneg q)

/-- Product of two extended reals, with the INVALID of R134 and R184. -/
def xmul : XVal → XVal → XVal × Option Inval
  | .nan, _ => (.nan, none)
  | _, .nan => (.nan, none)
  | .inf a, .inf b => (.inf (a != b), none)
  | .inf a, .fin b => if qisZero b then (.nan, some .zeroinf) else (.inf (a != qneg? b), none)
  | .fin a, .inf b => if qisZero a then (.nan, some .zeroinf) else (.inf (qneg? a != b), none)
  | .fin a, .fin b => (.fin (qmul a b), none)

/-- Quotient of two extended reals, with the INVALID of R184 (∞/∞ INFINF, 0/0 ZEROINF). -/
def xdiv : XVal → XVal → XVal × Option Inval
  | .nan, _ => (.nan, none)
  | _, .nan => (.nan, none)
  | .inf _, .inf _ => (.nan, some .infinf)
  | .inf a, .fin b => (.inf (a != qneg? b), none)
  | .fin _, .inf _ => (xzero, none)
  | .fin a, .fin b =>
    if qisZero b then (if qisZero a then (.nan, some .zeroinf) else (.inf (qneg? a), none))
    else (.fin (qdiv a b), none)

end Sys2Proof.Machine
end

