-- ==== Sys2Proof/Machine/Pages.lean ====
section
/-! DEFINITION. The register pages of spec/17 to spec/19 as structures. Each field's default is the reset value
the spec gives it; where the spec gives none the default is named in the assumption log. -/

namespace Sys2Proof.Machine

/-- The register pages of the control window (R455). -/
inductive PageId where
  | glb | sec | pwr | tide | flt | vrd | sal | twn
  | lnk (k : Fin 8) | hrv (n : Fin 8) | rak | pan (p : Fin 64) | qd (q : Fin 16) | slt (n : Fin 8) | tst
  deriving DecidableEq, Repr

/-- A page's place among the 114 page headers, in ascending window offset. -/
def PageId.ix : PageId → Fin 114
  | .glb => 0 | .sec => 1 | .pwr => 2 | .tide => 3 | .flt => 4 | .vrd => 5 | .sal => 6 | .twn => 7
  | .lnk k => ⟨8 + k.1, by omega⟩ | .hrv n => ⟨16 + n.1, by omega⟩ | .rak => 24
  | .pan p => ⟨25 + p.1, by omega⟩ | .qd q => ⟨89 + q.1, by omega⟩ | .slt n => ⟨105 + n.1, by omega⟩ | .tst => 113

/-- A page's window offset shifted right by 12 (R455). -/
def PageId.num : PageId → Nat
  | .glb => 0 | .sec => 1 | .pwr => 2 | .tide => 3 | .flt => 4 | .vrd => 5 | .sal => 6 | .twn => 7
  | .lnk k => 8 + k.1 | .hrv n => 0x10 + n.1 | .rak => 0x18
  | .pan p => 0x20 + p.1 | .qd q => 0x60 + q.1 | .slt n => 0x70 + n.1 | .tst => 0x78

/-- The page at a window page number; none where no page lies (R455). -/
def pageOfNum (n : Nat) : Option PageId :=
  if n = 0 then some .glb else if n = 1 then some .sec else if n = 2 then some .pwr
  else if n = 3 then some .tide else if n = 4 then some .flt else if n = 5 then some .vrd
  else if n = 6 then some .sal else if n = 7 then some .twn
  else if h : 8 ≤ n ∧ n < 16 then some (.lnk ⟨n - 8, by omega⟩)
  else if h : 16 ≤ n ∧ n < 24 then some (.hrv ⟨n - 16, by omega⟩)
  else if n = 24 then some .rak
  else if h : 0x20 ≤ n ∧ n < 0x60 then some (.pan ⟨n - 0x20, by omega⟩)
  else if h : 0x60 ≤ n ∧ n < 0x70 then some (.qd ⟨n - 0x60, by omega⟩)
  else if h : 0x70 ≤ n ∧ n < 0x78 then some (.slt ⟨n - 0x70, by omega⟩)
  else if n = 0x78 then some .tst else none

/-- A unit that runs vector instructions (R254). -/
inductive VecId where
  | hrv (n : Fin 8) | slt (n : Fin 8)
  deriving DecidableEq, Repr

/-- The fields of an instruction word in the register layout of R252, OP apart. -/
structure VFields where
  d  : Fin 32 := 0
  a  : Fin 32 := 0
  b  : Fin 32 := 0
  c  : Fin 32 := 0
  pg : Fin 8 := 0
  m  : BitVec 3 := 0
  deriving DecidableEq, Repr

/-- The control registers a salter's CSR instruction names (R270, R271); the spec numbers none of them. -/
inductive Csr where
  | streams | shard | tvec | tpc | tcause
  /-- A number that names no control register. -/
  | reserved
  deriving DecidableEq, Repr

/-- How a test ended (R499). -/
inductive TestRes where
  | pass | fail | abort
  deriving DecidableEq, Repr

/-- What SECDED found in a word read (R366). -/
inductive EccErr where
  | none | one | two
  deriving DecidableEq, Repr

/-- The detectors whose event replays a tile (R371). -/
inductive ReplayCause where
  | residue | lockstep | eccunc | brine
  deriving DecidableEq, Repr

/-- What the block's sensors measure for a tide task: power estimate, temperatures, eye margins, replica offsets
(R404, R408). -/
structure Meas where
  pest  : W16 := 0
  temp  : Vector W16 17 := Vector.replicate 17 0
  eye   : Vector Byte 72 := Vector.replicate 72 0
  rpoff : Vector Byte 16 := Vector.replicate 16 0
  deriving DecidableEq, Repr

/-- What a page's unit has been told to do; PG_STS is computed from it and the work the unit holds (R459, R460).
`stopping` is QUIESCING by STOP, `quiescing` is QUIESCING by QUIESCE. -/
inductive UMode where
  | active | stopping | quiescing | isolated | faulted
  deriving DecidableEq, Repr

/-- PG_STS STATE (R459). -/
inductive UState where
  | idle | running | quiescing | stopped | isolated | faulted
  deriving DecidableEq, Repr

def UState.code : UState → Nat
  | .idle => 0 | .running => 1 | .quiescing => 2 | .stopped => 3 | .isolated => 4 | .faulted => 5

/-- One error record slot of a page (R359, R363). `replayOpen` says that the tile replay the record began has not
ended (R360). -/
structure ErrSlot where
  valid  : Bool := false
  cause  : Byte := 0
  cls    : BitVec 2 := 0
  esc    : Bool := false
  replay : Bool := false
  fseq   : W16 := 0
  detail : W32 := 0
  replayOpen : Bool := false
  deriving DecidableEq, Repr

/-- The common page header (R459, R363, R385, R463) with the page's holding register and read latch (R457). -/
structure PageHdr where
  abi     : W16 := 0x0100
  clkreq  : Bool := false
  mode    : UMode := .active
  err     : W32 := 0
  errmsk  : W32 := 0
  errsev  : W32 := 0
  slotA   : ErrSlot := {}
  slotB   : ErrSlot := {}
  ovr     : W16 := 0
  corrcnt : BitVec 15 := 0
  icause  : Byte := 0
  imode   : Bool := false
  idbl    : Bool := false
  iarm    : Bool := false
  rejOff  : BitVec 12 := 0
  rejCause : BitVec 4 := 0
  rejCnt  : Byte := 0
  rejValid : Bool := false
  scratch : W32 := 0
  hold    : Option (Nat × W32) := none
  latch   : Option (Nat × W32) := none
  deriving DecidableEq, Repr

/-- A pan map entry (R467). -/
structure PanMapE where
  missing : Bool := true
  phys    : Fin 64 := 0
  deriving DecidableEq, Repr

/-- A slow region (R291). -/
structure Region where
  base : W64 := 0
  lim  : W64 := 0
  deriving DecidableEq, Repr

/-- The command SHT_CMD runs. -/
inductive ShtCmd where
  | plan | activate
  deriving DecidableEq, Repr

/-- GLB page (R466, R467, R473); the queue table is held per logical pan. -/
structure Glb where
  inst     : BitVec 6 := 0
  bstage   : BitVec 4 := 0
  pllfail  : Bool := false
  stfail   : Bool := false
  pwrfail  : BitVec 17 := 0
  histWarm : BitVec 4 := 3
  bpstall  : W16 := 0
  bpstray  : W32 := 0
  panmap   : Vector PanMapE 60 := Vector.replicate 60 {}
  shtBase  : W64 := 0
  shtN     : BitVec 14 := 0
  shtRun   : Option ShtCmd := none
  shtAddr  : W64 := 0
  shtRes   : BitVec 4 := 0
  shtPool  : W64 := 0
  shtPen   : W64 := 0
  slow     : Vector Region 4 := Vector.replicate 4 {}
  fastCap  : W64 := 0
  slowCap  : W64 := 0
  freserve : W64 := 0
  fastBw   : W32 := 0x00225510
  slowBw   : W32 := 1
  pgBase   : W64 := 0
  pgSize   : W64 := 0
  pondPages : BitVec 14 := 0
  intpnd   : BitVec 96 := 0
  inten    : BitVec 96 := 0
  intdst   : Vector (BitVec 3) 96 := Vector.replicate 96 0
  msgAddr  : W64 := 0
  msgData  : W32 := 0
  msgQuad  : Fin 16 := 0
  msgShare : BitVec 2 := 0
  deriving DecidableEq, Repr

/-- One link key slot (R416, R430). The 256 key bits never leave the block. -/
structure KeySlot where
  valid  : Bool := false
  kid    : W32 := 0
  ksess0 : W16 := 0
  key    : BitVec 256 := 0
  /-- The key was loaded before ADOPTED was set (R419). -/
  preAdopt : Bool := false
  deriving DecidableEq, Repr

/-- SEC page (R430, R472). -/
structure Sec where
  lcs      : BitVec 2 := 0
  lcsbad   : Bool := false
  lcschg   : Bool := false
  svnfuse  : BitVec 6 := 0
  rkrevoke : BitVec 4 := 0
  fwBase   : W64 := 0
  fwRun    : Bool := false
  fwRes    : BitVec 4 := 0
  fwFail   : BitVec 2 := 0
  fwLock   : Bool := false
  fwSvn    : Byte := 0
  fwKey    : BitVec 2 := 0
  fwDigest : List Byte := List.replicate 48 0
  kid      : W32 := 0
  kload    : Option (Fin 2 × W32) := none
  kres     : BitVec 3 := 0
  lk       : Vector KeySlot 2 := Vector.replicate 2 {}
  txksel   : Fin 2 := 0
  kerasecnt : W16 := 0
  kercause : BitVec 3 := 0
  dbggrant : BitVec 2 := 0
  dbgmax   : BitVec 2 := 2
  dbglvl   : BitVec 2 := 0
  dbgnoflt : Bool := false
  dbgsess  : W16 := 0
  dbgend   : BitVec 3 := 0
  /-- LOAD is refused until cold reset (R423). -/
  noload   : Bool := false
  deriving DecidableEq, Repr

/-- The power state (R390). -/
inductive PState where
  | off | retain | doze | active
  deriving DecidableEq, Repr

def PState.code : PState → Nat
  | .off => 0 | .retain => 1 | .doze => 2 | .active => 3

/-- The transition that PBUSY reports, by the step it has reached (R391, R392, R394). -/
inductive PTrans where
  | dozeEntry | dozeWait | dozeWake | retainEntry | retainPower | retainLock | retainInit | pfPush
  deriving DecidableEq, Repr

/-- A pan's power state (R396). -/
inductive PanPwr where
  | gated | waking | live
  deriving DecidableEq, Repr

def PanPwr.code : PanPwr → Nat
  | .gated => 0 | .waking => 1 | .live => 2

/-- PWR page (R469). The pans' power states lie with the pans. -/
structure Pwr where
  pstate   : PState := .active
  ptrans   : Option PTrans := none
  pres     : BitVec 4 := 0
  /-- The wake that runs was commanded by PCMD. -/
  wakeCmd  : Bool := false
  /-- The power-fail sequence was started by REFLOSS or TTRIP (R490). -/
  pfOther  : Bool := false
  fmul     : BitVec 7 := 0x58
  fnow     : BitVec 7 := 0x58
  autowake : Bool := true
  pidle    : W32 := 0
  vshared  : Byte := 0x78
  refloss  : Bool := false
  talm     : Bool := false
  ttrip    : Bool := false
  talarm   : W16 := 0x0348
  tseq     : W32 := 0
  tick     : W64 := 0
  /-- Messages that fell due in DOZE (R448). -/
  heldMsg  : List (Fin 96) := []
  /-- The history checkpoint in the retention store is valid (R384, R451). -/
  ckptOk   : Bool := false
  /-- The journal tail in the retention store is valid. -/
  tailOk   : Bool := false
  deriving DecidableEq, Repr

/-- A tide table entry (R405). `relAt` and `relQ` are the T and q of the run in progress (R406). -/
structure TideE where
  ten     : Bool := false
  task    : BitVec 4 := 0
  fsalt   : Fin 8 := 0
  tkind   : Bool := false
  period  : W32 := 0
  next    : W32 := 0
  debt    : W32 := 0
  latecnt : W16 := 0
  runs    : W32 := 0
  susp    : Bool := false
  running : Bool := false
  relAt   : Nat := 0
  relQ    : Nat := 0
  /-- The period of the next release; 0 before the entry's first one. -/
  nextQ   : Nat := 0
  /-- Time in the entry's own unit since it was last enabled. -/
  now     : Nat := 0
  deriving DecidableEq, Repr

/-- The entries of the tide table at reset (R404). Entry 6's PERIOD is TWN HBPER. -/
def tideInit : Vector TideE 16 :=
  ⟨#[{ ten := true, task := 0, period := 2500000 }, { ten := true, task := 1, period := 25000000 },
     { ten := true, task := 2, period := 12500000 }, { ten := true, task := 3, period := 2250000000 },
     { ten := true, task := 4, period := 250000 }, { ten := true, task := 5, tkind := true, period := 64 },
     { task := 6 }, { task := 7 }, { task := 7 }, { task := 7 }, { task := 7 }, { task := 7 }, { task := 7 },
     { task := 7 }, { task := 7 }, { task := 7 }], rfl⟩

/-- TIDE page (R470). -/
structure Tide where
  lag   : W16 := 0
  ent   : Vector TideE 16 := tideInit
  /-- Tick of the previous WEAR run's start, and whether the run in progress waits for background tests (R500). -/
  wearPrev : Nat := 0
  wearTests : Bool := false
  deriving DecidableEq, Repr

/-- FLT page (R365, R471). -/
structure Flt where
  eqPi     : W32 := 0
  eqCi     : W32 := 0
  eqFull   : W16 := 0
  /-- Sequence number of the next record. -/
  fseq     : W32 := 0
  hsalt    : Fin 8 := 0
  wdt      : W32 := 0x61A8
  brto     : W32 := 0x61A8
  fpan     : W64 := 0
  fhrv     : Byte := 0
  fslt     : Byte := 0
  frake    : Bool := false
  nospare  : Bool := false
  lastrst  : BitVec 3 := 0
  pfstate  : BitVec 2 := 0
  rsvok    : W64 := 0
  replaycnt : W32 := 0
  swapcnt  : W16 := 0
  /-- Records that found the ring full and wait in their units (R364). -/
  eqWait   : List (List Byte) := []
  deriving DecidableEq, Repr

/-- An entry of the verdict log (R486). -/
structure VLog where
  step   : W32 := 0
  valid  : Bool := false
  commit : Bool := false
  flags  : BitVec 3 := 0
  missing : Bool := false
  onf    : BitVec 7 := 0
  oab    : BitVec 7 := 0
  oft    : BitVec 7 := 0
  lwait  : W32 := 0
  deriving DecidableEq, Repr

/-- The registers of the VRD page (R485, R486); the open step's work is held beside it. -/
structure VrdRegs where
  vstep   : W32 := 0
  closed  : Bool := false
  njobs   : BitVec 14 := 0
  sent    : Bool := false
  oflags  : BitVec 3 := 0
  deputy  : Bool := false
  vjobs   : BitVec 14 := 0
  vparent : Byte := 0xFF
  vplink  : Fin 8 := 0
  vsub    : BitVec 7 := 1
  vsize   : BitVec 7 := 1
  vdep    : Byte := 0xFF
  pnfEn   : Bool := true
  vchild  : W64 := 0
  vwait   : W32 := 0x0003D090
  skiplim : Byte := 8
  skiprun : Byte := 0
  vseqerr : W16 := 0
  vlate   : W16 := 0
  loghead : BitVec 4 := 0xF
  log     : Vector VLog 16 := Vector.replicate 16 {}
  deriving DecidableEq, Repr

/-- SAL page (R484). -/
structure Sal where
  almcnt  : W32 := 0
  acapV   : Bool := false
  acapKind : BitVec 2 := 0
  acapSlot : BitVec 12 := 0
  acapStep : W32 := 0
  evals   : W32 := 0
  deriving DecidableEq, Repr

/-- JSTATE (R354). -/
inductive JState where
  | idle | joining | joined | refused | fenced
  deriving DecidableEq, Repr

/-- TKSTATE (R352). -/
inductive TkState where
  | none | adopting | done | failed
  deriving DecidableEq, Repr

/-- The registers of the TWN page (R354, R487). -/
structure TwnRegs where
  domain  : W16 := 0
  prot    : BitVec 2 := 2
  members : W64 := 0
  session : W16 := 0
  jstate  : JState := .idle
  jerr    : BitVec 4 := 0
  rapbase : W64 := 0
  rw      : Vector Region 4 := Vector.replicate 4 {}
  boseed  : W32 := 1
  valtp   : Byte := 0xFF
  valtl   : Fin 8 := 0
  nextdep : Byte := 0xFF
  twen    : Bool := false
  twin    : BitVec 6 := 0
  twlink  : Fin 8 := 7
  hbalt   : Fin 8 := 0
  hbper   : W32 := 0x61A8
  tkwait  : W32 := 0x005F5E10
  sfwait  : W32 := 0x002FAF08
  xoff    : W64 := 0
  adopted : Byte := 0xFF
  tkstate : TkState := .none
  jlag    : W16 := 0
  route   : Vector Byte 64 := Vector.replicate 64 0
  deriving DecidableEq, Repr

/-- The registers of a LNK page (R344, R488). -/
structure LnkRegs where
  lstate  : BitVec 2 := 0
  ltrain  : Bool := false
  lquad   : Fin 16 := 0
  lshare  : BitVec 2 := 0
  laneok  : BitVec 9 := 0
  lanefail : BitVec 9 := 0
  spared  : BitVec 4 := 0xF
  corrthr : W32 := 0x00020000
  feccorr : W32 := 0
  fecunc  : W32 := 0
  crcerr  : W32 := 0
  retx    : W32 := 0
  noroom  : W32 := 0
  winerr  : W16 := 0
  strtype : W16 := 0
  strdom  : W16 := 0
  strdst  : W16 := 0
  strsrc  : W16 := 0
  strauth : W16 := 0
  scapV   : Bool := false
  scapCause : BitVec 3 := 0
  twunclaimed : Bool := false
  scapTick : W32 := 0
  scapHdr : List Byte := List.replicate 32 0
  rto     : W16 := 0x007D
  bobase  : Byte := 0x10
  retrylim : Byte := 0x10
  deriving DecidableEq, Repr

/-- Sticky IEEE flags (R266) of a page. -/
structure FlagReg where
  nv : Bool := false
  dz : Bool := false
  of : Bool := false
  uf : Bool := false
  nx : Bool := false
  deriving DecidableEq, Repr

/-- The registers of a QD page (R479); the loop's own state follows R400. -/
structure Qd where
  vcode   : Byte := 0x78
  vmin    : Byte := 0x3C
  vmax    : Byte := 0x78
  slacklo : BitVec 6 := 6
  slackhi : BitVec 6 := 0xC
  rpoff   : Byte := 0
  stretch : Bool := false
  vidto   : Bool := false
  /-- Code of the request that awaits its ACK. -/
  reqout  : Option Byte := none
  slacknow : BitVec 6 := 0
  strcnt  : W32 := 0
  temp    : W16 := 0
  /-- `high` of R400. -/
  high    : Nat := 0
  /-- Windows stretched since the last snapshot (R408). -/
  strw    : Byte := 0
  /-- VID_Qq_CODE, VID_Qq_REQ and VID_Qq_EN as driven (R397, R443). -/
  vidCode : Byte := 0
  vidReq  : Bool := false
  vidEn   : Bool := false
  deriving DecidableEq, Repr

/-- The registers of an HRV page (R480). -/
structure HrvRegs where
  fl      : FlagReg := {}
  hquad   : Fin 16
  hshare  : BitVec 2 := 0
  jobs    : W32 := 0
  jfaults : W32 := 0
  deriving DecidableEq, Repr

/-- The registers of an SLT page (R481). -/
structure SltRegs where
  fl      : FlagReg := {}
  squad   : Fin 16
  sshare  : BitVec 2 := 1
  cust    : Bool := false
  cgo     : Bool := false
  chalt   : Bool := false
  cres    : BitVec 2 := 0
  cimg    : W64 := 0
  clen    : BitVec 18 := 0
  carg    : W64 := 0
  pc      : W32 := 0
  tcause  : BitVec 3 := 0
  traps   : W32 := 0
  deriving DecidableEq, Repr

/-- The registers of the RAK page (R483). -/
structure RakRegs where
  rres    : BitVec 4 := 0
  rrmid   : BitVec 12 := 0
  quad    : Fin 16 := 0
  share   : BitVec 2 := 2
  xcBase  : W64 := 0
  xcSize  : W32 := 0
  events  : W32 := 0
  deriving DecidableEq, Repr

/-- The registers of a PAN page (R477). -/
structure PanRegs where
  flushed  : Bool := false
  invalid  : Bool := false
  overflow : Bool := false
  tilecnt  : W32 := 0
  capV     : Bool := false
  capCause : BitVec 2 := 0
  capPos   : Byte := 0
  capOid   : W32 := 0
  capRow   : W32 := 0
  capCol   : W32 := 0
  capGroup : W32 := 0
  liveticks : BitVec 48 := 0
  deriving DecidableEq, Repr

/-- The registers of the TST page (R489, R498). -/
structure TstRegs where
  trEn     : BitVec 6 := 0x3F
  trFreeze : Bool := false
  trPi     : W32 := 0
  dwUnit   : Byte := 0
  dwAddr   : W64 := 0
  dwData   : W64 := 0
  dwErr    : Bool := false
  dhPan    : W64 := 0
  dhHrv    : Byte := 0
  dhSlt    : Byte := 0
  dhRak    : Bool := false
  tsUnit   : Byte := 0
  tsKind   : BitVec 4 := 0
  tsRes    : BitVec 3 := 0
  tsRunit  : Byte := 0
  tsTicks  : W32 := 0
  tsFaddr  : W64 := 0
  tsVcode  : Byte := 0
  svTests  : W32 := 0
  svFails  : W32 := 0
  bypPan   : W64 := 0
  bypHrv   : Byte := 0
  bypSlt   : Byte := 0
  bypRak   : Bool := false
  bypLnk   : Byte := 0
  svcAddr  : W64 := 0
  svcRes   : BitVec 2 := 0
  tempmax  : Vector W16 17 := Vector.replicate 17 0x8000
  deriving DecidableEq, Repr

end Sys2Proof.Machine
end

