-- ==== Sys2Proof/Machine/Work.lean ====
section
/-! DEFINITION. The work the block's units hold: descriptors, orders, chains, running orders, jobs, frames, events.
Layouts are those of spec/03 (descriptors), 07 (chains), 08 (orders), 09 (programs), 10 (shards), 12 (frames). -/

namespace Sys2Proof.Machine

/-- A map from numbers to data, as a list with rising keys that lists no default entry. -/
abbrev SMap (α : Type) := List (Nat × α)

/-- A tensor descriptor, decoded (R70). `addr` is where it was read. -/
structure Desc where
  addr   : Nat := 0
  base   : Nat := 0
  aux    : Nat := 0
  side   : Nat := 0
  stats  : Nat := 0
  coarse : W32 := 0
  rows   : Nat := 0
  klen   : Nat := 0
  rowstride : Nat := 0
  mepoch : W32 := 0
  hist   : Nat := 0
  fmt    : Nat := 0
  fsk    : Nat := 0
  gsz    : Nat := 0
  layout : Nat := 0
  masked : Bool := false
  openok : Bool := false
  zpt    : Bool := false
  nout   : Nat := 0
  cbslot : Nat := 0
  deriving DecidableEq, Repr

/-- An order, decoded (R214, R215). -/
structure Order where
  oid    : W32 := 0
  tide   : Bool := false
  split  : Bool := false
  settle : Bool := false
  fence  : Bool := false
  xa     : Bool := false
  xb     : Bool := false
  irq    : Bool := false
  oflags : W16 := 0
  msel   : Nat := 0
  chain  : Nat := 0
  descA  : Nat := 0
  descB  : Nat := 0
  descOut : Nat := 0
  row0   : Nat := 0
  nrows  : Nat := 0
  col0   : Nat := 0
  ncols  : Nat := 0
  trows  : Nat := 0
  tcols  : Nat := 0
  kg0    : Nat := 0
  nkg    : Nat := 0
  ptag   : W32 := 0
  sinst  : Nat := 0
  span   : Nat := 0
  mid    : Nat := 0
  wcrec  : Nat := 0
  wepoch : W32 := 0
  stag   : W32 := 0
  parea  : Nat := 0
  pslots : Nat := 0
  deriving DecidableEq, Repr

/-- A stage entry: its 32 bytes as read (R180, R190). -/
structure Stage where
  raw : List Byte
  deriving DecidableEq, Repr

/-- A chain as copied when the order started (R178, R179). -/
structure Chain where
  nstg : Nat := 0
  subn : Bool := false
  ovf  : Bool := false
  ctag : W32 := 0
  stages : List Stage := []
  deriving DecidableEq, Repr

/-- Events gathered by a tile or an order (R113, R114, R150). -/
structure Ev where
  sat   : Nat := 0
  under : Nat := 0
  ovr  : Bool := false
  flushed : Bool := false
  invalid : Nat := 0
  overflow : Nat := 0
  nonfin : Nat := 0
  badcake : Bool := false
  deriving DecidableEq, Repr

/-- An INVALID event for the capture (R151). -/
structure InvCap where
  row : Nat
  col : Nat
  group : Nat
  pos : Nat
  cause : Nat
  deriving DecidableEq, Repr

/-- One group result of one output value in a split product (R238): a KIND 0 block carries X40 values, a KIND 1
block 96-bit contributions. -/
structure PBlock where
  q    : Nat
  kind : Nat
  vals : List Nat
  ovf  : Bool := false
  inv  : Nat := 0
  cap  : Option InvCap := none
  ngrp : Nat := 1
  deriving DecidableEq, Repr

/-- A grant as held by a sender (R237). -/
structure Grant where
  front : Nat
  pslots : Nat
  parea : Nat
  deriving DecidableEq, Repr

/-- The fold of a SETTLE order (R237, R239). `slots` lists the noticed slots with the sequence index whose block they
hold, `own` the order's own group results of the running tile, `folded` the blocks already folded for it. -/
structure Fold where
  front : Nat := 0
  slots : List (Nat × Nat) := []
  own   : List PBlock := []
  folded : List PBlock := []
  /-- Events of the order's own groups and of the blocks folded for the running tile, with the capture candidate. -/
  ev : Ev := {}
  cap : Option InvCap := none
  received : Bool := false
  deriving DecidableEq, Repr

/-- Bytes of operand A rows that TILE frames have brought for a tidewater order (R234): the first row, the rows its
frames name, and their bytes so far. -/
structure TideFrag where
  first : Nat
  nrow  : Nat
  bytes : List Byte
  deriving DecidableEq, Repr

/-- One position's value before the coarse scale: the code's value v (after SUBN), the fine scale (none for NaN), its
E8M0 exponent and the stored pattern of an FP32 code (R75, R148). -/
structure El where
  v    : XVal
  fine : Option Q := some qone
  k    : Int := 0
  raw  : Nat := 0
  side : Bool := false
  deriving DecidableEq, Repr

/-- A group of an operand row: what each position holds, absent ones none. -/
structure Grp where
  /-- Malformed on both reads: every position is a NaN product (R69). -/
  bad  : Bool := false
  addr : Nat := 0
  /-- E8M0 exponent and NaN of the fine scale, for integer rescale (R147). -/
  k    : Int := 0
  nanScale : Bool := false
  els  : List (Option El) := []
  /-- FSCALE, ZP and the stored codes as read. -/
  fs   : Nat := 0
  zp   : Int := 0
  var  : Bool := false
  count : Nat := 0
  codes : List Nat := []
  /-- A subnormal of the group was flushed. -/
  flushed : Bool := false
  deriving DecidableEq, Repr

/-- A malformed cake met by a read, for its error record. -/
structure CakeBad where
  addr  : Nat
  row   : Nat
  group : Nat
  deriving DecidableEq, Repr

/-- What the reads of a row gave: its groups, malformed cakes, and whether a subnormal was flushed. -/
structure RowRd where
  grps : List Grp := []
  bads : List CakeBad := []
  deriving DecidableEq, Repr

/-- The atomic operations the block issues (R232). -/
inductive Aop where
  | addl16 | addl32 | maxu32 | or32
  deriving DecidableEq, Repr

/-- A store of a tile; a store of an output row names the row and the byte offset in it. A cake written by two stores lands
with the second: `cake` holds its bytes there, and none at the first (R80, R283). -/
structure TWrite where
  addr  : Nat
  bytes : List Byte
  row   : Option (Nat × Nat) := none
  cake  : Option (List Byte) := none
  deriving DecidableEq, Repr

/-- A computed tile whose stores into the remote aperture are not all acknowledged (R229, R331): the parked tile of a second
pass, its mode, and what is still to be done. -/
structure TileCont where
  second : Option Nat := none
  mode   : Nat
  fits   : Bool
  blocks : List PBlock := []
  ev     : Ev := {}
  cap    : Option InvCap := none
  writes : List TWrite := []
  merges : List (Aop × Nat × Nat) := []
  deriving DecidableEq, Repr

/-- An order that a pan has taken and not completed (R222), with the copies it started with (R89, R178). -/
structure Run where
  n      : Nat
  ord    : Order
  chain  : Chain
  dA     : Desc := {}
  dB     : Desc := {}
  dOut   : Desc := {}
  dV     : Desc := {}
  cbA    : List W16 := []
  cbB    : List W16 := []
  cbOut  : List W16 := []
  cbV    : List W16 := []
  /-- Outlier lists. -/
  olA    : List Nat := []
  olB    : List Nat := []
  olOut  : List Nat := []
  olV    : List Nat := []
  /-- Directory slots whose reader counts the order holds: MID and slot (R163). -/
  rdr    : List (Nat × Bool) := []
  /-- Shard slot the order holds (R279). -/
  hold   : Option (Nat × Bool) := none
  next   : Nat := 0
  started : Bool := false
  sparse : Bool := false
  replayed : Bool := false
  /-- Header writes of an open group have begun (R372). -/
  opened : Bool := false
  tiles  : Nat := 0
  ev     : Ev := {}
  mode   : Nat := 0
  /-- Cakes whose second read was good: address and bytes (R69). -/
  good   : List (Nat × List Byte) := []
  /-- Addresses of cakes whose second read was also malformed. -/
  badc   : List Nat := []
  grant  : Option Grant := none
  /-- Blocks of a SPLIT order formed and not yet sent. -/
  blocks : List PBlock := []
  fold   : Fold := {}
  frags  : List TideFrag := []
  /-- Rows of the stationary operand that a tidewater order loaded when it was armed (R233), by row. -/
  held   : List (Nat × RowRd) := []
  cont   : Option TileCont := none
  /-- A STOP has ended the order: it completes ABORTED after its running tile (R121). -/
  abort  : Bool := false
  deriving DecidableEq, Repr

/-- The epoch gate of a window order (R223). -/
inductive Gate where
  | unread | wait
  deriving DecidableEq, Repr

/-- A fetched order in the window (R221). -/
structure WinE where
  n    : Nat
  ord  : Order
  gate : Gate := .unread
  /-- The cause of a wait at the gate, by the codes of R478. -/
  why  : Nat := 0
  /-- Grant received for a sender that has not started (R237). -/
  grant : Option Grant := none
  deriving DecidableEq, Repr

/-- A tile parked by a two-pass order (R118, R120): the order's ring index, the tile and its history slot. -/
structure Parked where
  n     : Nat
  tile  : Nat
  hist  : Nat
  /-- COARSE, once a settle event for the slot has reached the pan. -/
  settled : Option W32 := none
  deriving DecidableEq, Repr

/-- A completed order whose record waits to be written (R226, R230). -/
structure Done where
  n      : Nat
  oid    : W32
  ctag   : W32 := 0
  status : Nat
  mode   : Nat := 0
  ev     : Ev := {}
  irq    : Bool := false
  tiles  : Nat := 0
  oflags : W16 := 0
  ppan   : Nat := 0
  /-- Reader counts and the hold that the order keeps until its record is written (R163, R279). -/
  rdr    : List (Nat × Bool) := []
  hold   : Option (Nat × Bool) := none
  deriving DecidableEq, Repr

/-- A settlement that a pan must carry out (R120): the ring index of the order whose increment brought TILEDONE to TILES, the
mode of the step, and the tensor's descriptor and codebook copy, which outlive the order. -/
structure Settling where
  n    : Nat
  mode : Nat
  d    : Desc
  cb   : List W16 := []
  oid  : W32 := 0
  deriving DecidableEq, Repr

/-- A logical pan: its queue (R219) and the orders it has taken (R221, R222). -/
structure LPan where
  qen    : Bool := false
  flush  : Option W32 := none
  wqLog2 : BitVec 4 := 4
  cqLog2 : BitVec 5 := 4
  wqBase : W64 := 0
  wqPi   : W32 := 0
  wqFi   : W32 := 0
  cqBase : W64 := 0
  cqPi   : W32 := 0
  cqCi   : W32 := 0
  /-- Ring index of the next order to fetch. -/
  fetchN : W32 := 0
  /-- Fetching stopped after a failed read (R221). -/
  fetchStop : Bool := false
  win    : List WinE := []
  /-- Ring indices at or above WQ_FI whose orders have been taken. -/
  ahead  : List W32 := []
  run    : Option Run := none
  /-- Orders all of whose tiles have passed and that wait for a second pass or a settlement. -/
  passed : List Run := []
  parked : List Parked := []
  armed  : Vector (Option Run) 16 := Vector.replicate 16 none
  /-- The tidewater slot whose order runs the started tile. -/
  tideTile : Option (Fin 16) := none
  done   : List Done := []
  /-- The settlement this pan must carry out before it starts another order or tile. -/
  settle : Option Settling := none
  /-- Notices on their way to this pan: sequence index and local sender (R238). -/
  notices : List (Nat × Option (Fin 60)) := []
  deriving DecidableEq, Repr

/-- A physical pan. -/
structure Pan where
  regs : PanRegs := {}
  pwr  : PanPwr := .gated
  /-- The logical number this reserve has been woken for by a spare swap or a rotation. -/
  wakeFor : Option (Fin 60) := none
  /-- That swap serves an ISOLATE: it counts in no register (R501). -/
  forIsolate : Bool := false
  /-- Tick at which the pan's last test ended (R500). -/
  testedAt : Nat := 0
  /-- Words the debug window has stored in the pan store, by offset. -/
  store : SMap Byte := []
  deriving DecidableEq, Repr

/-- The vector registers of a harvest engine or salter (R251). Lane masks hold one bit per lane. -/
structure VecUnit (L : Nat) where
  v   : Vector (Vector W32 L) 32 := Vector.replicate 32 (Vector.replicate L 0)
  p   : Vector (BitVec L) 8 := Vector.replicate 8 0
  s   : Vector W32 32 := Vector.replicate 32 0
  frm : BitVec 3 := 0
  deriving DecidableEq, Repr

/-- A stream binding (R257). -/
structure StreamB where
  role : Nat := 0
  raw  : Bool := false
  ovf  : Bool := false
  nfchk : Bool := false
  deriving DecidableEq, Repr

/-- A held program image (R257). -/
structure Image where
  addr : Nat
  words : List W32
  streams : List StreamB
  /-- The image breaks a rule of R253. -/
  bad : Bool := false
  /-- Its address or header does (R257): it is not held. -/
  refused : Bool := false
  deriving DecidableEq, Repr

/-- A value stored by STS and not yet written (R260, R261): stream role, element, value bits and DBL. -/
structure StsVal where
  role : Nat
  elem : Nat
  dbl  : Bool
  bits : Nat
  deriving DecidableEq, Repr

/-- Descriptors a job or a salter's streams resolve to (R286, R270). -/
structure Bind where
  shard : Nat := 0
  /-- The eight descriptors of the slot block: slot A weight and companions, then slot B's. -/
  blk   : List Desc := []
  slot  : Bool := false
  gdesc : Desc := {}
  aux   : Desc := {}
  slow  : Bool := false
  /-- Address moved by the page-in for _IN reads: the pool copy's offset (R298). -/
  pool  : Option Nat := none
  /-- The elements of R247: row and position, in order. -/
  elems : List (Nat × Nat) := []
  deriving DecidableEq, Repr

/-- A shard completion record (R267). -/
structure JobRec where
  shard  : Nat
  step   : W32
  lslot  : Nat
  nonfinite : Bool := false
  fault  : Bool := false
  absorb : Nat := 0
  carry  : Nat := 0
  dw2    : W64 := 0
  w2     : W64 := 0
  deriving DecidableEq, Repr

/-- A running update job (R247 to R250, R286). -/
structure Job where
  bind   : Bind
  img    : Image
  lslot  : Nat := 0
  jstep  : W32 := 0
  batch  : Nat := 0
  pc     : Nat := 0
  sts    : List StsVal := []
  jrec   : JobRec
  /-- The inactive slot has been written; its completion record waits for the responses (R267). -/
  stored : Bool := false
  /-- The PEND entry the twin has yet to acknowledge (R350). -/
  pendSeq : Option W32 := none
  deriving DecidableEq, Repr

/-- A harvest engine. -/
structure Hrv where
  regs : HrvRegs
  vec  : VecUnit 64 := {}
  job  : Option Job := none
  /-- Held images, the one whose last job started longest ago first. -/
  images : List Image := []
  pflush : Bool := false
  /-- Bytes the debug window has stored in the engine's state. -/
  store : SMap Byte := []
  deriving DecidableEq, Repr

/-- What a salter is doing. -/
inductive SltRun where
  | idle | run | wfe | fence
  deriving DecidableEq, Repr

/-- A salter. The control registers are those R270 and R271 name. -/
structure Slt where
  regs : SltRegs
  /-- p0 reads 1 in every lane before the first SADV (R270). -/
  vec  : VecUnit 16 := { p := (Vector.replicate 8 (0 : BitVec 16)).set 0 0xFFFF#16 }
  x    : Vector W64 32 := Vector.replicate 32 0
  mode : SltRun := .idle
  pc   : W32 := 0
  lmem : SMap Byte := []
  streams : W64 := 0
  shard : W64 := 0
  tvec : W64 := 0
  tpc  : W64 := 0
  tcause : W64 := 0
  /-- Inside the trap handler (R271). -/
  inTrap : Bool := false
  /-- An event has come and no WFE has taken it. -/
  event : Bool := false
  /-- Batches advanced by SADV; 0 before the first. -/
  batch : Nat := 0
  sts   : List StsVal := []
  deriving DecidableEq, Repr

/-- A shard record latched at ACTIVATE (R273). -/
structure ShardRec where
  role : Nat := 0
  slow : Bool := false
  pin  : Bool := false
  msteps : Nat := 1
  owner : Nat := 0
  mid  : Nat := 0
  masked : Bool := false
  lslot : Nat := 0
  sblk : Nat := 0
  crec : Nat := 0
  prog : Nat := 0
  scal : Nat := 0
  gdesc : Nat := 0
  auxd : Nat := 0
  ucad : Nat := 0
  /-- What the addresses of an adopted shard's descriptors are moved by: XOFF (R352); 0 for the instance's own. -/
  xoff : Nat := 0
  deriving DecidableEq, Repr

/-- A gradient cake or group that waits for a verdict or for pond pages, with its credit (R285, R297). -/
structure HeldGrad where
  /-- Its place in the order in which held gradients came. -/
  no   : Nat := 0
  addr : Nat
  bytes : List Byte
  /-- Link and frame acknowledged once it lands; none for a local pan. -/
  src : Option (Nat × Nat × Nat) := none
  deriving DecidableEq, Repr

/-- How far a follower fetch has come (R280): the hold is asked for; it is held; the fresh read of the record agreed. -/
inductive FetchPh where
  | asked | held | agreed
  deriving DecidableEq, Repr

/-- A shard's state entry (R275) with the record latched at ACTIVATE. -/
structure Shard where
  srec  : ShardRec := {}
  gd    : Desc := {}
  cep   : W32 := 0
  slot  : Bool := false
  ready : Bool := false
  run   : Bool := false
  pend  : Bool := false
  pgin  : Bool := false
  staged : Bool := false
  /-- A follower fetch in progress (R280): the owner's record as first read, the salter that runs it, and how far it is. -/
  fetch : Option (List W32 × Fin 8 × FetchPh) := none
  /-- The fetch has found the owner's record too old and waits for the next COMMIT (R280). -/
  fetchWait : Bool := false
  badrec : Bool := false
  rdrA  : Byte := 0
  rdrB  : Byte := 0
  msf   : Byte := 0
  gcnt  : W32 := 0
  gexp  : W32 := 0
  jstep : W32 := 0
  pgs   : W32 := 0
  nel   : W32 := 0
  /-- Order in which the shard became READY. -/
  readyNo : Nat := 0
  /-- The page-in pool range taken: offset and bytes (R298). -/
  pool  : Option (Nat × Nat) := none
  /-- Waits for pool space, in first-landed order. -/
  pgWait : Option Nat := none
  held  : List HeldGrad := []
  /-- The record's flip has been issued and not answered (R287). -/
  flip  : Option (List W32) := none
  deriving DecidableEq, Repr

/-- A mask directory entry (R161). -/
structure DirE where
  mep   : W32 := 0
  seed  : W32 := 0
  crec  : W64 := 0
  rblk  : W64 := 0
  cadence : W16 := 0
  phase : W16 := 0
  cstep : W32 := 0
  cgTotal : W32 := 0
  cgTiles : W32 := 0
  xepA  : W32 := 0
  xepB  : W32 := 0
  role  : BitVec 2 := 0
  slot  : Bool := false
  busy  : Bool := false
  nog   : Bool := false
  xcfg  : Byte := 0
  xch   : Byte := 0
  cands : Byte := 0
  ktarget : Byte := 0
  kstep : Byte := 0
  rdrA  : Byte := 0
  rdrB  : Byte := 0
  misscnt : W16 := 0
  /-- The entry's word is uncorrectable; orders naming it fail until LOAD or FOLLOW (R367). -/
  lost  : Bool := false
  deriving DecidableEq, Repr

/-- A queued or running rake event with what it latched (R161, R168). -/
structure RakeEv where
  mid : Nat
  step : W32
  xch : Nat
  cands : Nat
  ktarget : Nat
  kstep : Nat
  /-- Step of R173 the event has reached: 1 queued, 5 flipped. -/
  at_ : Nat := 1
  deriving DecidableEq, Repr

/-- A Rake command (R164). -/
inductive RakeOp where
  | load | follow | drop
  deriving DecidableEq, Repr

structure RakeCmd where
  op : RakeOp
  slot : Bool
  mid : Nat
  /-- Accepted while the page read STOPPED; it runs at RUN (R483). -/
  held : Bool := false
  deriving DecidableEq, Repr

structure Rak where
  regs : RakRegs := {}
  cmd  : Option RakeCmd := none
  evq  : List RakeEv := []
  /-- Events past step 5 that wait for the retirement of slot X. -/
  retire : List RakeEv := []
  /-- The fenced Rake has failed its test: firmware carries out what is left (R377). -/
  failed : Bool := false
  deriving DecidableEq, Repr

/-- A salinometer layer slot (R314). -/
structure SalSlot where
  dw2  : W64 := 0
  w2   : W64 := 0
  absn : W32 := 0
  carn : W32 := 0
  silent : W32 := 0
  lstep : W32 := 0
  rlim : W32 := 0x3F800000
  slim : W32 := 0x200
  ablim : W32 := 0
  sctl : Byte := 1
  alm  : BitVec 3 := 0
  gnz  : Bool := false
  deriving DecidableEq, Repr

/-- A scale history slot (R123): sixteen entries, newest first; empty entries are 0x7FFF_FFFF. -/
structure HistSlot where
  e : List W32 := List.replicate 16 0x7FFFFFFF
  deriving DecidableEq, Repr

/-- The sums of one evaluated layer slot (R316). -/
structure EvalSum where
  slot : Nat
  dw2  : W64
  w2   : W64
  absn : Nat
  carn : Nat
  silent : Bool
  gnz  : Bool
  ratio : Bool
  /-- SCTL, SLIM and ABLIM as the evaluation found them (R314). -/
  sctl : Byte := 1
  slim : W32 := 0
  ablim : W32 := 0
  deriving DecidableEq, Repr

/-- The contents of a VUP or VDN frame (R305). -/
structure VMsg where
  step : W32 := 0
  nonfinite : Bool := false
  absurd : Bool := false
  fault : Bool := false
  missing : Bool := false
  count : Nat := 0
  onf : Nat := 0x7F
  oab : Nat := 0x7F
  oft : Nat := 0x7F
  commit : Bool := false
  deriving DecidableEq, Repr

/-- The verdict unit. -/
structure Vrd where
  regs : VrdRegs := {}
  /-- An ACTIVATE has returned OK (R295). -/
  activated : Bool := false
  /-- Completion records of the open step and of the one after it (R302). -/
  recs : List JobRec := []
  /-- VUPs received for the open step and for the next one, by child. -/
  vups : List (Nat × VMsg) := []
  next : List (Nat × VMsg) := []
  /-- Own flags and sums, once sent. -/
  own  : Option VMsg := none
  evals : List EvalSum := []
  /-- NONFIN in a pan record written since the flags were last sent, and FAULT assigned to the next flags. -/
  pendNf : Bool := false
  pendFt : Bool := false
  /-- A lockstep mismatch while the flags are formed. -/
  lockFt : Bool := false
  /-- The VUP of the open step has gone to the parent (R306). -/
  upSent : Bool := false
  /-- The master's formed verdict, waiting for the deputy's VACK. -/
  formed : Option VMsg := none
  /-- Tick at which the flags were sent. -/
  sentAt : Nat := 0
  vslow : Bool := false
  /-- The SKIPRUN interrupt has been raised since the last COMMIT. -/
  skipInt : Bool := false
  /-- NEXTDEP becomes VDEP with the step that opens next (R346). -/
  takeDep : Bool := false
  /-- A COMMIT whose flips are not all answered: the step. -/
  flipping : Option W32 := none
  /-- MIDs of the masked shards that took part in that step (R168). -/
  due : List Nat := []
  deriving DecidableEq, Repr

/-- A frame (R325) with its zero-padded payload as carried, encrypted under ENC (R335). -/
structure Frame where
  ftype : Byte := 0
  fctl  : Byte := 0
  plen  : W16 := 0
  src   : Byte := 0
  dst   : Byte := 0
  dom   : W16 := 0
  seq   : W16 := 0
  ack   : W16 := 0
  crlim : W16 := 0
  reb   : Byte := 0
  rsv15 : Byte := 0
  sess  : W16 := 0
  rsv18 : W16 := 0
  tspec : List Byte := List.replicate 12 0
  payload : List Byte := []
  tag   : List Byte := List.replicate 16 0
  fcrc  : W32 := 0
  deriving DecidableEq, Repr

/-- A unit that uses the Brine ports (R242) and the remote aperture (R336): a pan by its logical number, with the ring index of
its order, and the page units by theirs. -/
inductive Agent where
  | pan (l : Fin 60) (n : Nat)
  | hrv (n : Fin 8)
  | slt (n : Fin 8)
  | rak
  | lnk (k : Fin 8)
  /-- The block's services that no page names a quad for: page-ins, commit records, journal and firmware reads (R21). -/
  | core
  /-- The service record: quad 0, share 4 (R504). -/
  | svc
  deriving DecidableEq, Repr

/-- A write into the remote aperture: address, bytes, and the unit that made it. -/
structure ROut where
  addr  : Nat
  bytes : List Byte
  who   : Option Agent := none
  deriving DecidableEq, Repr

/-- A frame in a retry buffer: its extended sequence, the link it was sent on, the frame as sent (R332). -/
structure Unacked where
  ext  : Nat
  link : Fin 8
  frame : Frame
  /-- The payload before protection, from which a frame is rebuilt (R339). -/
  plain : List Byte := []
  /-- The unit whose write a WRITE frame carries. -/
  who   : Option Agent := none
  deriving DecidableEq, Repr

/-- A frame that waits for credit: what it is built from, the link it must take where one is named, and the unit whose write it
carries. -/
structure Queued where
  ftype : Nat
  ts    : List Byte
  payload : List Byte
  link  : Option (Fin 8) := none
  who   : Option Agent := none
  deriving DecidableEq, Repr

/-- The state of one (peer, class) pair (R329 to R333). -/
structure Pair where
  txNext : Nat := 0
  /-- The newest CRLIM received; none before the first, when the class allowance holds (R329). -/
  txLim  : Option W16 := none
  unacked : List Unacked := []
  /-- Frames that wait for credit, oldest first. -/
  queue : List Queued := []
  attempts : Nat := 0
  /-- The wait of a backoff round, in ticks, and the sequence it resends from. -/
  backoff : Option (Nat × Nat) := none
  rxNext : Nat := 0
  /-- Extended sequences of accepted frames whose effects are not complete. -/
  rxWait : List Nat := []
  /-- Tick of the last NACK SEQ for the expected sequence (R330). -/
  nackAt : Option Nat := none
  /-- ACK or CRLIM has changed since the last frame that carried them. -/
  dirty : Bool := false
  deriving DecidableEq, Repr

/-- A received frame that stays in its link's buffer (R235, R285, R393). -/
structure HeldFrame where
  link : Fin 8
  peer : Nat
  cls  : Nat
  ext  : Nat
  /-- The frame was addressed to the adopted number. -/
  adp  : Bool := false
  /-- The frame, its payload in clear. -/
  frame : Frame
  deriving DecidableEq, Repr

/-- Lane sparing of one link direction (R341). -/
inductive SparePh where
  | sent | acked | switched
  deriving DecidableEq, Repr

structure SpareRun where
  lane : Fin 9
  /-- The switch count named. -/
  n    : Nat
  ph   : SparePh
  deriving DecidableEq, Repr

structure Lnk where
  regs : LnkRegs := {}
  /-- The sparing of the direction this end receives, and of the one it transmits; each spares by itself (R340). -/
  rxSpare : Option SpareRun := none
  txSpare : Option SpareRun := none
  /-- The lane that lane 8 replaces in each direction. -/
  rxSpared : Option (Fin 9) := none
  txSpared : Option (Fin 9) := none
  deriving DecidableEq, Repr

/-- A remote hold (R338). -/
structure RHold where
  holder : Nat
  shard : Nat
  slot : Bool
  deriving DecidableEq, Repr

/-- A journal entry (R348): its 128 bytes. -/
structure JEntry where
  jseq : W32
  bytes : List Byte
  deriving DecidableEq, Repr

/-- The join and twin logic with the link layer's per-peer state. -/
structure Twn where
  regs : TwnRegs := {}
  pairs : SMap Pair := []
  /-- Session recorded for each peer. -/
  sess : SMap (Option W16) := []
  held : List HeldFrame := []
  holds : List RHold := []
  /-- Numbers adopted by another member, accepted only with ADP = 1. -/
  adoptedBy : List (Nat × Nat) := []
  /-- Children whose JOIN REQ has come, with their VSUB. -/
  reqs : List (Nat × Nat) := []
  /-- Peers reported lost. -/
  lost : W64 := 0
  /-- Routes whose link is DOWN and that are probing the alternate. -/
  probing : W64 := 0
  /-- Destinations whose ROUTE has lost its link and that no ROUTE write nor reroute has given one again (R342). -/
  noRoute : W64 := 0
  jseq : W32 := 0
  /-- Entries the twin has not acknowledged. -/
  jout : List JEntry := []
  /-- The next JSEQ expected of the twin. -/
  jin  : W32 := 0
  /-- The valid copy of the twin's history mirror, and the blocks received into the other. -/
  mirror : Option Bool := none
  mirrorBlk : Nat := 0
  /-- The twin has sent FINAL. -/
  twinFinal : Bool := false
  twinPfail : Bool := false
  hbcount : W32 := 0
  /-- A reset has followed FENCED, so that a JOIN may leave it (R351). -/
  rejoin : Bool := false
  /-- Members whose ANSWER to ANNOUNCE or RELEASE is awaited. -/
  await : W64 := 0
  /-- The answers awaited are to RELEASE. -/
  releasing : Bool := false
  /-- The number being adopted, its shards and directory entries. -/
  tkNum : Option Nat := none
  tkShards : List Nat := []
  tkDirs : List Nat := []
  /-- The twin's copy work of steps 3 to 6 of R352 is done. -/
  tkWork : Bool := false
  /-- Remote reads outstanding: RTAG, first 16-byte unit, units. -/
  rdreqs : List (Nat × Nat × Nat) := []
  rtag : W16 := 0
  deriving DecidableEq, Repr

/-- What an outstanding Brine transaction is for. -/
inductive TxnFor where
  | message (src : Nat)
  | salterStore (n : Fin 8)
  /-- A line of a served WRITE frame; `bad` says that another line of it was answered with an error. -/
  | served (k : Fin 8) (peer : Nat) (ext : Nat) (bad : Bool)
  | flip (shard : Nat)
  deriving DecidableEq, Repr

/-- The kinds of R241. -/
inductive TxnKind where
  | rd | wr | at_
  deriving DecidableEq, Repr

/-- An outstanding Brine transaction and the credit it holds (R241, R242): the reserved pool or a share. -/
structure Txn where
  port : Fin 16
  tag  : BitVec 9
  kind : TxnKind
  share : Option (Fin 8)
  addr : Nat
  /-- Bytes a WR stores when it is answered DONE. -/
  data : List Byte
  why  : TxnFor
  deriving DecidableEq, Repr

/-- A running test (R497). -/
structure TestRun where
  unit : Nat
  kind : Nat
  /-- Started by TS_GO. -/
  sw   : Bool
  deriving DecidableEq, Repr

structure Tst where
  regs : TstRegs := {}
  tests : List TestRun := []
  /-- A TS_GO that waits for another test (R497, R499). -/
  waiting : Option (Nat × Nat) := none
  /-- Reserve pans whose background test waits for another pan of the quad (R497). -/
  bg : List Nat := []
  /-- Units with a PASS since they were fenced or isolated (R379, R501). -/
  passed : List Nat := []
  /-- Halted units that a STEP lets run one piece of work (R492). -/
  stepping : List Nat := []
  deriving DecidableEq, Repr

/-- The wrapper (R494, R495). -/
structure Wrap where
  wir : BitVec 6 := 0
  sel : BitVec 128 := 0
  tstreg : BitVec 40 := 0
  /-- The core has been taken (R496). -/
  taken : Bool := false
  deriving DecidableEq, Repr

/-- Pins that no page holds: inputs as last seen and outputs as driven (R431). -/
structure Pins where
  lcsState : BitVec 4 := 0
  lcsSvn : BitVec 6 := 0
  lcsRevoke : BitVec 4 := 0
  rstLow : Bool := false
  pwrGood : BitVec 17 := 0
  vidSCode : Byte := 0
  vidSReq : Bool := false
  vidSEn : Bool := false
  vidSOut : Bool := false
  keyReq : Bool := false
  keyKid : W32 := 0
  dbgAck : Bool := false
  wso : BitVec 64 := 0
  deriving DecidableEq, Repr

/-- A control port response (R437). -/
structure CpRsp where
  code : BitVec 2 := 0
  data : W32 := 0
  deriving DecidableEq, Repr

/-- The step of a wear rotation (R407). -/
structure WearRun where
  live : Fin 64
  rsv  : Fin 64
  deriving DecidableEq, Repr

end Sys2Proof.Machine
end

