-- ==== Sys2Proof/Syntax.lean ====
section
/-! DEFINITION. The commands the block takes: one constructor per row of spec/opcode_table.json, in the table's order.
`bad` lists the addresses, shifted right by 7, of the 128-byte host memory lines whose Brine transactions are answered
with an error while the command's effect runs (R244). A frame command carries the link, the frame as received and
whether flits of it were lost (R326). -/

namespace Sys2Proof

open Sys2Proof.Machine

/-- A command. -/
inductive Instr where
  /-- REGISTER_WRITE (R458). -/
  | registerWrite (addr : BitVec 25) (be : BitVec 4) (data : W32)
  /-- RESERVOIR_WRITE (R456). -/
  | reservoirWrite (off : BitVec 24) (be : BitVec 4) (data : W32)
  /-- WIDE_READ_LATCH (R457). -/
  | wideReadLatch (addr : BitVec 25)
  /-- RUN (R461). -/
  | run (p : PageId)
  /-- STOP (R461). -/
  | stop (p : PageId)
  /-- QUIESCE (R461). -/
  | quiesce (p : PageId)
  /-- ISOLATE (R501). -/
  | isolate (p : PageId)
  /-- BYPASS (R501). -/
  | bypass (p : PageId)
  /-- PG_ABI_WRITE (R5). -/
  | pgAbiWrite (p : PageId) (v : W16)
  /-- CFGREJ_CLEAR (R463). -/
  | cfgrejClear (p : PageId)
  /-- ERROR_ACK (R360). -/
  | errorAck (p : PageId)
  /-- ERRCAP_CLR (R363). -/
  | errcapClr (p : PageId)
  /-- IARM (R386). -/
  | iarm (p : PageId) (cause : Byte) (report dbl : Bool)
  /-- DOORBELL (R220). -/
  | doorbell (l : Fin 60) (v : W32)
  /-- FLUSH (R224). -/
  | flush (l : Fin 60) (bad : List Nat)
  /-- CQ_CI_WRITE (R230). -/
  | cqCiWrite (l : Fin 60) (v : W32)
  /-- PLAN (R293). -/
  | plan
  /-- ACTIVATE (R295). -/
  | activate
  /-- VCLOSE (R302). -/
  | vclose (njobs : BitVec 14)
  /-- SKIPNOW (R311). -/
  | skipnow
  /-- RAKE_LOAD (R164). -/
  | rakeLoad (slot : Bool) (mid : BitVec 12)
  /-- FOLLOW (R164). -/
  | follow (slot : Bool) (mid : BitVec 12)
  /-- DROP (R164). -/
  | drop (slot : Bool) (mid : BitVec 12)
  /-- JOIN (R345). -/
  | join
  /-- LEAVE (R354). -/
  | leave
  /-- RELEASE (R353). -/
  | release
  /-- DOZE (R392). -/
  | doze
  /-- WAKE (R391). -/
  | wake
  /-- RETAIN (R394). -/
  | retain
  /-- JLAGTO (R392). -/
  | jlagto
  /-- FW_GO (R413). -/
  | fwGo
  /-- FIRMWARE_LOAD_DONE (R413). -/
  | firmwareLoadDone (bad : List Nat)
  /-- KEY_LOAD (R416). -/
  | keyLoad (slot : Fin 2)
  /-- KEY_ERASE (R429). -/
  | keyErase (slot : Fin 2)
  /-- TXKSEL_WRITE (R417). -/
  | txkselWrite (slot : Fin 2)
  /-- DBGMAX_WRITE (R421). -/
  | dbgmaxWrite (v : BitVec 2)
  /-- UNFENCE (R379). -/
  | unfence (v : W16)
  /-- LTRAIN (R323). -/
  | ltrain (k : Fin 8)
  /-- LINK_TRAIN_DONE (R323). -/
  | linkTrainDone (k : Fin 8) (lanes : BitVec 9) (up : Bool)
  /-- LFORCE (R498). -/
  | lforce (code : Byte)
  /-- TS_GO (R499). -/
  | tsGo (unit : Byte) (kind : BitVec 4)
  /-- TEST_DONE (R499). -/
  | testDone (unit : Byte) (res : TestRes) (faddr : W64) (ticks : W32)
  /-- SVC_GO (R504). -/
  | svcGo
  /-- SVC_DONE (R504). -/
  | svcDone (bad : List Nat)
  /-- CGO (R482). -/
  | cgo (n : Fin 8)
  /-- CGO_DONE (R482). -/
  | cgoDone (n : Fin 8) (bad : List Nat)
  /-- CEVT (R481). -/
  | cevt (n : Fin 8)
  /-- PFLUSH (R257). -/
  | pflush (n : Fin 8)
  /-- DW_DATA_READ (R491). -/
  | dwDataRead (hi : Bool)
  /-- DW_DATA_WRITE (R491). -/
  | dwDataWrite (hi : Bool) (data : W32)
  /-- DH_HALT (R492). -/
  | dhHalt (unit : Byte)
  /-- DH_STEP (R492). -/
  | dhStep (unit : Byte)
  /-- DH_RESUME (R492). -/
  | dhResume (unit : Byte)
  /-- INT_ROUTE_WRITE (R473). -/
  | intRouteWrite (r : Fin 15) (data : W32)
  /-- VSHARED_WRITE (R443). -/
  | vsharedWrite (v : Byte)
  /-- INST_WRITE (R466). -/
  | instWrite (v : BitVec 6)
  /-- WS_BYPASS (R494). -/
  | wsBypass
  /-- WS_VERSION (R494). -/
  | wsVersion
  /-- WS_EXTEST (R496). -/
  | wsExtest
  /-- WS_INTEST_SCAN (R496). -/
  | wsIntestScan
  /-- WS_SEL (R494). -/
  | wsSel (v : BitVec 128)
  /-- WS_TSTREG_READ (R495). -/
  | wsTstregRead (w : BitVec 6)
  /-- WS_TSTREG_WRITE (R495). -/
  | wsTstregWrite (w : BitVec 6) (data : W32)
  /-- WRAPPER_RESET (R494). -/
  | wrapperReset
  /-- COLD_RESET (R451). -/
  | coldReset (lcs : BitVec 4) (svn : BitVec 6) (revoke : BitVec 4)
  /-- WARM_RESET (R453). -/
  | warmReset
  /-- PWR_GOOD_RISE (R451). -/
  | pwrGoodRise
  /-- PLL_LOCK (R451). -/
  | pllLock
  /-- SRAM_INIT_DONE (R451). -/
  | sramInitDone
  /-- SELFTEST_DONE (R452). -/
  | selftestDone (pans : W64) (hrv slt : Byte) (rake : Bool)
  /-- PF_WARN (R382). -/
  | pfWarn
  /-- PWR_GOOD_FALL (R398). -/
  | pwrGoodFall (b : Fin 17)
  /-- REFCLK_LOSS (R389). -/
  | refclkLoss
  /-- VID_ACK (R397). -/
  | vidAck (d : Fin 17)
  /-- VIDTO (R400). -/
  | vidto (q : Fin 16)
  /-- TALM (R403). -/
  | talm (sensor : Fin 17) (reading : W16)
  /-- TTRIP (R403). -/
  | ttrip (sensor : Fin 17) (reading : W16)
  /-- LCS_STATE_CHANGE (R410). -/
  | lcsStateChange (v : BitVec 4)
  /-- DEBUG_GRANT (R420). -/
  | debugGrant (v : BitVec 2)
  /-- KEY_ACK (R444). -/
  | keyAck (sts : BitVec 2) (beats : List W64)
  /-- KEY_TIMEOUT (R444). -/
  | keyTimeout
  /-- BRINE_RESPONSE (R441). -/
  | brineResponse (q : Fin 16) (tag : BitVec 9) (kind : BitVec 2)
  /-- BRINE_TIMEOUT (R369). -/
  | brineTimeout (q : Fin 16) (tag : BitVec 9)
  /-- BPSTALL (R442). -/
  | bpstall (q : Fin 16)
  /-- TILE (R234). -/
  | tile (k : Fin 8) (f : Frame) (lost : Bool)
  /-- PART (R238). -/
  | part (k : Fin 8) (f : Frame) (lost : Bool) (bad : List Nat)
  /-- GRANT (R237). -/
  | grant (k : Fin 8) (f : Frame) (lost : Bool) (bad : List Nat)
  /-- WRITE (R337). -/
  | write (k : Fin 8) (f : Frame) (lost : Bool) (bad : List Nat)
  /-- RDREQ (R337). -/
  | rdreq (k : Fin 8) (f : Frame) (lost : Bool) (bad : List Nat)
  /-- RDRSP (R336). -/
  | rdrsp (k : Fin 8) (f : Frame) (lost : Bool)
  /-- HOLD (R338). -/
  | hold (k : Fin 8) (f : Frame) (lost : Bool)
  /-- VUP (R306). -/
  | vup (k : Fin 8) (f : Frame) (lost : Bool)
  /-- VDN (R307). -/
  | vdn (k : Fin 8) (f : Frame) (lost : Bool)
  /-- VACK (R307). -/
  | vack (k : Fin 8) (f : Frame) (lost : Bool)
  /-- CREDIT (R329). -/
  | credit (k : Fin 8) (f : Frame) (lost : Bool)
  /-- NACK (R332). -/
  | nack (k : Fin 8) (f : Frame) (lost : Bool)
  /-- PROBE (R342). -/
  | probe (k : Fin 8) (f : Frame) (lost : Bool)
  /-- JOIN_REQ (R345). -/
  | joinReq (k : Fin 8) (f : Frame) (lost : Bool)
  /-- JOIN_DONE (R345). -/
  | joinDone (k : Fin 8) (f : Frame) (lost : Bool)
  /-- JOIN_REFUSE (R345). -/
  | joinRefuse (k : Fin 8) (f : Frame) (lost : Bool)
  /-- JOIN_REPARENT (R346). -/
  | joinReparent (k : Fin 8) (f : Frame) (lost : Bool)
  /-- TAKEOVER_ANNOUNCE (R352). -/
  | takeoverAnnounce (k : Fin 8) (f : Frame) (lost : Bool)
  /-- TAKEOVER_ANSWER (R352). -/
  | takeoverAnswer (k : Fin 8) (f : Frame) (lost : Bool)
  /-- TAKEOVER_RELEASE (R353). -/
  | takeoverRelease (k : Fin 8) (f : Frame) (lost : Bool)
  /-- JRNL (R348). -/
  | jrnl (k : Fin 8) (f : Frame) (lost : Bool)
  /-- HBEAT (R351). -/
  | hbeat (k : Fin 8) (f : Frame) (lost : Bool)
  /-- SPARE (R341). -/
  | spare (k : Fin 8) (f : Frame) (lost : Bool)
  /-- SPAREACK (R341). -/
  | spareack (k : Fin 8) (f : Frame) (lost : Bool)
  /-- SPARE_SWITCH (R341). -/
  | spareSwitch (k : Fin 8)
  /-- DESKEW_DONE (R341). -/
  | deskewDone (k : Fin 8)
  /-- LANE_FAIL (R340). -/
  | laneFail (k : Fin 8) (lane : Fin 9)
  /-- SPAREACK_TIMEOUT (R342). -/
  | spareackTimeout (k : Fin 8)
  /-- RTO_EXPIRY (R332). -/
  | rtoExpiry (peer : Fin 64) (cls : Fin 3)
  /-- RETRANSMIT (R332). -/
  | retransmit (peer : Fin 64) (cls : Fin 3)
  /-- CREDIT_TIMER (R331). -/
  | creditTimer (peer : Fin 64) (cls : Fin 3)
  /-- PROBE_TIMER (R342). -/
  | probeTimer (peer : Fin 64)
  /-- ROUTE_FAIL (R342). -/
  | routeFail (peer : Fin 64)
  /-- TWUNCLAIMED (R235). -/
  | twunclaimed (k : Fin 8)
  /-- TKWAIT_EXPIRY (R351). -/
  | tkwaitExpiry
  /-- FINAL_SILENCE (R351). -/
  | finalSilence
  /-- SFWAIT_EXPIRY (R351). -/
  | sfwaitExpiry
  /-- TAKEOVER_TIMEOUT (R352). -/
  | takeoverTimeout (peer : Fin 64)
  /-- ADOPTED (R352). -/
  | adopted (bad : List Nat)
  /-- RELEASE_DONE (R353). -/
  | releaseDone
  /-- ORDER_FETCH (R221). -/
  | orderFetch (l : Fin 60) (bad : List Nat)
  /-- ORDER_TAKE (R216). -/
  | orderTake (l : Fin 60) (bad : List Nat)
  /-- TIDE_ARM (R233). -/
  | tideArm (l : Fin 60) (n : W32) (bad : List Nat)
  /-- EPOCH_GATE_CHECK (R223). -/
  | epochGateCheck (l : Fin 60) (bad : List Nat)
  /-- TILE_START (R225). -/
  | tileStart (l : Fin 60) (bad : List Nat)
  /-- TILE_COMPLETE (R217). -/
  | tileComplete (l : Fin 60) (bad : List Nat)
  /-- CAKE_REREAD (R69). -/
  | cakeReread (l : Fin 60) (addr : W64) (row group : W32) (bytes : List Byte)
  /-- TILE_REPLAY (R371). -/
  | tileReplay (l : Fin 60) (cause : ReplayCause) (addr : W64) (row col group : W32)
  /-- SPARE_SWAP (R373). -/
  | spareSwap (l : Fin 60)
  /-- SETTLE (R120). -/
  | settle (l : Fin 60) (bad : List Nat)
  /-- SECOND_PASS (R120). -/
  | secondPass (l : Fin 60) (bad : List Nat)
  /-- PARTIAL_NOTICE (R239). -/
  | partialNotice (l : Fin 60) (q : W32) (bad : List Nat)
  /-- COMPLETION_WRITE (R226). -/
  | completionWrite (l : Fin 60) (bad : List Nat)
  /-- PAN_WAKE_DONE (R396). -/
  | panWakeDone (p : Fin 64)
  /-- PIDLE_EXPIRY (R396). -/
  | pidleExpiry (p : Fin 64)
  /-- GRADIENT_LAND (R283). -/
  | gradientLand (addr : W64) (bytes : List Byte) (bad : List Nat)
  /-- PAGE_IN (R298). -/
  | pageIn (shard : Fin 8192)
  /-- PAGE_IN_DONE (R298). -/
  | pageInDone (shard : Fin 8192) (bad : List Nat)
  /-- JOB_START (R286). -/
  | jobStart (shard : Fin 8192) (bad : List Nat)
  /-- JOB_COMPLETE (R267). -/
  | jobComplete (n : Fin 8) (bad : List Nat)
  /-- NOP (R254). -/
  | nop (u : VecId) (w : VFields)
  /-- FADD_S (R254). -/
  | faddS (u : VecId) (w : VFields)
  /-- FSUB_S (R254). -/
  | fsubS (u : VecId) (w : VFields)
  /-- FMUL_S (R254). -/
  | fmulS (u : VecId) (w : VFields)
  /-- FDIV_S (R254). -/
  | fdivS (u : VecId) (w : VFields)
  /-- FMA_S (R255). -/
  | fmaS (u : VecId) (w : VFields)
  /-- FNMA_S (R255). -/
  | fnmaS (u : VecId) (w : VFields)
  /-- F1_S (R254). -/
  | f1S (u : VecId) (w : VFields)
  /-- F2_S (R254). -/
  | f2S (u : VecId) (w : VFields)
  /-- FCMP_S (R254). -/
  | fcmpS (u : VecId) (w : VFields)
  /-- FADD_D (R254). -/
  | faddD (u : VecId) (w : VFields)
  /-- FSUB_D (R254). -/
  | fsubD (u : VecId) (w : VFields)
  /-- FMUL_D (R254). -/
  | fmulD (u : VecId) (w : VFields)
  /-- FDIV_D (R254). -/
  | fdivD (u : VecId) (w : VFields)
  /-- FMA_D (R255). -/
  | fmaD (u : VecId) (w : VFields)
  /-- FNMA_D (R255). -/
  | fnmaD (u : VecId) (w : VFields)
  /-- F1_D (R254). -/
  | f1D (u : VecId) (w : VFields)
  /-- F2_D (R254). -/
  | f2D (u : VecId) (w : VFields)
  /-- FCMP_D (R254). -/
  | fcmpD (u : VecId) (w : VFields)
  /-- CVT (R255). -/
  | cvt (u : VecId) (w : VFields)
  /-- LDS (R259). -/
  | lds (u : VecId) (w : VFields) (bad : List Nat)
  /-- STS (R260). -/
  | sts (u : VecId) (w : VFields)
  /-- BMRG (R263). -/
  | bmrg (u : VecId) (w : VFields)
  /-- BSPL (R264). -/
  | bspl (u : VecId) (w : VFields)
  /-- SEL (R254). -/
  | sel (u : VecId) (w : VFields)
  /-- MOV (R254). -/
  | mov (u : VecId) (w : VFields)
  /-- PLOG (R254). -/
  | plog (u : VecId) (w : VFields)
  /-- SETRM (R254). -/
  | setrm (u : VecId) (w : VFields)
  /-- IOP (R254). -/
  | iop (u : VecId) (w : VFields)
  /-- ALU (R268). -/
  | alu (n : Fin 8) (w : VFields)
  /-- ADDI (R268). -/
  | addi (n : Fin 8) (d a : Fin 32) (imm : W16)
  /-- LUI (R268). -/
  | lui (n : Fin 8) (d a : Fin 32) (imm : W16)
  /-- LD (R269). -/
  | ld (n : Fin 8) (d a : Fin 32) (imm : W16) (bad : List Nat)
  /-- ST (R269). -/
  | st (n : Fin 8) (d a : Fin 32) (imm : W16)
  /-- LDW (R269). -/
  | ldw (n : Fin 8) (d a : Fin 32) (imm : W16) (bad : List Nat)
  /-- STW (R269). -/
  | stw (n : Fin 8) (d a : Fin 32) (imm : W16)
  /-- BEQ (R268). -/
  | beq (n : Fin 8) (d a : Fin 32) (imm : W16)
  /-- BNE (R268). -/
  | bne (n : Fin 8) (d a : Fin 32) (imm : W16)
  /-- BLT (R268). -/
  | blt (n : Fin 8) (d a : Fin 32) (imm : W16)
  /-- BGE (R268). -/
  | bge (n : Fin 8) (d a : Fin 32) (imm : W16)
  /-- JAL (R268). -/
  | jal (n : Fin 8) (d a : Fin 32) (imm : W16)
  /-- XMOV (R268). -/
  | xmov (n : Fin 8) (w : VFields)
  /-- SADV (R268). -/
  | sadv (n : Fin 8) (w : VFields) (bad : List Nat)
  /-- CSR (R268). -/
  | csr (n : Fin 8) (d a : Fin 32) (r : Csr) (wr : Bool)
  /-- WFE (R268). -/
  | wfe (n : Fin 8)
  /-- FENCE (R269). -/
  | fence (n : Fin 8)
  /-- HALT (R268). -/
  | halt (n : Fin 8)
  /-- TRAP (R271). -/
  | trap (n : Fin 8)
  /-- FLAGS_SEND (R302). -/
  | flagsSend
  /-- COMMIT_FLIP_DONE (R287). -/
  | commitFlipDone (shard : Fin 8192) (err : Bool)
  /-- VSLOW (R312). -/
  | vslow
  /-- RAKE_EVENT (R173). -/
  | rakeEvent (bad : List Nat)
  /-- RAKE_RETIRE (R173). -/
  | rakeRetire (bad : List Nat)
  /-- FOLLOWER_FETCH (R280). -/
  | followerFetch (n : Fin 8) (shard : Fin 8192) (bad : List Nat)
  /-- AVS_WINDOW (R400). -/
  | avsWindow (q : Fin 16) (slack : BitVec 6)
  /-- TIDE_RELEASE (R406). -/
  | tideRelease (e : Fin 16) (meas : Meas)
  /-- TIDE_RUN_COMPLETE (R406). -/
  | tideRunComplete (e : Fin 16)
  /-- WEAR_SWAP (R407). -/
  | wearSwap
  /-- HANDLER (R362). -/
  | handler
  /-- WDOG (R369). -/
  | wdog (unit : Byte)
  /-- AON_SUPPLY_LOSS (R391). -/
  | aonSupplyLoss
  /-- RST_N_LOW (R434). -/
  | rstNLow
  /-- PLLFAIL (R454). -/
  | pllfail
  /-- PWRFAIL (R454). -/
  | pwrfail (missing : BitVec 17)
  /-- RAKE_COMMAND_DONE (R164). -/
  | rakeCommandDone (bad : List Nat)
  /-- SHT_COMMAND_DONE (R295). -/
  | shtCommandDone (bad : List Nat)
  /-- RESERVOIR_READ (R437). -/
  | reservoirRead (off : BitVec 24) (ecc : EccErr)
  deriving DecidableEq, Repr

end Sys2Proof
end

