-- ==== Sys2Proof/Machine/Formats.lean ====
section
/-! DEFINITION. Storage formats, fine scales, P21 and X40 (spec/02_number_formats.md, spec/05_product_arithmetic.md R137). -/

namespace Sys2Proof.Machine

/-- The storage formats of R26; the reserved codes 0xC-0xF have none. -/
inductive Fmt where
  | w16 | fp32 | fp64 | e4m3 | e5m2 | e3m2 | e2m3 | e2m1 | int8 | int4 | cb16 | cb256
deriving DecidableEq, Repr

/-- Format of a 4-bit format code (R26). -/
def fmtOfCode (c : Nat) : Option Fmt :=
  match c with
  | 0 => some .w16 | 1 => some .fp32 | 2 => some .fp64 | 3 => some .e4m3 | 4 => some .e5m2
  | 5 => some .e3m2 | 6 => some .e2m3 | 7 => some .e2m1 | 8 => some .int8 | 9 => some .int4
  | 10 => some .cb16 | 11 => some .cb256
  | _ => none

/-- Code width in bits (R61). -/
def Fmt.width : Fmt → Nat
  | .w16 => 16 | .fp32 => 32 | .fp64 => 64
  | .e4m3 | .e5m2 | .int8 | .cb256 => 8
  | .e3m2 | .e2m3 => 6
  | .e2m1 | .int4 | .cb16 => 4

def Fmt.isWide (f : Fmt) : Bool := f == .w16 || f == .fp32
def Fmt.isInt (f : Fmt) : Bool := f == .int8 || f == .int4
def Fmt.isCb (f : Fmt) : Bool := f == .cb16 || f == .cb256

/-- Fields of a float format: exponent width, fraction width p, bias b (R28, R29). -/
structure FSpec where
  eb : Nat
  p : Nat
  b : Int
deriving DecidableEq, Repr

/-- The float layout of a format; integers and codebook indices answer W16's (a codebook entry). -/
def Fmt.spec : Fmt → FSpec
  | .fp32 => ⟨8, 23, 127⟩
  | .fp64 => ⟨11, 52, 1023⟩
  | .e4m3 => ⟨4, 3, 7⟩
  | .e5m2 => ⟨5, 2, 15⟩
  | .e3m2 => ⟨3, 2, 3⟩
  | .e2m3 => ⟨2, 3, 1⟩
  | .e2m1 => ⟨2, 1, 1⟩
  | _ => ⟨8, 7, 127⟩

/-- Whether the format encodes infinities by the IEEE layout (R28, R29, R53). -/
def Fmt.hasInf (f : Fmt) : Bool := f == .w16 || f == .fp32 || f == .fp64 || f == .e5m2

def FSpec.emin (s : FSpec) : Int := 1 - s.b

/-- Value of a finite pattern of a float layout (R28). -/
def finValue (s : FSpec) (n : Nat) : Q :=
  let f := n % 2 ^ s.p
  let e := n / 2 ^ s.p % 2 ^ s.eb
  let neg := n / 2 ^ (s.p + s.eb) % 2 == 1
  let v := if e = 0 then qmul (qofInt f) (qpow2 (1 - s.b - s.p))
           else qmul (qofInt ((2 ^ s.p + f : Nat) : Int)) (qpow2 ((e : Int) - s.b - s.p))
  if neg then qneg v else v

/-- Value of a float code (R28, R29); NaNs of every encoding read as NaN and −0 as +0 (R45). -/
def floatValue (f : Fmt) (n : Nat) : XVal :=
  let s := f.spec
  let fr := n % 2 ^ s.p
  let e := n / 2 ^ s.p % 2 ^ s.eb
  let neg := n / 2 ^ (s.p + s.eb) % 2 == 1
  match f with
  | .e4m3 => if e = 15 && fr = 7 then .nan else .fin (finValue s n)
  | .e3m2 | .e2m3 | .e2m1 => .fin (finValue s n)
  | _ => if e = 2 ^ s.eb - 1 then (if fr = 0 then .inf neg else .nan) else .fin (finValue s n)

/-- Largest finite magnitude of a float format (R28, R29). -/
def Fmt.maxFin : Fmt → Q
  | .e4m3 => qofInt 448
  | .e5m2 => qofInt 57344
  | .e3m2 => qofInt 28
  | .e2m3 => ⟨15, 2⟩
  | .e2m1 => qofInt 6
  | .int8 => qofInt 127
  | .int4 => qofInt 7
  | .fp32 => finValue ⟨8, 23, 127⟩ 0x7F7FFFFF
  | .fp64 => finValue ⟨11, 52, 1023⟩ 0x7FEFFFFFFFFFFFFF
  | _ => finValue ⟨8, 7, 127⟩ 0x7F7F

/-- Pattern of a value that lies on the grid of a float layout; −0 never arises (R44). -/
def encodeFin (s : FSpec) (q : Q) : Nat :=
  if qisZero q then 0 else
  let a := qabs q
  let sg := if qneg? q then 2 ^ (s.p + s.eb) else 0
  let t := qlog2 a
  if t < s.emin then
    sg + (qfloor (qmul a (qpow2 (s.b + s.p - 1)))).toNat
  else
    let f := (qfloor (qmul a (qpow2 (s.p - t)))).toNat - 2 ^ s.p
    sg + (t + s.b).toNat * 2 ^ s.p + f

/-- The canonical NaN code of a format that has one (R30, R44). -/
def Fmt.nanCode : Fmt → Nat
  | .w16 => 0x7FC0
  | .fp32 => 0x7FC00000
  | .fp64 => 0x7FF8000000000000
  | .e4m3 => 0x7F
  | .e5m2 => 0x7E
  | _ => 0

/-- Whether the format can encode a NaN in a code of its own (R30). -/
def Fmt.hasNan (f : Fmt) : Bool := f.hasInf || f == .e4m3

/-- The infinity code of a format that has infinities. -/
def Fmt.infCode (f : Fmt) (neg : Bool) : Nat :=
  let s := f.spec
  (2 ^ s.eb - 1) * 2 ^ s.p + (if neg then 2 ^ (s.p + s.eb) else 0)

/-- What writing one value to a format did (R44, R47, R52-R54). -/
structure WEv where
  sat : Bool := false
  flushed : Bool := false
  nonfin : Bool := false
deriving DecidableEq, Repr

/-- A value rounded RNA to a float format, then R52 or R53, and flushed under SUBN for W16 and FP32 (R47):
the value on the grid and what happened. -/
def limitFloat (f : Fmt) (subn ovf : Bool) (x : XVal) : XVal × WEv :=
  let s := f.spec
  let mx := f.maxFin
  match x with
  | .nan => (.nan, { nonfin := true })
  | .inf n =>
    if ovf && f.hasInf then (.inf n, { nonfin := true })
    else (.fin (if n then qneg mx else mx), { sat := true })
  | .fin q =>
    let r := roundGrid .rna s.p s.emin q
    if qlt mx (qabs r) then
      if ovf && f.hasInf then (.inf (qneg? r), { sat := true, nonfin := true })
      else (.fin (if qneg? r then qneg mx else mx), { sat := true })
    else if subn && f.isWide && !qisZero r && qlt (qabs r) (qpow2 s.emin) then
      (xzero, { flushed := true })
    else (.fin r, {})

/-- Pattern of an extended real that lies on a float format's grid (R44). -/
def encodeFloat (f : Fmt) (x : XVal) : Nat :=
  match x with
  | .nan => f.nanCode
  | .inf n => f.infCode n
  | .fin q => encodeFin f.spec q

/-- A value written to W16, FP32 or a narrow float format: its code and what happened. -/
def storeFloat (f : Fmt) (subn ovf : Bool) (x : XVal) : Nat × WEv :=
  let (y, ev) := limitFloat f subn ovf x
  (encodeFloat f y, ev)

/-- A W16 or FP32 value read as an operand under SUBN (R47): subnormals flush to +0 and set FLUSHED. -/
def readWide (f : Fmt) (subn : Bool) (n : Nat) : XVal × Bool :=
  let v := floatValue f n
  match v with
  | .fin q =>
    if subn && f.isWide && !qisZero q && qlt (qabs q) (qpow2 f.spec.emin) then (xzero, true) else (v, false)
  | _ => (v, false)

/-- Signed value of the low w bits. -/
def signedOf (w n : Nat) : Int :=
  let m := n % 2 ^ w
  if m ≥ 2 ^ (w - 1) then (m : Int) - 2 ^ w else m

/-- The low w bits of an integer. -/
def wrapTo (w : Nat) (i : Int) : Nat := (i % (2 ^ w : Nat)).toNat

/-- The value v of a stored code with its group's zero point and codebook copy (R29, R31, R33). -/
def codeValue (f : Fmt) (cb : List W16) (zp : Int) (c : Nat) : XVal :=
  match f with
  | .int8 => .fin (qofInt (signedOf 8 c - zp))
  | .int4 => .fin (qofInt (signedOf 4 c - zp))
  | .cb16 => floatValue .w16 ((cb.getD (c % 16) 0).toNat)
  | .cb256 => floatValue .w16 ((cb.getD (c % 256) 0).toNat)
  | _ => floatValue f c

/-- Fine-scale encodings of R71. -/
inductive Fsk where
  | e8m0 | ue4m3 | none
deriving DecidableEq, Repr

/-- Value of a fine-scale byte (R34, R67); a NaN scale is none. -/
def scaleValue (k : Fsk) (var : Bool) (b : Nat) : Option Q :=
  match k with
  | .none => some qone
  | .e8m0 => if b = 0xFF then none else some (qpow2 ((b : Int) - (if var then 133 else 127)))
  | .ue4m3 =>
    if b % 128 = 0x7F then none
    else some (finValue ⟨4, 3, 7⟩ (b % 128))

/-- fine × v of a stored code (R34, R38): a NaN scale makes NaN; a zero UE4M3 scale makes every finite code
+0 and keeps NaN and infinities. -/
def fineTimes (fine : Option Q) (v : XVal) : XVal :=
  match fine with
  | none => .nan
  | some s =>
    match v with
    | .fin q => .fin (qmul s q)
    | y => y

/-- A coarse scale of R35: an FP32 pattern that is positive, normal and finite. -/
def coarseOk (c : W32) : Bool :=
  let e := c.toNat / 2 ^ 23 % 256
  c.toNat < 2 ^ 31 && e ≠ 0 && e ≠ 255

def fp32Value (c : W32) : XVal := floatValue .fp32 c.toNat

/-- The exact value of a finite FP32 pattern, 0 for the others. -/
def fp32Q (c : W32) : Q :=
  match fp32Value c with
  | .fin q => q
  | _ => qzero

/-- An FP32 bound rounded toward +∞, 2^128 or more as 0x7F7F_FFFF (R99). -/
def fp32Up (q : Q) : W32 :=
  if qisZero q then 0 else
  let r := roundGrid .rup 23 (-126) q
  if qlt (Fmt.maxFin .fp32) r then 0x7F7FFFFF#32 else BitVec.ofNat 32 (encodeFin ⟨8, 23, 127⟩ r)

/-! ### P21 (R36-R38, R76) -/

/-- The canonical P21 NaN and infinities (R36). -/
def p21Nan : BitVec 21 := 0x0FFC00#21
def p21Inf (neg : Bool) : BitVec 21 := if neg then 0x1FF800#21 else 0x0FF800#21

/-- P21 pattern of m × 2^x for a significand of at most 12 bits (R76). -/
def p21Of (m x : Int) : BitVec 21 :=
  if m = 0 then 0 else
  let a := m.natAbs
  let n := bitLen a
  let ef : Nat × Nat := if x + n - 1 ≥ -254 then
      ((x + n - 1 + 255).toNat, a * 2 ^ (12 - n) % 2048)
    else (0, a * 2 ^ (x + 265).toNat)
  let (e, f) := ef
  BitVec.ofNat 21 ((if m < 0 then 2 ^ 20 else 0) + e * 2048 + f)

/-- The P21 pattern of an exact value whose significand has at most 12 bits (R37, R38). -/
def p21OfX (v : XVal) : BitVec 21 :=
  match v with
  | .nan => p21Nan
  | .inf n => p21Inf n
  | .fin q =>
    if qisZero q then 0 else
    let k := qlog2 q - 11
    p21Of (qfloor (qmul q (qpow2 (-(max k (-265)))))) (max k (-265))

/-- A product operand: its class, and for a finite nonzero value the integer significand and the effective
exponent (R39, R134, R148). -/
inductive POp where
  | nan
  | inf (neg : Bool)
  | zero
  | fin (neg : Bool) (m : Nat) (x : Int)
deriving DecidableEq, Repr

/-- The operand of a P21 pattern, value ±m × 2^(x − 11) (R39). -/
def popOfP21 (p : BitVec 21) : POp :=
  let n := p.toNat
  let f : Nat := n % 2048
  let e : Nat := n / 2048 % 512
  let neg : Bool := n ≥ 2 ^ 20
  if e = 511 then (if f = 0 then .inf neg else .nan)
  else if e = 0 then (if f = 0 then .zero else .fin neg f (-254))
  else .fin neg (2048 + f) ((e : Int) - 255)

/-- The operand of an FP32 code with an E8M0 exponent k, value ±m × 2^(x + k − 23) (R148). -/
def popOfFp32 (n : Nat) (k : Int) : POp :=
  let f : Nat := n % 2 ^ 23
  let e : Nat := n / 2 ^ 23 % 256
  let neg : Bool := n / 2 ^ 31 % 2 == 1
  if e = 255 then (if f = 0 then .inf neg else .nan)
  else if e = 0 then (if f = 0 then .zero else .fin neg f (-126 + k))
  else .fin neg (2 ^ 23 + f) ((e : Int) - 127 + k)

/-- A P21 operand widened to 24 bits beside an FP32 operand (R148). -/
def POp.widen : POp → POp
  | .fin s m x => .fin s (m * 4096) x
  | o => o

/-! ### X40 (R42, R43, R137) -/

abbrev X40 := BitVec 40

def x40Spec : FSpec := ⟨10, 29, 511⟩
def x40Nan : X40 := 0x7FF0000000#40
def x40Inf (neg : Bool) : X40 := if neg then 0xFFE0000000#40 else 0x7FE0000000#40

/-- R137: the exact value (−1)^sgn × mag × 2^L in X40 by RTO, and whether OVERFLOW was raised. -/
def toX40 (sgn : Bool) (mag : Nat) (l : Int) : X40 × Bool :=
  if mag = 0 then (0, false) else
  let n := bitLen mag
  let t := l + n - 1
  if t ≥ 512 then (x40Inf sgn, true) else
  let d : Int := if t ≥ -510 then (n : Int) - 30 else -539 - l
  let q := if d > 0 then
      let q0 := mag / 2 ^ d.toNat
      if mag % 2 ^ d.toNat ≠ 0 && q0 % 2 = 0 then q0 + 1 else q0
    else mag * 2 ^ (-d).toNat
  let sg := if sgn then 2 ^ 39 else 0
  if t ≥ -510 then (BitVec.ofNat 40 (sg + (t + 511).toNat * 2 ^ 29 + q % 2 ^ 29), false)
  else (BitVec.ofNat 40 (sg + q), false)

/-- Value of an X40 pattern (R42, R45). -/
def x40Value (x : X40) : XVal :=
  let n := x.toNat
  let f := n % 2 ^ 29
  let e := n / 2 ^ 29 % 1024
  let neg := n ≥ 2 ^ 39
  if e = 1023 then (if f = 0 then .inf neg else .nan) else .fin (finValue x40Spec n)

/-- An exact value converted to X40 by RTO (R43): the value on the grid and whether OVERFLOW was raised. -/
def roundX40 (v : XVal) : XVal × Bool :=
  match v with
  | .fin q =>
    let r := roundGrid .rto 29 (-510) q
    if !qisZero r && qlog2 r ≥ 512 then (.inf (qneg? r), true) else (.fin r, false)
  | y => (y, false)

/-- The X40 pattern of a value on the X40 grid. -/
def x40Of (v : XVal) : X40 :=
  match v with
  | .nan => x40Nan
  | .inf n => x40Inf n
  | .fin q => BitVec.ofNat 40 (encodeFin x40Spec q)

/-- An exact value converted to X40 where no OVERFLOW is raised (R194, R195). -/
def x40Quiet (v : XVal) : XVal := (roundX40 v).1

end Sys2Proof.Machine
end

