-- ==== Sys2Proof/Config.lean ====
section
/-! DEFINITION. What an implementation fixes and the free values: constants with no body, of which nothing can be
proved but that they are values. -/

namespace Sys2Proof.Config

/-- The build number of the netlist (R3, R4): PG_VER [15:0] of this part, build 42. -/
def build : W16 := 0x002A

/-- PG_VER of every page (R3). -/
def pgVer : W32 := 0x0103002A

/-- A value the spec leaves open: the n-th one the machine takes. -/
opaque freeBits (w : Nat) : Nat → BitVec w

/-- A truth value the spec leaves open. -/
opaque freeBool : Nat → Bool

/-- SHA-384 of a byte string (R412), which the spec names and does not restate. -/
opaque sha384 : List (BitVec 8) → List (BitVec 8)

/-- Whether an ECDSA P-384 signature (r, s) over a digest verifies under a root key of the shell's ROM (R412, R413). -/
opaque ecdsaOk : Nat → List (BitVec 8) → List (BitVec 8) → List (BitVec 8) → Bool

/-- The AES-GCM tag of a frame: key, IV, additional data, padded payload as carried (R335). -/
opaque gcmTag : BitVec 256 → List (BitVec 8) → List (BitVec 8) → List (BitVec 8) → List (BitVec 8)

/-- AES-GCM encryption of a padded payload under a key and an IV (R335). -/
opaque gcmEnc : BitVec 256 → List (BitVec 8) → List (BitVec 8) → List (BitVec 8)

/-- AES-GCM decryption of a padded payload under a key and an IV (R335). -/
opaque gcmDec : BitVec 256 → List (BitVec 8) → List (BitVec 8) → List (BitVec 8)

/-- What BMRG writes for an A off the W16 grid when FP32 cannot hold the sum: R263 states no result. -/
opaque bmrgFree (a b : BitVec 32) : BitVec 32

/-- The 96-bit contribution by which a split product under integer rescale passes a NaN element on (R147): the spec
states no pattern for it. -/
opaque nanContribution : BitVec 96

end Sys2Proof.Config
end

