-- ==== Sys2Proof/Machine/State.lean ====
section
/-! DEFINITION. The block's state: every register, queue, buffer, memory and pin the spec names, as plain data, and
the queue of commands that wait. -/

namespace Sys2Proof.Machine

/-- The block. -/
structure State where
  /-- Commands that wait, first in, first out (the model's own). -/
  pending : List Instr := []
  glb  : Glb := {}
  sec  : Sec := {}
  pwr  : Pwr := {}
  tide : Tide := {}
  flt  : Flt := {}
  vrd  : Vrd := {}
  sal  : Sal := {}
  twn  : Twn := {}
  lnk  : Vector Lnk 8 := Vector.replicate 8 {}
  hrv  : Vector Hrv 8
  rak  : Rak := {}
  pan  : Vector Pan 64 := Vector.replicate 64 {}
  lpan : Vector LPan 60 := Vector.replicate 60 {}
  qd   : Vector Qd 16 := Vector.replicate 16 {}
  slt  : Vector Slt 8
  tst  : Tst := {}
  wrap : Wrap := {}
  pins : Pins := {}
  /-- The page headers, in ascending window offset. -/
  hdrs : Vector PageHdr 114 := Vector.replicate 114 {}
  /-- Host memory, by byte address (the model's own, on behalf of the surroundings). -/
  host : SMap Byte := []
  /-- Reservoir bytes that no structured region below holds, by reservoir offset. -/
  res  : SMap Byte := []
  /-- The retention store: the scale history checkpoint and the journal tail (R129, R348, R382). -/
  ckpt : SMap HistSlot := []
  tail : List JEntry := []
  /-- Mask directory (R161), shard state array (R275), salinometer slots (R314), scale history (R123). -/
  dir  : SMap DirE := []
  shard : SMap Shard := []
  salino : SMap SalSlot := []
  hist : SMap HistSlot := []
  /-- Pond pages taken: page, shard, page index within the shard (R297). -/
  pond : List (Nat × Nat × Nat) := []
  /-- The newest grant received for each PTAG, for senders that have not started (R237). -/
  grants : SMap (Option Grant) := []
  /-- Outstanding Brine transactions (R241). -/
  txns : List Txn := []
  /-- Wear rotation in progress (R407). -/
  wear : Option WearRun := none
  /-- The last control port response (R437). -/
  cp   : CpRsp := {}
  /-- Frames sent, oldest first: link and frame (the model's own record of the transmit lanes). -/
  sent : List (Fin 8 × Frame) := []
  /-- Addresses >> 7 of host lines answered with an error in this command (the model's own). -/
  hostBad : List Nat := []
  /-- Remote aperture reads of a unit (R336): bytes delivered, 16-byte units delivered, units answered with an error,
  units this command needs and does not have, units it has read; and remote writes this command makes, as address and
  bytes. -/
  rbuf : SMap Byte := []
  rgot : List Nat := []
  rfail : List Nat := []
  miss : List Nat := []
  rused : List Nat := []
  rout : List ROut := []
  /-- The unit that acts in this command, whether it uses the reserved credits, and whether an access of it found no
  credit (the model's own, R20, R21, R242). -/
  who  : Option Agent := none
  rsv  : Bool := false
  stall : Bool := false
  /-- Number of free values taken (the model's own). -/
  free : Nat := 0
  deriving DecidableEq, Repr

/-- Why the machine stops with a fault. No command of this block stops it: every error the spec describes is
recorded in the state, so no step answers with a fault. -/
inductive Fault where
  /-- Raised by no command; kept so that the type has a value. Safe. -/
  | none
  deriving DecidableEq, Repr

/-- Why a command is refused. -/
inductive Refusal where
  /-- The command has no meaning in this model yet. Raised by the refused arms of `exec`. Safe. -/
  | notModelled (mnemonic : String)
  deriving DecidableEq, Repr

/-- Harvest engine n at reset: it uses the Brine port of quad 2n (R480). -/
def hrvInit (n : Fin 8) : Hrv := { regs := { hquad := ⟨2 * n.1, by omega⟩ } }

/-- Salter n at reset: it uses the Brine port of quad 2n + 1 (R481). -/
def sltInit (n : Fin 8) : Slt := { regs := { squad := ⟨2 * n.1 + 1, by omega⟩ } }

/-- The block as a cold reset leaves it, with RST_N still low: every register at its reset value, no work held,
every pan GATED, every supply off (R434, R443, R459, R475). -/
def State.reset : State :=
  { hrv := Vector.ofFn hrvInit, slt := Vector.ofFn sltInit, pins := { rstLow := true } }

end Sys2Proof.Machine
end

