-- ==== Sys2Proof/Machine/Mem.lean ====
section
/-! DEFINITION. Sparse memories in canonical form, little-endian words, host memory behind Brine with its error
responses (spec/00 R7, spec/08 R241 to R244), and the remote aperture (spec/12 R336). -/

namespace Sys2Proof.Machine

/-- What a map holds at a key; `d` where it lists nothing. -/
def smGet {α : Type} (d : α) : SMap α → Nat → α
  | [], _ => d
  | (a, x) :: t, k => if a = k then x else smGet d t k

/-- A map without a key. -/
def smDel {α : Type} (m : SMap α) (k : Nat) : SMap α := m.filter fun e => e.1 ≠ k

/-- A map that lists no `k`, with an entry for it before the first larger key. -/
def smIns {α : Type} (k : Nat) (x : α) : SMap α → SMap α
  | [] => [(k, x)]
  | (a, y) :: t => if k < a then (k, x) :: (a, y) :: t else (a, y) :: smIns k x t

/-- A map with one key set, keys rising and no default entry. -/
def smSet {α : Type} [DecidableEq α] (d : α) (m : SMap α) (k : Nat) (x : α) : SMap α :=
  if x = d then smDel m k else smIns k x (smDel m k)

/-- A map changed entry by entry, with no default entry left. -/
def smMap {α : Type} [DecidableEq α] (d : α) (f : Nat → α → α) (m : SMap α) : SMap α :=
  (m.map fun x => (x.1, f x.1 x.2)).filter fun x => x.2 ≠ d

/-- Keys strictly rise above `lo` and no entry is the default. -/
def smWfFrom {α : Type} [DecidableEq α] (d : α) : Nat → SMap α → Bool
  | _, [] => true
  | lo, (a, x) :: t => decide (lo ≤ a) && decide (x ≠ d) && smWfFrom d (a + 1) t

/-- The canonical form of a map. -/
def smWf {α : Type} [DecidableEq α] (d : α) (m : SMap α) : Bool := smWfFrom d 0 m

/-- The canonical form of a byte memory whose unlisted bytes read 0. -/
def Memory.wf (m : SMap Byte) : Bool := smWf 0 m

/-- Bytes from an address on. -/
def memBytes (m : SMap Byte) (a n : Nat) : List Byte := (List.range n).map fun i => smGet 0 m (a + i)

/-- A memory with bytes stored from an address on. -/
def memPut : SMap Byte → Nat → List Byte → SMap Byte
  | m, _, [] => m
  | m, a, b :: t => memPut (smSet 0 m a b) (a + 1) t

/-- The number a little-endian byte string spells (R7). -/
def leNat : List Byte → Nat
  | [] => 0
  | b :: t => b.toNat + 256 * leNat t

/-- The `n` little-endian bytes of a number. -/
def leBytes : Nat → Nat → List Byte
  | 0, _ => []
  | n + 1, x => BitVec.ofNat 8 x :: leBytes n (x / 256)

/-- A field of a byte string: `n` bytes from offset `o`, little-endian. -/
def leAt (bs : List Byte) (o n : Nat) : Nat := leNat ((bs.drop o).take n)

/-- One byte of a byte string, as a number. -/
def byteAt (bs : List Byte) (o : Nat) : Nat := (bs.getD o 0).toNat

/-- A free value of the machine, and the state that has taken it. -/
def takeFree (w : Nat) (s : State) : BitVec w × State :=
  (Config.freeBits w s.free, { s with free := s.free + 1 })

/-- The 64-bit address a computation gives. -/
def addr64 (a : Nat) : Nat := a % 2 ^ 64

/-- The instance an address of the remote aperture names and the address there, when it is not this instance's own
(R336). -/
def apertureOf (s : State) (a : Nat) : Option (Nat × Nat) :=
  let b := s.twn.regs.rapbase.toNat
  if b ≤ a ∧ a < b + 2 ^ 46 then
    let i := (a - b) / 2 ^ 40
    if i = s.glb.inst.toNat then none else some (i, (a - b) % 2 ^ 40)
  else none

/-- The host address a Brine access uses: an aperture address of the instance itself is its own memory (R336). -/
def localAddr (s : State) (a : Nat) : Nat :=
  let b := s.twn.regs.rapbase.toNat
  if b ≤ a ∧ a < b + 2 ^ 46 ∧ (a - b) / 2 ^ 40 = s.glb.inst.toNat then (a - b) % 2 ^ 40 else a

/-- The address in the instance's own host memory that a Brine access reaches. -/
def hostAddr (s : State) (a0 : Nat) : Nat := localAddr s (addr64 a0)

/-- The 128-byte lines an access of `n` bytes touches. -/
def linesOf (a n : Nat) : List Nat :=
  if n = 0 then [] else (List.range ((a + n - 1) / 128 - a / 128 + 1)).map (a / 128 + ·)

/-- Whether a line's transactions are answered with an error in this command. -/
def lineBad (s : State) (a : Nat) : Bool := s.hostBad.contains (a / 128)

/-! ### Brine credits (R242) -/

def shareUse (s : State) (q : Fin 16) (i : Fin 8) : Nat :=
  (s.txns.filter fun t => decide (t.port = q) && decide (t.share = some i)).length

def rsvUse (s : State) (q : Fin 16) : Nat :=
  (s.txns.filter fun t => decide (t.port = q) && t.share.isNone).length

/-- The share of a pan that is GATED: its unused part is open to borrowers. -/
def shareGated (s : State) (q : Fin 16) (i : Fin 8) : Bool :=
  if h : i.1 < 4 then (vget s.pan ⟨4 * q.1 + i.1, by omega⟩).pwr == .gated else false

/-- Whether a requester may take a credit: a reserved one (`none`) or one of a share, borrowing included. -/
def creditOk (s : State) (q : Fin 16) : Option (Fin 8) → Bool
  | none => decide (rsvUse s q < 64)
  | some i =>
    let free := 448 - ((List.finRange 8).map (shareUse s q)).sum
    let others := ((List.finRange 8).map fun j =>
      if j = i || shareGated s q j then 0 else 56 - shareUse s q j).sum
    decide (0 < free) && (decide (shareUse s q i < 56) || decide (others < free))

/-- The agent share 4 + n of R242. -/
def agentShare (n : BitVec 2) : Fin 8 := ⟨4 + n.toNat, by have := n.isLt; omega⟩

/-- The quad whose Brine port the block's own services use: the commit records of the verdict unit, page-ins and journal
writes. No rule gives them a quad (R21, R287, R485; DESIGN CHOICE, log entry 125). Firmware images use quad 0 by R413. -/
def flipQuad : Fin 16 := 0

/-- The Brine port and the share of a unit, no share for the reserved credits (R242). -/
def Agent.port (s : State) : Agent → Option (Fin 16 × Option (Fin 8))
  | .pan l _ =>
    let e := vget s.glb.panmap l
    if e.missing then none else some (⟨e.phys.1 / 4, by omega⟩, some ⟨e.phys.1 % 4, by omega⟩)
  | .hrv n => let r := (vget s.hrv n).regs; some (r.hquad, some (agentShare r.hshare))
  | .slt n => let r := (vget s.slt n).regs; some (r.squad, some (agentShare r.sshare))
  | .rak => some (s.rak.regs.quad, some (agentShare s.rak.regs.share))
  | .lnk k => let r := (vget s.lnk k).regs; some (r.lquad, some (agentShare r.lshare))
  | .core => some (flipQuad, none)
  | .svc => some (0, some 4)

/-- Whether the unit of this command has no credit for an access of its own (R20, R21, R245). -/
def noCredit (s : State) : Bool :=
  match s.who.bind (Agent.port s) with
  | some (q, sh) => !creditOk s q (if s.rsv then none else sh)
  | none => false

/-- A computation whose accesses use the reserved credits of the unit's port (R21). -/
def onReserve {α : Type} (f : State → α × State) (s : State) : α × State :=
  let (x, t) := f { s with rsv := true }
  (x, { t with rsv := s.rsv })

/-- An access of the command's unit to host memory: without a credit the unit stalls. -/
def useCredit (s : State) : State := { s with stall := s.stall || noCredit s }

/-! ### Host memory behind Brine -/


/-- Reads host memory, or remote memory through the aperture: the bytes, or none on an error response (R244), and the
state, in which a remote unit not yet delivered is noted as missing. -/
def rdHost (s : State) (a0 n : Nat) : Option (List Byte) × State :=
  match apertureOf s (addr64 a0) with
  | some _ =>
    let a := addr64 a0
    let us := (List.range ((a + n - 1) / 16 - a / 16 + 1)).map (a / 16 + ·)
    let need := us.filter fun u => !(s.rgot.contains u) && !(s.rfail.contains u)
    if need ≠ [] then (some (List.replicate n 0), { s with miss := s.miss ++ need.filter (!s.miss.contains ·) })
    else if us.any (s.rfail.contains ·) then (none, { s with rused := s.rused ++ us })
    else (some (memBytes s.rbuf a n), { s with rused := s.rused ++ us })
  | none =>
    let a := hostAddr s a0
    if (linesOf a n).any (s.hostBad.contains ·) then (none, useCredit s)
    else (some (memBytes s.host a n), useCredit s)

/-- Stores bytes in host memory; a byte of a line answered with an error takes a free value (R244). -/
def putHost : State → Nat → List Byte → State
  | s, _, [] => s
  | s, a, b :: t =>
    if lineBad s a then
      let (v, s) := takeFree 8 s
      putHost { s with host := smSet 0 s.host a v } (a + 1) t
    else putHost { s with host := smSet 0 s.host a b } (a + 1) t

/-- Bytes that a WR answered with an error had enabled: each holds an undefined value (R244). -/
def spoilHost : State → Nat → Nat → State
  | s, _, 0 => s
  | s, a, n + 1 =>
    let (v, s) := takeFree 8 s
    spoilHost { s with host := smSet 0 s.host a v } (a + 1) n

/-- The byte that the writes of this command last gave an aperture address. -/
def routAt (ws : List ROut) (a : Nat) : Option Byte :=
  ws.foldl (fun r w => if w.addr ≤ a ∧ a < w.addr + w.bytes.length then w.bytes[a - w.addr]? else r) none

/-- A write into the aperture, begun at the 16-byte boundary below it, as WRITE frames name their destination (R327): the
bytes between are those this command wrote, or those read there (DESIGN CHOICE, log entry 113). -/
def wrRemote (s : State) (a : Nat) (bs : List Byte) : Bool × State :=
  let a0 := a / 16 * 16
  let mine := (List.range (a - a0)).map fun i => routAt s.rout (a0 + i)
  let (old, s) := if mine.all (·.isSome) then (some [], s) else rdHost s a0 (a - a0)
  match old with
  | none => (false, s)
  | some old =>
    let pre := mine.zipIdx.map fun (b, i) => b.getD (old.getD i 0)
    (true, { s with rout := s.rout ++ [{ addr := a0, bytes := pre ++ bs, who := s.who }] })

/-- Writes host memory, or remote memory through the aperture: whether no error response came, and the state. -/
def wrHost (s : State) (a0 : Nat) (bs : List Byte) : Bool × State :=
  match apertureOf s (addr64 a0) with
  | some _ => wrRemote s (addr64 a0) bs
  | none =>
    let a := hostAddr s a0
    (!(linesOf a bs.length).any (s.hostBad.contains ·), putHost (useCredit s) a bs)

/-- Reads a little-endian number from host memory. -/
def rdNum (s : State) (a n : Nat) : Option Nat × State :=
  let (r, s) := rdHost s a n
  (r.map leNat, s)

/-- The extent of a descriptor's data in bytes (R283, R292). -/
def Desc.extent (s : State) (d : Desc) : Nat :=
  if d.layout == 0 && d.masked then 16 * leNat (memBytes s.host (hostAddr s (d.aux + 4 * d.rows)) 4) else d.rows * d.rowstride

def Aop.apply (o : Aop) (x y : Nat) : Nat :=
  match o with
  | .addl16 => min (x + y) 0xFFFF
  | .addl32 => min (x + y) 0xFFFFFFFF
  | .maxu32 => max x y
  | .or32 => x ||| y

def Aop.bytes : Aop → Nat
  | .addl16 => 2
  | _ => 4

/-- What came of an atomic operation: the old value, an error response, or an atomic into the aperture (R336). -/
inductive AtRes where
  | old (x : Nat) | err | remote
  deriving DecidableEq, Repr

/-- An atomic operation on host memory (R232, R241). -/
def atHost (s : State) (o : Aop) (a0 y : Nat) : AtRes × State :=
  match apertureOf s (addr64 a0) with
  | some _ => (.remote, s)
  | none =>
    let a := hostAddr s a0
    if lineBad s a then (.err, useCredit s)
    else
      let x := leNat (memBytes s.host a o.bytes)
      (.old x, { useCredit s with host := memPut s.host a (leBytes o.bytes (o.apply x y)) })

/-- Reservoir bytes outside the structured regions. -/
def resBytes (s : State) (o n : Nat) : List Byte := memBytes s.res o n

/-- Stores bytes in the reservoir. -/
def resPut (s : State) (o : Nat) (bs : List Byte) : State := { s with res := memPut s.res o bs }

end Sys2Proof.Machine
end

