-- ==== Sys2Proof/Machine/Ops.lean ====
section
/-! DEFINITION. The operations every unit shares: access to pages and units, control port answers, the configuration
reject record (R463), Brine credits (R242), interrupts (R446 to R448), the event trace (R422, R490), unit states
(R460, R474), wake events (R393) and the tick. -/

namespace Sys2Proof.Machine

/-! ### Sorting -/

/-- Insertion into a list sorted by `lt`. -/
def insertBy {α : Type} (lt : α → α → Bool) (x : α) : List α → List α
  | [] => [x]
  | y :: t => if lt y x then y :: insertBy lt x t else x :: y :: t

def sortBy {α : Type} (lt : α → α → Bool) : List α → List α
  | [] => []
  | x :: t => insertBy lt x (sortBy lt t)

/-! ### Access to pages and units -/

/-- A page's header. -/
def hdr (s : State) (p : PageId) : PageHdr := vget s.hdrs p.ix
def modHdr (s : State) (p : PageId) (f : PageHdr → PageHdr) : State := { s with hdrs := vmod s.hdrs p.ix f }
/-- A logical pan. -/
def lp (s : State) (l : Fin 60) : LPan := vget s.lpan l
def modLp (s : State) (l : Fin 60) (f : LPan → LPan) : State := { s with lpan := vmod s.lpan l f }
/-- A physical pan. -/
def pn (s : State) (p : Fin 64) : Pan := vget s.pan p
def modPan (s : State) (p : Fin 64) (f : Pan → Pan) : State := { s with pan := vmod s.pan p f }
def modPanR (s : State) (p : Fin 64) (f : PanRegs → PanRegs) : State := modPan s p fun x => { x with regs := f x.regs }
/-- A harvest engine. -/
def eng (s : State) (n : Fin 8) : Hrv := vget s.hrv n
def modEng (s : State) (n : Fin 8) (f : Hrv → Hrv) : State := { s with hrv := vmod s.hrv n f }
/-- A salter. -/
def salt (s : State) (n : Fin 8) : Slt := vget s.slt n
def modSlt (s : State) (n : Fin 8) (f : Slt → Slt) : State := { s with slt := vmod s.slt n f }
/-- A link. -/
def lk (s : State) (k : Fin 8) : Lnk := vget s.lnk k
def modLk (s : State) (k : Fin 8) (f : Lnk → Lnk) : State := { s with lnk := vmod s.lnk k f }
def modLkR (s : State) (k : Fin 8) (f : LnkRegs → LnkRegs) : State := modLk s k fun x => { x with regs := f x.regs }
/-- A quad's voltage loop. -/
def quad (s : State) (q : Fin 16) : Qd := vget s.qd q
def modQd (s : State) (q : Fin 16) (f : Qd → Qd) : State := { s with qd := vmod s.qd q f }
/-- A shard's state entry. -/
def shardOf (s : State) (i : Nat) : Shard := smGet {} s.shard i
def modShard (s : State) (i : Nat) (f : Shard → Shard) : State :=
  { s with shard := smSet {} s.shard i (f (shardOf s i)) }
/-- A mask directory entry. -/
def dirOf (s : State) (m : Nat) : DirE := smGet {} s.dir m
def modDir (s : State) (m : Nat) (f : DirE → DirE) : State := { s with dir := smSet {} s.dir m (f (dirOf s m)) }
/-- A scale history slot. -/
def histOf (s : State) (h : Nat) : HistSlot := smGet {} s.hist h
def setHist (s : State) (h : Nat) (x : HistSlot) : State := { s with hist := smSet {} s.hist h x }
/-- A salinometer slot. -/
def salOf (s : State) (i : Nat) : SalSlot := smGet {} s.salino i
def modSal (s : State) (i : Nat) (f : SalSlot → SalSlot) : State :=
  { s with salino := smSet {} s.salino i (f (salOf s i)) }
/-- The singleton pages and units. -/
def modGlb (s : State) (f : Glb → Glb) : State := { s with glb := f s.glb }
def modSec (s : State) (f : Sec → Sec) : State := { s with sec := f s.sec }
def modPwr (s : State) (f : Pwr → Pwr) : State := { s with pwr := f s.pwr }
def modTide (s : State) (f : Tide → Tide) : State := { s with tide := f s.tide }
def modFlt (s : State) (f : Flt → Flt) : State := { s with flt := f s.flt }
def modSalR (s : State) (f : Sal → Sal) : State := { s with sal := f s.sal }
def modVrd (s : State) (f : Vrd → Vrd) : State := { s with vrd := f s.vrd }
def modTwn (s : State) (f : Twn → Twn) : State := { s with twn := f s.twn }
def modRak (s : State) (f : Rak → Rak) : State := { s with rak := f s.rak }
def modTst (s : State) (f : Tst → Tst) : State := { s with tst := f s.tst }
def modWrap (s : State) (f : Wrap → Wrap) : State := { s with wrap := f s.wrap }
def modPins (s : State) (f : Pins → Pins) : State := { s with pins := f s.pins }
/-- The registers of the verdict unit and of the join and twin logic. -/
def modVrdR (s : State) (f : VrdRegs → VrdRegs) : State := { s with vrd := { s.vrd with regs := f s.vrd.regs } }
def modTwnR (s : State) (f : TwnRegs → TwnRegs) : State := { s with twn := { s.twn with regs := f s.twn.regs } }
def modRakR (s : State) (f : RakRegs → RakRegs) : State := { s with rak := { s.rak with regs := f s.rak.regs } }
def modTstR (s : State) (f : TstRegs → TstRegs) : State := { s with tst := { s.tst with regs := f s.tst.regs } }

/-- A counter raised by n and limited to its width (R344, R365, R463). -/
def satAdd {w : Nat} (x : BitVec w) (n : Nat) : BitVec w := BitVec.ofNat w (min (x.toNat + n) (2 ^ w - 1))

/-- A bit of a word set or cleared. -/
def setBit {w : Nat} (x : BitVec w) (i : Nat) (b : Bool) : BitVec w :=
  if b then x ||| BitVec.ofNat w (2 ^ i) else x &&& ~~~(BitVec.ofNat w (2 ^ i))

/-- Sequence arithmetic of R163 and R329: a is newer than b. -/
def newer {w : Nat} (a b : BitVec w) : Bool :=
  let d := (a - b).toNat
  decide (1 ≤ d) && decide (d < 2 ^ (w - 1))

/-! ### Control port -/

/-- The codes of R437. -/
def cpOk : BitVec 2 := 0
def cpReject : BitVec 2 := 1
def cpError : BitVec 2 := 2

/-- The control port's response to a command. -/
def answer (s : State) (c : BitVec 2) (d : W32 := 0) : State := { s with cp := { code := c, data := d } }

/-- The causes of R463. -/
inductive Rej where
  | runlock | range | state | level | security
  deriving DecidableEq, Repr

def Rej.code : Rej → BitVec 4
  | .runlock => 1 | .range => 2 | .state => 3 | .level => 4 | .security => 5

/-- A dropped write recorded in PG_CFGREJ (R463). -/
def PageHdr.reject (h : PageHdr) (off : Nat) (c : Rej) : PageHdr :=
  let h := { h with rejCnt := satAdd h.rejCnt 1 }
  if h.rejValid then h
  else { h with rejValid := true, rejOff := BitVec.ofNat 12 (off / 4 * 4), rejCause := c.code }

def cfgRej (s : State) (p : PageId) (off : Nat) (c : Rej) : State := modHdr s p (·.reject off c)

/-- A dropped write that its rule answers with REJECT (R464). -/
def dropReject (s : State) (p : PageId) (off : Nat) (c : Rej) : State := answer (cfgRej s p off c) cpReject

/-- A dropped write answered OK (R464). -/
def dropOk (s : State) (p : PageId) (off : Nat) (c : Rej) : State := answer (cfgRej s p off c) cpOk

/-! ### Brine transactions (R241) -/

def creditsFree (s : State) (q : Fin 16) : Nat := 512 - (s.txns.filter fun t => decide (t.port = q)).length

/-- The lowest tag that no outstanding transaction of the port carries. -/
def freeTag (s : State) (q : Fin 16) : BitVec 9 :=
  let used := (s.txns.filter fun t => decide (t.port = q)).map (·.tag.toNat)
  BitVec.ofNat 9 (((List.range 512).find? fun t => !used.contains t).getD 0)

/-- A transaction issued on a port. -/
def issueTxn (s : State) (q : Fin 16) (sh : Option (Fin 8)) (k : TxnKind) (addr : Nat) (data : List Byte) (why : TxnFor) :
    State :=
  { s with txns := s.txns ++
      [{ port := q, tag := freeTag s q, kind := k, share := sh, addr := addr, data := data, why := why }] }

/-! ### Interrupts (R446 to R448, R473) -/

def srcFlt : Nat := 64
def srcInstLoss : Nat := 65
def srcNoSpare : Nat := 66
def srcVslow : Nat := 67
def srcSkipRun : Nat := 68
def srcSalAlm : Nat := 69
def srcStranger : Nat := 70
def srcPeerLost : Nat := 71
def srcTakeover : Nat := 72
def srcPwr : Nat := 73
def srcTide : Nat := 74
def srcBoot : Nat := 75
def srcSec : Nat := 76

/-- The 96 sources, reserved ones left out (R446). -/
def srcUsed (i : Nat) : Bool := i < 60 || (64 ≤ i && i < 77)

/-- The destination code of a source. -/
def intDest (s : State) (i : Nat) : Nat := if h : i < 96 then (vget s.glb.intdst ⟨i, h⟩).toNat else 0

/-- Whether a source is enabled and routed to message writes at the page's level (R448, R465). -/
def msgRouted (s : State) (i : Nat) : Bool :=
  bit s.glb.inten i && intDest s i == 4 && decide (0x0101 ≤ (hdr s .glb).abi.toNat)

/-- A message write issued, or held while the block is not ACTIVE or its share has no credit (R448). -/
def sendMsg (s : State) (i : Nat) : State :=
  let q := s.glb.msgQuad
  let sh := agentShare s.glb.msgShare
  if s.pwr.pstate = .active && creditOk s q (some sh) then
    let v := s.glb.msgData.toNat + i
    issueTxn s q (some sh) .wr s.glb.msgAddr.toNat (leBytes 4 v) (.message i)
  else { s with pwr := { s.pwr with heldMsg := s.pwr.heldMsg ++ (if h : i < 96 then [⟨i, h⟩] else []) } }

/-- A source's pending bit set by its event; a message is due when the bit changes from 0 (R446, R448). -/
def raiseInt (s : State) (i : Nat) : State :=
  let s' := { s with glb := { s.glb with intpnd := setBit s.glb.intpnd i true } }
  if !bit s.glb.intpnd i && msgRouted s i then sendMsg s' i else s'

/-- Messages held until now, sent as far as credits reach. -/
def sendHeldMsgs (s : State) : State :=
  s.pwr.heldMsg.foldl (fun s i => sendMsg s i.1) { s with pwr := { s.pwr with heldMsg := [] } }

/-- Messages of sources that a change of routing has made due: pending, routed to MSG now and not before (R448,
R473). -/
def sendRouted (before s : State) : State :=
  (List.range 96).foldl
    (fun s i => if bit s.glb.intpnd i && msgRouted s i && !msgRouted before i then sendMsg s i else s) s

/-- INT_LINE (R447): low in RETAIN and OFF and once the core is taken (R496). -/
def intLine (s : State) : BitVec 4 :=
  if s.wrap.taken || s.pwr.pstate = .retain || s.pwr.pstate = .off then 0
  else BitVec.ofNat 4 (((List.range 4).map fun n =>
    if (List.range 96).any fun i => bit s.glb.intpnd i && bit s.glb.inten i && intDest s i == n then 2 ^ n else 0).sum)

/-! ### Event trace (R422, R490) -/

/-- A trace record of a kind from a page, with its payload bytes 12 to 31. -/
def trace (s : State) (kind : Nat) (p : PageId) (payload : List Byte) : State :=
  let t := s.tst.regs
  if s.sec.dbglvl = 0 || t.trFreeze || !bit t.trEn (kind - 1) then s
  else
    let bytes := leBytes 8 s.pwr.tick.toNat ++ leBytes 1 kind ++ [0] ++ leBytes 2 p.num
      ++ (payload ++ List.replicate 20 0).take 20
    let s := resPut s (0x260000 + 32 * (t.trPi.toNat % 2048)) bytes
    modTstR s fun t => { t with trPi := t.trPi + 1 }

/-- Trace kind 5: a power transition. -/
def tracePower (s : State) (old new : PState) (cause : Nat) : State :=
  trace s 5 .pwr (leBytes 1 old.code ++ leBytes 1 new.code ++ leBytes 1 s.pwr.pres.toNat ++ leBytes 1 cause
    ++ leBytes 1 s.pwr.fnow.toNat)

/-- Trace kind 6: a key event. -/
def traceKey (s : State) (slot event code : Nat) (kid : W32) : State :=
  trace s 6 .sec (leBytes 1 slot ++ leBytes 1 event ++ leBytes 1 code ++ [0] ++ leBytes 4 kid.toNat)

/-! ### Physical and logical pans -/

/-- The physical pan of a logical one; none while its entry is missing (R467). -/
def physOf (s : State) (l : Fin 60) : Option (Fin 64) :=
  let e := vget s.glb.panmap l
  if e.missing then none else some e.phys

/-- The logical number a physical pan carries (R477). -/
def logOf (s : State) (p : Fin 64) : Option (Fin 60) :=
  (List.finRange 60).find? fun l => decide (physOf s l = some p)

/-- Whether a pan is fenced, bypassed or isolated. -/
def panOut (s : State) (p : Fin 64) : Bool :=
  bit s.flt.fpan p.1 || bit s.tst.regs.bypPan p.1 || (hdr s (.pan p)).mode == .isolated

/-- The lowest-numbered pan whose RSVOK bit is set (R373). -/
def lowReserve (s : State) : Option (Fin 64) := (List.finRange 64).find? fun p => bit s.flt.rsvok p.1

/-- Orders and tiles a logical pan holds. -/
def LPan.anyArmed (x : LPan) : Bool := (List.finRange 16).any fun j => (vget x.armed j).isSome
def LPan.running (x : LPan) : Bool := x.run.isSome || !x.parked.isEmpty || !x.passed.isEmpty || x.anyArmed
def LPan.holdsWork (x : LPan) : Bool := x.running || !x.win.isEmpty || !x.done.isEmpty || x.settle.isSome
/-- A tile is running (R461). -/
def LPan.inTile (x : LPan) : Bool := (x.run.map (·.started)).getD false || x.tideTile.isSome

/-! ### Unit states (R459, R460, R462, R474) -/

def anyLp (s : State) (f : LPan → Bool) : Bool := (List.finRange 60).any fun l => f (lp s l)

/-- Whether the quad has a LIVE pan. -/
def quadLive (s : State) (q : Fin 16) : Bool :=
  (List.finRange 64).any fun p => decide (p.1 / 4 = q.1) && (pn s p).pwr == .live

/-- A voltage request of a quad: a new code with a toggle of VID_Qq_REQ (R397). -/
def vidRequest (s : State) (q : Fin 16) (code : Byte) : State :=
  modQd s q fun x => { x with reqout := some code, vidCode := code, vidReq := !x.vidReq }

/-- A quad whose last LIVE pan gates requests VMAX (R400), once no request of its is outstanding. -/
def quadIdle (s : State) (q : Fin 16) : State :=
  let x := quad s q
  if x.vidEn && !quadLive s q && x.reqout.isNone && x.vcode ≠ x.vmax && (hdr s (.qd q)).mode == .active then vidRequest s q x.vmax
  else s

def quadOf (p : Fin 64) : Fin 16 := ⟨p.1 / 4, by omega⟩

def joined (s : State) : Bool := s.twn.regs.jstate == .joined

/-- Whether a page's unit holds work. -/
def unitBusy (s : State) : PageId → Bool
  | .glb => anyLp s fun x => x.qen || x.run.isSome
  | .sec => s.sec.fwRun || s.sec.kload.isSome
  | .pwr => s.pwr.pstate == .active
  | .tide => (List.finRange 16).any fun e => decide (7 ≤ e.1) && (vget s.tide.ent e).running
  | .flt => (salt s s.flt.hsalt).mode != .idle
  | .vrd => s.vrd.regs.closed
  | .sal => false
  | .twn => s.twn.regs.jstate == .joining || joined s
  | .lnk k => (s.txns.any fun t => match t.why with | .served j _ _ _ => decide (j = k) | _ => false)
      || s.twn.held.any fun h => decide (h.link = k)
  | .hrv n => (eng s n).job.isSome
  | .rak => s.rak.cmd.isSome || !s.rak.evq.isEmpty || !s.rak.retire.isEmpty
  | .pan p => match logOf s p with
    | some l => (lp s l).holdsWork
    | none => false
  | .qd q => quadLive s q
  | .slt n => (salt s n).mode != .idle
  | .tst => !s.tst.tests.isEmpty || s.tst.waiting.isSome || s.tst.regs.svcRes == 1

/-- Whether the piece of work in progress at a STOP has ended (R461, R462, R474). -/
def pieceDone (s : State) : PageId → Bool
  | .glb => !anyLp s (·.inTile)
  | .tide => !unitBusy s .tide
  | .hrv n => (eng s n).job.isNone
  | .rak => s.rak.retire.isEmpty && (s.rak.cmd.map (·.held)).getD true
  | .pan p => match logOf s p with
    | some l => !(lp s l).inTile
    | none => true
  | .slt n => (salt s n).mode != .fence
  | .lnk k => !(s.txns.any fun t => match t.why with | .served j _ _ _ => decide (j = k) | _ => false)
  | _ => true

/-- Whether all held work has ended, for QUIESCE (R461). -/
def workDone (s : State) : PageId → Bool
  | .glb => !anyLp s fun x => x.running || !x.done.isEmpty
  | .rak => s.rak.retire.isEmpty && s.rak.evq.isEmpty && (s.rak.cmd.map (·.held)).getD true
  | .pan p => match logOf s p with
    | some l => !((lp s l).running || !(lp s l).done.isEmpty)
    | none => true
  | .slt n => (salt s n).mode == .idle
  | p => pieceDone s p

/-- PG_STS STATE (R459, R460, R462, R474). -/
def pageState (s : State) (p : PageId) : UState :=
  match p with
  | .pwr => if s.pwr.pstate = .active then .running else .stopped
  | _ =>
    match (hdr s p).mode with
    | .active => if unitBusy s p then .running else .idle
    | .stopping => if pieceDone s p then .stopped else .quiescing
    | .quiescing => if workDone s p then .stopped else .quiescing
    | .isolated => .isolated
    | .faulted => .faulted

/-- Whether a run-locked field of the page may be written (R8, R462). -/
def unlocked (s : State) (p : PageId) : Bool :=
  match pageState s p with
  | .idle | .stopped | .isolated => true
  | _ => false

/-- Whether the unit takes new work: neither stopping, stopped, isolated nor faulted. -/
def admits (s : State) (p : PageId) : Bool := (hdr s p).mode == .active

/-- Whether a unit's held work may go on: a QUIESCE lets it, a STOP does not beyond the piece in progress. -/
def goesOn (s : State) (p : PageId) : Bool :=
  match (hdr s p).mode with
  | .active | .quiescing => true
  | _ => false

/-- The block starts no order, job or rake event: lost (R380), in the power-fail sequence (R382, R383), taken (R496),
or below READY after a refused JOIN or before CONFIG (R454). -/
def noStarts (s : State) : Bool :=
  s.flt.lastrst == 3 || s.flt.pfstate != 0 || s.wrap.taken || s.twn.regs.jstate == .refused
    || decide (s.glb.bstage.toNat < 7)

/-- A unit's debug halt bit, by the unit numbers of R489. -/
def dhBit (t : TstRegs) (u : Nat) : Bool :=
  if u < 0x40 then bit t.dhPan u else if u < 0x48 then bit t.dhHrv (u - 0x40)
  else if u < 0x50 then bit t.dhSlt (u - 0x48) else t.dhRak && u == 0x50

/-- A unit halted by debug starts no piece of work but the one that a STEP allows (R492). -/
def halted (s : State) (u : Nat) : Bool := dhBit s.tst.regs u && !s.tst.stepping.contains u

/-- The piece a STEP allows has begun. -/
def useStep (s : State) (u : Nat) : State := modTst s fun t => { t with stepping := t.stepping.filter (· ≠ u) }

/-- Whether a page is at a level or above (R465). -/
def atLevel (s : State) (p : PageId) (v : Nat) : Bool := decide (v ≤ (hdr s p).abi.toNat)

/-- PIDLE; 0 below its level (R465). -/
def pidleOf (s : State) : W32 := if atLevel s .pwr 0x0103 then s.pwr.pidle else 0

/-! ### Events and wakes (R392, R393, R404) -/

/-- An event sent to a salter: one in WFE leaves it. -/
def sltEvent (s : State) (n : Fin 8) : State :=
  modSlt s n fun x => if x.mode = .wfe then { x with mode := .run } else { x with event := true }

/-- Every salter in WFE leaves it. -/
def wakeSalters (s : State) : State :=
  { s with slt := s.slt.map fun x => if x.mode = .wfe then { x with mode := .run } else x }

/-- A wake event (R392, R393): starts the wake from DOZE; during a DOZE entry it ends the entry with CANCELLED. -/
def wakeEvent (s : State) : State :=
  match s.pwr.ptrans with
  | some .dozeEntry | some .dozeWait =>
    wakeSalters { s with pwr := { s.pwr with ptrans := none, pres := 3 } }
  | none => if s.pwr.pstate = .doze then { s with pwr := { s.pwr with ptrans := some .dozeWake } } else s
  | _ => s

/-- One tick of CLK_AON with no event (R387, R405 to R408): the tick count, LIVETICKS of LIVE pans and the tide
table's counts. No tick passes while RST_N is low or the block is OFF. -/
def idleTick (s : State) : State :=
  if s.pins.rstLow || s.pwr.pstate = .off then s
  else
    { s with
      pwr := { s.pwr with tick := s.pwr.tick + 1 }
      pan := s.pan.map fun x =>
        if x.pwr = .live then { x with regs := { x.regs with liveticks := x.regs.liveticks + 1 } } else x
      tide := { s.tide with ent := s.tide.ent.map fun e =>
        if e.ten && !e.tkind && !e.susp then { e with next := BitVec.ofNat 32 (e.next.toNat - 1), now := e.now + 1 }
        else e } }

end Sys2Proof.Machine
end

