-- ==== Sys2Proof/Machine/Frames.lean ====
section
/-! DEFINITION. Frames and their checks, protection, sequences and credits: the sending half of the link layer
(spec/12_thrumow_links_and_cascade.md R325 to R335). -/

namespace Sys2Proof.Machine

/-! ### CRC-32C and layout (R325, R326) -/

/-- One bit of the reflected CRC-32C. -/
def crcBit (c : W32) : W32 := if bit c 0 then (c >>> 1) ^^^ 0x82F63B78#32 else c >>> 1

def crcByte (c : W32) (b : Byte) : W32 :=
  let c := c ^^^ b.setWidth 32
  crcBit (crcBit (crcBit (crcBit (crcBit (crcBit (crcBit (crcBit c)))))))

/-- CRC-32C of a byte string (R326). -/
def crc32c (bs : List Byte) : W32 := bs.foldl crcByte 0xFFFFFFFF#32 ^^^ 0xFFFFFFFF#32

/-- A list cut or zero-filled to a length. -/
def fitTo (n : Nat) (l : List Byte) : List Byte := (l ++ List.replicate (n - l.length) 0).take n

/-- A payload zero-padded to a multiple of 64 bytes (R325). -/
def pad64 (l : List Byte) : List Byte := fitTo ((l.length + 63) / 64 * 64) l

/-- The 32 header bytes (R325). -/
def hdrBytes (f : Frame) : List Byte :=
  [f.ftype, f.fctl] ++ leBytes 2 f.plen.toNat ++ [f.src, f.dst] ++ leBytes 2 f.dom.toNat ++ leBytes 2 f.seq.toNat
    ++ leBytes 2 f.ack.toNat ++ leBytes 2 f.crlim.toNat ++ [f.reb, f.rsv15] ++ leBytes 2 f.sess.toNat
    ++ leBytes 2 f.rsv18.toNat ++ fitTo 12 f.tspec

/-- The FCRC a frame should carry (R326). -/
def frameCrc (f : Frame) : W32 := crc32c (hdrBytes f ++ f.payload ++ fitTo 16 f.tag)

/-- A frame with its FCRC. -/
def sealCrc (f : Frame) : Frame := { f with fcrc := frameCrc f }

/-- CLASS, PROT, KSEL and ADP of FCTL (R325). -/
def fClass (f : Frame) : Nat := f.fctl.toNat % 4
def fProt (f : Frame) : Nat := f.fctl.toNat / 4 % 4
def fKsel (f : Frame) : Fin 2 := if bit f.fctl 4 then 1 else 0
def fAdp (f : Frame) : Bool := bit f.fctl 5

/-- A field of TSPEC by its header byte number, as R327 numbers them. -/
def tsAt (f : Frame) (byte n : Nat) : Nat := leAt f.tspec (byte - 20) n

/-- The class a frame type travels in (R327); none for reserved types. LCTL has none of its own and answers 3. -/
def typeClass (t : Nat) : Option Nat :=
  if 0x01 ≤ t ∧ t ≤ 0x07 then some 2
  else if 0x08 ≤ t ∧ t ≤ 0x0F then some 0
  else if t = 0x10 ∨ t = 0x11 then some 1
  else if t = 0x12 then some 3 else none

/-! ### Pairs (R329, R330) -/

/-- The allowance of a class (R329). -/
def allowance : Nat → Nat
  | 0 => 2
  | 1 => 8
  | _ => 4

/-- The key of a (peer, class) pair; frames sent or taken under the adopted number have pairs of their own. -/
def pairKey (adp : Bool) (peer cls : Nat) : Nat := (if adp then 256 else 0) + peer * 4 + cls

def pairOf (s : State) (adp : Bool) (peer cls : Nat) : Pair := smGet {} s.twn.pairs (pairKey adp peer cls)

def modPair (s : State) (adp : Bool) (peer cls : Nat) (f : Pair → Pair) : State :=
  { s with twn := { s.twn with
      pairs := smSet {} s.twn.pairs (pairKey adp peer cls) (f (pairOf s adp peer cls)) } }

/-- ACK: the next sequence expected, up to which every frame's effects are complete (R331). -/
def Pair.ack (p : Pair) : Nat := p.rxWait.foldl min p.rxNext

/-- The limit granted to the peer (R329): frames accepted and the allowance; only the twin has one in class J. -/
def grantLim (s : State) (peer cls : Nat) (p : Pair) : Nat :=
  p.rxNext + (if cls = 1 ∧ ¬(s.twn.regs.twen ∧ s.twn.regs.twin.toNat = peer) then 0 else allowance cls)

/-- The limit the peer has granted: the newest CRLIM received, the allowance before the first. -/
def Pair.limit (p : Pair) (cls : Nat) : W16 := p.txLim.getD (BitVec.ofNat 16 (allowance cls))

/-- Every pair with a peer as a new session leaves it (R335): sequences, limits and unacknowledged frames gone. -/
def resetPairs (s : State) (peer : Nat) : State :=
  { s with twn := { s.twn with
      pairs := s.twn.pairs.filter fun (k, _) => k % 256 / 4 ≠ peer
      held := s.twn.held.filter fun h => h.peer ≠ peer } }

/-! ### Protection (R335) -/

/-- The 96-bit IV. -/
def frameIv (ext : Nat) (f : Frame) : List Byte :=
  leBytes 6 ext ++ [f.src, f.dst] ++ leBytes 1 (fClass f) ++ [f.reb] ++ leBytes 2 f.sess.toNat

/-- A frame protected under PROT with the key of a slot, and sealed with its FCRC. -/
def protect (s : State) (ext : Nat) (f : Frame) : Frame :=
  let key := (vget s.sec.lk (fKsel f)).key
  match fProt f with
  | 1 => sealCrc { f with tag := fitTo 16 (Config.gcmTag key (frameIv ext f) (hdrBytes f) f.payload) }
  | 2 =>
    let f := { f with payload := fitTo f.payload.length (Config.gcmEnc key (frameIv ext f) f.payload) }
    sealCrc { f with tag := fitTo 16 (Config.gcmTag key (frameIv ext f) (hdrBytes f) f.payload) }
  | _ => sealCrc f

/-- The plain payload of a received frame. -/
def openPayload (s : State) (ext : Nat) (f : Frame) : List Byte :=
  let p := if fProt f = 2 then
      fitTo f.payload.length (Config.gcmDec (vget s.sec.lk (fKsel f)).key (frameIv ext f) f.payload)
    else f.payload
  p.take f.plen.toNat

/-- Whether a frame's GCM tag holds. -/
def tagOk (s : State) (ext : Nat) (f : Frame) : Bool :=
  fitTo 16 (Config.gcmTag (vget s.sec.lk (fKsel f)).key (frameIv ext f) (hdrBytes f) f.payload) == f.tag

/-! ### Sending -/

/-- A member's ROUTE byte (R354). -/
def routeOf (s : State) (peer : Nat) : Byte := if h : peer < 64 then vget s.twn.regs.route ⟨peer, h⟩ else 0

/-- The link a ROUTE byte names, when it is valid. -/
def routeLink (r : Byte) : Option (Fin 8) :=
  if bit r 3 then some ⟨r.toNat % 8, by omega⟩ else none

/-- The alternate link of a ROUTE byte, when it is valid. -/
def routeAlt (r : Byte) : Option (Fin 8) :=
  if bit r 7 then some ⟨r.toNat / 16 % 8, by omega⟩ else none

/-- Whether a link carries traffic. -/
def linkUp (s : State) (k : Fin 8) : Bool := decide (2 ≤ (lk s k).regs.lstate.toNat)

/-- A frame put on a link's lanes; a link that is not UP carries nothing. -/
def transmit (s : State) (k : Fin 8) (f : Frame) : State :=
  if linkUp s k then { s with sent := s.sent ++ [(k, f)] } else s

/-- Bytes a link's retry buffer holds (R332). -/
def retryBytes (s : State) (k : Fin 8) : Nat :=
  (s.twn.pairs.map fun (_, p) => (p.unacked.map fun u =>
    if u.link = k then 64 + u.frame.payload.length else 0).sum).sum

/-- The class whose ACK and CRLIM a frame carries: its own, or the one a NACK names (R332). -/
def ackClass (ftype cls : Nat) (ts : List Byte) : Nat := if ftype = 0x0C then (ts.getD 0 0).toNat else cls

/-- TXKSEL; 0 below its level (R417, R465). -/
def txkselOf (s : State) : Fin 2 := if atLevel s .sec 0x0103 then s.sec.txksel else 0

/-- The header of a new frame of a (peer, class) with its sequence, ACK and CRLIM (R325, R331). -/
def buildFrame (s : State) (adp : Bool) (peer cls ftype : Nat) (ts payload : List Byte) : Frame :=
  let ac := ackClass ftype cls ts
  let q := pairOf s adp peer ac
  let r := s.twn.regs
  let src := if adp then r.adopted else (s.glb.inst.setWidth 8)
  { ftype := BitVec.ofNat 8 ftype
    fctl := BitVec.ofNat 8 (cls + 4 * r.prot.toNat + 16 * (txkselOf s).1 + (if adp then 32 else 0))
    plen := BitVec.ofNat 16 payload.length, src := src, dst := BitVec.ofNat 8 peer, dom := r.domain
    seq := BitVec.ofNat 16 (pairOf s adp peer cls).txNext, ack := BitVec.ofNat 16 q.ack
    crlim := BitVec.ofNat 16 (grantLim s peer ac q), sess := r.session
    tspec := fitTo 12 ts, payload := pad64 payload }

/-- Whether a new frame may leave: its sequence lies below the limit (R329), its route is valid, its link's retry
buffer has room when it is of class D (R332), its transmit key is held (R335, R417) and R419 does not hold it back. -/
def maySend (s : State) (adp : Bool) (peer cls : Nat) (k : Option (Fin 8)) : Bool :=
  let p := pairOf s adp peer cls
  let room := match k with
    | none => false
    | some k => cls != 2 || decide (retryBytes s k + 4160 ≤ 524288)
  newer (p.limit cls) (BitVec.ofNat 16 p.txNext) && room
    && (s.twn.regs.prot == 0 || ((vget s.sec.lk (txkselOf s)).valid
      && !(adp && (vget s.sec.lk (txkselOf s)).preAdopt)))

/-- A new frame sent on a link now: it takes the next sequence and stays in the retry buffer (R332). A verdict frame
(VUP, VDN, VACK) is sent twice (R305); a WRITE frame is its unit's. -/
def sendNow (s : State) (adp : Bool) (peer cls : Nat) (k : Fin 8) (ftype : Nat) (ts payload : List Byte) : State :=
  let p := pairOf s adp peer cls
  let f := protect s p.txNext (buildFrame s adp peer cls ftype ts payload)
  let s := modPair s adp peer cls fun p =>
    { p with txNext := p.txNext + 1, unacked := p.unacked ++ [{ ext := p.txNext, link := k, frame := f, plain := payload
                                                                who := if ftype = 4 then s.who else none }] }
  let s := modPair s adp peer (ackClass ftype cls ts) fun p => { p with dirty := false }
  let s := transmit s k f
  if 0x08 ≤ ftype ∧ ftype ≤ 0x0A then transmit s k f else s

/-- Whether a route's link went DOWN and the route has not moved nor been written since; frames sent on that link stay where they
are (R342). -/
def heldByRoute (s : State) (peer : Nat) (k : Fin 8) : Bool := bit s.twn.noRoute peer && routeLink (routeOf s peer) == some k

/-- The link a frame to a peer takes: the named one, else its route's; a route whose link went DOWN carries nothing until it
has moved or software has written it (R342). -/
def linkFor (s : State) (peer : Nat) (via : Option (Fin 8)) : Option (Fin 8) :=
  match via with
  | some k => some k
  | none => if bit s.twn.noRoute peer then none else routeLink (routeOf s peer)

/-- A frame sent to a peer, or kept waiting for credit behind those that wait already (R329). A FENCED instance sends
only LCTL and PROBE frames (R351). -/
def sendVia (s : State) (via : Option (Fin 8)) (adp : Bool) (peer cls ftype : Nat) (ts payload : List Byte) : State :=
  if s.twn.regs.jstate = .fenced ∧ ftype ≠ 0x0D then s
  else
    let q : Queued := { ftype := ftype, ts := ts, payload := payload, link := via, who := if ftype = 4 then s.who else none }
    match linkFor s peer via with
    | some k =>
      if (pairOf s adp peer cls).queue.isEmpty && maySend s adp peer cls (some k) then
        sendNow s adp peer cls k ftype ts payload
      else modPair s adp peer cls fun p => { p with queue := p.queue ++ [q] }
    | none => modPair s adp peer cls fun p => { p with queue := p.queue ++ [q] }

def sendTo (s : State) (peer cls ftype : Nat) (ts payload : List Byte) : State :=
  sendVia s none false peer cls ftype ts payload

/-- Waiting frames of a pair sent as far as credit reaches; structural on the number of frames tried. -/
def drainPair : Nat → State → Bool → Nat → Nat → State
  | 0, s, _, _, _ => s
  | n + 1, s, adp, peer, cls =>
    match (pairOf s adp peer cls).queue with
    | q :: rest =>
      match linkFor s peer q.link with
      | some k =>
        if maySend s adp peer cls (some k) && (s.twn.regs.jstate != .fenced || q.ftype == 0x0D) then
          let t := sendNow { (modPair s adp peer cls fun p => { p with queue := rest }) with who := q.who } adp peer cls k q.ftype
            q.ts q.payload
          drainPair n { t with who := s.who } adp peer cls
        else s
      | none => s
    | [] => s

def drainPairs (s : State) (adp : Bool) (peer cls : Nat) : State :=
  drainPair (pairOf s adp peer cls).queue.length s adp peer cls

/-- An LCTL frame to the partner of a link, sent three times, outside sequence and protection (R327). -/
def sendLctl (s : State) (k : Fin 8) (op lane n : Nat) : State :=
  let f := sealCrc { ftype := 0x12, fctl := 0, src := s.glb.inst.setWidth 8, dom := 0xFFFF, sess := s.twn.regs.session
                     tspec := fitTo 12 (leBytes 1 op ++ leBytes 1 lane ++ leBytes 2 n) }
  transmit (transmit (transmit s k f) k f) k f

/-- Members other than the instance itself. -/
def otherMembers (s : State) : List Nat :=
  (List.range 64).filter fun i => bit s.twn.regs.members i && i ≠ s.glb.inst.toNat

/-- HBEAT to the twin on TWLINK and on HBALT (R351): STATE 0 RUN, 1 PFAIL, 2 FINAL. -/
def sendHbeat (s : State) (st : Nat) : State :=
  let r := s.twn.regs
  let ts := fun (path : Nat) => leBytes 4 s.twn.hbcount.toNat ++ leBytes 1 st ++ leBytes 1 path
  let s := sendVia s (some r.twlink) false r.twin.toNat 1 0x11 (ts 0) []
  let s := sendVia s (some r.hbalt) false r.twin.toNat 1 0x11 (ts 1) []
  { s with twn := { s.twn with hbcount := s.twn.hbcount + 1 } }

/-- The JOIN generator of R332. -/
def nextR (x : W32) : W32 :=
  let x := x ^^^ (x <<< 13)
  let x := x ^^^ (x >>> 17)
  x ^^^ (x <<< 5)

/-- NACK to the sender of a frame (R330). -/
def sendNack (s : State) (adp : Bool) (peer cls reason : Nat) (eseq : Nat) : State :=
  sendVia s none adp peer 0 0x0C (leBytes 1 cls ++ leBytes 1 reason ++ [0, 0] ++ leBytes 2 eseq) []

end Sys2Proof.Machine
end

