-- ==== Sys2Proof/Machine/Faults.lean ====
section
/-! DEFINITION. Error records, the error queue, escalation, fencing and instance loss
(spec/13_faults_and_recovery.md R355 to R377, R380). -/

namespace Sys2Proof.Machine

/-! ### Causes (R357) -/

def cEcccor : Nat := 0x01
def cEccunc : Nat := 0x02
def cResidue : Nat := 0x03
def cLockstep : Nat := 0x04
def cCakerd : Nat := 0x05
def cBadcake : Nat := 0x06
def cBrine : Nat := 0x07
def cPartdup : Nat := 0x08
def cPartbad : Nat := 0x09
def cBadrec : Nat := 0x0A
def cIllegal : Nat := 0x0B
def cMaskdiff : Nat := 0x0C
def cRemoteat : Nat := 0x0D
def cTrap : Nat := 0x0E
def cWdog : Nat := 0x0F
def cLane : Nat := 0x10
def cLinkdown : Nat := 0x11
def cTwinlost : Nat := 0x12
def cHandler : Nat := 0x13
def cBist : Nat := 0x14

/-- Default class of a cause: 0 CORR, 1 DATA, 2 UNIT, 3 INST (R355, R357). -/
def defaultClass (c : Nat) : Nat :=
  if c = cEcccor ∨ c = cCakerd then 0
  else if c = cWdog ∨ c = cLane ∨ c = cLinkdown ∨ c = cBist then 2
  else if c = cTwinlost ∨ c = cHandler then 3
  else 1

/-- The causes each page can record (R505). -/
def pageCauses : PageId → List Nat
  | .pan _ => [1, 2, 3, 4, 5, 6, 7, 8, 9, 0xA, 0xD, 0xF, 0x14]
  | .hrv _ => [1, 2, 5, 6, 7, 0xB, 0xC, 0xD, 0xF, 0x14]
  | .slt _ => [1, 2, 7, 0xA, 0xB, 0xD, 0xE, 0xF, 0x14]
  | .rak => [1, 2, 5, 6, 7, 0xA, 0xD, 0xF, 0x14]
  | .lnk _ => [1, 2, 7, 0x10, 0x11, 0x14]
  | .glb => [1, 2, 4, 7, 0xA]
  | .vrd => [1, 2, 4, 7, 0xA]
  | .sal => [1, 2]
  | .twn => [1, 2, 7, 0xA, 0x12]
  | .flt => [1, 2, 0x13]
  | .pwr => [1, 2, 4]
  | .sec => [1, 2, 7]
  | .tst => [1, 2]
  | .qd _ | .tide => []

/-- An error as its detector reports it. -/
structure ErrIn where
  cause : Nat
  /-- The class, where it is not the cause's default one. -/
  cls : Option Nat := none
  /-- The cause points at the reporting unit itself (R357, R361). -/
  suspect : Bool := false
  oid : Nat := 0
  addr : Option Nat := none
  row : Nat := 0
  col : Nat := 0
  group : Nat := 0
  pos : Nat := 0xFF
  lpan : Nat := 0xFF
  detail : Nat := 0
  scrub : Bool := false
  replay : Bool := false
  /-- The error begins a tile replay (R360). -/
  opens : Bool := false
  inj : Bool := false
  deriving DecidableEq, Repr

/-! ### Error queue (R364) -/

/-- The 64 bytes of an error queue entry. -/
def eqBytes (s : State) (p : PageId) (e : ErrIn) (cls : Nat) (esc inj : Bool) : List Byte :=
  leBytes 4 s.flt.fseq.toNat ++ leBytes 1 e.cause
    ++ leBytes 1 (cls + 4 * b2n esc + 8 * b2n e.replay + 16 * b2n inj + 32 * b2n e.scrub)
    ++ leBytes 2 p.num ++ leBytes 4 s.pwr.tick.toNat ++ leBytes 4 e.oid ++ leBytes 8 (e.addr.getD 0)
    ++ leBytes 4 e.row ++ leBytes 4 e.col ++ leBytes 4 e.group ++ leBytes 1 e.pos ++ leBytes 1 e.lpan
    ++ leBytes 2 (hdr s p).ovr.toNat ++ leBytes 8 e.detail ++ List.replicate 16 0

/-- EQ_PI − EQ_CI reads 1024. -/
def eqIsFull (s : State) : Bool := (s.flt.eqPi - s.flt.eqCi).toNat == 1024

/-- An entry written to the ring. -/
def eqStore (s : State) (bs : List Byte) : State :=
  let s := resPut s (0x240000 + 64 * (s.flt.eqPi.toNat % 1024)) bs
  { s with flt := { s.flt with eqPi := s.flt.eqPi + 1 } }

/-- A record's entry: written, or waiting in its unit while the ring is full. -/
def eqPush (s : State) (bs : List Byte) : State :=
  let s := { s with flt := { s.flt with fseq := s.flt.fseq + 1 } }
  if eqIsFull s then
    { s with flt := { s.flt with eqFull := satAdd s.flt.eqFull 1, eqWait := s.flt.eqWait ++ [bs] } }
  else eqStore s bs

/-- Waiting records written while there is room; structural on their number. -/
def eqDrain : Nat → State → State
  | 0, s => s
  | n + 1, s =>
    match s.flt.eqWait with
    | [] => s
    | b :: rest => if eqIsFull s then s else eqDrain n (eqStore { s with flt := { s.flt with eqWait := rest } } b)

/-! ### Records (R359, R361, R363, R368) -/

/-- What a header does with an error of a class above CORR: the slot it takes or the overrun, the class it ends with
and ESC. The two pages of `again` raise a second LOCKSTEP, and a pan a second unit-suspect DATA error, to UNIT. -/
def escalate (h : PageHdr) (p : PageId) (e : ErrIn) (cls : Nat) : Nat × Bool :=
  let dataHeld := h.slotA.valid && h.slotA.cls == 1
  let isPan := match p with | .pan _ => true | _ => false
  let again := (isPan && e.suspect && cls == 1 && dataHeld)
    || ((p == .glb || p == .vrd) && e.cause == cLockstep && cls == 1 && h.slotA.valid && h.slotA.cause.toNat == cLockstep)
  let ovr := h.slotA.valid && h.slotB.valid
  if again then (2, true) else if ovr then (min 3 (cls + 1), true) else (cls, false)

/-- The record entered in a header: slot A, slot B or OVR. -/
def PageHdr.enter (h : PageHdr) (r : ErrSlot) : PageHdr :=
  if !h.slotA.valid then { h with slotA := r }
  else if !h.slotB.valid then { h with slotB := r }
  else { h with ovr := satAdd h.ovr 1 }

/-- The cause that a corruption raises: IDBL decides between one flipped bit and two. -/
def injCause (c : Nat) (dbl : Bool) : Nat :=
  if c = cEcccor ∨ c = cEccunc then (if dbl then cEccunc else cEcccor) else c

/-- The cause that an injection set up in a header raises. -/
def PageHdr.injEff (h : PageHdr) : Nat := if h.imode then h.icause.toNat else injCause h.icause.toNat h.idbl

/-- An error counted or recorded in a page (R359): the class it ends with, and the state. The response of its class is
`respond`. -/
def recordOnly (s : State) (p : PageId) (e : ErrIn) : Nat × State :=
  let h := hdr s p
  let armed := h.iarm && !h.imode && h.injEff == e.cause
  let inj := e.inj || armed
  let c0 := e.cls.getD (defaultClass e.cause)
  let c1 := if bit h.errsev e.cause then min 3 (c0 + 1) else c0
  let s := modHdr s p fun h =>
    { h with err := setBit h.err e.cause true, iarm := if inj && h.injEff == e.cause then false else h.iarm }
  if c1 = 0 then (0, modHdr s p fun h => { h with corrcnt := satAdd h.corrcnt 1 })
  else
    let (cls, esc) := escalate h p e c1
    let r : ErrSlot :=
      { valid := true, cause := BitVec.ofNat 8 e.cause, cls := BitVec.ofNat 2 cls, esc := esc, replay := e.replay
        fseq := s.flt.fseq.setWidth 16, detail := BitVec.ofNat 32 (e.addr.getD e.row), replayOpen := e.opens }
    let s := modHdr s p (·.enter r)
    let fseq := s.flt.fseq
    let s := eqPush s (eqBytes s p e cls esc inj)
    let s := trace s 4 p (leBytes 4 fseq.toNat ++ leBytes 1 e.cause
      ++ leBytes 1 (cls + 4 * b2n esc + 8 * b2n e.replay + 16 * b2n inj + 32 * b2n e.scrub) ++ [0, 0]
      ++ leBytes 8 (e.addr.getD 0) ++ leBytes 4 e.row)
    let s := if bit h.errmsk e.cause then s else raiseInt s srcFlt
    let s := if cls = 3 then { s with vrd := { s.vrd with pendFt := true } } else s
    (cls, wakeEvent s)

/-! ### Fencing (R373, R375 to R377) -/

/-- A physical pan's map entry marked missing. -/
def unmapPan (s : State) (p : Fin 64) : State :=
  match logOf s p with
  | none => s
  | some l => { s with glb := { s.glb with panmap := vmod s.glb.panmap l fun e => { e with missing := true } } }

/-- The record that a unit has passed a test since it left service, dropped (R379). -/
def unpass (s : State) (u : Nat) : State := modTst s fun t => { t with passed := t.passed.filter (· ≠ u) }

/-- Step 1 of R373: the pan stops, reads FAULTED, its FPAN bit is set, its map entry is missing. Its order keeps the
copy the block holds, with its tile to run again. -/
def fencePan (s : State) (p : Fin 64) : State :=
  let s := match logOf s p with
    | none => s
    | some l => modLp s l fun x =>
        { x with run := x.run.map fun r => { r with started := false, cont := none }, tideTile := none }
  let s := unmapPan s p
  let s := modHdr s (.pan p) fun h => { h with mode := .faulted }
  let s := modPan s p fun x => { x with pwr := .gated, wakeFor := none, forIsolate := false, store := [] }
  let s := modFlt s fun x => { x with fpan := setBit x.fpan p.1 true, rsvok := setBit x.rsvok p.1 false }
  let s := quadIdle s (quadOf p)
  unpass (modTstR s fun t => { t with dhPan := setBit t.dhPan p.1 false }) p.1

/-- The bytes behind a tensor's AUX that a job writes: its row table or its tail buffer (R79, R261). -/
def auxBytes (d : Desc) : Nat :=
  if d.layout = 0 ∧ d.masked = true then 4 * (d.rows + 1) else if d.openok then d.rows * (64 * 2 ^ d.gsz) else 0

/-- The memory of a binding's inactive slot, as places and lengths: each tensor is laid out as its active one. -/
def inactiveSlot (s : State) (b : Bind) : List (Nat × Nat) :=
  let act := (b.blk.drop (if b.slot then 4 else 0)).take 4
  let inact := (b.blk.drop (if b.slot then 0 else 4)).take 4
  ((act.zip inact).filter fun x => x.2.base ≠ 0).flatMap fun (x, y) =>
    [(hostAddr s y.base, x.extent s), (hostAddr s y.aux, auxBytes x)]

/-- The memory that an engine's job leaves partly written when it is interrupted after its first batch (R289). -/
def partWritten (s : State) (n : Fin 8) : List (Nat × Nat) :=
  match (eng s n).job with
  | some j => if 0 < j.batch && !j.jrec.fault then inactiveSlot s j.bind else []
  | none => []

/-- Memory left partly written, in any mix: every byte of it holds a free value (R289). -/
def spoilAll (s : State) (rs : List (Nat × Nat)) : State := rs.foldl (fun s x => spoilHost s x.1 x.2) s

/-- A job taken off its engine: its shard is READY again in its old place, to rerun from its first batch (R289). -/
def takeJobOff (s : State) (n : Fin 8) : State :=
  match (eng s n).job with
  | none => s
  | some j => modShard (modEng s n fun x => { x with job := none }) j.bind.shard fun h => { h with run := false, ready := true }

/-- A job interrupted: it is off its engine and leaves its inactive slot partly written. -/
def dropJob (s : State) (n : Fin 8) : State := takeJobOff (spoilAll s (partWritten s n)) n

/-- R375: the engine stops, its images are discarded and its job reruns. -/
def fenceHrv (s : State) (n : Fin 8) : State :=
  let s := modEng (dropJob s n) n fun x => { x with images := [], pflush := false }
  let s := modHdr s (.hrv n) fun h => { h with mode := .faulted }
  let s := modFlt s fun x => { x with fhrv := setBit x.fhrv n.1 true }
  unpass (modTstR s fun t => { t with dhHrv := setBit t.dhHrv n.1 false }) (0x40 + n.1)

/-- A HOLD frame to an owner: OP 0 HOLD, 1 RELEASE, 2 ANSWER (R327). -/
def sendHold (s : State) (peer shard op : Nat) (slot : Bool) (result : Nat) : State :=
  sendTo s peer 2 7 (leBytes 4 shard ++ leBytes 1 op ++ leBytes 1 (b2n slot) ++ leBytes 1 result) []

/-- The remote holds that a fenced salter's follower fetches had taken are released by the restarted service (R376). -/
def releaseFetches (s : State) (n : Fin 8) : State :=
  s.shard.foldl (fun s (i, h) =>
    match h.fetch with
    | some (ws, m, _) =>
      if m = n then
        let s := sendHold s h.srec.owner (ws.getD 4 0).toNat 1 (bit (ws.getD 2 0) 0) 0
        modShard s i fun h => { h with fetch := none }
      else s
    | none => s) s

/-- R376: the salter stops and loses its running code. -/
def fenceSlt (s : State) (n : Fin 8) : State :=
  let s := releaseFetches s n
  let s := modSlt s n fun x => { x with mode := .idle, regs := { x.regs with cgo := false } }
  let s := modHdr s (.slt n) fun h => { h with mode := .faulted }
  let s := modFlt s fun x => { x with fslt := setBit x.fslt n.1 true }
  unpass (modTstR s fun t => { t with dhSlt := setBit t.dhSlt n.1 false }) (0x48 + n.1)

/-- R377: the Rake stops; firmware runs its background test, and its events wait for it. -/
def fenceRake (s : State) : State :=
  let s := if s.flt.frake then s
    else modTst s fun t => { t with tests := t.tests.filter (·.unit != 0x50) ++ [{ unit := 0x50, kind := 2, sw := false }] }
  let s := modHdr s .rak fun h => { h with mode := .faulted }
  let s := modFlt s fun x => { x with frake := true }
  unpass (modTstR s fun t => { t with dhRak := false }) 0x50

/-! ### Instance loss (R351, R380) -/

/-- Running tiles, parked tiles and armed orders gone. -/
def stopPans (s : State) : State :=
  { s with lpan := s.lpan.map fun x =>
    { x with run := none, passed := [], parked := [], notices := [], armed := Vector.replicate 16 none, tideTile := none, settle := none } }

/-- Every unit stops and what runs is abandoned without completion records (R380 step 2, R382 step 1, R453 step 1). -/
def abandonAll (s : State) : State :=
  let s := (List.finRange 8).foldl takeJobOff (spoilAll s ((List.finRange 8).flatMap (partWritten s)))
  let s := stopPans s
  { s with slt := s.slt.map (fun x => { x with mode := .idle }) }

/-- JSTATE becomes FENCED (R351); READY ends (R450). -/
def enterFenced (s : State) : State :=
  let s := modTwnR s fun r => { r with jstate := .fenced }
  if s.glb.bstage = 8 then { s with glb := { s.glb with bstage := 7 } } else s

/-- R380: the instance cannot continue. -/
def instLoss (s : State) : State :=
  if s.flt.lastrst = 3 then s
  else
    let s := raiseInt { s with flt := { s.flt with lastrst := 3 } } srcInstLoss
    let s := abandonAll s
    let s := if s.twn.regs.twen then sendHbeat s 2 else s
    enterFenced { s with vrd := { s.vrd with pendFt := true } }

/-- A HANDLER error (R362). -/
def handlerError (s : State) : State := instLoss (recordOnly s .flt { cause := cHandler }).2

/-- What the block does for an error's class (R355, R356, R362, R373 to R377, R380). -/
def respond (s : State) (p : PageId) (cause cls : Nat) : State :=
  if cls = 0 then s
  else if p = .slt s.flt.hsalt then
    let s := if cls = 2 then fenceSlt s s.flt.hsalt else s
    handlerError s
  else if cls = 3 then (if cause = cTwinlost then s else instLoss s)
  else if cls = 2 then
    match p with
    | .pan q => fencePan s q
    | .hrv n => fenceHrv s n
    | .slt n => fenceSlt s n
    | .rak => fenceRake s
    | .vrd => instLoss s
    | .glb | .pwr => if cause = cLockstep then instLoss s else s
    | _ => s
  else s

/-- An error of a page: counted or recorded, and answered as its class requires. -/
def recordErr (s : State) (p : PageId) (e : ErrIn) : State :=
  let (cls, s) := recordOnly s p e
  respond s p e.cause cls

/-- The tile replay of a page's record has ended (R360). -/
def endReplay (s : State) (p : PageId) : State :=
  modHdr s p fun h =>
    { h with slotA := { h.slotA with replayOpen := false }, slotB := { h.slotB with replayOpen := false } }

/-- Whether a corruption of a cause is armed in a page (R385). -/
def corruptArmed (s : State) (p : PageId) (cause : Nat) : Bool :=
  let h := hdr s p
  h.iarm && !h.imode && h.injEff == cause

end Sys2Proof.Machine
end

