-- ==== Sys2Proof/Machine/Remote.lean ====
section
/-! DEFINITION. How a command runs: the host lines answered with an error while it runs (R244), and the remote aperture,
whose reads become RDREQ frames and whose writes become WRITE frames (spec/12 R336). -/

namespace Sys2Proof.Machine

/-- The instance whose memory an aperture address names. -/
def aperPeer (s : State) (a : Nat) : Nat := (a - s.twn.regs.rapbase.toNat) / 2 ^ 40

/-- The host address at that instance. -/
def aperAddr (s : State) (a : Nat) : Nat := (a - s.twn.regs.rapbase.toNat) % 2 ^ 40

/-- Numbers in ascending order, by insertion. -/
def insertNat (x : Nat) : List Nat → List Nat
  | [] => [x]
  | y :: t => if x ≤ y then x :: y :: t else y :: insertNat x t

def sortNat : List Nat → List Nat
  | [] => []
  | x :: t => insertNat x (sortNat t)

/-- Ascending runs of consecutive 16-byte units, none longer than 256. -/
def unitRuns : List Nat → List (Nat × Nat)
  | [] => []
  | u :: t =>
    match unitRuns t with
    | (v, n) :: r => if v = u + 1 ∧ n < 256 then (u, n + 1) :: r else (u, 1) :: (v, n) :: r
    | [] => [(u, 1)]

/-- RDREQ frames for units that are not yet asked for. -/
def sendRdreqs (s : State) (units : List Nat) : State :=
  let asked := fun u => s.twn.rdreqs.any fun x => x.2.1 ≤ u ∧ u < x.2.1 + x.2.2
  (unitRuns (sortNat (units.filter fun u => !asked u))).foldl (fun s (u, n) =>
    let tag := s.twn.rtag
    let s := sendTo s (aperPeer s (16 * u)) 2 5
      (leBytes 8 (aperAddr s (16 * u)) ++ leBytes 2 n ++ leBytes 2 tag.toNat) []
    { s with twn := { s.twn with rtag := tag + 1, rdreqs := s.twn.rdreqs ++ [(tag.toNat, u, n)] } }) s

/-- One write into the aperture as WRITE frames of at most `cut` bytes; structural on a bound of their number. -/
def sendWrite (cut : Nat) : Nat → State → Nat → List Byte → State
  | 0, s, _, _ => s
  | n + 1, s, a, bs =>
    if bs.isEmpty then s
    else
      let s := sendTo s (aperPeer s a) 2 4 (leBytes 8 (aperAddr s a)) (bs.take cut)
      sendWrite cut n s (a + cut) (bs.drop cut)

/-- The command's writes into the aperture, sent for the units that made them. -/
def sendRout (s : State) : State :=
  let t := s.rout.foldl (fun s w => sendWrite 4096 (w.bytes.length / 4096 + 1) { s with who := w.who } w.addr w.bytes)
    { s with rout := [] }
  { t with who := none }

/-- The end of a command that had every remote unit it needed: writes leave, units read are dropped. -/
def endRemote (s : State) : State :=
  let s := sendRout s
  { s with
    rgot := s.rgot.filter fun u => !s.rused.contains u
    rfail := s.rfail.filter fun u => !s.rused.contains u
    rused := [], rsv := false, stall := false }

/-- The state in which a command begins: the host lines that are answered with an error, and no remote access noted. -/
def State.begin (s : State) (bad : List Nat) : State :=
  { s with hostBad := bad, miss := [], rused := [], rout := [], who := none, rsv := false, stall := false }

/-- Runs a command's effect. `bad` lists the host lines answered with an error. A command whose unit finds no Brine credit
waits: it leaves everything as it was (R20, R245). So does one that needs remote data it does not hold, which asks for
it. -/
def command (bad : List Nat) (s : State) (f : State → State) : State :=
  let t := f (s.begin bad)
  if t.stall then s else if t.miss.isEmpty then endRemote { t with hostBad := [] } else sendRdreqs s t.miss

/-- The state in which a unit's command begins: its Brine accesses are the unit's (R242). -/
def State.beginAs (s : State) (w : Agent) (bad : List Nat) : State := { s.begin bad with who := some w }

/-- A command's effect, its Brine accesses made by a unit (R242). -/
def commandAs (w : Agent) (bad : List Nat) (s : State) (f : State → State) : State :=
  command bad s fun s => f { s with who := some w }

/-- Whether a remote write of a unit is not yet acknowledged (R229, R331), those of this command included. -/
def writesOut (s : State) (w : Agent) : Bool :=
  s.rout.any (fun x => x.who == some w)
    || s.twn.pairs.any fun (_, p) => p.queue.any (·.who == some w) || p.unacked.any (·.who == some w)

end Sys2Proof.Machine
end

