-- ==== Sys2Proof/Machine/Cake.lean ====
section
/-! DEFINITION. Tensor descriptors, cakes, MX blocks, plain values, outlier channels, codebooks and crosscut reads
(spec/03_cakes_and_scales.md R57 to R94, spec/06 R165, R166). -/

namespace Sys2Proof.Machine

/-! ### Reads that an error response ends -/

/-- What ends a check or a tile attempt: an error response at an address (R244), or an atomic into the remote aperture
(R336). -/
inductive IoErr where
  | brine (addr : Nat)
  | remoteat (addr : Nat)
  deriving DecidableEq, Repr

/-- A computation over the state that an error response ends. -/
abbrev Io := ExceptT IoErr (StateM State)

/-- What a computation may change in the state: host memory, the aperture accesses it needs or makes, the number of free
values taken, and the stall for want of a credit. -/
def State.withBus (s t : State) : State := { s with host := t.host, miss := t.miss, rused := t.rused, rout := t.rout, free := t.free, stall := t.stall }

/-- Runs a computation: its result and the state, of which it changes memory and the aperture accesses only. -/
def Io.run {α : Type} (x : Io α) (s : State) : Except IoErr α × State :=
  let (r, t) := x s
  (r, s.withBus t)

/-- The first address of an access whose line is answered with an error. -/
def firstBad (s : State) (a n : Nat) : Nat :=
  match (linesOf a n).find? (s.hostBad.contains ·) with
  | some l => max a (128 * l)
  | none => a

def ioRead (a n : Nat) : Io (List Byte) := fun s =>
  let (r, s) := rdHost s a n
  match r with
  | some b => (.ok b, s)
  | none => (.error (.brine (firstBad s (hostAddr s a) n)), s)

def ioNum (a n : Nat) : Io Nat := do return leNat (← ioRead a n)

def ioState : Io State := fun s => (.ok s, s)

/-! ### Descriptors (R70 to R74) -/

/-- A descriptor from its 64 bytes. -/
def descOf (addr : Nat) (b : List Byte) : Desc :=
  { addr := addr, base := leAt b 0 8, aux := leAt b 8 8, side := leAt b 16 8, stats := leAt b 24 8
    coarse := BitVec.ofNat 32 (leAt b 32 4), rows := leAt b 36 4, klen := leAt b 40 4, rowstride := leAt b 44 4
    mepoch := BitVec.ofNat 32 (leAt b 48 4), hist := leAt b 52 2 % 2 ^ 14, fmt := byteAt b 54 % 16
    fsk := byteAt b 54 / 16 % 4, gsz := byteAt b 54 / 64, layout := byteAt b 55 % 4, masked := nbit (byteAt b 55) 2
    openok := nbit (byteAt b 55) 3, zpt := nbit (byteAt b 55) 4, nout := byteAt b 56, cbslot := byteAt b 57 }

def ioDesc (a : Nat) : Io Desc := do return descOf a (← ioRead a 64)

/-- The format; W16 for a reserved code, which every user has refused. -/
def Desc.format (d : Desc) : Fmt := (fmtOfCode d.fmt).getD .w16
def Desc.w (d : Desc) : Nat := d.format.width
/-- Group size G. -/
def Desc.g (d : Desc) : Nat := 32 * 2 ^ d.gsz
/-- Groups per row (R72). -/
def Desc.ng (d : Desc) : Nat := (d.klen + d.g - 1) / d.g
def Desc.fine (d : Desc) : Fsk := if d.fsk = 0 then .e8m0 else if d.fsk = 1 then .ue4m3 else .none
def Desc.isCake (d : Desc) : Bool := d.layout == 0
def Desc.isMx (d : Desc) : Bool := d.layout == 1
def Desc.isPlain (d : Desc) : Bool := d.layout == 2
/-- The full slot S of an unmasked cake (R62). -/
def Desc.slot (d : Desc) : Nat := 16 * ((8 + d.g * d.w / 8 + 15) / 16)
/-- Size of a masked cake of a COUNT (R62). -/
def Desc.maskedSize (d : Desc) (count : Nat) : Nat := 16 * ((8 + d.g / 8 + (count * d.w + 7) / 8 + 15) / 16)
/-- The members of the open group and its index, when the last group of each row is open (R78). -/
def Desc.openGroup (d : Desc) : Option (Nat × Nat) :=
  if d.openok ∧ d.klen % d.g ≠ 0 then some (d.klen / d.g, d.klen % d.g) else none
/-- Positions of a group that lie below KLEN. -/
def Desc.members (d : Desc) (j : Nat) : Nat := min d.g (d.klen - j * d.g)
/-- Exact value of COARSE. -/
def Desc.c (d : Desc) : Q := fp32Q d.coarse

/-- Bytes of one row of the layout, for the ROWSTRIDE check (R74). -/
def Desc.rowBytes (d : Desc) : Nat :=
  if d.isPlain then d.klen * d.w / 8
  else if d.isMx then d.klen / 32 * (4 * d.w)
  else d.ng * d.slot

/-- The conditions of R74 and R90 that a descriptor alone decides; `xc` marks an operand read through a crosscut
index. -/
def descBad (d : Desc) (xc : Bool) : Bool :=
  let wide := d.fmt = 0 ∨ d.fmt = 1
  let int := d.fmt = 8 ∨ d.fmt = 9
  let cb := d.fmt = 10 ∨ d.fmt = 11
  decide (d.fsk = 3 ∨ d.gsz = 3 ∨ d.layout = 3
    ∨ (d.fsk = 2 ∧ ¬wide) ∨ (d.fsk = 1 ∧ d.fmt = 1)
    ∨ (d.layout = 2 ∧ (¬wide ∨ d.fsk ≠ 2 ∨ d.masked ∨ d.openok ∨ d.nout ≠ 0))
    ∨ (d.zpt ∧ ¬int) ∨ d.rows = 0 ∨ d.klen = 0
    ∨ (¬(d.layout = 0 ∧ d.masked) ∧ (d.rowstride % 16 ≠ 0 ∨ d.rowstride < d.rowBytes))
    ∨ d.stats % 64 ≠ 0
    ∨ (d.klen % d.g ≠ 0 ∧ ¬d.openok)
    ∨ (d.openok ∧ (d.masked ∨ d.nout ≠ 0 ∨ d.layout ≠ 0))
    ∨ d.nout > 64 ∨ (d.cbslot ≠ 0 ∧ ¬cb)
    ∨ (d.layout = 1 ∧ (d.gsz ≠ 0 ∨ d.fsk ≠ 0 ∨ d.fmt < 3 ∨ 8 < d.fmt ∨ d.masked ∨ d.openok ∨ d.zpt ∨ d.nout ≠ 0))
    ∨ (xc ∧ d.nout ≠ 0))

/-- Whether the format code refuses the order with BADFMT (R27). -/
def Desc.badFmt (d : Desc) : Bool := d.fmt = 2 || decide (12 ≤ d.fmt)

/-! ### Outlier channels (R83 to R85) -/

/-- The listed channels; none when the list breaks R83. -/
def outlierList (d : Desc) (b : List Byte) : Option (List Nat) :=
  let e := (List.range 64).map fun i => leAt b (4 * i) 4
  let used := e.take d.nout
  let asc := (List.range (d.nout - 1)).all fun i => decide (e.getD i 0 < e.getD (i + 1) 0)
  if asc && used.all (fun k => decide (k < d.klen)) && (e.drop d.nout).all (fun k => decide (k = 0xFFFFFFFF))
  then some used else none

/-- Address of the side tensor's row (R84). -/
def Desc.sideRow (d : Desc) (r : Nat) : Nat := d.side + 256 + r * (16 * ((2 * d.nout + 15) / 16))

/-! ### Codebooks (R87, R88) -/

/-- Entries of a codebook slot as copied. -/
def codebookCopy (s : State) (slot : Nat) : List W16 :=
  (List.range 256).map fun i => BitVec.ofNat 16 (leNat (resBytes s (0x1000 + 512 * slot + 2 * i) 2))

/-- Whether a slot's kind and used entries suit a codebook format (R88). -/
def codebookOk (s : State) (d : Desc) : Bool :=
  let kind := (smGet (0 : Byte) s.res (16 * d.cbslot)).toNat
  let n := if d.fmt = 10 then 16 else 256
  decide (kind = (if d.fmt = 10 then 1 else 2))
    && ((codebookCopy s d.cbslot).take n).all fun e => decide (e.toNat / 128 % 256 ≠ 255)

/-! ### Elements and groups -/

/-- fine × v (R75). -/
def El.exact (e : El) : XVal := fineTimes e.fine e.v

/-- The product operand of an element (R76, R148). -/
def El.pop (fp32 : Bool) (e : El) : POp :=
  if fp32 && !e.side then
    match e.fine with
    | none => .nan
    | some _ => if e.v.isZero then .zero else popOfFp32 e.raw e.k
  else popOfP21 (p21OfX e.exact)

/-- HCRC of R59. -/
def crc8Bit (c : Nat) : Nat := if c ≥ 128 then (2 * c ^^^ 7) % 256 else 2 * c
def crc8 (bs : List Byte) : Nat :=
  bs.foldl (fun c b =>
    let c := c ^^^ b.toNat
    crc8Bit (crc8Bit (crc8Bit (crc8Bit (crc8Bit (crc8Bit (crc8Bit (crc8Bit c)))))))) 0xFF

/-- The i-th stored code of a code area (R61). -/
def codeAt (w : Nat) (area i : Nat) : Nat := area / 2 ^ (w * i) % 2 ^ w

/-- Value of a stored code under SUBN: W16 and FP32 subnormals flush (R47), and whether one did. -/
def codeRead (f : Fmt) (cb : List W16) (zp : Int) (subn : Bool) (c : Nat) : XVal × Bool :=
  if f.isWide then readWide f subn c else (codeValue f cb zp c, false)

/-- An operand as an order reads it: descriptor, codebook copy, outlier list, SUBN. -/
structure Opnd where
  d    : Desc
  cb   : List W16 := []
  ol   : List Nat := []
  subn : Bool := false
  deriving Repr

/-- The element of a stored code with its group's scale and zero point. -/
def Opnd.el (o : Opnd) (fine : Option Q) (k : Int) (zp : Int) (c : Nat) : El × Bool :=
  let (v, fl) := codeRead o.d.format o.cb zp o.subn c
  ({ v := v, fine := fine, k := k, raw := if fl then 0 else c }, fl)

/-- The element of a side value (R84). -/
def Opnd.sideEl (o : Opnd) (n : Nat) : El × Bool :=
  let (v, fl) := readWide .w16 o.subn n
  ({ v := v, side := true, raw := if fl then 0 else n }, fl)

/-- E8M0 exponent of a fine scale byte; 0 for the other encodings. -/
def scaleExp (d : Desc) (var : Bool) (b : Nat) : Int :=
  if d.fsk = 0 then (b : Int) - (if var then 133 else 127) else 0

/-- Decodes the bytes of the cake of group `j` (R57 to R68); none when it is malformed. Outlier positions are filled in
by the caller. The flag says that a subnormal was flushed. -/
def decodeCake (o : Opnd) (j : Nat) (bs : List Byte) : Option (Grp × Bool) :=
  let d := o.d
  let f := d.format
  let fs := byteAt bs 0
  let zp := signedOf 8 (byteAt bs 1)
  let count := byteAt bs 2
  let fl := byteAt bs 3
  let var := nbit fl 0
  let oxc := nbit fl 1
  let cst := nbit fl 2
  let opn := nbit fl 3
  let listed := (List.range d.g).map fun p => o.ol.contains (j * d.g + p)
  let e := (listed.filter id).length
  let openN := match d.openGroup with
    | some (oj, n) => if oj = j then some n else none
    | none => none
  let area := leNat (bs.drop (8 + (if d.masked then d.g / 8 else 0)))
  let mask := (List.range d.g).map fun p =>
    if d.masked then nbit (byteAt bs (8 + p / 8)) (p % 8)
    else !(listed.getD p false) && (match openN with | some n => decide (p < n) | none => true)
  let pop := (mask.filter id).length
  let codes := (List.range count).map (codeAt f.width area)
  let csum := if f.isInt then (codes.map (signedOf f.width)).sum else 0
  let isConst := count = 0 || (match codes with | [] => true | c :: t => t.all (· == c))
  let ok :=
    decide (crc8 (bs.take 7) = byteAt bs 7) && decide (count = pop) && decide (count ≤ d.g)
      && !((List.range d.g).any fun p => mask.getD p false && listed.getD p false)
      && (decide (zp = 0) || (f.isInt && d.zpt))
      && !(f == .int4 && (decide (zp < -8) || decide (7 < zp)))
      && !(d.fsk == 1 && decide (128 ≤ fs)) && !(d.fsk == 2 && fs != 0)
      && decide (signedOf 16 (leAt bs 4 2) = csum)
      && (cst == isConst) && (oxc == decide (0 < e)) && (opn == openN.isSome)
      && (!var || (f == .int8 && d.fsk == 0 && decide (zp = 0)))
  if !ok then none
  else
    let fine := scaleValue d.fine var fs
    let k := scaleExp d var fs
    let step := fun (acc : List (Option El) × List Nat × Bool) (m : Bool) =>
      let (els, rest, fl) := acc
      if m then
        match rest with
        | [] => (none :: els, [], fl)
        | c :: t => let (x, b) := o.el fine k zp c; (some x :: els, t, fl || b)
      else (none :: els, rest, fl)
    let (els, _, flushed) := mask.foldl step ([], codes, false)
    some ({ k := k, nanScale := fine.isNone, els := els.reverse, fs := fs, zp := zp, var := var
            count := count, codes := codes }, flushed)

/-- A group of NaN products (R69). -/
def badGrp (d : Desc) (addr : Nat) : Grp :=
  { bad := true, addr := addr, els := List.replicate d.g (some { v := .nan }) }

/-- An MX block read as an unmasked cake (R91, R92). -/
def mxGrp (o : Opnd) (scale : Nat) (bs : List Byte) : Grp :=
  let d := o.d
  let var := d.fmt = 8
  let fine := scaleValue .e8m0 var scale
  let k := scaleExp d var scale
  let area := leNat bs
  let codes := (List.range 32).map (codeAt d.w area)
  { k := k, nanScale := fine.isNone, els := codes.map fun c => some (o.el fine k 0 c).1, fs := scale, var := var
    count := 32, codes := codes }

/-- Whether a subnormal of a row's groups was flushed. -/
def RowRd.flushed (r : RowRd) : Bool := r.grps.any (·.flushed)

/-- Second reads of cakes found malformed (R69): the bytes of a good one, none where it was malformed too. -/
abbrev Reread := List (Nat × Option (List Byte))

def rereadOf (good : Reread) (a : Nat) : Option (Option (List Byte)) := (good.find? fun g => g.1 = a).map (·.2)

/-- One cake read at an address, with the second read of R69 where the first is malformed. -/
def readCake (o : Opnd) (good : Reread) (j a n : Nat) : Io (Option (Grp × Bool)) := do
  let bs ← ioRead a n
  match rereadOf good a with
  | some (some bs') => return decodeCake o j bs'
  | some none => return none
  | none => return decodeCake o j bs

/-- One cake's group added, or a group of NaN products where it is malformed. -/
def RowRd.addCake (acc : RowRd) (d : Desc) (a r j : Nat) : Option (Grp × Bool) → RowRd
  | some (g, fl) => { acc with grps := acc.grps ++ [{ g with addr := a, flushed := fl }] }
  | none => { acc with grps := acc.grps ++ [badGrp d a], bads := acc.bads ++ [⟨a, r, j⟩] }

/-- The groups of a masked row from one malformed cake on. -/
def RowRd.addRest (acc : RowRd) (d : Desc) (a r : Nat) (js : List Nat) : RowRd :=
  { acc with grps := acc.grps ++ js.map (fun _ => badGrp d a), bads := acc.bads ++ js.map fun j => ⟨a, r, j⟩ }

/-- Groups of a row in an unmasked tensor; structural on the list of group indices. -/
def readUnmasked (o : Opnd) (good : Reread) (r : Nat) : List Nat → RowRd → Io RowRd
  | [], acc => return acc
  | j :: t, acc => do
    let a := o.d.base + r * o.d.rowstride + j * o.d.slot
    let c ← readCake o good j a o.d.slot
    readUnmasked o good r t (acc.addCake o.d a r j c)

/-- Groups of a row in a masked tensor, one after another from an address (R73); a malformed cake ends the walk. -/
def readMasked (o : Opnd) (good : Reread) (r : Nat) : List Nat → Nat → RowRd → Io RowRd
  | [], _, acc => return acc
  | j :: t, a, acc => do
    let hd ← ioRead a 8
    let hd := match rereadOf good a with | some (some b) => b | _ => hd
    let n := o.d.maskedSize (min (byteAt hd 2) o.d.g)
    let c ← readCake o good j a n
    (match c with
      | some (g, fl) => readMasked o good r t (a + o.d.maskedSize g.count) (acc.addCake o.d a r j (some (g, fl)))
      | none => pure (acc.addRest o.d a r (j :: t)))

/-- Groups of a row of an MX tensor. -/
def readMx (o : Opnd) (r : Nat) : List Nat → RowRd → Io RowRd
  | [], acc => return acc
  | j :: t, acc => do
    let bs ← ioRead (o.d.base + r * o.d.rowstride + j * (4 * o.d.w)) (4 * o.d.w)
    let sc ← ioNum (o.d.aux + r * (o.d.klen / 32) + j) 1
    readMx o r t { acc with grps := acc.grps ++ [mxGrp o sc bs] }

/-- Groups of a row of plain values from the row's bytes (R72). -/
def plainGrps (o : Opnd) (bs : List Byte) : RowRd :=
  let w := o.d.w / 8
  let rd := (List.range (bs.length / w)).map fun k => o.el (some qone) 0 0 (leAt bs (k * w) w)
  { grps := (List.range ((rd.length + o.d.g - 1) / o.d.g)).map fun j =>
      let g := (rd.drop (j * o.d.g)).take o.d.g
      { els := g.map fun x => some x.1, flushed := g.any (·.2) } }

/-- A row's side values put at their positions (R75, R85); the row's first group is `lo`. -/
def putSide (o : Opnd) (vals : List Nat) (lo : Nat) (rr : RowRd) : RowRd :=
  let sides := (o.ol.zip vals).map fun (k, n) => (k, o.sideEl n)
  { rr with
    grps := (rr.grps.zipIdx).map fun (g, i) =>
      if g.bad then g
      else
        let at_ := fun (p : Nat) => sides.find? fun x => x.1 = (lo + i) * o.d.g + p
        { g with
          els := (g.els.zipIdx).map fun (e, p) => match at_ p with
            | some x => some x.2.1
            | none => e
          flushed := g.flushed || (List.range o.d.g).any fun p => ((at_ p).map (·.2.2)).getD false } }

/-- The groups `lo` to `hi − 1` of a row of an operand. -/
def readRow (o : Opnd) (good : Reread) (r lo hi : Nat) : Io RowRd := do
  let js := (List.range (hi - lo)).map (lo + ·)
  let rr ←
    if o.d.isPlain then do
      let w := o.d.w / 8
      let k0 := lo * o.d.g
      pure (plainGrps o (← ioRead (o.d.base + r * o.d.rowstride + k0 * w) ((min (hi * o.d.g) o.d.klen - k0) * w)))
    else if o.d.isMx then readMx o r js {}
    else if o.d.masked then do
      let t ← ioNum (o.d.aux + 4 * r) 4
      let rr ← readMasked o good r (List.range hi) (o.d.base + 16 * t) {}
      pure { grps := rr.grps.drop lo, bads := rr.bads.filter fun b => decide (lo ≤ b.group) }
    else readUnmasked o good r js {}
  if o.ol.isEmpty then return rr
  else
    let bs ← ioRead (o.d.sideRow r) (2 * o.d.nout)
    return putSide o ((List.range o.d.nout).map fun i => leAt bs (2 * i) 2) lo rr

/-! ### Crosscut reads (R165, R166) -/

/-- Bytes of the crosscut index: in the reservoir or in host memory (R161 XLOC). -/
def xcRead (loc : Bool) (a n : Nat) : Io (List Byte) := fun s =>
  if loc then ioRead a n s else (.ok (resBytes s a n), s)

/-- A transposed row read through the crosscut index at `xb`: groups of `gx` positions along the source rows. -/
def readXc (o : Opnd) (good : Reread) (loc : Bool) (xb gx t : Nat) : Io RowRd := do
  let d := o.d
  let tab ← xcRead loc (xb + 4 * t) 8
  let lo := leAt tab 0 4
  let hi := leAt tab 4 4
  let entBase := xb + (4 * (d.klen + 1) + 15) / 16 * 16
  let ents ← (List.range (hi - lo)).mapM fun i => do
    let e ← xcRead loc (entBase + 8 * (lo + i)) 8
    let j := leAt e 0 4
    let row ← ioNum (d.aux + 4 * j) 4
    let a := d.base + 16 * row + 16 * leAt e 5 3
    let g := t / d.g
    let hd ← ioRead a 8
    let hd := match rereadOf good a with | some (some b) => b | _ => hd
    let c ← readCake o good g a (d.maskedSize (min (byteAt hd 2) d.g))
    return (j, byteAt e 4 % 128, a, g, c)
  let at_ := fun (j : Nat) => ents.find? fun x => x.1 = j
  let ng := (d.rows + gx - 1) / gx
  let one := fun (x : Nat × Nat × Nat × Nat × Option (Grp × Bool)) => match x with
    | (_, ci, _, _, some (g, _)) =>
      o.el (if g.nanScale then none else scaleValue d.fine g.var g.fs) g.k g.zp (g.codes.getD ci 0)
    | (_, _, _, _, none) => ({ v := .nan }, false)
  let grps := (List.range ng).map fun q =>
    let es := (List.range gx).map fun p => (at_ (q * gx + p)).map one
    ({ els := es.map fun e => e.map (·.1), flushed := es.any fun e => (e.map (·.2)).getD false } : Grp)
  return { grps := grps
           bads := ents.filterMap fun (j, _, a, g, c) => if c.isNone then some ⟨a, j, g⟩ else none }

/-! ### Writing cakes (R57 to R66) -/

/-- Bytes of a code area: codes packed at their width. -/
def packCodes (w : Nat) (codes : List Nat) : List Byte :=
  leBytes ((codes.length * w + 7) / 8) ((codes.zipIdx.map fun (c, i) => c % 2 ^ w * 2 ^ (w * i)).sum)

/-- Mask bytes of R60. -/
def packMask (mask : List Bool) : List Byte :=
  leBytes (mask.length / 8) ((mask.zipIdx.map fun (b, i) => if b then 2 ^ i else 0).sum)

/-- A zero-filled list of a length. -/
def padTo (n : Nat) (l : List Byte) : List Byte := fitTo n l

/-- The bytes of a cake. `mask` is written for a masked tensor. -/
def encodeCake (d : Desc) (fs : Nat) (zp : Int) (var opn oxc : Bool) (mask : List Bool) (codes : List Nat) : List Byte :=
  let f := d.format
  let isConst := match codes with | [] => true | c :: t => t.all (· == c)
  let csum := if f.isInt then (codes.map (signedOf f.width)).sum else 0
  let h7 := leBytes 1 fs ++ leBytes 1 (wrapTo 8 zp) ++ leBytes 1 codes.length
    ++ leBytes 1 (b2n var + 2 * b2n oxc + 4 * b2n isConst + 8 * b2n opn) ++ leBytes 2 (wrapTo 16 csum) ++ [0]
  let body := h7 ++ leBytes 1 (crc8 h7) ++ (if d.masked then packMask mask else []) ++ packCodes f.width codes
  padTo (if d.masked then d.maskedSize codes.length else d.slot) body

end Sys2Proof.Machine
end

