-- ==== Sys2Proof/Machine/Product.lean ====
section
/-! DEFINITION. Products: classes, group sums, folds, the coarse step and integer rescale
(spec/05_product_arithmetic.md R132 to R149), with the events of R150 to R152. -/

namespace Sys2Proof.Machine

/-! ### Events (R150 to R152) -/

/-- Two sets of events taken together. -/
def Ev.merge (a b : Ev) : Ev :=
  { sat := a.sat + b.sat, under := a.under + b.under, ovr := a.ovr || b.ovr, flushed := a.flushed || b.flushed
    invalid := a.invalid + b.invalid, overflow := a.overflow + b.overflow, nonfin := a.nonfin + b.nonfin
    badcake := a.badcake || b.badcake }

/-- Events with the first capture candidate. -/
structure TEv where
  ev  : Ev := {}
  cap : Option InvCap := none
  deriving DecidableEq, Repr

/-- The order of R151: lowest row, then column, group, position. -/
def InvCap.before (a b : InvCap) : Bool :=
  decide (a.row < b.row) || (a.row == b.row && (decide (a.col < b.col) || (a.col == b.col &&
    (decide (a.group < b.group) || (a.group == b.group && decide (a.pos < b.pos))))))

def firstCap : Option InvCap → Option InvCap → Option InvCap
  | none, b => b
  | a, none => a
  | some a, some b => if b.before a then some b else some a

def TEv.merge (a b : TEv) : TEv := { ev := a.ev.merge b.ev, cap := firstCap a.cap b.cap }

/-- An INVALID event. -/
def TEv.inval (t : TEv) (row col group pos : Nat) (c : Inval) : TEv :=
  { ev := { t.ev with invalid := t.ev.invalid + 1 }
    cap := firstCap t.cap (some { row := row, col := col, group := group, pos := pos, cause := c.code }) }

def TEv.overflow (t : TEv) (b : Bool) : TEv :=
  if b then { t with ev := { t.ev with overflow := t.ev.overflow + 1 } } else t

def TEv.flush (t : TEv) (b : Bool) : TEv := { t with ev := { t.ev with flushed := t.ev.flushed || b } }

/-- What a write did: saturations and flushes, and non-finite results where the write is a store (R150, R183). -/
def TEv.write (t : TEv) (store : Bool) (w : WEv) : TEv :=
  { t with ev := { t.ev with
      sat := t.ev.sat + b2n w.sat, flushed := t.ev.flushed || w.flushed
      nonfin := t.ev.nonfin + (if store then b2n w.nonfin else 0) } }

/-! ### One product (R134, R135, R148) -/

/-- The product of two operand values, each finite one with its significand and exponent: class by R134. -/
inductive Prod2 where
  | zero | nan | zeroinf
  | inf (neg : Bool)
  | fin (neg : Bool) (m : Nat) (e : Int)
  deriving DecidableEq, Repr

def POp.mul : POp → POp → Prod2
  | .nan, _ => .nan
  | _, .nan => .nan
  | .inf _, .zero => .zeroinf
  | .zero, .inf _ => .zeroinf
  | .inf a, .inf b => .inf (a != b)
  | .inf a, .fin b _ _ => .inf (a != b)
  | .fin a _ _, .inf b => .inf (a != b)
  | .zero, _ => .zero
  | _, .zero => .zero
  | .fin a m x, .fin b n y => .fin (a != b) (m * n) (x + y)

/-! ### Group sums (R39, R41, R136) -/

/-- The result of a group and what it raises. -/
structure GRes where
  v   : XVal := xzero
  /-- Lowest position of a ZEROINF product. -/
  zeroinf : Option Nat := none
  infinf  : Bool := false
  ovf : Bool := false
  deriving DecidableEq, Repr

/-- One product's entry in the window whose greatest exponent is `emax`; `base` is 32 or 48 (R39, R41). -/
def windowEntry (base : Nat) (emax : Int) (neg : Bool) (mm : Nat) (e : Int) : Int :=
  let k := emax - e - base
  let mag :=
    if k ≤ 0 then mm * 2 ^ (-k).toNat
    else
      let q := mm / 2 ^ k.toNat
      if mm % 2 ^ k.toNat ≠ 0 ∧ q % 2 = 0 then q + 1 else q
  if neg then -(mag : Int) else mag

/-- E_max of a group; none without a finite nonzero product. -/
def groupEmax (ps : List Prod2) : Option Int :=
  ps.foldl (fun acc p => match p with
    | .fin _ _ e => match acc with
      | some m => some (max m e)
      | none => some e
    | _ => acc) none

/-- The signed window sum. -/
def windowSum (base : Nat) (emax : Int) (ps : List Prod2) : Int :=
  (ps.map fun p => match p with
    | .fin neg m e => windowEntry base emax neg m e
    | _ => 0).sum

/-- R136: the result of a group of products. `wide` uses the window of R41, whose operands carry 24 bits. -/
def groupOf (wide : Bool) (ps : List Prod2) : GRes :=
  let zi := (ps.zipIdx.find? fun x => x.1 == .zeroinf).map (·.2)
  let nan := zi.isSome || ps.contains .nan
  let pinf := ps.contains (.inf false)
  let ninf := ps.contains (.inf true)
  if nan then { v := .nan, zeroinf := zi }
  else if pinf && ninf then { v := .nan, infinf := true }
  else if pinf || ninf then { v := .inf ninf }
  else match groupEmax ps with
    | none => {}
    | some emax =>
      let sum := windowSum (if wide then 48 else 32) emax ps
      let (x, ovf) := toX40 (decide (sum < 0)) sum.natAbs (emax - (if wide then 94 else 54))
      { v := x40Value x, ovf := ovf }

def groupResult (wide : Bool) (a b : List POp) : GRes :=
  groupOf wide ((a.zip b).map fun (x, y) => x.mul y)

/-- The INVALID a group raises, ZEROINF before INFINF (R150), and its OVERFLOW. -/
def GRes.report (g : GRes) (t : TEv) (row col group : Nat) : TEv :=
  let t := t.overflow g.ovf
  match g.zeroinf with
  | some p => t.inval row col group p .zeroinf
  | none => if g.infinf then t.inval row col group 0xFF .infinf else t

/-! ### Folding (R138, R139) -/

/-- An exact value converted to X40, with OVERFLOW reported. -/
def toX40Ev (t : TEv) (x : XVal) : XVal × TEv :=
  let (v, o) := roundX40 x
  (v, t.overflow o)

/-- One fold step of R138. -/
def foldGroup (t : TEv) (row col group : Nat) (acc r : XVal) : XVal × TEv :=
  match xadd acc r with
  | (v, some c) => (v, t.inval row col group 0xFF c)
  | (v, none) => toX40Ev t v

/-- Group results in ascending index folded into one value. -/
def foldGroups (t : TEv) (row col : Nat) : List (Nat × XVal) → XVal × TEv
  | [] => (xzero, t)
  | (_, v) :: rest =>
    rest.foldl (fun (acc : XVal × TEv) x => foldGroup acc.2 row col x.1 acc.1 x.2) (v, t)

/-- R139: the coarse scales' product applied. -/
def coarseStep (t : TEv) (cp : Q) (x : XVal) : XVal × TEv :=
  match x with
  | .fin q => toX40Ev t (.fin (qmul q cp))
  | y => (y, t)

/-! ### Operand groups as products take them -/

/-- One group of a row as a product takes it: its index, its product operands, and what integer rescale needs. -/
structure OGrp where
  idx : Nat
  ops : List POp
  /-- Integer values c − z by position, none where absent; the E8M0 exponent; a NaN fine scale; a malformed cake. -/
  ints : List (Option Int) := []
  k   : Int := 0
  nanScale : Bool := false
  bad : Bool := false
  deriving Repr

/-- The integer of a value that codes of an INT format stand for. -/
def XVal.toInt : XVal → Int
  | .fin q => qfloor q
  | _ => 0

/-- A decoded group as a product operand. `fp32` says that the operand's codes are FP32; `wide` that the product uses
the wide window. -/
def Grp.operand (g : Grp) (idx : Nat) (fp32 wide : Bool) : OGrp :=
  { idx := idx
    ops := g.els.map fun e => match e with
      | none => .zero
      | some e =>
        let p := e.pop fp32
        if wide && !(fp32 && !e.side) then p.widen else p
    ints := g.els.map fun e => e.map fun e => e.v.toInt
    k := g.k, nanScale := g.nanScale, bad := g.bad }

/-- A row that left a prologue (R189), cut into groups from group `lo` on: W16 values enter as P21, FP32 ones as
FP32 operands. -/
def prologueGroups (g : Nat) (fp32 wide : Bool) (lo n : Nat) (row : List (Option XVal)) : List OGrp :=
  (List.range n).map fun i =>
    { idx := lo + i
      ops := ((row.drop (i * g)).take g).map fun v => match v with
        | none => .zero
        | some v =>
          if fp32 then (match v with
            | .fin q => if qisZero q then .zero else popOfFp32 (encodeFloat .fp32 v) 0
            | _ => popOfFp32 (encodeFloat .fp32 v) 0)
          else
            let p := popOfP21 (p21OfX v)
            if wide then p.widen else p }

/-! ### Integer rescale (R145 to R147) -/

/-- One group's contribution to Acc: none when it makes the element NaN, with whether SCALERANGE is raised. A malformed cake has
no scale; the other one's NaN scale still counts. -/
def intGroup (a b : OGrp) : Option Int × Bool :=
  let range := (!a.bad && a.nanScale) || (!b.bad && b.nanScale)
    || (!a.bad && !b.bad && (decide (a.k + b.k < -16) || decide (16 < a.k + b.k)))
  if a.bad || b.bad || range then (none, range)
  else
    let s := ((a.ints.zip b.ints).map fun (x, y) => match x, y with
      | some x, some y => x * y
      | _, _ => 0).sum
    (some (s * 2 ^ (a.k + b.k + 16).toNat), false)

/-- The code of an accumulator: value and whether it was limited (R146). -/
def intRescale (w : Nat) (m : Int) (sh : Nat) (zo : Int) (acc : Int) : Int × Bool :=
  let t := acc * m
  let q := if sh = 0 then t else
    let a := (t.natAbs + 2 ^ (sh - 1)) / 2 ^ sh
    if t < 0 then -(a : Int) else a
  let c := q + zo
  let lo : Int := -(2 ^ (w - 1))
  let hi : Int := 2 ^ (w - 1) - 1
  if c < lo then (lo, true) else if hi < c then (hi, true) else (c, false)

end Sys2Proof.Machine
end

