-- ==== Sys2Proof/Machine/Quant.lean ====
section
/-! DEFINITION. The crystalliser: amax, coarse and fine scales, codes, open groups and the scale history
(spec/04_quantisation.md R95 to R131, spec/03 R80, R85, spec/05 R146). -/

namespace Sys2Proof.Machine

/-! ### Amax and coarse scales (R98, R99, R102, R103, R126) -/

/-- The largest magnitude of the finite values present. -/
def amaxOf (vs : List (Option XVal)) : Q :=
  vs.foldl (fun m v => match v with
    | some (.fin q) => qmax m (qabs q)
    | _ => m) qzero

/-- The largest entry magnitude of a codebook copy (R103). -/
def cbMax (f : Fmt) (cb : List W16) : Q :=
  (cb.take (if f = .cb16 then 16 else 256)).foldl (fun m e => match floatValue .w16 e.toNat with
    | .fin q => qmax m (qabs q)
    | _ => m) qzero

/-- qmax of R103. -/
def qmaxOf (f : Fmt) (cb : List W16) : Q := if f.isCb then cbMax f cb else f.maxFin

/-- The crystalliser writes INT8 blocks of an MX tensor with bias 133 (R93). -/
def Desc.var (d : Desc) : Bool := d.isMx && d.fmt == 8

/-- Code of the scale ceiling (R102). -/
def ceilCode (k : Fsk) (var computed : Bool) : Nat :=
  match k with
  | .ue4m3 => 0x7E
  | .e8m0 => if computed then (if var then 0x85 else 0x7F) else 0xFE
  | .none => 0

/-- S_top of R102. -/
def sTop (k : Fsk) : Q := if k = .ue4m3 then qofInt 448 else qone

/-- The computed coarse scale of a tensor amax (R103). -/
def coarseFor (d : Desc) (cb : List W16) (a : Q) : W32 :=
  let qm := qmaxOf d.format cb
  if qisZero a || qisZero qm then 0x3F800000#32
  else
    let r := qdiv a (qmul qm (sTop d.fine))
    if qlt r (qpow2 (-126)) then 0x00800000#32 else fp32Up r

/-- H of R126. -/
def headroom (c : Nat) : Q :=
  match c with
  | 0 => qone | 1 => ⟨9, 8⟩ | 2 => ⟨5, 4⟩ | 3 => ⟨3, 2⟩ | 4 => qofInt 2 | 5 => qofInt 4 | 6 => qofInt 8
  | _ => qofInt 16

/-! ### Scale history (R123 to R128) -/

/-- AMAX of an entry as a pan reads it; none where the entry is empty. -/
def histAmax (e : W32) : Option Q :=
  let n := e.toNat % 2 ^ 31
  if n / 2 ^ 23 = 255 then none else some (fp32Q (BitVec.ofNat 32 n))

def HistSlot.entries (h : HistSlot) : List Q := h.e.filterMap histAmax

def HistSlot.stale (h : HistSlot) : Bool := bit (h.e.headD 0) 31

/-- Whether a STREAMED tile that reads the slot runs streamed (R125). -/
def HistSlot.streams (h : HistSlot) (warm : Nat) : Bool := !h.stale && decide (warm ≤ h.entries.length)

/-- C of a streamed step (R126). -/
def streamedCoarse (d : Desc) (cb : List W16) (hdrm : Nat) (h : HistSlot) : W32 :=
  let top := h.entries.foldl qmax qzero
  coarseFor d cb (fp32Q (fp32Up (qmul (headroom hdrm) top)))

/-- The push of R128. -/
def HistSlot.push (h : HistSlot) (tamax : W32) (ovr : Bool) : HistSlot :=
  let e0 : W32 := BitVec.ofNat 32 (tamax.toNat % 2 ^ 31 + if ovr then 2 ^ 31 else 0)
  { e := e0 :: (h.e.take 15).map fun x => x &&& 0x7FFFFFFF#32 }

/-! ### Fine scales (R105) -/

/-- The smallest integer e with 2^e ≥ r. -/
def ceilLog2 (r : Q) : Int := let e := qlog2 r; if qeq (qpow2 e) r then e else e + 1

/-- Fine scale for a required scale r > 0, and whether it exceeds the ceiling. -/
def fineScale (k : Fsk) (var : Bool) (ceil : Nat) (r : Q) : Nat × Bool :=
  let top := (scaleValue k var ceil).getD qone
  if qlt top r then (ceil, true)
  else match k with
    | .e8m0 => ((max (ceilLog2 r + (if var then 133 else 127)) 0).toNat, false)
    | .ue4m3 => (((List.range 0x7E).map (· + 1)).find? (fun c => qle r ((scaleValue .ue4m3 false c).getD qzero)) |>.getD ceil,
        false)
    | .none => (0, false)

/-! ### Codes (R106 to R112) -/

/-- What a group is written with. -/
structure QGrp where
  fs    : Nat := 0
  zp    : Int := 0
  codes : List Nat := []
  ovr  : Bool := false
  sat   : Nat := 0
  under : Nat := 0
  flushed : Bool := false
  nonfin : Nat := 0
  /-- The codes whose writing was counted as a saturation, by position among the codes. -/
  sats  : List Bool := []
  /-- The codes that read as zero, by position among the codes. -/
  zeros : List Bool := []
  deriving DecidableEq, Repr

/-- One code: its bits, what its writing did, and whether it reads as zero. -/
structure QCode where
  code : Nat
  ev   : WEv := {}
  zero : Bool := false
  deriving DecidableEq, Repr

def clampInt (lo hi i : Int) : Int × Bool := if i < lo then (lo, true) else if hi < i then (hi, true) else (i, false)

/-- Nearest codebook entry (R111): index of the entry nearest q, larger magnitude and then lower index first. -/
def cbSearch (cb : List Q) (q : XVal) : Nat :=
  let better := fun (a b : Nat × Q) => match q with
    | .inf neg => if neg then qlt b.2 a.2 else qlt a.2 b.2
    | .fin x =>
      let da := qabs (qsub x a.2)
      let db := qabs (qsub x b.2)
      qlt db da || (qeq db da && qlt (qabs a.2) (qabs b.2))
    | .nan => false
  match (cb.zipIdx.map fun (v, i) => (i, v)) with
  | [] => 0
  | h :: t => (t.foldl (fun best x => if better best x then x else best) h).1

/-- Values of a codebook copy's used entries. -/
def cbValues (f : Fmt) (cb : List W16) : List Q :=
  (cb.take (if f = .cb16 then 16 else 256)).map fun e => match floatValue .w16 e.toNat with
    | .fin q => q
    | _ => qzero

/-- The code of q for a float format (R107). -/
def floatCode (f : Fmt) (subn ovf : Bool) (q : XVal) : QCode :=
  let (y, ev) := limitFloat f subn ovf q
  { code := encodeFloat f y, ev := ev, zero := y.isZero }

/-- The code of q for an integer format with zero point z between limits; infinities take the limit of their sign. -/
def intCode (w : Nat) (lo hi z : Int) (q : XVal) : QCode :=
  match q with
  | .nan => { code := 0 }
  | .inf n => { code := wrapTo w (if n then lo else hi), ev := { sat := true }, zero := false }
  | .fin q =>
    let (c, s) := clampInt lo hi (roundInt .rna q + z)
    { code := wrapTo w c, ev := { sat := s }, zero := c == z }

/-- The code of q for a codebook format. -/
def cbCode (vals : List Q) (mx : Q) (q : XVal) : QCode :=
  let i := cbSearch vals q
  { code := i, zero := qisZero (vals.getD i qzero)
    ev := { sat := match q with | .fin x => qlt mx (qabs x) | _ => true } }

/-- x divided by a positive exact scale. -/
def xscale (c : Q) (x : XVal) : XVal :=
  match x with
  | .fin q => .fin (qdiv q c)
  | y => y

/-- A group written with codes chosen one by one. -/
def QGrp.ofCodes (fs : Nat) (zp : Int) (ovr : Bool) (vs : List XVal) (cs : List QCode) : QGrp :=
  { fs := fs, zp := zp, ovr := ovr, codes := cs.map (·.code)
    sat := (cs.filter (·.ev.sat)).length, flushed := cs.any (·.ev.flushed), sats := cs.map (·.ev.sat), zeros := cs.map (·.zero)
    nonfin := (cs.filter (·.ev.nonfin)).length
    under := ((vs.zip cs).filter fun (v, c) => v.isFin && !v.isZero && c.zero).length }

/-- How a crystalliser writes groups: descriptor, codebook copy, coarse scale, ceiling, SUBN and OVF. -/
structure QCx where
  d    : Desc
  cb   : List W16 := []
  c    : Q
  ceil : Nat
  subn : Bool := false
  ovf  : Bool := false

/-- Code of a value with a given fine scale and zero point; `asym` uses the full code range. -/
def QCx.code (x : QCx) (s : Q) (asym : Bool) (z : Int) (v : XVal) : QCode :=
  let f := x.d.format
  let q := xscale (qmul x.c s) v
  if f.isInt then
    let w := f.width
    let hi : Int := 2 ^ (w - 1) - 1
    intCode w (if asym then -hi - 1 else -hi) hi z q
  else if f.isCb then cbCode (cbValues f x.cb) (cbMax f x.cb) q
  else floatCode f x.subn x.ovf q

/-- A group of the values at its present, non-outlier positions in order (R106 to R112). -/
def QCx.group (x : QCx) (vs : List XVal) : QGrp :=
  let d := x.d
  let f := d.format
  let k := d.fine
  let var := d.var
  let fin := vs.filterMap fun v => match v with | .fin q => some q | _ => none
  let a := fin.foldl (fun m q => qmax m (qabs q)) qzero
  if vs.any (·.isNan) && !f.hasNan then
    { fs := if k = .ue4m3 then 0x7F else 0xFF, codes := vs.map fun _ => 0, nonfin := vs.length, sats := vs.map fun _ => false }
  else if k = .none then
    .ofCodes 0 0 false vs (vs.map (x.code qone false 0))
  else
    let qm := qmaxOf f x.cb
    let asym := f.isInt && d.zpt
    let distinct := match fin with | [] => false | q :: t => t.any fun r => !qeq q r
    if qisZero a || qisZero qm then
      -- R110: zero and infinite values alike see q = 0 or an infinity of their sign
      let fs := if asym && !(vs.isEmpty && d.masked) then (if k = .ue4m3 then 0x38 else if var then 0x85 else 0x7F) else 0
      let z := fun (v : XVal) => match v with | .fin _ => xzero | y => y
      .ofCodes fs 0 false vs (vs.map fun v => x.code qone false 0 (z v))
    else if asym && distinct then
      let w := f.width
      let lo := fin.foldl qmin qzero
      let hi := fin.foldl qmax qzero
      let (fs, ovr) := fineScale k var x.ceil (qdiv (qsub hi lo) (qmul x.c (qofInt (2 ^ w - 1))))
      let s := (scaleValue k var fs).getD qone
      let half : Int := 2 ^ (w - 1)
      let (z, _) := clampInt (-half) (half - 1) (-half - roundInt .rna (qdiv lo (qmul x.c s)))
      .ofCodes fs z ovr vs (vs.map (x.code s true z))
    else
      let (fs, ovr) := fineScale k var x.ceil (qdiv a (qmul x.c qm))
      let s := (scaleValue k var fs).getD qone
      .ofCodes fs 0 ovr vs (vs.map (x.code s false 0))

/-- A group of integer codes formed by integer rescale (R146): none marks a NaN element (R147). -/
def intGroupOut (d : Desc) (zo : Int) (cs : List (Option (Int × Bool))) : QGrp :=
  let w := d.w
  if cs.any (·.isNone) then
    { fs := 0xFF, codes := cs.map fun _ => 0, nonfin := cs.length, sats := cs.map fun _ => false }
  else
    { fs := if d.var then 0x85 else 0x7F, zp := zo
      codes := cs.map fun c => wrapTo w (c.map (·.1) |>.getD 0)
      sat := (cs.filter fun c => (c.map (·.2)).getD false).length
      sats := cs.map fun c => (c.map (·.2)).getD false }

/-- A side value of an outlier channel (R85, R112, R114): its W16 pattern, what its writing did, and whether it is an
underflow. -/
def sideCode (subn ovf : Bool) (c : Q) (v : XVal) : Nat × WEv × Bool :=
  let (y, ev) := limitFloat .w16 subn ovf (xscale c v)
  (encodeFloat .w16 y, ev, v.isFin && !v.isZero && y.isZero)

/-! ### Open groups (R80, R131) -/

/-- What an append writes: tail entries from position n on, and the group. -/
structure Append where
  tail : List Nat
  grp  : QGrp
  count : Nat
  deriving DecidableEq, Repr

/-- Values of W16 patterns. -/
def w16Values (l : List Nat) : List XVal := l.map (floatValue .w16)

/-- Underflows of an append's codes (R114): a new member is judged by its value before the tail's rounding, an earlier one
that a re-salt writes again by its tail value. -/
def appendUnder (vs : List XVal) (zeros : List Bool) : Nat :=
  ((vs.zip zeros).filter fun (v, z) => v.isFin && !v.isZero && z).length

/-- An append of values into a group that holds members with the given tail entries, FSCALE, ZP and codes (R80). Tail
values are W16 roundings under SUBN and OVF. A scale of zero holds no nonzero value, so such a member re-salts. A re-salt
counts the saturations and underflows of every member it writes (DESIGN CHOICE, log entry 118). -/
def QCx.append (x : QCx) (oldTail : List Nat) (fs : Nat) (zp : Int) (codes : List Nat) (news : List XVal) : Append :=
  let st := news.map (storeFloat .w16 x.subn x.ovf)
  let tail := st.map (·.1)
  let n := oldTail.length
  let all := w16Values (oldTail ++ tail)
  let asym := x.d.format.isInt && x.d.zpt
  let s := (scaleValue x.d.fine x.d.var fs).getD qone
  let nv := w16Values tail
  let cs := nv.map (x.code s asym zp)
  let nanNew := nv.any (·.isNan) && !x.d.format.hasNan
  let again := n + news.length == x.d.g || n == 0 || cs.any (·.ev.sat) || nanNew
    || (scaleValue x.d.fine x.d.var fs).isNone || (qisZero s && nv.any fun v => v.isFin && !v.isZero)
  let tailEv := fun (g : QGrp) =>
    { g with sat := g.sat + (st.filter (·.2.sat)).length, flushed := g.flushed || st.any (·.2.flushed) }
  if again then
    let g := x.group all
    { tail := tail, grp := tailEv { g with under := appendUnder (w16Values oldTail ++ news) g.zeros }, count := all.length }
  else
    let g := QGrp.ofCodes fs zp false nv cs
    { tail := tail, grp := tailEv { g with codes := codes ++ g.codes, under := appendUnder news g.zeros }, count := all.length }

/-- An append of integer codes (R146) into such a group (DESIGN CHOICE, log entry 123): the tail takes C × (c − zo); the codes
join those the group holds where these stand under the same FSCALE and ZP, else every code is written afresh from the tail
under them; a NaN among old and new makes a NaN group. -/
def QCx.appendInts (x : QCx) (oldTail : List Nat) (fs : Nat) (zp : Int) (codes : List Nat) (zo : Int)
    (news : List (Option (Int × Bool))) : Append :=
  let w := x.d.w
  let vs := news.map fun c => match c with
    | some (i, _) => XVal.fin (qmul x.c (qofInt (i - zo)))
    | none => .nan
  let st := vs.map (storeFloat .w16 x.subn x.ovf)
  let tail := st.map (·.1)
  let old := w16Values oldTail
  let g := intGroupOut x.d zo (news.map fun c => if old.any (·.isNan) || (!old.isEmpty && (scaleValue x.d.fine x.d.var fs).isNone)
    then none else c)
  let kept := if fs = g.fs ∧ zp = zo then { codes := codes : QGrp }
    else QGrp.ofCodes g.fs zo false old (old.map fun v => intCode w (-(2 ^ (w - 1))) (2 ^ (w - 1) - 1) zo (xscale x.c v))
  let n := oldTail.length + news.length
  { tail := tail, count := n
    grp := if g.fs = 0xFF then { g with codes := List.replicate n 0, nonfin := n }
      else { g with codes := kept.codes ++ g.codes, sat := kept.sat + g.sat, under := kept.under } }

end Sys2Proof.Machine
end

