-- ==== Sys2Proof/Machine/Chain.lean ====
section
/-! DEFINITION. Chains: their bytes, their refusals and the arithmetic of every stage
(spec/07_fused_chains.md R178 to R209). -/

namespace Sys2Proof.Machine

/-! ### Bytes (R179 to R181, R190) -/

def Stage.op (s : Stage) : Nat := byteAt s.raw 0
def Stage.ifmt (s : Stage) : Nat := byteAt s.raw 1 % 4
def Stage.reg (s : Stage) : Nat := byteAt s.raw 1 / 4 % 8
def Stage.ctl (s : Stage) : Nat := byteAt s.raw 2
def Stage.u (s : Stage) (o n : Nat) : Nat := leAt s.raw o n
/-- An FP32 parameter. -/
def Stage.f32 (s : Stage) (o : Nat) : XVal := floatValue .fp32 (s.u o 4)
def Stage.addr (s : Stage) : Nat := s.u 8 8

def opProd : Nat := 1
def opScale : Nat := 2
def opBias : Nat := 3
def opAct : Nat := 4
def opNorm : Nat := 5
def opRowstat : Nat := 6
def opResid : Nat := 7
def opClip : Nat := 8
def opMask : Nat := 9
def opAmax : Nat := 0xA
def opRowfn : Nat := 0xB
def opQuant : Nat := 0xC
def opPair : Nat := 0xD
def opCast : Nat := 0xE

/-- A chain from its header and stage bytes (R179). -/
def chainOf (hd body : List Byte) : Chain :=
  let n := byteAt hd 0
  { nstg := n, subn := nbit (byteAt hd 1) 0, ovf := nbit (byteAt hd 1) 1, ctag := BitVec.ofNat 32 (leAt hd 4 4)
    stages := (List.range (min n 12)).map fun i => { raw := (body.drop (32 * i)).take 32 } }

/-- Bytes at a chain's address: the reservoir by its control window addresses, 0x0400_0000 to 0x07FF_FFFF, and host memory by
every other one (R178; DESIGN CHOICE, log entry 114). -/
def chainRead (a n : Nat) : Io (List Byte) := fun s =>
  if 0x4000000 ≤ a ∧ a < 0x8000000 then (.ok (resBytes s (a - 0x4000000) n), s) else ioRead a n s

/-- The header of a chain, without its stages. -/
def ioChainHead (a : Nat) : Io Chain := do return chainOf (← chainRead a 32) []

/-- A chain read at an address: its header, then its stages. -/
def ioChain (a : Nat) : Io Chain := do
  let hd ← chainRead a 32
  let n := min (byteAt hd 0) 12
  if n = 0 then return chainOf hd []
  else return chainOf hd (← chainRead (a + 32) (32 * n))

/-- Stages of a region with their index in the chain. -/
def Chain.region (c : Chain) (r : Nat) : List (Nat × Stage) :=
  (c.stages.zipIdx.filter fun x => x.1.reg = r).map fun (s, i) => (i, s)

def Chain.prod1 (c : Chain) : Option (Nat × Stage) := (c.region 2).head?
def Chain.prod2 (c : Chain) : Option (Nat × Stage) := (c.region 4).head?
def Chain.isPass (c : Chain) : Bool := c.stages.all fun s => s.op ≠ opProd
def Chain.last (c : Chain) : Option Stage := c.stages.getLast?
def Chain.quant (c : Chain) : Option Stage := c.last.bind fun s => if s.op = opQuant then some s else none
def Chain.pair (c : Chain) : Option Stage := c.last.bind fun s => if s.op = opPair then some s else none

def Stage.csrc (s : Stage) : Nat := s.ctl % 4
def Stage.hdrm (s : Stage) : Nat := s.ctl / 4 % 8
def Stage.irs (s : Stage) : Bool := nbit s.ctl 5
def Stage.camx (s : Stage) : Bool := nbit s.ctl 6
def Stage.ishift (s : Stage) : Nat := byteAt s.raw 3 % 128
def Stage.tiles (s : Stage) : Nat := s.u 4 2
def Stage.izp (s : Stage) : Int := signedOf 8 (s.u 6 1)
def Stage.imul (s : Stage) : Int := signedOf 32 (s.u 8 4)
def Stage.wstage (s : Stage) : Nat := s.u 16 8
def Stage.camax (s : Stage) : Nat := s.u 24 8

/-- Integer rescale is selected (R145). -/
def Chain.irs (c : Chain) : Bool := (c.quant.map (·.irs)).getD false

/-! ### Structure and refusals (R182, R185, R186) -/

/-- Incoming format of the stage at an index: the IFMT of the stage before it on its path; X40 for the first. -/
def Chain.incoming (c : Chain) (i : Nat) : Nat :=
  match c.stages[i]? with
  | none => 2
  | some s =>
    let same := fun (t : Stage) => if s.reg < 2 then t.reg = s.reg else 2 ≤ t.reg
    match ((c.stages.take i).filter same).getLast? with
    | some t => t.ifmt
    | none => 2

/-- Whether the table of R182 admits a stage in its region. -/
def Stage.admitted (s : Stage) (lastMid hasProd2 : Bool) : Bool :=
  let r := s.reg
  let pro := r = 0 ∨ r = 1
  match s.op with
  | 1 => r = 2 ∨ r = 4
  | 2 => r = 5 ∨ ((pro ∨ r = 3) ∧ s.ctl % 4 ≠ 3)
  | 3 | 4 | 8 | 0xE => pro ∨ r = 3 ∨ r = 5
  | 5 => r = 5 ∨ (pro ∧ s.ctl % 2 = 1)
  | 6 | 7 | 0xA => r = 5
  | 9 => r = 3 ∨ r = 5
  | 0xB => (r = 3 ∧ lastMid = true ∧ hasProd2 = true) ∨ (r = 5 ∧ hasProd2 = false)
  | 0xC | 0xD => r = 5
  | _ => false

/-- Whether an FP32 parameter is finite. -/
def Stage.fin32 (s : Stage) (o : Nat) : Bool := (s.f32 o).isFin

/-- Conditions of R186 and R190 on a stage's own fields. -/
def Stage.fieldsOk (s : Stage) : Bool :=
  match s.op with
  | 1 => if s.reg = 2 then s.addr = 0 else s.addr ≠ 0
  | 2 => if s.ctl % 4 = 0 then s.fin32 4 else s.addr ≠ 0
  | 3 => if s.ctl % 2 = 0 then s.fin32 4 else s.addr ≠ 0
  | 4 => s.ctl ≤ 5 ∧ (s.ctl ≠ 1 ∨ s.fin32 4 = true)
  | 5 => s.fin32 4 = true ∧ (s.f32 4).sgn = false ∧ (s.ctl % 2 = 0 ∨ s.u 24 8 ≠ 0)
  | 7 | 0xA | 0xD => s.addr ≠ 0
  | 8 => (s.f32 4).isNan = false ∧ (s.f32 8).isNan = false ∧ xlt (s.f32 8) (s.f32 4) = false
  | 9 => s.ctl % 4 < 2 ∧ (s.ctl % 4 ≠ 1 ∨ s.addr ≠ 0)
  | 0xC => s.csrc ≠ 3 ∧ s.ishift ≤ 95 ∧ (s.csrc = 0 ∨ (s.tiles ≠ 0 ∧ s.wstage ≠ 0)) ∧ (s.camx = false ∨ s.camax ≠ 0)
  | 0xE => (s.ctl % 16 ≤ 1 ∨ (3 ≤ s.ctl % 16 ∧ s.ctl % 16 ≤ 7)) ∧ ¬(s.ctl % 16 = 1 ∧ s.ifmt = 0)
  | _ => true

/-- The IFMT conditions of R182 on the stage at an index. -/
def Chain.ifmtOk (c : Chain) (i : Nat) (s : Stage) : Bool :=
  let inc := c.incoming i
  match s.op with
  | 0xC => true
  | 0xD => inc ≠ 0
  | 6 | 9 | 0xA => s.ifmt = inc ∧ s.ifmt ≠ 3 ∧ ¬(c.isPass = true ∧ i = 0)
  | 0xB => s.ifmt = 0
  | _ => s.ifmt ≠ 3

/-- R185: what the last stage asks of OUT. -/
def Chain.outOk (c : Chain) (out : Desc) : Bool :=
  match c.last with
  | none => false
  | some s =>
    if s.op = opQuant then out.isCake || out.isMx
    else if s.op = opPair then out.isPlain && out.fmt == 0
    else out.isPlain && out.format.isWide && (s.ifmt == 2 || s.ifmt == out.fmt)

/-- The refusals of R186 that the chain and OUT decide. -/
def Chain.bad (c : Chain) (out : Option Desc) : Bool :=
  let n := c.nstg
  let ss := c.stages
  let idx := ss.zipIdx
  let hasP2 := (c.region 4).length ≠ 0
  let mids := c.region 3
  let lastMid := (mids.getLast?).map (·.1)
  let prods := (ss.filter (·.op = opProd)).length
  let p1 := (c.region 2).length
  let p2 := (c.region 4).length
  let mono := (List.range (ss.length - 1)).all fun i =>
    decide (((ss[i]?).map (·.reg)).getD 0 ≤ ((ss[i + 1]?).map (·.reg)).getD 0)
  let proLast := fun (r : Nat) => match (c.region r).getLast? with
    | some (_, s) => s.ifmt = 2
    | none => false
  decide (n = 0) || decide (12 < n) || !mono
    || idx.any (fun (s, i) => decide (s.reg > 5) || !s.admitted (decide (lastMid = some i)) hasP2 || !s.fieldsOk
      || !c.ifmtOk i s || ((s.op = opQuant || s.op = opPair) && decide (i + 1 ≠ n))
      || (s.op = opNorm && s.ctl % 2 = 0 && !(ss.take i).any (fun t => t.op = opRowstat)))
    || (if prods = 0 then ss.any (fun s => decide (s.reg ≠ 5))
        else decide (p1 ≠ 1) || decide (1 < p2)
          || (hasP2 && !(mids.getLast?.map fun x => x.2.op == opRowfn).getD false) || (!hasP2 && !mids.isEmpty))
    || proLast 0 || proLast 1
    || (match out with | some d => !c.outOk d | none => false)

/-! ### A tile under computation -/

/-- A segment record of ROWSTAT (R199). -/
structure SegRec where
  n    : Nat
  mean : XVal
  m2   : XVal
  nf   : Bool
  deriving DecidableEq, Repr

/-- What a tile attempt gathers: events, malformed cakes, the writes and merges it will issue, and the records that the
nearest ROWSTAT formed for each of its rows. -/
structure Acc where
  t : TEv := {}
  bads : List CakeBad := []
  writes : List TWrite := []
  merges : List (Aop × Nat × Nat) := []
  stat : List (List SegRec) := []
  deriving Repr

/-- A tile computation. -/
abbrev Tl := StateT Acc Io

def Tl.io {α : Type} (x : Io α) : Tl α := fun a => do let r ← x; return (r, a)
def Tl.ev (f : TEv → TEv) : Tl Unit := fun a => return ((), { a with t := f a.t })
def Tl.store (w : TWrite) : Tl Unit := fun a => return ((), { a with writes := a.writes ++ [w] })
def Tl.write (addr : Nat) (bs : List Byte) : Tl Unit := Tl.store { addr := addr, bytes := bs }
def Tl.merge (o : Aop) (addr v : Nat) : Tl Unit := fun a => return ((), { a with merges := a.merges ++ [(o, addr, v)] })
def Tl.bads (l : List CakeBad) : Tl Unit := fun a =>
  return ((), { a with bads := a.bads ++ l, t := { a.t with ev := { a.t.ev with badcake := a.t.ev.badcake || !l.isEmpty } } })
/-- A value the spec leaves open. -/
def Tl.free (w : Nat) : Tl (BitVec w) := fun a s => let (v, s) := takeFree w s; (.ok (v, a), s)

/-- A tile's values by row and column; none at a position that is not present. -/
abbrev Mat := List (List (Option XVal))

/-- MODE bits of the chain. -/
structure Cx where
  subn : Bool := false
  ovf  : Bool := false
  /-- Columns of a row for ROWSTAT and NORMAPPLY. -/
  ncols : Nat := 0
  /-- Second reads of malformed cakes. -/
  good  : Reread := []

def mapMat (r0 c0 : Nat) (m : Mat) (f : Nat → Nat → XVal → Tl XVal) : Tl Mat :=
  m.zipIdx.mapM fun (row, i) => row.zipIdx.mapM fun (v, j) => match v with
    | none => pure none
    | some x => do return some (← f (r0 + i) (c0 + j) x)

/-- R183: the rounding into an intermediate format. -/
def toIfmt (cx : Cx) (ifmt : Nat) (x : XVal) : Tl XVal := do
  if ifmt = 2 then
    let (v, o) := roundX40 x
    Tl.ev (·.overflow o)
    return v
  else
    let (v, w) := limitFloat (if ifmt = 1 then .fp32 else .w16) cx.subn cx.ovf x
    Tl.ev (·.write false w)
    return v

/-- An operation's value with its INVALID reported at a stage (R184). -/
def stageOp (i j idx : Nat) (r : XVal × Option Inval) : Tl XVal := do
  match r.2 with
  | some c => Tl.ev (·.inval i j 0xFFFFFFFF idx c)
  | none => pure ()
  return r.1

/-- A conversion to X40 that raises OVERFLOW. -/
def stageX40 (x : XVal) : Tl XVal := do
  let (v, o) := roundX40 x
  Tl.ev (·.overflow o)
  return v

/-- Entries of a W16 vector from an index on, read under SUBN (R47). -/
def readVec (cx : Cx) (a from_ n : Nat) : Tl (List XVal) := do
  let bs ← Tl.io (ioRead (a + 2 * from_) (2 * n))
  let rs := (List.range n).map fun k => readWide .w16 cx.subn (leAt bs (2 * k) 2)
  Tl.ev (·.flush (rs.any (·.2)))
  return rs.map (·.1)

/-! ### Activations (R194 to R196) -/

def cT : List W32 := [0x3F800000, 0x3F8B95C2, 0x3F9837F0, 0x3FA5FED7, 0x3FB504F3, 0x3FC5672A, 0x3FD744FD, 0x3FEAC0C7]
def cC1 : Q := fp32Q 0x3F317218
def cC2 : Q := fp32Q 0x3E75FDF0
def cC3 : Q := fp32Q 0x3D635847
def cC4 : Q := fp32Q 0x3C1D955B
def cC5 : Q := fp32Q 0x3AAEC3FF
def cK0 : Q := fp32Q 0x3F4C422A
def cK1 : Q := fp32Q 0x3D372713
def cT3 : Q := fp32Q 0xBEAAAAAB
def cT5 : Q := fp32Q 0x3E088889

/-- to_x40 of an exact value of moderate size. -/
def rq (q : Q) : Q := roundGrid .rto 29 (-510) q

/-- expx of R194. -/
def expx (x : XVal) : XVal :=
  match x with
  | .nan => .nan
  | .inf false => .inf false
  | .inf true => xzero
  | .fin q =>
    let y := qmul q (qmul (qofInt 0xB8AA3B29) (qpow2 (-31)))
    if qle (qofInt 512) y then .inf false
    else if qlt y (qofInt (-540)) then xzero
    else
      let i := qfloor y
      let f := qsub y (qofInt i)
      let j := (qfloor (qmul f (qofInt 8))).toNat
      let r := rq (qsub f ⟨(j : Int), 8⟩)
      let p := [cC4, cC3, cC2, cC1, qone].foldl (fun p c => rq (qadd (qmul p r) c)) cC5
      x40Quiet (.fin (qmul (qmul (fp32Q (cT.getD j 0)) p) (qpow2 i)))

/-- sig(u) of R195. -/
def sigm (u : XVal) : XVal :=
  match expx (match u with | .fin q => .fin (qneg q) | .inf n => .inf (!n) | .nan => .nan) with
  | .fin e => x40Quiet (.fin (qdiv qone (qadd qone e)))
  | .inf _ => xzero
  | .nan => .nan

def xq : XVal → Q
  | .fin q => q
  | _ => qzero

/-- The product of two extended reals where no INVALID is raised. -/
def mulQuiet (a b : XVal) : XVal := (xmul a b).1

/-- The exact value of an activation's last line (R195, R196). -/
def actValue (fn : Nat) (alpha : XVal) (x : XVal) : XVal :=
  match x with
  | .nan => .nan
  | .inf neg =>
    match fn with
    | 0 => if neg then xzero else .inf false
    | 1 => if !neg then .inf false else if qisZero (xq alpha) then xzero else .inf (!qneg? (xq alpha))
    | 4 => .fin (qofInt (if neg then -1 else 1))
    | 5 => if neg then xzero else .fin qone
    | _ => if neg then xzero else .inf false
  | .fin q =>
    match fn with
    | 0 => if qlt qzero q then x else xzero
    | 1 => if qneg? q then .fin (qmul q (xq alpha)) else x
    | 2 =>
      let a := x40Quiet (.fin (qmul q q))
      -- 2 × K0 × (x + K1 × a × x), an infinity of x's sign once a has overflowed
      let u := match a with
        | .fin a => x40Quiet (.fin (qmul (qmul (qofInt 2) cK0) (qadd q (qmul (qmul cK1 a) q))))
        | _ => .inf (qneg? q)
      mulQuiet x (sigm u)
    | 3 => mulQuiet x (sigm x)
    | 4 =>
      if qlt (qabs q) (qpow2 (-4)) then
        let a := rq (qmul q q)
        let t := rq (qmul a (qadd (qmul cT5 a) cT3))
        .fin (qadd q (qmul q t))
      else
        let e := xq (expx (.fin (qneg (qmul (qofInt 2) (qabs q)))))
        let r := rq (qdiv (qsub qone e) (qadd qone e))
        .fin (if qneg? q then qneg r else r)
    | _ => sigm x

/-! ### Row statistics (R198 to R201) -/

/-- A segment's record from its values. -/
def segRecord (vs : List XVal) : Tl SegRec := do
  let n := vs.length
  if vs.any fun v => !v.isFin then return { n := n, mean := .nan, m2 := .nan, nf := true }
  else if n = 0 then
    let a ← Tl.free 40
    let b ← Tl.free 40
    return { n := 0, mean := x40Value a, m2 := x40Value b, nf := false }
  else
    let qs := vs.map xq
    let mean ← stageX40 (.fin (qdiv (qs.foldl qadd qzero) (qofInt n)))
    let m2 ← match mean with
      | .fin m => stageX40 (.fin (qs.foldl (fun s q => let d := qsub q m; qadd s (qmul d d)) qzero))
      | _ => stageX40 (.inf false)
    return { n := n, mean := mean, m2 := m2, nf := false }

def SegRec.bytes (r : SegRec) : List Byte :=
  leBytes 4 r.n ++ leBytes 5 (x40Of r.mean).toNat ++ leBytes 5 (x40Of r.m2).toNat ++ leBytes 1 (b2n r.nf) ++ [0]

def segOf (b : List Byte) : SegRec :=
  { n := leAt b 0 4, mean := x40Value (BitVec.ofNat 40 (leAt b 4 5)), m2 := x40Value (BitVec.ofNat 40 (leAt b 9 5))
    nf := nbit (byteAt b 14) 0 }

/-- One merge of R200 at a stage of row i. -/
def mergeSeg (i idx : Nat) (a b : SegRec) : Tl SegRec := do
  let n := a.n + b.n
  if a.nf || b.nf then return { n := n, mean := .nan, m2 := .nan, nf := true }
  else if n = 0 then
    let x ← Tl.free 40
    let y ← Tl.free 40
    return { n := 0, mean := x40Value x, m2 := x40Value y, nf := false }
  else
    let op := stageOp i 0 idx
    let d ← op (xadd b.mean (xneg a.mean))
    let t ← op (xmul d (.fin (qmk b.n n)))
    let mean ← stageX40 (← op (xadd a.mean t))
    let d2 ← op (xmul d d)
    let u ← op (xmul d2 (.fin (qmk (a.n * b.n : Nat) n)))
    let m ← op (xadd a.m2 b.m2)
    let m2 ← stageX40 (← op (xadd m u))
    return { n := n, mean := mean, m2 := m2, nf := false }

/-- The left fold of R200. -/
def foldSegs (i idx : Nat) : List SegRec → Tl SegRec
  | [] => pure { n := 0, mean := .nan, m2 := .nan, nf := true }
  | r :: t => t.foldlM (mergeSeg i idx) r

/-- 1 / sqrt(w) rounded once into X40 (R201); w negative has no value. -/
def rstdOf (i idx : Nat) (w : XVal) : Tl XVal := do
  match w with
  | .nan => return .nan
  | .inf false => return xzero
  | .inf true =>
    Tl.ev (·.inval i 0 0xFFFFFFFF idx .zeroinf)
    return .nan
  | .fin q =>
    if qisZero q then return .inf false
    else if qneg? q then
      let c ← Tl.free 2
      Tl.ev fun t => { ev := { t.ev with invalid := t.ev.invalid + 1 }
                       cap := firstCap t.cap (some { row := i, col := 0, group := 0xFFFFFFFF, pos := idx, cause := c.toNat }) }
      return .nan
    else
      let r := qdiv qone q
      let e := (qlog2 r).fdiv 2
      stageX40 (.fin (qsqrtSticky r (max e (-510) - 40)))

/-! ### Masks (R192) -/

/-- For a row of a masked tensor, as far as a tile's columns `lo` to `hi` reach: the present positions, and from which
position on its cakes are unknown. -/
def maskRow (good : Reread) (d : Desc) (ol : List Nat) (lo hi r : Nat) : Io (List Bool × Option Nat × List CakeBad) := do
  let o : Opnd := { d := d, ol := ol }
  let t ← ioNum (d.aux + 4 * r) 4
  let rr ← readMasked o good r (List.range ((hi + d.g - 1) / d.g)) (d.base + 16 * t) {}
  let bits := (rr.grps.map fun g => if g.bad then List.replicate d.g false else g.els.map (·.isSome)).flatten
  return (bits, (rr.grps.findIdx? (·.bad)).map (· * d.g), rr.bads.filter fun b => decide (lo / d.g ≤ b.group))

/-! ### Stages (R191 to R193, R201) -/

/-- The addend or bound vectors of column stages, indexed from the tile's first column. -/
def colAt (c0 : Nat) (v : List XVal) (j : Nat) : XVal := v.getD (j - c0) xzero

/-- NORMAPPLY of a row with its fold (R201). -/
def normRow (cx : Cx) (s : Stage) (idx i c0 : Nat) (fold : SegRec) (gam bet : List XVal) (row : List (Option XVal)) :
    Tl (List (Option XVal)) := do
  if fold.nf then return row.map fun v => v.map fun _ => .nan
  else
    let rms := nbit s.ctl 1
    let op := stageOp i 0 idx
    let v0 ← op (xdiv fold.m2 (.fin (qofInt fold.n)))
    let v ← if rms then do
        let m2 ← op (xmul fold.mean fold.mean)
        op (xadd v0 m2)
      else pure v0
    let rstd ← rstdOf i idx (← op (xadd v (s.f32 4)))
    row.zipIdx.mapM fun (x, jj) => match x with
      | none => pure none
      | some x => do
        let j := c0 + jj
        let op := stageOp i j idx
        let d ← if rms then pure x else op (xadd x (xneg fold.mean))
        let y ← op (xmul d rstd)
        let y ← if s.u 8 8 = 0 then pure y else op (xmul y (colAt c0 gam j))
        let y ← if s.u 16 8 = 0 then pure y else op (xadd y (colAt c0 bet j))
        return some (← toIfmt cx s.ifmt y)

/-- Segment records read from memory for a row. -/
def readSegs (a nseg i : Nat) : Tl (List SegRec) := do
  let bs ← Tl.io (ioRead (a + 16 * (i * nseg)) (16 * nseg))
  return (List.range nseg).map fun k => segOf ((bs.drop (16 * k)).take 16)

/-- ROWSTAT over a tile: the records of its rows' segments (R199). -/
def rowstat (s : Stage) (r0 c0 ncols : Nat) (m : Mat) : Tl Mat := do
  let nseg := (ncols + 255) / 256
  let s0 := c0 / 256
  let recs ← m.mapM fun row =>
    (List.range ((row.length + 255) / 256)).mapM fun k =>
      segRecord (((row.drop (256 * k)).take 256).filterMap id)
  if s.addr ≠ 0 then
    for (rs, i) in recs.zipIdx do
      for (g, k) in rs.zipIdx do
        Tl.write (s.addr + 16 * ((r0 + i) * nseg + s0 + k)) g.bytes
  fun a => return (m, { a with stat := recs })

/-- Softmax over held rows (R209): one row's values, with its maximum and sum. -/
def rowfnRow (cx : Cx) (s : Stage) (row : List (Option XVal)) : Tl (List (Option XVal) × XVal × XVal) := do
  let vs := row.filterMap id
  if vs.any (·.isNan) then return (row.map fun v => v.map fun _ => .nan, .nan, .nan)
  else
    let mx := vs.foldl (fun m v => if xlt m v then v else m) (.inf true)
    if mx = .inf false then return (row.map fun v => v.map fun _ => .nan, mx, .nan)
    else
      let kb := 128 * 2 ^ (s.ctl % 4)
      let ps ← row.mapM fun v => match v with
        | none => pure none
        | some v =>
          if v = .inf true then pure (some xzero)
          else do return some (← toIfmt cx 0 (expx (xadd v (xneg mx)).1))
      let sums ← (List.range ((row.length + kb - 1) / kb)).mapM fun b =>
        stageX40 (.fin ((((ps.drop (b * kb)).take kb).filterMap id).foldl (fun q v => qadd q (xq v)) qzero))
      let l ← match sums with
        | [] => pure xzero
        | h :: t => t.foldlM (fun a b => stageX40 (xadd a b).1) h
      if nbit s.ctl 2 then
        let ys ← ps.mapM fun v => match v with
          | none => pure none
          | some p => do return some (← if l.isZero then pure xzero else toIfmt cx 0 (xdiv p l).1)
        return (ys, mx, l)
      else return (ps, mx, l)

/-- A ROWFN record (R206). -/
def rowfnBytes (m l : XVal) : List Byte :=
  leBytes 5 (x40Of m).toNat ++ leBytes 5 (x40Of l).toNat ++ List.replicate 6 0

/-- One stage over a tile whose first row and column are r0 and c0. QUANT, PAIR and PROD are not stages of this
function. -/
def evalStage (cx : Cx) (r0 c0 : Nat) (idx : Nat) (s : Stage) (m : Mat) : Tl Mat := do
  let nr := m.length
  let nc := (m.headD []).length
  match s.op with
  | 2 =>
    match s.ctl % 4 with
    | 0 => mapMat r0 c0 m fun i j x => do toIfmt cx s.ifmt (← stageOp i j idx (xmul x (s.f32 4)))
    | 1 => do
      let v ← readVec cx s.addr r0 nr
      mapMat r0 c0 m fun i j x => do toIfmt cx s.ifmt (← stageOp i j idx (xmul x (colAt r0 v i)))
    | 2 => do
      let v ← readVec cx s.addr c0 nc
      mapMat r0 c0 m fun i j x => do toIfmt cx s.ifmt (← stageOp i j idx (xmul x (colAt c0 v j)))
    | _ => do
      let bs ← Tl.io (ioRead (s.addr + 16 * r0) (16 * nr))
      let l := (List.range nr).map fun k => x40Value (BitVec.ofNat 40 (leAt bs (16 * k + 5) 5))
      mapMat r0 c0 m fun i j x => do
        let d := colAt r0 l i
        if d.isZero then toIfmt cx s.ifmt xzero
        else toIfmt cx s.ifmt (← stageOp i j idx (xdiv x d))
  | 3 =>
    if s.ctl % 2 = 0 then
      mapMat r0 c0 m fun i j x => do toIfmt cx s.ifmt (← stageOp i j idx (xadd x (s.f32 4)))
    else do
      let v ← readVec cx s.addr c0 nc
      mapMat r0 c0 m fun i j x => do toIfmt cx s.ifmt (← stageOp i j idx (xadd x (colAt c0 v j)))
  | 4 => mapMat r0 c0 m fun _ _ x => toIfmt cx s.ifmt (actValue s.ctl (s.f32 4) x)
  | 5 => do
    let nseg := (cx.ncols + 255) / 256
    let gam ← if s.u 8 8 = 0 then pure [] else readVec cx (s.u 8 8) c0 nc
    let bet ← if s.u 16 8 = 0 then pure [] else readVec cx (s.u 16 8) c0 nc
    let held ← (fun a => return (a.stat, a) : Tl (List (List SegRec)))
    m.zipIdx.mapM fun (row, k) => do
      let segs ← if s.ctl % 2 = 1 then readSegs (s.u 24 8) nseg (r0 + k) else pure (held.getD k [])
      let fold ← foldSegs (r0 + k) idx segs
      normRow cx s idx (r0 + k) c0 fold gam bet row
  | 6 => rowstat s r0 c0 cx.ncols m
  | 7 => do
    let d ← Tl.io (ioDesc s.addr)
    let w := d.w / 8
    let rows ← (List.range nr).mapM fun k => Tl.io (ioRead (d.base + (r0 + k) * d.rowstride + c0 * w) (nc * w))
    mapMat r0 c0 m fun i j x => do
      let (v, fl) := readWide d.format cx.subn (leAt (rows.getD (i - r0) []) ((j - c0) * w) w)
      Tl.ev (·.flush fl)
      toIfmt cx s.ifmt (← stageOp i j idx (xadd x (mulQuiet v (.fin d.c))))
  | 8 => mapMat r0 c0 m fun _ _ x => do
      let y := match x with
        | .nan => .nan
        | x =>
          let a := if xlt x (s.f32 4) then s.f32 4 else x
          if xlt (s.f32 8) a then s.f32 8 else a
      toIfmt cx s.ifmt y
  | 9 =>
    let fill : XVal := if nbit s.ctl 2 then xzero else .inf true
    if s.ctl % 4 = 0 then
      mapMat r0 c0 m fun i j x => pure (if (j : Int) > (i : Int) + signedOf 32 (s.u 4 4) then fill else x)
    else do
      let d ← Tl.io (ioDesc s.addr)
      let ol ← if d.nout = 0 then pure [] else do
        let b ← Tl.io (ioRead d.side 256)
        pure ((outlierList d b).getD [])
      let rows ← (List.range nr).mapM fun k => Tl.io (maskRow cx.good d ol c0 (c0 + nc) (r0 + k))
      Tl.bads (rows.map fun x => x.2.2).flatten
      mapMat r0 c0 m fun i j x => do
        let (bits, unk, _) := rows.getD (i - r0) ([], none, [])
        if (match unk with | some p => decide (p ≤ j) | none => false) then pure .nan
        else if bits.getD j false then pure x else pure fill
  | 0xA => do
    Tl.merge .maxu32 s.addr (fp32Up (amaxOf m.flatten)).toNat
    return m
  | 0xB => do
    let rs ← m.mapM (rowfnRow cx s)
    if s.addr ≠ 0 then
      for (x, k) in rs.zipIdx do
        Tl.write (s.addr + 16 * (r0 + k)) (rowfnBytes x.2.1 x.2.2)
    return rs.map (·.1)
  | 0xE => do
    let f := (fmtOfCode (s.ctl % 16)).getD .w16
    mapMat r0 c0 m fun _ _ x => do
      let (v, w) := limitFloat f cx.subn cx.ovf x
      Tl.ev (·.write false w)
      toIfmt cx s.ifmt v
  | _ => return m

/-- Stages in order. -/
def evalStages (cx : Cx) (r0 c0 : Nat) : List (Nat × Stage) → Mat → Tl Mat
  | [], m => pure m
  | (i, s) :: t, m => do evalStages cx r0 c0 t (← evalStage cx r0 c0 i s m)

end Sys2Proof.Machine
end

