-- ==== Sys2Proof/Machine/Ieee.lean ====
section
/-! DEFINITION. IEEE 754-2019 binary32 and binary64 arithmetic of the harvest engines and salter vector units
(spec/02_number_formats.md R46, R49, R51, R55; spec/09_harvest_programs.md R254-R256). -/

namespace Sys2Proof.Machine

/-- The five IEEE flags (R55, R266). -/
structure IFlags where
  nv : Bool := false
  dz : Bool := false
  ofl : Bool := false
  ufl : Bool := false
  nx : Bool := false
deriving DecidableEq, Repr

def IFlags.or (a b : IFlags) : IFlags :=
  ⟨a.nv || b.nv, a.dz || b.dz, a.ofl || b.ofl, a.ufl || b.ufl, a.nx || b.nx⟩

def flNone : IFlags := {}
def flNv : IFlags := { nv := true }
def flDz : IFlags := { dz := true }

/-- An IEEE datum: the sign of a number is kept beside its value, so that −0 is kept (R46). -/
inductive FVal where
  | nan (sig : Bool)
  | inf (neg : Bool)
  | num (neg : Bool) (q : Q)
deriving DecidableEq, Repr

def sp32 : FSpec := ⟨8, 23, 127⟩
def sp64 : FSpec := ⟨11, 52, 1023⟩

def FSpec.width (s : FSpec) : Nat := 1 + s.eb + s.p
def FSpec.signBit (s : FSpec) : Nat := 2 ^ (s.eb + s.p)
def FSpec.infBits (s : FSpec) : Nat := (2 ^ s.eb - 1) * 2 ^ s.p
/-- The canonical quiet NaN (R46). -/
def FSpec.qnan (s : FSpec) : Nat := s.infBits + 2 ^ (s.p - 1)
def FSpec.maxQ (s : FSpec) : Q := finValue s (s.infBits - 1)

def unpack (s : FSpec) (n : Nat) : FVal :=
  let f := n % 2 ^ s.p
  let e := n / 2 ^ s.p % 2 ^ s.eb
  let neg : Bool := n / s.signBit % 2 == 1
  if e = 2 ^ s.eb - 1 then (if f = 0 then .inf neg else .nan (f < 2 ^ (s.p - 1)))
  else .num neg (finValue s n)

def packInf (s : FSpec) (neg : Bool) : Nat := s.infBits + (if neg then s.signBit else 0)
def packZero (s : FSpec) (neg : Bool) : Nat := if neg then s.signBit else 0

/-- The overflow result of a rounding direction (R55). -/
def overflowBits (s : FSpec) (m : Rm) (neg : Bool) : Nat :=
  let mx := s.infBits - 1 + (if neg then s.signBit else 0)
  match m with
  | .rne | .rna => packInf s neg
  | .rtz | .rto => mx
  | .rup => if neg then mx else packInf s neg
  | .rdn => if neg then packInf s neg else mx

/-- Rounds an exact value into the format and raises overflow, underflow (tininess after rounding) and
inexact; a zero takes the sign given (R55). -/
def roundPack (s : FSpec) (m : Rm) (zneg : Bool) (q : Q) : Nat × IFlags :=
  if qisZero q then (packZero s zneg, flNone) else
  let neg := qneg? q
  let r := roundGrid m s.p s.emin q
  if qlt s.maxQ (qabs r) then (overflowBits s m neg, { ofl := true, nx := true }) else
  let exact := qeq r q
  let tiny := qlt (qabs (roundGrid m s.p (min (qlog2 q) s.emin) q)) (qpow2 s.emin)
  let body := if qisZero r then packZero s neg else encodeFin s r
  (body, { nx := !exact, ufl := tiny && !exact })

def anyNan (a b : FVal) : Bool :=
  match a, b with
  | .nan _, _ => true
  | _, .nan _ => true
  | _, _ => false

def isSig : FVal → Bool
  | .nan g => g
  | _ => false

def nanRes (s : FSpec) (sig : Bool) : Nat × IFlags := (s.qnan, { nv := sig })

def invalidRes (s : FSpec) : Nat × IFlags := (s.qnan, flNv)

/-- The sign of an exact zero sum (R46). -/
def zeroSumSign (m : Rm) (a b : Bool) : Bool := if a == b then a else m == .rdn

def fadd (s : FSpec) (m : Rm) (x y : Nat) : Nat × IFlags :=
  let a := unpack s x
  let b := unpack s y
  match a, b with
  | .nan _, _ => nanRes s (isSig a || isSig b)
  | _, .nan _ => nanRes s (isSig a || isSig b)
  | .inf p, .inf q => if p == q then (packInf s p, flNone) else invalidRes s
  | .inf p, _ => (packInf s p, flNone)
  | _, .inf q => (packInf s q, flNone)
  | .num p u, .num q v =>
    let zs := if qisZero u && qisZero v then zeroSumSign m p q else m == .rdn
    roundPack s m zs (qadd u v)

/-- A pattern with its sign bit flipped. -/
def flipSign (s : FSpec) (x : Nat) : Nat :=
  if x / s.signBit % 2 = 1 then x - s.signBit else x + s.signBit

def fsub (s : FSpec) (m : Rm) (x y : Nat) : Nat × IFlags := fadd s m x (flipSign s y)

def fmul (s : FSpec) (m : Rm) (x y : Nat) : Nat × IFlags :=
  let a := unpack s x
  let b := unpack s y
  match a, b with
  | .nan _, _ => nanRes s (isSig a || isSig b)
  | _, .nan _ => nanRes s (isSig a || isSig b)
  | .inf p, .inf q => (packInf s (p != q), flNone)
  | .inf p, .num q v => if qisZero v then invalidRes s else (packInf s (p != q), flNone)
  | .num p u, .inf q => if qisZero u then invalidRes s else (packInf s (p != q), flNone)
  | .num p u, .num q v => roundPack s m (p != q) (qmul u v)

def fdiv (s : FSpec) (m : Rm) (x y : Nat) : Nat × IFlags :=
  let a := unpack s x
  let b := unpack s y
  match a, b with
  | .nan _, _ => nanRes s (isSig a || isSig b)
  | _, .nan _ => nanRes s (isSig a || isSig b)
  | .inf _, .inf _ => invalidRes s
  | .inf p, .num q _ => (packInf s (p != q), flNone)
  | .num p _, .inf q => (packZero s (p != q), flNone)
  | .num p u, .num q v =>
    if qisZero v then (if qisZero u then invalidRes s else (packInf s (p != q), flDz))
    else roundPack s m (p != q) (qdiv u v)

/-- A × B + C with one rounding; a zero times an infinity is invalid whatever the addend (R255). -/
def ffma (s : FSpec) (m : Rm) (x y z : Nat) : Nat × IFlags :=
  let a := unpack s x
  let b := unpack s y
  let c := unpack s z
  let zi := match a, b with
    | .inf _, .num _ v => qisZero v
    | .num _ u, .inf _ => qisZero u
    | _, _ => false
  if zi then invalidRes s else
  if anyNan a b || anyNan c c then nanRes s (isSig a || isSig b || isSig c) else
  let sg : FVal → Bool := fun v => match v with
    | .nan _ => false
    | .inf n => n
    | .num n _ => n
  let pn := sg a != sg b
  match a, b, c with
  | .num _ u, .num _ v, .num cn w =>
    let p := qmul u v
    let zs := if qisZero p && qisZero w then zeroSumSign m pn cn else m == .rdn
    roundPack s m zs (qadd p w)
  | .num _ _, .num _ _, .inf cn => (packInf s cn, flNone)
  | _, _, .inf cn => if pn == cn then (packInf s cn, flNone) else invalidRes s
  | _, _, _ => (packInf s pn, flNone)

/-- D = −(A × B) + C (R254). -/
def ffnma (s : FSpec) (m : Rm) (x y z : Nat) : Nat × IFlags := ffma s m (flipSign s x) y z

def fsqrt (s : FSpec) (m : Rm) (x : Nat) : Nat × IFlags :=
  match unpack s x with
  | .nan g => nanRes s g
  | .inf n => if n then invalidRes s else (packInf s false, flNone)
  | .num n q =>
    if qisZero q then (packZero s n, flNone)
    else if n then invalidRes s
    else roundPack s m false (qsqrtSticky q ((qlog2 q).fdiv 2 - s.p - 1))

/-- rSqrt, correctly rounded: 1 ÷ √x = √(1 ÷ x) (R254). -/
def frsqrt (s : FSpec) (m : Rm) (x : Nat) : Nat × IFlags :=
  match unpack s x with
  | .nan g => nanRes s g
  | .inf n => if n then invalidRes s else (packZero s false, flNone)
  | .num n q =>
    if qisZero q then (packInf s n, flDz)
    else if n then invalidRes s
    else
      let r := qdiv qone q
      roundPack s m false (qsqrtSticky r ((qlog2 r).fdiv 2 - s.p - 2))

/-- roundToIntegralExact (R254). -/
def frint (s : FSpec) (m : Rm) (x : Nat) : Nat × IFlags :=
  match unpack s x with
  | .nan g => nanRes s g
  | .inf n => (packInf s n, flNone)
  | .num n q =>
    let r := qofInt (roundInt m q)
    let body := if qisZero r then packZero s n else encodeFin s r
    (body, { nx := !qeq r q })

def fnextUp (s : FSpec) (x : Nat) : Nat × IFlags :=
  match unpack s x with
  | .nan g => nanRes s g
  | .inf n => if n then (s.signBit + s.infBits - 1, flNone) else (packInf s false, flNone)
  | .num n q =>
    if qisZero q then (1, flNone)
    else if n then (if x = s.signBit + 1 then packZero s true else x - 1, flNone)
    else (x + 1, flNone)

def fnextDown (s : FSpec) (x : Nat) : Nat × IFlags :=
  match unpack s x with
  | .nan g => nanRes s g
  | _ => let (r, f) := fnextUp s (flipSign s x); (flipSign s r, f)

/-- logB as a value of the operand's format (R254). -/
def flogb (s : FSpec) (x : Nat) : Nat × IFlags :=
  match unpack s x with
  | .nan g => nanRes s g
  | .inf _ => (packInf s false, flNone)
  | .num _ q =>
    if qisZero q then (packInf s true, flDz)
    else roundPack s .rne false (qofInt (qlog2 q))

/-- The class code of R254. -/
def fclass (s : FSpec) (x : Nat) : Nat :=
  let sub : Q → Bool := fun q => qlt (qabs q) (qpow2 s.emin)
  match unpack s x with
  | .nan g => if g then 0 else 1
  | .inf n => if n then 2 else 9
  | .num n q =>
    if qisZero q then (if n then 5 else 6)
    else if n then (if sub q then 4 else 3)
    else (if sub q then 7 else 8)

/-- Whether a number comes strictly before another, −0 below +0 (for minimum and maximum). -/
def fbelow : FVal → FVal → Bool
  | .inf p, .inf q => p && !q
  | .inf p, .num _ _ => p
  | .num _ _, .inf q => !q
  | .num p u, .num q v => if qisZero u && qisZero v then p && !q else qlt u v
  | _, _ => false

/-- minimum and maximum, NaN-propagating (R254). -/
def fminmax (mx : Bool) (s : FSpec) (x y : Nat) : Nat × IFlags :=
  let a := unpack s x
  let b := unpack s y
  if anyNan a b then nanRes s (isSig a || isSig b)
  else if mx then (if fbelow a b then y else x, flNone)
  else (if fbelow b a then y else x, flNone)

/-- minimumNumber and maximumNumber (R254). -/
def fminmaxNum (mx : Bool) (s : FSpec) (x y : Nat) : Nat × IFlags :=
  let a := unpack s x
  let b := unpack s y
  let fl : IFlags := { nv := isSig a || isSig b }
  match a, b with
  | .nan _, .nan _ => (s.qnan, fl)
  | .nan _, _ => (y, fl)
  | _, .nan _ => (x, fl)
  | _, _ => fminmax mx s x y

/-- IEEE remainder (R254). -/
def frem (s : FSpec) (x y : Nat) : Nat × IFlags :=
  let a := unpack s x
  let b := unpack s y
  match a, b with
  | .nan _, _ => nanRes s (isSig a || isSig b)
  | _, .nan _ => nanRes s (isSig a || isSig b)
  | .inf _, _ => invalidRes s
  | .num _ _, .inf _ => (x, flNone)
  | .num p u, .num _ v =>
    if qisZero v then invalidRes s
    else roundPack s .rne p (qsub u (qmul v (qofInt (roundInt .rne (qdiv u v)))))

def fcopySign (s : FSpec) (x y : Nat) : Nat :=
  x % s.signBit + (if y / s.signBit % 2 = 1 then s.signBit else 0)

/-- scaleB with an integer exponent; the exponent is limited where the result is beyond every rounding. -/
def fscaleb (s : FSpec) (m : Rm) (x : Nat) (n : Int) : Nat × IFlags :=
  match unpack s x with
  | .nan g => nanRes s g
  | .inf p => (packInf s p, flNone)
  | .num p q => roundPack s m p (qmul q (qpow2 (max (-5000) (min 5000 n))))

/-- The orderings of totalOrder: sign-magnitude order of the patterns (R256). -/
def totalKey (s : FSpec) (x : Nat) : Int :=
  let a := x % s.signBit
  if x / s.signBit % 2 = 1 then -(a : Int) - 1 else a

/-- FCMP condition codes (R254); reserved codes answer false. -/
def fcmp (s : FSpec) (code x y : Nat) : Bool × IFlags :=
  let a := unpack s x
  let b := unpack s y
  let un := anyNan a b
  let quiet : IFlags := { nv := isSig a || isSig b }
  let sig : IFlags := { nv := un }
  let lt : FVal → FVal → Bool := fun p q => match p, q with
    | .num _ u, .num _ v => qlt u v
    | u, v => fbelow u v
  let eq := !un && !lt a b && !lt b a
  match code with
  | 0 => (eq, quiet)
  | 1 => (!eq, quiet)
  | 2 => (!un && lt a b, quiet)
  | 3 => (!un && !lt b a, quiet)
  | 4 => (!un && lt a b, sig)
  | 5 => (!un && !lt b a, sig)
  | 6 => (un, quiet)
  | 7 => (!un, quiet)
  | 8 => (totalKey s x ≤ totalKey s y, flNone)
  | 9 => (x % s.signBit ≤ y % s.signBit, flNone)
  | _ => (false, flNone)

/-- Conversion between the two formats, one rounding. -/
def fconv (s t : FSpec) (m : Rm) (x : Nat) : Nat × IFlags :=
  match unpack s x with
  | .nan g => nanRes t g
  | .inf n => (packInf t n, flNone)
  | .num n q => roundPack t m n q

/-- Integer to float. -/
def fofInt (t : FSpec) (m : Rm) (i : Int) : Nat × IFlags := roundPack t m false (qofInt i)

/-- Float to a 32-bit integer: invalid for NaN (result 0) and for values out of range (the nearest
representable integer); never inexact (R255). -/
def ftoInt (s : FSpec) (m : Rm) (signed : Bool) (x : Nat) : Nat × IFlags :=
  let lo : Int := if signed then -(2 ^ 31) else 0
  let hi : Int := if signed then 2 ^ 31 - 1 else 2 ^ 32 - 1
  match unpack s x with
  | .nan _ => (0, flNv)
  | .inf n => (wrapTo 32 (if n then lo else hi), flNv)
  | .num _ q =>
    let i := roundInt m q
    if i < lo then (wrapTo 32 lo, flNv)
    else if i > hi then (wrapTo 32 hi, flNv)
    else (wrapTo 32 i, flNone)

/-- CVT codes 0x0A to 0x0C: an FP32 value on the grid of W16, E4M3 or E5M2 (R255). -/
def fgrid (t : Fmt) (m : Rm) (x : Nat) : Nat × IFlags :=
  let s := t.spec
  let top : Nat := if t == .e4m3 then encodeFin sp32 (qofInt 480) else sp32.infBits
  let sgn : Bool → Nat := fun n => if n then sp32.signBit else 0
  match unpack sp32 x with
  | .nan g => nanRes sp32 g
  | .inf n => (top + sgn n, flNone)
  | .num n q =>
    if qisZero q then (x, flNone) else
    let r := roundGrid m s.p s.emin q
    if qlt t.maxFin (qabs r) then
      let toInf := match m with
        | .rne | .rna => true
        | .rtz | .rto => false
        | .rup => !n
        | .rdn => n
      let mx := encodeFin sp32 t.maxFin
      ((if toInf then top else mx) + sgn n, { ofl := true, nx := true })
    else
      let exact := qeq r q
      let tiny := qlt (qabs (roundGrid m s.p (min (qlog2 q) s.emin) q)) (qpow2 s.emin)
      ((if qisZero r then sgn n else encodeFin sp32 r), { nx := !exact, ufl := tiny && !exact })

end Sys2Proof.Machine
end

