-- ==== Sys2Proof/Machine/Operands.lean ====
section
/-! DEFINITION. Operand forms of the vector instructions and the bittern pair (spec/09_harvest_programs.md R248 to
R252, R263, R264). -/

namespace Sys2Proof.Machine

/-! ### The bittern (R263, R264) -/

/-- ulp(w) of a W16 value. -/
def ulpW (q : Q) : Q := if qisZero q then qpow2 (-133) else qpow2 (max (qlog2 q) (-126) - 7)

/-- The integer B of BMRG from an FP32 pattern: rounded RNE and limited; none for NaN. -/
def bitternInt (b : Nat) : Option Int :=
  match unpack sp32 b with
  | .nan _ => none
  | .inf n => some (if n then -128 else 127)
  | .num _ q => some (max (-128) (min 127 (roundInt .rne q)))

/-- w + b × ulp(w) ÷ 256. -/
def bitternSum (w : Q) (b : Int) : Q := qadd w (qmul (qofInt b) (qmul (ulpW w) ⟨1, 256⟩))

/-- BMRG on FP32 patterns. A sum that FP32 does not hold arises only from an A off the W16 grid; it is left open. -/
def bmrgOp (a b : Nat) : Nat :=
  match unpack sp32 a with
  | .nan _ => a
  | .inf _ => a
  | .num _ w =>
    match bitternInt b with
    | none => sp32.qnan
    | some i =>
      let q := bitternSum w i
      let r := roundGrid .rne 23 (-126) q
      if qisZero q then 0
      else if qeq r q && !qlt sp32.maxQ (qabs q) then encodeFin sp32 q
      else (Config.bmrgFree (BitVec.ofNat 32 a) (BitVec.ofNat 32 b)).toNat

/-- BSPL of an FP32 pattern: w and b as FP32 patterns, and whether overflow is raised. -/
def bsplOp (x : Nat) : Nat × Nat × Bool :=
  match unpack sp32 x with
  | .nan _ => (sp32.qnan, 0, false)
  | .inf n => (packInf sp32 n, 0, false)
  | .num neg q =>
    if qisZero q then (packZero sp32 neg, 0, false)
    else
      let u := ulpW q
      let w := qmul (qofInt (qfloor (qadd (qdiv q u) ⟨1, 2⟩))) u
      if qlt (Fmt.maxFin .w16) (qabs w) then (packInf sp32 neg, 0, true)
      else
        let b := min 127 (roundInt .rne (qdiv (qmul (qsub q w) (qofInt 256)) (ulpW w)))
        ((if qisZero w then packZero sp32 neg else encodeFin sp32 w), encodeFin sp32 (qofInt b), false)

/-! ### Vector registers (R251) -/

/-- A 32-bit vector register of a lane. -/
def VecUnit.rd {L : Nat} (u : VecUnit L) (r : Fin 32) (l : Fin L) : Nat := (vget (vget u.v r) l).toNat

/-- The register of a pair that follows an even one. -/
def nextReg (r : Fin 32) : Fin 32 := ⟨(r.1 + 1) % 32, by omega⟩

/-- An FP64 pair of a lane. -/
def VecUnit.rd2 {L : Nat} (u : VecUnit L) (r : Fin 32) (l : Fin L) : Nat := u.rd r l + 2 ^ 32 * u.rd (nextReg r) l

/-- A scalar operand, broadcast. -/
def VecUnit.sc {L : Nat} (u : VecUnit L) (r : Fin 32) : Nat := (vget u.s r).toNat
def VecUnit.sc2 {L : Nat} (u : VecUnit L) (r : Fin 32) : Nat := u.sc r + 2 ^ 32 * u.sc (nextReg r)

/-- Writes a register in one lane. -/
def VecUnit.wr {L : Nat} (u : VecUnit L) (r : Fin 32) (l : Fin L) (x : Nat) : VecUnit L :=
  { u with v := vmod u.v r fun v => vset v l (BitVec.ofNat 32 x) }

def VecUnit.wr2 {L : Nat} (u : VecUnit L) (r : Fin 32) (l : Fin L) (x : Nat) : VecUnit L :=
  (u.wr r l (x % 2 ^ 32)).wr (nextReg r) l (x / 2 ^ 32)

/-- A predicate bit of a lane. -/
def VecUnit.pr {L : Nat} (u : VecUnit L) (p : Fin 8) (l : Fin L) : Bool := bit (vget u.p p) l.1

def VecUnit.wrp {L : Nat} (u : VecUnit L) (p : Fin 8) (l : Fin L) (b : Bool) : VecUnit L :=
  { u with p := vmod u.p p fun x => setBit x l.1 b }

/-- A lane acts under p0 and the guard (R249). -/
def VecUnit.acts {L : Nat} (u : VecUnit L) (pg : Fin 8) (l : Fin L) : Bool := u.pr 0 l && u.pr pg l

/-- The low three bits of a register field as a predicate number. -/
def predOf (r : Fin 32) : Fin 8 := ⟨r.1 % 8, by omega⟩

/-- The rounding direction in force. -/
def VecUnit.rm {L : Nat} (u : VecUnit L) : Rm := (rmOfCode u.frm.toNat).getD .rne

/-! ### Operands of an instruction word (R252) -/

/-- Operand A, B or C of the FP32 forms, with SB and SC. -/
def opA {L : Nat} (u : VecUnit L) (w : VFields) (l : Fin L) : Nat := u.rd w.a l
def opB {L : Nat} (u : VecUnit L) (w : VFields) (l : Fin L) : Nat := if bit w.m 0 then u.sc w.b else u.rd w.b l
def opC {L : Nat} (u : VecUnit L) (w : VFields) (l : Fin L) : Nat := if bit w.m 1 then u.sc w.c else u.rd w.c l

/-- The same of the FP64 forms. -/
def opA2 {L : Nat} (u : VecUnit L) (w : VFields) (l : Fin L) : Nat := u.rd2 w.a l
def opB2 {L : Nat} (u : VecUnit L) (w : VFields) (l : Fin L) : Nat := if bit w.m 0 then u.sc2 w.b else u.rd2 w.b l
def opC2 {L : Nat} (u : VecUnit L) (w : VFields) (l : Fin L) : Nat := if bit w.m 1 then u.sc2 w.c else u.rd2 w.c l

end Sys2Proof.Machine
end

