-- ==== Sys2Proof/Machine/Flags.lean ====
section
/-! DEFINITION. The IEEE flags of the vector units and the accumulators of BSPL (spec/09_harvest_programs.md R255, R265,
R266). -/

namespace Sys2Proof.Machine

/-- Flags that an operation raised, taken into a page's sticky register (R266). -/
def FlagReg.raise (r : FlagReg) (f : IFlags) : FlagReg :=
  { nv := r.nv || f.nv, dz := r.dz || f.dz, of := r.of || f.ofl, uf := r.uf || f.ufl, nx := r.nx || f.nx }

/-- FP64 addition, subtraction and multiplication by RNE, without flags. -/
def add64 (x y : Nat) : Nat := (fadd sp64 .rne x y).1
def sub64 (x y : Nat) : Nat := (fsub sp64 .rne x y).1
def mul64 (x y : Nat) : Nat := (fmul sp64 .rne x y).1
/-- An FP32 pattern as FP64. -/
def to64 (x : Nat) : Nat := (fconv sp32 sp64 .rne x).1

/-- The counts of R265 for one lane: x, the old weight B, the old merged value C and w, all FP32 patterns. -/
def JobRec.bspl (r : JobRec) (x b c w : Nat) : JobRec :=
  let same := (fcmp sp32 0 w b).1
  let kept := (fcmp sp32 0 x c).1
  let d := sub64 (to64 x) (to64 c)
  { r with
    absorb := r.absorb + b2n (same && !kept), carry := r.carry + b2n (!same)
    dw2 := BitVec.ofNat 64 (add64 r.dw2.toNat (mul64 d d))
    w2 := BitVec.ofNat 64 (add64 r.w2.toNat (mul64 (to64 x) (to64 x))) }

end Sys2Proof.Machine
end

