-- ==== Sys2Proof/Machine/Landing.lean ====
section
/-! DEFINITION. Landing gradients, the holding pond and READY (spec/10_optimiser_state.md R283 to R286, R296 to R299;
spec/11 R301, R315). -/

namespace Sys2Proof.Machine

/-- The OWNER shard whose gradient tensor's extent holds an address; the lowest index first. -/
def gradShardOf (s : State) (a : Nat) : Option Nat :=
  (s.shard.find? fun (_, h) => h.srec.role = 1 ∧ h.gd.base ≤ a ∧ a < h.gd.base + h.gd.extent s).map (·.1)

/-- The step number the instance expects next from the verdict unit (R286, R302). -/
def nextStep (s : State) : W32 := if s.vrd.regs.sent then s.vrd.regs.vstep + 1 else s.vrd.regs.vstep

/-- The place in the order of READY shards that the next one takes. -/
def nextReadyNo (s : State) : Nat := s.shard.foldl (fun m x => max m (x.2.readyNo + 1)) 0

/-- A shard whose micro-steps have landed becomes READY (R286). -/
def readyCheck (s : State) (i : Nat) : State :=
  let h := shardOf s i
  if !h.ready && !h.run && !h.pend && !h.badrec && decide (h.srec.msteps ≤ h.msf.toNat) && (!h.srec.slow || h.staged) then
    modShard s i fun h => { h with ready := true, jstep := nextStep s, readyNo := nextReadyNo s }
  else s

/-- A landing counted (R283). -/
def countLanding (s : State) (i : Nat) : State :=
  let s := modShard s i fun h =>
    if h.gcnt + 1 = h.gexp then { h with gcnt := 0, msf := h.msf + 1 } else { h with gcnt := h.gcnt + 1 }
  readyCheck s i

/-- The place of an address in a gradient tensor: row and group. -/
def gradPlace (d : Desc) (a : Nat) : Nat × Nat :=
  let o := a - d.base
  (o / d.rowstride, o % d.rowstride / (if d.isPlain then d.g * d.w / 8 else d.slot))

/-- The elements of a landed cake or group: positions with their values before the coarse scale. A malformed cake gives
NaN at every position. -/
def landedEls (s : State) (d : Desc) (j : Nat) (bs : List Byte) : List (Nat × XVal) :=
  let cb := if d.format.isCb then codebookCopy s d.cbslot else []
  let ol := if d.nout = 0 then [] else (outlierList d (memBytes s.host (hostAddr s d.side) 256)).getD []
  let o : Opnd := { d := d, cb := cb, ol := ol }
  if d.isPlain then
    let w := d.w / 8
    (List.range (bs.length / w)).map fun p => (p, floatValue d.format (leAt bs (p * w) w))
  else
    let n := if d.masked then byteAt bs 2 else 0
    match decodeCake o j (if d.masked then bs.take (d.maskedSize n) else bs) with
    | some (g, _) => g.els.zipIdx.filterMap fun (e, p) => e.map fun e => (p, e.exact)
    | none => (List.range d.g).map fun p => (p, .nan)

/-- R315: any value other than +0. -/
def landedNonzero (els : List (Nat × XVal)) : Bool := els.any fun e => !e.2.isZero

/-! ### Holding pond (R296, R297) -/

/-- Reservoir offset of a pond page. -/
def pondOff (page : Nat) : Nat := 0x2000000 + 4096 * page

/-- Pond pages a shard needs (R292). -/
def Shard.pages (h : Shard) : Nat := (h.nel.toNat + 1343) / 1344

/-- Free pond pages, lowest first. -/
def pondFree (s : State) : List Nat := (List.range s.glb.pondPages.toNat).filter fun p => !(s.pond.any fun x => x.1 = p)

/-- A shard's pages allocated at once, with their headers. -/
def pondAlloc (s : State) (i : Nat) : State :=
  let h := shardOf s i
  let n := h.pages
  let ps := (pondFree s).take n
  let s := ps.zipIdx.foldl (fun s (p, k) =>
    resPut s (pondOff p) (leBytes 2 i ++ leBytes 2 k ++ leBytes 4 (1344 * k)
      ++ leBytes 2 (min 1344 (h.nel.toNat - 1344 * k)))) s
  let s := { s with pond := s.pond ++ ps.zipIdx.map fun (p, k) => (p, i, k) }
  let no := s.shard.foldl (fun m x => max m ((x.2.pgWait.getD 0) + 1)) 1
  modShard s i fun h => { h with pgs := BitVec.ofNat 32 n, pgWait := some no }

/-- The pond pages of a shard freed (R299). -/
def pondFreeShard (s : State) (i : Nat) : State :=
  modShard { s with pond := s.pond.filter fun x => x.2.1 ≠ i } i fun h => { h with pgs := 0 }

/-- Offsets of an element's W16 and INT8 entries. -/
def pondEntry (s : State) (i e : Nat) : Option (Nat × Nat) :=
  (s.pond.find? fun x => x.2.1 = i ∧ x.2.2 = e / 1344).map fun x =>
    (pondOff x.1 + 64 + 2 * (e % 1344), pondOff x.1 + 2752 + e % 1344)

/-- The FP32 value an entry represents. -/
def pondValue (s : State) (o : Nat × Nat) : Nat :=
  let w := leNat (resBytes s o.1 2) * 65536
  bmrgOp w (encodeFin sp32 (qofInt (signedOf 8 (leNat (resBytes s o.2 1)))))

/-- FP32 by RNE of an extended real. -/
def rne32 (x : XVal) : Nat :=
  match x with
  | .nan => sp32.qnan
  | .inf n => packInf sp32 n
  | .fin q => (roundPack sp32 .rne false q).1

/-- The extended real of an FP32 pattern. -/
def val32 (n : Nat) : XVal := floatValue .fp32 n

/-- One element folded into its entry (R297). -/
def pondFold (s : State) (i e : Nat) (first : Bool) (g : XVal) : State :=
  match pondEntry s i e with
  | none => s
  | some o =>
    let x := if first then rne32 g else rne32 (xadd (val32 (pondValue s o)) g).1
    let (w, b, _) := bsplOp x
    resPut (resPut s o.1 (leBytes 2 (w / 65536))) o.2 (leBytes 1 (wrapTo 8 (roundInt .rne (match val32 b with
      | .fin q => q
      | _ => qzero))))

/-! ### Landing (R283 to R285, R297) -/

/-- Whether a shard's job keeps its gradients unwritten (R285). -/
def Shard.jobHolds (h : Shard) : Bool := h.ready || h.run || h.pend

/-- Whether a landing that came as the `no`-th must be kept unwritten: its shard's job holds it (R285), it waits for pond
pages, or it comes behind one of its shard, or of the slow tier at the pond, that waits (R297). -/
def landWaitsAt (s : State) (i no : Nat) : Bool :=
  let h := shardOf s i
  let before := fun (x : Shard) => x.held.any fun g => decide (g.no < no)
  h.jobHolds || before h
    || (h.srec.slow && ((h.pgs = 0 && decide ((pondFree s).length < h.pages))
      || s.shard.any fun x => x.2.srec.slow && !x.2.jobHolds && before x.2))

/-- The place of the next held gradient. -/
def nextHeldNo (s : State) : Nat := s.shard.foldl (fun m x => x.2.held.foldl (fun m g => max m (g.no + 1)) m) 0

/-- Whether a landing that comes now waits. -/
def landWaits (s : State) (i : Nat) : Bool := landWaitsAt s i (nextHeldNo s)

/-- C × value. -/
def landScale (c : Q) : XVal → XVal
  | .fin q => .fin (qmul q c)
  | y => y

/-- What the landing of a written cake or group does: a slow-tier shard folds it into the pond; GNZ is noted; it counts. -/
def landCount (s : State) (i addr : Nat) (bs : List Byte) : State :=
  let h := shardOf s i
  let d := h.gd
  let (r, j) := gradPlace d addr
  let els := landedEls s d j bs
  let s := if landedNonzero els then modSal s h.srec.lslot fun x => { x with gnz := true } else s
  if h.srec.slow then
    let s := if h.pgs = 0 then pondAlloc s i else s
    let first := h.msf = 0
    countLanding (els.foldl (fun s (p, v) => pondFold s i (r * d.klen + j * d.g + p) first (landScale d.c v)) s) i
  else countLanding s i

/-- The bytes of a landing written to their address; those of a slow-tier shard go nowhere but the pond. -/
def landWrite (s : State) (i addr : Nat) (bs : List Byte) : Bool × State :=
  if (shardOf s i).srec.slow then (true, s) else wrHost s addr bs

/-- A cake or group that lands now: whether its write was answered without an error; `p` is the page that records one. -/
def landNow (s : State) (p : PageId) (i addr : Nat) (bs : List Byte) : Bool × State :=
  let (ok, s) := landWrite s i addr bs
  (ok, if ok then landCount s i addr bs else recordErr s p { cause := cBrine, addr := some addr, row := i })

/-- A link by its number. -/
def linkOf (k : Nat) : Fin 8 := ⟨k % 8, Nat.mod_lt _ (by decide)⟩

/-- A gradient cake or group reaches its owner: it lands, or is kept with its source. False where its write failed. -/
def landGrad (s : State) (p : PageId) (i addr : Nat) (bs : List Byte) (src : Option (Nat × Nat × Nat)) : Bool × State :=
  if landWaits s i then
    (true, modShard s i fun h => { h with held := h.held ++ [{ no := nextHeldNo s, addr := addr, bytes := bs, src := src }] })
  else landNow s p i addr bs

/-- The effects of an accepted frame are complete: it leaves the unacknowledged receptions of its pair. -/
def frameDone (s : State) (peer cls ext : Nat) : State :=
  let f := fun (p : Pair) => { p with rxWait := p.rxWait.filter (· ≠ ext), dirty := true }
  if (pairOf s true peer cls).rxWait.contains ext then modPair s true peer cls f else modPair s false peer cls f

/-- A WRITE frame is done with its last piece: an error of its writes is reported to its sender (R337). -/
def landedFrame (s : State) (peer ext : Nat) (ok : Bool) : State :=
  let adp := (pairOf s true peer 2).rxWait.contains ext
  let s := frameDone s peer 2 ext
  if ok then s else sendNack s adp peer 2 4 ext

/-- Held landings, those that may land now; structural on the list. -/
def landQueue : List (Nat × HeldGrad) → State → State
  | [], s => s
  | (i, g) :: t, s =>
    if landWaitsAt s i g.no then landQueue t s
    else
      let s := modShard s i fun h => { h with held := h.held.filter (·.no ≠ g.no) }
      match g.src with
      | some (k, peer, ext) =>
        let (ok, s) := landNow s (.lnk (linkOf k)) i g.addr g.bytes
        landQueue t (landedFrame s peer ext ok)
      | none => landQueue t (landNow s .glb i g.addr g.bytes).2

/-- Held landings of every shard, in the order they came, as far as they may land. -/
def landHeld (s : State) : State :=
  landQueue (sortBy (fun a b : Nat × HeldGrad => decide (a.2.no < b.2.no)) ((s.shard.map fun x => x.2.held.map (x.1, ·)).flatten)) s

/-- GRADIENT_LAND (R283): a gradient cake or group lands at its owner. Bytes outside every OWNER gradient extent are no
gradient. -/
def execGradientLand (addr : W64) (bytes : List Byte) (bad : List Nat) (s : State) : Host.Outcome State Fault Refusal :=
  .next (command bad s fun s =>
    match gradShardOf s addr.toNat with
    | some i => (landGrad s .glb i addr.toNat bytes none).2
    | none => s)

end Sys2Proof.Machine
end

