-- ==== Sys2Proof/Machine/Port.lean ====
section
/-! DEFINITION. The control port: which pages answer, the responses, dropped writes (spec/16_ports_and_bring_up.md R436
to R438, spec/17_register_conventions.md R463, R464), and the waking of pans (spec/14 R396). -/

namespace Sys2Proof.Machine

/-- How the control port meets a request (R438): not taken at all, answered with ERROR, or passed on. -/
inductive Reach where
  | dead | error | ok
  deriving DecidableEq, Repr

/-- Whether a page answers in the present stage and power state (R390, R414, R438). `none` stands for the reservoir. -/
def reach (s : State) (p : Option PageId) : Reach :=
  if s.pins.rstLow || s.pwr.pstate = .off || s.wrap.taken then .dead
  else if p = some .pwr then .ok
  else if s.pwr.pstate = .retain || decide (s.glb.bstage.toNat < 3) then .error
  else if p = some .glb || p = some .sec || decide (5 ≤ s.glb.bstage.toNat) then .ok
  else .error

/-- A control port request (R437): dropped with ERROR where the page does not answer or the control decoder's copies
disagree (R368), else its effect, answered OK unless the effect answers otherwise. -/
def cpDo (s : State) (p : Option PageId) (f : State → State) : State :=
  match reach s p with
  | .dead => s
  | .error => answer s cpError
  | .ok =>
    if corruptArmed s .glb cLockstep then answer (recordErr s .glb { cause := cLockstep, inj := true }) cpError
    else f (answer s cpOk)

/-- A control port write to a page, as the outcome of its command. -/
def cpWrite (s : State) (p : PageId) (f : State → State) : Host.Outcome State Fault Refusal := .next (cpDo s (some p) f)

/-! ### Waking pans (R396) -/

def wakingCount (s : State) : Nat := ((List.finRange 64).filter fun p => (pn s p).pwr == .waking).length

/-- A GATED pan starts to wake; at most four wake at once. -/
def wakePan (s : State) (p : Fin 64) : State :=
  if (pn s p).pwr = .gated && decide (wakingCount s < 4) && s.pwr.pstate = .active then
    modPan s p fun x => { x with pwr := .waking }
  else s

/-- Whether a logical pan has work for its physical pan: held work or orders to fetch. -/
def hasWork (s : State) (l : Fin 60) : Bool :=
  let x := lp s l
  x.holdsWork || (x.qen && decide (x.fetchN ≠ x.wqPi) && !x.fetchStop)

/-- Work has reached a logical pan (R396). -/
def wakeLogical (s : State) (l : Fin 60) : State :=
  match physOf s l with
  | some p => if hasWork s l then wakePan s p else s
  | none => s

/-- The wakes that wait for one of the four: spares, wear rotation, logical pans in ascending order, tests. -/
def serveWakes (s : State) : State :=
  let s := (List.finRange 64).foldl (fun s p => if (pn s p).wakeFor.isSome then wakePan s p else s) s
  let s := match s.wear with
    | some w => wakePan s w.rsv
    | none => s
  let s := (List.finRange 60).foldl wakeLogical s
  (List.finRange 64).foldl (fun s p => if s.tst.tests.any (·.unit == p.1) then wakePan s p else s) s

/-- The physical pan on which a logical pan runs, when it is LIVE and may work. -/
def livePan (s : State) (l : Fin 60) : Option (Fin 64) :=
  match physOf s l with
  | some p => if (pn s p).pwr = .live && !(panOut s p) && s.pwr.pstate = .active then some p else none
  | none => none

end Sys2Proof.Machine
end

