-- ==== Sys2Proof/Machine/Queue.lean ====
section
/-! DEFINITION. Work queues, doorbells, fetch, flush and completion records (spec/08_orders_queues_and_streams.md R214,
R215, R219 to R230). -/

namespace Sys2Proof.Machine

/-! ### Orders (R214, R215) -/

/-- An order from its 128 bytes. -/
def orderOf (b : List Byte) : Order :=
  let f := leAt b 4 2
  { oid := BitVec.ofNat 32 (leAt b 0 4), oflags := BitVec.ofNat 16 f
    tide := nbit f 0, split := nbit f 1, settle := nbit f 2, fence := nbit f 3, xa := nbit f 4, xb := nbit f 5
    irq := nbit f 6, msel := byteAt b 6 % 4, chain := leAt b 8 8, descA := leAt b 16 8, descB := leAt b 24 8
    descOut := leAt b 32 8, row0 := leAt b 40 4, nrows := leAt b 44 4, col0 := leAt b 48 4, ncols := leAt b 52 4
    trows := leAt b 56 4, tcols := leAt b 60 4, kg0 := leAt b 64 4, nkg := leAt b 68 4
    ptag := BitVec.ofNat 32 (leAt b 72 4), sinst := byteAt b 76, span := byteAt b 77, mid := leAt b 78 2 % 4096
    wcrec := leAt b 80 8, wepoch := BitVec.ofNat 32 (leAt b 88 4), stag := BitVec.ofNat 32 (leAt b 92 4)
    parea := leAt b 96 8, pslots := byteAt b 104 }

/-! ### Status codes (R228) -/

def stOk : Nat := 0
def stBadFmt : Nat := 1
def stBadScale : Nat := 2
def stBadDesc : Nat := 3
def stBadCb : Nat := 4
def stStaleMask : Nat := 5
def stParkFull : Nat := 6
def stAborted : Nat := 7
def stFault : Nat := 8
def stStaleEpoch : Nat := 9

/-! ### The ring (R219 to R222) -/

def LPan.wqDepth (x : LPan) : Nat := 2 ^ x.wqLog2.toNat
def LPan.cqDepth (x : LPan) : Nat := 2 ^ x.cqLog2.toNat
/-- Address of ring order n. -/
def LPan.wqAddr (x : LPan) (n : W32) : Nat := x.wqBase.toNat + 128 * (n.toNat % x.wqDepth)
def LPan.cqAddr (x : LPan) : Nat := x.cqBase.toNat + 32 * (x.cqPi.toNat % x.cqDepth)
def LPan.cqFull (x : LPan) : Bool := (x.cqPi - x.cqCi).toNat == x.cqDepth
/-- Four records are held (R230). -/
def LPan.cqHold (x : LPan) : Bool := x.cqFull && decide (4 ≤ x.done.length)

/-- WQ_FI moved past ring slots whose orders have been taken; structural on their number. -/
def advanceFi : Nat → LPan → LPan
  | 0, x => x
  | n + 1, x =>
    if x.ahead.contains x.wqFi then
      advanceFi n { x with wqFi := x.wqFi + 1, ahead := x.ahead.filter (· ≠ x.wqFi) }
    else x

/-- A ring order is taken: it leaves the window and its slot counts for WQ_FI (R222). -/
def LPan.take (x : LPan) (n : Nat) : LPan :=
  let ahead := x.ahead ++ [BitVec.ofNat 32 n]
  advanceFi ahead.length { x with win := x.win.filter (·.n ≠ n), ahead := ahead }

/-- Armed orders. -/
def LPan.armedRuns (x : LPan) : List Run := (List.finRange 16).filterMap fun j => vget x.armed j

/-- The number of the physical pan a completion record names. -/
def ppanOf (s : State) (l : Fin 60) : Nat := (vget s.glb.panmap l).phys.1

/-- The page on which a logical pan's errors are recorded: its physical pan's, or GLB's while its map entry is missing. -/
def panPage (s : State) (l : Fin 60) : PageId :=
  match physOf s l with
  | some p => .pan p
  | none => .glb

/-- Record of a taken order. -/
def Run.done (r : Run) (status ppan : Nat) : Done :=
  { n := r.n, oid := r.ord.oid, ctag := r.chain.ctag, status := status, mode := r.mode, ev := r.ev, irq := r.ord.irq
    tiles := r.tiles, oflags := r.ord.oflags, ppan := ppan, rdr := r.rdr, hold := r.hold }

/-- Record of an order that was refused or withdrawn. -/
def Order.done (o : Order) (n : Nat) (ctag : W32) (status ppan : Nat) : Done :=
  { n := n, oid := o.oid, ctag := ctag, status := status, irq := o.irq, oflags := o.oflags, ppan := ppan }

def pushDone (s : State) (l : Fin 60) (d : Done) : State := modLp s l fun x => { x with done := x.done ++ [d] }

/-! ### Commands -/

/-- Offset of a logical pan's queue entry in the GLB page (R468). -/
def queueOff (l : Fin 60) : Nat := 0x400 + 0x30 * l.1

/-- A write of WQ_PI (R220, R221, R393). -/
def doorbell (s : State) (l : Fin 60) (v : W32) : State :=
  let x := lp s l
  if x.wqDepth < (v - x.wqFi).toNat ∨ 2 ^ 31 < (v - x.wqPi).toNat then
    dropReject s .glb (queueOff l + 0x10) .state
  else
    let s := modLp s l fun x => { x with wqPi := v, fetchStop := false }
    let s := if s.pwr.autowake then wakeEvent s else s
    wakeLogical s l

def execDoorbell (l : Fin 60) (v : W32) (s : State) : Host.Outcome State Fault Refusal :=
  cpWrite s .glb fun s => doorbell s l v

/-- A write of CQ_CI (R230, R468). -/
def cqCiWrite (s : State) (l : Fin 60) (v : W32) : State :=
  let x := lp s l
  if x.cqDepth < (x.cqPi - v).toNat then dropOk s .glb (queueOff l + 0x24) .range
  else modLp s l fun x => { x with cqCi := v }

def execCqCiWrite (l : Fin 60) (v : W32) (s : State) : Host.Outcome State Fault Refusal :=
  cpWrite s .glb fun s => cqCiWrite s l v

/-- Orders of the ring from `n` on, withdrawn unfetched: an order that cannot be read gives OID 0 (R224). -/
def flushRing : Nat → State → Fin 60 → W32 → List Done → List Done × State
  | 0, s, _, _, acc => (acc, s)
  | k + 1, s, l, n, acc =>
    let (r, s) := rdHost s ((lp s l).wqAddr n) 128
    match r with
    | some b => flushRing k s l (n + 1) (acc ++ [(orderOf b).done n.toNat 0 stAborted (ppanOf s l)])
    | none =>
      let s := recordErr s (panPage s l) { cause := cBrine, addr := some ((lp s l).wqAddr n), lpan := l.1 }
      flushRing k s l (n + 1) (acc ++ [{ n := n.toNat, oid := 0, status := stAborted, ppan := ppanOf s l }])

/-- Records in ring order from a base index. -/
def ringInsert (base : W32) (d : Done) : List Done → List Done
  | [] => [d]
  | e :: t =>
    let key := fun (x : Done) => (BitVec.ofNat 32 x.n - base + 0x80000000#32).toNat
    if key d ≤ key e then d :: e :: t else e :: ringInsert base d t

def ringSort (base : W32) : List Done → List Done
  | [] => []
  | d :: t => ringInsert base d (ringSort base t)

/-- FLUSH set (R224): armed orders and every untaken order complete ABORTED in ring order. -/
def flushQueue (s : State) (l : Fin 60) : State :=
  let x := lp s l
  if x.flush.isSome then s
  else
    let pp := ppanOf s l
    let armed := x.armedRuns.map fun r => r.done stAborted pp
    let win := x.win.map fun w => w.ord.done w.n 0 stAborted pp
    let (ring, s) := flushRing (x.wqPi - x.fetchN).toNat s l x.fetchN []
    let recs := ringSort x.wqFi (armed ++ win ++ ring)
    modLp s l fun y =>
      { y with win := [], armed := Vector.replicate 16 none, tideTile := none, done := y.done ++ recs
               fetchN := x.wqPi, wqFi := x.wqPi, ahead := [], fetchStop := false
               flush := if recs.isEmpty then none else some x.wqPi }

def execFlush (l : Fin 60) (bad : List Nat) (s : State) : Host.Outcome State Fault Refusal :=
  .next (command bad s fun s => cpDo s (some .glb) fun s => flushQueue s l)

/-- ORDER_FETCH (R221): the next ring order enters the window. A STOP keeps orders from being taken, not from being
fetched. -/
def orderFetch (s : State) (l : Fin 60) : State :=
  let x := lp s l
  match livePan s l with
  | none => wakeLogical s l
  | some p =>
    if x.qen && x.flush.isNone && !x.fetchStop && decide (x.fetchN ≠ x.wqPi) && decide (x.win.length < 8)
        && !noStarts s then
      let (r, s) := rdHost s (x.wqAddr x.fetchN) 128
      match r with
      | some b => modLp s l fun x =>
          { x with win := x.win ++ [{ n := x.fetchN.toNat, ord := orderOf b }], fetchN := x.fetchN + 1 }
      | none =>
        let s := recordErr s (.pan p) { cause := cBrine, addr := some (x.wqAddr x.fetchN), lpan := l.1 }
        modLp s l fun x => { x with fetchStop := true }
    else s

def execOrderFetch (l : Fin 60) (bad : List Nat) (s : State) : Host.Outcome State Fault Refusal :=
  .next (commandAs (.pan l 0) bad s fun s => orderFetch s l)

/-! ### Completion records (R226 to R230) -/

/-- FLAGS of a completion record. -/
def Ev.flags (e : Ev) : Nat :=
  b2n (decide (0 < e.sat)) + 2 * b2n (decide (0 < e.under)) + 4 * b2n e.ovr + 8 * b2n e.flushed
    + 16 * b2n (decide (0 < e.invalid)) + 32 * b2n (decide (0 < e.overflow)) + 64 * b2n (decide (0 < e.nonfin))
    + 128 * b2n e.badcake

/-- The 32 bytes of a completion record. -/
def completionBytes (d : Done) (l : Fin 60) (wqFi : W32) (cycles : W32) (phase : Bool) : List Byte :=
  leBytes 4 d.oid.toNat ++ leBytes 4 d.ctag.toNat ++ leBytes 1 d.status ++ leBytes 1 d.mode ++ leBytes 2 d.ev.flags
    ++ leBytes 2 (min d.ev.invalid 0xFFFF) ++ leBytes 1 l.1 ++ leBytes 1 d.ppan ++ leBytes 4 d.tiles
    ++ leBytes 4 wqFi.toNat ++ leBytes 4 cycles.toNat ++ [0, 0, 0, if phase then 0x80 else 0]

/-- PHASE of the next record: 1 on the first pass of the ring, the inverse on each later one. -/
def LPan.phase (x : LPan) : Bool := x.cqPi.toNat / x.cqDepth % 2 == 0

/-- The reader counts and the hold of an order released (R163, R279). -/
def releaseHolds (s : State) (rdr : List (Nat × Bool)) (hold : Option (Nat × Bool)) : State :=
  let s := rdr.foldl (fun s (m, b) => modDir s m fun e =>
    if b then { e with rdrB := BitVec.ofNat 8 (e.rdrB.toNat - 1) }
    else { e with rdrA := BitVec.ofNat 8 (e.rdrA.toNat - 1) }) s
  match hold with
  | some (i, b) => modShard s i fun h =>
      if b then { h with rdrB := BitVec.ofNat 8 (h.rdrB.toNat - 1) }
      else { h with rdrA := BitVec.ofNat 8 (h.rdrA.toNat - 1) }
  | none => s

/-- What a completion record tells the verdict unit (R304, R358). -/
def noteRecord (s : State) (d : Done) : State :=
  { s with vrd := { s.vrd with
      pendFt := s.vrd.pendFt || decide (d.status = stFault)
      pendNf := s.vrd.pendNf || decide (0 < d.ev.nonfin) } }

/-- COMPLETION_WRITE (R226, R229, R230): the oldest held record is written and CQ_PI advances, once every write of the order
is answered. -/
def writeCompletion (s : State) (l : Fin 60) : State :=
  let x := lp s l
  match x.done with
  | [] => s
  | d :: rest =>
    if x.cqFull || s.flt.lastrst == 3 || s.wrap.taken || writesOut s (.pan l d.n) then s
    else
      let (cycles, s) := takeFree 32 s
      let (ok, t) := wrHost s x.cqAddr (completionBytes d l x.wqFi cycles x.phase)
      -- an error leaves the slot's earlier contents (R226)
      let s := if ok then t
        else recordErr s (panPage s l) { cause := cBrine, oid := d.oid.toNat, addr := some x.cqAddr, lpan := l.1 }
      let s := modLp s l fun y =>
        { y with done := rest, cqPi := y.cqPi + 1
                 flush := if rest.any (·.status == stAborted) then y.flush else none }
      let s := noteRecord (releaseHolds s d.rdr d.hold) d
      let s := trace s 2 (panPage s l) (leBytes 4 d.oid.toNat ++ leBytes 1 l.1 ++ leBytes 1 d.ppan
        ++ leBytes 1 d.status ++ [0] ++ leBytes 2 d.ev.flags ++ [0, 0] ++ leBytes 4 d.tiles ++ leBytes 4 cycles.toNat)
      if d.irq && ok then raiseInt s l.1 else s

def execCompletionWrite (l : Fin 60) (bad : List Nat) (s : State) : Host.Outcome State Fault Refusal :=
  .next (commandAs (.pan l 0) bad s fun s => writeCompletion s l)

end Sys2Proof.Machine
end

