-- ==== Sys2Proof/Machine/Split.lean ====
section
/-! DEFINITION. Split products: partial blocks, grants, notices (spec/08_orders_queues_and_streams.md R236 to R240). -/

namespace Sys2Proof.Machine

/-- Bytes of one value of a block of a kind. -/
def blockW (kind : Nat) : Nat := if kind = 0 then 5 else 12

/-- BSZ of R238. -/
def Order.bsz (o : Order) (kind : Nat) : Nat := 32 + 16 * ((blockW kind * o.trows * o.tcols + 15) / 16)

/-- Address of a partial slot. -/
def slotAddr (g : Grant) (o : Order) (kind q : Nat) : Nat := g.parea + q % g.pslots * o.bsz kind

/-- The bytes of a partial block (R238). -/
def PBlock.bytes (b : PBlock) (ptag : W32) : List Byte :=
  let c := b.cap.getD { row := 0, col := 0, group := 0, pos := 0, cause := 0 }
  let body := leBytes 4 ptag.toNat ++ leBytes 4 b.q ++ leBytes 4 b.vals.length ++ leBytes 1 b.kind
    ++ leBytes 1 (b2n b.ovf + 2 * b2n b.cap.isSome) ++ leBytes 1 c.cause ++ leBytes 1 c.pos ++ leBytes 4 b.inv
    ++ leBytes 4 c.row ++ leBytes 4 c.col ++ leBytes 4 b.ngrp ++ (b.vals.map (leBytes (blockW b.kind))).flatten
  fitTo ((body.length + 15) / 16 * 16) body

/-- A block read from a slot, with its PTAG. The layout has no group field for the candidate: its group is Q less the tile's
first index, which for a KIND 1 block is the first group of its range (DESIGN CHOICE, log entry 121). -/
def blockOf (bs : List Byte) (tile0 : Nat) : W32 × PBlock × Nat :=
  let kind := byteAt bs 12
  let n := leAt bs 8 4
  let w := blockW kind
  let q := leAt bs 4 4
  let cap := if nbit (byteAt bs 13) 1 then
      some { row := leAt bs 20 4, col := leAt bs 24 4, group := q - tile0, pos := byteAt bs 15, cause := byteAt bs 14 : InvCap }
    else none
  (BitVec.ofNat 32 (leAt bs 0 4),
   { q := q, kind := kind, vals := (List.range (min n ((bs.length - 32) / w))).map fun i => leAt bs (32 + w * i) w
     ovf := nbit (byteAt bs 13) 0, inv := leAt bs 16 4, cap := cap, ngrp := leAt bs 28 4 }, n)

/-- Whether an order is a sender of a PTAG that a settling order on this pan accepts. -/
def senderOf (ptag : W32) (o : Order) : Bool := o.split && o.ptag == ptag

/-- A grant given to every local sender of a PTAG, running or waiting in a window (R237). -/
def grantLocal (s : State) (ptag : W32) (g : Grant) : State :=
  { s with lpan := s.lpan.map fun x =>
    { x with
      run := x.run.map fun r => if senderOf ptag r.ord then { r with grant := some g } else r
      win := x.win.map fun w => if senderOf ptag w.ord then { w with grant := some g } else w } }

/-- The grant of a settling order at its front, sent to every instance and logical pan holding a sender (R237). -/
def sendGrants (s : State) (o : Order) (front pslots : Nat) : State :=
  let s := grantLocal s o.ptag { front := front, pslots := pslots, parea := o.parea }
  if joined s then
    (otherMembers s).foldl (fun s i =>
      sendTo s i 2 3 (leBytes 4 o.ptag.toNat ++ leBytes 4 front ++ leBytes 1 pslots) (leBytes 8 o.parea)) s
  else s

/-- A block sent to a remote settling pan as PART frames of at most 4096 bytes (R327); structural on a bound of their
number. -/
def sendParts (peer : Nat) (ptag : W32) (q : Nat) : Nat → State → Nat → List Byte → State
  | 0, s, _, _ => s
  | n + 1, s, off, bs =>
    if bs.isEmpty then s
    else
      let last := if bs.length ≤ 4096 then 2 ^ 31 else 0
      let s := sendTo s peer 2 2 (leBytes 4 ptag.toNat ++ leBytes 4 q ++ leBytes 4 (off + last)) (bs.take 4096)
      sendParts peer ptag q n s (off + 4096) (bs.drop 4096)

/-- Blocks of a sender that its grant admits, sent in order; structural on their number. A local block that the host
does not take stays to be sent again. -/
def sendBlocks : Nat → State → Fin 60 → State
  | 0, s, _ => s
  | n + 1, s, l =>
    match (lp s l).run with
    | none => s
    | some r =>
      match r.grant, r.blocks with
      | some g, b :: rest =>
        if g.pslots = 0 ∨ g.front + g.pslots ≤ b.q then s
        else
          let o := r.ord
          let pop := fun (s : State) => modLp s l fun x =>
            { x with run := x.run.map fun r => { r with blocks := rest, replayed := r.replayed && r.started } }
          if o.sinst = s.glb.inst.toNat then
            let (ok, s) := wrHost s (slotAddr g o b.kind b.q) (b.bytes o.ptag)
            if ok then
              let s := if h : o.span < 60 then
                  modLp s ⟨o.span, h⟩ fun x => { x with notices := x.notices ++ [(b.q, some l)] }
                else s
              sendBlocks n (pop s) l
            else
              -- written once more, as a replay would (R244, R371); a second failure ends the sender
              let e : ErrIn := { cause := cBrine, oid := o.oid.toNat, addr := some (slotAddr g o b.kind b.q), lpan := l.1 }
              if r.replayed then
                let s := recordErr s (panPage s l) { e with replay := true }
                pushDone (endReplay (modLp s l fun x => { x with run := none }) (panPage s l)) l
                  ({ r with blocks := [] }.done stFault (ppanOf s l))
              else
                let s := modFlt (recordErr s (panPage s l) { e with opens := true }) fun f => { f with replaycnt := f.replaycnt + 1 }
                modLp s l fun x => { x with run := x.run.map fun r => { r with replayed := true } }
          else
            let bs := b.bytes o.ptag
            sendBlocks n (pop (sendParts o.sinst o.ptag b.q (bs.length / 4096 + 1) s 0 bs)) l
      | _, _ => s

def sendAllBlocks (s : State) (l : Fin 60) : State :=
  sendBlocks (((lp s l).run.map fun r => r.blocks.length).getD 0) s l

/-- Every sender sends what its grant admits. -/
def sendEveryBlock (s : State) : State := (List.finRange 60).foldl sendAllBlocks s

/-- Whether a frame that has not been acknowledged, or has not left, carries a partial of a tag, or the peer is
lost (R343). -/
def partsInFlight (s : State) (peer : Nat) (ptag : W32) : Bool :=
  let p := pairOf s false peer 2
  (p.unacked.any fun u => u.frame.ftype == 2 && leAt u.frame.tspec 0 4 == ptag.toNat)
    || (p.queue.any fun x => x.ftype == 2 && leAt x.ts 0 4 == ptag.toNat) || bit s.twn.lost peer

/-- Tiles of an order (R217). -/
def Order.tileCols (o : Order) : Nat := if o.tcols = 0 then 0 else (o.ncols + o.tcols - 1) / o.tcols
def Order.tileRows (o : Order) : Nat := if o.trows = 0 then 0 else (o.nrows + o.trows - 1) / o.trows
def Order.tileCount (o : Order) : Nat := o.tileRows * o.tileCols

/-- A tile's first row, rows, first column, columns. -/
def Order.tileAt (o : Order) (t : Nat) : Nat × Nat × Nat × Nat :=
  let r := o.row0 + t / o.tileCols * o.trows
  let c := o.col0 + t % o.tileCols * o.tcols
  (r, min o.trows (o.row0 + o.nrows - r), c, min o.tcols (o.col0 + o.ncols - c))

/-- A sender whose last block's notice has been accepted completes (R240). -/
def senderCheck (s : State) (l : Fin 60) : State :=
  match (lp s l).run with
  | none => s
  | some r =>
    let o := r.ord
    let inflight := if o.sinst = s.glb.inst.toNat then
        (if h : o.span < 60 then (lp s ⟨o.span, h⟩).notices.any fun x => x.2 == some l else false)
      else partsInFlight s o.sinst o.ptag
    if o.split && decide (o.tileCount ≤ r.next) && !r.started && r.blocks.isEmpty && !inflight then
      pushDone (modLp s l fun x => { x with run := none }) l (r.done stOk (ppanOf s l))
    else s

/-- A grant with PSLOTS 0 ends every sender of the tag: its held blocks are discarded and it completes with FAULT
(R372). -/
def abortSenders (s : State) (ptag : W32) : State :=
  (List.finRange 60).foldl (fun s l =>
    match (lp s l).run with
    | some r =>
      if senderOf ptag r.ord then
        pushDone (endReplay (modLp s l fun x => { x with run := none }) (panPage s l)) l
          ({ r with blocks := [] }.done stFault (ppanOf s l))
      else s
    | none => s) s

/-- What local senders may send under the grants they hold is sent, and those that have sent everything complete. -/
def sendAndCheck (s : State) : State := (List.finRange 60).foldl senderCheck (sendEveryBlock s)

/-- A grant that reaches this instance (R237, R372): its senders take it and send what it admits; it is kept for one that has not
been fetched yet. -/
def takeGrant (s : State) (ptag : W32) (g : Grant) : State :=
  let keep := fun (x : Option Grant) => { s with grants := smSet none s.grants ptag.toNat x }
  if g.pslots = 0 then abortSenders (keep none) ptag else sendAndCheck (grantLocal (keep (some g)) ptag g)

/-- A settling order ends without its result: its senders are told with PSLOTS 0 (R372). -/
def endSettle (s : State) (r : Run) : State :=
  if r.ord.settle && r.fold.received then abortSenders (sendGrants s r.ord r.fold.front 0) r.ord.ptag else s

end Sys2Proof.Machine
end

