-- ==== Sys2Proof/Machine/Order.lean ====
section
/-! DEFINITION. Taking orders: the checks, the mask and epoch gates, arming, tile starts (spec/08_orders_queues_and_streams.md
R216 to R225, R233, R237; spec/06 R163, R166, R167; spec/07 R186, R198, R202, R205; spec/10 R277, R279). -/

namespace Sys2Proof.Machine

/-! ### What an order names -/

/-- What the reads of an order's checks gave. An outlier list that breaks R83 is none. -/
structure Named where
  chain : Chain := {}
  a   : Option Desc := none
  b   : Option Desc := none
  out : Option Desc := none
  v   : Option Desc := none
  /-- RESID and MASK SPARSE stages with the descriptors they name and their outlier lists. -/
  side : List (Stage × Desc × Option (List Nat)) := []
  olA : Option (List Nat) := some []
  olB : Option (List Nat) := some []
  olOut : Option (List Nat) := some []
  olV : Option (List Nat) := some []

def ioOpt {α : Type} (c : Bool) (x : Io α) : Io (Option α) := if c then do return some (← x) else pure none

/-- The outlier list of a descriptor that has one. -/
def ioOutliers (d : Option Desc) : Io (Option (List Nat)) :=
  match d with
  | some d => if 0 < d.nout ∧ d.nout ≤ 64 then do return outlierList d (← ioRead d.side 256) else pure (some [])
  | none => pure (some [])

def Stage.namesSide (s : Stage) : Bool :=
  decide (s.addr ≠ 0) && (s.op == opResid || (s.op == opMask && s.ctl % 4 == 1))

/-- The reads of R216: chain, descriptors, outlier lists. -/
def readNamed (o : Order) : Io Named := do
  let chain ← if o.chain % 32 = 0 then ioChain o.chain else pure {}
  let vdesc := match chain.prod2 with
    | some (_, st) => st.addr
    | none => 0
  let a ← ioOpt (o.descA ≠ 0) (ioDesc o.descA)
  let b ← ioOpt (decide (o.descB ≠ 0) && !chain.isPass) (ioDesc o.descB)
  let out ← ioOpt (o.descOut ≠ 0) (ioDesc o.descOut)
  let v ← ioOpt (vdesc ≠ 0) (ioDesc vdesc)
  let side ← (chain.stages.filter Stage.namesSide).mapM fun st => do
    let d ← ioDesc st.addr
    return (st, d, ← ioOutliers (some d))
  return { chain := chain, a := a, b := b, out := out, v := v, side := side, olA := ← ioOutliers a, olB := ← ioOutliers b
           olOut := ← ioOutliers out, olV := ← ioOutliers v }

def Named.descs (n : Named) : List Desc :=
  [n.a, n.b, n.out, n.v].filterMap id ++ n.side.map (·.2.1)

/-! ### The field checks (R27, R35, R74, R88, R216 and the rules it names) -/

/-- What the checks need of the instance: its number, the logical pan, the MID's crosscut settings, its plain gradient
tensors with the ends of their extents. -/
structure ChkCx where
  inst : Nat
  lpan : Nat
  gx : Nat
  gxOk : Bool
  xen : Bool
  extents : List (Desc × Nat)

/-- Rows and reduction positions of an operand, transposed when it is read through a crosscut index (R166). -/
def opRows (d : Desc) (xc : Bool) : Nat := if xc then d.klen else d.rows
def opKlen (d : Desc) (xc : Bool) : Nat := if xc then d.rows else d.klen

/-- The group size of a product, when its operands agree on it (R132). -/
def productG (cx : ChkCx) (o : Order) (a b : Desc) : Option Nat :=
  let pa := a.isPlain && !o.xa
  let pb := b.isPlain && !o.xb
  let ga := if o.xa then cx.gx else a.g
  let gb := if o.xb then cx.gx else b.g
  if pa && !pb then some gb else if pb && !pa then some ga else if ga = gb then some ga else none

/-- A position at which a tile begins or ends along the columns. -/
def Order.colCuts (o : Order) : List Nat :=
  if o.tcols = 0 then []
  else ((List.range (o.tileCols + 1)).map fun i => min (o.col0 + i * o.tcols) (o.col0 + o.ncols))

/-- Cuts that R96 admits: group boundaries, and places of the last group of an OPENOK row. -/
def cutsOk (d : Desc) (o : Order) : Bool :=
  o.colCuts.all fun c => c % d.g = 0 || (d.openok && decide ((d.klen - 1) / d.g * d.g ≤ c))

/-- Whether tiles of a plain output that meets a plain gradient tensor `gd` begin and end at its group boundaries (R284): the
cuts are taken as bytes of the gradient tensor, row by row. -/
def gradCutsOk (gd : Desc) (d : Desc) (o : Order) : Bool :=
  let w := gd.w / 8
  (List.range o.nrows).all fun i => o.colCuts.all fun c =>
    let a := d.base + (o.row0 + i) * d.rowstride + c * (d.w / 8)
    let p := (a - gd.base) % gd.rowstride
    decide (a < gd.base) || (p % w = 0 && (p / w % gd.g = 0 || decide (gd.klen * w ≤ p)))

/-- R145. An operand read through a crosscut index has no integer path (R166) and refuses the order too, which R145 does not list
(DEDUCED, log entry 119). -/
def irsBad (n : Named) (o : Order) : Bool :=
  match n.chain.quant, n.a, n.b with
  | some q, some a, some b =>
    let intOp := fun (d : Desc) (xc : Bool) => (d.fmt == 8 || d.fmt == 9) && d.fsk == 0 && d.nout == 0 && !d.isPlain && !xc
    n.chain.stages.length != 2 || !intOp a o.xa || !intOp b o.xb || decide (1048576 < a.klen) || q.csrc != 0
      || (match n.out with
        | some d => !((d.fmt == 8 || d.fmt == 9) && d.fsk == 0)
            || decide (q.izp < -(2 ^ (d.w - 1))) || decide (2 ^ (d.w - 1) - 1 < q.izp) || (q.izp != 0 && !d.zpt)
        | none => false)
  | _, _, _ => true

/-- Whether a stage needs the whole row in its tile (R202). -/
def Chain.wholeRow (c : Chain) : Bool :=
  (c.region 5).any fun (_, s) => (s.op == opNorm && s.ctl % 2 == 0) || s.op == opRowfn

/-- The stage conditions that depend on the order (R104, R145, R190, R198, R202, R205). -/
def stagesBad (n : Named) (o : Order) : Bool :=
  let c := n.chain
  let rows := min o.trows o.nrows
  let two := c.prod2.isSome
  (c.irs && irsBad n o)
    || (match c.quant, n.out with
      | some q, some d => q.csrc != 0 && (d.fsk == 2 || d.openok)
      | _, _ => false)
    || (c.stages.any (·.op == opRowstat) && (match n.out with
      | some d => o.colCuts.any fun x => x % 256 ≠ 0 ∧ x ≠ d.klen
      | none => false))
    || (c.wholeRow && (match n.out with
      | some d => decide (o.col0 ≠ 0 ∨ o.ncols ≠ d.klen ∨ o.tcols < o.ncols ∨ 262144 < rows * o.ncols)
      | none => false))
    || (two && (o.split || o.settle || decide (o.kg0 ≠ 0 ∨ o.nkg ≠ 0) || (match n.v, n.b with
      | some v, some b => decide (v.klen ≠ opRows b o.xb ∨ 262144 < rows * (v.rows + 2))
      | _, _ => true)))
    || n.side.any fun (st, d, _) =>
        (if st.op = opResid then !d.isPlain || !d.format.isWide else !(d.isCake && d.masked))
          || (match n.out with
            | some x => decide (d.rows ≠ x.rows) || (match st.reg, n.b with
              | 3, some b => decide (d.klen ≠ opRows b o.xb)
              | _, _ => decide (d.klen ≠ x.klen))
            | none => false)

/-- Every BADDESC condition of an order and what it names. -/
def badDesc (cx : ChkCx) (o : Order) (n : Named) : Bool :=
  let c := n.chain
  let prod := !c.isPass
  let xcBad := fun (d : Desc) => decide (d.rows % cx.gx ≠ 0) || d.nout != 0 || !cx.xen || !cx.gxOk || !d.masked || !d.isCake
  (o.split && o.settle) || (o.xa && o.xb) || (o.tide && (o.split || o.settle)) || decide (o.chain % 32 ≠ 0)
    || o.msel == 3 || ((o.split || o.settle) && !prod)
    || c.bad (if o.split then none else n.out)
    || n.a.isNone || (prod && n.b.isNone) || (n.out.isNone && !o.split)
    || (match n.out with | some d => (o.msel != 0) != d.masked | none => false)
    || decide (o.nrows = 0 ∨ o.ncols = 0 ∨ o.trows = 0 ∨ o.tcols = 0)
    || decide (524288 < o.trows * o.tcols)
    || (match n.a with
      | some d => descBad d o.xa || (o.xa && xcBad d) || decide (opRows d o.xa < o.row0 + o.nrows)
      | none => false)
    || (match n.b with | some d => descBad d o.xb || (o.xb && xcBad d) | none => false)
    || (match n.out with
      | some d => descBad d false || decide (d.rows < o.row0 + o.nrows ∨ d.klen < o.col0 + o.ncols)
          || (c.quant.isSome && !cutsOk d o)
          || (d.isPlain && cx.extents.any fun (gd, hi) =>
                decide (gd.base < d.base + d.rows * d.rowstride ∧ d.base < hi) && !gradCutsOk gd d o)
      | none => false)
    || (match n.v with | some d => descBad d false | none => false)
    || n.side.any (fun x => descBad x.2.1 false || x.2.2.isNone)
    || n.olA.isNone || n.olB.isNone || n.olOut.isNone || n.olV.isNone
    || (match n.a with
      | some a =>
        if prod then
          match n.b with
          | some b =>
            let ng := match productG cx o a b with
              | some g => (opKlen a o.xa + g - 1) / g
              | none => 0
            decide (opKlen a o.xa ≠ opKlen b o.xb) || (productG cx o a b).isNone
              || decide ((match n.v with | some v => v.rows | none => opRows b o.xb) < o.col0 + o.ncols)
              || (if o.nkg = 0 then (!o.settle && decide (o.kg0 ≠ 0)) else decide (ng < o.kg0 + o.nkg))
          | none => false
        else decide (opKlen a o.xa < o.col0 + o.ncols)
          || (if o.nkg = 0 then decide (o.kg0 ≠ 0) else decide (a.ng < o.kg0 + o.nkg))
      | none => false)
    || (o.settle && decide (o.pslots < 2 ∨ 64 < o.pslots ∨ o.parea % 16 ≠ 0 ∨ o.sinst ≠ cx.inst ∨ o.span ≠ cx.lpan))
    || stagesBad n o

/-- The lowest refusal code among the field checks (R228); none when they pass. `late` says that a check of R163 or R234, which
needs more reads, ends in BADDESC. -/
def fieldRefusal (s : State) (cx : ChkCx) (o : Order) (n : Named) (late : Bool) : Option Nat :=
  if n.descs.any Desc.badFmt then some stBadFmt
  else if n.descs.any fun d => !coarseOk d.coarse then some stBadScale
  else if late || badDesc cx o n then some stBadDesc
  else if n.descs.any fun d => d.format.isCb && !codebookOk s d then some stBadCb
  else none

/-- The instance's part of the checks. -/
def chkCx (s : State) (l : Fin 60) (o : Order) : ChkCx :=
  let e := dirOf s o.mid
  let gx := e.xcfg.toNat % 4
  { inst := s.glb.inst.toNat, lpan := l.1, gx := 32 * 2 ^ gx, gxOk := gx != 3, xen := nbit e.xcfg.toNat 3
    extents := s.shard.filterMap fun (_, h) =>
      if h.srec.role = 1 ∧ h.gd.isPlain = true then some (h.gd, h.gd.base + h.gd.extent s) else none }

/-! ### Mask epochs (R163, R167) -/

/-- The descriptors of a rake block (R162). -/
structure RakeBlk where
  a    : List Desc := []
  b    : List Desc := []
  cand : Desc := {}
  xbA  : Nat := 0
  xbB  : Nat := 0
  xsize : Nat := 0
  deriving DecidableEq, Repr

def rakeBlkOf (addr : Nat) (bs : List Byte) : RakeBlk :=
  let d := fun (i : Nat) => descOf (addr + 64 * i) ((bs.drop (64 * i)).take 64)
  { a := (List.range 4).map d, b := (List.range 4).map fun i => d (4 + i), cand := d 8
    xbA := leAt bs 0x240 8, xbB := leAt bs 0x248 8, xsize := leAt bs 0x250 4 }

def ioRake (rblk : Nat) : Io RakeBlk := do return rakeBlkOf rblk (← ioRead rblk 640)

/-- A descriptor whose addresses are moved by an offset; an unused one stays unused. -/
def Desc.shift (off : Nat) (d : Desc) : Desc :=
  let m := fun (a : Nat) => if a = 0 then 0 else addr64 (a + off)
  { d with base := m d.base, aux := m d.aux, side := m d.side, stats := m d.stats }

/-- The rake block of a directory entry; that of an adopted one lies in the lost instance's memory, behind XOFF (R352). -/
def ioRakeOf (s : State) (mid : Nat) : Io RakeBlk := do
  let e := dirOf s mid
  let b ← ioRake e.rblk.toNat
  if s.twn.tkDirs.contains mid then
    let off := s.twn.regs.xoff.toNat
    let x := fun (a : Nat) => if nbit e.xcfg.toNat 2 then addr64 (a + off) else a
    return { b with a := b.a.map (Desc.shift off), b := b.b.map (Desc.shift off), cand := b.cand.shift off, xbA := x b.xbA, xbB := x b.xbB }
  else return b

def RakeBlk.side (r : RakeBlk) (slot : Bool) : List Desc := if slot then r.b else r.a
def RakeBlk.weight (r : RakeBlk) (slot : Bool) : Desc := (r.side slot).headD {}
def RakeBlk.xbase (r : RakeBlk) (slot : Bool) : Nat := if slot then r.xbB else r.xbA

/-- The slot whose descriptors hold a BASE: the weight's alone for a crosscut read. -/
def RakeBlk.slotOf (r : RakeBlk) (base : Nat) (xc : Bool) : Option Bool :=
  let has := fun (slot : Bool) =>
    if xc then (r.weight slot).base == base else (r.side slot).any fun d => d.base != 0 && d.base == base
  if has false then some false else if has true then some true else none

/-! What an order waits for, by the codes of R478. -/

def wtEpoch : Nat := 1
def wtMaskepoch : Nat := 2
def wtXcepoch : Nat := 3
def wtFence : Nat := 4
def wtReaders : Nat := 5
def wtCqhold : Nat := 6
def wtStopped : Nat := 7
def wtQoff : Nat := 8

/-- What the mask gate says: go with the slots read, wait (with the cause, by the codes of R478), refuse with a code, or
end with FAULT. -/
inductive MGate where
  | go (slots : List Bool)
  | wait (why : Nat)
  | refuse (code : Nat)
  | fault
  deriving DecidableEq, Repr

/-- One slot's epoch against an order's MEPOCH, its reader count and, for a crosscut read, its XEP. -/
def slotGate (e : DirE) (r : RakeBlk) (slot xc : Bool) (mepoch : W32) : MGate :=
  let sm := (r.weight slot).mepoch
  if mepoch = sm then
    if xc && decide ((if slot then e.xepB else e.xepA) ≠ sm) then .wait wtXcepoch
    else if (if slot then e.rdrB else e.rdrA) = 255#8 then .wait wtReaders
    else .go [slot]
  else if newer mepoch sm then .wait wtMaskepoch
  else .refuse stStaleMask

def MGate.and : MGate → MGate → MGate
  | .fault, _ => .fault
  | _, .fault => .fault
  | .refuse a, .refuse b => .refuse (min a b)
  | .refuse a, _ => .refuse a
  | _, .refuse b => .refuse b
  | .wait a, .wait b => .wait (min a b)
  | .wait a, _ => .wait a
  | _, .wait b => .wait b
  | .go a, .go b => .go (a ++ b.filter fun x => !a.contains x)

/-- The gate of an output with a mask: the slot its BASE lies in, else the slot that its MEPOCH selects, the active one
first (R159, R163); a candidate gradient tensor is compared with the current mask epoch, and its order counts as a reader
of the active slot (DESIGN CHOICE, log entry 115). -/
def outGate (e : DirE) (r : RakeBlk) (msel : Nat) (d : Desc) : MGate :=
  if msel = 2 then
    if r.cand.base ≠ d.base then .refuse stBadDesc
    else if d.mepoch = e.mep then
      (if (if e.slot then e.rdrB else e.rdrA) = 255#8 then .wait wtReaders else .go [e.slot])
    else if newer d.mepoch e.mep then .wait wtMaskepoch else .refuse stStaleMask
  else
    match r.slotOf d.base false with
    | some slot => slotGate e r slot false d.mepoch
    | none =>
      if (r.weight e.slot).rows ≠ d.rows ∨ (r.weight e.slot).klen ≠ d.klen then .refuse stBadDesc
      else if d.mepoch = (r.weight (!e.slot)).mepoch ∧ d.mepoch ≠ (r.weight e.slot).mepoch then
        slotGate e r (!e.slot) false d.mepoch
      else slotGate e r e.slot false d.mepoch

/-- The mask gate of an order. A mask that a MASK stage names is gated where it is one of the MID's tensors (DESIGN CHOICE, log
entry 115). -/
def maskGate (s : State) (o : Order) (n : Named) : Io MGate := do
  let ops := [(n.a, o.xa), (n.b, o.xb), (n.v, false)].filterMap fun (d, xc) => match d with
    | some d => if xc || (d.masked && d.isCake) then some (d, xc) else none
    | none => none
  let out := match n.out with
    | some d => if d.masked then some d else none
    | none => none
  let side := n.side.filterMap fun (st, d, _) => if st.op = opMask then some d else none
  let e := dirOf s o.mid
  if ops.isEmpty && out.isNone && (side.isEmpty || e.role == 0) then return .go []
  else if e.lost then return .fault
  else if e.role = 0 then return .refuse stBadDesc
  else
    let r ← ioRakeOf s o.mid
    let gs := ops.map fun (d, xc) => match r.slotOf d.base xc with
      | some slot => slotGate e r slot xc d.mepoch
      | none => .refuse stBadDesc
    let go := match out with
      | some d => outGate e r o.msel d
      | none => .go []
    let ms := side.filterMap fun d => (r.slotOf d.base false).map fun slot => slotGate e r slot false d.mepoch
    return (gs ++ ms ++ [go]).foldl MGate.and (.go [])

/-! ### Commit records (R276, R277) -/

/-- A commit or copy record's sixteen words. -/
def recWords (bs : List Byte) : List W32 := (List.range 16).map fun i => BitVec.ofNat 32 (leAt bs (4 * i) 4)

/-- The sum of R276. -/
def recSumOk (ws : List W32) : Bool := ws.foldl (· + ·) 0#32 == 0xA5A55A5A#32

def recEpoch (ws : List W32) : W32 := ws.getD 0 0
def recMepoch (ws : List W32) : W32 := ws.getD 1 0
def recSlot (ws : List W32) : Bool := bit (ws.getD 2 0) 0
def recOwner (ws : List W32) : Nat := (ws.getD 2 0).toNat / 256 % 256
def recCause (ws : List W32) : Nat := (ws.getD 2 0).toNat / 65536 % 256
def recStep (ws : List W32) : W32 := ws.getD 3 0
def recShard (ws : List W32) : Nat := (ws.getD 4 0).toNat

/-- The words of a record with its CHK. -/
def mkRec (epoch mepoch : W32) (slot : Bool) (owner cause : Nat) (step : W32) (shard : Nat) : List W32 :=
  let ws := [epoch, mepoch, BitVec.ofNat 32 (b2n slot + 256 * owner + 65536 * cause), step, BitVec.ofNat 32 shard]
    ++ List.replicate 10 0#32
  ws ++ [0xA5A55A5A#32 - ws.foldl (· + ·) 0#32]

def recBytes (ws : List W32) : List Byte := (ws.map fun w => leBytes 4 w.toNat).flatten

/-- Whether a record passes R277 for a shard of the table, or its sum alone where no shard names its address. -/
def recOk (ws : List W32) (sh : Option (Nat × Shard)) : Bool :=
  recSumOk ws && (match sh with
    | some (i, h) => recShard ws == i && recOwner ws == h.srec.owner
    | none => true)

/-- The shard whose commit or copy record lies at an address. -/
def shardAtRec (s : State) (a : Nat) : Option (Nat × Shard) :=
  if a = 0 then none else s.shard.find? fun (_, h) => (h.srec.role = 1 ∨ h.srec.role = 2) ∧ h.srec.crec = a

/-- A record that fails R277, read at an address on behalf of the record at `rec_`: BADREC on its shard, and every order
waiting there completes with FAULT; `mine` is the order that read it, which its taking completes. -/
def badRecordAt (s : State) (p : PageId) (rec_ a : Nat) (oid lpan : Nat) (mine : Option (Fin 60 × Nat) := none) : State :=
  let s := match shardAtRec s rec_ with
    | some (i, _) => modShard s i fun h => { h with badrec := true }
    | none => s
  let s := recordErr s p { cause := cBadrec, oid := oid, addr := some a, lpan := lpan }
  (List.finRange 60).foldl (fun s l =>
    let gated := (lp s l).win.filter fun w => w.gate == .wait && w.ord.wcrec == rec_ && mine != some (l, w.n)
    gated.foldl (fun s w =>
      pushDone (modLp s l (·.take w.n)) l (w.ord.done w.n 0 stFault (ppanOf s l))) s) s


/-- What an order's epoch gate says (R223): go with the hold it takes (R279), wait, stale, or FAULT. -/
inductive EGate where
  | go (hold : Option (Nat × Bool))
  | wait (why : Nat)
  | stale | fault
  deriving DecidableEq, Repr

/-- Reads the commit record of the gate of ring order n. -/
def epochGate (s : State) (l : Fin 60) (n : Nat) (o : Order) : EGate × State :=
  if o.wcrec = 0 then (.go none, s)
  else
    let (r, s) := rdHost s o.wcrec 64
    match r with
    | none =>
      (.fault, recordErr s (panPage s l) { cause := cBrine, oid := o.oid.toNat, addr := some o.wcrec, lpan := l.1 })
    | some b =>
      let ws := recWords b
      let sh := shardAtRec s o.wcrec
      if !recOk ws sh then (.fault, badRecordAt s (panPage s l) o.wcrec o.wcrec o.oid.toNat l.1 (some (l, n)))
      else
        let e := recEpoch ws
        if e = o.wepoch then
          match sh with
          | some (i, h) =>
            if h.srec.masked then (.go none, s)
            else if (if recSlot ws then h.rdrB else h.rdrA) = 255#8 then (.wait wtReaders, s)
            else (.go (some (i, recSlot ws)), s)
          | none => (.go none, s)
        else if newer o.wepoch e then (.wait wtEpoch, s)
        else (.stale, s)

/-! ### Taking an order -/

/-- What the checks of an order give. -/
inductive Taken where
  | wait (why : Nat)
  | refuse (code : Nat) (ctag : W32)
  | go (r : Run)

/-- The run of an order whose checks passed, with the copies it starts with (R89, R178). -/
def mkRun (s : State) (n : Nat) (o : Order) (nm : Named) (slots : List Bool) (hold : Option (Nat × Bool)) : Run :=
  let cb := fun (d : Option Desc) => match d with
    | some d => if d.format.isCb then codebookCopy s d.cbslot else []
    | none => []
  { n := n, ord := o, chain := nm.chain, dA := nm.a.getD {}, dB := nm.b.getD {}, dOut := nm.out.getD {}, dV := nm.v.getD {}
    cbA := cb nm.a, cbB := cb nm.b, cbOut := cb nm.out, cbV := cb nm.v
    olA := nm.olA.getD [], olB := nm.olB.getD [], olOut := nm.olOut.getD [], olV := nm.olV.getD []
    rdr := slots.map fun x => (o.mid, x), hold := hold }

/-- Stored codes of rows of the stationary operand, for the lane load of R157. -/
def storedCodes (d : Desc) (r0 n : Nat) : Io Nat := do
  if d.isCake && d.masked then
    let per ← (List.range n).mapM fun i => do
      let t ← ioNum (d.aux + 4 * (r0 + i)) 4
      let rr ← readMasked { d := d } [] (r0 + i) (List.range d.ng) (d.base + 16 * t) {}
      return (rr.grps.map (·.count)).sum
    return per.sum
  else return n * (d.klen - d.nout)

/-- GSZ of a group size. -/
def gszOf (g : Nat) : Nat := if g = 128 then 2 else if g = 64 then 1 else 0

/-- Operand A or B of a run with its descriptor cut into groups of `g` positions, and the crosscut index it is read through: in
host memory or not, and its base. -/
def rowSrc (s : State) (r : Run) (isB : Bool) (g : Nat) : Io (Opnd × Option (Bool × Nat)) := do
  let xc := if isB then r.ord.xb else r.ord.xa && !r.ord.tide
  let d := if isB then r.dB else r.dA
  let d := if d.isPlain && !xc then { d with gsz := gszOf g } else d
  let e := dirOf s r.ord.mid
  let o : Opnd := { d := d, cb := if isB then r.cbB else r.cbA, ol := if isB then r.olB else r.olA, subn := r.chain.subn }
  if xc then
    let blk ← ioRakeOf s r.ord.mid
    return (o, some (nbit e.xcfg.toNat 2, blk.xbase ((blk.slotOf d.base true).getD e.slot)))
  else return (o, none)

/-- Groups `lo` to `hi − 1` of a row read from memory. -/
def srcRow (o : Opnd) (xc : Option (Bool × Nat)) (g : Nat) (good : Reread) (row lo hi : Nat) : Io RowRd :=
  match xc with
  | some (loc, xb) => do
    let rr ← readXc o good loc xb g row
    return { grps := (rr.grps.drop lo).take (hi - lo)
             bads := rr.bads.filter fun b => decide (lo ≤ b.row / g ∧ b.row / g < hi) }
  | none => readRow o good row lo hi

/-- The group size of an order's reduction, and its number of groups. -/
def Run.groups (s : State) (l : Fin 60) (r : Run) : Nat × Nat :=
  let g := (productG (chkCx s l r.ord) r.ord r.dA r.dB).getD r.dA.g
  (g, (opKlen r.dA r.ord.xa + g - 1) / g)

/-- Stored codes of `n` transposed rows from `r0` on, from the crosscut index's row table (R156). -/
def xcCodes (loc : Bool) (xb r0 n : Nat) : Io Nat := do
  return leAt (← xcRead loc (xb + 4 * (r0 + n)) 4) 0 4 - leAt (← xcRead loc (xb + 4 * r0) 4) 0 4

/-- NZ of R156 and the lane load of R157 for `n` stationary rows. -/
def stationaryCodes (s : State) (r : Run) (r0 n : Nat) : Io Nat := do
  match ← rowSrc s r true 32 with
  | (_, some (loc, xb)) => xcCodes loc xb r0 n
  | (o, none) => storedCodes o.d r0 n

/-- The two arming refusals of R234. -/
def tideRefused (s : State) (o : Order) (nm : Named) : Io Bool := do
  if o.tcols < o.ncols then return true
  else match nm.b with
    | some b => return decide (262144 < (← stationaryCodes s { n := 0, ord := o, chain := {}, dB := b } o.col0 o.ncols))
    | none => return false

/-- The rows of operand B that a tidewater order loads when it is armed (R233). A row with a malformed cake is read again with
its tile, for the second read of R69. -/
def holdRows (s : State) (l : Fin 60) (r : Run) : Io (List (Nat × RowRd)) := do
  if !r.ord.tide then return []
  else
    let (g, ng) := r.groups s l
    let (o, xc) ← rowSrc s r true g
    let rows ← (List.range r.ord.ncols).mapM fun j => do return (r.ord.col0 + j, ← srcRow o xc g [] (r.ord.col0 + j) 0 ng)
    return rows.filter fun x => x.2.bads.isEmpty

/-- The field checks of an order with the reads they need (R163, R216, R234), and its mask gate. -/
def fieldChecks (s : State) (l : Fin 60) (o : Order) : Io (Named × Option Nat × MGate) := do
  let nm ← readNamed o
  match fieldRefusal s (chkCx s l o) o nm false with
  | some c =>
    if c ≤ stBadDesc then return (nm, some c, .go [])
    else do
      let late := (o.tide && (← tideRefused s o nm)) || (← maskGate s o nm) == .refuse stBadDesc
      return (nm, fieldRefusal s (chkCx s l o) o nm late, .go [])
  | none => do
    let late := o.tide && (← tideRefused s o nm)
    let mg ← maskGate s o nm
    return (nm, fieldRefusal s (chkCx s l o) o nm (late || mg == .refuse stBadDesc), mg)

/-- A check that a failed read ends: the order completes with FAULT (R244). -/
def checkFailed (s : State) (l : Fin 60) (o : Order) (ctag : W32) (e : IoErr) : Taken × State :=
  let (c, a) := match e with
    | .brine a => (cBrine, a)
    | .remoteat a => (cRemoteat, a)
  (.refuse stFault ctag, recordErr s (panPage s l) { cause := c, oid := o.oid.toNat, addr := some a, lpan := l.1 })

/-- The checks of ring order n in the order of R228: every field check, then the mask epoch and the shard epoch, stale ones
before waits. CTAG is known once the chain's header has been read (R227). -/
def checkOrder (s : State) (l : Fin 60) (n : Nat) (o : Order) : Taken × State :=
  match Io.run (if o.chain % 32 = 0 then ioChainHead o.chain else pure {}) s with
  | (.error e, s) => checkFailed s l o 0 e
  | (.ok hd, s) =>
    match Io.run (fieldChecks s l o) s with
    | (.error e, s) => checkFailed s l o hd.ctag e
    | (.ok (_, some c, _), s) => (.refuse c hd.ctag, s)
    | (.ok (_, none, .refuse c), s) => (.refuse c hd.ctag, s)
    | (.ok (_, none, .fault), s) => (.refuse stFault hd.ctag, s)
    | (.ok (nm, none, mg), s) =>
      match epochGate s l n o, mg with
      | (.fault, s), _ => (.refuse stFault hd.ctag, s)
      | (.stale, s), _ => (.refuse stStaleEpoch hd.ctag, s)
      | (.wait c, s), _ => (.wait c, s)
      | (.go hold, s), .go slots =>
        let r := mkRun s n o nm slots hold
        match Io.run (holdRows s l r) s with
        | (.ok held, s) => (.go { r with held := held }, s)
        | (.error e, s) => checkFailed s l o hd.ctag e
      | (.go _, s), .wait c => (.wait c, s)
      | (.go _, s), _ => (.refuse stFault hd.ctag, s)

/-- The trace record of a taken order. -/
def traceTaken (s : State) (l : Fin 60) (n : Nat) (o : Order) : State :=
  trace s 1 (panPage s l) (leBytes 4 o.oid.toNat ++ leBytes 1 l.1 ++ leBytes 1 (ppanOf s l) ++ leBytes 2 o.oflags.toNat
    ++ leBytes 4 n ++ leBytes 4 o.wepoch.toNat)

/-- Reader counts and the hold of an order that starts. -/
def takeHolds (s : State) (r : Run) : State :=
  let s := r.rdr.foldl (fun s (m, b) => modDir s m fun e =>
    if b then { e with rdrB := satAdd e.rdrB 1 } else { e with rdrA := satAdd e.rdrA 1 }) s
  match r.hold with
  | some (i, b) => modShard s i fun h => if b then { h with rdrB := satAdd h.rdrB 1 } else { h with rdrA := satAdd h.rdrA 1 }
  | none => s

/-- The grant a sender starts with: what it has received, or what a settling order of this instance grants now. A grant kept
for its tag counts while its front has not passed the sender's first group, as that of an earlier product has. -/
def startGrant (s : State) (w : WinE) : Option Grant :=
  let o := w.ord
  if w.grant.isSome then w.grant
  else if o.sinst ≠ s.glb.inst.toNat then
    (smGet none s.grants o.ptag.toNat).filter fun g => decide (g.front ≤ o.kg0)
  else if h : o.span < 60 then
    match (lp s ⟨o.span, h⟩).run with
    | some r => if r.ord.settle && r.ord.ptag == o.ptag then
        some { front := r.fold.front, pslots := r.ord.pslots, parea := r.ord.parea } else none
    | none => none
  else none

/-- The head order leaves the window: refused, or started. -/
def takeHead (s : State) (l : Fin 60) (w : WinE) : Taken → State
  | .wait c => modLp s l fun x =>
      { x with win := x.win.map fun y => if y.n = w.n then { y with gate := .wait, why := c } else y }
  | .refuse c ctag =>
    traceTaken (pushDone (modLp s l (·.take w.n)) l (w.ord.done w.n ctag c (ppanOf s l))) l w.n w.ord
  | .go r =>
    let r := { r with grant := startGrant s w }
    let s := takeHolds (modLp s l fun x => { (x.take w.n) with run := some r }) r
    let s := traceTaken s l w.n w.ord
    if r.ord.settle then sendAndCheck (sendGrants s r.ord 0 r.ord.pslots) else s

/-- Whether FENCE keeps an order from starting: an earlier order of its logical pan has not completed (R215). -/
def fenced (x : LPan) (n : Nat) : Bool :=
  let older := fun (m : Nat) => 2 ^ 31 ≤ (BitVec.ofNat 32 m - BitVec.ofNat 32 n : W32).toNat
  x.run.any (fun r => older r.n) || x.passed.any (fun r => older r.n) || x.armedRuns.any (fun r => older r.n)
    || x.done.any (fun d => older d.n) || x.win.any (fun w => older w.n)

/-- Whether the pan may take or start work for a logical pan now (R460, R461, R478). -/
def mayStart (s : State) (l : Fin 60) : Bool :=
  match livePan s l with
  | some p => admits s .glb && admits s (.pan p) && !noStarts s && !halted s p.1
  | none => false

/-- The head order tried: it starts, waits or is refused. -/
def tryHead (s : State) (l : Fin 60) (again : Bool) : State :=
  let x := lp s l
  match x.win with
  | [] => s
  | w :: _ =>
    if mayStart s l && x.qen && !x.cqHold && x.run.isNone && !x.inTile && !w.ord.tide && (w.gate == .wait) == again
        && x.settle.isNone && !(x.parked.any (·.settled.isSome)) && !(w.ord.fence && fenced x w.n) then
      let (t, s) := checkOrder s l w.n w.ord
      takeHead s l w t
    else wakeLogical s l

/-- ORDER_TAKE (R216, R221): the pan takes the head order. -/
def execOrderTake (l : Fin 60) (bad : List Nat) (s : State) : Host.Outcome State Fault Refusal :=
  .next (commandAs (.pan l 0) bad s fun s => tryHead s l false)

/-- EPOCH_GATE_CHECK (R223): a head order that waits is tried again. -/
def execEpochGateCheck (l : Fin 60) (bad : List Nat) (s : State) : Host.Outcome State Fault Refusal :=
  .next (commandAs (.pan l 0) bad s fun s => tryHead s l true)

/-! ### Arming (R233, R234) -/

def LPan.freeSlot (x : LPan) : Option (Fin 16) := (List.finRange 16).find? fun j => (vget x.armed j).isNone

/-- Bytes that wait in a pan's tidewater buffer. -/
def LPan.tideBytes (x : LPan) : Nat := (x.armedRuns.map fun r => (r.frags.map fun f => f.bytes.length).sum).sum

/-- A TILE frame's rows taken by an order: they follow the bytes that earlier frames of the same rows brought. -/
def Run.takeRows (r : Run) (first nrow : Nat) (bs : List Byte) : Run :=
  if r.frags.any fun f => f.first = first ∧ f.nrow = nrow then
    { r with frags := r.frags.map fun f => if f.first = first ∧ f.nrow = nrow then { f with bytes := f.bytes ++ bs } else f }
  else { r with frags := r.frags ++ [{ first := first, nrow := nrow, bytes := bs }] }

/-- The cakes that lie whole in the bytes of rows, from group `j` on, by group index; structural on a bound of their number. -/
def wholeCakes (d : Desc) : Nat → Nat → List Byte → List (Nat × List Byte)
  | 0, _, _ => []
  | n + 1, j, bs =>
    let k := if d.masked then d.maskedSize (min (byteAt bs 2) d.g) else d.slot
    if bs.length < 8 ∨ bs.length < k then [] else (j % d.ng, bs.take k) :: wholeCakes d n (j + 1) (bs.drop k)

/-- Whether a TILE frame completes a malformed cake of an order's operand A (R339). A cake that two frames share is complete with
the second. -/
def Run.tileCakesBad (r : Run) (f : Frame) : Bool :=
  let d := r.dA
  if !d.isCake || decide (d.ng = 0) then false
  else
    let old := ((r.frags.find? fun g => g.first = tsAt f 24 4 ∧ g.nrow = tsAt f 28 2).map (·.bytes)).getD []
    let all := old ++ f.payload
    let was := (wholeCakes d (old.length + 1) 0 old).length
    ((wholeCakes d (all.length + 1) 0 all).drop was).any fun (j, bs) =>
      (decodeCake { d := d, cb := r.cbA, ol := r.olA } j bs).isNone

/-- The armed orders with a STAG. -/
def armedFor (s : State) (stag : W32) : List (Fin 60 × Run) :=
  ((List.finRange 60).map fun l => ((lp s l).armedRuns.filter fun r => r.ord.stag == stag).map (l, ·)).flatten

/-- Whether a TILE frame brings a malformed cake to an armed order. -/
def tileCakesBad (s : State) (f : Frame) : Bool := (armedFor s (BitVec.ofNat 32 (tsAt f 20 4))).any fun x => x.2.tileCakesBad f

/-- A good cake that was asked for again: a CORR event of each pan that takes the frame (R69, R339). -/
def countReread (s : State) (f : Frame) : State :=
  (armedFor s (BitVec.ofNat 32 (tsAt f 20 4))).foldl (fun s (l, r) =>
    if r.dA.isCake then
      recordErr s (panPage s l) { cause := cCakerd, oid := r.ord.oid.toNat, row := tsAt f 24 4, lpan := l.1 }
    else s) s

/-- Delivers a TILE frame to the armed orders with its STAG (R233 to R235): false where none is armed, or where a
tidewater buffer of 256 KiB has no room. -/
def deliverTile (s : State) (f : Frame) : Bool × State :=
  let stag := BitVec.ofNat 32 (tsAt f 20 4)
  let mine := fun (r : Run) => r.ord.stag == stag
  let ls := (List.finRange 60).filter fun l => (lp s l).armedRuns.any mine
  if ls.isEmpty || ls.any (fun l => decide (262144 < (lp s l).tideBytes + f.payload.length)) then (false, s)
  else (true, ls.foldl (fun s l => modLp s l fun x =>
    { x with armed := x.armed.map fun a => a.map fun r =>
        if mine r then r.takeRows (tsAt f 24 4) (tsAt f 28 2) f.payload else r }) s)

/-- What a TILE frame in its buffer comes to: it stays there, its rows are delivered, or it is asked for again with REB = 1 for a
malformed cake, which leaves it unacknowledged (R339). -/
def takeTile (s : State) (adp : Bool) (peer ext : Nat) (f : Frame) : Bool × State :=
  if f.reb = 0 && tileCakesBad s f then (true, sendNack s adp peer 2 2 ext)
  else
    let again := f.reb ≠ 0 && !tileCakesBad s f
    let (ok, t) := deliverTile s f
    if ok then (true, frameDone (if again then countReread t f else t) peer 2 ext) else (false, s)

/-- TILE frames that stayed in their link buffers, delivered as far as they can be; structural on the frames. -/
def claimTiles : List HeldFrame → State → State
  | [], s => s
  | h :: t, s =>
    if h.frame.ftype = 1 then
      let (ok, u) := takeTile s h.adp h.peer h.ext h.frame
      claimTiles t (if ok then { u with twn := { u.twn with held := u.twn.held.filter (· ≠ h) } } else s)
    else claimTiles t s

/-- TIDE_ARM: the TIDE order of ring index n in the window is armed, waits at its gate, or is refused. -/
def tideArm (s : State) (l : Fin 60) (n : W32) : State :=
  let x := lp s l
  match x.win.find? (fun w => w.n = n.toNat ∧ w.ord.tide = true), x.freeSlot with
  | some w, some j =>
    if mayStart s l && x.qen && !x.cqHold then
      let (t, s) := checkOrder s l w.n w.ord
      match t with
      | .go r =>
        let s := takeHolds (modLp s l fun x => { (x.take w.n) with armed := vset x.armed j (some r) }) r
        let s := traceTaken s l w.n w.ord
        claimTiles s.twn.held s
      | t => takeHead s l w t
    else wakeLogical s l
  | _, _ => s

def execTideArm (l : Fin 60) (n : W32) (bad : List Nat) (s : State) : Host.Outcome State Fault Refusal :=
  .next (commandAs (.pan l n.toNat) bad s fun s => tideArm s l n)

end Sys2Proof.Machine
end

