-- ==== Sys2Proof/Machine/TileIn.lean ====
section
/-! DEFINITION. What a tile computes: operand rows, prologues, products, split-K blocks, the softmax pair of products and
the stages up to the store (spec/05 R132 to R149, spec/06 R157 to R166, spec/07 R182 to R209, spec/08 R217, R234, R236 to
R239). -/

namespace Sys2Proof.Machine

/-! ### Rows that TILE frames brought (R234) -/

/-- Bytes of a masked row, walked cake by cake; none while some are missing. Structural on the number of cakes. -/
def maskedRowLen (d : Desc) : Nat → List Byte → Option Nat
  | 0, _ => some 0
  | n + 1, bs =>
    let k := d.maskedSize (min (byteAt bs 2) d.g)
    if bs.length < 8 ∨ bs.length < k then none else (maskedRowLen d n (bs.drop k)).map (· + k)

/-- The complete rows that bytes hold, from a row on; structural on the number of rows. -/
def rowsIn (d : Desc) : Nat → Nat → List Byte → List (Nat × List Byte)
  | 0, _, _ => []
  | n + 1, r, bs =>
    let len := if d.isCake && d.masked then maskedRowLen d d.ng bs
      else if d.rowBytes ≤ bs.length then some d.rowBytes else none
    match len with
    | some k => (r, bs.take k) :: rowsIn d n (r + 1) (bs.drop k)
    | none => []

/-- Rows of operand A that have arrived for an armed order. -/
def Run.arrived (r : Run) : List (Nat × List Byte) :=
  (r.frags.map fun f => rowsIn r.dA f.nrow f.first f.bytes).flatten

/-- Unmasked cakes of a row from its bytes. -/
def tideCakes (o : Opnd) (r : Nat) (bs : List Byte) : List Nat → RowRd → RowRd
  | [], acc => acc
  | j :: t, acc =>
    let c := (bs.drop (j * o.d.slot)).take o.d.slot
    tideCakes o r bs t (acc.addCake o.d (o.d.base + r * o.d.rowstride + j * o.d.slot) r j (decodeCake o j c))

/-- Masked cakes of a row from its bytes. -/
def tideMasked (o : Opnd) (r : Nat) : List Nat → Nat → List Byte → RowRd → RowRd
  | [], _, _, acc => acc
  | j :: t, off, bs, acc =>
    let n := o.d.maskedSize (min (byteAt bs 2) o.d.g)
    let a := o.d.base + off
    match decodeCake o j (bs.take n) with
    | some (g, fl) => tideMasked o r t (off + n) (bs.drop n) (acc.addCake o.d a r j (some (g, fl)))
    | none => acc.addRest o.d a r (j :: t)

/-- The groups of a row that frames brought. Scales of an MX tensor and side values are read from memory. -/
def tideRow (o : Opnd) (r lo hi : Nat) (bs : List Byte) : Io RowRd := do
  let js := (List.range (hi - lo)).map (lo + ·)
  let w := o.d.w / 8
  let rr ←
    if o.d.isPlain then
      pure (plainGrps o ((bs.take (min (hi * o.d.g) o.d.klen * w)).drop (lo * o.d.g * w)))
    else if o.d.isMx then do
      let gs ← js.mapM fun j => do
        return mxGrp o (← ioNum (o.d.aux + r * (o.d.klen / 32) + j) 1) ((bs.drop (j * (4 * o.d.w))).take (4 * o.d.w))
      pure { grps := gs }
    else if o.d.masked then
      let rr := tideMasked o r (List.range hi) 0 bs {}
      pure { grps := rr.grps.drop lo, bads := rr.bads.filter fun b => decide (lo ≤ b.group) }
    else pure (tideCakes o r bs js {})
  if o.ol.isEmpty then return rr
  else
    let side ← ioRead (o.d.sideRow r) (2 * o.d.nout)
    return putSide o ((List.range o.d.nout).map fun i => leAt side (2 * i) 2) lo rr

/-! ### Operands -/

/-- How an operand's rows are found: its descriptor with the product's group size, the crosscut index (in host memory or
not, and its base), its prologue, the rows that frames brought, and the rows loaded at arming. -/
structure OpSrc where
  o    : Opnd
  g    : Nat
  xc   : Option (Bool × Nat) := none
  pro  : List (Nat × Stage) := []
  tide : Option (List (Nat × List Byte)) := none
  held : List (Nat × RowRd) := []

/-- Operand A or B of a run, for groups of `g` positions. -/
def srcOf (s : State) (r : Run) (isB : Bool) (g : Nat) : Io OpSrc := do
  let (o, xc) ← rowSrc s r isB g
  return { o := o, g := g, xc := xc, pro := r.chain.region (if isB then 1 else 0)
           tide := if r.ord.tide && !isB then some r.arrived else none, held := if isB then r.held else [] }

/-- The operand enters products as FP32 (R148, R189). -/
def OpSrc.fp32 (x : OpSrc) : Bool :=
  match x.pro.getLast? with
  | some (_, st) => st.ifmt == 1
  | none => x.o.d.fmt == 1

/-- The coarse scale that R139 applies for the operand. -/
def OpSrc.c (x : OpSrc) : Q := if x.pro.isEmpty then x.o.d.c else qone

/-- The decoded groups `lo` to `hi − 1` of a row. -/
def groupsOf (x : OpSrc) (good : Reread) (row lo hi : Nat) : Tl (List Grp) := do
  let rr ← match x.tide, x.xc with
    | some rows, _ => match rows.find? fun y => y.1 = row with
      | some (_, bs) => Tl.io (tideRow x.o row lo hi bs)
      | none => pure {}
    | none, xc => match x.held.find? fun y => y.1 = row with
      | some (_, rr) => pure { grps := (rr.grps.drop lo).take (hi - lo) }
      | none => Tl.io (srcRow x.o xc x.g good row lo hi)
  Tl.ev (·.flush rr.flushed)
  Tl.bads rr.bads
  return rr.grps

/-- The exact decoded value of a position (R75). -/
def El.value (c : Q) (e : El) : XVal := mulQuiet e.exact (.fin c)

/-- A computation of which only the malformed cakes and flushed subnormals are noted. -/
def Tl.uncounted {α : Type} (x : Tl α) : Tl α := fun acc => do
  let (v, a) ← x acc
  return (v, { a with t := acc.t.flush a.t.ev.flushed })

/-- A row's groups as a product takes them, after the prologue (R188, R189). The prologue's events count in the first tile that
reads the row (R210). -/
def operandRow (cx : Cx) (x : OpSrc) (wide first : Bool) (row lo hi : Nat) : Tl (List OGrp) := do
  let gs ← groupsOf x cx.good row lo hi
  if x.pro.isEmpty then return gs.zipIdx.map fun (g, i) => g.operand (lo + i) x.fp32 wide
  else
    let vals := (gs.map fun g => g.els.map fun e => e.map (El.value x.o.d.c)).flatten
    let klen := opKlen x.o.d x.xc.isSome
    let run := evalStages { cx with ncols := klen } row (lo * x.g) x.pro [vals]
    let out ← if first then run else run.uncounted
    return prologueGroups x.g x.fp32 wide lo gs.length (out.headD [])

/-! ### Products (R132 to R139) -/

/-- Group results of one output element. -/
def elemGroups (wide : Bool) (a b : List OGrp) : List (Nat × GRes) :=
  (a.zip b).map fun (x, y) => (x.idx, groupResult wide x.ops y.ops)

/-- Reports of an element's groups, then their fold and the coarse step. -/
def foldElem (i j : Nat) (cp : Q) (gs : List (Nat × GRes)) : Tl XVal := do
  gs.forM fun (g, r) => Tl.ev fun t => r.report t i j g
  fun a =>
    let (v, t) := foldGroups a.t i j (gs.map fun x => (x.1, x.2.v))
    let (v, t) := coarseStep t cp v
    return (v, { a with t := t })

/-- Positions of a tile that are computed: by row and column of the tile. -/
abbrev Pres := List (List Bool)

def presAt (p : Option Pres) (i j : Nat) : Bool :=
  match p with
  | none => true
  | some p => (p.getD i []).getD j false

/-- A matrix over the rows of A and B, none where a position is not computed. -/
def overTile {α β : Type} (pres : Option Pres) (as_ : List α) (bs : List α) (f : Nat → Nat → α → α → Tl β) :
    Tl (List (List (Option β))) :=
  as_.zipIdx.mapM fun (a, i) => bs.zipIdx.mapM fun (b, j) =>
    if presAt pres i j then do return some (← f i j a b) else pure none

/-- PROD1 over a tile (R132). -/
def prod1 (cx : Cx) (ifmt : Nat) (wide : Bool) (cp : Q) (pres : Option Pres) (r0 c0 : Nat) (as_ bs : List (List OGrp)) :
    Tl Mat :=
  overTile pres as_ bs fun i j a b => do
    toIfmt cx ifmt (← foldElem (r0 + i) (c0 + j) cp (elemGroups wide a b))

/-- The integer accumulator of one element over its groups: none for a NaN element (R146, R147). -/
def intElem (i j : Nat) (a b : List OGrp) : Tl (Option Int) := do
  let parts ← (a.zip b).mapM fun (x, y) => do
    let (v, sr) := intGroup x y
    if sr then Tl.ev (·.inval i j x.idx 0xFF .scalerange)
    return v
  return parts.foldl (fun acc v => match acc, v with
    | some x, some y => some (x + y)
    | _, _ => none) (some 0)

/-! ### Partial blocks (R141, R147, R238) -/

/-- A computation's events alone, as a block carries them. -/
def evOf (a : TEv) (q kind ngrp : Nat) (vals : List Nat) : PBlock :=
  { q := q, kind := kind, vals := vals, ovf := decide (0 < a.ev.overflow), inv := a.ev.invalid, cap := a.cap, ngrp := ngrp }

/-- KIND 0 blocks of a tile: one for each group of the range, with its events. -/
def groupBlocks (wide : Bool) (pres : Option Pres) (r0 c0 q0 : Nat) (as_ bs : List (List OGrp)) : List (PBlock × TEv) :=
  let n := (as_.headD []).length
  (List.range n).map fun k =>
    let els := (as_.zipIdx.map fun (a, i) => bs.zipIdx.map fun (b, j) => match a[k]?, b[k]? with
      | some x, some y => (i, j, x.idx, groupResult wide x.ops y.ops)
      | _, _ => (i, j, 0, {})).flatten
    let t := els.foldl (fun (t : TEv) (i, j, g, r) => if presAt pres i j then r.report t (r0 + i) (c0 + j) g else t) {}
    let idx := match (as_.headD [])[k]? with
      | some x => x.idx
      | none => 0
    (evOf t (q0 + idx) 0 1 (els.map fun (_, _, _, r) => (x40Of r.v).toNat), t)

/-- The 96 bits of a KIND 1 contribution. -/
def contribBits (v : Option Int) : Nat := match v with
  | some v => wrapTo 96 v
  | none => Config.nanContribution.toNat

def contribOf (n : Nat) : Option Int := if n = Config.nanContribution.toNat then none else some (signedOf 96 n)

/-- The KIND 1 block of a tile's range; `pres` says which outputs are computed (R159). -/
def rangeBlock (pres : Option Pres) (r0 c0 q0 lo hi : Nat) (as_ bs : List (List OGrp)) : Tl (PBlock × TEv) := fun acc => do
  let body : Tl (List (List (Option (Option Int)))) := overTile pres as_ bs fun i j a b => intElem (r0 + i) (c0 + j) a b
  let (m, a) ← body { acc with t := {} }
  let vals := m.flatten.map fun v => contribBits (v.getD none)
  return ((evOf a.t (q0 + lo) 1 (hi - lo) vals, a.t), { a with t := acc.t })

/-! ### Two products through ROWFN (R205 to R207) -/

/-- Exact maximum of scores. -/
def maxScore (vs : List XVal) : XVal := vs.foldl (fun m v => if xlt m v then v else m) (.inf true)

/-- The running state of a row: m, l and the accumulators O[c] with whether they hold a first block. -/
structure RowFn where
  m : XVal := .inf true
  l : XVal := xzero
  o : List XVal := []

/-- One block of a row: `vrows` holds, for each output column, V's groups within the block. -/
def attnBlock (cx : Cx) (wide : Bool) (g i c0 idx : Nat) (st : RowFn) (sc : List XVal) (vrows : List (List OGrp)) :
    Tl RowFn := do
  let mn := let mb := maxScore sc; if xlt st.m mb then mb else st.m
  if mn = .inf true then return st
  else
    let a : XVal := if st.m = .inf true then xzero else expx (xadd st.m (xneg mn)).1
    let ps ← sc.mapM fun v => if v = .inf true then pure xzero else toIfmt cx 0 (expx (xadd v (xneg mn)).1)
    let sum ← stageX40 (.fin (ps.foldl (fun q v => qadd q (xq v)) qzero))
    let l ← stageX40 (xadd (mulQuiet a st.l) sum).1
    let pops := ps.map fun p => let x := popOfP21 (p21OfX p); if wide then x.widen else x
    let o ← (st.o.zip vrows).zipIdx.mapM fun ((o, gs), c) => do
      let rs := gs.zipIdx.map fun (x, k) => (x.idx, groupResult wide ((pops.drop (k * g)).take g) x.ops)
      rs.forM fun (gi, r) => Tl.ev fun t => r.report t i (c0 + c) gi
      match rs with
      | [] => pure o
      | (_, r) :: rest => do
        let ao ← stageOp i (c0 + c) idx (xmul a o)
        let first ← stageOp i (c0 + c) idx (xadd ao r.v)
        let first ← stageX40 first
        fun acc =>
          let (v, t) := rest.foldl (fun (x : XVal × TEv) y => foldGroup x.2 i (c0 + c) y.1 x.1 y.2.v) (first, acc.t)
          return (v, { acc with t := t })
    return { m := mn, l := l, o := o }

/-- The blocks of a row in ascending order; structural on their number. -/
def attnBlocks (cx : Cx) (wide : Bool) (kb g i c0 idx : Nat) (vrows : List (List OGrp)) :
    Nat → Nat → RowFn → List XVal → Tl RowFn
  | 0, _, st, _ => pure st
  | n + 1, b, st, sc => do
    let per := kb / g
    let st ← attnBlock cx wide g i c0 idx st (sc.take kb) (vrows.map fun v => (v.drop (b * per)).take per)
    attnBlocks cx wide kb g i c0 idx vrows n (b + 1) st (sc.drop kb)

/-- One row of scores to its output columns, with the row's m and l. -/
def attnRow (cx : Cx) (wide : Bool) (rowfn prod2 : Stage) (rfIdx pIdx g i c0 : Nat) (cv : Q) (scores : List XVal)
    (vrows : List (List OGrp)) : Tl (List (Option XVal) × XVal × XVal) := do
  if scores.any (·.isNan) then return (vrows.map fun _ => some .nan, .nan, .nan)
  else if scores.contains (.inf false) then return (vrows.map fun _ => some .nan, .inf false, .nan)
  else
    let kb := 128 * 2 ^ (rowfn.ctl % 4)
    let st ← attnBlocks cx wide kb g i c0 rfIdx vrows ((scores.length + kb - 1) / kb) 0
      { o := vrows.map fun _ => xzero } scores
    let ys ← st.o.zipIdx.mapM fun (o, c) => do
      if st.l.isZero then return some (← toIfmt cx prod2.ifmt xzero)
      else
        let x ← fun acc => let (v, t) := coarseStep acc.t cv o; return (v, { acc with t := t })
        return some (← toIfmt cx prod2.ifmt (← stageOp i (c0 + c) pIdx (xdiv x st.l)))
    return (ys, st.m, st.l)

/-! ### The values of a tile -/

/-- What a tile's computation gives before its output: blocks of a SPLIT order, values, or integer codes with whether
they were limited, none for a NaN element. -/
inductive TileRes where
  | blocks (l : List (PBlock × TEv))
  | vals (m : Mat)
  | ints (m : List (List (Option (Option (Int × Bool)))))

/-- The groups of an order's own range. -/
def Order.range (o : Order) (ng : Nat) : Nat × Nat :=
  if o.nkg = 0 then (if o.settle then (0, 0) else (o.kg0, ng)) else (o.kg0, o.kg0 + o.nkg)

/-- The second reads a run holds. -/
def Run.rereads (r : Run) : Reread := (r.good.map fun (a, b) => (a, some b)) ++ r.badc.map fun a => (a, none)

def Run.cx (r : Run) : Cx :=
  { subn := r.chain.subn, ovf := r.chain.ovf, ncols := r.dOut.klen, good := r.rereads }

/-- Epilogue stages that evalStages runs. -/
def Chain.epi (c : Chain) : List (Nat × Stage) := (c.region 5).filter fun x => x.2.op ≠ opQuant ∧ x.2.op ≠ opPair

/-- Both operands of a product over a tile's rows and columns, for groups `lo` to `hi − 1`; `fa` and `fb` say that no tile before
this one has read these rows of A and of B. -/
def operandsOf (s : State) (r : Run) (fa fb : Bool) (g r0 nr c0 nc lo hi : Nat) : Tl (OpSrc × OpSrc × List (List OGrp) × List (List OGrp)) := do
  let a ← Tl.io (srcOf s r false g)
  let b ← Tl.io (srcOf s r true g)
  let wide := a.fp32 || b.fp32
  let as_ ← (List.range nr).mapM fun i => operandRow r.cx a wide fa (r0 + i) lo hi
  let bs ← (List.range nc).mapM fun j => operandRow r.cx b wide fb (c0 + j) lo hi
  return (a, b, as_, bs)

/-- The own group results of a SPLIT or SETTLE order for tile t. -/
def ownBlocks (s : State) (l : Fin 60) (r : Run) (t : Nat) (pres : Option Pres) : Tl (List (PBlock × TEv)) := do
  let (r0, nr, c0, nc) := r.ord.tileAt t
  let (g, ng) := r.groups s l
  let (lo, hi) := r.ord.range ng
  if hi ≤ lo then return []
  else
    let (a, b, as_, bs) ← operandsOf s r (c0 == r.ord.col0) (r0 == r.ord.row0) g r0 nr c0 nc lo hi
    if r.chain.irs then return [← rangeBlock pres r0 c0 (t * ng) lo hi as_ bs]
    else return groupBlocks (a.fp32 || b.fp32) pres r0 c0 (t * ng) as_ bs

/-- The blocks of a SPLIT order's tile. The INVALID and OVERFLOW events of its prologues travel in the first one (R152, R240). -/
def senderBlocks (s : State) (l : Fin 60) (r : Run) (t : Nat) : Tl (List (PBlock × TEv)) := do
  let bl ← ownBlocks s l r t none
  fun a =>
    let first := fun (b : PBlock) => { b with
      inv := b.inv + a.t.ev.invalid, ovf := b.ovf || decide (0 < a.t.ev.overflow), cap := firstCap b.cap a.t.cap }
    let bl := match bl with
      | [] => []
      | (b, e) :: rest => (first b, e) :: rest
    return (bl, { a with t := { ev := { a.t.ev with invalid := 0, overflow := 0 }, cap := none } })

/-- Integer codes of a tile's accumulators (R146). -/
def intCodes (q : Stage) (w : Nat) (m : List (List (Option (Option Int)))) : List (List (Option (Option (Int × Bool)))) :=
  m.map fun row => row.map fun v => v.map fun acc => acc.map fun a => intRescale w q.imul q.ishift q.izp a

/-- Values of a settled tile from its folded blocks (R142, R239). -/
def settledVals (r : Run) (ng t nr nc r0 c0 : Nat) (pres : Option Pres) : Tl TileRes := do
  let bl := r.fold.folded
  let at_ := fun (i j : Nat) => bl.map fun b => (b.q - t * ng, b.vals.getD (i * nc + j) 0)
  Tl.ev fun t => t.merge { ev := r.fold.ev, cap := r.fold.cap }
  if r.chain.irs then
    let m := (List.range nr).map fun i => (List.range nc).map fun j =>
      if presAt pres i j then
        some ((at_ i j).foldl (fun acc x => match acc, contribOf x.2 with
          | some a, some b => some (a + b)
          | _, _ => none) (some 0))
      else none
    return .ints (match r.chain.quant with
      | some q => intCodes q r.dOut.w m
      | none => [])
  else
    let ifmt := (r.chain.prod1.map fun x => x.2.ifmt).getD 2
    let ca := if (r.chain.region 0).isEmpty then r.dA.c else qone
    let cb := if (r.chain.region 1).isEmpty then r.dB.c else qone
    let m ← (List.range nr).mapM fun i => (List.range nc).mapM fun j =>
      if presAt pres i j then do
        return some (← toIfmt r.cx ifmt (← foldElem (r0 + i) (c0 + j) (qmul ca cb)
          ((at_ i j).map fun x => (x.1, { v := x40Value (BitVec.ofNat 40 x.2) }))))
      else pure none
    return .vals (← evalStages r.cx r0 c0 r.chain.epi m)

/-- A tile of a pass chain (R182). -/
def passVals (s : State) (r : Run) (nr nc r0 c0 : Nat) (pres : Option Pres) : Tl TileRes := do
  let g := if r.ord.xa then 32 * 2 ^ ((dirOf s r.ord.mid).xcfg.toNat % 4) else r.dA.g
  let x ← Tl.io (srcOf s r false g)
  let lo := c0 / g
  let hi := (c0 + nc + g - 1) / g
  let m ← (List.range nr).mapM fun i => do
    let gs ← groupsOf x r.rereads (r0 + i) lo hi
    let vals := (gs.map fun y => y.els.map fun e => (e.map (El.value x.o.d.c)).getD xzero).flatten
    return (List.range nc).map fun j =>
      if presAt pres i j then some (vals.getD (c0 + j - lo * g) xzero) else none
  return .vals (← evalStages r.cx r0 c0 r.chain.epi m)

/-- A tile of a chain with PROD2 (R205, R206). Its second products are wide where any operand of the order is FP32 (R148). -/
def attnVals (s : State) (l : Fin 60) (r : Run) (t nr nc r0 c0 : Nat) (pres : Option Pres) (p2 : Nat × Stage) :
    Tl TileRes := do
  let (g, ng) := r.groups s l
  let nk := opRows r.dB r.ord.xb
  let (a, b, as_, bs) ← operandsOf s r (c0 == r.ord.col0) (t == 0) g r0 nr 0 nk 0 ng
  let ifmt := (r.chain.prod1.map fun x => x.2.ifmt).getD 2
  let scores ← prod1 r.cx ifmt (a.fp32 || b.fp32) (qmul a.c b.c) none r0 0 as_ bs
  let mids := r.chain.region 3
  let scores ← evalStages { r.cx with ncols := nk } r0 0 (mids.filter fun x => x.2.op ≠ opRowfn) scores
  let rf := mids.getLast?.getD (0, { raw := [] })
  let v : OpSrc := { o := { d := r.dV, cb := r.cbV, ol := r.olV, subn := r.chain.subn }, g := r.dV.g }
  let vwide := v.fp32 || a.fp32 || b.fp32
  let vrows ← (List.range nc).mapM fun c => operandRow r.cx v vwide true (c0 + c) 0 r.dV.ng
  let rows ← scores.zipIdx.mapM fun (sc, i) =>
    attnRow r.cx vwide rf.2 p2.2 rf.1 p2.1 r.dV.g (r0 + i) c0 r.dV.c (sc.map fun x => x.getD xzero) vrows
  if rf.2.addr ≠ 0 then
    rows.zipIdx.forM fun (x, i) => Tl.write (rf.2.addr + 16 * (r0 + i)) (rowfnBytes x.2.1 x.2.2)
  let m := rows.zipIdx.map fun (x, i) => x.1.zipIdx.map fun (y, j) => if presAt pres i j then y else none
  return .vals (← evalStages r.cx r0 c0 r.chain.epi m)

/-- The values of tile t of a running order. -/
def tileVals (s : State) (l : Fin 60) (r : Run) (t : Nat) (pres : Option Pres) : Tl TileRes := do
  let (r0, nr, c0, nc) := r.ord.tileAt t
  let (g, ng) := r.groups s l
  if r.ord.split then return .blocks (← senderBlocks s l r t)
  else if r.ord.settle then settledVals r ng t nr nc r0 c0 pres
  else if r.chain.isPass then passVals s r nr nc r0 c0 pres
  else match r.chain.prod2 with
    | some p2 => attnVals s l r t nr nc r0 c0 pres p2
    | none => do
      let (lo, hi) := r.ord.range ng
      let (a, b, as_, bs) ← operandsOf s r (c0 == r.ord.col0) (r0 == r.ord.row0) g r0 nr c0 nc lo hi
      match r.chain.irs, r.chain.quant with
      | true, some q => do
        let m ← overTile pres as_ bs fun i j x y => intElem (r0 + i) (c0 + j) x y
        return .ints (intCodes q r.dOut.w m)
      | _, _ => do
        let ifmt := (r.chain.prod1.map fun x => x.2.ifmt).getD 2
        let m ← prod1 r.cx ifmt (a.fp32 || b.fp32) (qmul a.c b.c) pres r0 c0 as_ bs
        return .vals (← evalStages r.cx r0 c0 r.chain.epi m)

end Sys2Proof.Machine
end

