-- ==== Sys2Proof/Machine/TileOut.lean ====
section
/-! DEFINITION. How a tile is written: plain values, pairs, cakes, MX blocks, masked rows, open groups, staging, and the
merges into statistics (spec/04 R95 to R131, spec/05 R146 to R153, spec/07 R185, spec/06 R159, spec/03 R73, R78 to R85,
R93). -/

namespace Sys2Proof.Machine

/-! ### Output masks (R159) -/

/-- A row's mask, the first position from which it is unknown, and its malformed cakes. -/
abbrev MaskRow := List Bool × Option Nat × List CakeBad

/-- The tensor whose cakes hold the output mask: the weight of the slot that MEPOCH selects, or the candidate gradient
tensor. -/
def maskSource (s : State) (r : Run) : Io Desc := do
  let d := r.dOut
  if r.ord.msel = 2 then return d
  else
    let e := dirOf s r.ord.mid
    let blk ← ioRakeOf s r.ord.mid
    match blk.slotOf d.base false with
    | some slot => return blk.weight slot
    | none =>
      if d.mepoch = (blk.weight (!e.slot)).mepoch ∧ d.mepoch ≠ (blk.weight e.slot).mepoch then
        return blk.weight (!e.slot)
      else return blk.weight e.slot

/-- The masks of a tile's rows, whole rows each; none for an output without a mask. -/
def tileMasks (s : State) (r : Run) (t : Nat) : Tl (Option (List MaskRow)) := do
  if !r.dOut.masked || r.ord.split then return none
  else
    let (r0, nr, c0, nc) := r.ord.tileAt t
    let src ← Tl.io (maskSource s r)
    let rows ← (List.range nr).mapM fun i => do
      let (bits, unk, bads) ← Tl.io (maskRow r.rereads src [] c0 src.klen (r0 + i))
      return (bits, unk, bads.filter fun b => decide (b.group * src.g < c0 + nc))
    Tl.bads (rows.map fun x => x.2.2).flatten
    return some rows

/-- Whether a mask row is known at a position. -/
def MaskRow.known (m : MaskRow) (k : Nat) : Bool := match m.2.1 with
  | some p => decide (k < p)
  | none => true

/-- The positions of a tile that are computed: present ones and listed outlier channels. -/
def tilePres (r : Run) (c0 nc : Nat) (ms : Option (List MaskRow)) : Option Pres :=
  ms.map fun rows => rows.map fun m => (List.range nc).map fun j =>
    m.known (c0 + j) && (m.1.getD (c0 + j) false || r.olOut.contains (c0 + j))

/-! ### Rows of output bytes -/

/-- Runs of consecutive present items with the index of their first. -/
def runsFrom {α : Type} : Nat → List (Option α) → List (Nat × List α)
  | _, [] => []
  | i, none :: t => runsFrom (i + 1) t
  | i, some x :: t =>
    match runsFrom (i + 1) t with
    | (j, xs) :: rest => if j = i + 1 then (i, x :: xs) :: rest else (i, [x]) :: (j, xs) :: rest
    | [] => [(i, [x])]

/-- A store of output row i at a byte offset of the row. -/
def rowStore (d : Desc) (i off : Nat) (bs : List Byte) : Tl Unit :=
  Tl.store { addr := d.base + i * d.rowstride + off, bytes := bs, row := some (i, off) }

/-- Plain values (R185): y ÷ COARSE rounded to OUT's format. -/
def outPlain (r : Run) (r0 c0 : Nat) (m : Mat) : Tl Unit :=
  m.zipIdx.forM fun (row, i) => do
    let d := r.dOut
    let w := d.w / 8
    let cells ← row.mapM fun v => match v with
      | none => pure none
      | some v => do
        let (code, ev) := storeFloat d.format r.chain.subn r.chain.ovf (xscale d.c v)
        Tl.ev (·.write true ev)
        return some (leBytes w code)
    (runsFrom 0 cells).forM fun (j, xs) => rowStore d (r0 + i) ((c0 + j) * w) xs.flatten

/-- The two W16 patterns of a pair (R153), with what the store of hi did and whether lo was flushed. -/
def pairOfV (subn ovf : Bool) (v : XVal) : Nat × Nat × WEv × Bool :=
  let (hi, ev) := limitFloat .w16 subn ovf v
  let (lo, lev) : XVal × WEv := match hi, v with
    | .fin h, .fin q => if ev.sat then (xzero, {}) else limitFloat .w16 subn ovf (.fin (qsub q h))
    | _, _ => (xzero, {})
  (encodeFloat .w16 hi, encodeFloat .w16 lo, ev, lev.flushed)

/-- Compensated pairs (R153, R185). -/
def outPair (r : Run) (loaddr r0 c0 : Nat) (m : Mat) : Tl Unit :=
  m.zipIdx.forM fun (row, i) => do
    let d := r.dOut
    let cells ← row.mapM fun v => match v with
      | none => pure none
      | some v => do
        let (hi, lo, ev, fl) := pairOfV r.chain.subn r.chain.ovf (xscale d.c v)
        Tl.ev (·.write true ev)
        Tl.ev (·.flush fl)
        return some (leBytes 2 hi, leBytes 2 lo)
    (runsFrom 0 cells).forM fun (j, xs) => do
      rowStore d (r0 + i) ((c0 + j) * 2) (xs.map (·.1)).flatten
      Tl.write (loaddr + (r0 + i) * d.rowstride + (c0 + j) * 2) (xs.map (·.2)).flatten

/-! ### Groups of codes -/

/-- What a group's writing counts (R113, R114, R150). -/
def TEv.group (t : TEv) (g : QGrp) : TEv :=
  { t with ev := { t.ev with
      sat := t.ev.sat + g.sat, under := t.ev.under + g.under, ovr := t.ev.ovr || g.ovr
      flushed := t.ev.flushed || g.flushed, nonfin := t.ev.nonfin + g.nonfin } }

/-- A closed group written at its place: `at_` is its address and its offset in the row. -/
def putGroup (d : Desc) (ol : List Nat) (i j : Nat) (mask : List Bool) (at_ : Nat × Nat) (g : QGrp) : Tl Unit := do
  Tl.ev (·.group g)
  if d.isMx then
    Tl.store { addr := at_.1, bytes := packCodes d.w g.codes, row := some (i, at_.2) }
    Tl.write (d.aux + i * (d.klen / 32) + j) (leBytes 1 g.fs)
  else
    let oxc := (List.range d.g).any fun p => ol.contains (j * d.g + p)
    Tl.store { addr := at_.1, bytes := encodeCake d g.fs g.zp false false oxc mask g.codes, row := some (i, at_.2) }

/-- Side values of a row's listed channels among the tile's columns (R85). -/
def putSideRow (r : Run) (c : Q) (i c0 : Nat) (row : List (Option XVal)) : Tl Unit :=
  r.olOut.zipIdx.forM fun (k, n) =>
    if c0 ≤ k ∧ k < c0 + row.length then
      match row.getD (k - c0) none with
      | none => pure ()
      | some v => do
        let (code, ev, under) := sideCode r.chain.subn r.chain.ovf c v
        Tl.ev (·.write true ev)
        Tl.ev fun t => { t with ev := { t.ev with under := t.ev.under + b2n under } }
        Tl.write (r.dOut.sideRow i + 2 * n) (leBytes 2 code)
    else pure ()

/-- An append into an open group, or a group that an append begins (R80, R131): `app` forms it from the tail entries, FSCALE,
ZP and codes that the group holds. -/
def putOpen (x : QCx) (i j n : Nat) (app : List Nat → Nat → Int → List Nat → Append) : Tl Unit := do
  let d := x.d
  let a := d.base + i * d.rowstride + j * d.slot
  let tailAt := d.aux + i * (2 * d.g)
  let hd ← if n = 0 then pure [] else Tl.io (ioRead a d.slot)
  let old ← if n = 0 then pure [] else Tl.io (ioRead tailAt (2 * n))
  let area := leNat (hd.drop 8)
  let codes := (List.range n).map (codeAt d.w area)
  let ap := app ((List.range n).map fun k => leAt old (2 * k) 2) (byteAt hd 0) (signedOf 8 (byteAt hd 1)) codes
  Tl.ev (·.group ap.grp)
  let bs := encodeCake d ap.grp.fs ap.grp.zp false (decide (ap.count < d.g)) false [] ap.grp.codes
  Tl.write (tailAt + 2 * n) (ap.tail.map (leBytes 2)).flatten
  Tl.store { addr := a + 8, bytes := bs.drop 8, row := some (i, j * d.slot + 8), cake := some [] }
  Tl.store { addr := a, bytes := bs.take 8, row := some (i, j * d.slot), cake := some bs }

/-- Whether an order's groups are written as R80 states: its columns reach the last group of an OPENOK row, at which alone an
append begins or ends (R96). -/
def Run.appends (r : Run) : Bool :=
  r.dOut.openok && decide ((r.dOut.klen - 1) / r.dOut.g * r.dOut.g < r.ord.col0 + r.ord.ncols)

/-- The mask of a masked output row's group: the positions present, listed outlier channels left out (R85). -/
def groupMask (d : Desc) (ol : List Nat) (m : MaskRow) (j : Nat) : List Bool :=
  (List.range d.g).map fun p => m.1.getD (j * d.g + p) false && !ol.contains (j * d.g + p)

/-- Sizes of a masked output row's cakes by its masks, as far as the mask is known. -/
def maskSizes (d : Desc) (ol : List Nat) (m : MaskRow) : List Nat :=
  (List.range d.ng).map fun j => d.maskedSize ((groupMask d ol m j).filter id).length

/-- The start of a masked row and whether its cakes fit the row table (R73). -/
def maskedRowAt (d : Desc) (ol : List Nat) (m : MaskRow) (i : Nat) : Tl (Nat × Bool) := do
  let t0 ← Tl.io (ioNum (d.aux + 4 * i) 4)
  let t1 ← Tl.io (ioNum (d.aux + 4 * (i + 1)) 4)
  return (d.base + 16 * t0, m.2.1.isSome || decide (16 * t0 + (maskSizes d ol m).sum ≤ 16 * t1))

/-- The groups of a tile, each row by row: `code` writes one group from the items at its present positions. Answers
whether every row fitted its row table. -/
def outGroups {α : Type} (r : Run) (r0 c0 nc : Nat) (ms : Option (List MaskRow)) (m : List (List (Option α)))
    (code : List α → QGrp) (app : Nat → Nat → Nat → List α → Tl Unit) : Tl Bool := do
  let d := r.dOut
  let js := (List.range ((c0 + nc + d.g - 1) / d.g - c0 / d.g)).map (c0 / d.g + ·)
  let oks ← m.zipIdx.mapM fun (row, i) => do
    let mrow : Option MaskRow := ms.bind fun x => x[i]?
    let (start, fits) ← match mrow with
      | some mr => maskedRowAt d r.olOut mr (r0 + i)
      | none => pure (d.base + (r0 + i) * d.rowstride, true)
    if !fits then return false
    else
      js.forM fun j => do
        let lo := max (j * d.g) c0
        let hi := min ((j + 1) * d.g) (c0 + nc)
        let cells := (List.range (hi - lo)).map fun p => row.getD (lo + p - c0) none
        if r.appends then app (r0 + i) j (lo - j * d.g) (cells.filterMap id)
        else
          let keep := cells.zipIdx.filterMap fun (v, p) =>
            let k := lo + p
            if r.olOut.contains k then none
            else match mrow with
              | some mr => if mr.1.getD k false then v else none
              | none => v
          match mrow with
          | none =>
            let off := j * (if d.isMx then 4 * d.w else d.slot)
            putGroup d r.olOut (r0 + i) j [] (start + off, off) (code keep)
          | some mr =>
            if mr.known (j * d.g) then
              let off := ((maskSizes d r.olOut mr).take j).sum
              putGroup d r.olOut (r0 + i) j (groupMask d r.olOut mr j) (start + off, off) (code keep)
            else pure ()
      return true
  return oks.all id

/-! ### The crystalliser's tile (R95 to R112, R127) -/

/-- How a run's crystalliser writes with a coarse scale; `computed` chooses the ceiling (R102). -/
def Run.qcx (r : Run) (c : W32) (computed : Bool) : QCx :=
  { d := r.dOut, cb := r.cbOut, c := fp32Q c, ceil := ceilCode r.dOut.fine r.dOut.var computed, subn := r.chain.subn
    ovf := r.chain.ovf }

/-- Values quantised with a coarse scale in a mode (R101). Only a streamed group exceeds the ceiling as an event (R115,
R127). -/
def outQuant (r : Run) (c : W32) (mode : Nat) (r0 c0 nc : Nat) (ms : Option (List MaskRow)) (m : Mat) : Tl Bool := do
  let x := r.qcx c (mode != 0)
  let ok ← outGroups r r0 c0 nc ms m x.group fun i j n vs => putOpen x i j n fun t fs zp cs => x.append t fs zp cs vs
  if mode ≠ 2 then Tl.ev fun t => { t with ev := { t.ev with ovr := false } }
  if !r.olOut.isEmpty then m.zipIdx.forM fun (row, i) => putSideRow r x.c (r0 + i) c0 row
  return ok

/-- The value of an integer rescale's element with the output's coarse scale left out (R146). -/
def intValue (zo : Int) (c : Option (Int × Bool)) : XVal :=
  match c with
  | some (i, _) => .fin (qofInt (i - zo))
  | none => .nan

/-- Integer codes (R146). A listed outlier channel's side value is that of its code, COARSE applying to both (R75, R85; DESIGN
CHOICE, log entry 123). -/
def outInts (r : Run) (zo : Int) (r0 c0 nc : Nat) (ms : Option (List MaskRow))
    (m : List (List (Option (Option (Int × Bool))))) : Tl Bool := do
  let x := r.qcx r.dOut.coarse false
  let ok ← outGroups r r0 c0 nc ms m (intGroupOut r.dOut zo) fun i j n vs =>
    putOpen x i j n fun t fs zp cs => x.appendInts t fs zp cs zo vs
  if !r.olOut.isEmpty then
    m.zipIdx.forM fun (row, i) => putSideRow r qone (r0 + i) c0 (row.map fun v => v.map (intValue zo))
  return ok

/-- The tensor amax of a tile: present positions that are not listed (R98). -/
def tileAmax (r : Run) (c0 : Nat) (m : Mat) : Q :=
  amaxOf (m.map fun row => row.zipIdx.map fun (v, j) => if r.olOut.contains (c0 + j) then none else v).flatten

/-- Channel amax merges (R100). -/
def channelMerges (q : Stage) (c0 nc : Nat) (m : Mat) : List (Aop × Nat × Nat) :=
  if !q.camx then []
  else (List.range nc).map fun j =>
    (.maxu32, q.camax + 4 * (c0 + j), (fp32Up (amaxOf (m.map fun row => row.getD j none))).toNat)

/-! ### Staging (R117, R118) -/

/-- The staged format: W16 when the QUANT input is W16. -/
def Chain.stageFmt (c : Chain) : Fmt := if c.incoming (c.stages.length - 1) = 0 then .w16 else .fp32

/-- Address of a staged position. -/
def stageAt (q : Stage) (f : Fmt) (klen i k : Nat) : Nat :=
  q.wstage + i * (16 * ((klen * f.width + 127) / 128)) + k * (f.width / 8)

/-- A tile staged wide. -/
def outStage (r : Run) (q : Stage) (r0 c0 : Nat) (m : Mat) : Tl Unit :=
  let f := r.chain.stageFmt
  m.zipIdx.forM fun (row, i) =>
    let cells := row.map fun v => v.map fun x => leBytes (f.width / 8) (storeFloat f false true x).1
    (runsFrom 0 cells).forM fun (j, xs) => Tl.write (stageAt q f r.dOut.klen (r0 + i) (c0 + j)) xs.flatten

/-- A staged tile read back; positions that are not present stay none. -/
def readStage (r : Run) (q : Stage) (r0 nr c0 nc : Nat) (pres : Option Pres) : Tl Mat := do
  let f := r.chain.stageFmt
  let w := f.width / 8
  (List.range nr).mapM fun i => do
    let bs ← Tl.io (ioRead (stageAt q f r.dOut.klen (r0 + i) c0) (nc * w))
    return (List.range nc).map fun j => if presAt pres i j then some (floatValue f (leAt bs (j * w) w)) else none

/-! ### Counting merges (R115, R150, R231) -/

/-- The counting merges of a tile's events into a statistics record, with the MODE bits of a QUANT order. -/
def countMerges (stats : Nat) (e : Ev) (mode : Option Nat) : List (Aop × Nat × Nat) :=
  let sf := (match mode with | some m => m | none => 0) + 4 * b2n e.ovr + 8 * b2n e.flushed
  ([(.addl32, stats, e.sat), (.addl32, stats + 4, e.under), (.addl32, stats + 12, e.invalid),
    (.addl32, stats + 16, e.overflow), (.addl32, stats + 20, e.nonfin), (.or32, stats + 28, sf)] :
      List (Aop × Nat × Nat)).filter fun x => x.2.2 ≠ 0

end Sys2Proof.Machine
end

