-- ==== Sys2Proof/Machine/Tile.lean ====
section
/-! DEFINITION. Tiles: start, completion, replay, parking, settlement, second pass, partial notices; waking and swapping pans
(spec/04 R118 to R128, spec/08 R217, R225, R234, R237 to R240, spec/13 R369 to R374, spec/14 R396). -/

namespace Sys2Proof.Machine

/-! ### Where an order that a pan has taken stands -/

/-- The running order, an armed slot, or an order all of whose tiles have passed, by ring index. -/
inductive Place where
  | run
  | armed (j : Fin 16)
  | passed (n : Nat)
  deriving DecidableEq, Repr

def LPan.at_ (x : LPan) : Place → Option Run
  | .run => x.run
  | .armed j => vget x.armed j
  | .passed n => x.passed.find? fun r => r.n = n

def LPan.put (x : LPan) (w : Place) (r : Option Run) : LPan :=
  match w with
  | .run => { x with run := r }
  | .armed j => { x with armed := vset x.armed j r, tideTile := if r.isNone && x.tideTile = some j then none else x.tideTile }
  | .passed n => { x with passed := match r with
      | some r => x.passed.map fun y => if y.n = n then r else y
      | none => x.passed.filter fun y => y.n ≠ n }

def modRun (s : State) (l : Fin 60) (w : Place) (f : Run → Run) : State :=
  modLp s l fun x => x.put w ((x.at_ w).map f)

/-- The order whose tile runs. -/
def LPan.active (x : LPan) : Option (Place × Run) :=
  match x.tideTile with
  | some j => (vget x.armed j).map fun r => (.armed j, r)
  | none => match x.run with
    | some r => if r.started then some (.run, r) else none
    | none => none

/-- An order leaves its pan with a status: its record waits to be written, its parked tiles are gone, and a settling
order that ends without its result tells its senders (R372). -/
def finish (s : State) (l : Fin 60) (w : Place) (status : Nat) : State :=
  match (lp s l).at_ w with
  | none => s
  | some r =>
    let s := if status = stOk then s else endSettle s r
    let s := modLp s l fun x => { (x.put w none) with parked := x.parked.filter fun y => y.n ≠ r.n }
    pushDone (endReplay s (panPage s l)) l (r.done status (ppanOf s l))

/-- Whether a pan's page reads FAULTED. -/
def fencedNow (s : State) (l : Fin 60) : Bool := (hdr s (panPage s l)).mode == .faulted || (physOf s l).isNone

/-! ### A tile attempt fails (R370 to R372) -/

/-- Whether the tile may be replayed (R372). -/
def Run.replayable (r : Run) : Bool := !(r.ord.settle && r.fold.received) && !r.opened

/-- The attempt of a tile ends with an error: it is replayed, the order ends with FAULT, or the pan is fenced. -/
def attemptFailed (s : State) (l : Fin 60) (w : Place) (e : ErrIn) : State :=
  match (lp s l).at_ w with
  | none => s
  | some r =>
    let p := panPage s l
    let e := { e with oid := r.ord.oid.toNat, lpan := l.1, replay := r.replayed }
    if e.cause = cRemoteat || !r.replayable then finish (recordErr s p e) l w stFault
    else if !r.replayed then
      let s := recordErr s p { e with opens := true }
      if fencedNow s l then s
      else
        let s := modFlt s fun f => { f with replaycnt := f.replaycnt + 1 }
        modRun s l w fun r => { r with replayed := true, good := [], badc := [], cont := none }
    else if e.suspect then
      -- handed to a spare (R361, R371)
      let (cls, s) := recordOnly s p e
      let s := respond s p e.cause (max cls 2)
      modRun (endReplay s p) l w fun r => { r with replayed := false, cont := none }
    else finish (recordErr s p e) l w stFault

/-- Records of cakes malformed on both reads (R69). -/
def recordBads (s : State) (l : Fin 60) (r : Run) (bads : List CakeBad) : State :=
  bads.foldl (fun s b => recordErr s (panPage s l)
    { cause := cBadcake, oid := r.ord.oid.toNat, addr := some b.addr, row := b.row, group := b.group, lpan := l.1
      replay := r.replayed }) s

/-- The order of a place ends with FAULT while a cake of its replay is malformed again; its record shows BADCAKE (R69, R371). -/
def replayBad (s : State) (l : Fin 60) (w : Place) : State :=
  finish (modRun s l w fun r => { r with ev := { r.ev with badcake := true } }) l w stFault

/-- An error of a tile's traffic: its record names the tile's first output value (DESIGN CHOICE, log
entry 111). -/
def Run.tileErr (r : Run) (t : Nat) (e : ErrIn) : ErrIn :=
  { e with row := (r.ord.tileAt t).1, col := (r.ord.tileAt t).2.2.1 }

/-- The error of a read that ended an attempt. -/
def IoErr.toErr : IoErr → ErrIn
  | .brine a => { cause := cBrine, addr := some a }
  | .remoteat a => { cause := cRemoteat, addr := some a }

/-! ### Stores and merges -/

/-- A store of an order with STAG into the remote aperture leaves as TILE frames of at most 4096 bytes (R336, R327);
structural on a bound of their number. -/
def sendTileFrames (peer : Nat) (stag : W32) (row : Nat) : Nat → State → Nat → List Byte → State
  | 0, s, _, _ => s
  | n + 1, s, off, bs =>
    if bs.isEmpty then s
    else
      let k := 4096 - off % 4096
      let s := sendTo s peer 2 1 (leBytes 4 stag.toNat ++ leBytes 4 row ++ leBytes 2 1 ++ leBytes 2 (off / 4096)) (bs.take k)
      sendTileFrames peer stag row n s (off + k) (bs.drop k)

/-- Plain gradient bytes cut into the groups that land (R283). -/
def gradPieces (d : Desc) (a : Nat) (bs : List Byte) : Nat → List (Nat × List Byte)
  | 0 => []
  | n + 1 =>
    if bs.isEmpty then []
    else
      let u := d.g * d.w / 8
      let off := (a - d.base) % d.rowstride
      let k := u - off % u
      (a, bs.take k) :: gradPieces d (a + k) (bs.drop k) n

/-- The gradient pieces among a tile's stores: shard, address, bytes (R283, R284). -/
def gradParts (s : State) (w : TWrite) : List (Nat × Nat × List Byte) :=
  let a := hostAddr s w.addr
  match apertureOf s (addr64 w.addr), w.row, gradShardOf s a with
  | none, some _, some i =>
    let gd := (shardOf s i).gd
    (if gd.isPlain then gradPieces gd a w.bytes (w.bytes.length + 1) else [(a, w.bytes)]).map fun x => (i, x.1, x.2)
  | _, _, _ => []

/-- The gradient cakes and groups that land with a store. -/
def landParts (s : State) (w : TWrite) : List (Nat × Nat × List Byte) :=
  match w.cake with
  | none => gradParts s w
  | some [] => []
  | some bs => (gradParts s w).map fun x => (x.1, x.2.1, bs)

/-- Whether a tile keeps gradients that may not be written yet (R285, R297). -/
def gradsWait (s : State) (ws : List TWrite) : Bool := ws.any fun w => (gradParts s w).any fun x => landWaits s x.1

/-- A store as it leaves for the remote aperture: an open group's body goes with its header, in one frame, so that a
gradient cake lands once (R80, R283). -/
def TWrite.remote (w : TWrite) : TWrite :=
  match w.cake with
  | none => w
  | some bs => { w with bytes := bs }

/-- One store of a tile: TILE frames or a write, issued piece by piece for gradients; the address of an error response. -/
def applyStore (s : State) (o : Order) (w : TWrite) : Option Nat × State :=
  let far := apertureOf s (addr64 w.addr)
  let w := if far.isSome then w.remote else w
  if w.bytes.isEmpty then (none, s) else
  match far, w.row with
  | some (peer, _), some (row, off) =>
    if o.stag ≠ 0 then (none, sendTileFrames peer o.stag row (w.bytes.length / 4096 + 2) s off w.bytes)
    else (none, (wrHost s w.addr w.bytes).2)
  | some _, none => (none, (wrHost s w.addr w.bytes).2)
  | none, _ => match gradParts s w with
    | [] =>
      let (ok, t) := wrHost s w.addr w.bytes
      (if ok then none else some (firstBad s (hostAddr s w.addr) w.bytes.length), t)
    | ps => ps.foldl (fun x p =>
        let (ok, t) := landWrite x.2 p.1 p.2.1 p.2.2
        (x.1.orElse fun _ => if ok then none else some (firstBad s p.2.1 p.2.2.length), t)) (none, s)

/-- The gradients of a tile whose stores are all answered land (R284, R370). -/
def landTile (s : State) (ws : List TWrite) : State :=
  ((ws.map (landParts s)).flatten).foldl (fun s p => landCount s p.1 p.2.1 p.2.2) s

/-- The stores of a tile, and the first address answered with an error. -/
def applyStores (s : State) (o : Order) (ws : List TWrite) : Option Nat × State :=
  ws.foldl (fun x w => let (b, s) := applyStore x.2 o w; (x.1.orElse fun _ => b, s)) (none, s)

/-- What stands against a tile's merges: an atomic into the aperture or an error response. -/
def mergesBad (s : State) (ms : List (Aop × Nat × Nat)) : Option IoErr :=
  ms.findSome? fun m =>
    let a := hostAddr s m.2.1
    if (apertureOf s (addr64 m.2.1)).isSome then some (.remoteat (addr64 m.2.1))
    else if lineBad s a then some (.brine a) else none

def applyMerges (s : State) (ms : List (Aop × Nat × Nat)) : State := ms.foldl (fun s m => (atHost s m.1 m.2.1 m.2.2).2) s

/-- A tile's events in its physical pan's page (R48, R150, R151, R477). -/
def panEvents (s : State) (l : Fin 60) (oid : W32) (t : TEv) : State :=
  match physOf s l with
  | none => s
  | some p => modPanR s p fun x =>
    let x := { x with flushed := x.flushed || t.ev.flushed, invalid := x.invalid || decide (0 < t.ev.invalid)
                      overflow := x.overflow || decide (0 < t.ev.overflow) }
    match t.cap with
    | some c =>
      if x.capV then x
      else { x with capV := true, capCause := BitVec.ofNat 2 c.cause, capPos := BitVec.ofNat 8 c.pos, capOid := oid
                    capRow := BitVec.ofNat 32 c.row, capCol := BitVec.ofNat 32 c.col, capGroup := BitVec.ofNat 32 c.group }
    | none => x

def countTile (s : State) (l : Fin 60) : State :=
  match physOf s l with
  | some p => modPanR s p fun x => { x with tilecnt := satAdd x.tilecnt 1 }
  | none => s

/-! ### Starting tiles (R225) -/

/-- Whether the pan's held work may go on to another tile. -/
def mayTile (s : State) (l : Fin 60) : Bool :=
  match livePan s l with
  | some p => goesOn s .glb && goesOn s (.pan p) && !halted s p.1 && s.flt.lastrst != 3 && s.flt.pfstate == 0 && !s.wrap.taken
  | none => false

/-- Rows of the next tile that have arrived. -/
def Run.tideRows (r : Run) : List Nat :=
  let (r0, nr, _, _) := r.ord.tileAt r.next
  (r.arrived.map fun x => x.1).filter fun i => decide (r0 ≤ i ∧ i < r0 + nr)

def Run.tideFull (r : Run) : Bool :=
  let (r0, nr, _, _) := r.ord.tileAt r.next
  (List.range nr).all fun i => r.arrived.any fun x => x.1 = r0 + i

/-- A grant at the new front, and what local senders send under it. -/
def regrant (s : State) (l : Fin 60) : State :=
  match (lp s l).run with
  | some r =>
    let s := sendEveryBlock (sendGrants s r.ord r.fold.front r.ord.pslots)
    (List.finRange 60).foldl senderCheck s
  | none => s

def modFold (s : State) (l : Fin 60) (f : Fold → Fold) : State := modRun s l .run fun r => { r with fold := f r.fold }

/-- Blocks at the front folded one after another (R239); structural on a bound of their number. The OVERFLOW bit of a received block
counts 1 in OVFCNT, as no rule gives it a count (R152; DESIGN CHOICE, log entry 120). -/
def settleAdvance : Nat → State → Fin 60 → State
  | 0, s, _ => s
  | n + 1, s, l =>
    match (lp s l).run with
    | none => s
    | some r =>
      let f := r.fold
      let o := r.ord
      let (_, ng) := r.groups s l
      let t0 := r.next * ng
      let (_, nr, _, nc) := o.tileAt r.next
      if !o.settle || !r.started || decide (t0 + ng ≤ f.front) then s
      else match f.own.find? fun b => b.q = f.front with
        | some b =>
          settleAdvance n (regrant (modFold s l fun f => { f with front := f.front + b.ngrp, folded := f.folded ++ [b] }) l) l
        | none => match f.slots.find? fun x => x.2 = f.front with
          | none => s
          | some (slot, q) =>
            let kind := if r.chain.irs then 1 else 0
            let a := slotAddr { front := f.front, pslots := o.pslots, parea := o.parea } o kind q
            let (x, s) := rdHost s a (o.bsz kind)
            match x with
            | none => attemptFailed s l .run (r.tileErr r.next { cause := cBrine, addr := some a })
            | some bs =>
              let (tag, b, nval) := blockOf bs t0
              let drop := fun (f : Fold) => { f with slots := f.slots.filter fun y => y.1 ≠ slot }
              if tag ≠ o.ptag ∨ nval ≠ nr * nc ∨ b.kind ≠ kind ∨ (kind = 0 ∧ b.ngrp ≠ 1)
                  ∨ (kind = 1 ∧ (b.ngrp = 0 ∨ t0 + ng < f.front + b.ngrp)) then
                recordErr (modFold s l drop) (panPage s l)
                  { cause := cPartbad, oid := o.oid.toNat, addr := some a, lpan := l.1 }
              else
                let b := { b with q := q }
                let ev : TEv := TEv.merge { ev := f.ev, cap := f.cap }
                  { ev := { invalid := b.inv, overflow := b2n b.ovf }, cap := b.cap }
                settleAdvance n (regrant (modFold s l fun f =>
                  { drop f with front := f.front + b.ngrp, folded := f.folded ++ [b], ev := ev.ev, cap := ev.cap
                                received := true }) l) l

def advanceAll (s : State) (l : Fin 60) : State :=
  match (lp s l).run with
  | some r => settleAdvance (r.fold.own.length + r.fold.slots.length + 1) s l
  | none => s

/-- The own group results of a SETTLE order's tile, and the fold as far as it goes. -/
def settleStart (s : State) (l : Fin 60) (r : Run) : State :=
  let (_, _, c0, nc) := r.ord.tileAt r.next
  let (ms, s) := Io.run (tileMasks s r r.next {}) s
  let pres := match ms with
    | .ok (ms, _) => tilePres r c0 nc ms
    | .error _ => none
  let (x, s) := Io.run (ownBlocks s l r r.next pres {}) s
  match x with
  | .error e => modRun (attemptFailed s l .run (r.tileErr r.next e.toErr)) l .run fun r => { r with started := false }
  | .ok (bl, acc) =>
    let ev := bl.foldl (fun t b => t.merge b.2) acc.t
    let s := recordBads s l r acc.bads
    if fencedNow s l then s
    else if r.replayed && !acc.bads.isEmpty then replayBad s l .run
    else advanceAll (modFold s l fun f => { f with own := bl.map Prod.fst, folded := [], ev := ev.ev, cap := ev.cap }) l

/-- The path of the order's next tile (R23, R156): sparse where the stationary operand carries a mask and 4 × NZ ≤ NP. No bit
of a result depends on it (R133). The header reads may end the attempt. -/
def choosePath (s : State) (l : Fin 60) (w : Place) (r : Run) : State :=
  if r.chain.isPass || !(r.ord.xb || (r.dB.isCake && r.dB.masked)) then modRun s l w fun r => { r with sparse := false }
  else
    let (_, _, c0, nc) := r.ord.tileAt r.next
    let (r0, n) := if r.chain.prod2.isSome then (0, opRows r.dB r.ord.xb) else (c0, nc)
    match Io.run (stationaryCodes s r r0 n) s with
    | (.ok nz, s) => modRun s l w fun x => { x with sparse := decide (4 * nz ≤ n * opKlen r.dB r.ord.xb) }
    | (.error e, s) => attemptFailed s l w (r.tileErr r.next e.toErr)

/-- TILE_START: the next tile of the pan (R225), with its path. -/
def tileStart (s : State) (l : Fin 60) : State :=
  let x := lp s l
  if x.inTile || x.settle.isSome || !mayTile s l then wakeLogical s l
  else
    let used := fun (s : State) => match physOf s l with
      | some p => useStep s p.1
      | none => s
    let ready := (List.finRange 16).find? fun j => match vget x.armed j with
      | some r => !r.tideRows.isEmpty && !(r.ord.fence && fenced x r.n)
      | none => false
    match ready with
    | some j =>
      let s := used (modLp s l fun x => { x with tideTile := some j })
      match vget x.armed j with
      | some r => choosePath s l (.armed j) r
      | none => s
    | none => match x.run with
      | some r =>
        if r.next < r.ord.tileCount && !r.abort then
          let s := choosePath (used (modRun s l .run fun r => { r with started := true })) l .run r
          if r.ord.settle then
            (match (lp s l).run with
              | some r => settleStart s l r
              | none => s)
          else s
        else s
      | none => s

def execTileStart (l : Fin 60) (bad : List Nat) (s : State) : Host.Outcome State Fault Refusal :=
  .next (commandAs (.pan l 0) bad s fun s => tileStart s l)

/-! ### Completing tiles (R118, R127, R217, R370) -/

/-- The mode in which a tile of an order runs (R101, R125). A SPLIT order applies no stage of the chain it shares (R236,
R239). -/
def tileMode (s : State) (r : Run) : Nat :=
  match r.chain.quant with
  | none => 0
  | some q =>
    if r.ord.split then 0 else
    if q.csrc = 2 then (if (histOf s r.dOut.hist).streams (s.glb.histWarm.toNat + 1) then 2 else 1) else q.csrc

/-- What a tile's computation and output gave. -/
structure TileOut where
  blocks : List (PBlock × TEv) := []
  fits   : Bool := true

/-- Computes tile t and gathers its stores and maximum merges. A tile of an integer rescale merges neither TAMAX nor a channel amax
(R115; DESIGN CHOICE, log entry 117). -/
def tileBody (s : State) (l : Fin 60) (r : Run) (t mode : Nat) : Tl TileOut := do
  let (r0, _, c0, nc) := r.ord.tileAt t
  let ms ← tileMasks s r t
  let pres := tilePres r c0 nc ms
  match ← tileVals s l r t pres, r.chain.quant, r.chain.pair with
  | .blocks b, _, _ => return { blocks := b }
  | .ints m, some q, _ => return { fits := ← outInts r q.izp r0 c0 nc ms m }
  | .ints _, none, _ => return {}
  | .vals m, some q, _ => do
    (channelMerges q c0 nc m).forM fun x => Tl.merge x.1 x.2.1 x.2.2
    Tl.merge .maxu32 (r.dOut.stats + 8) (fp32Up (tileAmax r c0 m)).toNat
    if mode = 1 then
      outStage r q r0 c0 m
      return {}
    else if mode = 2 then
      let c := streamedCoarse r.dOut r.cbOut q.hdrm (histOf s r.dOut.hist)
      Tl.write (r.dOut.addr + 32) (leBytes 4 c.toNat)
      return { fits := ← outQuant r c 2 r0 c0 nc ms m }
    else return { fits := ← outQuant r r.dOut.coarse 0 r0 c0 nc ms m }
  | .vals m, none, some p => do
    outPair r p.addr r0 c0 m
    return {}
  | .vals m, none, none => do
    outPlain r r0 c0 m
    return {}

/-- The run after a tile has passed. -/
def Run.afterTile (r : Run) (t : TEv) (mode : Nat) (counted : Bool) : Run :=
  let (r0, nr, _, _) := r.ord.tileAt r.next
  { r with
    tiles := r.tiles + b2n counted, next := r.next + 1, started := false, ev := r.ev.merge t.ev, mode := mode
    good := [], badc := [], replayed := false, opened := false, cont := none
    fold := { r.fold with own := [], folded := [], ev := {}, cap := none }
    frags := r.frags.filter fun f => decide (r0 + nr < f.first + f.nrow) }

/-- The order goes on, waits for its parked tiles or its settlement, or completes. -/
def afterTile (s : State) (l : Fin 60) (w : Place) (r : Run) : State :=
  let x := lp s l
  let s := modLp s l fun x => { (x.put w (some r)) with tideTile := none }
  let s := endReplay s (panPage s l)
  let s := if r.ord.tide then claimTiles s.twn.held s else s
  if r.abort then finish s l w stAborted
  else if r.next < r.ord.tileCount then s
  else if r.ord.split then senderCheck s l
  else if x.parked.any (fun y => y.n = r.n) || (x.settle.map fun y => y.n == r.n).getD false then
    modLp s l fun x => { (x.put w none) with passed := x.passed ++ [r] }
  else finish s l w stOk

/-- The candidate tiles that a tile's stores bring into the OWNER's candidate gradient tensor: one for a tile whose output lies
in the instance's own memory (R168). -/
def candTile (s : State) (r : Run) : State :=
  if r.ord.msel = 2 && (dirOf s r.ord.mid).role == 1 && (apertureOf s (addr64 r.dOut.base)).isNone then
    modDir s r.ord.mid fun e => { e with cgTiles := e.cgTiles + 1 }
  else s

/-- A tile whose stores are all answered: its merges, gradients and bookkeeping. A two-pass tile parks; it counts as completed
with its second pass, while the events of its product count here (DESIGN CHOICE, log entry 122). -/
def mergeTile (s : State) (l : Fin 60) (w : Place) (r : Run) (c : TileCont) : State :=
  let o := r.ord
  let quant := r.chain.quant
  let computed := decide (c.mode = 1 ∨ c.mode = 2)
  let counts := if o.split then [] else countMerges r.dOut.stats c.ev
    (if quant.isSome && c.mode ≠ 1 then some c.mode else none)
  let done := if computed then [(Aop.addl16, r.dOut.stats + 24, 1)] else []
  match mergesBad s (c.merges ++ counts ++ done) with
  | some e => attemptFailed s l w (r.tileErr r.next e.toErr)
  | none =>
    if !c.fits then finish s l w stBadDesc
    else
      let t : TEv := { ev := c.ev, cap := c.cap }
      let s := landTile (applyMerges s (c.merges ++ counts)) c.writes
      let (old, s) := if computed then atHost s .addl16 (r.dOut.stats + 24) 1 else (.err, s)
      let last := match old, quant with
        | .old x, some q => x + 1 == q.tiles
        | _, _ => false
      let s := candTile (panEvents s l o.oid t) r
      let s := if c.mode = 1 then modLp s l fun x =>
          { x with parked := x.parked ++ [{ n := r.n, tile := r.next, hist := r.dOut.hist }] } else countTile s l
      let s := if last then modLp s l fun x =>
          { x with settle := some { n := r.n, mode := c.mode, d := r.dOut, cb := r.cbOut, oid := o.oid } } else s
      let s := afterTile s l w (({ r with blocks := r.blocks ++ c.blocks } : Run).afterTile t c.mode (c.mode != 1))
      if o.split then senderCheck (sendAllBlocks s l) l else s

/-- A computed tile's stores; its merges follow once every store is answered, at once unless one goes to the remote aperture
(R229, R244, R331). -/
def storeTile (s : State) (l : Fin 60) (w : Place) (r : Run) (mode : Nat) (out : TileOut) (acc : Acc) : State :=
  let who := s.who
  let (bad, s) := applyStores { s with who := some (.pan l r.n) } r.ord acc.writes
  let s := { s with who := who }
  let s := if r.appends then modRun s l w fun r => { r with opened := true } else s
  let c : TileCont := { mode := mode, fits := out.fits, blocks := out.blocks.map Prod.fst, ev := acc.t.ev, cap := acc.t.cap
                        writes := acc.writes, merges := acc.merges }
  match bad with
  | some a => attemptFailed s l w (r.tileErr r.next { cause := cBrine, addr := some a })
  | none =>
    if writesOut s (.pan l r.n) then modRun s l w fun r => { r with cont := some c } else mergeTile s l w r c

/-- A stored tile whose remote writes were awaited: it goes on once all are acknowledged. -/
def resumeTile (s : State) (l : Fin 60) (w : Place) (r : Run) (c : TileCont) : State :=
  if writesOut s (.pan l r.n) then s else mergeTile s l w { r with cont := none } c

/-- A fault that IARM asks a tile's detectors for (R385); only products pass the residue check. -/
def injectedReplay (s : State) (p : Fin 64) (r : Run) : Option Nat :=
  [cResidue, cLockstep, cEccunc].find? fun c => corruptArmed s (.pan p) c && !(c == cResidue && r.chain.isPass)

/-- Corrected events that IARM asks for; only a cake's read can be the one that failed at first. -/
def injectCorr (s : State) (l : Fin 60) (p : Fin 64) (r : Run) : State :=
  [cEcccor, cCakerd].foldl (fun s c =>
    if corruptArmed s (.pan p) c && (c == cEcccor || r.dA.isCake || r.dB.isCake) then
      let (a, s) := takeFree 64 s
      recordErr s (.pan p) (r.tileErr r.next
        { cause := c, oid := r.ord.oid.toNat, addr := some a.toNat, lpan := l.1, replay := r.replayed, inj := true })
    else s) s

/-- The first cake of a tile's operand A, which a CORRUPT of BADCAKE spoils on both reads. -/
def spoiled (s : State) (p : Fin 64) (r : Run) : List Nat :=
  if corruptArmed s (.pan p) cBadcake then [r.dA.base + (r.ord.tileAt r.next).1 * r.dA.rowstride] else []

/-- Runs the attempt of an active tile to its end. An attempt that a read ends has passed no value to its detectors. One
whose gradients may not be written yet stays where it is. -/
def runTile (s0 : State) (l : Fin 60) (w : Place) (r : Run) (p : Fin 64) : State :=
  let s := s0
  let r := { r with badc := r.badc ++ spoiled s p r }
  let mode := tileMode s r
  let (td, s) := if mode = 1 ∨ mode = 2 then rdNum s (r.dOut.stats + 24) 2 else (some 0, s)
  match td, r.chain.quant with
  | none, _ => attemptFailed s l w (r.tileErr r.next { cause := cBrine, addr := some (r.dOut.stats + 24) })
  | some td, q =>
    if decide (mode = 1 ∨ mode = 2) && decide ((q.map (·.tiles)).getD 0 ≤ td) then finish s l w stBadDesc
    else if mode = 1 ∧ 256 ≤ (lp s l).parked.length then finish s l w stParkFull
    else
      let (x, s) := Io.run (tileBody s l r r.next mode {}) s
      match x with
      | .error e => attemptFailed s l w (r.tileErr r.next e.toErr)
      | .ok (out, acc) =>
        match injectedReplay s p r with
        | some c =>
          let (a, s) := if c = cEccunc then takeFree 64 s else (0, s)
          attemptFailed s l w (r.tileErr r.next
            { cause := c, suspect := true, inj := true, addr := if c = cEccunc then some a.toNat else none })
        | none =>
          let s := recordBads (injectCorr s l p r) l r acc.bads
          if fencedNow s l then s
          else if r.replayed && !acc.bads.isEmpty then replayBad s l w
          else if gradsWait s acc.writes then s0
          else storeTile s l w r mode out acc

/-- TILE_COMPLETE: the active tile's attempt ends. A SETTLE order's tile ends once every group has been folded, a tidewater
tile once all its rows have arrived. -/
def tileComplete (s : State) (l : Fin 60) : State :=
  match (lp s l).active, livePan s l with
  | some (w, r), some p =>
    match r.cont with
    | some c => resumeTile s l w r c
    | none =>
    if r.ord.settle then
      let s := advanceAll s l
      match (lp s l).active with
      | some (w, r) =>
        if (r.next + 1) * (r.groups s l).2 ≤ r.fold.front then runTile s l w r p else s
      | none => s
    else if r.ord.tide && !r.tideFull then s
    else runTile s l w r p
  | _, _ => s

def execTileComplete (l : Fin 60) (bad : List Nat) (s : State) : Host.Outcome State Fault Refusal :=
  .next (commandAs (.pan l 0) bad s fun s => tileComplete s l)

/-! ### Second reads and replays (R69, R371) -/

/-- The tensors whose cakes an order reads: its operands, the masks that its stages name, and its output's mask. -/
def Run.cakeSources (s : State) (r : Run) : List Opnd :=
  let masks := (r.chain.stages.filter fun st => st.op == opMask && st.ctl % 4 == 1).map fun st =>
    let d := descOf st.addr (memBytes s.host (hostAddr s st.addr) 64)
    ({ d := d, ol := if d.nout = 0 then [] else (outlierList d (memBytes s.host (hostAddr s d.side) 256)).getD [] } : Opnd)
  let out : List Opnd := if r.dOut.masked && !r.ord.split then
      (match (Io.run (maskSource s r) s).1 with
        | .ok d => [{ d := d }]
        | .error _ => [])
    else []
  [({ d := r.dA, cb := r.cbA, ol := r.olA } : Opnd), { d := r.dB, cb := r.cbB, ol := r.olB },
   { d := r.dV, cb := r.cbV, ol := r.olV }] ++ masks ++ out

/-- Whether bytes are a well-formed cake of one of an order's tensors. -/
def Run.wellFormed (s : State) (r : Run) (j : Nat) (bs : List Byte) : Bool :=
  (r.cakeSources s).any fun o => o.d.isCake && (decodeCake o j bs).isSome

/-- CAKE_REREAD: the second read of a cake that the active tile, or the order to start next, found malformed. -/
def cakeReread (s : State) (l : Fin 60) (addr row group : Nat) (bytes : List Byte) : State :=
  let x := lp s l
  let w : Place := match x.active with
    | some (w, _) => w
    | none => .run
  match x.at_ w with
  | none => s
  | some r =>
    let first := memBytes s.host (hostAddr s addr) bytes.length
    if (apertureOf s (addr64 addr)).isNone && r.wellFormed s group first then s
    else
      let s := modRun s l w fun r => { r with good := r.good ++ [(addr, bytes)] }
      if r.wellFormed s group bytes then
        recordErr s (panPage s l) { cause := cCakerd, oid := r.ord.oid.toNat, addr := some addr, row := row, group := group, lpan := l.1 }
      else s

def execCakeReread (l : Fin 60) (addr : W64) (row group : W32) (bytes : List Byte) (s : State) :
    Host.Outcome State Fault Refusal :=
  .next (cakeReread s l addr.toNat row.toNat group.toNat bytes)

/-- TILE_REPLAY: a detector ends the active tile's attempt. -/
def tileReplay (s : State) (l : Fin 60) (c : ReplayCause) (addr row col group : Nat) : State :=
  match (lp s l).active with
  | none => s
  | some (w, _) =>
    let (cause, suspect) := match c with
      | .residue => (cResidue, true)
      | .lockstep => (cLockstep, true)
      | .eccunc => (cEccunc, true)
      | .brine => (cBrine, false)
    attemptFailed s l w
      { cause := cause, suspect := suspect, addr := some addr, row := row, col := col, group := group }

def execTileReplay (l : Fin 60) (cause : ReplayCause) (addr : W64) (row col group : W32) (s : State) :
    Host.Outcome State Fault Refusal :=
  .next (tileReplay s l cause addr.toNat row.toNat col.toNat group.toNat)

/-! ### Settlement and second passes (R120, R127, R128) -/

/-- Where the order of a ring index stands. -/
def LPan.placeOf (x : LPan) (n : Nat) : Option Place :=
  if (x.run.map fun r => r.n == n).getD false then some .run
  else match (List.finRange 16).find? fun j => ((vget x.armed j).map fun r => r.n == n).getD false with
    | some j => some (.armed j)
    | none => if x.passed.any fun r => r.n = n then some (.passed n) else none

/-- A settle event that carries FAIL: the parked orders of a history slot complete with FAULT. -/
def failParked (s : State) (hist : Nat) : State :=
  (List.finRange 60).foldl (fun s l =>
    ((lp s l).parked.filter fun x => x.hist = hist).foldl (fun s y =>
      match (lp s l).placeOf y.n with
      | some w => finish s l w stFault
      | none => s) s) s

/-- A failed settlement: COARSE and the history slot hold undefined values (R120). The order whose tile settles the tensor ends
with FAULT. -/
def settleFailed (s : State) (l : Fin 60) (x : Settling) (addr : Nat) : State :=
  let s := recordErr s (panPage s l) { cause := cBrine, oid := x.oid.toNat, addr := some addr, lpan := l.1 }
  let (c, s) := takeFree 32 s
  let s := { s with host := memPut s.host (hostAddr s (x.d.addr + 32)) (leBytes 4 c.toNat) }
  let (es, s) := (List.range 16).foldl (fun (y : List W32 × State) _ =>
    let (v, s) := takeFree 32 y.2
    (y.1 ++ [v], s)) ([], s)
  let s := modLp (setHist s x.d.hist { e := es }) l fun y => { y with settle := none }
  let s := match (lp s l).placeOf x.n with
    | some w => finish s l w stFault
    | none => s
  failParked s x.d.hist

/-- SETTLE: the settling pan computes C, writes COARSE, pushes the history and sends the settle event. -/
def settle (s : State) (l : Fin 60) : State :=
  match (lp s l).settle, livePan s l with
  | some x, some _ =>
    let d := x.d
    let (ta, s) := rdNum s (d.stats + 8) 4
    let (sf, s) := rdNum s (d.stats + 28) 4
    match ta, sf with
    | some ta, some sf =>
      let c := coarseFor d x.cb (fp32Q (BitVec.ofNat 32 ta))
      let (ok, s) := if x.mode = 1 then wrHost s (d.addr + 32) (leBytes 4 c.toNat) else (true, s)
      if !ok then settleFailed s l x (d.addr + 32)
      else
        let s := setHist s d.hist ((histOf s d.hist).push (BitVec.ofNat 32 ta) (decide (x.mode = 2) && nbit sf 2))
        let s := { s with lpan := s.lpan.map fun y =>
          { y with parked := y.parked.map fun z => if z.hist = d.hist then { z with settled := some c } else z } }
        let s := modLp s l fun y => { y with settle := none }
        match (lp s l).placeOf x.n with
        | some (.passed n) => if x.mode = 2 then finish s l (.passed n) stOk else s
        | _ => s
    | _, _ => settleFailed s l x (d.stats + 8)
  | _, _ => s

def execSettle (l : Fin 60) (bad : List Nat) (s : State) : Host.Outcome State Fault Refusal :=
  .next (commandAs (.pan l 0) bad s fun s => settle s l)

/-- Reads one staged tile and quantises it with C. -/
def secondBody (s : State) (r : Run) (t : Nat) (c : W32) : Tl TileOut := do
  let (r0, nr, c0, nc) := r.ord.tileAt t
  let ms ← tileMasks s r t
  let pres := tilePres r c0 nc ms
  match r.chain.quant with
  | none => return {}
  | some q =>
    let m ← readStage r q r0 nr c0 nc pres
    return { fits := ← outQuant r c 1 r0 c0 nc ms m }

/-- A second pass whose stores are all answered: its counts and the order's completion, and whether the next one may follow. -/
def mergeSecond (s : State) (l : Fin 60) (y : Parked) (w : Place) (r : Run) (c : TileCont) : Bool × State :=
  let counts := countMerges r.dOut.stats c.ev (some 1)
  match mergesBad s counts with
  | some e => (false, attemptFailed s l w (r.tileErr y.tile e.toErr))
  | none =>
    if !c.fits then (true, finish s l w stBadDesc)
    else
      let s := countTile (panEvents (landTile (applyMerges s counts) c.writes) l r.ord.oid { ev := c.ev, cap := c.cap }) l
      let s := endReplay s (panPage s l)
      let s := modRun s l w fun r =>
        { r with tiles := r.tiles + 1, ev := r.ev.merge c.ev, mode := 1, replayed := false, good := [], badc := [], cont := none }
      let s := modLp s l fun x => { x with parked := x.parked.filter fun z => z.n ≠ y.n ∨ z.tile ≠ y.tile }
      let more := (lp s l).parked.any (fun z => z.n = y.n) || ((lp s l).settle.map fun z => z.n == y.n).getD false
      match w with
      | .passed _ => (true, if more then s else finish s l w stOk)
      | _ => (true, s)

/-- The second pass of one parked tile, and whether the next one may follow. -/
def secondOne (s0 : State) (l : Fin 60) (y : Parked) (c : W32) (w : Place) (r : Run) : Bool × State :=
  match r.cont with
  | some k =>
    if k.second ≠ some y.tile ∨ writesOut s0 (.pan l r.n) = true then (false, s0) else mergeSecond s0 l y w { r with cont := none } k
  | none =>
    let (x, s) := Io.run (secondBody s0 r y.tile c {}) s0
    match x with
    | .error e => (false, attemptFailed s l w (r.tileErr y.tile e.toErr))
    | .ok (out, acc) =>
      let s := recordBads s l r acc.bads
      if fencedNow s l then (false, s)
      else if r.replayed && !acc.bads.isEmpty then (true, replayBad s l w)
      else if gradsWait s acc.writes then (false, s0)
      else
        let who := s.who
        let (bad, s) := applyStores { s with who := some (.pan l r.n) } r.ord acc.writes
        let s := { s with who := who }
        let k : TileCont := { second := some y.tile, mode := 1, fits := out.fits, ev := acc.t.ev, cap := acc.t.cap, writes := acc.writes }
        match bad with
        | some a => (false, attemptFailed s l w (r.tileErr y.tile { cause := cBrine, addr := some a }))
        | none =>
          if writesOut s (.pan l r.n) then (false, modRun s l w fun r => { r with cont := some k })
          else mergeSecond s l y w r k

/-- Settled parked tiles in parking order; structural on their number. -/
def secondAll : Nat → State → Fin 60 → State
  | 0, s, _ => s
  | n + 1, s, l =>
    match (lp s l).parked.find? fun y => y.settled.isSome with
    | none => s
    | some y =>
      match y.settled, (lp s l).placeOf y.n with
      | some c, some w =>
        match (lp s l).at_ w with
        | some r => let (go, s) := secondOne s l y c w r; if go then secondAll n s l else s
        | none => s
      | _, _ => s

/-- SECOND_PASS: a pan quantises its settled parked tiles and completes their orders. -/
def execSecondPass (l : Fin 60) (bad : List Nat) (s : State) : Host.Outcome State Fault Refusal :=
  .next (commandAs (.pan l 0) bad s fun s =>
    if mayTile s l && !(lp s l).inTile then secondAll (lp s l).parked.length s l else s)

/-- STOP of a pan that holds parked tiles: each of their orders completes ABORTED, a running one after its tile (R121). -/
def abortParked (s : State) (l : Fin 60) : State :=
  let ns := ((lp s l).parked.map (·.n)).eraseDups
  ns.foldl (fun s n =>
    match (lp s l).placeOf n with
    | some w =>
      if ((lp s l).active.map fun x => x.1 == w).getD false then
        modLp (modRun s l w fun r => { r with abort := true }) l fun x =>
          { x with parked := x.parked.filter fun y => y.n ≠ n }
      else finish s l w stAborted
    | none => s) s

/-! ### Notices (R238, R239) -/

/-- PARTIAL_NOTICE: a notice with Q reaches the settling pan. -/
def partialNotice (s : State) (l : Fin 60) (q : Nat) : State :=
  match (lp s l).notices.find? fun x => x.1 = q with
  | none => s
  | some (_, from_) =>
    let s := modLp s l fun x => { x with notices := x.notices.erase (q, from_) }
    let s := match (lp s l).run with
      | some r =>
        if r.ord.settle && r.ord.pslots != 0 then
          let slot := q % r.ord.pslots
          if q < r.fold.front || r.fold.slots.any (fun y => y.1 = slot) then
            recordErr s (panPage s l) { cause := cPartdup, oid := r.ord.oid.toNat, group := q, lpan := l.1 }
          else advanceAll (modFold s l fun f => { f with slots := f.slots ++ [(slot, q)] }) l
        else s
      | none => s
    match from_ with
    | some k => senderCheck s k
    | none => s

def execPartialNotice (l : Fin 60) (q : W32) (bad : List Nat) (s : State) : Host.Outcome State Fault Refusal :=
  .next (commandAs (.pan l 0) bad s fun s => partialNotice s l q.toNat)

/-! ### Spares and pan power (R373, R374, R396) -/

/-- Step 5 of R373: the spare resumes the logical number's orders. -/
def spareResume (s : State) (l : Fin 60) : State :=
  let s := (List.finRange 16).foldl (fun s j => finish s l (.armed j) stFault) s
  match (lp s l).run with
  | some r =>
    if r.ord.settle then finish s l .run stFault
    else modRun s l .run fun r => { r with started := false, replayed := false, cont := none }
  | none => s

/-- A pan's power switches open: its store is lost. -/
def gatePan (s : State) (p : Fin 64) : State :=
  quadIdle (modPan s p fun x => { x with pwr := .gated, store := [] }) (quadOf p)

/-- Steps 4 and 5 of R373: the woken reserve takes the logical number; a pan that ISOLATE takes out of service is gated
and SWAPCNT does not count it (R501). -/
def takeNumber (s : State) (p : Fin 64) (l : Fin 60) : State :=
  let iso := (pn s p).forIsolate
  let old := physOf s l
  let s := modPan s p fun x => { x with wakeFor := none, forIsolate := false }
  let s := { s with glb := { s.glb with panmap := vset s.glb.panmap l { missing := false, phys := p } } }
  if iso then
    match old with
    | some o => spareResume (gatePan (modHdr s (.pan o) fun h => { h with mode := .isolated }) o) l
    | none => spareResume s l
  else spareResume (modFlt s fun f => { f with swapcnt := satAdd f.swapcnt 1 }) l

/-- A test of a pan that is needed as a spare ends ABORTED. -/
def dropTest (s : State) (p : Fin 64) : State :=
  let sw := s.tst.tests.any fun t => t.unit == p.1 && t.sw
  let s := modTst s fun t => { t with tests := t.tests.filter (·.unit != p.1), bg := t.bg.filter (· != p.1) }
  if sw then modTstR s fun t => { t with tsRes := 5, tsRunit := BitVec.ofNat 8 p.1 } else s

/-- A chosen reserve leaves the reserve and wakes, or takes the number at once when it is LIVE. -/
def claimReserve (s : State) (p : Fin 64) (l : Fin 60) (iso : Bool) : State :=
  let s := dropTest s p
  let s := modFlt s fun f => { f with rsvok := setBit f.rsvok p.1 false }
  let s := if (s.wear.map fun w => w.rsv == p).getD false then { s with wear := none } else s
  let s := modPan s p fun x => { x with wakeFor := some l, forIsolate := iso }
  if (pn s p).pwr = .live then takeNumber s p l else serveWakes s

/-- Steps 3 of R373 and R374 for a missing logical number. -/
def spareFor (s : State) (l : Fin 60) : State :=
  if (physOf s l).isSome || (List.finRange 64).any (fun p => (pn s p).wakeFor = some l) then s
  else match lowReserve s with
    | none => if s.flt.nospare then s else raiseInt (modFlt s fun f => { f with nospare := true }) srcNoSpare
    | some p => claimReserve s p l false

def execSpareSwap (l : Fin 60) (s : State) : Host.Outcome State Fault Refusal := .next (spareFor s l)

/-- FLT serves the lowest missing logical number while NOSPARE is set or a start left entries missing (R374). -/
def serveMissing (s : State) : State :=
  match (List.finRange 60).find? fun l =>
    (physOf s l).isNone && !(List.finRange 64).any (fun p => (pn s p).wakeFor = some l) with
  | some l => if (lowReserve s).isSome && decide (7 ≤ s.glb.bstage.toNat) then spareFor s l else s
  | none => s

/-- PAN_WAKE_DONE: a WAKING pan is LIVE; one woken as a spare takes its logical number. -/
def panWakeDone (s : State) (p : Fin 64) : State :=
  if (pn s p).pwr ≠ .waking then s
  else
    let forL := (pn s p).wakeFor
    let s := modPan s p fun x => { x with pwr := .live }
    let s := match forL with
      | some l => takeNumber s p l
      | none => s
    serveWakes s

def execPanWakeDone (p : Fin 64) (s : State) : Host.Outcome State Fault Refusal := .next (panWakeDone s p)

/-- PIDLE_EXPIRY: an idle LIVE pan is gated; the wakes that wait are served. -/
def pidleExpiry (s : State) (p : Fin 64) : State :=
  let idle := match logOf s p with
    | some l => !(lp s l).running
    | none => true
  if pidleOf s ≠ 0 && (pn s p).pwr = .live && idle && !(s.tst.tests.any fun t => t.unit == p.1) then gatePan s p else s

def execPidleExpiry (p : Fin 64) (s : State) : Host.Outcome State Fault Refusal := .next (pidleExpiry s p)

end Sys2Proof.Machine
end

