-- ==== Sys2Proof/Machine/Vector.lean ====
section
/-! DEFINITION. The vector instructions over registers and predicates, for harvest engines and salters: legality, issue,
faults of a job, traps of a salter (spec/09_harvest_programs.md R247 to R256, R266, R271; spec/18 R481, R482). -/

namespace Sys2Proof.Machine

/-! ### Instruction words (R252, R253) -/

def regOf (n : Nat) : Fin 32 := ⟨n % 32, Nat.mod_lt _ (by decide)⟩

/-- OP of an instruction word. -/
def wordOp (w : W32) : Nat := w.toNat / 2 ^ 26

/-- The other fields of an instruction word in the register layout. -/
def wordFields (w : W32) : VFields :=
  { d := regOf (w.toNat / 2 ^ 21), a := regOf (w.toNat / 2 ^ 16), b := regOf (w.toNat / 2 ^ 11), c := regOf (w.toNat / 2 ^ 6)
    pg := ⟨w.toNat / 8 % 8, Nat.mod_lt _ (by decide)⟩, m := BitVec.ofNat 3 w.toNat }

/-- The .S forms 0x00 to 0x09: fields that are not used are 0 and function codes exist. -/
def legalS (k : Nat) (w : VFields) : Bool :=
  let m := w.m.toNat
  match k with
  | 0 => w == {}
  | 1 | 2 | 3 | 4 => decide (w.c.1 = 0 ∧ m < 2)
  | 5 | 6 => decide (m < 4)
  | 7 => decide (w.b.1 = 0 ∧ m = 0 ∧ w.c.1 ≤ 8)
  | 8 => decide (m < 2 ∧ w.c.1 ≤ 6)
  | 9 => decide (m < 2 ∧ w.c.1 ≤ 9 ∧ 1 ≤ w.d.1 ∧ w.d.1 ≤ 7)
  | _ => false

/-- The .D forms name even registers for every FP64 operand and destination. -/
def legalD (k : Nat) (w : VFields) : Bool :=
  let even := fun (r : Fin 32) => r.1 % 2 == 0
  legalS k w && decide (1 ≤ k) && even w.a
    && (k == 9 || (k == 7 && w.c.1 == 7) || even w.d)
    && (k == 7 || (k == 8 && w.c.1 == 6) || even w.b)
    && (!(k == 5 || k == 6) || even w.c)

/-- Whether a vector instruction word is legal by itself (R252 to R255). -/
def legalVec (op : Nat) (w : VFields) : Bool :=
  let m := w.m.toNat
  let even := fun (r : Fin 32) => r.1 % 2 == 0
  if op ≤ 9 then legalS op w
  else if 0x11 ≤ op ∧ op ≤ 0x19 then legalD (op - 0x10) w
  else match op with
  | 0x20 => decide (w.b.1 = 0 ∧ m ≤ 5 ∧ w.c.1 ≤ 12) && (!(w.c.1 == 0 || w.c.1 == 8 || w.c.1 == 9) || even w.a)
      && (!(w.c.1 == 1 || w.c.1 == 6 || w.c.1 == 7) || even w.d)
  | 0x21 => decide (w.a.1 = 0 ∧ w.c.1 = 0 ∧ m < 2 ∧ w.b.1 < 12) && (m == 0 || even w.d)
  | 0x22 => decide (w.d.1 = 0 ∧ w.c.1 = 0 ∧ m < 2 ∧ w.b.1 < 12) && (m == 0 || even w.a)
  | 0x23 => decide (w.c.1 = 0 ∧ m = 0)
  | 0x24 => decide (m = 0) && even w.d
  | 0x25 => decide (w.c.1 < 8 ∧ m < 2)
  | 0x26 => decide (w.c.1 = 0 ∧ m < 2 ∧ (if m = 1 then w.a.1 else w.b.1) = 0)
  | 0x27 => decide (m = 0 ∧ 1 ≤ w.d.1 ∧ w.d.1 ≤ 7 ∧ w.a.1 < 8 ∧ w.b.1 < 8 ∧ w.c.1 ≤ 4 ∧ (w.c.1 = 4 → w.b.1 = 0))
  | 0x28 => decide (w.d.1 = 0 ∧ w.a.1 = 0 ∧ w.b.1 = 0 ∧ w.c.1 = 0 ∧ m ≤ 4)
  | 0x29 => decide (w.c.1 ≤ 9 ∧ m < 2)
  | _ => false

/-! ### Lanes -/

/-- An instruction's effect on one lane: the unit after it and the flags raised. -/
abbrev LaneOp (L : Nat) := VecUnit L → Fin L → VecUnit L × IFlags

/-- An instruction over the lanes that act (R249), in ascending order. -/
def VecUnit.lanes {L : Nat} (u : VecUnit L) (pg : Fin 8) (f : LaneOp L) : VecUnit L × IFlags :=
  (List.finRange L).foldl (fun (x : VecUnit L × IFlags) l =>
    if u.acts pg l then
      let (y, g) := f x.1 l
      (y, x.2.or g)
    else x) (u, flNone)

/-- p0 of a batch: 1 in the lanes of the elements left (R248). -/
def VecUnit.setP0 {L : Nat} (u : VecUnit L) (live : Nat) : VecUnit L :=
  { u with p := vset u.p 0 (BitVec.ofNat L (2 ^ min L live - 1)) }

/-- FP32 and FP64 forms of a two-operand arithmetic instruction. -/
def arithS {L : Nat} (w : VFields) (f : Rm → Nat → Nat → Nat × IFlags) : LaneOp L := fun u l =>
  let (x, g) := f u.rm (opA u w l) (opB u w l)
  (u.wr w.d l x, g)

def arithD {L : Nat} (w : VFields) (f : Rm → Nat → Nat → Nat × IFlags) : LaneOp L := fun u l =>
  let (x, g) := f u.rm (opA2 u w l) (opB2 u w l)
  (u.wr2 w.d l x, g)

/-- FP32 and FP64 forms of a three-operand arithmetic instruction. -/
def fusedS {L : Nat} (w : VFields) (f : Rm → Nat → Nat → Nat → Nat × IFlags) : LaneOp L := fun u l =>
  let (x, g) := f u.rm (opA u w l) (opB u w l) (opC u w l)
  (u.wr w.d l x, g)

def fusedD {L : Nat} (w : VFields) (f : Rm → Nat → Nat → Nat → Nat × IFlags) : LaneOp L := fun u l =>
  let (x, g) := f u.rm (opA2 u w l) (opB2 u w l) (opC2 u w l)
  (u.wr2 w.d l x, g)

/-- The unary functions of R254. -/
def f1Op (s : FSpec) (m : Rm) (c x : Nat) : Nat × IFlags :=
  match c with
  | 0 => (flipSign s x, flNone)
  | 1 => (x % s.signBit, flNone)
  | 2 => fsqrt s m x
  | 3 => frint s m x
  | 4 => fnextUp s x
  | 5 => fnextDown s x
  | 6 => flogb s x
  | 7 => (fclass s x, flNone)
  | _ => frsqrt s m x

/-- The binary functions of R254, SCALEB apart. -/
def f2Op (s : FSpec) (c x y : Nat) : Nat × IFlags :=
  match c with
  | 0 => fminmax false s x y
  | 1 => fminmax true s x y
  | 2 => fminmaxNum false s x y
  | 3 => fminmaxNum true s x y
  | 4 => frem s x y
  | _ => (fcopySign s x y, flNone)

def unaryS {L : Nat} (w : VFields) : LaneOp L := fun u l =>
  let (x, g) := f1Op sp32 u.rm w.c.1 (opA u w l)
  (u.wr w.d l x, g)

def unaryD {L : Nat} (w : VFields) : LaneOp L := fun u l =>
  let (x, g) := f1Op sp64 u.rm w.c.1 (opA2 u w l)
  (if w.c.1 = 7 then u.wr w.d l x else u.wr2 w.d l x, g)

def binaryS {L : Nat} (w : VFields) : LaneOp L := fun u l =>
  let (x, g) := if w.c.1 = 6 then fscaleb sp32 u.rm (opA u w l) (signedOf 32 (opB u w l))
    else f2Op sp32 w.c.1 (opA u w l) (opB u w l)
  (u.wr w.d l x, g)

def binaryD {L : Nat} (w : VFields) : LaneOp L := fun u l =>
  let (x, g) := if w.c.1 = 6 then fscaleb sp64 u.rm (opA2 u w l) (signedOf 32 (opB u w l))
    else f2Op sp64 w.c.1 (opA2 u w l) (opB2 u w l)
  (u.wr2 w.d l x, g)

def compareS {L : Nat} (w : VFields) : LaneOp L := fun u l =>
  let (b, g) := fcmp sp32 w.c.1 (opA u w l) (opB u w l)
  (u.wrp (predOf w.d) l b, g)

def compareD {L : Nat} (w : VFields) : LaneOp L := fun u l =>
  let (b, g) := fcmp sp64 w.c.1 (opA2 u w l) (opB2 u w l)
  (u.wrp (predOf w.d) l b, g)

/-- The conversions of R254, by their code. -/
def cvtOp (m : Rm) (c x : Nat) : Nat × IFlags :=
  match c with
  | 0 => fconv sp64 sp32 m x
  | 1 => fconv sp32 sp64 m x
  | 2 => fofInt sp32 m (signedOf 32 x)
  | 3 => fofInt sp32 m x
  | 4 => ftoInt sp32 m true x
  | 5 => ftoInt sp32 m false x
  | 6 => fofInt sp64 m (signedOf 32 x)
  | 7 => fofInt sp64 m x
  | 8 => ftoInt sp64 m true x
  | 9 => ftoInt sp64 m false x
  | 10 => fgrid .w16 m x
  | 11 => fgrid .e4m3 m x
  | _ => fgrid .e5m2 m x

def convert {L : Nat} (w : VFields) : LaneOp L := fun u l =>
  let c := w.c.1
  let x := if c = 0 ∨ c = 8 ∨ c = 9 then opA2 u w l else opA u w l
  let (y, g) := cvtOp ((rmOfCode w.m.toNat).getD .rne) c x
  (if c = 1 ∨ c = 6 ∨ c = 7 then u.wr2 w.d l y else u.wr w.d l y, g)

def merge {L : Nat} (w : VFields) : LaneOp L := fun u l => (u.wr w.d l (bmrgOp (opA u w l) (u.rd w.b l)), flNone)

def select {L : Nat} (w : VFields) : LaneOp L := fun u l =>
  (u.wr w.d l (if u.pr (predOf w.c) l then opA u w l else opB u w l), flNone)

def move {L : Nat} (w : VFields) : LaneOp L := fun u l =>
  (u.wr w.d l (if bit w.m 0 then u.sc w.b else opA u w l), flNone)

/-- The predicate functions of PLOG. -/
def plogOp (c : Nat) (x y : Bool) : Bool :=
  match c with
  | 0 => x && y
  | 1 => x || y
  | 2 => x != y
  | 3 => x && !y
  | _ => !x

def predLogic {L : Nat} (w : VFields) : LaneOp L := fun u l =>
  (u.wrp (predOf w.d) l (plogOp w.c.1 (u.pr (predOf w.a) l) (u.pr (predOf w.b) l)), flNone)

/-- The 32-bit integer functions of IOP. -/
def iopOp (c : Nat) (x y : W32) : W32 :=
  match c with
  | 0 => x + y
  | 1 => x - y
  | 2 => x &&& y
  | 3 => x ||| y
  | 4 => x ^^^ y
  | 5 => x <<< (y.toNat % 32)
  | 6 => x >>> (y.toNat % 32)
  | 7 => x.sshiftRight (y.toNat % 32)
  | 8 => if x.slt y then x else y
  | _ => if x.slt y then y else x

def intOp {L : Nat} (w : VFields) : LaneOp L := fun u l =>
  (u.wr w.d l (iopOp w.c.1 (BitVec.ofNat 32 (opA u w l)) (BitVec.ofNat 32 (opB u w l))).toNat, flNone)

/-! ### A job's fault (R253, R258, R267) -/

/-- The job of an engine that has not ended. -/
def jobOf (s : State) (n : Fin 8) : Option Job := (eng s n).job

/-- Batches of a job. -/
def Job.batches (j : Job) : Nat := (j.bind.elems.length + 63) / 64

/-- Whether a job has run its last batch or has faulted. -/
def Job.ended (j : Job) : Bool := j.jrec.fault || decide (j.batches ≤ j.batch)

def modJob (s : State) (n : Fin 8) (f : Job → Job) : State := modEng s n fun x => { x with job := x.job.map f }

/-- A job ends with FAULT: no element acts any more, and JFAULTS counts a fault of R253 or R258. -/
def jobFault (s : State) (n : Fin 8) (counts : Bool) (e : ErrIn) : State :=
  match jobOf s n with
  | none => s
  | some j =>
    let s := modJob s n fun j => { j with jrec := { j.jrec with fault := true }, sts := [] }
    let s := modEng s n fun x =>
      { x with vec := x.vec.setP0 0
               regs := { x.regs with jfaults := if counts then satAdd x.regs.jfaults 1 else x.regs.jfaults } }
    recordErr s (.hrv n) { e with row := j.bind.shard }

/-! ### A salter's trap (R271, R481, R482) -/

/-- The trap codes of R481. -/
inductive TrapCode where
  | illegal | misalign | address | brine | trap
  deriving DecidableEq, Repr

def TrapCode.code : TrapCode → Nat
  | .illegal => 1 | .misalign => 2 | .address => 3 | .brine => 4 | .trap => 5

/-- A salter traps: the address and the cause are saved, control passes to TVEC, the error is recorded. A trap inside the
trap handler is a fault of the handling path. -/
def sltTrap (s : State) (n : Fin 8) (c : TrapCode) : State :=
  let x := salt s n
  let again := x.inTrap
  let s := modSlt s n fun x =>
    { x with
      tpc := x.pc.setWidth 64, tcause := BitVec.ofNat 64 c.code, pc := x.tvec.setWidth 32, inTrap := true
      regs := { x.regs with pc := x.pc, tcause := BitVec.ofNat 3 c.code, traps := satAdd x.regs.traps 1 } }
  let e : ErrIn := if c = .illegal then { cause := cIllegal }
    else { cause := cTrap, cls := if x.regs.cust then none else some 2, detail := c.code }
  let s := recordErr s (.slt n) e
  if again && !decide (n = s.flt.hsalt) then handlerError s else s

/-! ### Issue (R248, R249, R461, R492) -/

/-- Whether an engine issues its job's next instruction. -/
def hrvIssues (s : State) (n : Fin 8) : Bool :=
  match jobOf s n with
  | none => false
  | some j => !j.ended && !(j.pc == 0 && halted s (0x40 + n.1)) && s.pwr.pstate == .active

/-- Whether a salter issues its next instruction. -/
def sltIssues (s : State) (n : Fin 8) : Bool :=
  (salt s n).mode == .run && goesOn s (.slt n) && !halted s (0x48 + n.1) && s.pwr.pstate == .active

/-- An engine's job steps past an instruction; after the last one the next batch begins. -/
def jobAdvance (s : State) (n : Fin 8) : State :=
  match jobOf s n with
  | none => s
  | some j =>
    let s := if j.pc = 0 then useStep s (0x40 + n.1) else s
    if j.pc + 1 < j.img.words.length then modJob s n fun j => { j with pc := j.pc + 1 }
    else
      let s := modJob s n fun j => { j with pc := 0, batch := j.batch + 1 }
      modEng s n fun x => { x with vec := x.vec.setP0 (j.bind.elems.length - 64 * (j.batch + 1)) }

/-- A salter steps past an instruction. -/
def sltAdvance (s : State) (n : Fin 8) : State :=
  modSlt (useStep s (0x48 + n.1)) n fun x => { x with pc := x.pc + 4 }

/-- A vector instruction that only computes, on the unit that issues it. An illegal one faults the job or traps. -/
def runVec (v : VecId) (op : Nat) (w : VFields) (f : (L : Nat) → VecUnit L → VecUnit L × IFlags) (s : State) : State :=
  match v with
  | .hrv n =>
    if !hrvIssues s n then s
    else if !legalVec op w then jobFault s n true { cause := cIllegal }
    else
      let (u, g) := f 64 (eng s n).vec
      jobAdvance (modEng s n fun x => { x with vec := u, regs := { x.regs with fl := x.regs.fl.raise g } }) n
  | .slt n =>
    if !sltIssues s n then s
    else if !legalVec op w then sltTrap s n .illegal
    else
      let (u, g) := f 16 (salt s n).vec
      sltAdvance (modSlt s n fun x => { x with vec := u, regs := { x.regs with fl := x.regs.fl.raise g } }) n

/-- A vector instruction done lane by lane. -/
def runLanes (v : VecId) (op : Nat) (w : VFields) (f : (L : Nat) → LaneOp L) (s : State) : State :=
  runVec v op w (fun L u => u.lanes w.pg (f L)) s

/-! ### The instructions (R254, R255) -/

/-- NOP. -/
def execNop (u : VecId) (w : VFields) (s : State) : Host.Outcome State Fault Refusal :=
  .next (runVec u 0x00 w (fun _ x => (x, flNone)) s)
/-- FADD.S: D = A + B. -/
def execFaddS (u : VecId) (w : VFields) (s : State) : Host.Outcome State Fault Refusal :=
  .next (runLanes u 0x01 w (fun _ => arithS w (fadd sp32)) s)
/-- FSUB.S: D = A − B. -/
def execFsubS (u : VecId) (w : VFields) (s : State) : Host.Outcome State Fault Refusal :=
  .next (runLanes u 0x02 w (fun _ => arithS w (fsub sp32)) s)
/-- FMUL.S: D = A × B. -/
def execFmulS (u : VecId) (w : VFields) (s : State) : Host.Outcome State Fault Refusal :=
  .next (runLanes u 0x03 w (fun _ => arithS w (fmul sp32)) s)
/-- FDIV.S: D = A ÷ B. -/
def execFdivS (u : VecId) (w : VFields) (s : State) : Host.Outcome State Fault Refusal :=
  .next (runLanes u 0x04 w (fun _ => arithS w (fdiv sp32)) s)
/-- FMA.S: D = A × B + C with one rounding. -/
def execFmaS (u : VecId) (w : VFields) (s : State) : Host.Outcome State Fault Refusal :=
  .next (runLanes u 0x05 w (fun _ => fusedS w (ffma sp32)) s)
/-- FNMA.S: D = −(A × B) + C with one rounding. -/
def execFnmaS (u : VecId) (w : VFields) (s : State) : Host.Outcome State Fault Refusal :=
  .next (runLanes u 0x06 w (fun _ => fusedS w (ffnma sp32)) s)
/-- F1.S: unary function C of A. -/
def execF1S (u : VecId) (w : VFields) (s : State) : Host.Outcome State Fault Refusal :=
  .next (runLanes u 0x07 w (fun _ => unaryS w) s)
/-- F2.S: binary function C of A and B. -/
def execF2S (u : VecId) (w : VFields) (s : State) : Host.Outcome State Fault Refusal :=
  .next (runLanes u 0x08 w (fun _ => binaryS w) s)
/-- FCMP.S: p[D] = condition C of A and B. -/
def execFcmpS (u : VecId) (w : VFields) (s : State) : Host.Outcome State Fault Refusal :=
  .next (runLanes u 0x09 w (fun _ => compareS w) s)
/-- FADD.D. -/
def execFaddD (u : VecId) (w : VFields) (s : State) : Host.Outcome State Fault Refusal :=
  .next (runLanes u 0x11 w (fun _ => arithD w (fadd sp64)) s)
/-- FSUB.D. -/
def execFsubD (u : VecId) (w : VFields) (s : State) : Host.Outcome State Fault Refusal :=
  .next (runLanes u 0x12 w (fun _ => arithD w (fsub sp64)) s)
/-- FMUL.D. -/
def execFmulD (u : VecId) (w : VFields) (s : State) : Host.Outcome State Fault Refusal :=
  .next (runLanes u 0x13 w (fun _ => arithD w (fmul sp64)) s)
/-- FDIV.D. -/
def execFdivD (u : VecId) (w : VFields) (s : State) : Host.Outcome State Fault Refusal :=
  .next (runLanes u 0x14 w (fun _ => arithD w (fdiv sp64)) s)
/-- FMA.D. -/
def execFmaD (u : VecId) (w : VFields) (s : State) : Host.Outcome State Fault Refusal :=
  .next (runLanes u 0x15 w (fun _ => fusedD w (ffma sp64)) s)
/-- FNMA.D. -/
def execFnmaD (u : VecId) (w : VFields) (s : State) : Host.Outcome State Fault Refusal :=
  .next (runLanes u 0x16 w (fun _ => fusedD w (ffnma sp64)) s)
/-- F1.D; the class code is written to v[D] alone. -/
def execF1D (u : VecId) (w : VFields) (s : State) : Host.Outcome State Fault Refusal :=
  .next (runLanes u 0x17 w (fun _ => unaryD w) s)
/-- F2.D. -/
def execF2D (u : VecId) (w : VFields) (s : State) : Host.Outcome State Fault Refusal :=
  .next (runLanes u 0x18 w (fun _ => binaryD w) s)
/-- FCMP.D. -/
def execFcmpD (u : VecId) (w : VFields) (s : State) : Host.Outcome State Fault Refusal :=
  .next (runLanes u 0x19 w (fun _ => compareD w) s)
/-- CVT: D = conversion C of A, rounded by M. -/
def execCvt (u : VecId) (w : VFields) (s : State) : Host.Outcome State Fault Refusal :=
  .next (runLanes u 0x20 w (fun _ => convert w) s)
/-- BMRG: D = merge of weight A and bittern B (R263). -/
def execBmrg (u : VecId) (w : VFields) (s : State) : Host.Outcome State Fault Refusal :=
  .next (runLanes u 0x23 w (fun _ => merge w) s)
/-- SEL: D = p[C] ? A : B. -/
def execSel (u : VecId) (w : VFields) (s : State) : Host.Outcome State Fault Refusal :=
  .next (runLanes u 0x25 w (fun _ => select w) s)
/-- MOV: D = A, or s[B]. -/
def execMov (u : VecId) (w : VFields) (s : State) : Host.Outcome State Fault Refusal :=
  .next (runLanes u 0x26 w (fun _ => move w) s)
/-- PLOG: p[D] = function C of p[A] and p[B]. -/
def execPlog (u : VecId) (w : VFields) (s : State) : Host.Outcome State Fault Refusal :=
  .next (runLanes u 0x27 w (fun _ => predLogic w) s)
/-- SETRM: FRM = M when some lane acts. -/
def execSetrm (u : VecId) (w : VFields) (s : State) : Host.Outcome State Fault Refusal :=
  .next (runVec u 0x28 w (fun L x =>
    (if (List.finRange L).any (x.acts w.pg) then { x with frm := w.m } else x, flNone)) s)
/-- IOP: 32-bit integer function C of A and B. -/
def execIop (u : VecId) (w : VFields) (s : State) : Host.Outcome State Fault Refusal :=
  .next (runLanes u 0x29 w (fun _ => intOp w) s)

/-! ### BSPL (R264, R265) -/

/-- The split in one lane, with the flags of an overflow. -/
def split {L : Nat} (w : VFields) : LaneOp L := fun u l =>
  let (x, b, ovr) := bsplOp (opA u w l)
  ((u.wr w.d l x).wr (nextReg w.d) l b, if ovr then { ofl := true, nx := true } else flNone)

/-- The counts of a job's BSPL over its acting lanes in element order. -/
def countSplit {L : Nat} (u : VecUnit L) (w : VFields) (r : JobRec) : JobRec :=
  (List.finRange L).foldl (fun r l =>
    if u.acts w.pg l then r.bspl (opA u w l) (u.rd w.b l) (u.rd w.c l) (bsplOp (opA u w l)).1 else r) r

/-- BSPL: D, D + 1 = split of A, counted against old weight B and old value C. -/
def execBspl (u : VecId) (w : VFields) (s : State) : Host.Outcome State Fault Refusal :=
  let s' := match u with
    | .hrv n => if hrvIssues s n && legalVec 0x24 w then modJob s n fun j =>
        { j with jrec := countSplit (eng s n).vec w j.jrec } else s
    | .slt _ => s
  .next (runLanes u 0x24 w (fun _ => split w) s')

end Sys2Proof.Machine
end

