-- ==== Sys2Proof/Machine/Streams.lean ====
section
/-! DEFINITION. Program images, the streams of a job or salter, loads and stores of stream elements, and what a job writes
(spec/09_harvest_programs.md R247, R253, R257 to R262, R267, R270; spec/10 R286, R297, R298). -/

namespace Sys2Proof.Machine

/-! ### Images and stream tables (R257) -/

/-- Entry n of a stream table. -/
def streamEntry (b : List Byte) (n : Nat) : StreamB :=
  let f := byteAt b (4 * n + 1)
  { role := byteAt b (4 * n), raw := nbit f 0, ovf := nbit f 1, nfchk := nbit f 2 }

def StreamB.isIn (x : StreamB) : Bool := [1, 2, 4, 6, 8, 10].contains x.role
def StreamB.isOut (x : StreamB) : Bool := [3, 5, 7, 9].contains x.role

/-- Whether a stream table breaks R257: a reserved role, bit or byte, an entry at NSTR or above, a role bound twice. -/
def tableBad (b : List Byte) (nstr : Nat) : Bool :=
  let roles := (List.range 12).map fun n => byteAt b (4 * n)
  (List.range 12).any fun n =>
    let r := byteAt b (4 * n)
    decide (10 < r) || decide (8 ≤ byteAt b (4 * n + 1)) || decide (leAt b (4 * n + 2) 2 ≠ 0)
      || (decide (r ≠ 0) && (decide (nstr ≤ n) || decide (1 < (roles.filter (· = r)).length)))

/-- Whether an instruction word of a harvest program is illegal (R253). -/
def wordBad (streams : List StreamB) (w : W32) : Bool :=
  let f := wordFields w
  let op := wordOp w
  let st := streams.getD f.b.1 {}
  !legalVec op f || (op == 0x21 && !st.isIn) || (op == 0x22 && !st.isOut)

/-- Reads an image and checks it as far as it decides by itself (R253, R257, R265). -/
def ioImage (addr : Nat) : Io Image := do
  let h ← ioRead addr 64
  let nins := leAt h 0 2
  let nstr := byteAt h 2
  let tab := h.drop 16
  let streams := (List.range 12).map (streamEntry tab)
  let bad := decide (addr % 64 ≠ 0 ∨ nins = 0 ∨ 512 < nins ∨ nstr = 0 ∨ 12 < nstr ∨ byteAt h 3 ≠ 0 ∨ leAt h 8 8 ≠ 0)
    || tableBad tab nstr
  if nins = 0 || decide (512 < nins) then return { addr := addr, words := [], streams := streams, bad := true, refused := true }
  else
    let ws := (← ioRead (addr + 64) (4 * nins))
    let words := (List.range nins).map fun i => BitVec.ofNat 32 (leAt ws (4 * i) 4)
    return { addr := addr, words := words, streams := streams, refused := bad
             bad := bad || words.any (wordBad streams) || decide (1 < (words.filter fun w => wordOp w = 0x24).length) }

/-! ### What the roles resolve to (R257, R270, R286) -/

/-- Descriptors of the slot block: slot A's weight and companions 1 to 3, then slot B's (R274). -/
def ioSlotBlock (a : Nat) : Io (List Desc) := do
  let bs ← ioRead a 512
  return (List.range 8).map fun i => descOf (a + 64 * i) ((bs.drop (64 * i)).take 64)

/-- The slot block of a shard; the descriptors of an adopted one name the lost instance's memory (R352). -/
def ioSlotOf (r : ShardRec) : Io (List Desc) := do return (← ioSlotBlock r.sblk).map (Desc.shift r.xoff)

/-- Bytes of a tensor's data and of its row table (R292). -/
def ioExtent (d : Desc) : Io Nat := do
  if d.isCake && d.masked then return 16 * (← ioNum (d.aux + 4 * d.rows) 4) else return d.rows * d.rowstride

def Desc.tableBytes (d : Desc) : Nat := if d.isCake && d.masked then (4 * (d.rows + 1) + 15) / 16 * 16 else 0

/-- The active slot's tensors as the page-in lays them out in the pool: one after another, each with its row table behind
it. -/
def ioPooled (ds : List Desc) (at_ : Nat) : Io (List Desc × Nat) :=
  ds.foldlM (fun (x : List Desc × Nat) d => do
    if d.base = 0 then return (x.1 ++ [d], x.2)
    else
      let n ← ioExtent d
      return (x.1 ++ [{ d with base := x.2, aux := if d.masked then x.2 + n else d.aux }], x.2 + n + d.tableBytes)) ([], at_)

/-- A shard's descriptors of a role. -/
def Bind.desc (b : Bind) (role : Nat) : Desc :=
  let at_ := fun (slot : Bool) (k : Nat) => b.blk.getD (4 * b2n slot + k) {}
  match role with
  | 1 => b.gdesc
  | 2 => at_ b.slot 0
  | 3 => at_ (!b.slot) 0
  | 4 => at_ b.slot 1
  | 5 => at_ (!b.slot) 1
  | 6 => at_ b.slot 2
  | 7 => at_ (!b.slot) 2
  | 8 => at_ b.slot 3
  | 9 => at_ (!b.slot) 3
  | _ => b.aux

/-- The elements of a shard range (R247): the positions present in the weight's masks, or every position; and malformed
cakes met. -/
def ioElems (d : Desc) : Io (List (Nat × Nat) × List CakeBad) := do
  if d.isCake && d.masked then
    let rows ← (List.range d.rows).mapM fun r => do
      let rr ← readRow { d := d } [] r 0 d.ng
      let ps := (rr.grps.zipIdx.map fun (g, j) =>
        (g.els.zipIdx.filter fun x => x.1.isSome).map fun x => (r, j * d.g + x.2)).flatten
      return (ps, rr.bads)
    return ((rows.map Prod.fst).flatten, (rows.map Prod.snd).flatten)
  else return (((List.range d.rows).map fun r => (List.range d.klen).map fun k => (r, k)).flatten, [])

/-- The tensors a shard's roles name (R257, R286); a slow-tier shard that has been paged in reads its active slot in the
pool. -/
def ioRoles (s : State) (i : Nat) : Io Bind := do
  let h := shardOf s i
  let blk0 ← ioSlotOf h.srec
  let gdesc := (← ioDesc h.srec.gdesc).shift h.srec.xoff
  let aux ← if h.srec.auxd ≠ 0 then do pure ((← ioDesc h.srec.auxd).shift h.srec.xoff) else pure {}
  let blk ← match h.srec.slow && h.staged, h.pool with
    | true, some (off, _) => do
      let (ds, _) ← ioPooled ((blk0.drop (4 * b2n h.slot)).take 4) (s.glb.pgBase.toNat + off)
      pure (if h.slot then blk0.take 4 ++ ds else ds ++ blk0.drop 4)
    | _, _ => pure blk0
  return { shard := i, blk := blk, slot := h.slot, gdesc := gdesc, aux := aux, slow := h.srec.slow }

/-- The roles of a shard with the elements they walk, and the malformed cakes of its masks. -/
def ioBind (s : State) (i : Nat) : Io (Bind × List CakeBad) := do
  let b ← ioRoles s i
  let (els, bads) ← ioElems (b.desc 2)
  return ({ b with elems := els }, bads)

/-- Whether a bound stream breaks the conditions of R253 that its descriptor decides; GRAD of a slow-tier shard comes
from the pond and takes no RAW (R297). -/
def streamBad (s : State) (b : Bind) (auxd : Nat) (x : StreamB) : Bool :=
  let d := b.desc x.role
  if x.role = 1 && b.slow then x.raw
  else
    (decide (x.role = 10) && decide (auxd = 0)) || (decide (4 ≤ x.role ∧ x.role ≤ 9) && decide (d.base = 0))
      || (x.raw && !d.format.isInt) || (d.format.isCb && !codebookOk s d) || decide (d.stats % 64 ≠ 0)

/-! ### Loading (R258, R259) -/

/-- An element as it is loaded: its value, the sign of a zero, and a wide format's NaN as an FP32 pattern (R46). -/
structure LoadV where
  v   : XVal
  neg : Bool := false
  nan : Option Nat := none
  deriving DecidableEq, Repr

/-- The element's bits in FP32 or FP64 (R259). -/
def LoadV.bits (x : LoadV) (t : FSpec) : Nat × IFlags :=
  match x.v with
  | .nan => match x.nan with
    | some n => (if t.p = 23 then n else n / 2 ^ 31 * 2 ^ 63 + sp64.infBits + n % 2 ^ 23 * 2 ^ 29, flNone)
    | none => (t.qnan, flNone)
  | .inf n => (packInf t n, flNone)
  | .fin q => if qisZero q then (packZero t x.neg, flNone) else roundPack t .rne x.neg q

/-- Place of a present position among the stored codes of its group. -/
def Grp.place (g : Grp) (p : Nat) : Nat := ((g.els.take p).filter fun e => match e with | some x => !x.side | none => false).length

/-- The element of a group at a position; an absent one is 0 (R75). The sign of a zero is the code's, but +0 under a fine
scale of zero (R34). A NaN of W16 or FP32 keeps its payload; a NaN code of E4M3 or E5M2, which no rule maps to a pattern,
loads as the canonical NaN (R46; DESIGN CHOICE, log entry 126). -/
def loadEl (d : Desc) (raw : Bool) (g : Grp) (p : Nat) : LoadV :=
  if g.bad then { v := .nan }
  else match g.els.getD p none with
  | none => { v := xzero }
  | some e =>
    if raw && !e.side then
      if g.nanScale then { v := .nan }
      else { v := .fin (qofInt (signedOf d.w (g.codes.getD (g.place p) 0) - g.zp)) }
    else
      let f := if e.side then Fmt.w16 else d.format
      { v := (xmul (.fin d.c) e.exact).1
        neg := !f.isInt && !f.isCb && !e.fine.any qisZero && nbit e.raw (f.width - 1)
        nan := if e.v.isNan && f.isWide && e.fine.isSome then some (if f = .w16 then e.raw * 65536 else e.raw) else none }

/-- One group of an operand row. -/
def ioGrp (o : Opnd) (row j : Nat) : Io (Grp × List CakeBad) := do
  let rr ← readRow o [] row j (j + 1)
  return (rr.grps.headD {}, rr.bads)

def opndOf (s : State) (d : Desc) (ol : List Nat) : Opnd :=
  { d := d, cb := if d.format.isCb then codebookCopy s d.cbslot else [], ol := ol }

/-- Elements start to start + n − 1 of a bind. -/
def Bind.batch (b : Bind) (start n : Nat) : List (Nat × Nat) := (b.elems.drop start).take n

/-- Loads the elements of a batch of a stream: one value each, and the malformed cakes that begin in the batch. `spoil`
makes the first group malformed (R385). -/
def ioLoads (s : State) (b : Bind) (x : StreamB) (start n : Nat) (spoil : Bool) : Io (List LoadV × List CakeBad) := do
  let els := b.batch start n
  if x.role = 1 && b.slow then
    return (els.zipIdx.map fun (_, i) => match pondEntry s b.shard (start + i) with
      | some o =>
        let w := pondValue s o
        { v := val32 w, neg := nbit w 31, nan := some w }
      | none => { v := xzero }, [])
  else
    let d := b.desc x.role
    let ol ← ioOutliers (some d)
    let o := opndOf s d (ol.getD [])
    let inside := fun (e : Nat × Nat) => decide (e.1 < d.rows ∧ e.2 < d.klen)
    let keys := ((els.filter inside).map fun e => (e.1, e.2 / d.g)).eraseDups
    let grps ← keys.zipIdx.mapM fun (k, i) => do
      let (g, bads) ← ioGrp o k.1 k.2
      if spoil && i = 0 then return (k, badGrp d g.addr, [({ addr := g.addr, row := k.1, group := k.2 } : CakeBad)])
      else return (k, g, bads)
    let vals := els.map fun e =>
      match grps.find? fun x => x.1 = (e.1, e.2 / d.g) with
      | some (_, g, _) => if inside e then loadEl d x.raw g (e.2 % d.g) else { v := xzero }
      | none => { v := xzero }
    let prev := if start = 0 then none else (b.elems[start - 1]?).map fun e => (e.1, e.2 / d.g)
    let bads := (grps.map fun x => x.2.2).flatten.filter fun c => prev ≠ some (c.row, c.group)
    return (vals, bads)

/-- The mask of a group's cake: the positions with a stored code (R60, R85). -/
def Grp.mask (g : Grp) : List Bool := g.els.map fun e => e.any fun x => !x.side

/-- The masks of a tensor at the positions of one group of W_IN. -/
def ioPresence (d : Desc) (row lo g : Nat) : Io (List Bool × List CakeBad) := do
  let ol ← ioOutliers (some d)
  let rr ← readRow { d := d, ol := ol.getD [] } [] row (lo / d.g) ((lo + g + d.g - 1) / d.g)
  let ps := (rr.grps.map Grp.mask).flatten
  return ((ps.drop (lo % d.g)).take g, rr.bads)

/-- What R258 finds in a masked shard's batch: a malformed cake, a difference of masks, or neither. -/
inductive MaskRes where
  | ok | bad (c : CakeBad) | diff (row group : Nat)
  deriving DecidableEq, Repr

def MaskRes.or : MaskRes → MaskRes → MaskRes
  | .ok, x => x
  | x, _ => x

/-- The groups of W_IN that a batch walks over, in order: from the last one of the batch before it to the one of its own
last element, or to the end of the tensor. Groups without an element lie between them. -/
def Bind.walked (b : Bind) (start n : Nat) : List (Nat × Nat) :=
  let w := b.desc 2
  let at_ := fun (i : Nat) => (b.elems[i]?).map fun e => e.1 * w.ng + e.2 / w.g
  let lo := if start = 0 then 0 else (at_ (start - 1)).getD 0
  let hi := if b.elems.length ≤ start + n then w.rows * w.ng else (at_ (start + n - 1)).getD 0 + 1
  (List.range (hi - lo)).map fun k => ((lo + k) / w.ng, (lo + k) % w.ng)

/-- The mask check of a batch: GRAD, W_IN and each bound companion, group by group. -/
def ioMasks (b : Bind) (streams : List StreamB) (start n : Nat) : Io MaskRes := do
  let w := b.desc 2
  if !(w.isCake && w.masked) then return .ok
  else
    let others := (if b.slow then [] else [b.gdesc]) ++ ((streams.filter fun x => [4, 6, 8].contains x.role).map fun x => b.desc x.role)
    let rs ← (b.walked start n).mapM fun k => do
      let (p, bads) ← ioPresence w k.1 (k.2 * w.g) w.g
      let xs ← others.mapM fun d => do
        let (q, bq) ← ioPresence d k.1 (k.2 * w.g) w.g
        return (match bq with
          | c :: _ => MaskRes.bad c
          | [] => if q = p then .ok else .diff k.1 k.2)
      return xs.foldl MaskRes.or (match bads with | c :: _ => .bad c | [] => .ok)
    return rs.foldl MaskRes.or .ok

/-- The values of a batch written to D in the lanes that act; the flags raised and whether a checked stream gave a
non-finite value. -/
def VecUnit.load {L : Nat} (u : VecUnit L) (w : VFields) (vals : List LoadV) : VecUnit L × IFlags × Bool :=
  (List.finRange L).foldl (fun (x : VecUnit L × IFlags × Bool) l =>
    match u.acts w.pg l, vals[l.1]? with
    | true, some v =>
      let (b, g) := v.bits (if bit w.m 0 then sp64 else sp32)
      let y := if bit w.m 0 then x.1.wr2 w.d l b else x.1.wr w.d l b
      let nf := match unpack (if bit w.m 0 then sp64 else sp32) b with | .num _ _ => false | _ => true
      (y, x.2.1.or g, x.2.2 || nf)
    | _, _ => x) (u, flNone, false)

/-- Faults that IARM asks a harvest engine for (R385): the state after them and whether the next cake is spoilt. -/
def hrvInject (s : State) (n : Fin 8) : State × Bool :=
  let p : PageId := .hrv n
  let i := ((jobOf s n).map fun j => j.bind.shard).getD 0
  let s := [cEcccor, cCakerd].foldl (fun s c =>
    if corruptArmed s p c then recordErr s p { cause := c, row := i, inj := true } else s) s
  let s := if corruptArmed s p cEccunc then recordErr s p { cause := cEccunc, cls := some 2, row := i, inj := true } else s
  (s, corruptArmed s p cBadcake)

/-- A malformed cake of a job's stream recorded. -/
def hrvBadCake (s : State) (n : Fin 8) (shard : Nat) (c : CakeBad) : State :=
  recordErr s (.hrv n) { cause := cBadcake, addr := some c.addr, row := shard, group := c.group }

/-- What LDS of a batch reads: the mask check, the elements, the malformed cakes. -/
def ioLds (s : State) (j : Job) (st : StreamB) (spoil : Bool) : Io (MaskRes × List LoadV × List CakeBad) := do
  let m ← ioMasks j.bind j.img.streams (64 * j.batch) 64
  let (vs, bads) ← ioLoads s j.bind st (64 * j.batch) 64 spoil
  return (m, vs, bads)

/-- LDS on a harvest engine. -/
def ldsHrv (s : State) (n : Fin 8) (w : VFields) : State :=
  let (s, spoil) := hrvInject s n
  match jobOf s n with
  | none => s
  | some j =>
    let st := j.img.streams.getD w.b.1 {}
    if !legalVec 0x21 w || !st.isIn then jobFault s n true { cause := cIllegal }
    else
      match (ioLds s j st spoil).run s with
      | (.error (.brine a), s) => jobFault s n false { cause := cBrine, addr := some a, group := j.batch }
      | (.error (.remoteat a), s) => jobFault s n false { cause := cRemoteat, addr := some a, group := j.batch }
      | (.ok (.bad c, _, _), s) => jobFault s n true { cause := cBadcake, addr := some c.addr, group := c.group }
      | (.ok (.diff _ g, _, _), s) => jobFault s n true { cause := cMaskdiff, group := g }
      | (.ok (.ok, vs, bads), s) =>
        let s := bads.foldl (fun s c => hrvBadCake s n j.bind.shard c) s
        let (u, g, nf) := (eng s n).vec.load w vs
        let s := modEng s n fun x => { x with vec := u, regs := { x.regs with fl := x.regs.fl.raise g } }
        let s := if nf && st.nfchk then modJob s n fun j => { j with jrec := { j.jrec with nonfinite := true } } else s
        jobAdvance s n

/-- The stored elements of the acting lanes of a batch, newest first. -/
def VecUnit.stores {L : Nat} (u : VecUnit L) (w : VFields) (role start nel : Nat) : List StsVal :=
  (((List.finRange L).filter fun l => u.acts w.pg l && decide (start + l.1 < nel)).map fun l =>
    { role := role, elem := start + l.1, dbl := bit w.m 0, bits := if bit w.m 0 then opA2 u w l else opA u w l }).reverse

/-- STS on a harvest engine. -/
def stsHrv (s : State) (n : Fin 8) (w : VFields) : State :=
  match jobOf s n with
  | none => s
  | some j =>
    let st := j.img.streams.getD w.b.1 {}
    if !legalVec 0x22 w || !st.isOut then jobFault s n true { cause := cIllegal }
    else
      let new := (eng s n).vec.stores w st.role (64 * j.batch) j.bind.elems.length
      jobAdvance (modJob s n fun j => { j with sts := new ++ j.sts }) n

/-! ### The stream table of a salter (R270) -/

/-- The stream a salter's instruction names, from the table at local address STREAMS. -/
def sltStream (s : State) (n : Fin 8) (k : Nat) : StreamB :=
  let x := salt s n
  streamEntry (memBytes x.lmem (x.streams.toNat % 0x40000) 48) k

/-- The salter's bound streams; their table may be malformed. -/
def sltTable (s : State) (n : Fin 8) : List StreamB := (List.range 12).map (sltStream s n)

/-- Whether the named entry of a salter's table is refused. -/
def sltEntryBad (s : State) (n : Fin 8) (k : Nat) : Bool :=
  let x := salt s n
  let b := memBytes x.lmem (x.streams.toNat % 0x40000) 48
  decide (10 < byteAt b (4 * k)) || decide (8 ≤ byteAt b (4 * k + 1)) || decide (leAt b (4 * k + 2) 2 ≠ 0)
    || decide (1 < ((sltTable s n).filter fun y => y.role = (sltStream s n k).role).length)

/-- First element of a salter's batch (R247): batch 0 before the first SADV. -/
def Slt.start (x : Slt) : Nat := 16 * (x.batch - 1)

/-- What LDS on a salter reads; none for an illegal stream. -/
def ioLdsSlt (s : State) (n : Fin 8) (st : StreamB) : Io (Option (List LoadV)) := do
  let i := (salt s n).shard.toNat
  let (b, _) ← ioBind s i
  if streamBad s b (shardOf s i).srec.auxd st then return none
  else return some (← ioLoads s b st (salt s n).start 16 false).1

/-- LDS on a salter. -/
def ldsSlt (s : State) (n : Fin 8) (w : VFields) : State :=
  let st := sltStream s n w.b.1
  if !legalVec 0x21 w || !st.isIn || sltEntryBad s n w.b.1 then sltTrap s n .illegal
  else
    match (ioLdsSlt s n st).run s with
    | (.error _, s) => sltTrap s n .brine
    | (.ok none, s) => sltTrap s n .illegal
    | (.ok (some vs), s) =>
      let (u, g, _) := (salt s n).vec.load w vs
      sltAdvance (modSlt s n fun x => { x with vec := u, regs := { x.regs with fl := x.regs.fl.raise g } }) n

/-- STS on a salter: kept until the batch ends. -/
def stsSlt (s : State) (n : Fin 8) (w : VFields) : State :=
  let st := sltStream s n w.b.1
  if !legalVec 0x22 w || !st.isOut || sltEntryBad s n w.b.1 then sltTrap s n .illegal
  else
    let x := salt s n
    let i := x.shard.toNat
    match (ioRoles s i).run s with
    | (.error _, s) => sltTrap s n .brine
    | (.ok b, s) =>
      if streamBad s b (shardOf s i).srec.auxd st then sltTrap s n .illegal
      else
        let new := x.vec.stores w st.role x.start (x.start + 16)
        sltAdvance (modSlt s n fun x => { x with sts := new ++ x.sts }) n

/-- LDS (R259). -/
def execLds (u : VecId) (w : VFields) (bad : List Nat) (s : State) : Host.Outcome State Fault Refusal :=
  .next (match u with
    | .hrv n => if hrvIssues s n then commandAs (.hrv n) bad s (ldsHrv · n w) else s
    | .slt n => if sltIssues s n then commandAs (.slt n) bad s (ldsSlt · n w) else s)

/-- STS (R260). -/
def execSts (u : VecId) (w : VFields) (s : State) : Host.Outcome State Fault Refusal :=
  .next (match u with
    | .hrv n => if hrvIssues s n then stsHrv s n w else s
    | .slt n => if sltIssues s n then commandAs (.slt n) [] s (stsSlt · n w) else s)

/-! ### What a job writes (R260, R261, R267) -/

/-- A register value as an extended real with the sign of a zero and its NaN as an FP32 pattern. -/
def StsVal.value (x : StsVal) : LoadV :=
  let t := if x.dbl then sp64 else sp32
  match unpack t x.bits with
  | .nan _ => { v := .nan, nan := some (if x.dbl then x.bits / 2 ^ 63 * 2 ^ 31 + sp32.infBits + x.bits % 2 ^ 52 / 2 ^ 29 else x.bits) }
  | .inf n => { v := .inf n }
  | .num n q => { v := .fin q, neg := n }

/-- Bytes, counts and non-finite writes of an OUT tensor. -/
structure OutAcc where
  writes : List (Nat × List Byte) := []
  sat    : Nat := 0
  under  : Nat := 0
  nonfin : Bool := false
  deriving DecidableEq, Repr

def OutAcc.add (a b : OutAcc) : OutAcc :=
  { writes := a.writes ++ b.writes, sat := a.sat + b.sat, under := a.under + b.under, nonfin := a.nonfin || b.nonfin }

/-- A value stored into W16 or FP32 (R260): −0 and NaN payloads are kept (R46). A payload that the narrower stored format
cannot hold keeps its high bits; where these are 0, which would spell an infinity, the canonical NaN is written (DESIGN
CHOICE, log entry 127). -/
def storeWide (d : Desc) (ovf : Bool) (x : LoadV) : Nat × OutAcc :=
  let f := d.format
  match x.v, x.nan with
  | .nan, some n =>
    let k := if f = .w16 then n / 65536 else n
    let frac := if f = .w16 then k % 128 else k % 2 ^ 23
    (if frac = 0 then f.nanCode else k, { nonfin := true })
  | v, _ =>
    let (c, ev) := storeFloat f false ovf (xscale d.c v)
    let zero := c = 0
    (if zero && x.neg then 2 ^ (f.width - 1) else c,
      { sat := b2n ev.sat, under := b2n (zero && v.isFin && !v.isZero), nonfin := ev.nonfin })

/-- A group of integers stored RAW (R260): values at present positions, in order; true marks a stored one. -/
def rawGroup (d : Desc) (mask : List Bool) (xs : List (Bool × XVal)) : List Byte × OutAcc :=
  let hi : Int := 2 ^ (d.w - 1) - 1
  if xs.any fun x => x.2.isNan then
    (encodeCake d (if d.fine = .ue4m3 then 0x7F else 0xFF) 0 false false false mask (xs.map fun _ => 0),
      { nonfin := xs.any fun x => x.1 && x.2.isNan })
  else
    let cs := xs.map fun x => match x.2 with
      | .fin q => clampInt (-hi - 1) hi (roundInt .rne q)
      | .inf n => (if n then -hi - 1 else hi, true)
      | .nan => (0, false)
    (encodeCake d 0x7F 0 false false false mask (cs.map fun c => wrapTo d.w c.1),
      { sat := ((xs.zip cs).filter fun x => x.1.1 && x.2.2).length })

/-- The stored value of an element, the newest first. -/
def storedAt (b : Bind) (sts : List StsVal) (role row k : Nat) : Option LoadV :=
  (sts.find? fun x => x.role = role && b.elems[x.elem]? == some (row, k)).map StsVal.value

/-- One group of IN as a store finds it: its elements and the bytes of its cake. -/
structure InGrp where
  grp   : Grp
  bytes : List Byte := []
  deriving DecidableEq, Repr

def ioInGrp (o : Opnd) (row j : Nat) : Io InGrp := do
  let (g, _) ← ioGrp o row j
  if o.d.isPlain then return { grp := g }
  else return { grp := g, bytes := ← ioRead g.addr (if o.d.masked then o.d.maskedSize g.count else o.d.slot) }

/-- The code of IN at a position of its cake; 0 where a masked IN has none. A malformed unmasked cake still has its code
area. -/
def InGrp.code (i : InGrp) (d : Desc) (mask : List Bool) (p : Nat) : Nat :=
  if d.masked then (if i.grp.mask.getD p false then i.grp.codes.getD (i.grp.place p) 0 else 0)
  else codeAt d.w (leNat (i.bytes.drop 8)) ((mask.take p).filter id).length

/-- The positions with a stored code in an OUT cake: those of W_IN's cake at the group (R261), or those of an unmasked cake,
listed channels and the rest of an open group left out (R63, R78, R85). -/
def ioOutMask (b : Bind) (d : Desc) (ol : List Nat) (row j : Nat) : Io (List Bool) := do
  if d.masked then return (← ioGrp { d := b.desc 2 } row j).1.mask
  else
    let n := match d.openGroup with
      | some (oj, n) => if oj = j then n else d.g
      | none => d.g
    return (List.range d.g).map fun p => decide (p < n) && !ol.contains (j * d.g + p)

/-- How a group of an OUT cake is written: the crystalliser's way of its tensor, IN's descriptor, RAW, the flags OXC and
OPEN, and the mask. -/
structure OutCx where
  x    : QCx
  din  : Desc
  raw  : Bool
  oxc  : Bool
  opn  : Bool
  mask : List Bool

/-- A quantised group whose non-finite codes come from stored values: what the group would hold with the other values taken
as 0 where they are not finite (R267). -/
def OutCx.nonfin (c : OutCx) (vs : List (Bool × XVal)) : Bool :=
  decide (0 < (c.x.group (vs.map fun v => if v.1 || v.2.isFin then v.2 else xzero)).nonfin)

/-- One group of an OUT cake from its stored values (R260, R261): its bytes. -/
def outCake (c : OutCx) (i : InGrp) (vals : List (Option LoadV)) : List Byte × OutAcc :=
  let d := c.x.d
  let g := i.grp
  let pres := (List.range c.mask.length).filter fun p => c.mask.getD p false
  let at_ := fun (p : Nat) => vals.getD p none
  if pres.all (fun p => (at_ p).isNone) && (!d.masked || (!g.bad && g.mask == c.mask)) then (i.bytes, {})
  else if c.raw then
    rawGroup d c.mask (pres.map fun p => match at_ p with
      | some x => (true, x.v)
      | none => (false, (loadEl c.din true g p).v))
  else if d.fine = .none then
    let cs := pres.map fun p => match at_ p with
      | some x => storeWide d c.x.ovf x
      | none => (if d.masked && g.bad then d.format.nanCode else i.code c.din c.mask p, {})
    (encodeCake d 0 0 false c.opn c.oxc c.mask (cs.map Prod.fst), cs.foldl (fun a c => a.add c.2) {})
  else
    let vs := pres.map fun p => match at_ p with
      | some v => (true, v.v)
      | none => (false, (loadEl c.din false g p).v)
    let q := c.x.group (vs.map Prod.snd)
    (encodeCake d q.fs q.zp false c.opn c.oxc c.mask q.codes, { sat := q.sat, under := q.under, nonfin := c.nonfin vs })

/-- Plain values of one group of a row. -/
def outPlainGrp (dout : Desc) (ovf : Bool) (g : Grp) (vals : List (Option LoadV)) : List Byte × OutAcc :=
  let cs := g.els.zipIdx.map fun (e, p) => match vals.getD p none with
    | some x => storeWide dout ovf x
    | none => ((e.map El.raw).getD 0, {})
  ((cs.map fun c => leBytes (dout.w / 8) c.1).flatten, cs.foldl (fun a c => a.add c.2) {})

/-- Stored values of a group's listed channels, written to the side tensor, which both slots share (R84, R274; DEDUCED, log
entry 128). -/
def outSide (d : Desc) (ovf : Bool) (ol : List Nat) (row j : Nat) (vals : List (Option LoadV)) : OutAcc :=
  ol.zipIdx.foldl (fun a (k, n) =>
    if k / d.g ≠ j then a
    else match vals.getD (k % d.g) none with
      | some v =>
        let (w, x) := storeWide { d with fmt := 0 } ovf v
        a.add { x with writes := [(d.sideRow row + 2 * n, leBytes 2 w)] }
      | none => a) {}

/-- The tail entries of an open group (R79): those of its stored values, in W16 with RNA, and IN's for the others (DEDUCED,
log entry 128). -/
def ioOutTail (din dout : Desc) (ovf : Bool) (row j : Nat) (vals : List (Option LoadV)) : Io OutAcc := do
  match dout.openGroup with
  | some (oj, n) =>
    if oj ≠ j then return {}
    else
      let old ← ioRead (din.aux + row * (2 * din.g)) (2 * n)
      let ts := (List.range n).map fun p => match vals.getD p none with
        | some v => (storeWide { dout with fmt := 0, coarse := 0x3F800000#32 } ovf v).1
        | none => leAt old (2 * p) 2
      return { writes := [(dout.aux + row * (2 * dout.g), (ts.map (leBytes 2)).flatten)] }
  | none => return {}

/-- One group of an OUT cake tensor written at an address: what it writes, and its cake's size. -/
def outGroup (s : State) (b : Bind) (st : StreamB) (sts : List StsVal) (ol : List Nat) (row j a : Nat) : Io (OutAcc × Nat) := do
  let din := b.desc (st.role - 1)
  let dout := b.desc st.role
  let i ← ioInGrp (opndOf s din ol) row j
  let mask ← ioOutMask b dout ol row j
  let vals := (List.range din.g).map fun p => storedAt b sts st.role row (j * din.g + p)
  let c : OutCx :=
    { x := { d := dout, cb := if dout.format.isCb then codebookCopy s dout.cbslot else [], c := dout.c
             ceil := ceilCode dout.fine dout.var false, ovf := st.ovf }
      din := din, raw := st.raw && dout.format.isInt, oxc := ol.any fun k => k / dout.g = j
      opn := dout.openGroup.any fun g => g.1 = j, mask := mask }
  let (bs, x) := outCake c i vals
  let tail ← ioOutTail din dout st.ovf row j vals
  return ((((outSide dout st.ovf ol row j vals).add tail).add x).add { writes := [(a, bs)] }, bs.length)

/-- One row of an OUT tensor with stored elements, written from an address on; structural on the group indices. -/
def outRow (s : State) (b : Bind) (st : StreamB) (sts : List StsVal) (ol : List Nat) (row : Nat) :
    List Nat → Nat → OutAcc → Io OutAcc
  | [], _, acc => return acc
  | j :: t, a, acc => do
    let din := b.desc (st.role - 1)
    let dout := b.desc st.role
    let (x, n) ← if dout.isPlain then do
        let (g, _) ← ioGrp (opndOf s din []) row j
        let vals := (List.range din.g).map fun p => storedAt b sts st.role row (j * din.g + p)
        let (bs, x) := outPlainGrp dout st.ovf g vals
        pure (x.add { writes := [(a, bs)] }, bs.length)
      else outGroup s b st sts ol row j a
    outRow s b st sts ol row t (a + n) (acc.add x)

/-- A bit-identical copy of an IN tensor with its row table or tail buffer (R79, R261). The side tensor is the same for both
slots (R274). -/
def outCopy (din dout : Desc) : Io OutAcc := do
  let n ← ioExtent din
  let bs ← ioRead din.base n
  let aux := if din.isCake && din.masked then 4 * (din.rows + 1) else if din.openok then din.rows * (2 * din.g) else 0
  if aux = 0 then return { writes := [(dout.base, bs)] }
  else return { writes := [(dout.aux, ← ioRead din.aux aux), (dout.base, bs)] }

/-- What one OUT role's tensor receives. -/
def outTensor (s : State) (b : Bind) (streams : List StreamB) (sts : List StsVal) (role : Nat) : Io (OutAcc × Nat) := do
  let din := b.desc (role - 1)
  let dout := b.desc role
  if dout.base = 0 then return ({}, 0)
  else match streams.find? fun x => x.role = role with
    | none => return (← outCopy din dout, 0)
    | some st =>
      let ol ← ioOutliers (some din)
      let tab ← if din.isCake && din.masked then ioRead din.aux (4 * (din.rows + 1)) else pure []
      let rows ← (List.range din.rows).mapM fun r =>
        outRow s b st sts (ol.getD []) r (List.range din.ng)
          (dout.base + (if tab.isEmpty then r * dout.rowstride else 16 * leAt tab (4 * r) 4)) {}
      let a := rows.foldl OutAcc.add {}
      return ((if tab.isEmpty then a else ({ writes := [(dout.aux, tab)] } : OutAcc).add a), dout.stats)

/-- What a job writes: every OUT role's tensor, and the counts of each statistics record. -/
def ioOutputs (s : State) (j : Job) : Io (OutAcc × List (Aop × Nat × Nat)) := do
  let xs ← [3, 5, 7, 9].mapM (outTensor s j.bind j.img.streams j.sts)
  let ms := (xs.map fun (a, st) => if st = 0 then [] else
    ([(Aop.addl32, st, a.sat), (Aop.addl32, st + 4, a.under)] : List (Aop × Nat × Nat)).filter fun x => x.2.2 ≠ 0).flatten
  return (xs.foldl (fun a x => a.add x.1) {}, ms)

/-- Writes issued in order: the first address answered with an error, and the state. -/
def issueWrites (s : State) (ws : List (Nat × List Byte)) : Option Nat × State :=
  ws.foldl (fun (x : Option Nat × State) w =>
    let (ok, t) := wrHost x.2 w.1 w.2
    (if ok then x.1 else match x.1 with | some a => some a | none => some w.1, t)) (none, s)

end Sys2Proof.Machine
end

