-- ==== Sys2Proof/Machine/Salter.lean ====
section
/-! DEFINITION. The scalar instructions of the salters (spec/09_harvest_programs.md R268 to R271; spec/18 R481, R482). -/

namespace Sys2Proof.Machine

/-! ### Scalar registers (R268) -/

/-- x[r]; x0 reads 0. -/
def Slt.rx (x : Slt) (r : Fin 32) : W64 := if r = 0 then 0 else vget x.x r

/-- x[r] written; x0 keeps reading 0. -/
def Slt.wx (x : Slt) (r : Fin 32) (v : W64) : Slt := if r = 0 then x else { x with x := vset x.x r v }

/-- A signed immediate. -/
def immOf (i : W16) : W64 := i.signExtend 64

/-- Register forms use neither PG nor M. -/
def plainForm (w : VFields) : Bool := w.pg == 0 && w.m == 0

/-- An instruction that changes registers and goes on to the next one; an illegal one traps. -/
def runScalar (s : State) (n : Fin 8) (legal : Bool) (f : Slt → Slt) : State :=
  if !sltIssues s n then s
  else if !legal then sltTrap s n .illegal
  else sltAdvance (modSlt s n f) n

/-- An instruction that may jump: f gives the registers, t the next address. -/
def runJump (s : State) (n : Fin 8) (f : Slt → Slt) (t : Slt → W32) : State :=
  if !sltIssues s n then s
  else modSlt (useStep s (0x48 + n.1)) n fun x => { f x with pc := t x }

/-- The functions of ALU. -/
def aluOp (c : Nat) (a b : W64) : W64 :=
  match c with
  | 0 => a + b
  | 1 => a - b
  | 2 => a &&& b
  | 3 => a ||| b
  | 4 => a ^^^ b
  | 5 => a <<< (b.toNat % 64)
  | 6 => a >>> (b.toNat % 64)
  | 7 => a.sshiftRight (b.toNat % 64)
  | 8 => a * b
  | 9 => if a.slt b then 1 else 0
  | _ => if a.ult b then 1 else 0

/-- ALU: x[D] = function C of x[A], x[B]. -/
def execAlu (n : Fin 8) (w : VFields) (s : State) : Host.Outcome State Fault Refusal :=
  .next (runScalar s n (plainForm w && decide (w.c.1 ≤ 10)) fun x => x.wx w.d (aluOp w.c.1 (x.rx w.a) (x.rx w.b)))

/-- ADDI: x[D] = x[A] + IMM. -/
def execAddi (n : Fin 8) (d a : Fin 32) (imm : W16) (s : State) : Host.Outcome State Fault Refusal :=
  .next (runScalar s n true fun x => x.wx d (x.rx a + immOf imm))

/-- LUI: x[D] = IMM × 2^16, sign-extended. The field A is not used and must be 0. -/
def execLui (n : Fin 8) (d a : Fin 32) (imm : W16) (s : State) : Host.Outcome State Fault Refusal :=
  .next (runScalar s n (a == 0) fun x => x.wx d (immOf imm <<< 16))

/-! ### Loads and stores (R269) -/

/-- Where a scalar access goes. -/
inductive SPlace where
  | mem (a : Nat) | host (a : Nat) | trap (c : TrapCode)
  deriving DecidableEq, Repr

/-- The place of an access of `size` bytes. -/
def splace (a : W64) (size : Nat) : SPlace :=
  let n := a.toNat
  if n % size ≠ 0 then .trap .misalign
  else if n < 0x40000 then .mem n
  else if n < 2 ^ 32 then .trap .address
  else .host (n - 2 ^ 32)

/-- Bytes read from host memory as salter stores that wait for their responses leave them. -/
def overStores (s : State) (a : Nat) (bs : List Byte) : List Byte :=
  s.txns.foldl (fun bs t => match t.why with
    | .salterStore _ => bs.zipIdx.map fun (b, i) =>
        if t.addr ≤ a + i ∧ a + i < t.addr + t.data.length then t.data.getD (a + i - t.addr) 0 else b
    | _ => bs) bs

/-- Faults that IARM asks a salter for (R385). -/
def sltInject (s : State) (n : Fin 8) : State :=
  let p : PageId := .slt n
  let s := if corruptArmed s p cEcccor then recordErr s p { cause := cEcccor, inj := true } else s
  if corruptArmed s p cEccunc then recordErr s p { cause := cEccunc, cls := some 2, inj := true } else s

/-- A scalar load of `size` bytes, zero-extended. -/
def load (s : State) (n : Fin 8) (d a : Fin 32) (imm : W16) (size : Nat) : State :=
  let s := sltInject s n
  if (salt s n).mode ≠ .run then s
  else
    match splace ((salt s n).rx a + immOf imm) size with
    | .trap c => sltTrap s n c
    | .mem p => sltAdvance (modSlt s n fun x => x.wx d (BitVec.ofNat 64 (leNat (memBytes x.lmem p size)))) n
    | .host p =>
      let (r, s) := rdHost s p size
      match r with
      | none => sltTrap s n .brine
      | some bs =>
        sltAdvance (modSlt s n fun x => x.wx d (BitVec.ofNat 64 (leNat (overStores s (hostAddr s p) bs)))) n

/-- LD. -/
def execLd (n : Fin 8) (d a : Fin 32) (imm : W16) (bad : List Nat) (s : State) : Host.Outcome State Fault Refusal :=
  .next (if sltIssues s n then commandAs (.slt n) bad s (load · n d a imm 8) else s)

/-- LDW. -/
def execLdw (n : Fin 8) (d a : Fin 32) (imm : W16) (bad : List Nat) (s : State) : Host.Outcome State Fault Refusal :=
  .next (if sltIssues s n then commandAs (.slt n) bad s (load · n d a imm 4) else s)

/-- A scalar store of `size` bytes. A host store leaves as a WR and waits while no credit is free; it stores when it is
answered. -/
def store (s : State) (n : Fin 8) (d a : Fin 32) (imm : W16) (size : Nat) : State :=
  let x := salt s n
  let bs := leBytes size (x.rx d).toNat
  match splace (x.rx a + immOf imm) size with
  | .trap c => sltTrap s n c
  | .mem p => sltAdvance (modSlt s n fun x => { x with lmem := memPut x.lmem p bs }) n
  | .host p =>
    if (apertureOf s (addr64 p)).isSome then sltAdvance (wrHost s p bs).2 n
    else
      let sh := some (agentShare x.regs.sshare)
      if creditOk s x.regs.squad sh then sltAdvance (issueTxn s x.regs.squad sh .wr (hostAddr s p) bs (.salterStore n)) n else s

/-- ST. -/
def execSt (n : Fin 8) (d a : Fin 32) (imm : W16) (s : State) : Host.Outcome State Fault Refusal :=
  .next (if sltIssues s n then commandAs (.slt n) [] s (store · n d a imm 8) else s)

/-- STW. -/
def execStw (n : Fin 8) (d a : Fin 32) (imm : W16) (s : State) : Host.Outcome State Fault Refusal :=
  .next (if sltIssues s n then commandAs (.slt n) [] s (store · n d a imm 4) else s)

/-! ### Branches -/

/-- The address IMM instructions on. -/
def branchTo (x : Slt) (imm : W16) : W32 := x.pc + (imm.signExtend 32) * 4

def branch (s : State) (n : Fin 8) (d a : Fin 32) (imm : W16) (p : W64 → W64 → Bool) : State :=
  runJump s n id fun x => if p (x.rx d) (x.rx a) then branchTo x imm else x.pc + 4

/-- BEQ. -/
def execBeq (n : Fin 8) (d a : Fin 32) (imm : W16) (s : State) : Host.Outcome State Fault Refusal :=
  .next (branch s n d a imm fun x y => x == y)
/-- BNE. -/
def execBne (n : Fin 8) (d a : Fin 32) (imm : W16) (s : State) : Host.Outcome State Fault Refusal :=
  .next (branch s n d a imm fun x y => x != y)
/-- BLT, signed. -/
def execBlt (n : Fin 8) (d a : Fin 32) (imm : W16) (s : State) : Host.Outcome State Fault Refusal :=
  .next (branch s n d a imm fun x y => x.slt y)
/-- BGE, signed. -/
def execBge (n : Fin 8) (d a : Fin 32) (imm : W16) (s : State) : Host.Outcome State Fault Refusal :=
  .next (branch s n d a imm fun x y => !x.slt y)

/-- JAL: x[D] = return address; jump to x[A] + 4 × IMM. A jump to the address that the trap saved, or to the one after
it, leaves the trap handler. -/
def execJal (n : Fin 8) (d a : Fin 32) (imm : W16) (s : State) : Host.Outcome State Fault Refusal :=
  let target := fun (x : Slt) => (x.rx a + immOf imm * 4).setWidth 32
  .next (runJump s n (fun x =>
    let y := x.wx d ((x.pc + 4).setWidth 64)
    { y with inTrap := x.inTrap && !(target x == x.tpc.setWidth 32 || target x == x.tpc.setWidth 32 + 4) }) target)

/-! ### Moves and control (R268, R270) -/

/-- XMOV. -/
def execXmov (n : Fin 8) (w : VFields) (s : State) : Host.Outcome State Fault Refusal :=
  let c := w.c.1
  let legal := plainForm w && w.b == 0 && decide (c ≤ 3) && (c != 2 || decide (w.a.1 < 8))
    && (c != 3 || decide (1 ≤ w.d.1 ∧ w.d.1 ≤ 7))
  .next (runScalar s n legal fun x =>
    match c with
    | 0 => { x with vec := { x.vec with s := vset x.vec.s w.d ((x.rx w.a).setWidth 32) } }
    | 1 => x.wx w.d ((vget x.vec.s w.a).setWidth 64)
    | 2 => x.wx w.d ((vget x.vec.p (predOf w.a)).setWidth 64)
    | _ => { x with vec := { x.vec with p := vset x.vec.p (predOf w.d) ((x.rx w.a).setWidth 16) } })

/-- A new vector sequence: the streams stand before their first batch and p0 reads 1 in every lane (R270). -/
def Slt.sequence (x : Slt) : Slt := { x with batch := 0, sts := [], vec := x.vec.setP0 16 }

/-- A control register. -/
def Slt.csr (x : Slt) : Csr → W64
  | .streams => x.streams
  | .shard => x.shard
  | .tvec => x.tvec
  | .tpc => x.tpc
  | .tcause => x.tcause
  | .reserved => 0

/-- A control register written. STREAMS and SHARD, which say what the streams are, begin a vector sequence; no rule says
what does (R270; DESIGN CHOICE, log entry 124). -/
def Slt.setCsr (x : Slt) (r : Csr) (v : W64) : Slt :=
  match r with
  | .streams => { x.sequence with streams := v }
  | .shard => { x.sequence with shard := v }
  | .tvec => { x with tvec := v }
  | .tpc => { x with tpc := v }
  | .tcause => { x with tcause := v }
  | .reserved => x

/-- CSR: x[D] = the control register, which then takes x[A] when asked to. -/
def execCsr (n : Fin 8) (d a : Fin 32) (r : Csr) (wr : Bool) (s : State) : Host.Outcome State Fault Refusal :=
  .next (runScalar s n (r != .reserved) fun x =>
    let y := if wr then x.setCsr r (x.rx a) else x
    y.wx d (x.csr r))

/-- Address of a group of an OUT cake tensor; in a masked row, behind the cakes of the groups before it as W_IN's masks size
them (R73, R261). -/
def ioCakeAt (b : Bind) (din dout : Desc) (row j : Nat) : Io Nat := do
  if dout.masked then
    let t ← ioNum (din.aux + 4 * row) 4
    let rr ← readRow { d := b.desc 2 } [] row 0 j
    return dout.base + 16 * t + (rr.grps.map fun y => dout.maskedSize y.count).sum
  else return dout.base + row * dout.rowstride + j * dout.slot

/-- Row table entries of a row copied from IN (R261). -/
def ioRowTable (din dout : Desc) (row : Nat) : Io OutAcc := do
  if dout.masked then return { writes := [(dout.aux + 4 * row, ← ioRead (din.aux + 4 * row) 8)] } else return {}

/-- What a batch's end writes of an OUT stream (R260, R261): plain values of its elements; each cake it stores in, whole, with
the codes of IN where nothing is stored yet; but a cake with a fine scale only once all its elements have passed. -/
def sltOutputs (s : State) (b : Bind) (x : Slt) (st : StreamB) : Io (OutAcc × List (Aop × Nat × Nat)) := do
  let din := b.desc (st.role - 1)
  let dout := b.desc st.role
  let els := b.batch x.start 16
  let next := (b.elems[x.start + 16]?).map fun e => (e.1, e.2 / din.g)
  let keys := (els.map fun e => (e.1, e.2 / din.g)).eraseDups
  let ol := (← ioOutliers (some din)).getD []
  let accs ← keys.mapM fun k => do
    if dout.isPlain then
      let (g, _) ← ioGrp (opndOf s din []) k.1 k.2
      let ps := (els.filter fun e => (e.1, e.2 / din.g) = k).map fun e => e.2 % din.g
      let w := dout.w / 8
      return (ps.map fun p =>
        let (c, a) := match storedAt b x.sts st.role k.1 (k.2 * din.g + p) with
          | some v => storeWide dout st.ovf v
          | none => (((g.els.getD p none).map El.raw).getD 0, {})
        ({ a with writes := [(dout.base + k.1 * dout.rowstride + (k.2 * din.g + p) * w, leBytes w c)] } : OutAcc)).foldl OutAcc.add {}
    else if next = some k && dout.fine ≠ .none then return {}
    else
      let tab ← ioRowTable din dout k.1
      let at_ ← ioCakeAt b din dout k.1 k.2
      let (a, _) ← outGroup s b st x.sts ol k.1 k.2 at_
      if dout.fine ≠ .none then return tab.add a
      else
        let (own, _) ← outGroup s b st (x.sts.filter fun v => decide (x.start ≤ v.elem)) ol k.1 k.2 at_
        return tab.add { own with writes := a.writes }
  let acc := accs.foldl OutAcc.add {}
  let ms : List (Aop × Nat × Nat) := if dout.stats = 0 then [] else
    [(.addl32, dout.stats, acc.sat), (.addl32, dout.stats + 4, acc.under)]
  return (acc, ms.filter fun m => m.2.2 ≠ 0)

/-- The OUT streams whose batch ends: those bound to a tensor. Before the first SADV a batch without a store writes nothing. -/
def Slt.outs (x : Slt) (streams : List StreamB) : List StreamB :=
  if x.sts.isEmpty && x.batch = 0 then [] else streams.filter StreamB.isOut

/-- The stores of a salter's batch issued (R260 to R262): false when one is answered with an error. -/
def sltFlush (s : State) (n : Fin 8) : Bool × State :=
  let x := salt s n
  let outs := x.outs (sltTable s n)
  if outs.isEmpty then (true, s)
  else
    let body : Io (Bind × List (OutAcc × List (Aop × Nat × Nat))) := do
      let (b, _) ← ioBind s x.shard.toNat
      return (b, ← (outs.filter fun st => (b.desc st.role).base ≠ 0).mapM (sltOutputs s b x))
    match body.run s with
    | (.error _, s) => (false, s)
    | (.ok (b, xs), s) =>
      let (err, s) := issueWrites s (xs.map fun y => y.1.writes).flatten
      let ms := (xs.map Prod.snd).flatten
      if err.isSome || (mergesBad s ms).isSome then (false, s)
      else
        let s := applyMerges s ms
        let next := b.elems[x.start + 16]?
        (true, modSlt s n fun y => { y with sts := y.sts.filter fun v =>
          let d := b.desc v.role
          match next, b.elems[v.elem]? with
          | some e, some f => !d.isPlain && decide ((e.1, e.2 / d.g) = (f.1, f.2 / d.g))
          | _, _ => false })

/-- Elements of the shard that a salter's streams walk. -/
def sltCount (s : State) (n : Fin 8) : Option Nat × State :=
  match (ioBind s (salt s n).shard.toNat).run s with
  | (.ok (b, _), s) => (some b.elems.length, s)
  | (.error _, s) => (none, s)

/-- SADV: every bound stream advances by one batch and p0 is set; the batch it ends is stored. -/
def sadv (s : State) (n : Fin 8) : State :=
  let (ok, s) := sltFlush s n
  let (c, s) := sltCount s n
  match ok, c with
  | true, some nel =>
    sltAdvance (modSlt s n fun x => { x with batch := x.batch + 1, vec := x.vec.setP0 (nel - 16 * x.batch) }) n
  | _, _ => sltTrap s n .brine

def execSadv (n : Fin 8) (w : VFields) (bad : List Nat) (s : State) : Host.Outcome State Fault Refusal :=
  .next (if !sltIssues s n then s
    else if w == {} then commandAs (.slt n) bad s (sadv · n) else sltTrap s n .illegal)

/-! ### SYS (R268, R269, R271) -/

/-- WFE: waits for an event. -/
def execWfe (n : Fin 8) (s : State) : Host.Outcome State Fault Refusal :=
  .next (runScalar s n true fun x => if x.event then { x with event := false } else { x with mode := .wfe })

/-- Whether a host store of a salter waits for its response. -/
def storesOut (s : State) (n : Fin 8) : Bool := s.txns.any (fun t => t.why == .salterStore n) || writesOut s (.slt n)

/-- A FENCE ends once the salter's stores are all answered. -/
def fenceEnd (s : State) (n : Fin 8) : State :=
  if (salt s n).mode = .fence && !storesOut s n then modSlt s n fun x => { x with mode := .run } else s

/-- FENCE: waits until every earlier host store has its response. -/
def execFence (n : Fin 8) (s : State) : Host.Outcome State Fault Refusal :=
  .next (runScalar s n true fun x => if storesOut s n then { x with mode := .fence } else x)

/-- HALT: the batch in progress is stored and the page reads IDLE. -/
def haltSlt (s : State) (n : Fin 8) : State :=
  let (ok, s) := sltFlush s n
  if ok then modSlt (useStep s (0x48 + n.1)) n fun x =>
    { x with mode := .idle, sts := [], regs := { x.regs with chalt := true, pc := x.pc } }
  else sltTrap s n .brine

def execHalt (n : Fin 8) (s : State) : Host.Outcome State Fault Refusal :=
  .next (if sltIssues s n then commandAs (.slt n) [] s (haltSlt · n) else s)

/-- TRAP. -/
def execTrap (n : Fin 8) (s : State) : Host.Outcome State Fault Refusal :=
  .next (if sltIssues s n then sltTrap s n .trap else s)

end Sys2Proof.Machine
end

