-- ==== Sys2Proof/Machine/Journal.lean ====
section
/-! DEFINITION. The twin journal, its tail in the retention store and the history checkpoint
(spec/12_thrumow_links_and_cascade.md R347 to R350; spec/04 R129; spec/10 R287; spec/13 R382), with the layout of a mask
directory entry (spec/06 R161). -/

namespace Sys2Proof.Machine

/-! ### Directory entries as bytes (R161) -/

/-- The 64 bytes of a directory entry. -/
def DirE.bytes (e : DirE) : List Byte :=
  leBytes 4 e.mep.toNat ++ leBytes 4 e.seed.toNat ++ leBytes 8 e.crec.toNat ++ leBytes 8 e.rblk.toNat
    ++ leBytes 2 e.cadence.toNat ++ leBytes 2 e.phase.toNat ++ leBytes 4 e.cstep.toNat ++ leBytes 4 e.cgTotal.toNat
    ++ leBytes 4 e.cgTiles.toNat ++ leBytes 4 e.xepA.toNat ++ leBytes 4 e.xepB.toNat
    ++ leBytes 1 (e.role.toNat + 4 * b2n e.slot + 8 * b2n e.busy + 16 * b2n e.nog) ++ [e.xcfg, e.xch, e.cands, e.ktarget, e.kstep]
    ++ [e.rdrA, e.rdrB] ++ leBytes 2 e.misscnt.toNat ++ List.replicate 6 0

/-- The entry that 64 bytes spell. -/
def DirE.ofBytes (b : List Byte) : DirE :=
  let w := fun (o : Nat) => BitVec.ofNat 32 (leAt b o 4)
  let y := fun (o : Nat) => BitVec.ofNat 8 (byteAt b o)
  let r := byteAt b 48
  { mep := w 0, seed := w 4, crec := BitVec.ofNat 64 (leAt b 8 8), rblk := BitVec.ofNat 64 (leAt b 16 8)
    cadence := BitVec.ofNat 16 (leAt b 24 2), phase := BitVec.ofNat 16 (leAt b 26 2), cstep := w 28, cgTotal := w 32
    cgTiles := w 36, xepA := w 40, xepB := w 44, role := BitVec.ofNat 2 r, slot := nbit r 2, busy := nbit r 3
    nog := nbit r 4, xcfg := y 49, xch := y 50, cands := y 51, ktarget := y 52, kstep := y 53, rdrA := y 54, rdrB := y 55
    misscnt := BitVec.ofNat 16 (leAt b 56 2) }

/-! ### Entries (R348) -/

def jAct : Nat := 1
def jPend : Nat := 2
def jVerdict : Nat := 3
def jFlip : Nat := 4
def jDir : Nat := 5
def jMark : Nat := 6
def jFinal : Nat := 7

/-- The 128 bytes of an entry. -/
def jBytes (kind : Nat) (jseq step : W32) (index : Nat) (body : List Byte) : List Byte :=
  leBytes 4 kind ++ leBytes 4 jseq.toNat ++ leBytes 4 step.toNat ++ leBytes 4 index ++ fitTo 112 body

def JEntry.kind (e : JEntry) : Nat := byteAt e.bytes 0
def JEntry.step (e : JEntry) : W32 := BitVec.ofNat 32 (leAt e.bytes 8 4)
def JEntry.index (e : JEntry) : Nat := leAt e.bytes 12 4
def JEntry.body (e : JEntry) : List Byte := e.bytes.drop 16

/-- What the journal tail keeps (R348, R382): entries that the twin has not acknowledged and the last 16 VERDICT entries;
without a twin, also the PEND and FLIP entries of the last 16 verdict steps. -/
def trimTail (s : State) : State :=
  let verdicts := s.tail.filter fun e => e.kind = jVerdict
  let last := verdicts.drop (verdicts.length - 16)
  let recent := fun (x : W32) => decide ((s.vrd.regs.vstep - x).toNat < 16 ∨ (x - s.vrd.regs.vstep).toNat < 16)
  let keep := fun (e : JEntry) =>
    if e.kind = jVerdict then last.contains e
    else if s.twn.regs.twen then s.twn.jout.contains e
    else (e.kind = jPend || e.kind = jFlip) && recent e.step
  { s with tail := s.tail.filter keep }

/-- JLAG reads the entries that the twin has not acknowledged (R354). -/
def setJlag (s : State) : State := modTwnR s fun r => { r with jlag := satAdd 0 s.twn.jout.length }

/-- A frame to the twin on TWLINK, class J. -/
def sendTwin (s : State) (ftype : Nat) (ts payload : List Byte) : State :=
  sendVia s (some s.twn.regs.twlink) false s.twn.regs.twin.toNat 1 ftype ts payload

/-- An entry journaled: numbered, staged, sent to the twin and kept in the tail. Without a twin it only enters the tail. -/
def journal (s : State) (kind : Nat) (step : W32) (index : Nat) (body : List Byte) : State :=
  let s := modPwr s fun p => { p with tailOk := true }
  if s.twn.regs.twen then
    let q := s.twn.jseq
    let e : JEntry := { jseq := q, bytes := jBytes kind q step index body }
    let s := resPut s (0x400000 + 128 * (q.toNat % 8192)) e.bytes
    let s := { s with twn := { s.twn with jseq := q + 1, jout := s.twn.jout ++ [e] }, tail := s.tail ++ [e] }
    trimTail (sendTwin (setJlag s) 0x10 (leBytes 4 q.toNat ++ [1, 0, 0]) e.bytes)
  else
    trimTail { s with tail := s.tail ++ [{ jseq := 0, bytes := jBytes kind 0 step index body }] }

/-- The step whose COMMIT a valid journal tail holds last (R289, R384). -/
def tailCommit (s : State) : Option W32 :=
  if !s.pwr.tailOk then none
  else match (s.tail.filter fun e => e.kind = jVerdict).getLast? with
    | some e => if nbit (byteAt e.body 0) 0 then some e.step else none
    | none => none

/-- The shards with a PEND entry and no FLIP entry of a step in the tail. -/
def tailPend (s : State) (step : W32) : List Nat :=
  let of_ := fun (k : Nat) => (s.tail.filter fun e => e.kind = k ∧ e.step = step).map JEntry.index
  ((of_ jPend).filter fun i => !(of_ jFlip).contains i).eraseDups

/-- A directory entry journaled. -/
def journalDir (s : State) (m : Nat) : State := journal s jDir s.vrd.regs.vstep m (dirOf s m).bytes

/-! ### The history checkpoint (R129) -/

/-- The 64 bytes of a history slot. -/
def HistSlot.bytes (h : HistSlot) : List Byte := ((h.e ++ List.replicate 16 0).take 16).flatMap fun (x : W32) => leBytes 4 x.toNat

/-- A history slot from its 64 bytes. -/
def HistSlot.ofBytes (b : List Byte) : HistSlot := { e := (List.range 16).map fun i => BitVec.ofNat 32 (leAt b (4 * i) 4) }

/-- The scale history copied to the retention store. -/
def writeCkpt (s : State) : State := { s with ckpt := s.hist, pwr := { s.pwr with ckptOk := true } }

/-- The checkpoint sent to the twin: 256 history blocks and MARK. -/
def sendCkpt (s : State) : State :=
  if s.twn.regs.twen then
    let s := (List.range 256).foldl (fun s b =>
      sendTwin s 0x10 (leBytes 4 s.twn.jseq.toNat ++ [0] ++ leBytes 2 b)
        (((List.range 64).map fun i => (smGet {} s.hist (64 * b + i)).bytes).flatten)) s
    journal s jMark s.vrd.regs.vstep 0 (leBytes 4 256)
  else s

end Sys2Proof.Machine
end

