-- ==== Sys2Proof/Machine/Rake.lean ====
section
/-! DEFINITION. The Rake: LOAD, FOLLOW and DROP, crosscut indices, candidates, rake events (spec/06_sparse_products_and_masks.md
R161 to R177; spec/13 R377; spec/18 R483). -/

namespace Sys2Proof.Machine

/-! ### Result codes (R164) -/

def rkDone : Nat := 0
def rkBusy : Nat := 1
def rkBadRole : Nat := 2
def rkBadCake : Nat := 3
def rkMaskDiff : Nat := 4
def rkBadEpoch : Nat := 5
def rkXcFull : Nat := 6
def rkNogCount : Nat := 7

/-! ### Rake blocks (R162) -/

/-- Whether a descriptor of a rake block breaks R162 beside its weight descriptor. -/
def rakeDescBad (w d : Desc) : Bool :=
  d.base ≠ 0 && (!d.masked || !d.isCake || d.openok || d.nout != 0 || d.zpt || d.gsz != w.gsz
    || d.rows != w.rows || d.klen != w.klen || !([0, 1, 3, 4, 8, 9] : List Nat).contains d.fmt)

/-- Whether a rake block breaks R162. -/
def rakeBlkBad (r : RakeBlk) : Bool :=
  let w := r.weight false
  (r.a ++ r.b ++ [r.cand]).any (rakeDescBad w) || (r.cand.base != 0 && (r.cand.fmt != 0 || r.cand.fsk != 2))

/-- Whole rows of a tensor with their groups. -/
def ioRows (d : Desc) : Io (List RowRd) := (List.range d.rows).mapM fun r => readRow { d := d } [] r 0 d.ng

def presenceOf (rs : List RowRd) : List (List (List Bool)) := rs.map fun r => r.grps.map fun g => g.els.map Option.isSome

/-! ### Crosscut indices (R165) -/

/-- Bytes of the row table of an index, rounded up to 16. -/
def xcTable (d : Desc) : Nat := (4 * (d.klen + 1) + 15) / 16 * 16

/-- The entries of a transposed row, in ascending source row. -/
def xcEntries (d : Desc) (rows : List RowRd) (t : Nat) : List (List Byte) :=
  let j := t / d.g
  rows.zipIdx.filterMap fun (r, row) =>
    let g := r.grps.getD j {}
    if (g.els.getD (t % d.g) none).isSome then
      let off := ((r.grps.take j).map fun x => d.maskedSize x.count).sum / 16
      some (leBytes 4 row ++ leBytes 1 (g.place (t % d.g)) ++ leBytes 3 off)
    else none

/-- The bytes of a tensor's crosscut index. -/
def xcBytes (d : Desc) (rows : List RowRd) : List Byte :=
  let es := (List.range d.klen).map (xcEntries d rows)
  let (xt, total) := es.foldl (fun (x : List Byte × Nat) e => (x.1 ++ leBytes 4 x.2, x.2 + e.length)) ([], 0)
  fitTo (xcTable d) (xt ++ leBytes 4 total) ++ (es.flatten).flatten

/-- Size of the index of a tensor. -/
def xcSize (d : Desc) (rows : List RowRd) : Nat :=
  xcTable d + 8 * ((rows.map fun r => (r.grps.map fun g => g.count).sum).sum)

/-- Stores an index: in the reservoir, or in host memory. -/
def putIndex (s : State) (loc : Bool) (a : Nat) (bs : List Byte) : Option Nat × State :=
  if loc then
    let (ok, s) := wrHost s a bs
    (if ok then none else some a, s)
  else (none, resPut s a bs)

/-! ### Candidates (R170) -/

def rakeMix (x : W32) : W32 :=
  let x := (x ^^^ (x >>> 16)) * 0x7FEB352D#32
  let x := (x ^^^ (x >>> 15)) * 0x846CA68B#32
  x ^^^ (x >>> 16)

def rakeKey (seed e : W32) (r g p : Nat) : W32 :=
  rakeMix (rakeMix (rakeMix (seed ^^^ e) ^^^ BitVec.ofNat 32 r) ^^^ BitVec.ofNat 32 (g * 256 + p))

/-- The candidate positions of a group: the absent ones with the smallest keys. -/
def candidates (seed e : W32) (cands r g : Nat) (mask : List Bool) : List Nat :=
  let key := fun p => (rakeKey seed e r g p).toNat
  let absent := (List.range mask.length).filter fun p => !mask.getD p false
  (sortBy (fun a b => decide (key a < key b ∨ (key a = key b ∧ a < b))) absent).take cands

/-- Rows of cakes with their row table: the writes of a masked tensor. -/
def maskedWrites (d : Desc) (rows : List (List (List Byte))) : List (Nat × List Byte) :=
  let step := fun (x : List Nat × Nat × List (Nat × List Byte)) (row : List (List Byte)) =>
    let (tab, at_, ws) := x
    let bs := row.flatten
    (tab ++ [at_], at_ + bs.length / 16, ws ++ [(d.base + 16 * at_, bs)])
  let (tab, end_, ws) := rows.foldl step ([], 0, [])
  ws ++ [(d.aux, ((tab ++ [end_]).map fun t => leBytes 4 t).flatten)]

/-- The candidate tensor's cakes for an epoch. -/
def candWrites (e : DirE) (cands : Nat) (epoch : W32) (d : Desc) (masks : List (List (List Bool))) : List (Nat × List Byte) :=
  if d.base = 0 then []
  else maskedWrites d (masks.zipIdx.map fun (row, r) => row.zipIdx.map fun (m, j) =>
    let cs := candidates e.seed epoch cands r j m
    encodeCake d 0 0 false false false ((List.range d.g).map fun p => cs.contains p) (cs.map fun _ => 0))

/-! ### Commands (R164) -/

/-- What a command's reads give: a result code, or the slot's rows. -/
inductive RakeChk where
  | code (c : Nat)
  | go (blk : RakeBlk) (rows : List RowRd)

/-- The crosscut region holds an index (R164). -/
def xcFits (s : State) (e : DirE) (blk : RakeBlk) (slot : Bool) (n : Nat) : Bool :=
  let b := blk.xbase slot
  decide (n ≤ blk.xsize) && (nbit e.xcfg.toNat 2
    || decide (s.rak.regs.xcBase.toNat ≤ b ∧ b + n ≤ s.rak.regs.xcBase.toNat + s.rak.regs.xcSize.toNat))

/-- NOG of an entry; 0 below level 1.1 of the RAK page (R5, R176). -/
def nogOn (s : State) (e : DirE) : Bool := e.nog && atLevel s .rak 0x0101

/-- Validates the named slot (LOAD, FOLLOW): the lowest result code that applies. -/
def checkSlot (s : State) (m : Nat) (slot : Bool) : Io RakeChk := do
  let e := dirOf s m
  let blk ← ioRakeOf s m
  let w := blk.weight slot
  if e.rblk.toNat % 16 ≠ 0 || rakeBlkBad blk || w.base = 0 || e.xcfg.toNat % 4 = 3 then return .code rkBadCake
  else
    let used := (blk.side slot).filter fun d => d.base ≠ 0
    let all ← used.mapM ioRows
    let rows := all.headD []
    if all.any fun rs => rs.any fun r => !r.bads.isEmpty then return .code rkBadCake
    else if all.any fun rs => presenceOf rs ≠ presenceOf rows then return .code rkMaskDiff
    else if used.any (fun d => d.mepoch ≠ w.mepoch) || !newer w.mepoch e.mep then return .code rkBadEpoch
    else if nbit e.xcfg.toNat 3 && !xcFits s e blk slot (xcSize w rows) then return .code rkXcFull
    else
      let counts := (rows.map fun r => r.grps.map fun g => g.count).flatten
      if nogOn s e && counts.any (· ≠ counts.headD 0) then return .code rkNogCount
      else return .go blk rows

/-- A command completes with a result. -/
def rakeResult (s : State) (m code : Nat) : State :=
  let s := { s with rak := { s.rak with
    cmd := none, regs := { s.rak.regs with rres := BitVec.ofNat 4 code, rrmid := BitVec.ofNat 12 m } } }
  journalDir s m

/-- An error of the Rake's host accesses. -/
def rakeErr (s : State) : IoErr → State
  | .brine a => recordErr s .rak { cause := cBrine, addr := some a }
  | .remoteat a => recordErr s .rak { cause := cRemoteat, addr := some a }

/-- Index of the shard of a mask directory entry. -/
def shardOfMid (s : State) (m : Nat) : Option Nat :=
  (s.shard.find? fun (_, h) => h.srec.role ≠ 0 ∧ h.srec.masked = true ∧ h.srec.mid = m).map Prod.fst

/-- A commit record written by the Rake on the reserved credits (R177): the next epoch of the record found at CREC, or epoch 0
where none passes. A record that fails R277 ends the orders that wait there. -/
def rakeRecord (s : State) (m : Nat) (e : DirE) (mep : W32) (slot : Bool) (cause : Nat) (step : W32) (first : Bool) :
    Option Nat × State :=
  let (r, s) := rdHost s e.crec.toNat 64
  match r with
  | none => (some e.crec.toNat, recordErr s .rak { cause := cBrine, addr := some e.crec.toNat })
  | some bs =>
    let old := recWords bs
    let sh := shardOfMid s m
    let known := match sh with
      | some i => recOk old (some (i, shardOf s i))
      | none => recSumOk old
    if !known && !first then
      (some e.crec.toNat, badRecordAt s .rak e.crec.toNat e.crec.toNat 0 0xFF)
    else
      let epoch := if known then recEpoch old + 1 else 0
      let i := sh.getD (if recSumOk old then recShard old else 0)
      let ws := mkRec epoch mep slot s.glb.inst.toNat cause step i
      let (ok, s) := onReserve (fun s => wrHost s e.crec.toNat (recBytes ws)) s
      if !ok then (some e.crec.toNat, recordErr s .rak { cause := cBrine, addr := some e.crec.toNat })
      else
        let s := match sh with
          | some i => modShard s i fun h => { h with cep := epoch, slot := slot }
          | none => s
        (none, s)

/-- Elements of a masked shard counted anew (R275). -/
def countNel (s : State) (m : Nat) (rows : List RowRd) : State :=
  match shardOfMid s m with
  | some i => modShard s i fun h =>
      { h with nel := BitVec.ofNat 32 (rows.map fun r => (r.grps.map fun g => g.count).sum).sum }
  | none => s

/-- Crosscut index of a slot built and its XEP field written. -/
def buildXc (s : State) (m : Nat) (e : DirE) (blk : RakeBlk) (slot : Bool) (epoch : W32) (rows : List RowRd) :
    Option Nat × State :=
  if nbit e.xcfg.toNat 3 then
    let (err, s) := putIndex s (nbit e.xcfg.toNat 2) (blk.xbase slot) (xcBytes (blk.weight slot) rows)
    match err with
    | some a => (some a, recordErr s .rak { cause := cBrine, addr := some a })
    | none => (none, modDir s m fun e => if slot then { e with xepB := epoch } else { e with xepA := epoch })
  else (none, s)

/-- LOAD and FOLLOW. -/
def rakeLoad (s : State) (c : RakeCmd) : State :=
  let m := c.mid
  let e := dirOf s m
  let load := c.op == .load
  let roleOk := e.role = 0 || (if load then e.role == 1 && c.slot != e.slot else e.role == 2)
  if e.busy then rakeResult s m rkBusy
  else if !roleOk then rakeResult s m rkBadRole
  else if nbit e.xcfg.toNat 3 && (if c.slot then e.rdrB else e.rdrA) ≠ 0#8 then s
  else match (checkSlot s m c.slot).run s with
  | (.error x, s) => rakeResult (rakeErr s x) m rkBadCake
  | (.ok (.code c), s) => rakeResult s m c
  | (.ok (.go blk rows), s) =>
    let mep := (blk.weight c.slot).mepoch
    let (err, s) := buildXc s m e blk c.slot mep rows
    if err.isSome then rakeResult s m rkBadCake
    else
      let (err, s) := if load then
          issueWrites s (candWrites e e.cands.toNat mep blk.cand (presenceOf rows))
        else (none, s)
      if err.isSome then rakeResult (rakeErr s (.brine (err.getD 0))) m rkBadCake
      else
        let (err, s) := if load then rakeRecord s m e mep c.slot 5 0 (e.role == 0) else (none, s)
        if err.isSome then rakeResult s m rkBadCake
        else
          let s := modDir s m fun e =>
            { e with mep := mep, slot := c.slot, role := if load then 1 else 2, lost := false, busy := true
                     cstep := 0, cgTiles := 0 }
          let s := countNel s m rows
          let s := { s with rak := { s.rak with
            retire := s.rak.retire ++ [{ mid := m, step := 0, xch := 0, cands := 0, ktarget := 0, kstep := 0, at_ := 0 }] } }
          rakeResult s m rkDone

/-- DROP: waits until both reader counts are 0. -/
def rakeDrop (s : State) (m : Nat) : State :=
  let e := dirOf s m
  if e.busy then rakeResult s m rkBusy
  else if e.role = 0 then rakeResult s m rkBadRole
  else if e.rdrA ≠ 0#8 ∨ e.rdrB ≠ 0#8 then s
  else rakeResult (modDir s m fun e => { e with role := 0 }) m rkDone

/-- Whether the Rake may work. -/
def rakeGoes (s : State) : Bool :=
  goesOn s .rak && !s.flt.frake && !halted s 0x50 && s.pwr.pstate == .active

/-- RAKE_COMMAND_DONE (R164): the pending command runs to its result. -/
def execRakeCommandDone (bad : List Nat) (s : State) : Host.Outcome State Fault Refusal :=
  .next (match s.rak.cmd with
    | none => s
    | some c =>
      if !rakeGoes s then s
      else commandAs .rak bad (useStep s 0x50) fun s => match c.op with
        | .drop => rakeDrop s c.mid
        | _ => rakeLoad s c)

/-- A command written to the Rake (R164, R377, R483). -/
def rakeCommand (s : State) (op : RakeOp) (slot : Bool) (mid : BitVec 12) : State :=
  if s.flt.frake || (hdr s .rak).mode == .isolated then dropReject s .rak 0x40 .state
  else if s.rak.cmd.isSome then dropReject s .rak 0x40 .state
  else { s with rak := { s.rak with
    cmd := some { op := op, slot := slot, mid := mid.toNat, held := pageState s .rak == .stopped } } }

/-- RAKE_LOAD. -/
def execRakeLoad (slot : Bool) (mid : BitVec 12) (s : State) : Host.Outcome State Fault Refusal :=
  cpWrite s .rak (rakeCommand · .load slot mid)
/-- FOLLOW. -/
def execFollow (slot : Bool) (mid : BitVec 12) (s : State) : Host.Outcome State Fault Refusal :=
  cpWrite s .rak (rakeCommand · .follow slot mid)
/-- DROP. -/
def execDrop (slot : Bool) (mid : BitVec 12) (s : State) : Host.Outcome State Fault Refusal :=
  cpWrite s .rak (rakeCommand · .drop slot mid)

/-! ### Queueing events (R168, R377) -/

/-- One OWNER entry whose shard took part in a committed step: the event that falls is queued, or skipped. -/
def rakeFall (s : State) (step : W32) (m : Nat) : State :=
  let e := dirOf s m
  if e.role ≠ 1 ∨ e.cadence = 0 ∨ e.cstep.toNat % e.cadence.toNat ≠ e.phase.toNat then s
  else if s.flt.frake || (hdr s .rak).mode == .isolated || e.cgTiles ≠ e.cgTotal || e.busy then
    modDir s m fun e => { e with misscnt := satAdd e.misscnt 1, cgTiles := 0 }
  else
    let s := modDir s m fun e => { e with busy := true }
    let s := { s with rak := { s.rak with evq := s.rak.evq ++
      [{ mid := m, step := step, xch := e.xch.toNat, cands := e.cands.toNat
         ktarget := e.ktarget.toNat, kstep := if nogOn s e then 0 else e.kstep.toNat }] } }
    journalDir s m

/-- The events of a committed step, in ascending MID. -/
def queueRake (s : State) (step : W32) (mids : List Nat) : State := (sortNat mids.eraseDups).foldl (fun s m => rakeFall s step m) s

/-! ### Exchange (R171, R172) -/

/-- Whether magnitude a lies below b; NaN and infinities lie above every number. -/
def magLt (a b : XVal) : Bool :=
  match a, b with
  | .fin p, .fin q => qlt (qabs p) (qabs q)
  | .fin _, _ => true
  | _, _ => false

/-- The new positions of a group: stored set S with weights, candidates with gradients. -/
def exchange (xch ktarget kstep : Nat) (ws gs : List (Nat × XVal)) : List Nat × Nat :=
  let cz := gs.filter fun g => !g.2.isZero
  let k := ws.length
  let x := min xch (min k cz.length)
  let d := if ktarget < k then min kstep (min (k - ktarget) (k - x)) else 0
  let drop := ((sortBy (fun a b : Nat × XVal =>
    magLt a.2 b.2 || (!magLt b.2 a.2 && decide (b.1 < a.1))) ws).take (x + d)).map Prod.fst
  let add := ((sortBy (fun a b : Nat × XVal =>
    magLt b.2 a.2 || (!magLt a.2 b.2 && decide (a.1 < b.1))) cz).take x).map Prod.fst
  (((ws.map Prod.fst).filter fun p => !drop.contains p) ++ add, d)

/-- Positions of a group with their values. -/
def groupVals (g : Grp) : List (Nat × XVal) :=
  g.els.zipIdx.filterMap fun (e, p) => e.map fun x => (p, x.exact)

/-- A group of slot X rewritten under a new mask (R172). -/
def rakeCake (d : Desc) (g : Grp) (mask : List Bool) : List Byte :=
  let codes := (List.range mask.length).filterMap fun p =>
    if mask.getD p false then
      some (if (g.els.getD p none).isSome then g.codes.getD (g.place p) 0 else 0)
    else none
  encodeCake d g.fs g.zp g.var false false mask codes

/-! ### Events (R173) -/

/-- What steps 2 to 4 read and write. -/
structure RakePlan where
  writes : List (Nat × List Byte) := []
  masks  : List (List (List Bool)) := []
  bad    : Option CakeBad := none

/-- The rows of a tensor at the places that its row table gives them. -/
def rowsAtTable (d : Desc) (tab : List Byte) (rows : List (List (List Byte))) : List (Nat × List Byte) :=
  rows.zipIdx.map fun (row, r) => (d.base + 16 * leAt tab (4 * r) 4, row.flatten)

/-- Reads slot X and the candidate gradients, and forms slot Y and the new candidates. Slot Y keeps its row tables where no group
shrinks (R172). -/
def rakePlan (nog : Bool) (e : DirE) (v : RakeEv) (blk : RakeBlk) : Io RakePlan := do
  let x := blk.side e.slot
  let y := blk.side (!e.slot)
  let epoch := e.mep + 1
  let rows ← x.mapM fun d => if d.base = 0 then pure [] else ioRows d
  let cg ← if blk.cand.base = 0 then pure [] else ioRows blk.cand
  let bads := ((rows ++ [cg]).map fun rs => (rs.map fun r => r.bads).flatten).flatten
  match bads with
  | c :: _ => return { bad := some c }
  | [] =>
    let w := rows.headD []
    let kt := if nog then ((w.headD {}).grps.headD {}).count else v.ktarget
    let new := w.zipIdx.map fun (r, i) => r.grps.zipIdx.map fun (g, j) =>
      let (ps, d) := exchange v.xch kt v.kstep (groupVals g) (groupVals (((cg.getD i {}).grps).getD j {}))
      ((List.range g.els.length).map fun p => ps.contains p, d)
    let masks := new.map fun r => r.map Prod.fst
    let shrink := new.any fun r => r.any fun g => decide (0 < g.2)
    let outs ← ((x.zip y).zip rows).mapM fun ((_, dy), rs) => do
      if dy.base = 0 then return []
      else
        let cakes := rs.zipIdx.map fun (r, i) => r.grps.zipIdx.map fun (g, j) => rakeCake dy g ((masks.getD i []).getD j [])
        let ws ← if shrink then pure (maskedWrites dy cakes)
          else do pure (rowsAtTable dy (← ioRead dy.aux (4 * dy.rows)) cakes)
        return ws ++ [(dy.addr + 48, leBytes 4 epoch.toNat)]
    return { writes := outs.flatten ++ candWrites e v.cands epoch blk.cand masks, masks := masks }

/-- The descriptors of an entry's rake block and what steps 2 to 4 make of them. -/
def ioEvent (s : State) (v : RakeEv) : Io (RakeBlk × RakePlan) := do
  let blk ← ioRakeOf s v.mid
  return (blk, ← rakePlan (nogOn s (dirOf s v.mid)) (dirOf s v.mid) v blk)

/-- Steps 2 to 5 of the first queued event. An error leaves it to rerun from step 2 (R175). -/
def rakeEvent (s : State) (v : RakeEv) : State :=
  let m := v.mid
  let e := dirOf s m
  let y := !e.slot
  if (if y then e.rdrB else e.rdrA) ≠ 0#8 then s
  else
    match (ioEvent s v).run s with
    | (.error x, s) => rakeErr s x
    | (.ok (blk, p), s) =>
      match p.bad with
      | some c => recordErr s .rak { cause := cBadcake, addr := some c.addr, row := c.row, group := c.group }
      | none =>
        let (err, s) := issueWrites s p.writes
        match err with
        | some a => rakeErr s (.brine a)
        | none =>
          let epoch := e.mep + 1
          match (ioRows (blk.weight y)).run s with
          | (.error x, s) => rakeErr s x
          | (.ok rows, s) =>
            let (err, s) := buildXc s m e blk y epoch rows
            if err.isSome then s
            else
              let (err, s) := rakeRecord s m e epoch y 2 v.step false
              if err.isSome then s
              else
                let s := modDir s m fun e => { e with mep := epoch, slot := y, cgTiles := 0 }
                let s := countNel s m rows
                let s := { s with rak := { s.rak with evq := s.rak.evq.drop 1, retire := s.rak.retire ++ [{ v with at_ := 5 }] } }
                journalDir s m

/-- RAKE_EVENT (R173). -/
def execRakeEvent (bad : List Nat) (s : State) : Host.Outcome State Fault Refusal :=
  .next (match s.rak.evq with
    | [] => s
    | v :: _ => if rakeGoes s && !noStarts s && s.twn.regs.jstate != .fenced then commandAs .rak bad (useStep s 0x50) (rakeEvent · v) else s)

/-- Whether the inactive slot of an entry may be retired. -/
def retireReady (s : State) (v : RakeEv) : Bool :=
  let e := dirOf s v.mid
  (if e.slot then e.rdrA else e.rdrB) == 0#8

/-- What step 6 writes: row tables and mask epochs of the inactive slot's descriptors. -/
def ioRetire (s : State) (m : Nat) : Io (List (Nat × List Byte)) := do
  let e := dirOf s m
  let blk ← ioRakeOf s m
  let ws ← ((blk.side e.slot).zip (blk.side (!e.slot))).mapM fun (d, x) => do
    if d.base = 0 || x.base = 0 then return []
    else return [(x.aux, ← ioRead d.aux (4 * (d.rows + 1))), (x.addr + 48, leBytes 4 e.mep.toNat)]
  return ws.flatten

/-- Steps 6 and 7: the inactive slot takes the active slot's row tables and mask epoch, and BUSY is cleared. -/
def rakeRetire (s : State) (v : RakeEv) : State :=
  let m := v.mid
  match (ioRetire s m).run s with
  | (.error x, s) => rakeErr s x
  | (.ok ws, s) =>
    let (err, s) := issueWrites s ws
    match err with
    | some a => rakeErr s (.brine a)
    | none =>
      let s := modDir s m fun e => { e with busy := false }
      let s := { s with rak := { s.rak with
        retire := s.rak.retire.filter fun y => y.mid ≠ m
        regs := { s.rak.regs with events := if v.at_ = 5 then s.rak.regs.events + 1 else s.rak.regs.events } } }
      journalDir s m

/-- RAKE_RETIRE (R173). -/
def execRakeRetire (bad : List Nat) (s : State) : Host.Outcome State Fault Refusal :=
  .next (match s.rak.retire.find? (retireReady s) with
    | none => s
    | some v =>
      if (!s.flt.frake || s.rak.failed) && !halted s 0x50 && s.pwr.pstate = .active && (hdr s .rak).mode ≠ .isolated then
        commandAs .rak bad s (rakeRetire · v)
      else s)

end Sys2Proof.Machine
end

