-- ==== Sys2Proof/Machine/Verdict.lean ====
section
/-! DEFINITION. The step verdict, the commit flips and the salinometer (spec/11_step_verdict_and_watch.md R301 to R319;
spec/10 R287, R288; spec/06 R168; spec/12 R346, R348). -/

namespace Sys2Proof.Machine

/-! ### Verdict messages (R305) -/

/-- TSPEC of a VUP or VDN. -/
def VMsg.ts (m : VMsg) : List Byte :=
  leBytes 4 m.step.toNat ++ leBytes 1 (b2n m.nonfinite + 2 * b2n m.absurd + 4 * b2n m.fault + 8 * b2n m.missing)
    ++ leBytes 1 m.count ++ leBytes 1 m.onf ++ leBytes 1 m.oab ++ leBytes 1 m.oft ++ leBytes 1 (b2n m.commit)

/-- The message a VUP or VDN frame carries. -/
def VMsg.ofFrame (f : Frame) : VMsg :=
  let b := tsAt f 24 1
  { step := BitVec.ofNat 32 (tsAt f 20 4), nonfinite := nbit b 0, absurd := nbit b 1, fault := nbit b 2, missing := nbit b 3
    count := tsAt f 25 1, onf := tsAt f 26 1, oab := tsAt f 27 1, oft := tsAt f 28 1, commit := nbit (tsAt f 29 1) 0 }

/-- Inputs combined: flags by OR, counts by sum, origins by minimum (R306). -/
def VMsg.merge (a b : VMsg) : VMsg :=
  { a with nonfinite := a.nonfinite || b.nonfinite, absurd := a.absurd || b.absurd, fault := a.fault || b.fault
           missing := a.missing || b.missing, count := a.count + b.count, onf := min a.onf b.onf, oab := min a.oab b.oab
           oft := min a.oft b.oft }

def VMsg.flagBits (m : VMsg) : Nat := b2n m.nonfinite + 2 * b2n m.absurd + 4 * b2n m.fault

/-! ### Own flags (R302, R303) -/

/-- The completion records with JSTEP equal to a step. -/
def stepRecs (s : State) (step : W32) : List JobRec := s.vrd.recs.filter fun r => r.step == step

/-- NJOBS jobs of the open step have sent their records and no job is READY or RUN. -/
def flagsReady (s : State) : Bool :=
  let v := s.vrd.regs
  v.closed && !v.sent && decide (v.njobs.toNat ≤ (stepRecs s v.vstep).length) && !s.shard.any fun x => x.2.ready || x.2.run

/-- The flags gathered so far: NONFINITE, ABSURD, FAULT. -/
def ownFlags (s : State) (evals : List EvalSum) : Bool × Bool × Bool :=
  let v := s.vrd
  let rs := stepRecs s v.regs.vstep
  (rs.any (·.nonfinite) || (v.regs.pnfEn && v.pendNf), evals.any (·.ratio),
    rs.any (·.fault) || s.shard.any (fun x => x.2.badrec) || !v.activated || v.lockFt || v.pendFt
      || s.twn.regs.jstate == .fenced || (s.sec.dbglvl == 2 && s.sec.lcs != 2 && !s.sec.dbgnoflt))

/-! ### Evaluation (R316, R317) -/

/-- DW2s > RLIM² × W2s with W2s > 0 and both finite. -/
def ratioFails (rlim : W32) (dw2 w2 : W64) : Bool :=
  match unpack sp64 dw2.toNat, unpack sp64 w2.toNat with
  | .num _ d, .num _ w => !qisZero w && !qneg? w && qlt (qmul (qmul (fp32Q rlim) (fp32Q rlim)) w) d
  | _, _ => false

/-- The sums of one layer slot. -/
def evalSlot (s : State) (recs : List JobRec) (slot : Nat) : EvalSum :=
  let x := salOf s slot
  let js := sortBy (fun a b : JobRec => decide (a.shard < b.shard)) (recs.filter fun r => r.lslot = slot)
  let dw2 := js.foldl (fun a r => add64 a r.dw2.toNat) 0
  let w2 := js.foldl (fun a r => add64 a r.w2.toNat) 0
  let cap := fun (f : JobRec → Nat) => js.foldl (fun a r => min (a + f r) 0xFFFFFFFF) 0
  let pos := match unpack sp64 w2 with
    | .num n q => !n && !qisZero q
    | .inf n => !n
    | .nan _ => false
  { slot := slot, dw2 := BitVec.ofNat 64 dw2, w2 := BitVec.ofNat 64 w2, absn := cap (·.absorb), carn := cap (·.carry)
    silent := !x.gnz && pos, gnz := x.gnz && pos
    ratio := bit x.sctl 1 && ratioFails x.rlim (BitVec.ofNat 64 dw2) (BitVec.ofNat 64 w2)
    sctl := x.sctl, slim := x.slim, ablim := x.ablim }

/-- An alarm bit of a slot set (R319): 0 SILENT, 1 RATIO, 2 ABSORB. -/
def alarm (s : State) (slot kind : Nat) (step : W32) : State :=
  if bit (salOf s slot).alm kind then s
  else
    let s := modSal s slot fun x => { x with alm := setBit x.alm kind true }
    let s := modSalR s fun r =>
      let r := { r with almcnt := satAdd r.almcnt 1 }
      if r.acapV then r
      else { r with acapV := true, acapKind := BitVec.ofNat 2 kind, acapSlot := BitVec.ofNat 12 slot, acapStep := step }
    raiseInt s srcSalAlm

/-- The layer slots of the step evaluated, in ascending slot. -/
def evaluate (s : State) : State :=
  let rs := stepRecs s s.vrd.regs.vstep
  let slots := sortNat (rs.map (·.lslot)).eraseDups
  let es := slots.map (evalSlot s rs)
  let s := modSalR s fun r => { r with evals := r.evals + BitVec.ofNat 32 es.length }
  let s := es.foldl (fun s e => if e.ratio then alarm s e.slot 1 s.vrd.regs.vstep else s) s
  modVrd s fun v => { v with evals := es }

/-- An evaluated slot under a verdict (R318, R319). -/
def settleSlot (commit : Bool) (step : W32) (s : State) (e : EvalSum) : State :=
  let s := modSal s e.slot fun x => { x with gnz := false }
  if !commit then s
  else
    let s := modSal s e.slot fun x =>
      { x with dw2 := e.dw2, w2 := e.w2, absn := BitVec.ofNat 32 e.absn, carn := BitVec.ofNat 32 e.carn, lstep := step
               silent := if e.silent then satAdd x.silent 1 else if e.gnz then 0 else x.silent }
    let x := salOf s e.slot
    let s := if e.silent && bit e.sctl 0 && e.slim ≠ 0 && x.silent = e.slim then alarm s e.slot 0 step else s
    if bit e.sctl 2 && e.ablim ≠ 0 && decide (e.ablim.toNat ≤ e.absn) then alarm s e.slot 2 step else s

/-! ### Commit records (R287, R288) -/

/-- Record writes issued while reserved credits last, in ascending shard index. A FENCED instance writes no record
(R351). -/
def issueFlips (s : State) : State :=
  if s.twn.regs.jstate = .fenced then s else
  s.shard.foldl (fun s (i, h) =>
    match h.flip with
    | some ws =>
      if s.txns.any (fun t => t.why == .flip i) || !creditOk s flipQuad none then s
      else issueTxn s flipQuad none .wr (hostAddr s h.srec.crec) (recBytes ws) (.flip i)
    | none => s) s

/-- The record that a COMMIT writes for a PEND shard. -/
def flipRecord (s : State) (i : Nat) (h : Shard) : List W32 :=
  mkRec (h.cep + 1) (if h.srec.masked then (dirOf s h.srec.mid).mep else 0) (!h.slot) h.srec.owner 1 h.jstep i

/-- A PEND shard released: its pond pages are free and its micro-steps start anew (R288, R299). -/
def releaseShard (s : State) (i : Nat) : State :=
  let s := modShard s i fun h => { h with pend := false, msf := 0, gcnt := 0, flip := none, staged := false, pgWait := none }
  landHeld (pondFreeShard s i)

/-- Step 6 of R287, once every flip of a COMMIT is answered. -/
def flipsEnd (s : State) : State :=
  match s.vrd.flipping with
  | none => s
  | some step =>
    if s.shard.any fun x => x.2.flip.isSome then s
    else
      let due := s.vrd.due
      queueRake (modVrd s fun v => { v with flipping := none, due := [] }) step due

/-- The response to a shard's record write (step 5 of R287). -/
def flipDone (s : State) (i : Nat) (err : Bool) (detail : Nat := 0) : State :=
  match s.txns.find? (fun t => t.why == .flip i), (shardOf s i).flip with
  | some t, some ws =>
    let s := { s with txns := s.txns.filter fun x => !(x.why == .flip i) }
    let s := if err then
        recordErr (spoilHost s t.addr t.data.length) .vrd { cause := cBrine, addr := some t.addr, row := i, detail := detail }
      else
        let h := shardOf s i
        let s := putHost s t.addr t.data
        let s := modShard s i fun h => { h with cep := recEpoch ws, slot := recSlot ws }
        let s := if h.srec.masked then modDir s h.srec.mid fun e => { e with slot := recSlot ws } else s
        journal s jFlip (recStep ws) i ((ws.take 5).flatMap fun (w : W32) => leBytes 4 w.toNat)
    flipsEnd (issueFlips (releaseShard s i))
  | _, _ => s

/-- COMMIT_FLIP_DONE (R287). -/
def execCommitFlipDone (shard : Fin 8192) (err : Bool) (s : State) : Host.Outcome State Fault Refusal :=
  .next (command [] s (flipDone · shard.1 err))

/-! ### Applying a verdict (R287, R301, R307, R312, R313, R318) -/

/-- Entries of the tide table whose period counts verdict steps (R405). -/
def tideStep (s : State) : State :=
  modTide s fun t => { t with ent := t.ent.map fun e =>
    if e.ten && e.tkind && !e.susp then { e with next := BitVec.ofNat 32 (e.next.toNat - 1), now := e.now + 1 } else e }

/-- The verdict log takes a verdict; LWAIT counts from the flags' sending. -/
def logVerdict (s : State) (m : VMsg) : State :=
  let v := s.vrd.regs
  let wait := if v.sent then s.pwr.tick.toNat - s.vrd.sentAt else 0
  let n : BitVec 4 := v.loghead + 1
  let e : VLog :=
    { step := m.step, valid := true, commit := m.commit, flags := BitVec.ofNat 3 m.flagBits, missing := m.missing
      onf := BitVec.ofNat 7 m.onf, oab := BitVec.ofNat 7 m.oab, oft := BitVec.ofNat 7 m.oft, lwait := BitVec.ofNat 32 wait }
  let s := modVrdR s fun v =>
    { v with loghead := n, log := vset v.log ⟨n.toNat, n.isLt⟩ e
             vlate := if v.sent && decide (25 < wait) then satAdd v.vlate 1 else v.vlate }
  trace s 3 .vrd (leBytes 4 m.step.toNat ++ leBytes 1 (b2n m.commit + 2 * m.flagBits + 16 * b2n m.missing)
    ++ leBytes 1 m.onf ++ leBytes 1 m.oab ++ leBytes 1 m.oft ++ leBytes 4 wait)

/-- The consecutive SKIP count and its interrupt (R312). -/
def countSkip (s : State) (commit : Bool) : State :=
  if commit then modVrd s fun v => { v with skipInt := false, regs := { v.regs with skiprun := 0 } }
  else
    let s := modVrdR s fun v => { v with skiprun := satAdd v.skiprun 1 }
    let v := s.vrd.regs
    if v.skiplim ≠ 0 && decide (v.skiplim.toNat ≤ v.skiprun.toNat) && !s.vrd.skipInt then
      raiseInt (modVrd s fun v => { v with skipInt := true }) srcSkipRun
    else s

/-- The shards whose jobs wait for the verdict of a step: a job that became READY after the flags of step n waits for that of
n + 1 (R287, R302). -/
def pendShards (s : State) (step : W32) : List Nat :=
  (s.shard.filter fun x => x.2.pend && x.2.flip.isNone && x.2.jstep == step).map Prod.fst

def isMaster (s : State) : Bool := s.vrd.regs.vparent == 0xFF#8

/-- A master that has lost its deputy, or has just become master, takes NEXTDEP for the step that opens (R346). -/
def nextDeputy (s : State) : State :=
  if isMaster s && s.vrd.takeDep then
    modVrd s fun v => { v with takeDep := false, regs := { v.regs with vdep := s.twn.regs.nextdep } }
  else s

/-- The verdict of the open step applied: steps 3 to 6 of R287. -/
def applyVerdict (s : State) (m : VMsg) : State :=
  let s := journal s jVerdict m.step 0 (leBytes 1 (b2n m.commit) ++ leBytes 1 m.flagBits ++ leBytes 1 (b2n m.missing)
    ++ leBytes 1 m.onf ++ leBytes 1 m.oab ++ leBytes 1 m.oft)
  let s := countSkip (logVerdict s m) m.commit
  let s := s.vrd.evals.foldl (settleSlot m.commit m.step) s
  let ps := pendShards s m.step
  let mids := (ps.map (shardOf s)).filterMap fun h => if h.srec.masked then some h.srec.mid else none
  let s := if m.commit then
      let s := mids.eraseDups.foldl (fun s i => modDir s i fun e => if e.role = 1 then { e with cstep := e.cstep + 1 } else e) s
      let s := ps.foldl (fun s i => modShard s i fun h => { h with flip := some (flipRecord s i h) }) s
      modVrd { s with shard := smMap {} (fun _ h => { h with fetchWait := false }) s.shard } fun v =>
        { v with flipping := some m.step, due := mids }
    else ps.foldl releaseShard s
  let s := modVrd s fun v =>
    let recs := v.recs.filter fun r => newer r.step m.step
    { v with recs := recs, vups := v.next, next := [], own := none, evals := [], formed := none, upSent := false, vslow := false
             lockFt := false
             regs := { v.regs with vstep := m.step + 1, closed := false, njobs := 0, sent := false, oflags := 0
                                   vjobs := BitVec.ofNat 14 (recs.filter fun r => r.step == m.step + 1).length } }
  flipsEnd (issueFlips (tideStep (nextDeputy s)))

/-! ### The tree (R306, R307, R310, R346) -/

def children (s : State) : List Nat := (List.range 64).filter fun i => bit s.vrd.regs.vchild i

/-- Whether a number has been adopted by a member (R352). -/
def isAdopted (s : State) (n : Nat) : Bool := s.twn.adoptedBy.any fun x => x.1 = n

/-- Whether a number is adopted: by another member, or by this instance from its takeover on (R352). -/
def takenOver (s : State) (n : Nat) : Bool := isAdopted s n || s.twn.tkNum == some n

/-- A child's message for the open step. A lost child counts as one with MISSING and no members (R310). An adopted number
has no members of its own: its twin counts it in its VUPs from step 7 of R352 on, and until then the count falls short (DESIGN
CHOICE, log entry 129). -/
def upOf (s : State) (c : Nat) : Option VMsg :=
  match (s.vrd.vups.find? fun x => x.1 = c).map Prod.snd with
  | some m => some m
  | none =>
    if bit s.twn.lost c then some { step := s.vrd.regs.vstep, missing := true }
    else if takenOver s c then some { step := s.vrd.regs.vstep }
    else none

/-- Own flags and every child's message combined, when all are there. -/
def combined (s : State) : Option VMsg :=
  let ups := (children s).map (upOf s)
  match s.vrd.own with
  | some o => if ups.all Option.isSome then some ((ups.filterMap id).foldl VMsg.merge o) else none
  | none => none

/-- The link of a verdict frame to a member: VPLINK to the parent while it is up, else the member's route (R343). -/
def verdictLink (s : State) (peer : Nat) : Option (Fin 8) :=
  let k := s.vrd.regs.vplink
  if s.vrd.regs.vparent.toNat = peer && linkUp s k && !heldByRoute s peer k then some k else none

/-- A verdict frame to a member; the twin of an adopted number has its verdicts in its own place. -/
def sendVerdict (s : State) (peer ftype : Nat) (m : VMsg) : State :=
  if bit s.twn.lost peer || takenOver s peer then s else sendVia s (verdictLink s peer) false peer 0 ftype m.ts []

/-- The master's deputy, when it is one of its children and not lost. -/
def deputyOf (s : State) : Option Nat :=
  let d := s.vrd.regs.vdep.toNat
  if (children s).contains d && !bit s.twn.lost d && !takenOver s d then some d else none

/-- VDN to every child but the deputy, then the verdict is applied (R307). -/
def distribute (s : State) (m : VMsg) : State :=
  let s := (children s).foldl (fun s c => if deputyOf s = some c then s else sendVerdict s c 9 m) s
  applyVerdict s m

/-- The master holds a verdict: the deputy gets it first. -/
def deliver (s : State) (m : VMsg) : State :=
  let s := modVrd s fun v => { v with formed := some m }
  match deputyOf s with
  | some d => sendVerdict s d 9 m
  | none => distribute s m

/-- The inputs of the open step combined: a member reports to its parent, the master forms the verdict. -/
def tryVerdict (s : State) : State :=
  match combined s with
  | none => s
  | some m =>
    if isMaster s then
      if s.vrd.formed.isSome then s
      else
        let clean := m.flagBits = 0 && !m.missing && decide (m.count = s.vrd.regs.vsize.toNat)
        deliver s { m with commit := clean }
    else if s.vrd.upSent then s
    else sendVerdict (modVrd s fun v => { v with upSent := true }) s.vrd.regs.vparent.toNat 8 m

/-- The instance's own flags formed and sent (R302, R316). -/
def sendFlags (s : State) : State :=
  let s := if corruptArmed s .vrd cLockstep then
      modVrd (recordErr s .vrd { cause := cLockstep, inj := true }) fun v => { v with lockFt := true }
    else s
  let s := evaluate s
  let (nf, ab, ft) := ownFlags s s.vrd.evals
  let me := s.glb.inst.toNat
  let o := fun (b : Bool) => if b then me else 0x7F
  let m : VMsg :=
    { step := s.vrd.regs.vstep, nonfinite := nf, absurd := ab, fault := ft, onf := o nf, oab := o ab, oft := o ft
      count := if s.twn.regs.adopted = 0xFF then 1 else 2 }
  let s := modVrd s fun v =>
    { v with own := some m, pendNf := false, pendFt := false, sentAt := s.pwr.tick.toNat
             regs := { v.regs with sent := true, oflags := BitVec.ofNat 3 m.flagBits } }
  tryVerdict s

/-- FLAGS_SEND (R302). -/
def execFlagsSend (s : State) : Host.Outcome State Fault Refusal :=
  .next (if flagsReady s && goesOn s .vrd && (s.pwr.pstate = .active || s.pwr.pstate = .doze) then command [] s sendFlags else s)

/-- A write of VCLOSE: a second one for the same open step is dropped with REJECT. -/
def vclose (s : State) (njobs : BitVec 14) : State :=
  if s.vrd.regs.closed then dropReject s .vrd 0x44 .state
  else modVrdR s fun v => { v with closed := true, njobs := njobs }

/-- VCLOSE (R302). -/
def execVclose (njobs : BitVec 14) (s : State) : Host.Outcome State Fault Refusal := cpWrite s .vrd (vclose · njobs)

/-- SKIPNOW (R311). -/
def skipNow (s : State) : State :=
  if !isMaster s || s.vrd.formed.isSome then dropOk s .vrd 0x48 .state
  else
    let ups := (children s).filterMap (upOf s)
    let m := ups.foldl VMsg.merge (s.vrd.own.getD { step := s.vrd.regs.vstep })
    deliver s { m with commit := false }

def execSkipnow (s : State) : Host.Outcome State Fault Refusal :=
  cpWrite s .vrd fun s => command [] s skipNow

/-- VSLOW (R312): no verdict within VWAIT of the flags. -/
def execVslow (s : State) : Host.Outcome State Fault Refusal :=
  .next (if s.vrd.regs.sent && !s.vrd.vslow then raiseInt (modVrd s fun v => { v with vslow := true }) srcVslow else s)

/-! ### Verdict frames (R307, R309) -/

def vseqerr (s : State) : State := modVrdR s fun v => { v with vseqerr := satAdd v.vseqerr 1 }

/-- The log entry of a step, the newest first: ACTIVATE restarts the steps at 0 (R301). -/
def logOf_ (s : State) (step : W32) : Option VLog :=
  (List.range 16).findSome? fun i =>
    let n : BitVec 4 := s.vrd.regs.loghead - BitVec.ofNat 4 i
    let e := vget s.vrd.regs.log ⟨n.toNat, n.isLt⟩
    if e.valid && e.step == step then some e else none

/-- The VDN a log entry answers with. -/
def VLog.msg (e : VLog) : VMsg :=
  { step := e.step, nonfinite := bit e.flags 0, absurd := bit e.flags 1, fault := bit e.flags 2, missing := e.missing
    onf := e.onf.toNat, oab := e.oab.toNat, oft := e.oft.toNat, commit := e.commit }

/-- A VUP from a member. -/
def takeVup (s : State) (peer : Nat) (m : VMsg) : State :=
  let v := s.vrd
  let holds := fun (l : List (Nat × VMsg)) => l.any fun x => x.1 = peer
  if m.step = v.regs.vstep then
    if holds v.vups || bit s.twn.lost peer || takenOver s peer || !bit v.regs.vchild peer then vseqerr s
    else tryVerdict (modVrd s fun v => { v with vups := v.vups ++ [(peer, m)] })
  else if m.step = v.regs.vstep + 1 then
    if holds v.next || !bit v.regs.vchild peer then vseqerr s else modVrd s fun v => { v with next := v.next ++ [(peer, m)] }
  else match logOf_ s m.step with
    | some e => sendVerdict s peer 9 e.msg
    | none => vseqerr s

/-- A member that would act as master next: VSIZE has been written into it, and VALTP, in which the master's other
children name the deputy, names no member in service (R346; DEDUCED, log entry 28). -/
def isDeputy (s : State) : Bool :=
  !isMaster s && decide (1 < s.vrd.regs.vsize.toNat) && (s.twn.regs.valtp == 0xFF#8 || bit s.twn.lost s.twn.regs.valtp.toNat || takenOver s s.twn.regs.valtp.toNat)

/-- A VDN from a member. -/
def takeVdn (s : State) (peer : Nat) (m : VMsg) : State :=
  if m.step ≠ s.vrd.regs.vstep ∨ peer ≠ s.vrd.regs.vparent.toNat then vseqerr s
  else
    let s := if isDeputy s then
        let s := modVrdR s fun v => { v with deputy := true }
        sendVia s (verdictLink s peer) false peer 0 0x0A (leBytes 4 m.step.toNat) []
      else s
    let s := (children s).foldl (fun s c => sendVerdict s c 9 m) s
    applyVerdict s m

/-- A VACK from a member. -/
def takeVack (s : State) (peer : Nat) (step : W32) : State :=
  match s.vrd.formed with
  | some m => if m.step = step && deputyOf s = some peer then distribute s m else vseqerr s
  | none => vseqerr s

/-- A master takes NEXTDEP as its deputy: at once while it awaits a VACK (R346). -/
def takeNextdep (s : State) : State :=
  let s := modVrdR s fun v => { v with vdep := s.twn.regs.nextdep }
  match s.vrd.formed with
  | some m => deliver s m
  | none => s

end Sys2Proof.Machine
end

