-- ==== Sys2Proof/Machine/Job.lean ====
section
/-! DEFINITION. Update jobs, page-ins, follower fetches and customer kernels (spec/10_optimiser_state.md R279 to R289, R298;
spec/09_harvest_programs.md R250, R253, R257, R267; spec/12 R350; spec/18 R480 to R482). -/

namespace Sys2Proof.Machine

/-! ### Starting a job (R286) -/

/-- The lowest-numbered idle live engine. -/
def idleEngine (s : State) : Option (Fin 8) :=
  (List.finRange 8).find? fun n =>
    (eng s n).job.isNone && admits s (.hrv n) && !bit s.flt.fhrv n.1 && !bit s.tst.regs.bypHrv n.1
      && !halted s (0x40 + n.1)

/-- The READY shard whose job starts next: the one that became READY first. -/
def firstReady (s : State) : Option Nat :=
  (s.shard.foldl (fun (m : Option (Nat × Nat)) (i, h) =>
    if !h.ready then m
    else match m with
      | some (j, no) => if h.readyNo < no then some (i, h.readyNo) else some (j, no)
      | none => some (i, h.readyNo)) none).map Prod.fst

/-- Reader count or holds of a slot (R163, R279). -/
def slotHolds (s : State) (h : Shard) (slot : Bool) : Byte :=
  if h.srec.masked then
    let e := dirOf s h.srec.mid
    if slot then e.rdrB else e.rdrA
  else if slot then h.rdrB else h.rdrA

/-- The conditions on the shard: its inactive slot carries no hold, and its directory entry is not BUSY. -/
def jobMayStart (s : State) (h : Shard) : Bool :=
  slotHolds s h (!h.slot) == 0#8 && !(h.srec.masked && (dirOf s h.srec.mid).busy) && !h.badrec

/-- What a job reads when it starts. -/
structure JobIn where
  img  : Image
  bind : Bind
  bads : List CakeBad
  scal : List Byte

/-- The program, from the engine's held images or from memory, the scalars and the streams. -/
def ioJob (s : State) (n : Fin 8) (i : Nat) : Io JobIn := do
  let h := shardOf s i
  let img ← match (eng s n).images.find? fun x => x.addr = h.srec.prog with
    | some x => pure x
    | none => ioImage h.srec.prog
  let scal ← ioRead h.srec.scal 128
  let (b, bads) ← ioBind s i
  return { img := img, bind := b, bads := bads, scal := scal }

/-- Images held after a job with this one has started: four at most, the longest unused leaves; a refused image is not held
and replaces none (R257). -/
def holdImage (xs : List Image) (x : Image) : List Image :=
  let ys := xs.filter fun y => y.addr ≠ x.addr
  if x.refused then xs else (if ys.length < 4 then ys else ys.drop (ys.length - 3)) ++ [x]

/-- An engine as it starts a job (R250): scalars loaded, rounding to nearest even, p0 of the first batch. -/
def startUnit (scal : List Byte) (nel : Nat) : VecUnit 64 :=
  ({ s := Vector.ofFn fun (r : Fin 32) => BitVec.ofNat 32 (leAt scal (4 * r.1) 4) } : VecUnit 64).setP0 nel

/-- The job of a shard given to an engine, before anything is read. -/
def placeJob (s : State) (n : Fin 8) (i : Nat) (x : JobIn) : State :=
  let h := shardOf s i
  let j : Job :=
    { bind := { x.bind with shard := i }, img := x.img, lslot := h.srec.lslot, jstep := h.jstep
      jrec := { shard := i, step := h.jstep, lslot := h.srec.lslot } }
  let s := modEng s n fun y =>
    { y with job := some j, images := holdImage y.images x.img, vec := startUnit x.scal x.bind.elems.length }
  modShard s i fun h => { h with ready := false, run := true }

/-- A shard's job starts on an engine; the program's faults end it at once (R253, R258). -/
def jobStart (s : State) (n : Fin 8) (i : Nat) : State :=
  let h := shardOf s i
  let none_ : JobIn := { img := { addr := h.srec.prog, words := [], streams := [], bad := true, refused := true }, bind := {}, bads := [], scal := [] }
  match (ioJob s n i).run s with
  | (.error (.brine a), s) => jobFault (placeJob s n i none_) n false { cause := cBrine, addr := some a }
  | (.error (.remoteat a), s) => jobFault (placeJob s n i none_) n false { cause := cRemoteat, addr := some a }
  | (.ok x, s) =>
    let s := placeJob s n i x
    if x.img.bad || (x.img.streams.any fun y => y.role ≠ 0 && streamBad s x.bind h.srec.auxd y) then
      jobFault s n true { cause := cIllegal }
    else match x.bads with
      | c :: _ => jobFault s n true { cause := cBadcake, addr := some c.addr, group := c.group }
      | [] => s

/-- JOB_START (R286): the named shard's job starts where it is the next READY one. -/
def execJobStart (shard : Fin 8192) (bad : List Nat) (s : State) : Host.Outcome State Fault Refusal :=
  .next (match firstReady s, idleEngine s with
    | some i, some n =>
      if i = shard.1 && jobMayStart s (shardOf s i) && !noStarts s && s.pwr.pstate = .active then
        commandAs (.hrv n) bad s fun s => jobStart (useStep s (0x40 + n.1)) n i
      else s
    | _, _ => s)

/-! ### Completing a job (R261, R267, R287, R348, R350) -/

/-- A held PFLUSH takes effect when the job has ended (R257). -/
def endFlush (s : State) (n : Fin 8) : State :=
  modEng s n fun x => if x.pflush then { x with images := [], pflush := false } else x

/-- The completion record is sent, the shard sets PEND and the engine is free. A job whose step a SKIP has already closed
ends as that SKIP ends a PEND shard (R288, R311). -/
def jobFinish (s : State) (n : Fin 8) (j : Job) : State :=
  let i := j.bind.shard
  let s := modEng s n fun x =>
    { x with job := none, vec := x.vec.setP0 0
             regs := if j.jrec.fault then x.regs else { x.regs with jobs := satAdd x.regs.jobs 1 } }
  let s := endFlush s n
  let s := modShard s i fun h => { h with run := false, pend := true, pool := none }
  if newer s.vrd.regs.vstep j.jstep then releaseShard s i
  else modVrd s fun v =>
    { v with recs := v.recs ++ [j.jrec]
             regs := { v.regs with vjobs := if j.jrec.step = v.regs.vstep then v.regs.vjobs + 1 else v.regs.vjobs } }

/-- The record of a job goes to the twin first; without one it is sent at once. -/
def jobRecord (s : State) (n : Fin 8) (j : Job) : State :=
  let q := s.twn.jseq
  let s := journal s jPend j.jstep j.bind.shard []
  if s.twn.regs.twen then modJob s n fun x => { x with pendSeq := some q } else jobFinish s n j

/-- The inactive slot written; errors of the writes or of the counts end the job with FAULT. -/
def jobStores (s : State) (n : Fin 8) (j : Job) : State :=
  match (ioOutputs s j).run s with
  | (.error (.brine a), s) => jobFault s n false { cause := cBrine, addr := some a }
  | (.error (.remoteat a), s) => jobFault s n false { cause := cRemoteat, addr := some a }
  | (.ok (acc, ms), s) =>
    let (err, s) := issueWrites s acc.writes
    match err, mergesBad s ms with
    | some a, _ => jobFault s n false { cause := cBrine, addr := some a }
    | none, some (.brine a) => jobFault s n false { cause := cBrine, addr := some a }
    | none, some (.remoteat a) => jobFault s n false { cause := cRemoteat, addr := some a }
    | none, none =>
      modJob (applyMerges s ms) n fun j => { j with jrec := { j.jrec with nonfinite := j.jrec.nonfinite || acc.nonfin } }

/-- A job that has run all its batches, or has faulted: its stores, once; and its record once they are all answered
(R267). -/
def jobComplete (s : State) (n : Fin 8) : State :=
  match jobOf s n with
  | none => s
  | some j =>
    if !j.ended || s.flt.lastrst == 3 then s
    else match j.pendSeq with
    | some q => if s.twn.jout.any (fun e => e.jseq = q) then s else jobFinish s n j
    | none =>
      let s := if j.jrec.fault || j.stored then s else jobStores (modJob s n fun j => { j with stored := true }) n j
      match jobOf s n with
      | some j => if writesOut s (.hrv n) then s else jobRecord s n j
      | none => s

/-- JOB_COMPLETE (R267). -/
def execJobComplete (n : Fin 8) (bad : List Nat) (s : State) : Host.Outcome State Fault Refusal :=
  .next (if s.pwr.pstate = .active then commandAs (.hrv n) bad s (jobComplete · n) else s)

/-- The held images discarded, at once or when the running job ends. -/
def pflush (s : State) (n : Fin 8) : State :=
  modEng s n fun x => if x.job.isSome then { x with pflush := true } else { x with images := [] }

/-- PFLUSH (R257). -/
def execPflush (n : Fin 8) (s : State) : Host.Outcome State Fault Refusal := cpWrite s (.hrv n) (pflush · n)

/-! ### Page-ins (R298) -/

/-- The descriptors of a shard's active slot, as host memory holds them. -/
def activeDescs (s : State) (h : Shard) : List Desc :=
  (List.range 4).map fun k =>
    let a := h.srec.sblk + 256 * b2n h.slot + 64 * k
    (descOf a (memBytes s.host (hostAddr s a) 64)).shift h.srec.xoff

/-- SLOT of the active slot (R292). -/
def slotSize (s : State) (ds : List Desc) : Nat :=
  ((ds.filter fun d => d.base ≠ 0).map fun d => d.extent s + d.tableBytes).sum

/-- The lowest offset at which the pool has room for n bytes. -/
def poolRoom (s : State) (n : Nat) : Option Nat :=
  let used := s.shard.filterMap fun x => x.2.pool
  (sortNat (0 :: used.map fun x => x.1 + x.2)).find? fun o =>
    decide (o + n ≤ s.glb.pgSize.toNat) && used.all fun x => decide (o + n ≤ x.1 ∨ x.1 + x.2 ≤ o)

/-- Shards whose page-in waits, and the one whose first landing came first. -/
def pageWaits (h : Shard) : Bool := h.pgWait.isSome && !h.pgin && !h.staged

def pageFirst (s : State) (i : Nat) : Bool :=
  s.shard.all fun (j, h) => j = i || !pageWaits h || decide (((shardOf s i).pgWait.getD 0) ≤ h.pgWait.getD 0)

/-- PAGE_IN: the copy of the active slot begins once the pool has room. -/
def pageIn (s : State) (i : Nat) : State :=
  let h := shardOf s i
  let n := slotSize s (activeDescs s h)
  match poolRoom s n with
  | some o => if pageWaits h && pageFirst s i then modShard s i fun h => { h with pgin := true, pool := some (o, n) } else s
  | none => s

def execPageIn (shard : Fin 8192) (s : State) : Host.Outcome State Fault Refusal :=
  .next (if s.pwr.pstate = .active && !noStarts s then pageIn s shard.1 else s)

/-- The bytes of a page-in. -/
def ioPageIn (s : State) (h : Shard) (off : Nat) : Io (List (Nat × List Byte)) := do
  let blk ← ioSlotOf h.srec
  let ds := (blk.drop (4 * b2n h.slot)).take 4
  let (ps, _) ← ioPooled ds (s.glb.pgBase.toNat + off)
  let ws ← (ds.zip ps).mapM fun (d, p) => do
    if d.base = 0 then return []
    else
      let n ← ioExtent d
      let bs ← ioRead d.base n
      if d.isCake && d.masked then return [(p.base, bs), (p.aux, ← ioRead d.aux (4 * (d.rows + 1)))] else return [(p.base, bs)]
  return ws.flatten

/-- PAGE_IN_DONE: the copy is complete. A transfer answered with an error is recorded and runs again. -/
def pageInDone (s : State) (i : Nat) : State :=
  let h := shardOf s i
  match h.pgin, h.pool with
  | true, some (off, _) =>
    match (ioPageIn s h off).run s with
    | (.error (.brine a), s) => recordErr s .glb { cause := cBrine, addr := some a, row := i }
    | (.error (.remoteat a), s) => recordErr s .glb { cause := cBrine, addr := some a, row := i }
    | (.ok ws, s) =>
      let (err, s) := issueWrites s ws
      match err with
      | some a => recordErr s .glb { cause := cBrine, addr := some a, row := i }
      | none => readyCheck (modShard s i fun h => { h with pgin := false, staged := true }) i
  | _, _ => s

def execPageInDone (shard : Fin 8192) (bad : List Nat) (s : State) : Host.Outcome State Fault Refusal :=
  .next (commandAs .core bad s (pageInDone · shard.1))

/-! ### Follower fetches (R280, R281, R338) -/

/-- Orders that wait at a record for an epoch newer than the one it holds: the epochs they name. -/
def waitingEpochs (s : State) (h : Shard) : List W32 :=
  ((List.finRange 60).map fun l => ((lp s l).win.filter fun w =>
    w.gate == .wait && w.ord.wcrec == h.srec.crec && newer w.ord.wepoch h.cep).map fun w => w.ord.wepoch).flatten

/-- An owner's address as this instance reaches it, given another address of the same owner that the record names. -/
def viaOwner (s : State) (there a : Nat) : Nat :=
  match apertureOf s there with
  | some (i, _) => s.twn.regs.rapbase.toNat + i * 2 ^ 40 + a
  | none => a

/-- Reads the owner's record and checks it (R277): its words, or none when it cannot be used. -/
def ownerRecord (s : State) (n : Fin 8) (i : Nat) : Option (List W32) × State :=
  let h := shardOf s i
  let (r, s) := rdHost s h.srec.auxd 64
  match r with
  | none => (none, recordErr s (.slt n) { cause := cBrine, addr := some h.srec.auxd, row := i })
  | some bs =>
    let ws := recWords bs
    if recSumOk ws && recOwner ws == h.srec.owner then (some ws, s)
    else (none, badRecordAt s (.slt n) h.srec.crec h.srec.auxd 0 0xFF)

/-- The hold is given back and the fetch is over. -/
def fetchEnd (s : State) (i : Nat) (ws : List W32) : State :=
  let s := sendHold s (shardOf s i).srec.owner (recShard ws) 1 (recSlot ws) 0
  modShard s i fun h => { h with fetch := none }

/-- The fetch of an order that waits begins: the owner's record is read; its slot is held when the order's epoch is there,
else the fetch waits for the next COMMIT. -/
def fetchBegin (s : State) (n : Fin 8) (i : Nat) : State :=
  let es := waitingEpochs s (shardOf s i)
  if es.isEmpty || (shardOf s i).fetchWait then s
  else
    let (r, s) := ownerRecord s n i
    match r with
    | none => s
    | some ws =>
      if es.any fun e => !newer e (recEpoch ws) then
        modShard (sendHold s (shardOf s i).srec.owner (recShard ws) 0 (recSlot ws) 0) i fun h => { h with fetch := some (ws, n, .asked) }
      else modShard s i fun h => { h with fetchWait := true }

/-- The copy of the owner's weight tensor, row table included, into a local slot. -/
def ioFetch (s : State) (h : Shard) (slot lslot : Bool) : Io (List (Nat × List Byte)) := do
  let src ← ioDesc (h.srec.gdesc + 256 * b2n slot)
  let dst := (← ioDesc (h.srec.sblk + 256 * b2n lslot)).shift h.srec.xoff
  let far := viaOwner s h.srec.gdesc
  let sd := { src with base := far src.base, aux := far src.aux }
  let n ← ioExtent sd
  let bs ← ioRead sd.base n
  if src.isCake && src.masked then return [(dst.base, bs), (dst.aux, ← ioRead sd.aux (4 * (src.rows + 1)))]
  else return [(dst.base, bs)]

/-- The copy record is written and names the local slot. -/
def fetchRecord (s : State) (n : Fin 8) (i : Nat) (ws : List W32) : State :=
  let h := shardOf s i
  let l := !h.slot
  let (ok, s) := onReserve (wrHost · h.srec.crec (recBytes (mkRec (recEpoch ws) (recMepoch ws) l (recOwner ws) 3 (recStep ws) i))) s
  if !ok then recordErr s (.slt n) { cause := cBrine, addr := some h.srec.crec, row := i }
  else
    let s := modShard s i fun h => { h with cep := recEpoch ws, slot := l }
    if h.srec.masked && recMepoch ws == (dirOf s h.srec.mid).mep then modDir s h.srec.mid fun e => { e with slot := l } else s

/-- Once the owner holds the slot, a fresh read of its record: one that differs gives the hold back. -/
def fetchAgree (s : State) (n : Fin 8) (i : Nat) (ws : List W32) : State :=
  let (r, s) := ownerRecord s n i
  if r = some ws then modShard s i fun h => { h with fetch := some (ws, n, .agreed) } else fetchEnd s i ws

/-- The copy of the held slot, as soon as the local one carries no hold. -/
def fetchCopy (s : State) (n : Fin 8) (i : Nat) (ws : List W32) : State :=
  let h := shardOf s i
  if slotHolds s h (!h.slot) ≠ 0#8 then s
  else match (ioFetch s h (recSlot ws) (!h.slot)).run s with
  | (.error (.brine a), s) => fetchEnd (recordErr s (.slt n) { cause := cBrine, addr := some a, row := i }) i ws
  | (.error (.remoteat a), s) => fetchEnd (recordErr s (.slt n) { cause := cRemoteat, addr := some a, row := i }) i ws
  | (.ok out, s) =>
    let (err, s) := issueWrites s out
    match err with
    | some a => fetchEnd (recordErr s (.slt n) { cause := cBrine, addr := some a, row := i }) i ws
    | none => fetchRecord (fetchEnd s i ws) n i ws

/-- A salter that runs firmware and is in service. -/
def firmwareSalter (s : State) (n : Fin 8) : Bool :=
  admits s (.slt n) && !(salt s n).regs.cust && !bit s.flt.fslt n.1 && !bit s.tst.regs.bypSlt n.1 && !halted s (0x48 + n.1)

/-- FOLLOWER_FETCH (R280): the fetch service on a salter takes the next step of a shard's fetch. -/
def execFollowerFetch (n : Fin 8) (shard : Fin 8192) (bad : List Nat) (s : State) : Host.Outcome State Fault Refusal :=
  let h := shardOf s shard.1
  .next (if h.srec.role ≠ 2 || h.badrec || !firmwareSalter s n || noStarts s || s.twn.regs.jstate = .fenced || s.pwr.pstate ≠ .active then s
    else match h.fetch with
    | none => commandAs (.slt n) bad s (fetchBegin · n shard.1)
    | some (ws, _, .held) => commandAs (.slt n) bad s (fetchAgree · n shard.1 ws)
    | some (ws, _, .agreed) => commandAs (.slt n) bad s (fetchCopy · n shard.1 ws)
    | some (_, _, .asked) => s)

/-! ### Customer kernels (R481, R482) -/

/-- The lengths that CLEN admits. -/
def clenOk (n : Nat) : Bool := decide (64 ≤ n) && decide (n ≤ 0x40000) && n % 64 == 0

/-- CGO: the load of a customer kernel begins. -/
def cgoWrite (s : State) (n : Fin 8) : State :=
  let x := (salt s n).regs
  if !x.cust || !(pageState s (.slt n) == .idle || pageState s (.slt n) == .stopped) || x.cgo then
    dropOk s (.slt n) 0x48 .state
  else if !clenOk x.clen.toNat then modSlt s n fun y => { y with regs := { y.regs with cres := 3 } }
  else modSlt s n fun y => { y with regs := { y.regs with cgo := true, cres := 0 } }

/-- CGO (R482). -/
def execCgo (n : Fin 8) (s : State) : Host.Outcome State Fault Refusal := cpWrite s (.slt n) (cgoWrite · n)

/-- CGO_DONE: the kernel starts at address 0 with x1 = CARG, or the load failed. -/
def cgoDone (s : State) (n : Fin 8) : State :=
  let x := salt s n
  if !x.regs.cgo then s
  else
    let (r, s) := rdHost s x.regs.cimg.toNat x.regs.clen.toNat
    match r with
    | none =>
      let s := modSlt s n fun y => { y with regs := { y.regs with cgo := false, cres := 2 } }
      recordErr s (.slt n) { cause := cBrine, addr := some x.regs.cimg.toNat }
    | some bs => modSlt s n fun y =>
        { y.sequence with lmem := memPut y.lmem 0 bs, x := vset y.x 1 x.regs.carg, pc := 0, mode := .run, inTrap := false
                          regs := { y.regs with cgo := false, chalt := false, cres := 1 } }

def execCgoDone (n : Fin 8) (bad : List Nat) (s : State) : Host.Outcome State Fault Refusal :=
  .next (commandAs (.slt n) bad s (cgoDone · n))

/-- CEVT: an event to a salter. -/
def execCevt (n : Fin 8) (s : State) : Host.Outcome State Fault Refusal :=
  cpWrite s (.slt n) fun s => sltEvent s n

end Sys2Proof.Machine
end

