-- ==== Sys2Proof/Machine/Shards.lean ====
section
/-! DEFINITION. The shard table, PLAN and ACTIVATE (spec/10_optimiser_state.md R272 to R275, R291 to R295; spec/17 R465,
R466; spec/12 R348). -/

namespace Sys2Proof.Machine

/-! ### Shard records (R273) -/

/-- A shard record from its 128 bytes. -/
def recordOf (b : List Byte) : ShardRec :=
  let m := leAt b 4 2
  { role := byteAt b 0, slow := nbit (byteAt b 1) 0, pin := nbit (byteAt b 1) 1, msteps := byteAt b 2, owner := byteAt b 3
    mid := m % 4096, masked := nbit m 15, lslot := leAt b 6 2, sblk := leAt b 8 8, crec := leAt b 16 8, prog := leAt b 24 8
    scal := leAt b 32 8, gdesc := leAt b 40 8, auxd := leAt b 48 8, ucad := leAt b 56 2 }

/-- Whether a record breaks R273. The tier conditions hold for ACTIVATE alone. -/
def recordBad (s : State) (tiers : Bool) (b : List Byte) (r : ShardRec) : Bool :=
  decide (2 < r.role) || decide (4 ≤ byteAt b 1) || decide (63 < r.owner) || decide (leAt b 4 2 / 4096 % 8 ≠ 0)
    || decide (4095 < r.lslot) || decide (r.msteps = 0 ∨ 16 < r.msteps) || decide (r.crec % 64 ≠ 0)
    || (b.drop 58).any (· != 0) || (decide (r.role = 1) && decide (r.ucad = 0))
    || (r.masked && decide (r.sblk ≠ (dirOf s r.mid).rblk.toNat))
    || (tiers && ((decide (1 < r.msteps) && !r.slow) || (r.slow && (r.masked || decide ((hdr s .glb).abi.toNat < 0x0102)))))

/-! ### Slot blocks (R274) -/

/-- Whether the weight descriptor of a slot breaks R274; the block enforces no other rule of descriptors here. -/
def weightBad (masked : Bool) (d : Desc) : Bool :=
  d.fmt != 0 || d.fsk != 2 || d.masked != masked || !(d.isCake || (d.isPlain && !masked))

/-- Whether a companion breaks R274 beside its weight. -/
def companionBad (masked : Bool) (w d : Desc) : Bool :=
  if masked then rakeDescBad w d
  else d.base != 0 && (d.masked || d.openok || d.nout != 0 || d.zpt || d.gsz != w.gsz || d.rows != w.rows
    || d.klen != w.klen || !([0, 1, 3, 4, 8, 9] : List Nat).contains d.fmt || !(d.isCake || (d.isPlain && d.fmt == 0)))

/-- Descriptors equal but for BASE, AUX and MEPOCH. -/
def sameShape (a b : Desc) : Bool := { a with addr := 0, base := 0, aux := 0, mepoch := 0 } == { b with addr := 0, base := 0, aux := 0, mepoch := 0 }

/-- Whether a slot block breaks R274. -/
def slotBlockBad (r : ShardRec) (blk : List Desc) : Bool :=
  let d := fun k => blk.getD k {}
  weightBad r.masked (d 0) || weightBad r.masked (d 4)
    || (List.range 3).any (fun k =>
      companionBad r.masked (d 0) (d (k + 1)) || companionBad r.masked (d 4) (d (k + 5))
        || (r.role == 2 && ((d (k + 1)).base != 0 || (d (k + 5)).base != 0)))
    || (List.range 4).any fun k => !sameShape (d k) (d (k + 4))

/-! ### The planner's figures (R292) -/

/-- A shard of the table with its figures. -/
structure ShardFig where
  ix   : Nat
  srec : ShardRec
  blk  : List Desc
  gd   : Desc := {}
  slot : Nat := 0
  fp   : Nat := 0
  gext : Nat := 0
  nel  : Nat := 0
  /-- Extents of the slot block's tensors: first address and bytes. -/
  spans : List (Nat × Nat) := []
  deriving DecidableEq, Repr

def ShardFig.pg (f : ShardFig) : Nat := (f.nel + 1343) / 1344

/-- The data of the tensors of a list of descriptors and their row tables: first address and bytes. -/
def ioBytes (ds : List Desc) : Io (List (Nat × Nat)) := do
  let xs ← (ds.filter fun d => d.base ≠ 0).mapM fun d => do
    return (d.base, ← ioExtent d) :: (if d.isCake && d.masked then [(d.aux, d.tableBytes)] else [])
  return xs.flatten

/-- Reads one shard's slot block and gradient descriptor and computes its figures; none when R273 or R274 is broken. -/
def ioFig (s : State) (tiers : Bool) (ix : Nat) (b : List Byte) : Io (Option ShardFig) := do
  let r := recordOf b
  if recordBad s tiers b r then return none
  else
    let blk ← ioSlotBlock r.sblk
    if slotBlockBad r blk then return none
    else
      let a ← ioBytes (blk.take 4)
      let c ← ioBytes (blk.drop 4)
      let sum := fun (l : List (Nat × Nat)) => (l.map Prod.snd).sum
      let gd ← if r.role = 1 then ioDesc r.gdesc else pure {}
      let gext ← if r.role = 1 then do pure ((← ioExtent gd) + gd.tableBytes) else pure 0
      let w := blk.headD {}
      return some { ix := ix, srec := r, blk := blk, gd := gd, slot := sum a, fp := sum a + sum c, gext := gext
                    nel := w.rows * w.klen, spans := a ++ c }

/-- Every record of the table with a role, checked; none when one is bad. -/
def ioTable (s : State) (tiers : Bool) : Io (Option (List ShardFig)) := do
  let xs ← (List.range s.glb.shtN.toNat).mapM fun i => do
    let b ← ioRead (s.glb.shtBase.toNat + 128 * i) 128
    if byteAt b 0 = 0 then return some none
    else
      let f ← ioFig s tiers i b
      return f.map some
  return if xs.all Option.isSome then some (xs.filterMap Option.join) else none

/-- Fast-tier bytes with no shard moved: FRESERVE, owners' slots and gradients, followers' slots. -/
def fastAll (s : State) (fs : List ShardFig) : Nat :=
  s.glb.freserve.toNat + (fs.map fun f => f.fp + f.gext).sum

/-! ### PLAN (R293) -/

/-- Result codes of R294. -/
def shtOk : Nat := 0
def shtCapacity : Nat := 1
def shtBadShard : Nat := 2
def shtBadRec : Nat := 3
def shtBusy : Nat := 4

/-- The order in which the planner tries shards: UCAD descending, FP descending, index ascending. -/
def planBefore (a b : ShardFig) : Bool :=
  decide (b.srec.ucad < a.srec.ucad ∨ (a.srec.ucad = b.srec.ucad ∧ (b.fp < a.fp ∨ (b.fp = a.fp ∧ a.ix < b.ix))))

/-- What the planner has so far. -/
structure PlanAcc where
  fast : Nat
  slow : Nat := 0
  pond : Nat := 0
  pool : Nat := 0
  moved : List ShardFig := []

/-- One candidate of the planner's loop. -/
def planStep (fastCap slowCap pages : Nat) (p : PlanAcc) (f : ShardFig) : PlanAcc :=
  if p.fast ≤ fastCap then p
  else if slowCap < p.slow + f.fp ∨ pages < p.pond + f.pg then p
  else
    { fast := p.fast - f.fp - f.gext + max p.pool f.slot - p.pool, slow := p.slow + f.fp, pond := p.pond + f.pg
      pool := max p.pool f.slot, moved := p.moved ++ [f] }

/-- The planner's choice. -/
def planOf (s : State) (fs : List ShardFig) : PlanAcc :=
  let cand := sortBy planBefore (fs.filter fun f => f.srec.role = 1 ∧ f.srec.pin = false ∧ f.srec.masked = false)
  cand.foldl (planStep s.glb.fastCap.toNat s.glb.slowCap.toNat s.glb.pondPages.toNat) { fast := fastAll s fs }

/-- PEN of a plan: nanoseconds, rounded up. -/
def penaltyOf (s : State) (moved : List ShardFig) : Nat :=
  let sb := s.glb.slowBw.toNat
  let fb := s.glb.fastBw.toNat
  let k := qmul (qofInt 2000) (qsub (qdiv qone (qofInt sb)) (qdiv qone (qofInt fb)))
  (qceil (moved.foldl (fun a f => qadd a (qmul k (qdiv (qofInt f.slot) (qofInt f.srec.ucad)))) qzero)).toNat

/-- An SHT command completes with a result. -/
def shtDone (s : State) (code : Nat) : State := modGlb s fun g => { g with shtRun := none, shtRes := BitVec.ofNat 4 code }

/-- An error response to a command's reads or writes: recorded on GLB, and the result BADSHARD. -/
def shtErr (s : State) (e : IoErr) : State :=
  let a := match e with | .brine a => a | .remoteat a => a
  shtDone (recordErr s .glb { cause := cBrine, addr := some a }) shtBadShard

/-- PLAN runs to its result. -/
def planRun (s : State) : State :=
  if (hdr s .glb).abi.toNat < 0x0102 then shtDone s shtBadShard
  else match (ioTable s false).run s with
  | (.error e, s) => shtErr s e
  | (.ok none, s) => shtDone s shtBadShard
  | (.ok (some fs), s) =>
    let p := planOf s fs
    let slow := p.moved.map (·.ix)
    let out : List Byte := (List.range s.glb.shtN.toNat).map fun i => if slow.contains i then 1 else 0
    match (ioRead s.glb.shtAddr.toNat s.glb.shtN.toNat).run s with
    | (.error e, s) => shtErr s e
    | (.ok _, s) =>
      let (ok, s) := wrHost s s.glb.shtAddr.toNat out
      if !ok then shtErr s (.brine s.glb.shtAddr.toNat)
      else if s.glb.fastCap.toNat < p.fast then shtDone s shtCapacity
      else shtDone (modGlb s fun g =>
        { g with shtPool := BitVec.ofNat 64 p.pool, shtPen := BitVec.ofNat 64 (penaltyOf s p.moved) }) shtOk

/-! ### ACTIVATE (R295) -/

/-- Whether a span of bytes lies in a slow region, or meets one. -/
def regionUsed (r : Region) : Bool := decide (r.base.toNat < r.lim.toNat)
def inSlow (s : State) (x : Nat × Nat) : Bool :=
  (List.finRange 4).any fun i =>
    let r := vget s.glb.slow i
    regionUsed r && decide (r.base.toNat ≤ x.1 ∧ x.1 + x.2 ≤ r.lim.toNat)
def meetsSlow (s : State) (x : Nat × Nat) : Bool :=
  (List.finRange 4).any fun i =>
    let r := vget s.glb.slow i
    regionUsed r && decide (r.base.toNat < x.1 + x.2 ∧ x.1 < r.lim.toNat)

/-- SLOW disagrees with the slow regions; below level 1.2 there are none (R465). -/
def tierBad (s : State) (f : ShardFig) : Bool :=
  atLevel s .glb 0x0102 && f.srec.role = 1 && (if f.srec.slow then f.spans.any fun x => !inSlow s x else f.spans.any (meetsSlow s))

/-- The tier test of R295; below level 1.2 there are no tiers (R465). -/
def capacityBad (s : State) (fs : List ShardFig) : Bool :=
  if (hdr s .glb).abi.toNat < 0x0102 then false
  else
    let slow := fs.filter fun f => f.srec.role = 1 ∧ f.srec.slow = true
    let pool := slow.foldl (fun m f => max m f.slot) 0
    let fast := fastAll s fs - (slow.map fun f => f.fp + f.gext).sum + pool
    decide (s.glb.fastCap.toNat < fast ∨ s.glb.slowCap.toNat < (slow.map (·.fp)).sum
      ∨ s.glb.pondPages.toNat < (slow.map (·.pg)).sum ∨ s.glb.pgSize.toNat < pool)

/-- A shard's new state entry (R275): its record's epoch and slot, and the counts of its tensors. -/
def ioEntry (f : ShardFig) : Io (Nat × Shard × List W32) := do
  let ws := recWords (← ioRead f.srec.crec 64)
  let slot := recSlot ws
  let w := f.blk.getD (4 * b2n slot) {}
  let nel ← if f.srec.masked then do
      let rows ← ioRows w
      pure ((rows.map fun r => (r.grps.map fun g => g.count).sum).sum)
    else pure f.nel
  let gexp := if f.srec.role = 1 then f.gd.rows * f.gd.ng else 0
  return (f.ix, { srec := f.srec, gd := f.gd, cep := recEpoch ws, slot := slot, nel := BitVec.ofNat 32 nel
                  gexp := BitVec.ofNat 32 gexp }, ws)

/-- BODY of an ACT entry: SHT_BASE, SHT_N and the tier registers, for which R348 gives no layout (DESIGN CHOICE, log entry
136). -/
def actBody (g : Glb) : List Byte :=
  leBytes 8 g.shtBase.toNat ++ leBytes 2 g.shtN.toNat
    ++ ((List.finRange 4).map fun i => leBytes 7 (vget g.slow i).base.toNat ++ leBytes 7 (vget g.slow i).lim.toNat).flatten
    ++ leBytes 7 g.fastCap.toNat ++ leBytes 7 g.slowCap.toNat ++ leBytes 7 g.freserve.toNat ++ leBytes 4 g.fastBw.toNat
    ++ leBytes 4 g.slowBw.toNat ++ leBytes 7 g.pgBase.toNat ++ leBytes 7 g.pgSize.toNat ++ leBytes 2 g.pondPages.toNat

/-- After a restart from RETAIN, the shards whose flips of the tail's COMMIT are incomplete (R384), with the step. -/
def heldFlips (s : State) : Option (W32 × List Nat) :=
  if s.flt.lastrst ≠ 2 then none
  else match tailCommit s with
    | none => none
    | some step => some (step, tailPend s step)

/-- Those flips go on: each shard is PEND again and its record is written, unless the write had already landed. -/
def resumeFlips (s : State) (step : W32) (is : List Nat) : State :=
  let rec_ := fun (i : Nat) => recWords (memBytes s.host (hostAddr s (shardOf s i).srec.crec) 64)
  let is := is.filter fun i => (shardOf s i).srec.role = 1 && recStep (rec_ i) != step
  if is.isEmpty then s
  else
    let s := is.foldl (fun s i => modShard s i fun h =>
      { h with pend := true, jstep := step
               flip := some (mkRec (h.cep + 1) (recMepoch (rec_ i)) (!h.slot) h.srec.owner 1 step i) }) s
    issueFlips (modVrd s fun v => { v with flipping := some step })

/-- ACTIVATE returns OK: the shard state array is reset, the pond is empty and VSTEP is 0. A round that began at a later
step is discarded (R301). -/
def activateOk (s : State) (es : List (Nat × Shard)) : State :=
  let held := heldFlips s
  let s := { s with shard := es.foldl (fun m x => smSet {} m x.1 x.2) [], pond := [] }
  let s := modVrd s fun v =>
    if v.regs.vstep = 0 then { v with activated := true }
    else { v with activated := true, recs := [], vups := [], next := [], own := none, evals := [], formed := none, upSent := false, lockFt := false
                  regs := { v.regs with vstep := 0, closed := false, njobs := 0, sent := false, oflags := 0, vjobs := 0 } }
  let s := shtDone (journal s jAct s.vrd.regs.vstep 0 (actBody s.glb)) shtOk
  match held with
  | some (step, is) => resumeFlips s step is
  | none => s

/-- Records that fail R277 are recorded, and their shards read BADREC. -/
def activateBadRecs (s : State) (bads : List (Nat × Shard)) : State :=
  let s := bads.foldl (fun s (i, h) =>
    modShard (recordErr s .glb { cause := cBadrec, addr := some h.srec.crec, row := i }) i fun x => { x with badrec := true }) s
  shtDone s shtBadRec

/-- No verdict step is open (R295): none is before the first ACTIVATE, nor while the mapped pans, the engines and the Rake
are stopped. -/
def noStepOpen (s : State) : Bool :=
  let quiet := fun p => [UState.stopped, .isolated, .faulted].contains (pageState s p)
  !(s.shard.any fun (_, h) => h.ready || h.run || h.pend || h.flip.isSome) && s.vrd.flipping.isNone
    && (!s.vrd.activated || ((List.finRange 64).all (fun p => (logOf s p).isNone || quiet (.pan p)) && (List.finRange 8).all (fun n => quiet (.hrv n))
      && quiet .rak))

/-- ACTIVATE runs to its result: the table and its slot blocks, then the records, then the tier sums. -/
def activateRun (s : State) : State :=
  if !noStepOpen s then shtDone s shtBusy
  else match (ioTable s true).run s with
  | (.error e, s) => shtErr s e
  | (.ok none, s) => shtDone s shtBadShard
  | (.ok (some fs), s) =>
    if fs.any (tierBad s) then shtDone s shtBadShard
    else match (fs.mapM ioEntry).run s with
    | (.error e, s) => shtErr s e
    | (.ok es, s) =>
      let bads := (es.filter fun x => !recOk x.2.2 (some (x.1, x.2.1))).map fun x => (x.1, x.2.1)
      if !bads.isEmpty then activateBadRecs s bads
      else if capacityBad s fs then shtDone s shtCapacity
      else activateOk s (es.map fun x => (x.1, x.2.1))

/-! ### Commands (R272, R294, R466) -/

/-- A write of SHT_CMD: a second command while one runs leaves the result BUSY. -/
def shtCommand (s : State) (c : ShtCmd) : State :=
  modGlb s fun g => if g.shtRun.isSome then { g with shtRes := BitVec.ofNat 4 shtBusy } else { g with shtRun := some c }

/-- PLAN (R293). -/
def execPlan (s : State) : Host.Outcome State Fault Refusal := cpWrite s .glb (shtCommand · .plan)

/-- ACTIVATE (R295). -/
def execActivate (s : State) : Host.Outcome State Fault Refusal := cpWrite s .glb (shtCommand · .activate)

/-- SHT_COMMAND_DONE (R295): the running command completes. -/
def execShtCommandDone (bad : List Nat) (s : State) : Host.Outcome State Fault Refusal :=
  .next (match s.glb.shtRun with
    | none => s
    | some .plan => command bad s planRun
    | some .activate => command bad s activateRun)

end Sys2Proof.Machine
end

