-- ==== Sys2Proof/Machine/Link.lean ====
section
/-! DEFINITION. Links: reception, strangers, sequences, retries, remote accesses, lane sparing, training and loss
(spec/12_thrumow_links_and_cascade.md R323 to R343; spec/14 R393). -/

namespace Sys2Proof.Machine

/-! ### Frames and their rows -/

/-- Two frames of one type belong to different commands when they name different operations: the operation a JOIN or
TAKEOVER frame names, 0 for the other types. -/
def frameOp (f : Frame) : Nat :=
  if f.ftype = 0x0E then tsAt f 20 1 else if f.ftype = 0x0F then tsAt f 21 1 else if f.ftype = 0x12 then tsAt f 20 1 else 0

/-- Whether a frame is the command's own: its type and operation. -/
def ownFrame (code op : Nat) (f : Frame) : Bool := f.ftype.toNat == code && frameOp f == op

/-- Whether a frame is some other command's. -/
def otherFrame (code op : Nat) (f : Frame) : Bool :=
  let t := f.ftype.toNat
  let known := if t = 0x0E then decide (frameOp f ≤ 3) else if t = 0x0F then decide (frameOp f ≤ 2)
    else if t = 0x12 then decide (frameOp f ≤ 1) else (typeClass t).isSome
  known && !ownFrame code op f

/-! ### Losing a peer (R343, R310, R338, R346) -/

/-- The hold that an entry of the remote hold table keeps, given back (R338). -/
def dropHold (s : State) (h : RHold) : State :=
  let s := { s with twn := { s.twn with holds := s.twn.holds.erase h } }
  let x := shardOf s h.shard
  if x.srec.masked then releaseHolds s [(x.srec.mid, h.slot)] none else releaseHolds s [] (some (h.shard, h.slot))

/-- Every entry of a holder released. -/
def dropHolder (s : State) (peer : Nat) : State := (s.twn.holds.filter fun h => h.holder = peer).foldl dropHold s

/-- A frame of the verdict class to a peer, on a named link. -/
def sendV (s : State) (via : Option (Fin 8)) (peer ftype : Nat) (ts : List Byte) : State := sendVia s via false peer 0 ftype ts []

/-- What the loss of the parent leads to (R346): the deputy becomes master; another member sends REPARENT to its alternate
parent. -/
def parentLost (s : State) : State :=
  let r := s.twn.regs
  if isDeputy s then
    tryVerdict (modVrd s fun v => { v with takeDep := true, regs := { v.regs with vparent := 0xFF } })
  else if r.valtp ≠ 0xFF then
    sendV s (some r.valtl) r.valtp.toNat 0x0E ([3, 0] ++ leBytes 1 s.vrd.regs.vsub.toNat)
  else s

/-- A remote write of a unit is answered with an error, or will never be (R244, R337): it is the unit's own error response. -/
def remoteError (s : State) (who : Option Agent) (k : Fin 8) (a : Nat) : State :=
  let e : ErrIn := { cause := cBrine, addr := some a }
  match who with
  | some (.pan l n) =>
    (match (lp s l).placeOf n with
      | some w => match (lp s l).at_ w with
        | some r => match r.cont with
          | some c => attemptFailed s l w (r.tileErr (c.second.getD r.next) e)
          | none => recordErr s (panPage s l) { e with oid := r.ord.oid.toNat, lpan := l.1 }
        | none => recordErr s (panPage s l) { e with lpan := l.1 }
      | none => recordErr s (panPage s l) { e with lpan := l.1 })
  | some (.hrv n) => if (jobOf s n).isSome then jobFault s n false e else recordErr s (.hrv n) e
  | some (.slt n) =>
    if (salt s n).mode = .idle then recordErr s (.slt n) e else sltTrap (modSlt s n fun x => { x with mode := .run }) n .brine
  | some .rak => recordErr s .rak e
  | some .core => recordErr s .glb e
  | some .svc => modTstR s fun t => { t with svcRes := 3 }
  | some (.lnk j) => recordErr s (.lnk j) e
  | none => recordErr s (.lnk k) e

/-- The unit and the aperture address of a WRITE frame. -/
def writeOf (s : State) (peer : Nat) (who : Option Agent) (ts : List Byte) : Option Agent × Nat :=
  (who, s.twn.regs.rapbase.toNat + peer * 2 ^ 40 + leAt ts 0 8)

/-- The remote writes of an instance's own units that are under way to a peer, one for each unit. -/
def writesTo (s : State) (peer : Nat) : List (Option Agent × Nat) :=
  let p := pairOf s false peer 2
  let ws := (p.unacked.filter fun u => u.frame.ftype = 4).map (fun u => writeOf s peer u.who u.frame.tspec)
    ++ (p.queue.filter fun q => q.ftype = 4).map fun q => writeOf s peer q.who q.ts
  ws.foldl (fun l w => if l.any fun x => x.1 == w.1 then l else l ++ [w]) []

/-- Frames queued for a lost peer are discarded, those in retry buffers with them. What they were to write, and what was asked of
the peer, ends as an error response does (DESIGN CHOICE, log entry 131). -/
def discardFor (s : State) (peer : Nat) : State :=
  let ws := writesTo s peer
  let asked := s.twn.rdreqs.filter fun x => aperPeer s (16 * x.2.1) = peer
  let s := { s with rfail := s.rfail ++ asked.flatMap fun x => (List.range x.2.2).map (x.2.1 + ·) }
  let s := modTwn s fun t =>
    { t with rdreqs := t.rdreqs.filter fun x => !asked.contains x
             pairs := t.pairs.map fun (k, p) =>
              if k % 256 / 4 = peer then (k, { p with queue := [], unacked := [], backoff := none }) else (k, p) }
  (List.finRange 8).foldl fenceEnd (ws.foldl (fun s w => remoteError s w.1 0 w.2) s)

/-- A destination's route has failed. -/
def peerLost (s : State) (peer : Nat) : State :=
  if bit s.twn.lost peer then s
  else
    let s := modTwn s fun t =>
      { t with lost := setBit t.lost peer true, probing := setBit t.probing peer false, await := setBit t.await peer false }
    let s := discardFor s peer
    let s := raiseInt (dropHolder s peer) srcPeerLost
    if s.twn.regs.jstate ≠ .joined then s
    else if s.vrd.regs.vparent.toNat = peer then parentLost s
    else if isMaster s && s.vrd.regs.vdep.toNat = peer then
      if s.vrd.formed.isSome then takeNextdep s else tryVerdict (modVrd s fun v => { v with takeDep := true })
    else if (children s).contains peer then tryVerdict s
    else s

/-- A route whose link is lost: nothing leaves by it until it has moved or software has written it; it probes its alternate, or
fails at once (R342). -/
def routeDown (s : State) (peer : Nat) : State :=
  let s := modTwn s fun t => { t with noRoute := setBit t.noRoute peer true }
  if (routeAlt (routeOf s peer)).isSome then modTwn s fun t => { t with probing := setBit t.probing peer true }
  else peerLost s peer

/-- A link's lanes carry nothing any more. -/
def lanesOff (s : State) (k : Fin 8) : State :=
  modLk s k fun x => { regs := { x.regs with lstate := 0, ltrain := false } }

/-- Every route that names a link is down. -/
def routesDown (s : State) (k : Fin 8) : State :=
  (List.range 64).foldl (fun s p => if routeLink (routeOf s p) = some k && bit s.twn.regs.members p then routeDown s p else s) s

/-- A link goes DOWN (R342): both directions, with every route that names it. -/
def linkDown (s : State) (k : Fin 8) : State :=
  routesDown (recordErr (lanesOff s k) (.lnk k) { cause := cLinkdown }) k

/-! ### Rounds of retransmission (R332, R333) -/

/-- A round begins: the attempt is counted and the wait drawn; after RETRYLIM rounds the route is lost. -/
def startRound (s : State) (adp : Bool) (peer cls from_ : Nat) : State :=
  let p := pairOf s adp peer cls
  match p.unacked with
  | [] => s
  | u :: _ =>
    let r := (lk s u.link).regs
    if p.backoff.isSome then s
    else if r.retrylim.toNat ≤ p.attempts then routeDown s peer
    else
      let a := p.attempts + 1
      let w := r.bobase.toNat * 2 ^ min (a - 1) 6
      let x := nextR s.twn.regs.boseed
      let s := modTwnR s fun t => { t with boseed := x }
      modPair s adp peer cls fun p => { p with attempts := a, backoff := some (w + (x &&& BitVec.ofNat 32 (w - 1)).toNat, from_) }

/-- Frames resent in order, each on its link; those whose route has lost that link wait for its reroute. -/
def resend (s : State) (peer : Nat) (us : List Unacked) : State :=
  (us.filter fun u => !heldByRoute s peer u.link).foldl (fun s u =>
    modLkR (transmit s u.link u.frame) u.link fun r => { r with retx := satAdd r.retx 1 }) s

/-- The pair of a (peer, class) that meets a condition: the instance's own first, then the adopted number's. -/
def pairWith (s : State) (peer cls : Nat) (f : Pair → Bool) : Option Bool :=
  if f (pairOf s false peer cls) then some false else if f (pairOf s true peer cls) then some true else none

/-- RTO_EXPIRY (R332): the oldest unacknowledged frame of a pair has waited RTO. -/
def execRtoExpiry (peer : Fin 64) (cls : Fin 3) (s : State) : Host.Outcome State Fault Refusal :=
  .next (match pairWith s peer.1 cls.1 fun p => !p.unacked.isEmpty && p.backoff.isNone with
    | some adp => startRound s adp peer.1 cls.1 (((pairOf s adp peer.1 cls.1).unacked.head?.map (·.ext)).getD 0)
    | none => s)

/-- RETRANSMIT (R332): the wait of a round has ended. -/
def execRetransmit (peer : Fin 64) (cls : Fin 3) (s : State) : Host.Outcome State Fault Refusal :=
  .next (match pairWith s peer.1 cls.1 fun p => p.backoff.isSome with
    | some adp =>
      let p := pairOf s adp peer.1 cls.1
      let from_ := (p.backoff.map Prod.snd).getD 0
      resend (modPair s adp peer.1 cls.1 fun p => { p with backoff := none }) peer.1 (p.unacked.filter fun u => decide (from_ ≤ u.ext))
    | none => s)

/-! ### Acknowledgement (R329, R331) -/

/-- The number nearest a base whose low 16 bits are given (R330); below 0 it stands for no sequence of the session. -/
def nearestInt (base : Nat) (q : W16) : Int :=
  let d := (q - BitVec.ofNat 16 base).toNat
  if d < 0x8000 then base + d else (base : Int) + d - 0x10000

/-- The extended sequence nearest a base. -/
def nearest (base : Nat) (q : W16) : Nat := (nearestInt base q).toNat

/-- Journal entries that a JRNL frame brought to the twin are acknowledged (R348). -/
def ackEntries (s : State) (us : List Unacked) : State :=
  let gone := us.filterMap fun u =>
    if u.frame.ftype = 0x10 then some (BitVec.ofNat 32 (tsAt u.frame 20 4), tsAt u.frame 24 1) else none
  if gone.isEmpty then s
  else
    let acked := fun (e : JEntry) => gone.any fun (q, n) => decide ((e.jseq - q : W32).toNat < n)
    trimTail (setJlag (modTwn s fun t => { t with jout := t.jout.filter fun e => !acked e }))

/-- Frames that wait in any pair, sent as far as credit and buffers reach. -/
def drainAll (s : State) : State :=
  s.twn.pairs.foldl (fun s (k, p) => if p.queue.isEmpty then s else drainPairs s (decide (256 ≤ k)) (k % 256 / 4) (k % 4)) s

/-- ACK and CRLIM of a received frame, or of a CREDIT frame's payload, applied to a pair. -/
def applyAck (s : State) (adp : Bool) (peer cls : Nat) (ack crlim : W16) : State :=
  let p := pairOf s adp peer cls
  let base := (p.unacked.head?.map (·.ext)).getD p.txNext
  let upTo := min (nearest base ack) p.txNext
  let gone := p.unacked.filter fun u => decide (u.ext < upTo)
  let s := modPair s adp peer cls fun p =>
    let p := if newer crlim (p.limit cls) then { p with txLim := some crlim } else p
    if gone.isEmpty then p
    else { p with unacked := p.unacked.filter (fun u => decide (upTo ≤ u.ext)), attempts := 0, backoff := none }
  let s := ackEntries s gone
  let s := if gone.isEmpty then s else (List.finRange 8).foldl fenceEnd ((List.finRange 60).foldl senderCheck s)
  drainAll s

/-! ### Strangers (R334) -/

/-- The causes of R344. -/
inductive Stranger where
  | type | domain | dest | source | auth
  deriving DecidableEq, Repr

def Stranger.code : Stranger → Nat
  | .type => 0 | .domain => 1 | .dest => 2 | .source => 3 | .auth => 4

/-- The number a frame is addressed to: true for the adopted one. -/
def toAdopted (s : State) (f : Frame) : Bool := s.twn.regs.adopted != 0xFF && f.dst == s.twn.regs.adopted

/-- The session recorded for a peer. -/
def sessOf (s : State) (peer : Nat) : Option W16 := smGet none s.twn.sess peer

/-- Where a received frame stands beside the expected sequence of its pair; a newer session starts at 0. -/
def rxPos (s : State) (f : Frame) : Int :=
  let peer := f.src.toNat
  let fresh := match sessOf s peer with
    | some x => newer f.sess x
    | none => false
  nearestInt (if fresh then 0 else (pairOf s (toAdopted s f) peer (fClass f)).rxNext) f.seq

/-- Its extended sequence. -/
def rxExt (s : State) (f : Frame) : Nat := (rxPos s f).toNat

/-- The first check a frame fails. -/
def strangerOf (s : State) (f : Frame) : Option Stranger :=
  let r := s.twn.regs
  let t := f.ftype.toNat
  let peer := f.src.toNat
  let old := match sessOf s peer with
    | some x => newer x f.sess
    | none => false
  let early := r.jstate != .joined && r.jstate != .fenced && t ≠ 0x0E && t ≠ 0x0D
  if typeClass t ≠ some (fClass f) || fClass f = 3 || early then some .type
  else if f.dom ≠ r.domain then some .domain
  else if f.dst ≠ s.glb.inst.setWidth 8 && !toAdopted s f then some .dest
  else if decide (64 ≤ peer) || !bit r.members peer || decide (peer = s.glb.inst.toNat)
      || (takenOver s peer && !fAdp f && !(ownFrame 0x0E 0 f)) || old then some .source
  else if fProt f ≠ r.prot.toNat
      || (r.prot ≠ 0 && (!(vget s.sec.lk (fKsel f)).valid || !tagOk s (rxExt s f) f)) then some .auth
  else none

/-- A stranger counted and captured. -/
def stranger (s : State) (k : Fin 8) (f : Frame) (c : Stranger) : State :=
  let free := !(lk s k).regs.scapV
  let s := modLkR s k fun r =>
    let r := match c with
      | .type => { r with strtype := satAdd r.strtype 1 }
      | .domain => { r with strdom := satAdd r.strdom 1 }
      | .dest => { r with strdst := satAdd r.strdst 1 }
      | .source => { r with strsrc := satAdd r.strsrc 1 }
      | .auth => { r with strauth := satAdd r.strauth 1 }
    if r.scapV then r
    else { r with scapV := true, scapCause := BitVec.ofNat 3 c.code, scapTick := s.pwr.tick.setWidth 32, scapHdr := hdrBytes f }
  if free then raiseInt s srcStranger else s

/-! ### Reception (R328, R330, R335) -/

/-- The WRITE frames of a link whose lines are not all answered, or whose gradients are held unwritten. -/
def openWrites (s : State) (k : Fin 8) : List (Nat × Nat) :=
  ((s.txns.filterMap fun t => match t.why with
      | .served j p e _ => if j = k then some (p, e) else none
      | _ => none)
    ++ (s.shard.map fun x => x.2.held.filterMap fun g => match g.src with
      | some (j, p, e) => if linkOf j = k then some (p, e) else none
      | none => none).flatten).eraseDups

/-- Buffers of a link that hold frames of class D, and those of TILE and PART frames. -/
def buffersUsed (s : State) (k : Fin 8) : Nat := (s.twn.held.filter fun h => h.link = k).length + (openWrites s k).length

def tileBuffers (s : State) (k : Fin 8) : Nat := (s.twn.held.filter fun h => h.link = k ∧ (h.frame.ftype = 1 ∨ h.frame.ftype = 2)).length

/-- Whether a frame finds a free buffer; frames of class V and J leave theirs at once. -/
def bufferFree (s : State) (k : Fin 8) (f : Frame) : Bool :=
  fClass f != 2 || (decide (buffersUsed s k < 40) && !((f.ftype == 1 || f.ftype == 2) && decide (32 ≤ tileBuffers s k)))

/-- A newer SESS of a peer starts its pairs anew and ends its holds (R335, R338). The peer is lost no more; a child stays missing
until its JOIN is accepted (R310, R353). -/
def noteSession (s : State) (f : Frame) : State :=
  let peer := f.src.toNat
  let s' := { s with twn := { s.twn with
      sess := smSet none s.twn.sess peer (some f.sess), lost := if bit s.vrd.regs.vchild peer then s.twn.lost else setBit s.twn.lost peer false } }
  match sessOf s peer with
  | some x => if newer f.sess x then dropHolder (resetPairs s' peer) peer else s
  | none => s'

/-- The code words that FEC could not correct, and the symbols it did: free amounts. -/
def countFec (s : State) (k : Fin 8) : State :=
  let (u, s) := takeFree 32 s
  let (c, s) := takeFree 32 s
  modLkR s k fun r => { r with fecunc := satAdd r.fecunc u.toNat, feccorr := satAdd r.feccorr c.toNat }

/-- What a frame's sequence says (R330). -/
inductive SeqRes where
  | accept (ext : Nat) | drop
  deriving DecidableEq, Repr

/-- The sequence of a frame that is no stranger; `bad` says that it carries a malformed cake (R339). A frame rebuilt after its first
copy had been accepted takes that one's place. -/
def takeSeq (s : State) (k : Fin 8) (f : Frame) (room bad : Bool) : SeqRes × State :=
  let adp := toAdopted s f
  let peer := f.src.toNat
  let cls := fClass f
  let p := pairOf s adp peer cls
  let pos := rxPos s f
  let ext := rxExt s f
  let rebuilt := f.reb ≠ 0 && cls = 2 && p.rxWait.contains ext && !s.twn.held.any fun h => h.peer = peer ∧ h.cls = cls ∧ h.ext = ext
  if pos = p.rxNext then
    if !room then (.drop, sendNack s adp peer cls 1 ext)
    else if bad && f.reb = 0 then (.drop, sendNack s adp peer cls 2 ext)
    else (.accept ext, modPair s adp peer cls fun p => { p with rxNext := ext + 1, nackAt := none, dirty := true })
  else if (p.rxNext : Int) < pos then
    let now := s.pwr.tick.toNat
    let again := match p.nackAt with
      | some t => decide (now < t + (lk s k).regs.rto.toNat)
      | none => false
    if again then (.drop, s)
    else (.drop, sendNack (modPair s adp peer cls fun p => { p with nackAt := some now }) adp peer cls 0 p.rxNext)
  else if rebuilt && room && decide (0 ≤ pos) then (.accept ext, s)
  else (.drop, modPair s adp peer cls fun p => { p with dirty := true })

/-- What a frame's handler gets: the frame with its payload in clear, its sender, its sequence and its link. -/
structure Rx where
  link : Fin 8
  adp  : Bool
  peer : Nat
  ext  : Nat
  frame : Frame
  deriving DecidableEq, Repr

/-- Whether a link brings frames to its receiver in the present state. -/
def linkHears (s : State) (k : Fin 8) : Bool :=
  linkUp s k && !s.wrap.taken && !s.pins.rstLow && (s.pwr.pstate == .active || s.pwr.pstate == .doze)

/-- A frame whose flits were lost or whose FCRC fails, dropped (R326). Lost flits are code words that failed FEC, with others that it
corrected: FECUNC and FECCORR take free amounts (DESIGN CHOICE, log entry 132). -/
def dropFrame (s : State) (k : Fin 8) (lost : Bool) : State :=
  let s := modLkR s k fun r => { r with crcerr := satAdd r.crcerr 1 }
  if lost then countFec s k else s

/-- A routed frame received as the command for frames of type `code` and operation `op`: its checks in order, its
ACK and CRLIM, its sequence, then `act` once it is accepted. `cakes` says whether it carries a malformed cake. -/
def receive (s : State) (k : Fin 8) (f : Frame) (lost : Bool) (code op : Nat) (act : State → Rx → State)
    (cakes : State → Frame → Bool := fun _ _ => false) : State :=
  if otherFrame code op f || !linkHears s k then s
  else if lost || f.fcrc ≠ frameCrc f then dropFrame s k lost
  else
    let room := bufferFree s k f
    let s := if room then s else modLkR s k fun r => { r with noroom := satAdd r.noroom 1 }
    match strangerOf s f with
    | some c => if room then stranger s k f c else s
    | none =>
      let ext := rxExt s f
      let clear := { f with payload := openPayload s ext f }
      let adp := toAdopted s f
      let s := noteSession s f
      let ac := if f.ftype = 0x0C then tsAt f 20 1 else fClass f
      let s := applyAck s adp f.src.toNat ac f.ack f.crlim
      let rx : Rx := { link := k, adp := adp, peer := f.src.toNat, ext := ext, frame := clear }
      let (r, s) := takeSeq s k f room (cakes s clear)
      match r with
      | .accept _ => if ownFrame code op f then act s rx else s
      | .drop => s

/-! ### Frames of class D (R331, R393) -/

/-- A frame stays in its receive buffer. -/
def holdFrame (s : State) (x : Rx) : State :=
  modTwn s fun t => { t with held := t.held ++
    [{ link := x.link, peer := x.peer, cls := fClass x.frame, ext := x.ext, adp := x.adp, frame := x.frame }] }

/-- Whether a frame's ACK waits for its effects (R331): WRITE and PART for their write responses, a frame that carries cakes for
their headers. A TILE frame whose order is not armed yet may carry cakes. -/
def ackWaits (s : State) (f : Frame) : Bool :=
  let rs := armedFor s (BitVec.ofNat 32 (tsAt f 20 4))
  f.ftype == 2 || f.ftype == 4 || (f.ftype == 1 && (rs.isEmpty || rs.any fun x => x.2.dA.isCake))

/-- A class D frame accepted: its effects may be outstanding; in DOZE it waits for the wake, which it starts. -/
def takeD (act : State → Rx → Bool × State) (s : State) (x : Rx) : State :=
  let s := if ackWaits s x.frame then
      modPair s x.adp x.peer 2 fun p => { p with rxWait := p.rxWait.filter (· ≠ x.ext) ++ [x.ext] }
    else s
  let s := wakeEvent s
  if s.pwr.pstate ≠ .active then holdFrame s x
  else
    let (ok, s) := act s x
    if ok then s else holdFrame s x

/-- Remote access windows (R337). -/
def inWindow (s : State) (a n : Nat) : Bool :=
  (List.finRange 4).any fun i =>
    let r := vget s.twn.regs.rw i
    decide (r.base.toNat < r.lim.toNat ∧ r.base.toNat ≤ a ∧ a + n ≤ r.lim.toNat)

/-- The host address a remote access to this instance, or to the adopted number, reaches. -/
def servedAddr (s : State) (adp : Bool) (a : Nat) : Nat := if adp then addr64 (a + s.twn.regs.xoff.toNat) else a

/-- The cakes of a run of gradient bytes that begins with a cake, the last one with what follows it; structural on a bound
of their number. -/
def cakePieces (d : Desc) : Nat → Nat → List Byte → List (Nat × List Byte)
  | 0, _, _ => []
  | n + 1, a, bs =>
    let k := if d.masked then d.maskedSize (min (byteAt bs 2) d.g) else d.slot
    if bs.length ≤ k then [(a, bs)] else (a, bs.take k) :: cakePieces d n (a + k) (bs.drop k)

/-- The pieces of a WRITE into a gradient extent that land: each cake or group once (R283, R284). -/
def writePieces (s : State) (i a : Nat) (bs : List Byte) : List (Nat × List Byte) :=
  let d := (shardOf s i).gd
  if d.isPlain then gradPieces d a bs (bs.length + 1) else cakePieces d (bs.length + 1) a bs

/-- The pieces of a frame land in order; the frame is done with the last one. -/
def landFrame (s : State) (i : Nat) (x : Rx) (ok : Bool) : List (Nat × List Byte) → State
  | [] => landedFrame s x.peer x.ext ok
  | [p] =>
    if landWaits s i then (landGrad s (.lnk x.link) i p.1 p.2 (some (x.link.1, x.peer, x.ext))).2
    else
      let (b, s) := landGrad s (.lnk x.link) i p.1 p.2 none
      landedFrame s x.peer x.ext (ok && b)
  | p :: t =>
    let (b, s) := landGrad s (.lnk x.link) i p.1 p.2 none
    landFrame s i x (ok && b) t

/-- The pieces of bytes that lie in one 128-byte line each (R241); structural on a bound of their number. -/
def linePieces : Nat → Nat → List Byte → List (Nat × List Byte)
  | 0, _, _ => []
  | n + 1, a, bs =>
    let k := 128 - a % 128
    if bs.isEmpty then [] else (a, bs.take k) :: linePieces n (a + k) (bs.drop k)

/-- A served WRITE issued line by line; none where a line finds no credit. -/
def issueServed (s : State) (x : Rx) (a : Nat) (bs : List Byte) : Option State :=
  let r := (lk s x.link).regs
  let sh := some (agentShare r.lshare)
  (linePieces (bs.length / 128 + 2) a bs).foldl (fun o p => o.bind fun s =>
    if creditOk s r.lquad sh then some (issueTxn s r.lquad sh .wr p.1 p.2 (.served x.link x.peer x.ext false)) else none) (some s)

/-- Whether a link finds a credit of its share for an access that it serves (R242, R337). -/
def linkCredit (s : State) (k : Fin 8) : Bool :=
  let r := (lk s k).regs
  creditOk s r.lquad (some (agentShare r.lshare))

/-- WRITE (R337): false while the frame waits for credits or for the page to run. -/
def serveWrite (s : State) (x : Rx) : Bool × State :=
  let a := servedAddr s x.adp (tsAt x.frame 20 8)
  let bs := x.frame.payload
  if !inWindow s a bs.length then
    let s := modLkR s x.link fun r => { r with winerr := satAdd r.winerr 1 }
    (true, sendNack (frameDone s x.peer 2 x.ext) x.adp x.peer 2 3 x.ext)
  else if !goesOn s (.lnk x.link) then (false, s)
  else match gradShardOf s a with
    | some i => (true, landFrame s i x true (writePieces s i a bs))
    | none =>
      if bs.isEmpty then (true, frameDone s x.peer 2 x.ext)
      else match issueServed s x a bs with
        | some t => (true, t)
        | none => (false, s)

/-- RDRSP to a requester: STATUS 0 OK, 1 WINDOW, 2 BRINE. -/
def sendRdrsp (s : State) (x : Rx) (status : Nat) (bs : List Byte) : State :=
  sendVia s none x.adp x.peer 2 6 ((x.frame.tspec.drop 10).take 2 ++ leBytes 1 status) bs

/-- RDREQ (R337). -/
def serveRdreq (s : State) (x : Rx) : Bool × State :=
  let a := servedAddr s x.adp (tsAt x.frame 20 8)
  let n := 16 * tsAt x.frame 28 2
  if !inWindow s a n then (true, sendRdrsp (frameDone s x.peer 2 x.ext) x 1 [])
  else if !goesOn s (.lnk x.link) || !linkCredit s x.link then (false, s)
  else
    let (r, s) := rdHost s a n
    let s := frameDone s x.peer 2 x.ext
    match r with
    | some bs => (true, sendRdrsp s x 0 bs)
    | none => (true, sendRdrsp (recordErr s (.lnk x.link) { cause := cBrine, addr := some a }) x 2 [])

/-- RDRSP (R336): the bytes of a remote read, or its error. -/
def serveRdrsp (s : State) (x : Rx) : Bool × State :=
  let tag := tsAt x.frame 20 2
  let s := frameDone s x.peer 2 x.ext
  match s.twn.rdreqs.find? fun y => y.1 = tag with
  | none => (true, s)
  | some (_, u, n) =>
    let us := (List.range n).map (u + ·)
    let s := modTwn s fun t => { t with rdreqs := t.rdreqs.filter fun y => y.1 ≠ tag }
    if tsAt x.frame 22 1 = 0 then
      (true, { s with rbuf := memPut s.rbuf (16 * u) (fitTo (16 * n) x.frame.payload), rgot := s.rgot ++ us })
    else (true, { s with rfail := s.rfail ++ us })

/-- The logical pan whose running order settles a tag. -/
def settlerOf (s : State) (ptag : W32) : Option (Fin 60 × Run) :=
  (List.finRange 60).findSome? fun l => match (lp s l).run with
    | some r => if r.ord.settle && r.ord.ptag == ptag then some (l, r) else none
    | none => none

/-- PART (R238): false while the link has no credit. The bytes go to the block's slot; the last ones send the notice. Bytes of a tag that no order settles
are dropped. -/
def servePart (s : State) (x : Rx) : Bool × State :=
  let ptag := BitVec.ofNat 32 (tsAt x.frame 20 4)
  let q := tsAt x.frame 24 4
  let o := tsAt x.frame 28 4
  if !linkCredit s x.link then (false, s) else
  let s := frameDone s x.peer 2 x.ext
  match settlerOf s ptag with
  | none => (true, s)
  | some (l, r) =>
    let ord := r.ord
    let kind := if r.chain.irs then 1 else 0
    let a := slotAddr { front := 0, pslots := ord.pslots, parea := ord.parea } ord kind q + o % 2 ^ 31
    if ord.pslots = 0 then (true, s)
    else
      let (ok, s) := wrHost s a x.frame.payload
      if !ok then (true, recordErr s (.lnk x.link) { cause := cBrine, addr := some a, lpan := l.1 })
      else if nbit o 31 then (true, modLp s l fun y => { y with notices := y.notices ++ [(q, none)] })
      else (true, s)

/-- GRANT (R237, R372). -/
def serveGrant (s : State) (x : Rx) : Bool × State :=
  let s := frameDone s x.peer 2 x.ext
  (true, takeGrant s (BitVec.ofNat 32 (tsAt x.frame 20 4))
    { front := tsAt x.frame 24 4, pslots := tsAt x.frame 28 1, parea := leAt x.frame.payload 0 8 })

/-- TILE (R233 to R235): false while no armed order takes the frame. -/
def serveTile (s : State) (x : Rx) : Bool × State := takeTile s x.adp x.peer x.ext x.frame

/-- The owner's side of HOLD (R338): an entry and a slot hold are taken, or the answer is BUSY. -/
def takeHold (s : State) (x : Rx) (i : Nat) (slot : Bool) : State :=
  let h := shardOf s i
  let answer := fun (s : State) (res : Nat) =>
    sendVia s none x.adp x.peer 2 7 (leBytes 4 i ++ [2] ++ leBytes 1 (b2n slot) ++ leBytes 1 res) []
  if h.srec.role ≠ 1 || decide (256 ≤ s.twn.holds.length) || slotHolds s h slot = 255#8 then answer s 1
  else
    let s := modTwn s fun t => { t with holds := t.holds ++ [{ holder := x.peer, shard := i, slot := slot }] }
    let up := fun (b : Byte) => b + 1
    let s := if h.srec.masked then
        modDir s h.srec.mid fun e => if slot then { e with rdrB := up e.rdrB } else { e with rdrA := up e.rdrA }
      else modShard s i fun h => if slot then { h with rdrB := up h.rdrB } else { h with rdrA := up h.rdrA }
    answer s 0

/-- The follower's side: the owner's answer to its HOLD. -/
def holdAnswer (s : State) (peer i : Nat) (slot : Bool) (res : Nat) : State :=
  { s with shard := smMap {} (fun _ h => match h.fetch with
    | some (ws, n, .asked) =>
      if h.srec.owner = peer ∧ recShard ws = i ∧ recSlot ws = slot then
        { h with fetch := if res = 0 then some (ws, n, .held) else none }
      else h
    | _ => h) s.shard }

/-- HOLD (R338). -/
def serveHold (s : State) (x : Rx) : Bool × State :=
  let i := tsAt x.frame 20 4
  let slot := nbit (tsAt x.frame 25 1) 0
  let s := frameDone s x.peer 2 x.ext
  match tsAt x.frame 24 1 with
  | 0 => (true, takeHold s x i slot)
  | 1 => (true, match s.twn.holds.find? fun h => h.holder = x.peer ∧ h.shard = i ∧ h.slot = slot with
      | some h => dropHold s h
      | none => s)
  | 2 => (true, holdAnswer s x.peer i slot (tsAt x.frame 26 1))
  | _ => (true, s)

/-- The effect of a class D frame by its type. -/
def serveD (s : State) (x : Rx) : Bool × State :=
  match x.frame.ftype.toNat with
  | 1 => serveTile s x
  | 2 => servePart s x
  | 3 => serveGrant s x
  | 4 => serveWrite s x
  | 5 => serveRdreq s x
  | 6 => serveRdrsp s x
  | _ => serveHold s x

/-- Frames that stay in their buffers, tried again in the order of their arrival; structural on the frames. -/
def serveHeldList : List HeldFrame → State → State
  | [], s => s
  | h :: t, s =>
    let x : Rx := { link := h.link, adp := h.adp, peer := h.peer, ext := h.ext, frame := h.frame }
    let (ok, u) := serveD s x
    serveHeldList t (if ok then modTwn u fun t => { t with held := t.held.filter (· ≠ h) } else s)

def serveHeld (s : State) : State := if s.pwr.pstate = .active then serveHeldList s.twn.held s else s

/-! ### The commands of class D -/

/-- Whether a WRITE into a gradient extent brings a malformed cake (R339). -/
def writeCakesBad (s : State) (f : Frame) : Bool :=
  let a := servedAddr s (toAdopted s f) (tsAt f 20 8)
  match gradShardOf s a with
  | none => false
  | some i =>
    let d := (shardOf s i).gd
    let o : Opnd := { d := d, cb := if d.format.isCb then codebookCopy s d.cbslot else []
                      ol := if d.nout = 0 then [] else (outlierList d (memBytes s.host (hostAddr s d.side) 256)).getD [] }
    d.isCake && (writePieces s i a f.payload).any fun (a, bs) =>
      (decodeCake o (gradPlace d a).2 (if d.masked then bs.take (d.maskedSize (byteAt bs 2)) else bs)).isNone

/-- The unmasked cakes of an operand that lie whole in a run of bytes: group and bytes. -/
def cakesIn (d : Desc) (a : Nat) (bs : List Byte) : List (Nat × List Byte) :=
  if !d.isCake || d.masked || decide (d.ng = 0 ∨ d.rowstride = 0) then []
  else (List.range (bs.length / 16)).filterMap fun i =>
    let o := a + 16 * i - d.base
    let j := o % d.rowstride / d.slot
    if d.base ≤ a + 16 * i ∧ o / d.rowstride < d.rows ∧ o % d.rowstride % d.slot = 0 ∧ j < d.ng ∧ 16 * i + d.slot ≤ bs.length then
      some (j, (bs.drop (16 * i)).take d.slot)
    else none

/-- Whether an RDRSP brings a malformed cake of an operand that a pan's running order reads from the aperture (R339). -/
def rdrspCakesBad (s : State) (f : Frame) : Bool :=
  match s.twn.rdreqs.find? fun y => y.1 = tsAt f 20 2 with
  | none => false
  | some (_, u, n) =>
    tsAt f 22 1 = 0 && (List.finRange 60).any fun l => match (lp s l).run with
      | none => false
      | some r =>
        [({ d := r.dA, cb := r.cbA, ol := r.olA } : Opnd), { d := r.dB, cb := r.cbB, ol := r.olB },
         { d := r.dV, cb := r.cbV, ol := r.olV }].any fun o =>
          (cakesIn o.d (16 * u) (fitTo (16 * n) f.payload)).any fun (j, bs) => (decodeCake o j bs).isNone

/-- TILE. -/
def execTile (k : Fin 8) (f : Frame) (lost : Bool) (s : State) : Host.Outcome State Fault Refusal :=
  .next (command [] s fun s => receive s k f lost 1 0 (takeD serveTile) (cakes := tileCakesBad))
/-- PART. -/
def execPart (k : Fin 8) (f : Frame) (lost : Bool) (bad : List Nat) (s : State) : Host.Outcome State Fault Refusal :=
  .next (command bad s fun s => receive s k f lost 2 0 (takeD servePart))
/-- GRANT. -/
def execGrant (k : Fin 8) (f : Frame) (lost : Bool) (bad : List Nat) (s : State) : Host.Outcome State Fault Refusal :=
  .next (command bad s fun s => receive s k f lost 3 0 (takeD serveGrant))
/-- WRITE. -/
def execWrite (k : Fin 8) (f : Frame) (lost : Bool) (bad : List Nat) (s : State) : Host.Outcome State Fault Refusal :=
  .next (command bad s fun s => receive s k f lost 4 0 (takeD serveWrite) (cakes := writeCakesBad))
/-- RDREQ. -/
def execRdreq (k : Fin 8) (f : Frame) (lost : Bool) (bad : List Nat) (s : State) : Host.Outcome State Fault Refusal :=
  .next (command bad s fun s => receive s k f lost 5 0 (takeD serveRdreq))
/-- RDRSP. -/
def execRdrsp (k : Fin 8) (f : Frame) (lost : Bool) (s : State) : Host.Outcome State Fault Refusal :=
  .next (command [] s fun s => receive s k f lost 6 0 (takeD serveRdrsp) (cakes := rdrspCakesBad))
/-- HOLD. -/
def execHold (k : Fin 8) (f : Frame) (lost : Bool) (s : State) : Host.Outcome State Fault Refusal :=
  .next (command [] s fun s => receive s k f lost 7 0 (takeD serveHold))

/-- TWUNCLAIMED (R235): a TILE frame has stayed in its link's buffer for 25,000 ticks. -/
def execTwunclaimed (k : Fin 8) (s : State) : Host.Outcome State Fault Refusal :=
  .next (if s.twn.held.any fun h => h.link = k ∧ h.frame.ftype = 1 then modLkR s k fun r => { r with twunclaimed := true } else s)

/-! ### Verdict frames, CREDIT and NACK -/

/-- VUP (R306, R309). -/
def execVup (k : Fin 8) (f : Frame) (lost : Bool) (s : State) : Host.Outcome State Fault Refusal :=
  .next (command [] s fun s => receive s k f lost 8 0 fun s x => takeVup s x.peer (VMsg.ofFrame x.frame))
/-- VDN (R307, R309). -/
def execVdn (k : Fin 8) (f : Frame) (lost : Bool) (s : State) : Host.Outcome State Fault Refusal :=
  .next (command [] s fun s => receive s k f lost 9 0 fun s x => takeVdn s x.peer (VMsg.ofFrame x.frame))
/-- VACK (R307, R309). -/
def execVack (k : Fin 8) (f : Frame) (lost : Bool) (s : State) : Host.Outcome State Fault Refusal :=
  .next (command [] s fun s => receive s k f lost 0x0A 0 fun s x => takeVack s x.peer (BitVec.ofNat 32 (tsAt x.frame 20 4)))

/-- CREDIT (R331): ACK and CRLIM of the three classes. -/
def takeCredit (s : State) (x : Rx) : State :=
  let w := fun (i : Nat) => BitVec.ofNat 16 (leAt x.frame.payload (2 * i) 2)
  let s := applyAck s x.adp x.peer 0 (w 0) (w 1)
  let s := applyAck s x.adp x.peer 1 (w 2) (w 3)
  applyAck s x.adp x.peer 2 (w 4) (w 5)

def execCredit (k : Fin 8) (f : Frame) (lost : Bool) (s : State) : Host.Outcome State Fault Refusal :=
  .next (command [] s fun s => receive s k f lost 0x0B 0 takeCredit)

/-- A frame rebuilt from its source with REB = 1 (R339). -/
def rebuild (s : State) (adp : Bool) (peer cls eseq : Nat) : State :=
  modPair s adp peer cls fun p => { p with unacked := p.unacked.map fun u =>
    if u.ext % 65536 = eseq then
      { u with frame := protect s u.ext { u.frame with reb := 1, payload := pad64 u.plain } }
    else u }

/-- The unacknowledged frame that a NACK names, as it stands before the NACK's own ACK is applied. -/
def nackedFrame (s : State) (f : Frame) : Option Unacked :=
  (pairOf s (toAdopted s f) f.src.toNat (tsAt f 20 1)).unacked.find? fun u => u.ext % 65536 = tsAt f 24 2

/-- NACK (R330, R332, R337, R339). WINDOW and BRINE end a remote write with an error response to the unit that made it. The
code 4 of BRINE is the model's, as R327 lists none (DESIGN CHOICE, log entry 83). -/
def takeNack (named : Option Unacked) (s : State) (x : Rx) : State :=
  let cls := tsAt x.frame 20 1
  let reason := tsAt x.frame 21 1
  let eseq := tsAt x.frame 24 2
  if reason = 3 ∨ reason = 4 then
    match named with
    | none => recordErr s (.lnk x.link) { cause := cBrine }
    | some u =>
      let w := writeOf s x.peer u.who u.frame.tspec
      remoteError s w.1 x.link w.2
  else match (pairOf s x.adp x.peer cls).unacked.find? fun u => u.ext % 65536 = eseq with
  | none => s
  | some u =>
    if 2 < reason then s
    else
      let s := if reason = 2 then rebuild s x.adp x.peer cls eseq else s
      startRound s x.adp x.peer cls u.ext

def execNack (k : Fin 8) (f : Frame) (lost : Bool) (s : State) : Host.Outcome State Fault Refusal :=
  .next (command [] s fun s => receive s k f lost 0x0C 0 (takeNack (nackedFrame s f)))

/-- CREDIT_TIMER (R331): no frame has carried a changed ACK or CRLIM for 4 ticks. -/
def creditNow (s : State) (adp : Bool) (peer : Nat) : State :=
  let f := fun (c : Nat) =>
    let p := pairOf s adp peer c
    leBytes 2 p.ack ++ leBytes 2 (grantLim s peer c p)
  let s := sendVia s none adp peer 0 0x0B [] (f 0 ++ f 1 ++ f 2)
  (List.range 3).foldl (fun s c => modPair s adp peer c fun p => { p with dirty := false }) s

def execCreditTimer (peer : Fin 64) (cls : Fin 3) (s : State) : Host.Outcome State Fault Refusal :=
  .next (match pairWith s peer.1 cls.1 fun p => p.dirty with
    | some adp => creditNow s adp peer.1
    | none => s)

/-! ### Probing (R342) -/

/-- A PROBE frame on a link. Without credit in class V none leaves (R329); the next one is tried when its time comes (DEDUCED, log
entry 130). -/
def sendProbe (s : State) (adp : Bool) (peer : Nat) (k : Fin 8) (op : Nat) : State :=
  if maySend s adp peer 0 (some k) then sendNow s adp peer 0 k 0x0D (leBytes 1 op ++ leBytes 1 k.1) [] else s

/-- The route moves to its alternate link, and unacknowledged frames are resent there. -/
def reroute (s : State) (peer : Fin 64) : State :=
  let r := vget s.twn.regs.route peer
  match routeAlt r with
  | none => s
  | some k =>
    let old := routeLink r
    let s := modTwnR s fun t => { t with route := vset t.route peer (BitVec.ofNat 8 (r.toNat / 16 * 16 + 8 + k.1)) }
    let s := modTwn s fun t =>
      { t with probing := setBit t.probing peer.1 false, noRoute := setBit t.noRoute peer.1 false
               pairs := t.pairs.map fun (i, p) =>
                if i % 256 / 4 = peer.1 then
                  (i, { p with unacked := p.unacked.map fun u => { u with link := k }, backoff := none, attempts := 0
                               queue := p.queue.map fun q => if q.link = old then { q with link := none } else q })
                else (i, p) }
    let s := s.twn.pairs.foldl (fun s (i, p) => if i % 256 / 4 = peer.1 then resend s peer.1 p.unacked else s) s
    drainAll s

/-- PROBE: a question is answered on the link it came by; an answer moves the route. -/
def takeProbe (s : State) (x : Rx) : State :=
  if tsAt x.frame 20 1 = 0 then sendProbe s x.adp x.peer x.link 1
  else if h : x.peer < 64 then (if bit s.twn.probing x.peer then reroute s ⟨x.peer, h⟩ else s) else s

def execProbe (k : Fin 8) (f : Frame) (lost : Bool) (s : State) : Host.Outcome State Fault Refusal :=
  .next (command [] s fun s => receive s k f lost 0x0D 0 takeProbe)

/-- PROBE_TIMER (R342): the next PROBE of a route whose link is DOWN. -/
def execProbeTimer (peer : Fin 64) (s : State) : Host.Outcome State Fault Refusal :=
  .next (match bit s.twn.probing peer.1, routeAlt (vget s.twn.regs.route peer) with
    | true, some k => sendProbe s false peer.1 k 0
    | _, _ => s)

/-- ROUTE_FAIL (R342, R343): no answer within 4,500,000 ticks. -/
def execRouteFail (peer : Fin 64) (s : State) : Host.Outcome State Fault Refusal :=
  .next (if bit s.twn.probing peer.1 then command [] s (peerLost · peer.1) else s)

/-! ### Lanes and training (R323, R340 to R342) -/

/-- LANE_FAIL (R340): a lane of the direction this end receives is marked failed and, where it can be, spared. The switch count is
the code word count, a free value, + 64 (R341). -/
def laneFail (s : State) (k : Fin 8) (lane : Fin 9) : State :=
  let x := lk s k
  let s := modLkR s k fun r => { r with lanefail := setBit r.lanefail lane.1 true }
  let s := recordErr s (.lnk k) { cause := cLane, detail := lane.1 }
  let s := countFec s k
  if x.regs.lstate.toNat < 2 then s
  else if lane.1 = 8 ∨ x.rxSpared.isSome ∨ x.rxSpare.isSome then linkDown s k
  else
    let (c, s) := takeFree 16 s
    let n := c + 64
    let s := modLk s k fun y => { y with rxSpare := some { lane := lane, n := n.toNat, ph := .sent }, regs := { y.regs with lstate := 3 } }
    sendLctl s k 0 lane.1 n.toNat

def execLaneFail (k : Fin 8) (lane : Fin 9) (s : State) : Host.Outcome State Fault Refusal :=
  .next (if s.wrap.taken then s else laneFail s k lane)

/-- An LCTL frame: outside sequences and the checks of R334. -/
def receiveLctl (s : State) (k : Fin 8) (f : Frame) (lost : Bool) (op : Nat) (act : State → State) : State :=
  if otherFrame 0x12 op f || !linkHears s k then s
  else if lost || f.fcrc ≠ frameCrc f then dropFrame s k lost
  else if !ownFrame 0x12 op f then s
  else act s

/-- SPARE: the partner names a lane that fails in the direction this end transmits. Its later copies change nothing. -/
def execSpare (k : Fin 8) (f : Frame) (lost : Bool) (s : State) : Host.Outcome State Fault Refusal :=
  .next (receiveLctl s k f lost 0 fun s =>
    let lane : Fin 9 := ⟨tsAt f 21 1 % 9, by omega⟩
    if (lk s k).txSpare.isSome || (lk s k).txSpared == some lane then s
    else
      let s := modLk s k fun y =>
        { y with txSpare := some { lane := lane, n := tsAt f 22 2, ph := .acked }, regs := { y.regs with lstate := 3 } }
      sendLctl s k 1 lane.1 (tsAt f 22 2))

/-- SPAREACK: the partner has taken the switch count. -/
def execSpareack (k : Fin 8) (f : Frame) (lost : Bool) (s : State) : Host.Outcome State Fault Refusal :=
  .next (receiveLctl s k f lost 1 fun s =>
    modLk s k fun y => { y with rxSpare := y.rxSpare.map fun z => if z.ph = .sent then { z with ph := .acked } else z })

/-- Whether a direction's sparing stands at a phase. -/
def spareAt (ph : SparePh) (z : Option SpareRun) : Bool := z.any fun z => z.ph == ph

/-- SPARE_SWITCH: code word N has come; lane 8 takes the failed lane's place. Where both directions wait for theirs, the received
one comes first (DEDUCED, log entry 133). -/
def execSpareSwitch (k : Fin 8) (s : State) : Host.Outcome State Fault Refusal :=
  let switched := fun (z : SpareRun) => ({ z with ph := .switched } : SpareRun)
  .next (modLk s k fun y =>
    if spareAt .acked y.rxSpare then { y with rxSpare := y.rxSpare.map switched, rxSpared := y.rxSpare.map (·.lane) }
    else if spareAt .acked y.txSpare then { y with txSpare := y.txSpare.map switched, txSpared := y.txSpare.map (·.lane) }
    else y)

/-- A sparing ends: SPARED names its lane, and the link is UP once neither direction spares. -/
def spareEnd (y : Lnk) (z : Option SpareRun) : Lnk :=
  { y with regs := { y.regs with
      lstate := if y.rxSpare.isNone && y.txSpare.isNone then 2 else y.regs.lstate
      spared := (z.map fun z => BitVec.ofNat 4 z.lane.1).getD y.regs.spared } }

/-- DESKEW_DONE: a switched direction is ready. -/
def execDeskewDone (k : Fin 8) (s : State) : Host.Outcome State Fault Refusal :=
  .next (modLk s k fun y =>
    if spareAt .switched y.rxSpare then spareEnd { y with rxSpare := none } y.rxSpare
    else if spareAt .switched y.txSpare then spareEnd { y with txSpare := none } y.txSpare
    else y)

/-- SPAREACK_TIMEOUT (R342): no SPAREACK within 625 ticks. -/
def execSpareackTimeout (k : Fin 8) (s : State) : Host.Outcome State Fault Refusal :=
  .next (if spareAt .sent (lk s k).rxSpare then linkDown s k else s)

/-- Training starts (R323). -/
def startTraining (s : State) (k : Fin 8) : State :=
  modLk s k fun y => { regs := { y.regs with lstate := 1, ltrain := true } }

/-- LTRAIN starts training; of an isolated or bypassed link it is dropped (R501). -/
def ltrain (s : State) (k : Fin 8) : State :=
  if (hdr s (.lnk k)).mode = .isolated then dropOk s (.lnk k) 0x40 .state else startTraining s k

/-- LTRAIN (R323). -/
def execLtrain (k : Fin 8) (s : State) : Host.Outcome State Fault Refusal := cpWrite s (.lnk k) (ltrain · k)

/-- Training ends, of a link that LTRAIN or its own loss has put into training. -/
def trainDone (s : State) (k : Fin 8) (lanes : BitVec 9) (up : Bool) : State :=
  if 2 ≤ (lk s k).regs.lstate.toNat then s
  else if up then
    drainAll (modLk s k fun y => { regs := { y.regs with lstate := 2, ltrain := false, laneok := lanes, spared := 0xF } })
  else linkDown (modLkR s k fun r => { r with laneok := lanes }) k

end Sys2Proof.Machine
end

