-- ==== Sys2Proof/Machine/Cascade.lean ====
section
/-! DEFINITION. Cascade domains and twins: joining, reparenting, the journal's mirror, takeover and release
(spec/12_thrumow_links_and_cascade.md R345 to R354; spec/15 R411, R417 to R419; spec/16 R450). -/

namespace Sys2Proof.Machine

/-! ### Joining (R345, R418) -/

/-- The lifecycle states of R410. -/
def lcsBlank : BitVec 2 := 0
def lcsDev : BitVec 2 := 1
def lcsProd : BitVec 2 := 2
def lcsRma : BitVec 2 := 3

/-- PROT values a lifecycle permits (R411). -/
def protOk (lcs : BitVec 2) (p : Nat) : Bool :=
  if lcs = lcsDev then decide (p ≤ 2) else if lcs = lcsProd then p == 1 || p == 2 else p == 0

/-- JERR codes (R354, R418), which are also the CAUSE of a REFUSE. -/
def jNotChild : Nat := 1
def jSize : Nat := 2
def jTaken : Nat := 3
def jSession : Nat := 4
def jKey : Nat := 5

/-- A JOIN frame: OP 0 REQ, 1 DONE, 2 REFUSE, 3 REPARENT (R327). -/
def sendJoin (s : State) (via : Option (Fin 8)) (peer op cause vsub : Nat) (step : W32) : State :=
  sendV s via peer 0x0E (leBytes 1 op ++ leBytes 1 cause ++ leBytes 1 vsub ++ [0] ++ leBytes 4 step.toNat)

/-- A refused JOIN: BSTAGE stays CONFIG and BOOT becomes pending (R454). -/
def joinRefused (s : State) (err : Nat) : State :=
  raiseInt (modTwnR s fun r => { r with jstate := .refused, jerr := BitVec.ofNat 4 err }) srcBoot

/-- The instance is JOINED: READY follows CONFIG (R450), and DONE goes to every child with the open step. -/
def becomeJoined (s : State) (step : W32) : State :=
  let s := modTwn s fun t => { t with rejoin := false, regs := { t.regs with jstate := .joined, jerr := 0 } }
  let s := modVrdR s fun v => { v with vstep := step }
  let s := if s.glb.bstage = 7 then raiseInt (modGlb s fun g => { g with bstage := 8 }) srcBoot else s
  (children s).foldl (fun s c => sendJoin s none c 1 0 0 step) s

/-- VSUB of the subtree that the received REQs describe. -/
def subtreeSize (s : State) : Nat := 1 + (((children s).filterMap fun c => (s.twn.reqs.find? fun x => x.1 = c).map Prod.snd)).sum

/-- Whether every child has sent its REQ. -/
def allReqs (s : State) : Bool := (children s).all fun c => s.twn.reqs.any fun x => x.1 = c

/-- The number of instances the subtree must have. -/
def wantedSize (s : State) : Nat := if isMaster s then s.vrd.regs.vsize.toNat else s.vrd.regs.vsub.toNat

/-- A child refused, and forgotten. -/
def refuseChild (s : State) (peer cause : Nat) : State :=
  sendJoin (modTwn s fun t => { t with reqs := t.reqs.filter fun x => x.1 ≠ peer }) none peer 2 cause 0 0

/-- A JOINING instance whose children have all sent REQ goes on: up the tree, or to JOINED at the master. One that joins again after
a warm reset goes on at once: its children are JOINED and send none (R345; DEDUCED, log entry 135). -/
def joinStep (s : State) : State :=
  if s.twn.regs.jstate ≠ .joining || !(allReqs s || s.twn.rejoin) then s
  else if subtreeSize s ≠ wantedSize s && !s.twn.rejoin then
    match (s.twn.reqs.filter fun x => (children s).contains x.1).getLast? with
    | some x => refuseChild s x.1 jSize
    | none => joinRefused s jSize
  else if isMaster s then becomeJoined s s.vrd.regs.vstep
  else sendJoin s (some s.vrd.regs.vplink) s.vrd.regs.vparent.toNat 0 0 s.vrd.regs.vsub.toNat 0

/-- Every pair, session record and buffered frame of the old session gone (R335). -/
def newSession (s : State) (x : W16) : State :=
  modTwn s fun t => { t with pairs := [], held := [], sess := [], rdreqs := [], probing := 0, lost := 0
                             regs := { t.regs with session := x, jstate := .joining, jerr := 0 } }

/-- JCMD JOIN. -/
def joinCommand (s : State) : State :=
  let r := s.twn.regs
  let slot := vget s.sec.lk s.sec.txksel
  let next := r.session + 1
  if r.jstate = .joining || r.jstate = .joined || (r.jstate = .fenced && !s.twn.rejoin) || pageState s .vrd == .stopped then
    dropOk s .twn 0x54 .state
  else if !protOk s.sec.lcs r.prot.toNat || (r.prot ≠ 0 && !slot.valid) then joinRefused s jKey
  else if r.prot ≠ 0 && next = slot.ksess0 then joinRefused s jSession
  else joinStep (newSession s next)

/-- JOIN (R345). -/
def execJoin (s : State) : Host.Outcome State Fault Refusal := cpWrite s .twn joinCommand

/-- JCMD LEAVE. -/
def leaveCommand (s : State) : State :=
  if s.twn.regs.jstate ≠ .joined then dropOk s .twn 0x54 .state
  else
    let s := modTwnR s fun r => { r with jstate := .idle }
    modGlb s fun g => { g with bstage := if g.bstage = 8 then 7 else g.bstage }

/-- LEAVE (R354, R450). -/
def execLeave (s : State) : Host.Outcome State Fault Refusal := cpWrite s .twn leaveCommand

/-- A REQ at the parent. -/
def takeReq (s : State) (peer vsub : Nat) : State :=
  if takenOver s peer then sendJoin s none peer 2 jTaken 0 0
  else if !bit s.vrd.regs.vchild peer then sendJoin s none peer 2 jNotChild 0 0
  else
    let s := modTwn s fun t =>
      { t with reqs := (t.reqs.filter fun x => x.1 ≠ peer) ++ [(peer, vsub)], lost := setBit t.lost peer false }
    if s.twn.regs.jstate = .joined then
      if allReqs s && decide (subtreeSize s ≠ wantedSize s) then refuseChild s peer jSize
      else sendJoin s none peer 1 0 0 s.vrd.regs.vstep
    else if s.twn.rejoin then s
    else joinStep s

/-- JOIN_REQ (R345). -/
def execJoinReq (k : Fin 8) (f : Frame) (lost : Bool) (s : State) : Host.Outcome State Fault Refusal :=
  .next (command [] s fun s => receive s k f lost 0x0E 0 fun s x => takeReq s x.peer (tsAt x.frame 22 1))

/-- A DONE: from the parent it makes the instance JOINED; from the alternate parent it moves the instance there (R346), and its VUP
for the open step is sent again (R310). -/
def takeDone (s : State) (peer : Nat) (step : W32) : State :=
  let r := s.twn.regs
  if r.jstate = .joining then (if s.vrd.regs.vparent.toNat = peer then becomeJoined s step else s)
  else if r.jstate = .joined && r.valtp.toNat = peer
      && (bit s.twn.lost s.vrd.regs.vparent.toNat || takenOver s s.vrd.regs.vparent.toNat) then
    let s := modVrd s fun v => { v with upSent := false, regs := { v.regs with vparent := r.valtp, vplink := r.valtl } }
    tryVerdict (modTwnR s fun t => { t with valtp := 0xFF })
  else s

/-- JOIN_DONE (R345, R346). -/
def execJoinDone (k : Fin 8) (f : Frame) (lost : Bool) (s : State) : Host.Outcome State Fault Refusal :=
  .next (command [] s fun s => receive s k f lost 0x0E 1 fun s x => takeDone s x.peer (BitVec.ofNat 32 (tsAt x.frame 24 4)))

/-- JOIN_REFUSE (R345). -/
def execJoinRefuse (k : Fin 8) (f : Frame) (lost : Bool) (s : State) : Host.Outcome State Fault Refusal :=
  .next (command [] s fun s => receive s k f lost 0x0E 2 fun s x =>
    if s.twn.regs.jstate = .joining && s.vrd.regs.vparent.toNat = x.peer then joinRefused s (tsAt x.frame 21 1) else s)

/-- JOIN_REPARENT (R346): the alternate parent takes the child. -/
def execJoinReparent (k : Fin 8) (f : Frame) (lost : Bool) (s : State) : Host.Outcome State Fault Refusal :=
  .next (command [] s fun s => receive s k f lost 0x0E 3 fun s x =>
    if s.twn.regs.jstate ≠ .joined then s
    else sendJoin (modVrdR s fun v => { v with vchild := setBit v.vchild x.peer true }) (some k) x.peer 1 0 0 s.vrd.regs.vstep)

/-! ### The twin's mirror (R348, R349) -/

/-- The copy of the history mirror that is not valid. -/
def mirrorNext (s : State) : Bool := match s.twn.mirror with
  | some b => !b
  | none => false

/-- Reservoir offset of a mirror copy. -/
def mirrorOff (b : Bool) : Nat := if b then 0x600000 else 0x500000

/-- The twin's PEND set: one bit for a shard, and the step they belong to. -/
def pendOff : Nat := 0x741000
def pendBit (s : State) (i : Nat) : Bool := nbit (leNat (resBytes s (pendOff + i / 8) 1)) (i % 8)
def pendStep (s : State) : W32 := BitVec.ofNat 32 (leNat (resBytes s (pendOff + 1024) 4))
def setPend (s : State) (i : Nat) (b : Bool) : State :=
  let x := (resBytes s (pendOff + i / 8) 1).headD 0
  resPut s (pendOff + i / 8) [setBit x (i % 8) b]

/-- The set emptied. -/
def clearPend (s : State) : State := { s with res := s.res.filter fun x => x.1 < pendOff ∨ pendOff + 1024 ≤ x.1 }

/-- An entry of the twin's journal applied. -/
def applyEntry (s : State) (e : List Byte) : State :=
  let x : JEntry := { jseq := BitVec.ofNat 32 (leAt e 4 4), bytes := e }
  let i := x.index
  match x.kind with
  | 1 => resPut s 0x740000 e
  | 2 =>
    let s := if newer x.step (pendStep s) then clearPend s else s
    if i < 8192 then setPend (resPut s (pendOff + 1024) (leBytes 4 x.step.toNat)) i true else s
  | 3 =>
    let s := resPut s (0x740080 + 128 * (x.step.toNat % 16)) e
    if newer x.step (pendStep s) then clearPend s else s
  | 4 => if i < 8192 then setPend s i false else s
  | 5 => if i < 4096 then resPut s (0x700000 + 64 * i) (x.body.take 64) else s
  | 6 => modTwn s fun t => { t with mirror := some (mirrorNext s), mirrorBlk := 0 }
  | 7 => modTwn s fun t => { t with twinFinal := true }
  | _ => s

/-- The entries of a JRNL frame, in order; structural on their number. -/
def applyEntries : Nat → State → List Byte → State
  | 0, s, _ => s
  | n + 1, s, bs => applyEntries n (applyEntry s (fitTo 128 bs)) (bs.drop 128)

/-- A JRNL frame of the twin: entries, or one history block. -/
def takeJrnl (s : State) (x : Rx) : State :=
  let r := s.twn.regs
  if !r.twen || x.peer ≠ r.twin.toNat then s
  else
    let n := tsAt x.frame 24 1
    if n = 0 then
      let b := tsAt x.frame 25 2
      if 256 ≤ b then s
      else modTwn (resPut s (mirrorOff (mirrorNext s) + 4096 * b) (fitTo 4096 x.frame.payload)) fun t => { t with mirrorBlk := t.mirrorBlk + 1 }
    else
      let s := modTwn s fun t => { t with jin := BitVec.ofNat 32 (tsAt x.frame 20 4 + min n 32) }
      applyEntries (min n 32) s x.frame.payload

/-- JRNL (R348, R349). -/
def execJrnl (k : Fin 8) (f : Frame) (lost : Bool) (s : State) : Host.Outcome State Fault Refusal :=
  .next (command [] s fun s => receive s k f lost 0x10 0 takeJrnl)

/-- HBEAT (R351): the twin's state. -/
def execHbeat (k : Fin 8) (f : Frame) (lost : Bool) (s : State) : Host.Outcome State Fault Refusal :=
  .next (command [] s fun s => receive s k f lost 0x11 0 fun s x =>
    if !s.twn.regs.twen || x.peer ≠ s.twn.regs.twin.toNat then s
    else modTwn s fun t => match tsAt x.frame 24 1 with
      | 0 => { t with twinFinal := false, twinPfail := false }
      | 1 => { t with twinPfail := true }
      | 2 => { t with twinFinal := true }
      | _ => t)

/-! ### Takeover (R352) -/

/-- A TAKEOVER frame: OP 0 ANNOUNCE, 1 ANSWER, 2 RELEASE. -/
def sendTakeover (s : State) (peer num op : Nat) : State := sendV s none peer 0x0F (leBytes 1 num ++ leBytes 1 op)

/-- Members that must answer about a number. -/
def answerers (s : State) (num : Nat) : List Nat := (otherMembers s).filter fun i => i ≠ num ∧ !bit s.twn.lost i

def maskOf (ls : List Nat) : W64 := ls.foldl (fun m i => setBit m i true) 0

/-- The twin is declared lost: step 1 of R352. -/
def startTakeover (s : State) : State :=
  let r := s.twn.regs
  let num := r.twin.toNat
  if r.jstate ≠ .joined || !r.twen || r.tkstate ≠ .none then s
  else
    let s := recordErr s .twn { cause := cTwinlost, detail := num }
    let who := answerers s num
    let s := modTwn s fun t =>
      { t with tkNum := some num, tkShards := [], tkDirs := [], tkWork := false, await := maskOf who, releasing := false
               regs := { t.regs with tkstate := .adopting } }
    -- the number is the instance's own to answer for from here on
    let s := dropHolder (resetPairs s num) num
    let s := modTwn s fun t => { t with sess := smSet none t.sess num none }
    who.foldl (fun s p => sendTakeover s p num 0) s

/-- TKWAIT_EXPIRY (R351): the twin has been silent for TKWAIT ticks. -/
def execTkwaitExpiry (s : State) : Host.Outcome State Fault Refusal := .next (command [] s startTakeover)

/-- FINAL_SILENCE (R351): a twin that has sent FINAL has been silent for 2 × HBPER ticks. -/
def execFinalSilence (s : State) : Host.Outcome State Fault Refusal :=
  .next (if s.twn.twinFinal then command [] s startTakeover else s)

/-- SFWAIT_EXPIRY (R351): no frame from any member for SFWAIT ticks. -/
def execSfwaitExpiry (s : State) : Host.Outcome State Fault Refusal :=
  .next (if s.twn.regs.jstate = .joined && !(otherMembers s).isEmpty then enterFenced s else s)

/-- The condition on a number that another member has adopted begins anew: its pairs, session and holds are gone. -/
def forgetNumber (s : State) (num : Nat) : State :=
  let s := dropHolder (resetPairs s num) num
  modTwn s fun t => { t with sess := smSet none t.sess num none, lost := setBit t.lost num false }

/-- ANNOUNCE: step 2 of R352. -/
def takeAnnounce (s : State) (x : Rx) : State :=
  let num := tsAt x.frame 20 1
  let route := routeOf s x.peer
  let s := forgetNumber s num
  let s := if h : num < 64 then modTwnR s fun r => { r with route := vset r.route ⟨num, h⟩ route } else s
  let s := modTwn s fun t => { t with adoptedBy := (t.adoptedBy.filter fun y => y.1 ≠ num) ++ [(num, x.peer)] }
  sendTakeover s x.peer num 1

/-- TAKEOVER_ANNOUNCE. -/
def execTakeoverAnnounce (k : Fin 8) (f : Frame) (lost : Bool) (s : State) : Host.Outcome State Fault Refusal :=
  .next (command [] s fun s => receive s k f lost 0x0F 0 takeAnnounce)

/-- TAKEOVER_ANSWER. -/
def execTakeoverAnswer (k : Fin 8) (f : Frame) (lost : Bool) (s : State) : Host.Outcome State Fault Refusal :=
  .next (command [] s fun s => receive s k f lost 0x0F 1 fun s x => modTwn s fun t => { t with await := setBit t.await x.peer false })

/-- TAKEOVER_RELEASE: step 4 of R353. The number is missing until its instance joins (R310). -/
def execTakeoverRelease (k : Fin 8) (f : Frame) (lost : Bool) (s : State) : Host.Outcome State Fault Refusal :=
  .next (command [] s fun s => receive s k f lost 0x0F 2 fun s x =>
    let num := tsAt x.frame 20 1
    let s := forgetNumber (modTwn s fun t => { t with adoptedBy := t.adoptedBy.filter fun y => y.1 ≠ num }) num
    let s := modTwn s fun t => { t with lost := setBit t.lost num true }
    sendTakeover s x.peer num 1)

/-- TAKEOVER_TIMEOUT (R352, R353): a member has not answered within 200 ms; it is handled as lost. -/
def execTakeoverTimeout (peer : Fin 64) (s : State) : Host.Outcome State Fault Refusal :=
  .next (if bit s.twn.await peer.1 then
      command [] s fun s => modTwn (peerLost s peer.1) fun t => { t with await := setBit t.await peer.1 false }
    else s)

/-- A record of the lost instance with its addresses as the adopting instance reaches them. -/
def adoptRecord (xoff : Nat) (b : List Byte) : List Byte :=
  let m := fun (o : Nat) => let a := leAt b o 8; leBytes 8 (if a = 0 then 0 else addr64 (a + xoff))
  b.take 8 ++ m 8 ++ m 16 ++ m 24 ++ m 32 ++ m 40 ++ m 48 ++ b.drop 56

/-- What step 3 reads of one record: its bytes for the own table and its shard entry. -/
def ioAdopt (s : State) (base i : Nat) : Io (Option (Nat × List Byte × Shard × List W32)) := do
  let xoff := s.twn.regs.xoff.toNat
  let b ← ioRead (addr64 (xoff + base + 128 * i)) 128
  if byteAt b 0 = 0 then return none
  else
    let c := adoptRecord xoff b
    let r := { recordOf c with xoff := xoff }
    let blk ← ioSlotOf r
    let gd ← if r.role = 1 then do pure ((← ioDesc r.gdesc).shift xoff) else pure {}
    let ws := recWords (← ioRead r.crec 64)
    let slot := recSlot ws
    let w := blk.getD (4 * b2n slot) {}
    let nel ← if r.masked then do
        let rows ← ioRows w
        pure ((rows.map fun r => (r.grps.map fun g => g.count).sum).sum)
      else pure (w.rows * w.klen)
    return some (i, c, { srec := r, gd := gd, cep := recEpoch ws, slot := slot, nel := BitVec.ofNat 32 nel
                         gexp := BitVec.ofNat 32 (if r.role = 1 then gd.rows * gd.ng else 0) }, ws)

/-- Whether the verdict of a step is COMMIT (step 4): in the mirror, or in the instance's own verdict log, which holds the answer to
a VUP for that step (R309). -/
def heldCommit (s : State) (step : W32) : Bool :=
  let e := resBytes s (0x740080 + 128 * (step.toNat % 16)) 128
  (byteAt e 0 = 3 && leAt e 8 4 = step.toNat && nbit (byteAt e 16) 0) || ((logOf_ s step).map (·.commit)).getD false

/-- A commit record written on the reserved credits of the block's own port (R21). -/
def wrRecord (s : State) (a : Nat) (ws : List W32) : Bool × State :=
  let (ok, t) := wrHost { s with who := some .core } a (recBytes ws)
  (ok, { t with who := s.who })

/-- Steps 3 and 4 for one adopted shard: its record is checked, flipped where a COMMIT is held, and rewritten with CAUSE
TAKEOVER; the address of an error response. -/
def adoptShard (x : Option Nat × State) (y : Nat × List Byte × Shard × List W32) : Option Nat × State :=
  let (err, s) := x
  let (i, c, h, ws) := y
  if err.isSome then x
  else
    let (ok, s) := wrHost s (s.glb.shtBase.toNat + 128 * i) c
    if !ok then (some (s.glb.shtBase.toNat + 128 * i), s)
    else
      let good := recOk ws (some (i, h))
      let s := { s with shard := smSet {} s.shard i h, twn := { s.twn with tkShards := s.twn.tkShards ++ [i] } }
      if !good then
        (none, badRecordAt s .twn h.srec.crec h.srec.crec 0 0xFF)
      else if h.srec.role ≠ 1 then (none, s)
      else
        let step := pendStep s
        let flip := pendBit s i && heldCommit s step && recStep ws ≠ step
        let epoch := if flip then recEpoch ws + 1 else recEpoch ws
        let slot := if flip then !recSlot ws else recSlot ws
        let stp := if flip then step else recStep ws
        let (ok1, s) := if flip then wrRecord s h.srec.crec (mkRec epoch (recMepoch ws) slot (recOwner ws) 1 stp i) else (true, s)
        let (ok2, s) := wrRecord s h.srec.crec (mkRec epoch (recMepoch ws) slot (recOwner ws) 4 stp i)
        if !ok1 || !ok2 then (some h.srec.crec, s)
        else (none, modShard s i fun h => { h with cep := epoch, slot := slot })

/-- What a BUSY entry had begun goes on, as the last record of its shard tells (R175): the retirement after a LOAD or FOLLOW; an
event past its flip from step 6, the entry as that flip leaves it; any other event from step 2, with the step of the COMMIT it
fell on. -/
def rakeResume (s : State) (m : Nat) (ws : List W32) : State :=
  let e := dirOf s m
  let v : RakeEv := { mid := m, step := recStep ws, xch := e.xch.toNat, cands := e.cands.toNat, ktarget := e.ktarget.toNat
                      kstep := if nogOn s e then 0 else e.kstep.toNat }
  if e.role = 2 || recCause ws = 5 then
    modRak s fun k => { k with retire := k.retire ++ [{ mid := m, step := 0, xch := 0, cands := 0, ktarget := 0, kstep := 0, at_ := 0 }] }
  else if recCause ws = 2 && (recMepoch ws == e.mep || recMepoch ws == e.mep + 1) then
    let s := modDir s m fun e => { e with mep := recMepoch ws, slot := recSlot ws, cgTiles := 0 }
    modRak s fun k => { k with retire := k.retire ++ [{ v with at_ := 5 }] }
  else modRak s fun k => { k with evq := k.evq ++ [v] }

/-- The record of a mask directory entry as it stands in host memory. -/
def dirRecord (s : State) (m : Nat) : List W32 := recWords (memBytes s.host (hostAddr s (dirOf s m).crec.toNat) 64)

/-- Step 5: the mirrored directory entries of owners, loaded; `recs` are the records of the adopted masked shards, by MID, as step 3
read them. -/
def adoptDirs (recs : List (Nat × List W32)) (s : State) : State :=
  (List.range 4096).foldl (fun s m =>
    let b := resBytes s (0x700000 + 64 * m) 64
    let e := DirE.ofBytes b
    if e.role ≠ 1 then s
    else
      let xoff := s.twn.regs.xoff.toNat
      let mv := fun (a : W64) => if a = 0 then a else BitVec.ofNat 64 (a.toNat + xoff)
      let s := modDir s m fun _ => { e with crec := mv e.crec, rblk := mv e.rblk, rdrA := 0, rdrB := 0 }
      let s := modTwn s fun t => { t with tkDirs := t.tkDirs ++ [m] }
      if e.busy then rakeResume s m (((recs.find? fun x => x.1 = m).map Prod.snd).getD (dirRecord s m)) else s) s

/-- A history slot restored from a checkpoint: STALE is set unless it is cold (R130). -/
def HistSlot.restored (h : HistSlot) : HistSlot :=
  if h.e.all (fun x => x &&& 0x7FFFFFFF#32 == 0x7FFFFFFF#32) then h
  else match h.e with
    | x :: t => { e := (x ||| 0x80000000#32) :: t }
    | [] => h

/-- Step 6: the slots of the mirror that are not cold. -/
def adoptHistory (s : State) : State :=
  match s.twn.mirror with
  | none => s
  | some b => (List.range 16384).foldl (fun s i =>
      let bs := resBytes s (mirrorOff b + 64 * i) 64
      let h := HistSlot.ofBytes bs
      if h.e.all (fun x => x &&& 0x7FFFFFFF#32 == 0x7FFFFFFF#32) then s else setHist s i h.restored) s

/-- A takeover that a Brine error stops (R352). -/
def takeoverFailed (s : State) (a : Nat) : State :=
  let s := recordErr s .twn { cause := cBrine, addr := some a }
  raiseInt (modTwnR s fun r => { r with tkstate := .failed }) srcTakeover

/-- The adopting twin's firmware work: steps 3 to 6. -/
def takeoverWork (s : State) : State :=
  let act := resBytes s 0x740000 128
  let base := leAt act 16 8
  let n := leAt act 24 2
  match (((List.range n).mapM (ioAdopt s base)) : Io (List (Option (Nat × List Byte × Shard × List W32)))).run s with
  | (.error (.brine a), s) => takeoverFailed s a
  | (.error (.remoteat a), s) => takeoverFailed s a
  | (.ok xs, s) =>
    let (err, s) := (xs.filterMap id).foldl adoptShard (none, s)
    match err with
    | some a => takeoverFailed s a
    | none =>
      let recs := (xs.filterMap id).filterMap fun (_, _, h, ws) => if h.srec.masked then some (h.srec.mid, ws) else none
      modTwn (adoptHistory (adoptDirs recs s)) fun t => { t with tkWork := true }

/-- Step 7: every answer is held and the work is done. -/
def takeoverEnd (s : State) (num : Nat) : State :=
  let s := modTwnR s fun r => { r with adopted := BitVec.ofNat 8 num, tkstate := .done }
  let s := modSec s fun x => { x with lk := x.lk.map fun k => { k with preAdopt := true } }
  raiseInt s srcTakeover

/-- ADOPTED (R352): the twin's work runs; with every answer held the number is adopted. -/
def execAdopted (bad : List Nat) (s : State) : Host.Outcome State Fault Refusal :=
  .next (match s.twn.regs.tkstate, s.twn.tkNum with
    | .adopting, some num => command bad s fun s =>
        let s := if s.twn.tkWork then s else takeoverWork s
        if s.twn.tkWork && s.twn.await == 0 && s.twn.regs.tkstate = .adopting then takeoverEnd s num else s
    | _, _ => s)

/-! ### Release (R353) -/

/-- Whether RELEASE is admitted. -/
def mayRelease (s : State) : Bool :=
  s.twn.regs.tkstate == .done
    && !(s.twn.tkShards.any fun i => let h := shardOf s i; h.ready || h.run || h.pend)
    && !(s.twn.tkDirs.any fun m => (dirOf s m).busy)

/-- JCMD RELEASE: steps 1 and 3. -/
def releaseCommand (s : State) : State :=
  if !mayRelease s then dropOk s .twn 0x54 .state
  else
    let num := s.twn.regs.adopted.toNat
    let who := answerers s num
    let s := s.twn.tkShards.foldl (fun s i =>
      let s := (wrHost s (s.glb.shtBase.toNat + 128 * i) [0]).2
      modShard s i fun _ => {}) s
    -- from here on no frame leaves under the number
    let s := modTwn s fun t =>
      { t with tkShards := [], await := maskOf who, releasing := true, lost := setBit t.lost num true, pairs := t.pairs.filter fun (k, _) => k < 256
               regs := { t.regs with adopted := 0xFF } }
    who.foldl (fun s p => sendTakeover s p num 2) s

/-- RELEASE (R353). -/
def execRelease (s : State) : Host.Outcome State Fault Refusal := cpWrite s .twn fun s => command [] s releaseCommand

/-- Step 2: the adopted directory entries are dropped as their readers end. -/
def releaseDirs (s : State) : State :=
  s.twn.tkDirs.foldl (fun s m =>
    let e := dirOf s m
    if e.rdrA = 0 ∧ e.rdrB = 0 then
      modTwn (modDir s m fun e => { e with role := 0 }) fun t => { t with tkDirs := t.tkDirs.filter (· ≠ m) }
    else s) s

/-- RELEASE_DONE (R353): with every answer held and step 2 done the number is given back. -/
def execReleaseDone (s : State) : Host.Outcome State Fault Refusal :=
  .next (if !s.twn.releasing then s
    else
      let s := releaseDirs s
      if s.twn.tkDirs.isEmpty && s.twn.await == 0 then
        raiseInt (modTwn s fun t => { t with releasing := false, tkNum := none, regs := { t.regs with tkstate := .none } }) srcTakeover
      else s)

end Sys2Proof.Machine
end

