-- ==== Sys2Proof/Machine/Brine.lean ====
section
/-! DEFINITION. Responses on the Brine ports, their time limit and stalled requests
(spec/16_ports_and_bring_up.md R441, R442; spec/13 R369; spec/08 R243, R244). -/

namespace Sys2Proof.Machine

/-- Whether a response kind answers a transaction (R441): 0 DATA, 1 DONE, 2 OLD, 3 ERROR. -/
def kindMatches (k : TxnKind) (kind : BitVec 2) : Bool :=
  kind == 3 || match k with
    | .rd => kind == 0
    | .wr => kind == 1
    | .at_ => kind == 2

/-- The outstanding transaction of a port and tag. -/
def txnAt (s : State) (q : Fin 16) (tag : BitVec 9) : Option Txn := s.txns.find? fun t => t.port = q ∧ t.tag = tag

/-- A transaction's credit returned. -/
def dropTxn (s : State) (t : Txn) : State :=
  { s with txns := s.txns.filter fun x => !(x.port == t.port && x.tag == t.tag) }

/-- A salter's store answered: a FENCE ends with the last one (R269); an error traps a running salter (R271). -/
def storeAnswered (s : State) (n : Fin 8) (t : Txn) (err : Bool) (detail : Nat) : State :=
  if !err then fenceEnd s n
  else if (salt s n).mode = .idle then recordErr s (.slt n) { cause := cBrine, addr := some t.addr, detail := detail }
  else sltTrap (modSlt s n fun x => { x with mode := .run }) n .brine

/-- Bytes that a WRITE frame has stored in the owner's memory: each candidate gradient tensor they lie in takes a free 0 or 1 to
CG_TILES, as no rule says which frame brings a tile's last byte (R168; DESIGN CHOICE, log entry 134). -/
def candLanded (s : State) (a : Nat) : State :=
  s.dir.foldl (fun s (m, e) =>
    let d := descOf (e.rblk.toNat + 0x200) (memBytes s.host (hostAddr s (e.rblk.toNat + 0x200)) 64)
    if e.role = 1 && decide (d.base ≤ a ∧ a < d.base + d.extent s) then
      let (b, s) := takeFree 1 s
      modDir s m fun e => { e with cgTiles := e.cgTiles + b.setWidth 32 }
    else s) s

/-- A line of a served WRITE answered: with the last one its frame is done, and an error of any of them is reported to the
sender (R337). -/
def servedAnswered (s : State) (k : Fin 8) (peer ext : Nat) (bad : Bool) (t : Txn) (err : Bool) (detail : Nat) : State :=
  let s := if err then recordErr s (.lnk k) { cause := cBrine, addr := some t.addr, detail := detail } else s
  let mine : TxnFor → Bool := fun w => match w with
    | .served j p e _ => decide (j = k ∧ p = peer ∧ e = ext)
    | _ => false
  if s.txns.any fun x => mine x.why then
    if err then { s with txns := s.txns.map fun x => if mine x.why then { x with why := .served k peer ext true } else x } else s
  else
    let s := if err || bad then s else candLanded s t.addr
    landedFrame s peer ext (!err && !bad)

/-- Waiting requests that a returned credit lets go on. -/
def creditBack (s : State) : State := serveHeld (sendHeldMsgs (issueFlips s))

/-- A WR answered DONE stores its bytes; one answered with an error leaves them undefined (R244). -/
def answerTxn (s : State) (t : Txn) (err : Bool) (detail : Nat) : State :=
  match t.why with
  | .flip i => flipDone s i err detail
  | w =>
    let s := dropTxn s t
    let s := if err then spoilHost s t.addr t.data.length else putHost s t.addr t.data
    match w with
    | .salterStore n => storeAnswered s n t err detail
    | .served k peer ext bad => servedAnswered s k peer ext bad t err detail
    | _ => if err then recordErr s .glb { cause := cBrine, addr := some t.addr, detail := detail } else s

/-- A response that no outstanding transaction takes (R441). -/
def strayRsp (s : State) : State := modGlb s fun g => { g with bpstray := satAdd g.bpstray 1 }

/-- A response on a port (R441). No port is clocked outside ACTIVE (R442). -/
def brineRsp (s : State) (q : Fin 16) (tag : BitVec 9) (kind : BitVec 2) : State :=
  if s.pins.rstLow || s.wrap.taken || s.pwr.pstate ≠ .active then s
  else match txnAt s q tag with
    | none => strayRsp s
    | some t => if kindMatches t.kind kind then creditBack (answerTxn s t (kind == 3) 0) else strayRsp s

/-- BRINE_RESPONSE (R441). -/
def execBrineResponse (q : Fin 16) (tag : BitVec 9) (kind : BitVec 2) (s : State) : Host.Outcome State Fault Refusal :=
  .next (command [] s (brineRsp · q tag kind))

/-- BRINE_TIMEOUT (R369): a transaction without a response for BRTO ticks is answered as an error, DETAIL bit 0 set. -/
def execBrineTimeout (q : Fin 16) (tag : BitVec 9) (s : State) : Host.Outcome State Fault Refusal :=
  .next (match txnAt s q tag with
    | some t => command [] s fun s => creditBack (answerTxn s t true 1)
    | none => s)

/-- BPSTALL (R442): a request has waited longer than BRTO; it stays offered. -/
def execBpstall (q : Fin 16) (s : State) : Host.Outcome State Fault Refusal :=
  .next (if s.wrap.taken then s
    else raiseInt (modGlb s fun g => { g with bpstall := setBit g.bpstall q.1 true }) srcFlt)

end Sys2Proof.Machine
end

