-- ==== Sys2Proof/Machine/Test.lean ====
section
/-! DEFINITION. The test engine, background tests and pan wear rotation (spec/19_test_and_service.md R497 to R500;
spec/14 R407). -/

namespace Sys2Proof.Machine

/-! ### Units under test (R497) -/

/-- The page of a test unit code; a lane's link for the lanes. -/
def testPage (u : Nat) : Option PageId :=
  if h : u < 64 then some (.pan ⟨u, h⟩)
  else if h : 0x40 ≤ u ∧ u < 0x48 then some (.hrv ⟨u - 0x40, by omega⟩)
  else if h : 0x48 ≤ u ∧ u < 0x50 then some (.slt ⟨u - 0x48, by omega⟩)
  else if u = 0x50 then some .rak
  else if h : 0x60 ≤ u ∧ u < 0xA8 then some (.lnk ⟨(u - 0x60) / 9, by omega⟩)
  else none

/-- Whether a kind suits a unit: LBIST, MBIST and FULL the units, LOOP the lanes. -/
def kindSuits (u k : Nat) : Bool := if u < 0x60 then decide (k ≤ 2) else k == 3

/-- Whether a unit's fence bit is set (R365). -/
def unitFenced (s : State) (u : Nat) : Bool :=
  if u < 64 then bit s.flt.fpan u else if u < 0x48 then bit s.flt.fhrv (u - 0x40)
  else if u < 0x50 then bit s.flt.fslt (u - 0x48) else u == 0x50 && s.flt.frake

/-- Whether a unit is bypassed (R501). -/
def unitBypassed (s : State) (u : Nat) : Bool :=
  let t := s.tst.regs
  if u < 64 then bit t.bypPan u else if u < 0x48 then bit t.bypHrv (u - 0x40)
  else if u < 0x50 then bit t.bypSlt (u - 0x48) else if u = 0x50 then t.bypRak
  else bit t.bypLnk ((u - 0x60) / 9)

/-- Whether a page reads ISOLATED. -/
def unitIsolated (s : State) (u : Nat) : Bool :=
  match testPage u with
  | some p => decide (u < 0x60) && (hdr s p).mode == .isolated
  | none => false

/-- A pan that carries no logical number, is not fenced, isolated or bypassed and is not on its way to one. -/
def isReserve (s : State) (p : Fin 64) : Bool := (logOf s p).isNone && !panOut s p && (pn s p).wakeFor.isNone

/-- Whether a unit may be tested (R497). -/
def mayTest (s : State) (u : Nat) : Bool :=
  if unitBypassed s u then false
  else if s.sec.fwRes ≠ 1 then true
  else if h : u < 64 then unitIsolated s u || unitFenced s u || isReserve s ⟨u, h⟩
  else if h : 0x60 ≤ u ∧ u < 0xA8 then bit (lk s ⟨(u - 0x60) / 9, by omega⟩).regs.lanefail ((u - 0x60) % 9)
  else unitIsolated s u || unitFenced s u

/-- Whether another pan of a pan's quad, or the unit itself, is under test. -/
def testBlocked (s : State) (u : Nat) : Bool :=
  s.tst.tests.any fun t => t.unit == u || (decide (t.unit < 64) && decide (u < 64) && t.unit / 4 == u / 4)

/-- What a test destroys (R497): the pan store, the engine's images, the salter's memory and code. -/
def testDestroys (s : State) (u : Nat) : State :=
  if h : u < 64 then modPan s ⟨u, h⟩ fun x => { x with store := [] }
  else if h : 0x40 ≤ u ∧ u < 0x48 then modEng s ⟨u - 0x40, by omega⟩ fun x => { x with images := [], store := [] }
  else if h : 0x48 ≤ u ∧ u < 0x50 then modSlt s ⟨u - 0x48, by omega⟩ fun x => { x with lmem := [], mode := .idle }
  else s

/-- A test starts; a GATED pan wakes for it. -/
def beginTest (s : State) (u k : Nat) (sw : Bool) : State :=
  let s := testDestroys (modTst s fun t => { t with tests := t.tests ++ [{ unit := u, kind := k, sw := sw }] }) u
  if h : u < 64 then
    serveWakes (modTstR s fun t => { t with tsVcode := (quad s (quadOf ⟨u, h⟩)).vcode })
  else s

/-- A background test of a reserve pan: FULL, at once or when its quad is free. -/
def startBg (s : State) (u : Nat) : State :=
  if s.tst.bg.contains u || s.tst.tests.any (fun t => t.unit == u) then s
  else if testBlocked s u then modTst s fun t => { t with bg := t.bg ++ [u] }
  else beginTest s u 2 false

/-- The background tests and the TS_GO that wait, as far as they may start; structural on their number. -/
def serveTests (s : State) : State :=
  let ws := s.tst.bg
  let s := ws.foldl startBg (modTst s fun t => { t with bg := [] })
  match s.tst.waiting with
  | some (u, k) => if testBlocked s u then s else beginTest (modTst s fun t => { t with waiting := none }) u k true
  | none => s

/-! ### TS_GO (R498, R499) -/

/-- A result of the test that TS_GO started. -/
def tsResult (s : State) (u : Nat) (res : BitVec 3) : State :=
  modTstR s fun t => { t with tsRes := res, tsRunit := BitVec.ofNat 8 u }

/-- TS_GO with its unit and kind. -/
def tsGo (s : State) (u k : Nat) : State :=
  let s := modTstR s fun t => { t with tsUnit := BitVec.ofNat 8 u, tsKind := BitVec.ofNat 4 k }
  if s.tst.regs.tsRes = 1 then dropOk s .tst 0x200 .state
  else if (testPage u).isNone || !kindSuits u k then dropOk s .tst 0x200 .range
  else if !mayTest s u then tsResult s u 4
  else
    let s := modTstR s fun t => { t with tsRes := 1 }
    if testBlocked s u then modTst s fun t => { t with waiting := some (u, k) } else beginTest s u k true

/-- TS_GO (R499). -/
def execTsGo (unit : Byte) (kind : BitVec 4) (s : State) : Host.Outcome State Fault Refusal :=
  cpWrite s .tst (tsGo · unit.toNat kind.toNat)

/-! ### Wear rotation (R407) -/

/-- The element of a list with the best key; the first one on a tie. -/
def bestBy {α : Type} (better : α → α → Bool) : List α → Option α
  | [] => none
  | x :: t => match bestBy better t with
    | none => some x
    | some y => some (if better y x then y else x)

def ticksOf (s : State) (p : Fin 64) : Nat := (pn s p).regs.liveticks.toNat

/-- The pans that a WEAR run would exchange: the LIVE one with the most LIVETICKS, the reserve with the fewest. -/
def wearPick (s : State) : Option WearRun :=
  let live := (List.finRange 64).filter fun p => (pn s p).pwr == .live && (logOf s p).isSome && !panOut s p
  let rsv := (List.finRange 64).filter fun p => bit s.flt.rsvok p.1
  match bestBy (fun a b => decide (ticksOf s b < ticksOf s a)) live, bestBy (fun a b => decide (ticksOf s a < ticksOf s b)) rsv with
  | some l, some r => if ticksOf s r < ticksOf s l then some { live := l, rsv := r } else none
  | _, _ => none

/-- Firmware picks the pans and wakes the reserve. -/
def wearChoose (s : State) : State :=
  let s := modTide s fun t => { t with wearTests := false }
  if s.flt.nospare || s.flt.rsvok = 0 then s
  else serveWakes { s with wear := wearPick s }

/-- A WEAR run starts: the reserves not tested since the previous run are tested first (R500). -/
def wearStart (s : State) : State :=
  let due := (List.finRange 64).filter fun p => isReserve s p && decide ((pn s p).testedAt < s.tide.wearPrev)
  let s := modTide s fun t => { t with wearPrev := s.pwr.tick.toNat }
  if due.isEmpty then wearChoose s
  else due.foldl (fun s p => startBg s p.1) (modTide s fun t => { t with wearTests := true })

/-- The run goes on once its background tests have ended. -/
def wearGo (s : State) : State :=
  if s.tide.wearTests && s.tst.bg.isEmpty && !(s.tst.tests.any fun t => !t.sw) then wearChoose s else s

/-- A WEAR run ends without a swap: the reserve is gated again. -/
def wearEnd (s : State) : State :=
  let s := modTide s fun t => { t with wearTests := false }
  match s.wear with
  | some w => gatePan { s with wear := none } w.rsv
  | none => s

/-- The logical number moves to the woken reserve, the old pan is gated and tested. -/
def wearSwap (s : State) : State :=
  match s.wear with
  | none => s
  | some w =>
    match logOf s w.live with
    | none => s
    | some l =>
      if (pn s w.rsv).pwr ≠ .live || (lp s l).running then s
      else
        let s := { s with wear := none, glb := { s.glb with panmap := vset s.glb.panmap l { missing := false, phys := w.rsv } } }
        let s := modFlt s fun f => { f with rsvok := setBit f.rsvok w.rsv.1 false }
        startBg (gatePan s w.live) w.live.1

/-- WEAR_SWAP (R407). -/
def execWearSwap (s : State) : Host.Outcome State Fault Refusal := .next (wearSwap s)

/-! ### Ends of tests (R499, R500) -/

/-- A tested pan is gated again unless it is ISOLATED with CLKREQ set. -/
def testGate (s : State) (u : Nat) : State :=
  if h : u < 64 then
    let h' := hdr s (.pan ⟨u, h⟩)
    if h'.mode == .isolated && h'.clkreq then s else gatePan s ⟨u, h⟩
  else s

/-- The tick of a pan's last test. -/
def noteTested (s : State) (u : Nat) : State :=
  if h : u < 64 then modPan s ⟨u, h⟩ fun x => { x with testedAt := s.pwr.tick.toNat } else s

/-- A fenced unit's bit cleared and its page in service. -/
def unfenceUnit (s : State) (u : Nat) : State :=
  let s := match testPage u with
    | some p => modHdr s p fun h => { h with mode := .active }
    | none => s
  let s := modFlt (unpass s u) fun f =>
    if u < 64 then { f with fpan := setBit f.fpan u false, rsvok := setBit f.rsvok u true }
    else if u < 0x48 then { f with fhrv := setBit f.fhrv (u - 0x40) false }
    else if u < 0x50 then { f with fslt := setBit f.fslt (u - 0x48) false } else { f with frake := false }
  let s := if u = 0x50 then modRak s fun r => { r with failed := false } else s
  if u < 64 then serveMissing s else s

/-- The fenced Rake has failed its test (R377): its events but those past step 5 are dropped and counted. -/
def rakeFailed (s : State) : State :=
  let vs := s.rak.evq
  let s := vs.foldl (fun s v => modDir s v.mid fun e => { e with misscnt := satAdd e.misscnt 1, busy := false, cgTiles := 0 }) s
  modRak s fun r => { r with evq := [], failed := true }

/-- A PASS: noted for UNFENCE and RUN; a reserve pan's RSVOK bit is set, and firmware returns the Rake that it tested to
service (R377). -/
def testPass (s : State) (u : Nat) (sw : Bool) : State :=
  let s := modTst s fun t => { t with passed := if t.passed.contains u then t.passed else t.passed ++ [u] }
  if h : u < 64 then
    if isReserve s ⟨u, h⟩ then serveMissing (modFlt s fun f => { f with rsvok := setBit f.rsvok u true }) else s
  else if u = 0x50 && !sw && s.flt.frake then unfenceUnit s u else s

/-- A FAIL: BIST recorded with class UNIT in the unit's page, which fences the unit. -/
def testFail (s : State) (u : Nat) (faddr : W64) : State :=
  match testPage u with
  | some p =>
    let s := if u = 0x50 && s.flt.frake then rakeFailed s else s
    recordErr (unpass s u) p { cause := cBist, addr := some faddr.toNat, group := if 0x60 ≤ u then (u - 0x60) % 9 else 0 }
  | none => s

/-- A test ends. -/
def testDone (s : State) (u : Nat) (res : TestRes) (faddr : W64) (ticks : W32) : State :=
  match s.tst.tests.find? fun t => t.unit = u with
  | none => s
  | some t =>
    let s := modTst s fun x => { x with tests := x.tests.filter fun y => y.unit ≠ u }
    let s := if res = .abort then s else modTstR s fun x =>
      { x with svTests := satAdd x.svTests 1, svFails := if res = .fail then satAdd x.svFails 1 else x.svFails }
    let s := if t.sw then
        modTstR (tsResult s u (match res with | .pass => 2 | .fail => 3 | .abort => 5)) fun x =>
          { x with tsTicks := ticks, tsFaddr := if res = .fail then faddr else x.tsFaddr }
      else s
    let s := testGate s u
    let s := match res with
      | .pass => testPass (noteTested s u) u t.sw
      | .fail => testFail (noteTested s u) u faddr
      | .abort => s
    wearGo (serveTests s)

/-- TEST_DONE (R499). -/
def execTestDone (unit : Byte) (res : TestRes) (faddr : W64) (ticks : W32) (s : State) : Host.Outcome State Fault Refusal :=
  .next (testDone s unit.toNat res faddr ticks)

/-- Running tests end ABORTED (R500): nothing is recorded and no RSVOK bit changes. -/
def abortTests (s : State) : State :=
  let us := s.tst.tests.map (·.unit)
  let s := match s.tst.tests.find? (·.sw), s.tst.waiting with
    | some t, _ => tsResult s t.unit 5
    | none, some (u, _) => tsResult s u 5
    | none, none => s
  let s := us.foldl testGate s
  wearEnd (modTst s fun t => { t with tests := [], bg := [], waiting := none })

/-! ### LFORCE (R498, R500) -/

/-- LFORCE marks a lane failed as R340 does; it needs the lifecycle DEV or RMA, or a debug level. -/
def lforce (s : State) (code : Nat) : State :=
  if s.sec.dbglvl = 0 && s.sec.lcs ≠ lcsDev && s.sec.lcs ≠ lcsRma then dropOk s .tst 0x21C .security
  else if h : 0x60 ≤ code ∧ code < 0xA8 then laneFail s ⟨(code - 0x60) / 9, by omega⟩ ⟨(code - 0x60) % 9, by omega⟩
  else dropOk s .tst 0x21C .range

/-- LFORCE (R498). -/
def execLforce (code : Byte) (s : State) : Host.Outcome State Fault Refusal := cpWrite s .tst (lforce · code.toNat)

end Sys2Proof.Machine
end

