-- ==== Sys2Proof/Machine/Power.lean ====
section
/-! DEFINITION. Power states, the power-fail sequence, voltage requests and temperature
(spec/14_power_clocks_and_background_work.md R389 to R403; spec/13 R382, R384; spec/15 R427 to R429). -/

namespace Sys2Proof.Machine

/-! ### Key erasure and debug sessions (R427, R429) -/

/-- Erasure of the slots that `which` names: zeros, one more erasure counted, its cause noted. A running load into one of
them ends ERASED. -/
def eraseKeys (s : State) (which : Fin 2 → Bool) (cause : Nat) : State :=
  let gone := (List.finRange 2).filter which
  let s := gone.foldl (fun s i =>
    let k := vget s.sec.lk i
    traceKey (modSec s fun x => { x with lk := vset x.lk i {} }) i.1 3 cause k.kid) s
  let s := modSec s fun x => { x with kerasecnt := satAdd x.kerasecnt 1, kercause := BitVec.ofNat 3 cause }
  match s.sec.kload with
  | some (i, _) =>
    if which i then
      raiseInt (modPins (modSec s fun x => { x with kload := none, kres := 5 }) fun p => { p with keyKid := 0 }) srcSec
    else s
  | none => s

/-- Both slots erased. -/
def eraseBoth (s : State) (cause : Nat) : State := eraseKeys s (fun _ => true) cause

/-- Every unit halted by debug goes on (R425). -/
def unhalt (s : State) : State :=
  modTst s fun t => { t with stepping := [], regs := { t.regs with dhPan := 0, dhHrv := 0, dhSlt := 0, dhRak := false } }

/-- The effective level takes a new value: a session opens or ends (R427), halted units resume below INVASIVE. -/
def setLevel (s : State) (v : BitVec 2) (cause : Nat) : State :=
  let old := s.sec.dbglvl
  let s := modSec s fun x =>
    { x with dbglvl := v
             dbgsess := if old = 0 && v ≠ 0 then satAdd x.dbgsess 1 else x.dbgsess
             dbgend := if old ≠ 0 && v = 0 then BitVec.ofNat 3 cause else x.dbgend }
  if old = 2 && v ≠ 2 then unhalt s else s

/-- The debug session ends. -/
def endSession (s : State) (cause : Nat) : State := setLevel s 0 cause

/-! ### Supplies (R397, R443) -/

/-- Every supply requested on: the quads at VMAX, the shared domain at VSHARED. -/
def suppliesOn (s : State) : State :=
  let s := { s with qd := s.qd.map fun x =>
    { x with vidEn := true, vidCode := x.vmax, vcode := x.vmax, reqout := none, vidReq := !x.vidReq } }
  modPins s fun p => { p with vidSEn := true, vidSCode := s.pwr.vshared, vidSReq := !p.vidSReq, vidSOut := false }

/-- Every supply requested off, codes 0. -/
def suppliesOff (s : State) : State :=
  let s := { s with qd := s.qd.map fun x => { x with vidEn := false, vidCode := 0, reqout := none } }
  modPins s fun p => { p with vidSEn := false, vidSCode := 0, vidSOut := false }

/-! ### DOZE (R391, R392, R428, R502) -/

/-- The pages that ISOLATE acts on. -/
def unitPages : List PageId :=
  (List.finRange 64).map .pan ++ (List.finRange 8).map .hrv ++ (List.finRange 8).map .slt ++ [.rak]
    ++ (List.finRange 8).map .lnk

/-- A PAN, HRV or RAK page that lets the block doze. -/
def dozePage (s : State) (p : PageId) : Bool :=
  match pageState s p with
  | .idle | .stopped | .isolated => true
  | _ => false

/-- No unit is halted by debug. -/
def noneHalted (s : State) : Bool :=
  let t := s.tst.regs
  t.dhPan == 0 && t.dhHrv == 0 && t.dhSlt == 0 && !t.dhRak

/-- The conditions of PCMD DOZE. -/
def dozeOk (s : State) : Bool :=
  s.pwr.pstate == .active
    && ((List.finRange 64).map PageId.pan ++ (List.finRange 8).map PageId.hrv ++ [PageId.rak]).all (dozePage s)
    && !(s.shard.any fun x => x.2.ready || x.2.run || x.2.pend) && !(s.dir.any fun x => x.2.busy)
    && noneHalted s && !(unitPages.any fun p => (hdr s p).mode == .isolated && (hdr s p).clkreq)

/-- Entries that DOZE suspends (R404). -/
def dozeSuspends (e : Fin 16) : Bool := e.1 == 2 || e.1 == 3 || decide (7 ≤ e.1)

/-- Step 5 and 6: pans gated, the core clock stopped. -/
def dozeFinish (s : State) : State :=
  let s := (List.finRange 64).foldl (fun s p => if (pn s p).pwr = .gated then s else gatePan s p) s
  let s := modTide s fun t => { t with ent := Vector.ofFn fun e =>
    let x := vget t.ent e
    if (dozeSuspends e) then { x with susp := true } else x }
  let s := modPwr s fun p => { p with pstate := .doze, ptrans := none, pres := 1 }
  tracePower s .active .doze 0

/-- Whether no salter runs instructions (step 2). -/
def saltersQuiet (s : State) : Bool := (List.finRange 8).all fun n => (salt s n).mode == .idle || (salt s n).mode == .wfe

/-- A DOZE entry goes on as far as it may: past step 2 once every salter waits, past step 4 once JLAG is 0. -/
def dozeGo (s : State) : State :=
  let s := if s.pwr.ptrans = some .dozeEntry && saltersQuiet s then
      modPwr (trimTail (writeCkpt s)) fun p => { p with ptrans := some .dozeWait }
    else s
  if s.pwr.ptrans = some .dozeWait && (!s.twn.regs.twen || s.twn.regs.jlag == 0) then dozeFinish s else s

/-- The outcome of a command that is not carried out. -/
def pRefused (s : State) : State := modPwr s fun p => { p with pres := 2 }

/-- A PCMD: dropped with REJECT while a transition or the power-fail sequence runs (R391, R395). -/
def pcmd (s : State) (f : State → State) : State :=
  if s.pwr.ptrans.isSome || s.flt.pfstate ≠ 0 && s.pwr.pstate ≠ .retain then dropReject s .pwr 0x40 .state else f s

/-- PCMD DOZE. -/
def dozeCommand (s : State) : State :=
  if !dozeOk s then pRefused s
  else
    let s := modPwr s fun p => { p with ptrans := some .dozeEntry }
    dozeGo ((List.finRange 8).foldl sltEvent s)

/-- DOZE (R392). -/
def execDoze (s : State) : Host.Outcome State Fault Refusal := cpWrite s .pwr fun s => pcmd s dozeCommand

/-- JLAGTO (R392): the entry ends and the block stays ACTIVE. -/
def execJlagto (s : State) : Host.Outcome State Fault Refusal :=
  .next (if s.pwr.ptrans = some .dozeWait then wakeSalters (modPwr s fun p => { p with ptrans := none, pres := 4 }) else s)

/-! ### Waking (R391, R393, R394, R406, R448) -/

/-- The entries that DOZE suspended are released at once with DEBT 0; those that TIDE's STOP suspends stay so. -/
def tideResume (s : State) : State :=
  let stopped := !admits s .tide
  modTide s fun t => { t with ent := Vector.ofFn fun e =>
    let x := vget t.ent e
    if (dozeSuspends e) && !(stopped && decide (7 ≤ e.1)) then { x with susp := false, next := 0, debt := 0, nextQ := 0 } else x }

/-- The core PLL has locked: the block is ACTIVE. -/
def dozeWoken (s : State) : State :=
  let cmd := s.pwr.wakeCmd
  let s := modPwr s fun p =>
    { p with pstate := .active, ptrans := none, fnow := p.fmul, wakeCmd := false, pres := if cmd then 1 else p.pres }
  let s := tracePower s .doze .active (if cmd then 0 else 1)
  creditBack (serveWakes (tideResume (wakeSalters s)))

/-- PCMD WAKE. -/
def wakeCommand (s : State) : State :=
  match s.pwr.pstate with
  | .doze => modPwr s fun p => { p with ptrans := some .dozeWake, wakeCmd := true }
  | .retain => suppliesOn (modPwr s fun p => { p with ptrans := some .retainPower })
  | _ => pRefused s

/-- WAKE (R391): written while PBUSY is 1 it is dropped like any PCMD. -/
def execWake (s : State) : Host.Outcome State Fault Refusal := cpWrite s .pwr fun s => pcmd s wakeCommand

/-! ### RETAIN (R384, R394, R427) -/

/-- What RETAIN leaves: the always-on domain with the retention store. Of the SEC page, what holds until cold reset. -/
def loseCore (s : State) : State :=
  { State.reset with
    pending := s.pending, host := s.host, sent := s.sent, free := s.free, hostBad := s.hostBad, cp := s.cp
    pwr := { s.pwr with heldMsg := [] }, ckpt := s.ckpt, tail := s.tail, wrap := s.wrap
    pins := { s.pins with rstLow := false, keyKid := 0 }
    flt := { lastrst := s.flt.lastrst }
    sec := { lcs := s.sec.lcs, lcsbad := s.sec.lcsbad, lcschg := s.sec.lcschg, svnfuse := s.sec.svnfuse
             rkrevoke := s.sec.rkrevoke, fwFail := s.sec.fwFail, fwLock := s.sec.fwLock, kerasecnt := s.sec.kerasecnt
             kercause := s.sec.kercause, kres := s.sec.kres, dbgsess := s.sec.dbgsess, dbgend := s.sec.dbgend
             noload := s.sec.noload } }

/-- Every PWR_GOOD bit has fallen: the block is in RETAIN. -/
def retained (s : State) (cause : Nat) : State :=
  let old := s.pwr.pstate
  let byCmd := s.pwr.ptrans == some .retainEntry
  let s := modPwr s fun p => { p with pstate := .retain, ptrans := none, pres := if byCmd then 1 else p.pres }
  suppliesOff (loseCore (tracePower s old .retain cause))

/-- RETAIN follows once the supplies are off: of PCMD RETAIN, or of the power-fail sequence after its last step. -/
def retainGo (s : State) : State :=
  if s.pins.pwrGood ≠ 0 then s
  else if s.pwr.ptrans = some .retainEntry then retained s 0
  else if s.flt.pfstate = 2 then retained (eraseBoth s 2) (if s.pwr.pfOther then 3 else 2)
  else s

/-- PCMD RETAIN. -/
def retainCommand (s : State) : State :=
  if s.pwr.pstate ≠ .doze || joined s then pRefused s
  else
    let s := trimTail (writeCkpt (endSession s 2))
    retainGo (modPwr (suppliesOff (eraseBoth s 2)) fun p => { p with ptrans := some .retainEntry })

/-- RETAIN (R394). -/
def execRetain (s : State) : Host.Outcome State Fault Refusal := cpWrite s .pwr fun s => pcmd s retainCommand

/-- AON_SUPPLY_LOSS (R391): OFF keeps nothing. -/
def aonLoss (s : State) : State :=
  { State.reset with
    pending := s.pending, host := s.host, sent := s.sent, free := s.free
    pins := { lcsState := s.pins.lcsState, lcsSvn := s.pins.lcsSvn, lcsRevoke := s.pins.lcsRevoke, rstLow := s.pins.rstLow }
    pwr := { pstate := .off } }

def execAonSupplyLoss (s : State) : Host.Outcome State Fault Refusal := .next (aonLoss s)

/-! ### Power fail (R382, R395, R398, R402, R427) -/

/-- Whether the power-fail sequence starts: ACTIVE or DOZE, not already run, no RETAIN entry under way. -/
def pfTaken (s : State) : Bool :=
  !(s.pins.rstLow || s.wrap.taken) && (s.pwr.pstate == .active || s.pwr.pstate == .doze) && s.flt.pfstate == 0
    && s.pwr.ptrans != some .retainEntry

/-- Steps 1 and 2 in ACTIVE: every unit stops; unsent flags go at once, with FAULT. -/
def pfStop (s : State) : State :=
  let s := abandonAll (abortTests s)
  if joined s && !s.vrd.regs.sent then sendFlags (modVrd s fun v => { v with pendFt := true }) else s

/-- Step 4: the push to the twin (R351). -/
def pfPush (s : State) : State :=
  if s.twn.regs.twen && joined s then
    let s := sendHbeat s 1
    let s := s.twn.jout.foldl (fun s e => sendTwin s 0x10 (leBytes 4 e.jseq.toNat ++ [1, 0, 0]) e.bytes) s
    journal (sendCkpt s) jFinal s.vrd.regs.vstep 0 []
  else s

/-- The power-fail sequence. -/
def pfWarn (s : State) (other : Bool) : State :=
  if !pfTaken s then s
  else
    let s := modPwr (endSession s 4) fun p => { p with ptrans := none, wakeCmd := false, pfOther := other }
    let s := modFlt s fun f => { f with pfstate := 1 }
    let s := if s.pwr.pstate = .active then pfStop s else s
    let s := pfPush (trimTail (writeCkpt s))
    retainGo (modFlt s fun f => { f with pfstate := 2 })

/-- PF_WARN (R382). -/
def execPfWarn (s : State) : Host.Outcome State Fault Refusal := .next (command [] s (pfWarn · false))

/-- PWR_GOOD_FALL (R398): a fall that nothing has asked for is PF_WARN rising. -/
def execPwrGoodFall (b : Fin 17) (s : State) : Host.Outcome State Fault Refusal :=
  .next (if !bit s.pins.pwrGood b.1 then s
    else
      let en := s.pins.vidSEn
      let s := modPins s fun p => { p with pwrGood := setBit p.pwrGood b.1 false }
      if en && pfTaken s then command [] s (pfWarn · false) else retainGo s)

/-- REFCLK_LOSS (R389). -/
def execRefclkLoss (s : State) : Host.Outcome State Fault Refusal :=
  .next (if s.pins.rstLow || s.pwr.pstate = .off then s
    else command [] (raiseInt (modPwr s fun p => { p with refloss := true }) srcPwr) (pfWarn · true))

/-! ### Voltage (R397, R400, R443) -/

/-- VSHARED requested, once no request on the shared domain is outstanding. -/
def shareRequest (s : State) : State :=
  if s.pins.vidSEn && !s.pins.vidSOut && s.pins.vidSCode ≠ s.pwr.vshared then
    modPins s fun p => { p with vidSCode := s.pwr.vshared, vidSReq := !p.vidSReq, vidSOut := true }
  else s

/-- A write of VSHARED issues one request, at once or after the outstanding one. -/
def vsharedWrite (s : State) (v : Byte) : State := shareRequest (modPwr s fun p => { p with vshared := v })

/-- VSHARED_WRITE (R443). -/
def execVsharedWrite (v : Byte) (s : State) : Host.Outcome State Fault Refusal := cpWrite s .pwr (vsharedWrite · v)

/-- An ACK completes a domain's request: VCODE takes the code asked for. -/
def vidAck (s : State) (d : Nat) : State :=
  if h : d < 16 then
    match (quad s ⟨d, h⟩).reqout with
    | some c => quadIdle (modQd s ⟨d, h⟩ fun x => { x with vcode := c, reqout := none }) ⟨d, h⟩
    | none => s
  else shareRequest (modPins s fun p => { p with vidSOut := false })

/-- VID_ACK (R397). -/
def execVidAck (d : Fin 17) (s : State) : Host.Outcome State Fault Refusal := .next (vidAck s d.1)

/-- VIDTO (R400): the request stays outstanding. -/
def execVidto (q : Fin 16) (s : State) : Host.Outcome State Fault Refusal :=
  .next (if (quad s q).reqout.isSome then raiseInt (modQd s q fun x => { x with vidto := true }) srcPwr else s)

/-- What a window's slack makes of STRETCH and its counts. -/
def avsStretch (s : State) (q : Fin 16) (slack : BitVec 6) : State :=
  let st := decide (slack.toNat < 2)
  modQd s q fun x =>
    { x with stretch := st, slacknow := slack, strcnt := if st then satAdd x.strcnt 1 else x.strcnt
             strw := if st then satAdd x.strw 1 else x.strw }

/-- The request rule of R400; a VCODE above a lowered VMAX goes to VMAX at the next request (R479). -/
def avsRequest (s : State) (q : Fin 16) (slack : BitVec 6) : State :=
  let x := quad s q
  if slack.toNat < x.slacklo.toNat && decide (x.vcode.toNat < x.vmax.toNat) then
    modQd (vidRequest s q (BitVec.ofNat 8 (min (x.vcode.toNat + 2) x.vmax.toNat))) q fun y => { y with high := 0 }
  else if x.slackhi.toNat < slack.toNat then
    if x.high + 1 = 16 && decide (x.vmin.toNat < x.vcode.toNat) then
      modQd (vidRequest s q (BitVec.ofNat 8 (min (x.vcode.toNat - 1) x.vmax.toNat))) q fun y => { y with high := 0 }
    else modQd s q fun y => { y with high := x.high + 1 }
  else modQd s q fun y => { y with high := 0 }

/-- AVS_WINDOW (R400): a stopped loop still evaluates STRETCH (R474). -/
def avsWindow (s : State) (q : Fin 16) (slack : BitVec 6) : State :=
  if s.pwr.pstate ≠ .active || !quadLive s q then s
  else
    let s := avsStretch s q slack
    if (quad s q).reqout.isSome || (hdr s (.qd q)).mode ≠ .active then s else avsRequest s q slack

def execAvsWindow (q : Fin 16) (slack : BitVec 6) (s : State) : Host.Outcome State Fault Refusal := .next (avsWindow s q slack)

/-! ### Temperature (R403, R498) -/

/-- 125 °C. -/
def tripPoint : Int := 1000

/-- A sensor's reading: the highest one is kept, the alarm and the trip are judged. -/
def reading (s : State) (sensor : Fin 17) (r : W16) : State :=
  if s.pins.rstLow || s.pwr.pstate = .off || s.pwr.pstate = .retain then s
  else
    let s := modTstR s fun t =>
      { t with tempmax := vmod t.tempmax sensor fun m => if m.toInt < r.toInt then r else m }
    let s := if h : sensor.1 < 16 then modQd s ⟨sensor.1, h⟩ fun x => { x with temp := r } else s
    let s := if s.pwr.talarm.toInt ≤ r.toInt then raiseInt (modPwr s fun p => { p with talm := true }) srcPwr else s
    if tripPoint ≤ r.toInt then
      command [] (raiseInt (modPwr s fun p => { p with ttrip := true }) srcPwr) (pfWarn · true)
    else s

/-- TALM (R403). -/
def execTalm (sensor : Fin 17) (r : W16) (s : State) : Host.Outcome State Fault Refusal := .next (reading s sensor r)
/-- TTRIP (R403). -/
def execTtrip (sensor : Fin 17) (r : W16) (s : State) : Host.Outcome State Fault Refusal := .next (reading s sensor r)

end Sys2Proof.Machine
end

