-- ==== Sys2Proof/Machine/Background.lean ====
section
/-! DEFINITION. The tide table's runs, telemetry, the watchdog and the error queue's own error
(spec/14_power_clocks_and_background_work.md R404 to R408; spec/13 R362, R369). -/

namespace Sys2Proof.Machine

/-! ### Telemetry (R408) -/

/-- PANST of four pans in a byte. -/
def panstByte (s : State) (i : Nat) : Nat :=
  ((List.range 4).map fun j => if h : 4 * i + j < 64 then (pn s ⟨4 * i + j, h⟩).pwr.code * 4 ^ j else 0).sum

/-- The 256 bytes of a snapshot. -/
def snapshot (s : State) (m : Meas) : List Byte :=
  fitTo 256 (leBytes 8 s.pwr.tick.toNat ++ leBytes 4 s.pwr.tseq.toNat ++ leBytes 1 s.pwr.pstate.code
    ++ leBytes 1 s.pwr.fnow.toNat ++ leBytes 2 m.pest.toNat ++ s.qd.toList.map (·.vcode) ++ [s.pwr.vshared, 0]
    ++ m.temp.toList.flatMap (fun (t : W16) => leBytes 2 t.toNat)
    ++ (List.range 16).map (fun i => BitVec.ofNat 8 (panstByte s i)) ++ s.qd.toList.map (·.strw)
    ++ leBytes 4 s.flt.eqPi.toNat ++ leBytes 4 s.vrd.regs.vstep.toNat ++ leBytes 4 s.flt.replaycnt.toNat ++ m.eye.toList)

/-- A TELEM run: the snapshot into its ring, then the readings judged (R403). -/
def telemRun (s : State) (m : Meas) : State :=
  let s := resPut s (0x250000 + 256 * (s.pwr.tseq.toNat % 256)) (snapshot s m)
  let s := modPwr s fun p => { p with tseq := p.tseq + 1 }
  let s := { s with qd := s.qd.map fun x => { x with strw := 0 } }
  (List.finRange 17).foldl (fun s i => reading s i (vget m.temp i)) s

/-- A REPCAL run: RPOFF of every quad with a LIVE pan. -/
def repcalRun (s : State) (m : Meas) : State :=
  (List.finRange 16).foldl (fun s q => if quadLive s q then modQd s q fun x => { x with rpoff := vget m.rpoff q } else s) s

/-- What a released task does (R404). Scrub passes and link calibration change no register. -/
def tideTask (s : State) (task : Nat) (fsalt : Fin 8) (m : Meas) : State :=
  match task with
  | 2 => repcalRun s m
  | 3 => wearStart s
  | 4 => telemRun s m
  | 5 => sendCkpt (writeCkpt s)
  | 6 => if s.twn.regs.twen then sendHbeat s 0 else s
  | 7 => sltEvent s fsalt
  | _ => s

/-! ### Releases and completions (R406) -/

def tideOf (s : State) (e : Fin 16) : TideE := vget s.tide.ent e
def modTideE (s : State) (e : Fin 16) (f : TideE → TideE) : State :=
  modTide s fun t => { t with ent := vmod t.ent e f }

/-- PERIOD of an entry; entry 6's is HBPER (R405). -/
def tidePeriod (s : State) (e : Fin 16) : Nat := if e = 6 then s.twn.regs.hbper.toNat else (tideOf s e).period.toNat

/-- Whether an entry's next run may be released. -/
def tideDue (s : State) (e : Fin 16) : Bool :=
  let x := tideOf s e
  x.ten && !x.susp && !x.running && x.next == 0 && (s.pwr.pstate == .active || s.pwr.pstate == .doze)
    && !(s.pins.rstLow || s.wrap.taken)

/-- A run released: its T and q are noted and its task starts. -/
def tideStart (s : State) (e : Fin 16) (m : Meas) : State :=
  let x := tideOf s e
  let q := if x.nextQ = 0 then tidePeriod s e else x.nextQ
  tideTask (modTideE s e fun x => { x with running := true, relAt := x.now, relQ := q }) x.task.toNat x.fsalt m

/-- TIDE_RELEASE (R406). -/
def execTideRelease (e : Fin 16) (m : Meas) (s : State) : Host.Outcome State Fault Refusal :=
  .next (if tideDue s e then command [] s (tideStart · e m) else s)

/-- The schedule after a run of period q, released at T, completes now (R406). -/
def TideE.complete (x : TideE) (p : Nat) : TideE :=
  let due := x.relAt + x.relQ
  let late := x.now - due
  let debt := min (x.debt.toNat + late) 0xFFFFFFFF
  { x with
    running := false, runs := x.runs + 1, latecnt := if 0 < late then satAdd x.latecnt 1 else x.latecnt
    debt := BitVec.ofNat 32 (debt - p / 2), nextQ := if 0 < debt then p / 2 else p
    next := BitVec.ofNat 32 (max x.now due - x.now) }

/-- Whether a completion leaves DEBT above 4 × P. -/
def TideE.lags (x : TideE) (p : Nat) : Bool := decide (4 * p < x.debt.toNat + (x.now - (x.relAt + x.relQ)))

/-- A run completes; a WEAR run that found no moment to swap gates its reserve again. -/
def tideComplete (s : State) (e : Fin 16) : State :=
  let x := tideOf s e
  if !x.running then s
  else
    let p := tidePeriod s e
    let s := modTideE s e (·.complete p)
    let s := if x.task = 3 then wearEnd s else s
    if x.lags p then raiseInt (modTide s fun t => { t with lag := setBit t.lag e.1 true }) srcTide else s

/-- TIDE_RUN_COMPLETE (R406). -/
def execTideRunComplete (e : Fin 16) (s : State) : Host.Outcome State Fault Refusal := .next (tideComplete s e)

/-! ### Watchdog and handling path (R362, R369) -/

/-- HANDLER (R362): the error queue has stayed full. -/
def execHandler (s : State) : Host.Outcome State Fault Refusal := .next (if eqIsFull s then handlerError s else s)

/-- The page of a unit that the watchdog watches. -/
def wdogPage (u : Nat) : Option PageId := if u ≤ 0x50 then testPage u else none

/-- WDOG (R369): a unit that holds work, is not halted by debug and makes no progress. -/
def wdog (s : State) (u : Nat) : State :=
  match wdogPage u with
  | some p =>
    let st := pageState s p
    if s.pwr.pstate = .active && unitBusy s p && !dhBit s.tst.regs u && (st == .running || st == .quiescing) then
      recordErr s p { cause := cWdog }
    else s
  | none => s

def execWdog (unit : Byte) (s : State) : Host.Outcome State Fault Refusal := .next (wdog s unit.toNat)

end Sys2Proof.Machine
end

