-- ==== Sys2Proof/Machine/Security.lean ====
section
/-! DEFINITION. Lifecycle, firmware authentication, link keys and debug
(spec/15_security_and_debug.md R409 to R429; spec/16 R444; spec/18 R491, R492). -/

namespace Sys2Proof.Machine

/-! ### Lifecycle (R409, R410) -/

/-- The lifecycle state an LCS_STATE value encodes, and whether it is invalid. -/
def lcsOf (v : BitVec 4) : BitVec 2 × Bool :=
  match v.toNat with
  | 0 => (lcsBlank, false)
  | 3 => (lcsDev, false)
  | 7 => (lcsProd, false)
  | 15 => (lcsRma, false)
  | _ => (lcsRma, true)

/-- LCS_STATE changes while the block is powered. -/
def lcsChange (s : State) (v : BitVec 4) : State :=
  if v = s.pins.lcsState || s.pins.rstLow || s.pwr.pstate = .off then s
  else
    let s := modSec (modPins s fun p => { p with lcsState := v }) fun x => { x with lcschg := true }
    endSession (eraseBoth s 5) 6

/-- LCS_STATE_CHANGE (R410). -/
def execLcsStateChange (v : BitVec 4) (s : State) : Host.Outcome State Fault Refusal := .next (lcsChange s v)

/-! ### Firmware (R412 to R415) -/

/-- FW_GO (R413, R414). -/
def fwGo (s : State) : State :=
  if s.sec.fwLock then dropOk s .sec 0x50 .security
  else if s.sec.fwRun then raiseInt (modSec s fun x => { x with fwRes := 0xA }) srcSec
  else
    let s := modSec s fun x => { x with fwRun := true }
    if s.glb.bstage = 3 then modGlb s fun g => { g with bstage := 4 } else s

def execFwGo (s : State) : Host.Outcome State Fault Refusal := cpWrite s .sec fwGo

/-- The header fields that FORMAT judges. -/
def fwFormatOk (h : List Byte) : Bool :=
  let len := leAt h 8 4
  leAt h 0 4 == 0x57465849 && leAt h 4 4 == 1 && len % 64 == 0 && decide (64 ≤ len) && decide (len ≤ 262144)
    && byteAt h 14 / 16 == 0 && byteAt h 15 == 0 && ((h.drop 22).take 42).all (· == 0) && ((h.drop 208).take 48).all (· == 0)

/-- Root keys that a lifecycle accepts (R411), less the revoked ones. -/
def rootOk (s : State) (k : Nat) : Bool := (decide (k ≤ 3) && (s.sec.lcs ≠ lcsProd || decide (k ≤ 2))) && !bit s.sec.rkrevoke k

/-- The checks that follow FORMAT, in their order; 1 when all pass. -/
def fwVerdict (s : State) (h payload : List Byte) : Nat :=
  if 0x0103 < leAt h 20 2 then 4
  else if !nbit (byteAt h 14) s.sec.lcs.toNat then 5
  else if !rootOk s (byteAt h 13) then 6
  else if s.sec.lcs ≠ lcsBlank && decide (byteAt h 12 < s.sec.svnfuse.toNat) then 7
  else if Config.sha384 payload ≠ (h.drop 64).take 48 then 8
  else if !Config.ecdsaOk (byteAt h 13) (Config.sha384 (h.take 112)) ((h.drop 112).take 48) ((h.drop 160).take 48) then 9
  else 1

/-- The image read and judged: the result, its header and its payload. -/
def fwCheck (s : State) : (Nat × List Byte × List Byte) × State :=
  let a := s.sec.fwBase.toNat
  let err := fun (s : State) (at_ : Nat) => ((2, [], []), recordErr s .sec { cause := cBrine, addr := some at_ })
  match rdHost s a 256 with
  | (none, s) => err s a
  | (some h, s) =>
    if !fwFormatOk h then ((3, h, []), s)
    else match rdHost s (a + 256) (leAt h 8 4) with
      | (none, s) => err s (a + 256)
      | (some p, s) => ((fwVerdict s h p, h, p), s)

/-- Salters that run firmware take the payload and start at ENTRY. -/
def fwStart (s : State) (h payload : List Byte) : State :=
  let mem := memPut [] 0 payload
  { s with slt := Vector.ofFn fun n =>
    let x := vget s.slt n
    if x.regs.cust || bit s.flt.fslt n.1 || (hdr s (.slt n)).mode == .isolated then x
    else { x.sequence with lmem := mem, mode := .run, pc := BitVec.ofNat 32 (leAt h 16 4), event := false, inTrap := false } }

/-! ### The steps that firmware runs after a warm start or a restart (R289, R381, R384, R453) -/

/-- The scale history from a valid checkpoint, with STALE; cold without one. -/
def restoreHistory (s : State) : State :=
  if s.pwr.ckptOk then { s with hist := s.ckpt.map fun (i, h) => (i, h.restored) } else { s with hist := [] }

/-- What a BUSY entry had begun resumes (R175). -/
def resumeRake (s : State) : State :=
  s.dir.foldl (fun s (m, e) =>
    if e.busy && !(s.rak.evq.any fun v => v.mid == m) && !(s.rak.retire.any fun v => v.mid == m) then
      rakeResume s m (dirRecord s m)
    else s) s

/-- Step 5 of a warm start: the flips of a held COMMIT are completed (R289). After a restart from RETAIN they wait for
ACTIVATE, which reads the shard records anew (R384). -/
def fwRestore (s : State) : State :=
  if s.flt.lastrst = 1 then resumeRake (issueFlips (restoreHistory s))
  else if s.flt.lastrst = 2 then restoreHistory s
  else s

/-- FIRMWARE_LOAD_DONE: the result of the load (R413 to R415, R451, R454). -/
def fwLoadDone (s : State) : State :=
  if !s.sec.fwRun then s
  else
    let ((res, h, p), s) := fwCheck s
    let s := modSec s fun x => { x with fwRun := false, fwRes := BitVec.ofNat 4 res }
    let starting := s.glb.bstage == 4
    if res = 1 then
      let s := modSec s fun x =>
        { x with fwSvn := BitVec.ofNat 8 (byteAt h 12), fwKey := BitVec.ofNat 2 (byteAt h 13), fwDigest := (h.drop 64).take 48 }
      let s := raiseInt (fwStart s h p) srcSec
      if starting then fwRestore (modGlb s fun g => { g with bstage := 5 }) else s
    else
      let s := modSec s fun x =>
        { x with fwFail := satAdd x.fwFail 1, fwLock := x.fwLock || decide (2 ≤ x.fwFail.toNat) }
      let s := raiseInt s srcSec
      if starting then raiseInt (modGlb s fun g => { g with bstage := 3 }) srcBoot else s

def execFirmwareLoadDone (bad : List Nat) (s : State) : Host.Outcome State Fault Refusal := .next (commandAs .core bad s fwLoadDone)

/-! ### Link keys (R416 to R418, R423, R429, R444) -/

/-- A key command completes with a result. -/
def keyResult (s : State) (r : BitVec 3) : State := raiseInt (modSec s fun x => { x with kres := r }) srcSec

/-- A key command refused, with its record (R472). -/
def keyRefused (s : State) : State := keyResult (dropOk s .sec 0x94 .security) 4

/-- What both key commands check first: KBUSY, the level of slot 1, the slot in use. -/
def keyCommand (s : State) (slot : Fin 2) (f : State → State) : State :=
  if s.sec.kload.isSome then keyResult s 6
  else if slot = 1 && decide ((hdr s .sec).abi.toNat < 0x0103) then keyResult s 4
  else if joined s && slot = s.sec.txksel then keyRefused s
  else f s

/-- KCMD LOAD. -/
def keyLoad (s : State) (slot : Fin 2) : State :=
  keyCommand s slot fun s =>
    if s.sec.lcs = lcsBlank || s.sec.lcs = lcsRma || s.sec.noload then keyRefused s
    else
      let s := modSec s fun x => { x with kload := some (slot, x.kid) }
      modPins s fun p => { p with keyKid := s.sec.kid, keyReq := !p.keyReq }

/-- KEY_LOAD (R416). -/
def execKeyLoad (slot : Fin 2) (s : State) : Host.Outcome State Fault Refusal := cpWrite s .sec (keyLoad · slot)

/-- KCMD ERASE. -/
def keyErase (s : State) (slot : Fin 2) : State := keyCommand s slot fun s => keyResult (eraseKeys s (fun i => i == slot) 3) 1

/-- KEY_ERASE (R429). -/
def execKeyErase (slot : Fin 2) (s : State) : Host.Outcome State Fault Refusal := cpWrite s .sec (keyErase · slot)

/-- A running load ends: KEY_KID is 0 again. -/
def keyEnd (s : State) (slot : Fin 2) (kid : W32) (r : BitVec 3) : State :=
  let s := modPins (modSec s fun x => { x with kload := none }) fun p => { p with keyKid := 0 }
  keyResult (traceKey s slot.1 (if r = 1 then 1 else 2) r.toNat kid) r

/-- The 256 key bits of four beats, the low one first. -/
def keyBits (beats : List W64) : BitVec 256 := BitVec.ofNat 256 (leNat (beats.flatMap fun (b : W64) => leBytes 8 b.toNat))

/-- The key manager's answer: OK with exactly four beats loads the slot, anything else is DENY. -/
def keyAck (s : State) (sts : BitVec 2) (beats : List W64) : State :=
  match s.sec.kload with
  | none => s
  | some (slot, kid) =>
    if sts = 0 && beats.length = 4 then
      let k : KeySlot :=
        { valid := true, kid := kid, ksess0 := s.twn.regs.session, key := keyBits beats, preAdopt := false }
      drainAll (keyEnd (modSec s fun x => { x with lk := vset x.lk slot k }) slot kid 1)
    else keyEnd s slot kid 2

/-- KEY_ACK (R444). -/
def execKeyAck (sts : BitVec 2) (beats : List W64) (s : State) : Host.Outcome State Fault Refusal := .next (keyAck s sts beats)

/-- KEY_TIMEOUT (R444). -/
def execKeyTimeout (s : State) : Host.Outcome State Fault Refusal :=
  .next (match s.sec.kload with
    | some (slot, kid) => keyEnd s slot kid 3
    | none => s)

/-- TXKSEL takes a slot that holds a key (R417, R465). -/
def txkselWrite (s : State) (slot : Fin 2) : State :=
  if slot = 1 && decide ((hdr s .sec).abi.toNat < 0x0103) then dropOk s .sec 0xB0 .level
  else if !(vget s.sec.lk slot).valid then dropOk s .sec 0xB0 .state
  else drainAll (modSec s fun x => { x with txksel := slot })

/-- TXKSEL_WRITE (R417). -/
def execTxkselWrite (slot : Fin 2) (s : State) : Host.Outcome State Fault Refusal := cpWrite s .sec (txkselWrite · slot)

/-! ### Debug levels (R420 to R428) -/

/-- DBGMAX: a raise is dropped, a lower value takes effect at once. -/
def dbgmaxWrite (s : State) (v : BitVec 2) : State :=
  if s.sec.dbgmax.toNat < v.toNat then dropOk s .sec 0xB8 .security
  else
    let s := modSec s fun x => { x with dbgmax := v }
    if v.toNat < s.sec.dbglvl.toNat then setLevel s v 5 else s

/-- DBGMAX_WRITE (R421). -/
def execDbgmaxWrite (v : BitVec 2) (s : State) : Host.Outcome State Fault Refusal := cpWrite s .sec (dbgmaxWrite · v)

/-- The level that a grant gives (R420); in BLANK the grant is ignored. -/
def grantLevel (s : State) (v : BitVec 2) : BitVec 2 :=
  let g := if s.sec.lcs = lcsBlank then 2 else v.toNat
  BitVec.ofNat 2 (min (min g 2) s.sec.dbgmax.toNat)

/-- A grant taken up: INVASIVE in PROD erases the keys and fences the instance first (R423). -/
def debugGrant (s : State) (v : BitVec 2) : State :=
  if s.pins.rstLow || s.wrap.taken || s.pwr.pstate = .off || s.pwr.pstate = .retain || s.flt.pfstate ≠ 0 then s
  else
    let lvl := grantLevel s v
    let s := modSec s fun x => { x with dbggrant := v }
    let s := if lvl = 2 && s.sec.lcs = lcsProd && s.sec.dbglvl ≠ 2 then
        enterFenced (modSec (eraseBoth s 4) fun x => { x with noload := true })
      else s
    modPins (setLevel s lvl 1) fun p => { p with dbgAck := !p.dbgAck }

/-- DEBUG_GRANT (R420). -/
def execDebugGrant (v : BitVec 2) (s : State) : Host.Outcome State Fault Refusal := .next (debugGrant s v)

/-! ### The debug window (R491) -/

/-- Bytes of the memory of a window unit. -/
def dwSize (u : Nat) : Nat := if u < 0x40 then 0x400000 else if u < 0x48 then 0x10000 else if u < 0x50 then 0x40000 else 0

/-- Whether the window names a memory word: within its unit's memory, and of a pan that is not GATED. -/
def dwOk (s : State) : Bool :=
  let t := s.tst.regs
  let u := t.dwUnit.toNat
  decide (t.dwAddr.toNat / 8 * 8 + 8 ≤ dwSize u) && (if h : u < 64 then (pn s ⟨u, h⟩).pwr != .gated else true)

/-- Bytes that a unit's memory holds at the window; what the spec gives no contents is a free value. -/
def dwBytes (s : State) : List Byte × State :=
  let u := s.tst.regs.dwUnit.toNat
  let a := s.tst.regs.dwAddr.toNat / 8 * 8
  let free := fun (m : SMap Byte) =>
    (List.range 8).foldl (fun (bs, s) i =>
      match m.find? fun x => x.1 = a + i with
      | some x => (bs ++ [x.2], s)
      | none => let (v, s) := takeFree 8 s; (bs ++ [v], s)) (([] : List Byte), s)
  if h : u < 64 then free (pn s ⟨u, h⟩).store
  else if h : 0x40 ≤ u ∧ u < 0x48 then free (eng s ⟨u - 0x40, by omega⟩).store
  else if h : 0x48 ≤ u ∧ u < 0x50 then (memBytes (salt s ⟨u - 0x48, by omega⟩).lmem a 8, s)
  else (List.replicate 8 0, s)

/-- Bytes kept whatever their value: a window's store lists zeros too. -/
def storePut (m : SMap Byte) (a : Nat) (bs : List Byte) : SMap Byte :=
  (List.range bs.length).foldl (fun m i =>
    (m.filter fun x => x.1 < a + i) ++ [(a + i, bs.getD i 0)] ++ m.filter fun x => a + i < x.1) m

/-- 8 bytes stored at the window. -/
def dwPut (s : State) (bs : List Byte) : State :=
  let u := s.tst.regs.dwUnit.toNat
  let a := s.tst.regs.dwAddr.toNat / 8 * 8
  if h : u < 64 then modPan s ⟨u, h⟩ fun x => { x with store := storePut x.store a bs }
  else if h : 0x40 ≤ u ∧ u < 0x48 then modEng s ⟨u - 0x40, by omega⟩ fun x => { x with store := storePut x.store a bs }
  else if h : 0x48 ≤ u ∧ u < 0x50 then modSlt s ⟨u - 0x48, by omega⟩ fun x => { x with lmem := memPut x.lmem a bs }
  else s

/-- An access of the high word has completed: DW_ADDR moves on. -/
def dwStep (s : State) : State := modTstR s fun t => { t with dwAddr := t.dwAddr + 8 }

/-- A read of the low word reads the 8 bytes and latches the high word (R457); one of the high word returns it. -/
def dwRead (s : State) (hi : Bool) : State :=
  if s.sec.dbglvl = 0 then answer s cpOk 0
  else if !dwOk s then answer (modTstR s fun t => { t with dwErr := true }) cpOk 0
  else if !hi then
    let (bs, s) := dwBytes s
    let s := modHdr s .tst fun h => { h with latch := some (0x90, BitVec.ofNat 32 (leAt bs 4 4)) }
    answer s cpOk (BitVec.ofNat 32 (leAt bs 0 4))
  else match (hdr s .tst).latch with
    | some (0x90, w) => answer (dwStep (modHdr s .tst fun h => { h with latch := none })) cpOk w
    | _ =>
      let (bs, s) := dwBytes s
      answer (dwStep s) cpOk (BitVec.ofNat 32 (leAt bs 4 4))

/-- DW_DATA_READ (R491). -/
def execDwDataRead (hi : Bool) (s : State) : Host.Outcome State Fault Refusal := cpWrite s .tst (dwRead · hi)

/-- A write of the low word is held; one of the high word stores both (R457). -/
def dwWrite (s : State) (hi : Bool) (w : W32) : State :=
  if s.sec.dbglvl ≠ 2 then dropOk s .tst (if hi then 0x94 else 0x90) .security
  else if !hi then modHdr s .tst fun h => { h with hold := some (0x90, w) }
  else if !dwOk s then modTstR s fun t => { t with dwErr := true }
  else
    let lo := match (hdr s .tst).hold with
      | some (0x90, v) => v.toNat
      | _ => s.tst.regs.dwData.toNat % 2 ^ 32
    let s := modHdr s .tst fun h => { h with hold := none }
    let s := modTstR s fun t => { t with dwData := BitVec.ofNat 64 (lo + 2 ^ 32 * w.toNat) }
    dwStep (dwPut s (leBytes 8 (lo + 2 ^ 32 * w.toNat)))

/-- DW_DATA_WRITE (R491). -/
def execDwDataWrite (hi : Bool) (data : W32) (s : State) : Host.Outcome State Fault Refusal := cpWrite s .tst (dwWrite · hi data)

/-! ### Halting units (R492) -/

/-- A unit's debug halt bit set or cleared. -/
def setDh (s : State) (u : Nat) (b : Bool) : State :=
  modTstR s fun t =>
    if u < 64 then { t with dhPan := setBit t.dhPan u b }
    else if u < 0x48 then { t with dhHrv := setBit t.dhHrv (u - 0x40) b }
    else if u < 0x50 then { t with dhSlt := setBit t.dhSlt (u - 0x48) b } else { t with dhRak := b }

/-- Whether a DH_CMD may act on a unit: it is neither GATED nor fenced. -/
def dhUnitOk (s : State) (u : Nat) : Bool :=
  !unitFenced s u && (if h : u < 64 then (pn s ⟨u, h⟩).pwr != .gated else true)

/-- What every DH_CMD checks. -/
def dhCommand (s : State) (u : Nat) (f : State → State) : State :=
  if s.sec.dbglvl ≠ 2 then dropOk s .tst 0xA0 .security
  else if 0x50 < u then dropOk s .tst 0xA0 .range
  else if !dhUnitOk s u then dropOk s .tst 0xA0 .state
  else f s

/-- HALT. -/
def dhHalt (s : State) (u : Nat) : State := dhCommand s u fun s => useStep (setDh s u true) u
/-- STEP: one piece of work, then halted again. -/
def dhStep (s : State) (u : Nat) : State :=
  dhCommand s u fun s => modTst (useStep (setDh s u true) u) fun t => { t with stepping := t.stepping ++ [u] }
/-- RESUME. -/
def dhResume (s : State) (u : Nat) : State := dhCommand s u fun s => useStep (setDh s u false) u

/-- DH_HALT (R492). -/
def execDhHalt (unit : Byte) (s : State) : Host.Outcome State Fault Refusal := cpWrite s .tst (dhHalt · unit.toNat)
/-- DH_STEP (R492). -/
def execDhStep (unit : Byte) (s : State) : Host.Outcome State Fault Refusal := cpWrite s .tst (dhStep · unit.toNat)
/-- DH_RESUME (R492). -/
def execDhResume (unit : Byte) (s : State) : Host.Outcome State Fault Refusal := cpWrite s .tst (dhResume · unit.toNat)

end Sys2Proof.Machine
end

