-- ==== Sys2Proof/Machine/Start.lean ====
section
/-! DEFINITION. Resets and the start sequences (spec/16_ports_and_bring_up.md R434, R449 to R454; spec/13 R381, R384;
spec/18 R475; spec/17 R459, R469 to R472). -/

namespace Sys2Proof.Machine

/-! ### Cold reset (R434, R451) -/

/-- Every register and memory of the block at its reset value; the surroundings are as they were. -/
def coldClear (s : State) : State :=
  { State.reset with
    pending := s.pending, host := s.host, sent := s.sent, free := s.free
    wrap := { s.wrap with taken := false }
    pins := { lcsState := s.pins.lcsState, lcsSvn := s.pins.lcsSvn, lcsRevoke := s.pins.lcsRevoke, rstLow := true } }

/-- RST_N_LOW (R434): supplies fall at once and the control port takes no request. -/
def execRstNLow (s : State) : Host.Outcome State Fault Refusal := .next (coldClear s)

/-- The lifecycle pins sampled (R409); in BLANK the debug level is DBGMAX (R411, R420). -/
def sampleLcs (s : State) (lcs : BitVec 4) (svn : BitVec 6) (revoke : BitVec 4) : State :=
  let (st, bad) := lcsOf lcs
  let s := modPins s fun p => { p with lcsState := lcs, lcsSvn := svn, lcsRevoke := revoke }
  modSec s fun x =>
    { x with lcs := st, lcsbad := bad, svnfuse := svn, rkrevoke := revoke, dbglvl := if st = lcsBlank then x.dbgmax else 0 }

/-- Steps 1 and 2 of the cold start. -/
def coldStart (s : State) (lcs : BitVec 4) (svn : BitVec 6) (revoke : BitVec 4) : State :=
  let s := modPins (sampleLcs (coldClear s) lcs svn revoke) fun p => { p with rstLow := false }
  suppliesOn (modGlb s fun g => { g with bstage := 1 })

/-- COLD_RESET (R451). -/
def execColdReset (lcs : BitVec 4) (svn : BitVec 6) (revoke : BitVec 4) (s : State) : Host.Outcome State Fault Refusal :=
  .next (coldStart s lcs svn revoke)

/-! ### Power, clocks and memories (R394, R451, R454) -/

def allGood : BitVec 17 := 0x1FFFF

/-- PWR_GOOD_RISE (R451, R394). -/
def execPwrGoodRise (s : State) : Host.Outcome State Fault Refusal :=
  .next (if !s.pins.vidSEn then s
    else
      let s := modPins s fun p => { p with pwrGood := allGood }
      if s.pwr.ptrans = some .retainPower then modPwr s fun p => { p with ptrans := some .retainLock } else s)

/-- Whether the core PLL is waited for. -/
def lockAwaited (s : State) : Bool :=
  !s.pins.rstLow && ((s.glb.bstage == 1 && s.pwr.pstate == .active && s.pins.pwrGood == allGood)
    || s.pwr.ptrans == some .dozeWake || s.pwr.ptrans == some .retainLock)

/-- The PLLs lock: at FMUL. -/
def pllLock (s : State) : State :=
  if !lockAwaited s then s
  else match s.pwr.ptrans with
    | some .dozeWake => dozeWoken s
    | some .retainLock => modPwr s fun p => { p with ptrans := some .retainInit, fnow := p.fmul }
    | _ => modPwr (modGlb s fun g => { g with bstage := 2 }) fun p => { p with fnow := p.fmul }

/-- PLL_LOCK (R451). -/
def execPllLock (s : State) : Host.Outcome State Fault Refusal := .next (command [] s pllLock)

/-- SRAM initialisation ends: FWWAIT. After RETAIN the block is ACTIVE again and the first flags carry FAULT (R358). -/
def sramInitDone (s : State) : State :=
  if s.pwr.ptrans = some .retainInit then
    let s := modPwr s fun p => { p with pstate := .active, ptrans := none, pres := 1 }
    let s := modFlt (modVrd s fun v => { v with pendFt := true }) fun f => { f with lastrst := 2 }
    raiseInt (tracePower (modGlb s fun g => { g with bstage := 3 }) .retain .active 0) srcBoot
  else if s.glb.bstage = 2 then raiseInt (modGlb s fun g => { g with bstage := 3 }) srcBoot
  else s

/-- SRAM_INIT_DONE (R451). -/
def execSramInitDone (s : State) : Host.Outcome State Fault Refusal := .next (sramInitDone s)

/-- PLLFAIL (R454). -/
def execPllfail (s : State) : Host.Outcome State Fault Refusal :=
  .next (if lockAwaited s then raiseInt (modGlb s fun g => { g with pllfail := true }) srcBoot else s)

/-- PWRFAIL (R454): the start waits for the bits named. -/
def execPwrfail (missing : BitVec 17) (s : State) : Host.Outcome State Fault Refusal :=
  .next (if !s.pins.rstLow && s.pins.vidSEn && s.pins.pwrGood ≠ allGood && (s.glb.bstage = 1 || s.pwr.ptrans = some .retainPower) then
      raiseInt (modGlb s fun g => { g with pwrfail := missing }) srcBoot
    else s)

/-! ### Self-test and links (R451, R452, R454) -/

/-- What the start self-test found. -/
structure SelfTest where
  pans : W64
  hrv : Byte
  slt : Byte
  rake : Bool

/-- A unit that the start tests: neither fenced nor bypassed. -/
def tested (s : State) (u : Nat) : Bool := !unitFenced s u && !unitBypassed s u

def SelfTest.passes (t : SelfTest) (u : Nat) : Bool :=
  if u < 64 then bit t.pans u else if u < 0x48 then bit t.hrv (u - 0x40)
  else if u < 0x50 then bit t.slt (u - 0x48) else t.rake

/-- The units of the start self-test. -/
def startUnits : List Nat := List.range 0x51

/-- A salter that can handle errors: tested and passing, the named one first. -/
def chooseHsalt (s : State) (t : SelfTest) : Option (Fin 8) :=
  let ok := fun (n : Fin 8) => tested s (0x48 + n.1) && t.passes (0x48 + n.1)
  if ok s.flt.hsalt then some s.flt.hsalt else (List.finRange 8).find? ok

/-- The passing pans with the largest LIVETICKS, higher numbers first, as many as exceed 60 (R452). -/
def reserveOf (s : State) (passing : List (Fin 64)) : List (Fin 64) :=
  let before := fun (a b : Fin 64) => decide (ticksOf s b < ticksOf s a) || (ticksOf s a == ticksOf s b && decide (b.1 < a.1))
  (sortBy before passing).take (passing.length - 60)

/-- The pan map and the reserve. -/
def choosePans (s : State) (t : SelfTest) : State :=
  let passing := (List.finRange 64).filter fun p => tested s p.1 && t.passes p.1
  let rsv := reserveOf s passing
  let live := passing.filter fun p => !rsv.contains p
  let s := modGlb s fun g => { g with panmap := Vector.ofFn fun l =>
    match live[l.1]? with
    | some p => { missing := false, phys := p }
    | none => {} }
  let s := modFlt s fun f => { f with rsvok := rsv.foldl (fun m p => setBit m p.1 true) 0 }
  let s := { s with pan := s.pan.map fun x => { x with pwr := .gated, store := [], testedAt := s.pwr.tick.toNat } }
  if live.length < 60 then raiseInt (modFlt s fun f => { f with nospare := true }) srcNoSpare else s

/-- Failing units recorded and fenced (R452, R499), and the tests counted. -/
def fenceFailing (s : State) (t : SelfTest) : State :=
  let us := startUnits.filter (tested s)
  let bad := us.filter fun u => !t.passes u
  let s := modTstR s fun x =>
    { x with svTests := satAdd x.svTests us.length, svFails := satAdd x.svFails bad.length }
  bad.foldl (fun s u => testFail s u 0) s

/-- A link that may train. -/
def linkTrains (s : State) (k : Fin 8) : Bool := !bit s.tst.regs.bypLnk k.1

/-- Step 11: every link has ended its training. -/
def startConfig (s : State) : State :=
  if s.glb.bstage = 6 && !((List.finRange 8).any fun k => (lk s k).regs.ltrain) then
    raiseInt (modGlb s fun g => { g with bstage := 7 }) srcBoot
  else s

/-- Steps 9 and 10: the units chosen, the links put into training. -/
def selftestDone (s : State) (t : SelfTest) : State :=
  if s.glb.bstage ≠ 5 then s
  else match chooseHsalt s t with
    | none => raiseInt (modGlb s fun g => { g with stfail := true }) srcBoot
    | some n =>
      let s := if n = s.flt.hsalt then s else raiseInt (modFlt s fun f => { f with hsalt := n }) srcBoot
      let s := choosePans (fenceFailing s t) t
      let s := modGlb s fun g => { g with bstage := 6 }
      startConfig ((List.finRange 8).foldl (fun s k => if linkTrains s k then startTraining s k else s) s)

/-- SELFTEST_DONE (R452). -/
def execSelftestDone (pans : W64) (hrv slt : Byte) (rake : Bool) (s : State) : Host.Outcome State Fault Refusal :=
  .next (selftestDone s { pans := pans, hrv := hrv, slt := slt, rake := rake })

/-- LINK_TRAIN_DONE (R323, R451, R454). -/
def execLinkTrainDone (k : Fin 8) (lanes : BitVec 9) (up : Bool) (s : State) : Host.Outcome State Fault Refusal :=
  .next (if s.pins.rstLow || s.wrap.taken || (hdr s (.lnk k)).mode = .isolated then s
    else
      let starting := s.glb.bstage == 6
      let s := modLkR (trainDone s k lanes up) k fun r => { r with ltrain := false }
      let s := if starting && !up then raiseInt s srcBoot else s
      startConfig s)

/-! ### Warm reset (R384, R434, R453, R459, R475) -/

/-- A page header over warm reset: the fields of R363 stay; fenced units read FAULTED, bypassed ones ISOLATED. -/
def warmHdr (h : PageHdr) : PageHdr :=
  { err := h.err, errmsk := h.errmsk, errsev := h.errsev, ovr := h.ovr, corrcnt := h.corrcnt
    slotA := { h.slotA with replayOpen := false }, slotB := { h.slotB with replayOpen := false } }

/-- What a unit's page reads after the reset. -/
def warmModes (s : State) : State :=
  startUnits.foldl (fun s u =>
    match testPage u with
    | some p =>
      if unitBypassed s u then modHdr s p fun h => { h with mode := .isolated }
      else if unitFenced s u then modHdr s p fun h => { h with mode := .faulted } else s
    | none => s)
    ((List.finRange 8).foldl (fun s k =>
      if bit s.tst.regs.bypLnk k.1 then modHdr s (.lnk k) fun h => { h with mode := .isolated } else s) s)

/-- TIDE over warm reset (R470). -/
def warmTide (t : Tide) : Tide :=
  { ent := t.ent.map fun e => { ten := e.ten, task := e.task, fsalt := e.fsalt, tkind := e.tkind, period := e.period } }

/-- FLT over warm reset (R365); PFSTATE is IDLE again, so that a reset ends the stop of R383. -/
def warmFlt (f : Flt) : Flt := { f with eqPi := 0, eqCi := 0, eqWait := [], lastrst := 1, pfstate := 0 }

/-- VRD over warm reset: the open step's status is gone; its flags carry FAULT (R381). -/
def warmVrd (v : Vrd) : Vrd :=
  { regs := { v.regs with closed := false, njobs := 0, sent := false, oflags := 0, vjobs := 0 }
    activated := v.activated, pendFt := true, skipInt := v.skipInt, takeDep := v.takeDep, flipping := v.flipping, due := v.due }

/-- TWN over warm reset: JSTATE reads IDLE or FENCED, and the link layer's pairs are gone. -/
def warmTwn (t : Twn) : Twn :=
  { regs := { t.regs with jstate := if t.regs.jstate = .fenced then .fenced else .idle }
    sess := t.sess, holds := t.holds, adoptedBy := t.adoptedBy, jseq := t.jseq, jout := t.jout, jin := t.jin
    mirror := t.mirror, mirrorBlk := t.mirrorBlk, hbcount := t.hbcount, rejoin := true, releasing := t.releasing
    tkNum := t.tkNum, tkShards := t.tkShards, tkDirs := t.tkDirs, tkWork := t.tkWork, rtag := t.rtag }

/-- A LNK page over warm reset. -/
def warmLnk (x : Lnk) : Lnk :=
  let r := x.regs
  { regs :=
    { lquad := r.lquad, lshare := r.lshare, lanefail := r.lanefail, corrthr := r.corrthr, feccorr := r.feccorr, fecunc := r.fecunc
      crcerr := r.crcerr, retx := r.retx, noroom := r.noroom, winerr := r.winerr, strtype := r.strtype, strdom := r.strdom
      strdst := r.strdst, strsrc := r.strsrc, strauth := r.strauth, rto := r.rto, bobase := r.bobase, retrylim := r.retrylim } }

/-- A QD page over warm reset; a quad whose code is not VMAX requests it, its pans being gated (R400). -/
def warmQd (x : Qd) : Qd :=
  let y : Qd := { vmin := x.vmin, vmax := x.vmax, slacklo := x.slacklo, slackhi := x.slackhi, rpoff := x.rpoff, strcnt := x.strcnt
                  vidCode := x.vidCode, vidReq := x.vidReq, vidEn := x.vidEn }
  if x.vidEn && x.vidCode ≠ x.vmax then { y with vidCode := x.vmax, vidReq := !x.vidReq, reqout := some x.vmax } else y

/-- The TST page over warm reset (R475, R498). -/
def warmTst (t : Tst) : Tst :=
  let r := t.regs
  { regs := { trPi := r.trPi, svTests := r.svTests, svFails := r.svFails, bypPan := r.bypPan, bypHrv := r.bypHrv, bypSlt := r.bypSlt
              bypRak := r.bypRak, bypLnk := r.bypLnk, tempmax := r.tempmax }
    passed := t.passed }

/-- Holds of abandoned orders and fetches are gone; the remote ones stay (R338). -/
def warmHolds (s : State) : State :=
  let n := fun (p : RHold → Bool) => BitVec.ofNat 8 (s.twn.holds.filter p).length
  let s := { s with shard := smMap {} (fun i h =>
    { h with rdrA := if h.srec.masked then 0 else n fun x => x.shard == i && !x.slot
             rdrB := if h.srec.masked then 0 else n fun x => x.shard == i && x.slot
             fetch := none, held := [], pgWait := none }) s.shard }
  let m := fun (x : RHold) => let h := shardOf s x.shard; if h.srec.masked then some h.srec.mid else none
  { s with dir := smMap {} (fun i e =>
    { e with rdrA := n fun x => m x == some i && !x.slot, rdrB := n fun x => m x == some i && x.slot }) s.dir }

/-- The block as a warm reset leaves it. -/
def warmClear (s : State) : State :=
  let t : State :=
    { State.reset with
      pending := s.pending, host := s.host, sent := s.sent, free := s.free, res := s.res, ckpt := s.ckpt, tail := s.tail
      dir := s.dir, shard := s.shard, salino := s.salino, hist := s.hist, pond := s.pond, sal := s.sal
      wrap := s.wrap, pins := s.pins
      glb := { inst := s.glb.inst, bstage := 4 }
      sec := s.sec, pwr := { s.pwr with ptrans := none, wakeCmd := false, heldMsg := [], pstate := .active }
      tide := warmTide s.tide, flt := warmFlt s.flt, vrd := warmVrd s.vrd, twn := warmTwn s.twn
      lnk := s.lnk.map warmLnk, qd := s.qd.map warmQd, tst := warmTst s.tst
      hrv := Vector.ofFn fun n =>
        let r := (vget s.hrv n).regs
        { regs := { hquad := r.hquad, hshare := r.hshare } }
      slt := Vector.ofFn fun n =>
        let r := (vget s.slt n).regs
        { regs := { squad := r.squad, sshare := r.sshare, cust := r.cust } }
      rak := { regs := { quad := s.rak.regs.quad, share := s.rak.regs.share, xcBase := s.rak.regs.xcBase
                         xcSize := s.rak.regs.xcSize, events := s.rak.regs.events } }
      pan := s.pan.map fun x => { regs := { liveticks := x.regs.liveticks }, testedAt := x.testedAt }
      hdrs := s.hdrs.map warmHdr }
  warmModes (warmHolds t)

/-- Whether WRST_N is taken: ACTIVE or DOZE, RST_N high, the core not taken (R434, R496). -/
def warmTaken (s : State) : Bool :=
  !(s.pins.rstLow || s.wrap.taken) && (s.pwr.pstate == .active || s.pwr.pstate == .doze)

/-- Steps 1 to 3 of the warm start, and the reload of step 4 begun. -/
def warmStart (s : State) : State :=
  let woken := s.pwr.pstate == .doze
  let s := warmClear (endSession (abandonAll (abortTests s)) 3)
  let s := if woken then modPwr s fun p => { p with fnow := p.fmul } else s
  modSec s fun x => { x with fwRun := true }

/-- WARM_RESET (R453). -/
def execWarmReset (s : State) : Host.Outcome State Fault Refusal := .next (if warmTaken s then warmStart s else s)

end Sys2Proof.Machine
end

