-- ==== Sys2Proof/Machine/Header.lean ====
section
/-! DEFINITION. The commands of the common page header: PG_CTL, PG_ABI, the configuration reject record, error
acknowledgement and injection, and UNFENCE (spec/17_register_conventions.md R459 to R465; spec/18 R474; spec/19 R501 to
R503; spec/13 R360, R379, R385, R386; spec/00 R5). -/

namespace Sys2Proof.Machine

/-! ### PG_CTL (R461, R462, R474) -/

/-- A command of PG_CTL [4:0]. -/
inductive PgCmd where
  | run | stop | quiesce | isolate | bypass
  deriving DecidableEq, Repr

/-- Whether a page admits a command at all. -/
def pageAdmits (p : PageId) (c : PgCmd) : Bool :=
  match p with
  | .glb | .tide | .flt | .qd _ => c == .run || c == .stop || c == .quiesce
  | .vrd => c == .run || c == .stop
  | .pan _ | .hrv _ | .slt _ | .rak | .lnk _ => true
  | .sec | .pwr | .sal | .twn | .tst => false

/-- PG_CTL's offset in every page. -/
def offCtl : Nat := 0x10

def ctlState (s : State) (p : PageId) : State := dropOk s p offCtl .state

/-- Entries 7 to 15 released at once with DEBT 0 at RUN, or suspended at STOP (R462). -/
def tideFw (s : State) (susp : Bool) : State :=
  modTide s fun t => { t with ent := Vector.ofFn fun e =>
    let x := vget t.ent e
    if e.1 < 7 then x
    else if susp then { x with susp := true }
    else { x with susp := false, next := 0, debt := 0, nextQ := 0 } }

/-- A unit stops: the mode and what the page's rule adds. -/
def stopUnit (s : State) (p : PageId) (m : UMode) : State :=
  let m := match p with | .qd _ => .stopping | _ => m
  let s := modHdr s p fun h => { h with mode := m }
  match p with
  | .tide => tideFw s true
  | .pan q => match logOf s q with
    | some l => if m = .stopping then abortParked s l else s
    | none => s
  | _ => s

/-- STOP and QUIESCE. -/
def stopCommand (s : State) (p : PageId) (m : UMode) : State :=
  match pageState s p with
  | .idle | .running =>
    if p = .vrd && (s.twn.regs.jstate = .joining || s.twn.regs.jstate = .joined) then ctlState s p else stopUnit s p m
  | .quiescing | .stopped => s
  | .isolated | .faulted => ctlState s p

/-- What waits for a unit goes on at RUN. -/
def runUnit (s : State) (p : PageId) : State :=
  let s := modHdr s p fun h => { h with mode := .active, clkreq := false }
  match p with
  | .tide => tideFw s (s.pwr.pstate == .doze)
  | .lnk _ => serveHeld s
  | .rak => modRak s fun r => { r with cmd := r.cmd.map fun c => { c with held := false } }
  | .pan _ | .glb => serveWakes s
  | _ => s

/-! ### ISOLATE, BYPASS and the return (R501, R502) -/

/-- A page's test unit code; none for a page that ISOLATE does not act on, the links apart. -/
def unitCode : PageId → Option Nat
  | .pan p => some p.1
  | .hrv n => some (0x40 + n.1)
  | .slt n => some (0x48 + n.1)
  | .rak => some 0x50
  | _ => none

/-- Whether a page's unit is bypassed. -/
def pageBypassed (s : State) (p : PageId) : Bool :=
  match p, unitCode p with
  | .lnk k, _ => bit s.tst.regs.bypLnk k.1
  | _, some u => unitBypassed s u
  | _, none => false

/-- A page set ISOLATED; PASSes before it count no more. -/
def setIsolated (s : State) (p : PageId) : State :=
  let s := modHdr s p fun h => { h with mode := .isolated }
  match unitCode p with
  | some u => unpass s u
  | none => s

/-- ISOLATE of a pan: a reserve takes its logical number, if it carries one. -/
def isolatePan (s : State) (p : Fin 64) : State :=
  match logOf s p with
  | none =>
    if (pn s p).wakeFor.isSome then ctlState s (.pan p)
    else
      let s := modFlt s fun f => { f with rsvok := setBit f.rsvok p.1 false }
      gatePan (setIsolated s (.pan p)) p
  | some l =>
    match lowReserve s with
    | some r =>
      if (List.finRange 64).any fun q => (pn s q).wakeFor = some l then ctlState s (.pan p)
      else claimReserve (modHdr (unpass s p.1) (.pan p) fun h => { h with mode := .stopping }) r l true
    | none => ctlState s (.pan p)

/-- Whether another harvest engine is live. -/
def otherEngine (s : State) (n : Fin 8) : Bool :=
  (List.finRange 8).any fun m => m ≠ n && !bit s.flt.fhrv m.1 && (hdr s (.hrv m)).mode != .isolated && (hdr s (.hrv m)).mode != .faulted

/-- Whether every ROUTE entry naming a link has a valid alternate. -/
def routesMove (s : State) (k : Fin 8) : Bool :=
  (List.finRange 64).all fun i =>
    let r := vget s.twn.regs.route i
    routeLink r ≠ some k || (routeAlt r).isSome

/-- ISOLATE. -/
def isolateCommand (s : State) (p : PageId) : State :=
  let st := pageState s p
  let calm := st == .stopped || st == .idle
  match p with
  | .pan q => if calm then isolatePan s q else ctlState s p
  | .hrv n => if calm && otherEngine s n then setIsolated s p else ctlState s p
  | .slt n => if calm && n ≠ s.flt.hsalt then setIsolated (releaseFetches s n) p else ctlState s p
  | .rak => if st == .stopped && s.rak.evq.isEmpty && s.rak.retire.isEmpty && !(s.dir.any fun x => x.2.busy) then setIsolated s p
      else ctlState s p
  | .lnk k => if st == .stopped && routesMove s k then routesDown (lanesOff (setIsolated s p) k) k else ctlState s p
  | _ => ctlState s p

/-- RUN from ISOLATED: a tested unit returns to service, a pan to the reserve; a link trains. -/
def runIsolated (s : State) (p : PageId) : State :=
  if pageBypassed s p then ctlState s p
  else match p, unitCode p with
    | .lnk k, _ => startTraining (modHdr s p fun h => { h with mode := .active, clkreq := false }) k
    | _, some u =>
      if !s.tst.passed.contains u then ctlState s p
      else
        let s := unpass (modHdr s p fun h => { h with mode := .active, clkreq := false }) u
        match p with
        | .pan q => serveMissing (gatePan (modFlt s fun f => { f with rsvok := setBit f.rsvok q.1 true }) q)
        | _ => s
    | _, none => ctlState s p

/-- BYPASS: the unit is gated and out of service until cold reset. -/
def bypassCommand (s : State) (p : PageId) : State :=
  match pageState s p with
  | .isolated | .faulted =>
    let s := modHdr s p fun h => { h with mode := .isolated, clkreq := false }
    match p with
    | .pan q => gatePan (modFlt (modTstR s fun t => { t with bypPan := setBit t.bypPan q.1 true }) fun f =>
        { f with rsvok := setBit f.rsvok q.1 false }) q
    | .hrv n => modTstR s fun t => { t with bypHrv := setBit t.bypHrv n.1 true }
    | .slt n => modTstR s fun t => { t with bypSlt := setBit t.bypSlt n.1 true }
    | .rak => modTstR s fun t => { t with bypRak := true }
    | .lnk k => modTstR s fun t => { t with bypLnk := setBit t.bypLnk k.1 true }
    | _ => s
  | _ => ctlState s p

/-- RUN. -/
def runCommand (s : State) (p : PageId) : State :=
  match pageState s p with
  | .stopped => runUnit s p
  | .idle | .running => s
  | .isolated => runIsolated s p
  | .quiescing | .faulted => ctlState s p

/-- A salter whose commands only firmware may give: CUST is 0 (R474). -/
def firmwareOnly (s : State) (p : PageId) : Bool :=
  match p with
  | .slt n => !(salt s n).regs.cust
  | _ => false

/-- A PG_CTL command. -/
def pgCommand (s : State) (p : PageId) (c : PgCmd) : State :=
  if !pageAdmits p c then ctlState s p
  else if firmwareOnly s p then dropOk s p offCtl .security
  else match c with
    | .run => runCommand s p
    | .stop => stopCommand s p .stopping
    | .quiesce => stopCommand s p .quiescing
    | .isolate => isolateCommand s p
    | .bypass => bypassCommand s p

/-- RUN (R461). -/
def execRun (p : PageId) (s : State) : Host.Outcome State Fault Refusal := cpWrite s p fun s => command [] s (pgCommand · p .run)
/-- STOP (R461). -/
def execStop (p : PageId) (s : State) : Host.Outcome State Fault Refusal := cpWrite s p fun s => command [] s (pgCommand · p .stop)
/-- QUIESCE (R461). -/
def execQuiesce (p : PageId) (s : State) : Host.Outcome State Fault Refusal :=
  cpWrite s p fun s => command [] s (pgCommand · p .quiesce)
/-- ISOLATE (R501). -/
def execIsolate (p : PageId) (s : State) : Host.Outcome State Fault Refusal :=
  cpWrite s p fun s => command [] s (pgCommand · p .isolate)
/-- BYPASS (R501). -/
def execBypass (p : PageId) (s : State) : Host.Outcome State Fault Refusal :=
  cpWrite s p fun s => command [] s (pgCommand · p .bypass)

/-! ### PG_ABI and PG_CFGREJ (R5, R463, R465) -/

/-- A level that the page accepts: generation 1, minor level at most that of PG_VER. -/
def levelOk (v : W16) : Bool := v.toNat / 256 == 1 && decide (v.toNat ≤ 0x0103)

def abiWrite (s : State) (p : PageId) (v : W16) : State :=
  if !unlocked s p then dropReject s p 0x0C .runlock
  else if !levelOk v then dropOk s p 0x0C .level
  else sendRouted s (modHdr s p fun h => { h with abi := v })

/-- PG_ABI_WRITE (R5). -/
def execPgAbiWrite (p : PageId) (v : W16) (s : State) : Host.Outcome State Fault Refusal := cpWrite s p (abiWrite · p v)

/-- The reject record cleared (R463). -/
def cfgrejClear (s : State) (p : PageId) : State :=
  modHdr s p fun h => { h with rejValid := false, rejOff := 0, rejCause := 0, rejCnt := 0 }

/-- CFGREJ_CLEAR (R463). -/
def execCfgrejClear (p : PageId) (s : State) : Host.Outcome State Fault Refusal := cpWrite s p (cfgrejClear · p)

/-! ### Error records (R360, R363) -/

/-- Slot A acknowledged: slot B moves into it. A DATA record whose replay has not ended stays. -/
def errorAck (s : State) (p : PageId) : State :=
  let a := (hdr s p).slotA
  if !a.valid then s
  else if a.cls = 1 && a.replayOpen then dropReject s p 0x28 .state
  else modHdr s p fun h => { h with slotA := h.slotB, slotB := {} }

/-- ERROR_ACK (R360). -/
def execErrorAck (p : PageId) (s : State) : Host.Outcome State Fault Refusal := cpWrite s p (errorAck · p)

/-- OVR and CORRCNT cleared. -/
def errcapClr (s : State) (p : PageId) : State := modHdr s p fun h => { h with ovr := 0, corrcnt := 0 }

/-- ERRCAP_CLR (R363). -/
def execErrcapClr (p : PageId) (s : State) : Host.Outcome State Fault Refusal := cpWrite s p (errcapClr · p)

/-! ### Injection (R385, R386) -/

/-- Causes that CORRUPT applies to. -/
def corruptible (c : Nat) : Bool := [cEcccor, cEccunc, cResidue, cLockstep, cCakerd, cBadcake, cLane].contains c

/-- Whether an arming write is accepted (R386). -/
def mayInject (s : State) : Bool :=
  s.sec.lcs == lcsDev || s.sec.lcs == lcsRma || (s.sec.lcs == lcsProd && s.sec.dbglvl ≠ 0)

/-- The class of a cause in a page, where the unit or the memory decides it (R357, R367, R368). -/
def unitClass (s : State) (p : PageId) (c : Nat) : Option Nat :=
  match p with
  | .hrv _ => if c = cEccunc then some 2 else none
  | .slt n =>
    if c = cEccunc then some 2
    else if c = cTrap then some (if (salt s n).regs.cust then 1 else 2) else none
  | .flt => if c = cEccunc then some 3 else none
  | .lnk _ => if c = cEccunc then some 0 else none
  | .pwr => if c = cLockstep then some 3 else none
  | _ => none

/-- What an uncorrectable word does to the memory that the page reports for (R367). The word it strikes is open. -/
def eccEffect (s : State) (p : PageId) : State :=
  match p with
  | .sal =>
    let (i, s) := takeFree 12 s
    modSal s i.toNat fun _ => {}
  | .pwr =>
    let b := Config.freeBool s.free
    modPwr { s with free := s.free + 1 } fun x => if b then { x with ckptOk := false } else { x with tailOk := false }
  | .twn => modTwn s fun t => { t with mirror := none }
  | _ => s

/-- Whether a cause of class DATA points at the reporting pan itself (R357, R367, R368). -/
def panSuspect (p : PageId) (c : Nat) : Bool :=
  match p with
  | .pan _ => c == cResidue || c == cLockstep || c == cEccunc
  | _ => false

/-- What the rules give an error beside its class: HANDLER, and FAULT for the step (R358, R362, R367, R368). -/
def afterError (s : State) (p : PageId) (c : Nat) : State :=
  match p with
  | .flt => if c = cEccunc then handlerError s else s
  | .sal => if c = cEccunc then modVrd s fun v => { v with pendFt := true } else s
  | .vrd => if c = cLockstep then modVrd s fun v => { v with pendFt := true } else s
  | _ => s

/-- An error recorded at once by an injection. -/
def injectNow (s : State) (p : PageId) (c : Nat) : State :=
  afterError (recordErr s p
    { cause := c, cls := unitClass s p c, suspect := panSuspect p c, inj := true }) p c

/-- Whether an armed corruption waits for its detector: the ones of a tile, a stream, a local load, the control decoder,
a reservoir read and the forming of flags. -/
def waitsDetector (p : PageId) (c : Nat) : Bool :=
  match p with
  | .pan _ | .hrv _ => true
  | .slt _ => c == cEcccor || c == cEccunc
  | .glb => true
  | .vrd => c == cLockstep
  | _ => false

/-- A corruption whose detector meets a value at once. -/
def corruptNow (s : State) (p : PageId) (c : Nat) : State :=
  match p with
  | .lnk k =>
    if c = cLane then
      let (m, s) := takeFree 8 s
      laneFail s k ⟨m.toNat % 9, by omega⟩
    else injectNow s p c
  | _ => if c = cEccunc then eccEffect (injectNow s p c) p else injectNow s p c

/-- PG_ERRINJ written with IARM: an injection is armed, and one whose value passes now fires. -/
def iarmWrite (s : State) (p : PageId) (cause : Nat) (report dbl : Bool) : State :=
  if !mayInject s then dropOk s p 0x24 .security
  else if !(pageCauses p).contains cause || !(report || corruptible cause) then dropOk s p 0x24 .range
  else
    let eff := if report then cause else injCause cause dbl
    let s := modHdr s p fun h =>
      { h with icause := BitVec.ofNat 8 cause, imode := report, idbl := dbl, iarm := !report }
    if report then injectNow s p cause
    else if waitsDetector p eff then s
    else modHdr (corruptNow s p eff) p fun h => { h with iarm := false }

/-- IARM (R386). -/
def execIarm (p : PageId) (cause : Byte) (report dbl : Bool) (s : State) : Host.Outcome State Fault Refusal :=
  cpWrite s p fun s => command [] s (iarmWrite · p cause.toNat report dbl)

/-! ### UNFENCE (R379) -/

/-- UNFENCE: 0xA5 and a fenced unit that has passed its test and is not bypassed. -/
def unfence (s : State) (v : W16) : State :=
  let u := v.toNat % 256
  if v.toNat / 256 ≠ 0xA5 ∨ 0x50 < u then dropOk s .flt 0x70 .state
  else if !unitFenced s u || unitBypassed s u || !s.tst.passed.contains u then dropOk s .flt 0x70 .state
  else unfenceUnit s u

/-- UNFENCE (R379). -/
def execUnfence (v : W16) (s : State) : Host.Outcome State Fault Refusal := cpWrite s .flt (unfence · v)

end Sys2Proof.Machine
end

