-- ==== Sys2Proof/Machine/Regs.lean ====
section
/-! DEFINITION. Register fields: where each lies, what it reads and what a write of it does; the common page header and
the global pages (spec/17_register_conventions.md R455 to R473; spec/13 R363, R385). -/

namespace Sys2Proof.Machine

/-- A register field: its lowest bit and width (a field above 32 bits covers the word at its offset and the next), what
it reads, what a write stores or does, when it is run-locked, and the cause that drops a value. `bad` sees the whole
word written and the field's value. -/
structure RegF where
  lo : Nat
  w : Nat
  get : State → Nat := fun _ => 0
  put : State → Nat → State := fun s _ => s
  locked : State → Bool := fun _ => false
  bad : State → Nat → Nat → Option Rej := fun _ _ _ => none

/-- A field's row: the offset in its page, and the field. -/
abbrev RegRow := Nat × RegF

/-- A read-only field. -/
def ro (o lo w : Nat) (get : State → Nat) : RegRow := (o, { lo := lo, w := w, get := get })
/-- A field that software writes. -/
def rw (o lo w : Nat) (get : State → Nat) (put : State → Nat → State)
    (bad : State → Nat → Nat → Option Rej := fun _ _ _ => none) : RegRow :=
  (o, { lo := lo, w := w, get := get, put := put, bad := bad })
/-- A run-locked field. -/
def rwl (o lo w : Nat) (locked : State → Bool) (get : State → Nat) (put : State → Nat → State)
    (bad : State → Nat → Nat → Option Rej := fun _ _ _ => none) : RegRow :=
  (o, { lo := lo, w := w, get := get, put := put, locked := locked, bad := bad })
/-- A single bit that a write of 1 acts on. -/
def w1 (o lo : Nat) (get : State → Nat) (act : State → State) : RegRow :=
  (o, { lo := lo, w := 1, get := get, put := fun s v => if v = 1 then act s else s })
/-- A write-only field. -/
def wo (o lo w : Nat) (put : State → Nat → State) (bad : State → Nat → Nat → Option Rej := fun _ _ _ => none) : RegRow :=
  (o, { lo := lo, w := w, put := put, bad := bad })

/-- A bit vector of a value. -/
def bv (w v : Nat) : BitVec w := BitVec.ofNat w v

/-- RANGE where a condition holds. -/
def rangeIf (b : Bool) : Option Rej := if b then some .range else none

/-- A value that is not a multiple of n is outside an aligned field's range. -/
def aligned (n : Nat) : State → Nat → Nat → Option Rej := fun _ _ v => rangeIf (v % n != 0)

/-- Whether a page's run-locked fields are locked (R8, R462). -/
def lockedBy (p : PageId) (s : State) : Bool := !unlocked s p

/-! ### The common page header (R459, R363, R385, R463) -/

/-- TYPE. -/
def PageId.typ : PageId → Nat
  | .glb => 1 | .sec => 2 | .pwr => 3 | .tide => 4 | .flt => 5 | .vrd => 6 | .sal => 7 | .twn => 8 | .lnk _ => 9
  | .hrv _ => 10 | .rak => 11 | .slt _ => 12 | .pan _ => 13 | .qd _ => 14 | .tst => 15

/-- UNIT. -/
def PageId.unit : PageId → Nat
  | .lnk k => k.1 | .hrv n => n.1 | .pan p => p.1 | .qd q => q.1 | .slt n => n.1
  | _ => 0

/-- PG_CAP (R465, R476). -/
def PageId.cap : PageId → Nat
  | .glb => 7
  | .pwr | .rak | .lnk _ | .tst => 3
  | _ => 1

/-- A record slot as PG_ERRCAP0 and PG_ERRCAP1 lay it out. -/
def ErrSlot.word (e : ErrSlot) : Nat :=
  e.cause.toNat + 256 * e.cls.toNat + 1024 * b2n e.valid + 2048 * b2n e.esc + 4096 * b2n e.replay + 65536 * e.fseq.toNat

/-- PG_CFGREJ. -/
def PageHdr.rejWord (h : PageHdr) : Nat :=
  h.rejOff.toNat + 4096 * h.rejCause.toNat + 65536 * h.rejCnt.toNat + 2 ^ 31 * b2n h.rejValid

/-- The global pages, which admit no CLKREQ (R462). -/
def PageId.global : PageId → Bool
  | .glb | .sec | .pwr | .tide | .flt => true
  | _ => false

/-- PG_CTL [4:0]: one command; more than one performs none. -/
def ctlWrite (s : State) (p : PageId) (v : Nat) : State :=
  match v with
  | 0 => s
  | 1 => pgCommand s p .run
  | 2 => pgCommand s p .stop
  | 4 => pgCommand s p .quiesce
  | 8 => pgCommand s p .isolate
  | 16 => pgCommand s p .bypass
  | _ => ctlState s p

/-- CLKREQ: an ISOLATED pan kept powered for it is gated when it goes, unless a test runs on it (R502). -/
def clkreqWrite (s : State) (p : PageId) (b : Bool) : State :=
  let old := (hdr s p).clkreq
  let s := modHdr s p fun h => { h with clkreq := b }
  match p with
  | .pan q =>
    if old && !b && (hdr s p).mode == .isolated && !(s.tst.tests.any fun t => t.unit == q.1) then gatePan s q else s
  | _ => s

/-- PG_ERRINJ: without IARM the fields are written as they stand. -/
def errinjWrite (s : State) (p : PageId) (v : Nat) : State :=
  if nbit v 10 then iarmWrite s p (v % 256) (nbit v 8) (nbit v 9)
  else modHdr s p fun h => { h with icause := bv 8 v, imode := nbit v 8, idbl := nbit v 9 }

/-- The header's fields. -/
def hdrRegs (p : PageId) : List RegRow :=
  let g := fun (f : PageHdr → Nat) (s : State) => f (hdr s p)
  let m := fun (f : PageHdr → Nat → PageHdr) (s : State) (v : Nat) => modHdr s p (f · v)
  [ ro 0x00 0 32 fun s => 2 ^ 24 * p.typ + 2 ^ 16 * s.glb.inst.toNat + 256 * p.unit + 1
  , ro 0x04 0 32 fun _ => Config.pgVer.toNat
  , ro 0x08 0 32 fun _ => p.cap
  , (0x0C, { lo := 0, w := 16, get := g (·.abi.toNat), put := fun s v => abiWrite s p (bv 16 v) })
  , rw 0x10 8 1 (g fun h => b2n h.clkreq) (fun s v => clkreqWrite s p (v == 1))
      (fun _ _ v => if p.global && v == 1 then some .state else none)
  , wo 0x10 0 5 fun s v => ctlWrite s p v
  , ro 0x14 0 3 fun s => (pageState s p).code
  , rw 0x18 0 32 (g (·.err.toNat)) (m fun h v => { h with err := h.err &&& ~~~(bv 32 v) })
  , rw 0x1C 0 32 (g (·.errmsk.toNat)) (m fun h v => { h with errmsk := bv 32 v })
  , rw 0x20 0 32 (g (·.errsev.toNat)) (m fun h v => { h with errsev := bv 32 v })
  , rw 0x24 0 11 (g fun h => h.icause.toNat + 256 * b2n h.imode + 512 * b2n h.idbl + 1024 * b2n h.iarm)
      fun s v => errinjWrite s p v
  , ro 0x28 0 32 (g (·.slotA.word))
  , w1 0x28 10 (fun _ => 0) fun s => errorAck s p
  , ro 0x2C 0 32 (g (·.slotB.word))
  , ro 0x30 0 31 (g fun h => h.ovr.toNat + 65536 * h.corrcnt.toNat)
  , w1 0x30 31 (fun _ => 0) fun s => errcapClr s p
  , ro 0x34 0 32 (g fun h => if h.slotA.valid then h.slotA.detail.toNat else 0)
  , ro 0x38 0 32 (g (·.rejWord))
  , w1 0x38 31 (fun _ => 0) fun s => cfgrejClear s p
  , rw 0x3C 0 32 (g (·.scratch.toNat)) (m fun h v => { h with scratch := bv 32 v }) ]

/-! ### GLB (R466 to R468, R473) -/

/-- The tiers' level (R465). -/
def tiersOn (s : State) : Bool := atLevel s .glb 0x0102

/-- A tier register: it reads 0 below level 1.2, where its writes are dropped with cause LEVEL and answered OK, also while GLB is
RUNNING: R465 is taken before R10's RUNLOCK and REJECT (DESIGN CHOICE, log entry 112). -/
def tier (o w : Nat) (get : Glb → Nat) (put : Glb → Nat → Glb) (bad : State → Nat → Bool := fun _ _ => false) : RegRow :=
  rwl o 0 w (fun s => tiersOn s && lockedBy .glb s) (fun s => if tiersOn s then get s.glb else 0)
    (fun s v => modGlb s (put · v))
    (fun s _ v => if tiersOn s then rangeIf (bad s v) else some .level)

/-- A run-locked field of the GLB page. -/
def glbL (o lo w : Nat) (get : Glb → Nat) (put : Glb → Nat → Glb)
    (bad : State → Nat → Nat → Option Rej := fun _ _ _ => none) : RegRow :=
  rwl o lo w (lockedBy .glb) (fun s => get s.glb) (fun s v => modGlb s (put · v)) bad

/-- A write of INST: dropped while the instance is in a cascade, else BOSEED takes INST + 1 (R466). -/
def instLocked (s : State) : Bool := s.twn.regs.jstate == .joining || s.twn.regs.jstate == .joined

def instWrite (s : State) (v : BitVec 6) : State :=
  modTwnR (modGlb s fun g => { g with inst := v }) fun r => { r with boseed := bv 32 (v.toNat + 1) }

/-- SHT_CMD: 0 does nothing. -/
def shtCmdWrite (s : State) (v : Nat) : State :=
  match v with
  | 1 => shtCommand s .plan
  | 2 => shtCommand s .activate
  | _ => s

/-- Whether ranges [a, a+n) and [b, b+m) meet. -/
def meets (a n b m : Nat) : Bool := decide (0 < n) && decide (0 < m) && decide (a < b + m) && decide (b < a + n)

/-- The regions of the reservoir but the holding pond (R456): offset and bytes. -/
def resRegions : List (Nat × Nat) :=
  [(0, 0x21000), (0x40000, 0x40000), (0x80000, 0x80000), (0x100000, 0x100000), (0x200000, 0x40000), (0x240000, 0x10000)
  , (0x250000, 0x10000), (0x260000, 0x10000), (0x400000, 0x400000)]

/-- Whether a crosscut region is refused (R24, R164, R456): outside the reservoir or over another region. -/
def xcBad (base size pages : Nat) : Bool :=
  decide (0 < size) && (decide (0x4000000 < base + size) || resRegions.any (fun r => meets base size r.1 r.2)
    || meets base size 0x2000000 (4096 * pages))

/-- INTDST: eight destinations of three bits. -/
def intdstGet (k : Nat) (s : State) : Nat := ((List.range 8).map fun j => intDest s (8 * k + j) * 16 ^ j).sum

def intdstPut (s : State) (k v : Nat) : State :=
  let dst := fun (g : Glb) (i : Fin 96) => if i.1 / 8 = k then bv 3 (v / 16 ^ (i.1 % 8)) else vget g.intdst i
  modGlb s fun g => { g with intdst := Vector.ofFn (dst g) }

/-- Word k of a 96-bit register replaced. -/
def word96 (x : BitVec 96) (k v : Nat) : BitVec 96 :=
  bv 96 (x.toNat - x.toNat / 2 ^ (32 * k) % 2 ^ 32 * 2 ^ (32 * k) + v * 2 ^ (32 * k))

def get96 (x : BitVec 96) (k : Nat) : Nat := x.toNat / 2 ^ (32 * k) % 2 ^ 32

/-- INTEN word k (R473). -/
def intenWrite (s : State) (k v : Nat) : State := sendRouted s (modGlb s fun g => { g with inten := word96 g.inten k v })

/-- INTDST word k (R473). -/
def intdstWrite (s : State) (k v : Nat) : State := sendRouted s (intdstPut s k v)

/-- A pan map byte (R467). -/
def panmapByte (s : State) (l : Nat) : Nat :=
  if h : l < 60 then
    let e := vget s.glb.panmap ⟨l, h⟩
    e.phys.1 + 128 * b2n e.missing
  else 0

/-- Four bytes as a word. -/
def word4 (f : Nat → Nat) (i : Nat) : Nat := f i + 256 * f (i + 1) + 65536 * f (i + 2) + 2 ^ 24 * f (i + 3)

/-- QEN: an enabled queue may have work for its pan. -/
def qenWrite (s : State) (l : Fin 60) (b : Bool) : State := wakeLogical (modLp s l fun x => { x with qen := b }) l

/-- A queue entry's fields (R468), which QEN locks (R219). -/
def queueRegs (l : Fin 60) : List RegRow :=
  let b := queueOff l
  let qlock := fun (s : State) => (lp s l).qen
  let q := fun (f : LPan → Nat) (s : State) => f (lp s l)
  let m := fun (f : LPan → Nat → LPan) (s : State) (v : Nat) => modLp s l (f · v)
  [ rwl b 4 4 qlock (q (·.wqLog2.toNat)) (m fun x v => { x with wqLog2 := bv 4 v })
      fun _ _ v => rangeIf (decide (v < 4) || decide (12 < v))
  , rwl b 8 5 qlock (q (·.cqLog2.toNat)) (m fun x v => { x with cqLog2 := bv 5 v })
      fun _ _ v => rangeIf (decide (v < 4) || decide (16 < v))
  , rw b 0 1 (q fun x => b2n x.qen) fun s v => qenWrite s l (v == 1)
  , w1 b 1 (q fun x => b2n x.flush.isSome) fun s => flushQueue s l
  , ro b 16 5 (q (·.armedRuns.length))
  , rwl (b + 0x08) 0 64 qlock (q (·.wqBase.toNat)) (m fun x v => { x with wqBase := bv 64 (v / 4096 * 4096) })
  , rw (b + 0x10) 0 32 (q (·.wqPi.toNat)) fun s v => doorbell s l (bv 32 v)
  , ro (b + 0x14) 0 32 (q (·.wqFi.toNat))
  , rwl (b + 0x18) 0 64 qlock (q (·.cqBase.toNat)) (m fun x v => { x with cqBase := bv 64 (v / 4096 * 4096) })
  , ro (b + 0x20) 0 32 (q (·.cqPi.toNat))
  , rw (b + 0x24) 0 32 (q (·.cqCi.toNat)) fun s v => cqCiWrite s l (bv 32 v) ]

/-- A slow region's fields (R291). -/
def slowRegs (n : Fin 4) : List RegRow :=
  [ tier (0x100 + 0x10 * n.1) 64 (fun g => (vget g.slow n).base.toNat)
      fun g v => { g with slow := vmod g.slow n fun r => { r with base := bv 64 v } }
  , tier (0x108 + 0x10 * n.1) 64 (fun g => (vget g.slow n).lim.toNat)
      fun g v => { g with slow := vmod g.slow n fun r => { r with lim := bv 64 v } } ]

/-- The GLB page's fields but the arrays'. -/
def glbFix : List RegRow :=
  [ rw 0x040 0 6 (fun s => s.glb.inst.toNat) (fun s v => instWrite s (bv 6 v))
      fun s _ _ => if instLocked s then some .runlock else none
  , ro 0x044 0 6 fun s => s.glb.bstage.toNat + 16 * b2n s.glb.pllfail + 32 * b2n s.glb.stfail
  , ro 0x048 0 17 fun s => s.glb.pwrfail.toNat
  , glbL 0x04C 0 4 (·.histWarm.toNat) fun g v => { g with histWarm := bv 4 v }
  , rw 0x050 0 16 (fun s => s.glb.bpstall.toNat) fun s v => modGlb s fun g => { g with bpstall := g.bpstall &&& ~~~(bv 16 v) }
  , ro 0x054 0 32 fun s => s.glb.bpstray.toNat
  , glbL 0x0C0 0 64 (·.shtBase.toNat) (fun g v => { g with shtBase := bv 64 v }) (aligned 128)
  , glbL 0x0C8 0 14 (·.shtN.toNat) (fun g v => { g with shtN := bv 14 v }) fun _ _ v => rangeIf (decide (8192 < v))
  , wo 0x0CC 0 2 shtCmdWrite fun _ _ v => rangeIf (v == 3)
  , ro 0x0CC 8 1 fun s => b2n s.glb.shtRun.isSome
  , rw 0x0D0 0 64 (fun s => s.glb.shtAddr.toNat + s.glb.shtRes.toNat)
      fun s v => modGlb s fun g => { g with shtAddr := bv 64 (v / 16 * 16) }
  , ro 0x0D8 0 64 fun s => s.glb.shtPool.toNat
  , ro 0x0E0 0 64 fun s => s.glb.shtPen.toNat
  , tier 0x140 64 (·.fastCap.toNat) fun g v => { g with fastCap := bv 64 v }
  , tier 0x148 64 (·.slowCap.toNat) fun g v => { g with slowCap := bv 64 v }
  , tier 0x150 64 (·.freserve.toNat) fun g v => { g with freserve := bv 64 v }
  , tier 0x158 32 (·.fastBw.toNat) (fun g v => { g with fastBw := bv 32 v }) fun _ v => v == 0
  , tier 0x15C 32 (·.slowBw.toNat) (fun g v => { g with slowBw := bv 32 v }) fun _ v => v == 0
  , tier 0x160 64 (·.pgBase.toNat) (fun g v => { g with pgBase := bv 64 v }) fun _ v => v % 4096 != 0
  , tier 0x168 64 (·.pgSize.toNat) fun g v => { g with pgSize := bv 64 v }
  , tier 0x170 14 (·.pondPages.toNat) (fun g v => { g with pondPages := bv 14 v }) fun s v =>
      decide (8192 < v) || xcBad s.rak.regs.xcBase.toNat s.rak.regs.xcSize.toNat v
  , glbL 0x250 0 64 (·.msgAddr.toNat) (fun g v => { g with msgAddr := bv 64 v }) (aligned 4)
  , glbL 0x258 0 32 (·.msgData.toNat) fun g v => { g with msgData := bv 32 v }
  , glbL 0x25C 0 4 (·.msgQuad.1) fun g v => { g with msgQuad := ⟨v % 16, by omega⟩ }
  , glbL 0x25C 4 2 (·.msgShare.toNat) fun g v => { g with msgShare := bv 2 v } ]

/-- The fields of the GLB page's arrays at an offset. -/
def glbArr (o : Nat) : List RegRow :=
  if 0x080 ≤ o ∧ o < 0x0BC then [ro (o / 4 * 4) 0 32 fun s => word4 (panmapByte s) (o / 4 * 4 - 0x080)]
  else if h : 0x100 ≤ o ∧ o < 0x140 then slowRegs ⟨(o - 0x100) / 16, by omega⟩
  else if 0x200 ≤ o ∧ o < 0x20C then
    let k := (o - 0x200) / 4
    [rw (0x200 + 4 * k) 0 32 (fun s => get96 s.glb.intpnd k) fun s v => modGlb s fun g =>
      { g with intpnd := g.intpnd &&& ~~~(bv 96 (v * 2 ^ (32 * k))) }]
  else if 0x210 ≤ o ∧ o < 0x21C then
    let k := (o - 0x210) / 4
    [rw (0x210 + 4 * k) 0 32 (fun s => get96 s.glb.inten k) fun s v => intenWrite s k v]
  else if 0x220 ≤ o ∧ o < 0x250 then
    let k := (o - 0x220) / 4
    [rw (0x220 + 4 * k) 0 32 (intdstGet k) fun s v => intdstWrite s k v]
  else if h : 0x400 ≤ o ∧ o < 0xF40 then queueRegs ⟨(o - 0x400) / 0x30, by omega⟩
  else []

/-! ### PWR (R469) -/

/-- PCMD. -/
def pcmdWrite (s : State) (v : Nat) : State :=
  match v with
  | 1 => pcmd s dozeCommand
  | 2 => pcmd s wakeCommand
  | 3 => pcmd s retainCommand
  | _ => s

/-- FMUL is writable in DOZE and RETAIN. -/
def fmulLocked (s : State) : Bool := s.pwr.pstate != .doze && s.pwr.pstate != .retain

def pwrRegs : List RegRow :=
  let g := fun (f : Pwr → Nat) (s : State) => f s.pwr
  let m := fun (f : Pwr → Nat → Pwr) (s : State) (v : Nat) => modPwr s (f · v)
  [ wo 0x040 0 2 pcmdWrite
  , ro 0x040 8 1 (g fun p => b2n p.ptrans.isSome)
  , ro 0x044 0 2 (g (·.pstate.code))
  , ro 0x044 4 4 (g (·.pres.toNat))
  , rwl 0x048 0 7 fmulLocked (g (·.fmul.toNat)) (m fun p v => { p with fmul := bv 7 v })
      fun _ _ v => rangeIf (decide (v < 40) || decide (88 < v))
  , ro 0x048 16 7 (g (·.fnow.toNat))
  , rw 0x04C 0 1 (g fun p => b2n p.autowake) (m fun p v => { p with autowake := v == 1 })
  , rw 0x050 0 32 (fun s => (pidleOf s).toNat) (m fun p v => { p with pidle := bv 32 v })
      fun s _ _ => if atLevel s .pwr 0x0103 then none else some .level
  , rw 0x054 0 8 (g (·.vshared.toNat)) fun s v => vsharedWrite s (bv 8 v)
  , w1 0x058 0 (g fun p => b2n p.refloss) fun s => modPwr s fun p => { p with refloss := false }
  , w1 0x058 1 (g fun p => b2n p.talm) fun s => modPwr s fun p => { p with talm := false }
  , w1 0x058 2 (g fun p => b2n p.ttrip) fun s => modPwr s fun p => { p with ttrip := false }
  , rw 0x05C 0 16 (g (·.talarm.toNat)) (m fun p v => { p with talarm := bv 16 v })
  , ro 0x060 0 32 (g (·.tseq.toNat))
  , ro 0x070 0 32 fun s => word4 (panstByte s) 0
  , ro 0x074 0 32 fun s => word4 (panstByte s) 4
  , ro 0x078 0 32 fun s => word4 (panstByte s) 8
  , ro 0x07C 0 32 fun s => word4 (panstByte s) 12
  , ro 0x080 0 64 (g (·.tick.toNat)) ]

/-! ### TIDE (R470) -/

/-- TEN: an entry enabled anew starts with DEBT 0, from its next release on (R406). -/
def tenWrite (s : State) (e : Fin 16) (b : Bool) : State :=
  modTideE s e fun x => if b && !x.ten then { x with ten := true, debt := 0, nextQ := 0 } else { x with ten := b }

/-- An entry's fields. TEN and PERIOD of entry 6, TASK and FSALT of entries 0 to 6 are read-only. -/
def tideRegs (e : Fin 16) : List RegRow :=
  let b := 0x100 + 0x20 * e.1
  let g := fun (f : TideE → Nat) (s : State) => f (tideOf s e)
  let m := fun (f : TideE → Nat → TideE) (s : State) (v : Nat) => modTideE s e (f · v)
  let ten := g fun x => b2n x.ten
  [ if e = 6 then ro b 0 1 ten
    else rw b 0 1 ten (fun s v => tenWrite s e (v == 1))
      fun s _ _ => if 7 ≤ e.1 && !atLevel s .tide 0x0101 then some .level else none
  , if e.1 < 7 then ro b 4 4 (g (·.task.toNat))
    else rwl b 4 4 (lockedBy .tide) (g (·.task.toNat)) (m fun x v => { x with task := bv 4 v }) fun _ _ v => rangeIf (v != 7)
  , if e.1 < 7 then ro b 8 3 (g (·.fsalt.1))
    else rwl b 8 3 (lockedBy .tide) (g (·.fsalt.1)) (m fun x v => { x with fsalt := ⟨v % 8, by omega⟩ })
  , ro b 16 1 (g fun x => b2n x.tkind)
  , if e = 6 then ro (b + 4) 0 32 fun s => tidePeriod s e
    else rw (b + 4) 0 32 (g (·.period.toNat)) (m fun x v => { x with period := bv 32 v, nextQ := 0 })
      fun _ _ v => rangeIf (decide (v < 2))
  , ro (b + 0x08) 0 32 (g (·.next.toNat))
  , ro (b + 0x0C) 0 32 (g (·.debt.toNat))
  , ro (b + 0x10) 0 16 (g (·.latecnt.toNat))
  , ro (b + 0x14) 0 32 (g (·.runs.toNat)) ]

/-- TSUSP. -/
def tsusp (s : State) : Nat := ((List.finRange 16).map fun e => b2n (tideOf s e).susp * 2 ^ e.1).sum

def tidePage (o : Nat) : List RegRow :=
  if h : 0x100 ≤ o ∧ o < 0x300 then tideRegs ⟨(o - 0x100) / 0x20, by omega⟩
  else
    [ rw 0x040 0 16 (fun s => s.tide.lag.toNat) fun s v => modTide s fun t => { t with lag := t.lag &&& ~~~(bv 16 v) }
    , ro 0x044 0 16 tsusp ]

/-! ### FLT (R471) -/

/-- EQ_CI: room in the ring lets records that wait enter it (R364). -/
def eqCiWrite (s : State) (v : Nat) : State :=
  let s := modFlt s fun f => { f with eqCi := bv 32 v }
  eqDrain s.flt.eqWait.length s

def fltRegs : List RegRow :=
  let g := fun (f : Flt → Nat) (s : State) => f s.flt
  let m := fun (f : Flt → Nat → Flt) (s : State) (v : Nat) => modFlt s (f · v)
  [ ro 0x040 0 32 (g (·.eqPi.toNat))
  , rw 0x044 0 32 (g (·.eqCi.toNat)) eqCiWrite fun s _ v => rangeIf (decide (1024 < (s.flt.eqPi - bv 32 v).toNat))
  , ro 0x048 0 16 (g (·.eqFull.toNat))
  , rwl 0x04C 0 3 (lockedBy .flt) (g (·.hsalt.1)) (m fun f v => { f with hsalt := ⟨v % 8, by omega⟩ })
      fun s _ v => rangeIf (bit s.flt.fslt v)
  , rw 0x050 0 32 (g (·.wdt.toNat)) (m fun f v => { f with wdt := bv 32 v }) fun _ _ v => rangeIf (v == 0)
  , rw 0x054 0 32 (g (·.brto.toNat)) (m fun f v => { f with brto := bv 32 v }) fun _ _ v => rangeIf (v == 0)
  , ro 0x058 0 64 (g (·.fpan.toNat))
  , ro 0x060 0 17 (g fun f => f.fhrv.toNat + 256 * f.fslt.toNat + 65536 * b2n f.frake)
  , w1 0x064 0 (g fun f => b2n f.nospare) fun s => modFlt s fun f => { f with nospare := false }
  , ro 0x064 4 3 (g (·.lastrst.toNat))
  , ro 0x064 8 2 (g (·.pfstate.toNat))
  , ro 0x068 0 64 (g (·.rsvok.toNat))
  , wo 0x070 0 16 fun s v => unfence s (bv 16 v)
  , ro 0x074 0 32 (g (·.replaycnt.toNat))
  , ro 0x078 0 16 (g (·.swapcnt.toNat)) ]

/-! ### SEC (R472) -/

/-- KCMD: operation and slot. -/
def kcmdWrite (s : State) (v : Nat) : State :=
  let slot : Fin 2 := if nbit v 2 then 1 else 0
  match v % 4 with
  | 1 => keyLoad s slot
  | 2 => keyErase s slot
  | _ => s

def secRegs : List RegRow :=
  let g := fun (f : Sec → Nat) (s : State) => f s.sec
  let slot := fun (i : Fin 2) (f : KeySlot → Nat) (s : State) => f (vget s.sec.lk i)
  [ ro 0x040 0 3 (g fun x => x.lcs.toNat + 4 * b2n x.lcsbad)
  , w1 0x040 3 (g fun x => b2n x.lcschg) fun s => modSec s fun x => { x with lcschg := false }
  , ro 0x040 4 10 (g fun x => x.svnfuse.toNat + 64 * x.rkrevoke.toNat)
  , rw 0x048 0 64 (g (·.fwBase.toNat)) fun s v => modSec s fun x => { x with fwBase := bv 64 (v / 64 * 64) }
  , w1 0x050 0 (g fun x => b2n x.fwRun) fwGo
  , ro 0x050 4 22 (g fun x => x.fwRes.toNat + 16 * x.fwFail.toNat + 64 * b2n x.fwLock + 4096 * x.fwSvn.toNat
      + 2 ^ 20 * x.fwKey.toNat)
  , rw 0x090 0 32 (g (·.kid.toNat)) fun s v => modSec s fun x => { x with kid := bv 32 v }
  , wo 0x094 0 3 kcmdWrite fun _ _ v => rangeIf (v % 4 == 0 || v % 4 == 3)
  , ro 0x094 4 14 (g fun x => b2n x.kload.isSome + 64 * x.kres.toNat + 4096 * b2n (vget x.lk 0).valid
      + 8192 * b2n (vget x.lk 1).valid)
  , ro 0x098 0 32 (slot 0 (·.kid.toNat))
  , ro 0x09C 0 32 (slot 1 (·.kid.toNat))
  , ro 0x0A0 0 16 (slot 0 (·.ksess0.toNat))
  , ro 0x0A0 16 16 (slot 1 (·.ksess0.toNat))
  , ro 0x0A4 0 19 (g fun x => x.kerasecnt.toNat + 65536 * x.kercause.toNat)
  , rw 0x0B0 0 1 (fun s => if atLevel s .sec 0x0103 then s.sec.txksel.1 else 0)
      fun s v => txkselWrite s (if v = 1 then 1 else 0)
  , ro 0x0B4 0 2 (g (·.dbggrant.toNat))
  , ro 0x0B4 8 2 (g (·.dbglvl.toNat))
  , ro 0x0B4 16 3 (g (·.dbgend.toNat))
  , rw 0x0B8 0 2 (g (·.dbgmax.toNat)) fun s v => dbgmaxWrite s (bv 2 v)
  , rw 0x0BC 0 1 (g fun x => b2n x.dbgnoflt) fun s v => modSec s fun x => { x with dbgnoflt := v == 1 }
  , ro 0x0C0 0 16 (g (·.dbgsess.toNat)) ]

/-- The SEC page's fields, FW_DIGEST among them. -/
def secPage (o : Nat) : List RegRow :=
  if 0x060 ≤ o ∧ o < 0x090 then [ro (o / 4 * 4) 0 32 fun s => word4 (byteAt s.sec.fwDigest) (o / 4 * 4 - 0x060)] else secRegs

end Sys2Proof.Machine
end

