-- ==== Sys2Proof/Machine/UnitRegs.lean ====
section
/-! DEFINITION. The fields of the unit pages (spec/18_unit_register_pages.md R474 to R489; spec/19_test_and_service.md
R498) and the table of every page's fields. -/

namespace Sys2Proof.Machine

/-! ### PAN (R477, R478) -/

/-- Whether a page reads STOPPED or QUIESCING. -/
def pageHeld (s : State) (p : PageId) : Bool := pageState s p == .stopped || pageState s p == .quiescing

/-- WAIT of a logical pan on a physical one: the lowest cause that keeps its head order; 0 with an empty queue. -/
def waitCode (s : State) (p : Fin 64) (l : Fin 60) : Nat :=
  let x := lp s l
  let w := x.win.head?
  let gate := match w with
    | some w => if w.gate = .wait then w.why else 0
    | none => 0
  let fence := match w with
    | some w => w.ord.fence && fenced x w.n
    | none => false
  if w.isNone && x.fetchN == x.wqPi then 0
  else if gate ≠ 0 && decide (gate < wtFence) then gate
  else if fence then wtFence
  else if gate ≠ 0 then gate
  else if x.cqHold then wtCqhold
  else if pageHeld s .glb || pageHeld s (.pan p) then wtStopped
  else if !x.qen then wtQoff
  else 0

/-- A value of the logical pan that a physical one carries; 0 where it carries none. -/
def ofLogical (f : State → Fin 60 → Nat) (p : Fin 64) (s : State) : Nat :=
  match logOf s p with
  | some l => f s l
  | none => 0

/-- The order whose tile runs, else the running order. -/
def LPan.current (x : LPan) : Option Run :=
  match x.tideTile with
  | some j => vget x.armed j
  | none => x.run

def panRegs (p : Fin 64) : List RegRow :=
  let g := fun (f : PanRegs → Nat) (s : State) => f (pn s p).regs
  let c := fun (f : PanRegs → PanRegs) (s : State) => modPanR s p f
  [ w1 0x040 0 (g fun r => b2n r.flushed) (c fun r => { r with flushed := false })
  , w1 0x040 1 (g fun r => b2n r.invalid) (c fun r => { r with invalid := false })
  , w1 0x040 2 (g fun r => b2n r.overflow) (c fun r => { r with overflow := false })
  , ro 0x044 0 6 (ofLogical (fun _ l => l.1) p)
  , ro 0x044 7 1 fun s => b2n (logOf s p).isNone
  , ro 0x048 0 4 (ofLogical (waitCode · p) p)
  , ro 0x048 8 4 (ofLogical (fun s l => (lp s l).win.length) p)
  , ro 0x048 16 9 (ofLogical (fun s l => (lp s l).parked.length) p)
  , ro 0x04C 0 32 (ofLogical (fun s l => ((lp s l).current.map (·.ord.oid.toNat)).getD 0) p)
  , ro 0x050 0 32 (ofLogical (fun s l => ((lp s l).current.map (·.next)).getD 0) p)
  , ro 0x054 0 32 (g (·.tilecnt.toNat))
  , w1 0x060 0 (g fun r => b2n r.capV) (c fun r => { r with capV := false })
  , ro 0x060 8 2 (g (·.capCause.toNat))
  , ro 0x060 16 8 (g (·.capPos.toNat))
  , ro 0x064 0 32 (g (·.capOid.toNat))
  , ro 0x068 0 32 (g (·.capRow.toNat))
  , ro 0x06C 0 32 (g (·.capCol.toNat))
  , ro 0x070 0 32 (g (·.capGroup.toNat))
  , rw 0x078 0 48 (g (·.liveticks.toNat)) fun s v => modPanR s p fun r => { r with liveticks := bv 48 v } ]

/-! ### QD (R479) -/

/-- VMIN and VMAX of a write are out of range (R399). -/
def vrangeBad : State → Nat → Nat → Option Rej :=
  fun _ w _ => rangeIf (decide (w / 65536 % 256 < w / 256 % 256) || decide (0x78 < w / 65536 % 256))

/-- SLACKLO of a write reaches SLACKHI. -/
def slackBad : State → Nat → Nat → Option Rej := fun _ w _ => rangeIf (decide (w / 256 % 64 ≤ w % 64))

def qdRegs (q : Fin 16) : List RegRow :=
  let g := fun (f : Qd → Nat) (s : State) => f (quad s q)
  let m := fun (f : Qd → Nat → Qd) (s : State) (v : Nat) => modQd s q (f · v)
  let lock := lockedBy (.qd q)
  [ ro 0x040 0 8 (g (·.vcode.toNat))
  , rwl 0x040 8 8 lock (g (·.vmin.toNat)) (m fun x v => { x with vmin := bv 8 v }) vrangeBad
  , rwl 0x040 16 8 lock (g (·.vmax.toNat)) (m fun x v => { x with vmax := bv 8 v }) vrangeBad
  , rw 0x044 0 6 (g (·.slacklo.toNat)) (m fun x v => { x with slacklo := bv 6 v }) slackBad
  , rw 0x044 8 6 (g (·.slackhi.toNat)) (m fun x v => { x with slackhi := bv 6 v }) slackBad
  , ro 0x044 16 8 (g (·.rpoff.toNat))
  , ro 0x048 0 1 (g fun x => b2n x.stretch)
  , w1 0x048 1 (g fun x => b2n x.vidto) fun s => modQd s q fun x => { x with vidto := false }
  , ro 0x048 2 1 (g fun x => b2n x.reqout.isSome)
  , ro 0x048 8 6 (g (·.slacknow.toNat))
  , ro 0x04C 0 32 (g (·.strcnt.toNat))
  , ro 0x050 0 16 (g (·.temp.toNat))
  , ro 0x060 0 9 (shareUse · q 0)
  , ro 0x064 0 9 (shareUse · q 1)
  , ro 0x068 0 9 (shareUse · q 2)
  , ro 0x06C 0 9 (shareUse · q 3)
  , ro 0x070 0 9 (shareUse · q 4)
  , ro 0x074 0 9 (shareUse · q 5)
  , ro 0x078 0 9 (shareUse · q 6)
  , ro 0x07C 0 9 (shareUse · q 7)
  , ro 0x080 0 7 (rsvUse · q)
  , ro 0x080 16 10 (creditsFree · q) ]

/-! ### HRV and SLT (R480, R481) -/

/-- The sticky flags of a page, which software clears. -/
def flagRegs (get : State → FlagReg) (put : State → (FlagReg → FlagReg) → State) : List RegRow :=
  [ w1 0x040 0 (fun s => b2n (get s).nv) fun s => put s fun f => { f with nv := false }
  , w1 0x040 1 (fun s => b2n (get s).dz) fun s => put s fun f => { f with dz := false }
  , w1 0x040 2 (fun s => b2n (get s).of) fun s => put s fun f => { f with of := false }
  , w1 0x040 3 (fun s => b2n (get s).uf) fun s => put s fun f => { f with uf := false }
  , w1 0x040 4 (fun s => b2n (get s).nx) fun s => put s fun f => { f with nx := false } ]

def hrvRegs (n : Fin 8) : List RegRow :=
  let g := fun (f : HrvRegs → Nat) (s : State) => f (eng s n).regs
  let m := fun (f : HrvRegs → Nat → HrvRegs) (s : State) (v : Nat) => modEng s n fun x => { x with regs := f x.regs v }
  let job := fun (f : Job → Nat) (s : State) => ((eng s n).job.map f).getD 0
  let lock := lockedBy (.hrv n)
  flagRegs (fun s => (eng s n).regs.fl) (fun s f => modEng s n fun x => { x with regs := { x.regs with fl := f x.regs.fl } }) ++
  [ w1 0x044 0 (fun s => b2n (eng s n).pflush) (pflush · n)
  , ro 0x044 8 3 fun s => (eng s n).images.length
  , rwl 0x048 0 4 lock (g (·.hquad.1)) (m fun r v => { r with hquad := ⟨v % 16, by omega⟩ })
  , rwl 0x048 4 2 lock (g (·.hshare.toNat)) (m fun r v => { r with hshare := bv 2 v })
  , ro 0x04C 0 13 (job (·.bind.shard))
  , ro 0x04C 15 1 fun s => b2n (eng s n).job.isSome
  , ro 0x050 0 32 (job (·.batch))
  , ro 0x054 0 32 (g (·.jobs.toNat))
  , ro 0x058 0 32 (g (·.jfaults.toNat)) ]

def sltRegs (n : Fin 8) : List RegRow :=
  let g := fun (f : SltRegs → Nat) (s : State) => f (salt s n).regs
  let m := fun (f : SltRegs → Nat → SltRegs) (s : State) (v : Nat) => modSlt s n fun x => { x with regs := f x.regs v }
  let lock := lockedBy (.slt n)
  flagRegs (fun s => (salt s n).regs.fl) (fun s f => modSlt s n fun x => { x with regs := { x.regs with fl := f x.regs.fl } }) ++
  [ rwl 0x044 0 4 lock (g (·.squad.1)) (m fun r v => { r with squad := ⟨v % 16, by omega⟩ })
  , rwl 0x044 4 2 lock (g (·.sshare.toNat)) (m fun r v => { r with sshare := bv 2 v })
  , rwl 0x048 0 1 lock (g fun r => b2n r.cust) (m fun r v => { r with cust := v == 1 })
      fun s _ v => rangeIf (v == 1 && n == s.flt.hsalt)
  , w1 0x048 1 (g fun r => b2n r.cgo) (cgoWrite · n)
  , ro 0x048 2 1 (g fun r => b2n r.chalt)
  , ro 0x048 4 2 (g (·.cres.toNat))
  , rwl 0x050 0 64 lock (g (·.cimg.toNat)) (m fun r v => { r with cimg := bv 64 v }) (aligned 64)
  , rwl 0x058 0 18 lock (g (·.clen.toNat)) (m fun r v => { r with clen := bv 18 v }) fun _ w _ => rangeIf (!clenOk w)
  , rw 0x060 0 64 (g (·.carg.toNat)) (m fun r v => { r with carg := bv 64 v })
  , w1 0x068 0 (fun _ => 0) (sltEvent · n)
  , ro 0x06C 0 32 (g (·.pc.toNat))
  , ro 0x070 0 3 (g (·.tcause.toNat))
  , ro 0x074 0 32 (g (·.traps.toNat)) ]

/-! ### RAK and SAL (R483, R484) -/

/-- A command word of the Rake: operation, slot, MID. -/
def ropWrite (s : State) (v : Nat) : State :=
  let mid := bv 12 (v / 65536)
  match v % 4 with
  | 1 => rakeCommand s .load (nbit v 4) mid
  | 2 => rakeCommand s .follow (nbit v 4) mid
  | 3 => rakeCommand s .drop (nbit v 4) mid
  | _ => s

/-- The running event: one past its flip, whose inactive slot waits to be retired (R173). -/
def runningEvent (s : State) : Option RakeEv := s.rak.retire.find? fun v => v.at_ == 5

def rakRegs : List RegRow :=
  let g := fun (f : RakRegs → Nat) (s : State) => f s.rak.regs
  let m := fun (f : RakRegs → Nat → RakRegs) (s : State) (v : Nat) => modRakR s (f · v)
  let ev := fun (f : RakeEv → Nat) (s : State) => ((runningEvent s).map f).getD 0
  let pond := fun (s : State) => s.glb.pondPages.toNat
  [ wo 0x040 0 28 ropWrite fun _ _ v => rangeIf (v % 4 == 0)
  , ro 0x044 0 1 fun s => b2n s.rak.cmd.isSome
  , ro 0x044 8 4 (g (·.rres.toNat))
  , ro 0x044 16 12 (g (·.rrmid.toNat))
  , rwl 0x048 0 4 (lockedBy .rak) (g (·.quad.1)) (m fun r v => { r with quad := ⟨v % 16, by omega⟩ })
  , rwl 0x048 4 2 (lockedBy .rak) (g (·.share.toNat)) (m fun r v => { r with share := bv 2 v })
  , rwl 0x050 0 64 (lockedBy .rak) (g (·.xcBase.toNat)) (m fun r v => { r with xcBase := bv 64 v })
      fun s _ v => rangeIf (v % 16 != 0 || xcBad v s.rak.regs.xcSize.toNat (pond s))
  , rwl 0x058 0 32 (lockedBy .rak) (g (·.xcSize.toNat)) (m fun r v => { r with xcSize := bv 32 v })
      fun s _ v => rangeIf (xcBad s.rak.regs.xcBase.toNat v (pond s))
  , ro 0x060 0 32 (g (·.events.toNat))
  , ro 0x064 0 12 (ev (·.mid))
  , ro 0x064 15 1 (ev fun _ => 1)
  , ro 0x064 16 3 (ev fun _ => 6)
  , ro 0x068 0 16 fun s => s.rak.evq.length ]

def salRegs : List RegRow :=
  let g := fun (f : Sal → Nat) (s : State) => f s.sal
  [ ro 0x040 0 32 (g (·.almcnt.toNat))
  , w1 0x044 0 (g fun x => b2n x.acapV) fun s => modSalR s fun x => { x with acapV := false }
  , ro 0x044 4 2 (g (·.acapKind.toNat))
  , ro 0x044 16 12 (g (·.acapSlot.toNat))
  , ro 0x048 0 32 (g (·.acapStep.toNat))
  , ro 0x04C 0 32 (g (·.evals.toNat)) ]

/-! ### VRD (R485, R486) -/

/-- A word of a verdict log entry. -/
def VLog.word (e : VLog) (i : Nat) : Nat :=
  match i with
  | 0 => e.step.toNat
  | 1 => b2n e.valid + 2 * b2n e.commit + 4 * e.flags.toNat + 32 * b2n e.missing + 256 * e.onf.toNat
      + 65536 * e.oab.toNat + 2 ^ 24 * e.oft.toNat
  | 2 => e.lwait.toNat
  | _ => 0

/-- VCMD: 0 does nothing. -/
def vcmdWrite (s : State) (v : Nat) : State := if v = 1 then skipNow s else s

/-- OFLAGS: the flags sent, or those gathered so far. That no ACTIVATE has returned OK counts when they are formed. -/
def oflagsNow (s : State) : Nat :=
  if s.vrd.regs.sent then s.vrd.regs.oflags.toNat
  else
    let (nf, ab, ft) := ownFlags { s with vrd := { s.vrd with activated := true } } []
    b2n nf + 2 * b2n ab + 4 * b2n ft

/-- VCHILDRX: the children whose VUP for the open step has arrived. -/
def childrx (s : State) : Nat :=
  ((List.range 64).map fun k => b2n (s.vrd.vups.any fun x => x.1 = k) * 2 ^ k).sum

/-- The run-locked fields of the VRD page are writable only while it reads STOPPED. -/
def vrdLocked (s : State) : Bool := pageState s .vrd != .stopped

def vrdFix : List RegRow :=
  let g := fun (f : VrdRegs → Nat) (s : State) => f s.vrd.regs
  let m := fun (f : VrdRegs → Nat → VrdRegs) (s : State) (v : Nat) => modVrdR s (f · v)
  let size := fun (_ : State) (_ v : Nat) => rangeIf (v == 0 || decide (64 < v))
  [ ro 0x040 0 32 (g (·.vstep.toNat))
  , wo 0x044 0 14 fun s v => vclose s (bv 14 v)
  , wo 0x048 0 2 vcmdWrite fun _ _ v => rangeIf (decide (2 ≤ v))
  , ro 0x04C 0 1 (g fun r => b2n r.closed)
  , ro 0x04C 1 1 (g fun r => b2n r.sent)
  , ro 0x04C 2 3 oflagsNow
  , ro 0x04C 8 1 (g fun r => b2n (r.vparent == 0xFF))
  , ro 0x04C 9 1 (g fun r => b2n r.deputy)
  , ro 0x050 0 14 (g (·.vjobs.toNat))
  , ro 0x058 0 64 childrx
  , rwl 0x060 0 8 vrdLocked (g (·.vparent.toNat)) (m fun r v => { r with vparent := bv 8 v })
  , rwl 0x060 8 3 vrdLocked (g (·.vplink.1)) (m fun r v => { r with vplink := ⟨v % 8, by omega⟩ })
  , rwl 0x060 16 7 vrdLocked (g (·.vsub.toNat)) (m fun r v => { r with vsub := bv 7 v }) size
  , rwl 0x060 24 7 vrdLocked (g (·.vsize.toNat)) (m fun r v => { r with vsize := bv 7 v }) size
  , rwl 0x064 0 8 vrdLocked (g (·.vdep.toNat)) (m fun r v => { r with vdep := bv 8 v })
  , rw 0x064 8 1 (g fun r => b2n r.pnfEn) (m fun r v => { r with pnfEn := v == 1 })
  , rwl 0x068 0 64 vrdLocked (g (·.vchild.toNat)) (m fun r v => { r with vchild := bv 64 v })
      fun s _ v => rangeIf (nbit v s.glb.inst.toNat)
  , rw 0x070 0 32 (g (·.vwait.toNat)) (m fun r v => { r with vwait := bv 32 v })
  , rw 0x074 0 8 (g (·.skiplim.toNat)) (m fun r v => { r with skiplim := bv 8 v })
  , ro 0x074 8 8 (g (·.skiprun.toNat))
  , ro 0x078 0 16 (g (·.vseqerr.toNat))
  , ro 0x078 16 16 (g (·.vlate.toNat))
  , ro 0x07C 0 4 (g (·.loghead.toNat)) ]

def vrdPage (o : Nat) : List RegRow :=
  if h : 0x100 ≤ o ∧ o < 0x300 then
    [ro (o / 4 * 4) 0 32 fun s => (vget s.vrd.regs.log ⟨(o - 0x100) / 0x20, by omega⟩).word (o % 0x20 / 4)]
  else vrdFix

/-! ### TWN (R487) -/

def JState.code : JState → Nat
  | .idle => 0 | .joining => 1 | .joined => 2 | .refused => 3 | .fenced => 4

def TkState.code : TkState → Nat
  | .none => 0 | .adopting => 1 | .done => 2 | .failed => 3

/-- The run-locked fields of the TWN page are writable only while JSTATE is IDLE, REFUSED or FENCED (R354). -/
def twnLocked (s : State) : Bool := s.twn.regs.jstate == .joining || s.twn.regs.jstate == .joined

/-- JCMD. -/
def jcmdWrite (s : State) (v : Nat) : State :=
  match v with
  | 1 => joinCommand s
  | 2 => leaveCommand s
  | 3 => releaseCommand s
  | _ => s

/-- TWEN, which TEN of entry 6 follows (R404). -/
def twenWrite (s : State) (b : Bool) : State := tenWrite (modTwnR s fun r => { r with twen := b }) 6 b

/-- PROT: 3 is out of range, a value that the lifecycle does not permit is refused (R411, R487). -/
def protBad (s : State) (_ v : Nat) : Option Rej :=
  if v = 3 then some .range else if protOk s.sec.lcs v then none else some .security

def twnFix : List RegRow :=
  let g := fun (f : TwnRegs → Nat) (s : State) => f s.twn.regs
  let m := fun (f : TwnRegs → Nat → TwnRegs) (s : State) (v : Nat) => modTwnR s (f · v)
  [ rwl 0x040 0 16 twnLocked (g (·.domain.toNat)) (m fun r v => { r with domain := bv 16 v })
  , rwl 0x040 16 2 twnLocked (g (·.prot.toNat)) (m fun r v => { r with prot := bv 2 v }) protBad
  , rwl 0x048 0 64 twnLocked (g (·.members.toNat)) (m fun r v => { r with members := bv 64 v })
  , ro 0x050 0 16 (g (·.session.toNat))
  , wo 0x054 0 2 jcmdWrite fun _ _ v => rangeIf (v == 0)
  , ro 0x054 4 3 (g (·.jstate.code))
  , ro 0x054 8 4 (g (·.jerr.toNat))
  , rwl 0x058 0 64 twnLocked (g (·.rapbase.toNat)) (m fun r v => { r with rapbase := bv 64 v }) (aligned (2 ^ 46))
  , rw 0x0A0 0 32 (g (·.boseed.toNat)) (m fun r v => { r with boseed := bv 32 v }) fun _ _ v => rangeIf (v == 0)
  , rwl 0x0A4 0 8 twnLocked (g (·.valtp.toNat)) (m fun r v => { r with valtp := bv 8 v })
  , rwl 0x0A4 8 3 twnLocked (g (·.valtl.1)) (m fun r v => { r with valtl := ⟨v % 8, by omega⟩ })
  , rwl 0x0A4 16 8 twnLocked (g (·.nextdep.toNat)) (m fun r v => { r with nextdep := bv 8 v })
  , rwl 0x0A8 0 1 twnLocked (g fun r => b2n r.twen) fun s v => twenWrite s (v == 1)
  , rwl 0x0A8 8 6 twnLocked (g (·.twin.toNat)) (m fun r v => { r with twin := bv 6 v })
      fun s _ v => rangeIf (v == s.glb.inst.toNat)
  , rwl 0x0A8 16 3 twnLocked (g (·.twlink.1)) (m fun r v => { r with twlink := ⟨v % 8, by omega⟩ })
  , rwl 0x0A8 20 3 twnLocked (g (·.hbalt.1)) (m fun r v => { r with hbalt := ⟨v % 8, by omega⟩ })
      fun _ w v => rangeIf (v == w / 65536 % 8)
  , rw 0x0AC 0 32 (g (·.hbper.toNat)) (fun s v => modTideE (modTwnR s fun r => { r with hbper := bv 32 v }) 6 fun x => { x with nextQ := 0 })
      fun _ _ v => rangeIf (decide (v < 2))
  , rw 0x0B0 0 32 (g (·.tkwait.toNat)) (m fun r v => { r with tkwait := bv 32 v })
      fun s _ v => rangeIf (decide (v ≤ s.twn.regs.sfwait.toNat) || decide (v ≤ 5000000))
  , rw 0x0B4 0 32 (g (·.sfwait.toNat)) (m fun r v => { r with sfwait := bv 32 v })
      fun s _ v => rangeIf (decide (s.twn.regs.tkwait.toNat ≤ v) || decide (s.twn.regs.tkwait.toNat ≤ 5000000))
  , rwl 0x0B8 0 64 twnLocked (g (·.xoff.toNat)) (m fun r v => { r with xoff := bv 64 v })
  , ro 0x0C0 0 8 (g (·.adopted.toNat))
  , ro 0x0C0 8 2 (g (·.tkstate.code))
  , ro 0x0C0 16 16 (g (·.jlag.toNat)) ]

/-- A remote window's fields (R337). -/
def windowRegs (n : Fin 4) : List RegRow :=
  let get := fun (f : Region → W64) (s : State) => (f (vget s.twn.regs.rw n)).toNat
  let put := fun (f : Region → Nat → Region) (s : State) (v : Nat) => modTwnR s fun r => { r with rw := vmod r.rw n (f · v) }
  [ rwl (0x060 + 0x10 * n.1) 0 64 twnLocked (get (·.base)) (put fun r v => { r with base := bv 64 v })
  , rwl (0x068 + 0x10 * n.1) 0 64 twnLocked (get (·.lim)) (put fun r v => { r with lim := bv 64 v }) ]

/-- ROUTE of an instance. -/
def routeByte (s : State) (i : Nat) : Nat := if h : i < 64 then (vget s.twn.regs.route ⟨i, h⟩).toNat else 0

/-- Four routes written together; each carries frames again (R342). -/
def routeWrite (s : State) (i v : Nat) : State :=
  let s := modTwn s fun t => { t with noRoute := (List.range 4).foldl (fun m j => setBit m (i / 4 * 4 + j) false) t.noRoute }
  let byte := fun (r : TwnRegs) (j : Fin 64) => if j.1 / 4 = i / 4 then bv 8 (v / 256 ^ (j.1 % 4)) else vget r.route j
  drainAll (modTwnR s fun r => { r with route := Vector.ofFn (byte r) })

def twnPage (o : Nat) : List RegRow :=
  if h : 0x060 ≤ o ∧ o < 0x0A0 then windowRegs ⟨(o - 0x060) / 16, by omega⟩
  else if 0x100 ≤ o ∧ o < 0x140 then
    let i := o / 4 * 4 - 0x100
    [rwl (o / 4 * 4) 0 32 twnLocked (fun s => word4 (routeByte s) i) fun s v => routeWrite s i v]
  else twnFix

/-! ### LNK (R488) -/

/-- The values BOBASE admits (R344). -/
def bobaseOk (v : Nat) : Bool := [1, 2, 4, 8, 16, 32, 64, 128].contains v

def lnkFix (k : Fin 8) : List RegRow :=
  let g := fun (f : LnkRegs → Nat) (s : State) => f (lk s k).regs
  let m := fun (f : LnkRegs → Nat → LnkRegs) (s : State) (v : Nat) => modLkR s k (f · v)
  let lock := lockedBy (.lnk k)
  [ ro 0x040 0 2 (g (·.lstate.toNat))
  , rwl 0x040 8 4 lock (g (·.lquad.1)) (m fun r v => { r with lquad := ⟨v % 16, by omega⟩ })
  , rwl 0x040 12 2 lock (g (·.lshare.toNat)) (m fun r v => { r with lshare := bv 2 v })
  , w1 0x040 4 (g fun r => b2n r.ltrain) (ltrain · k)
  , ro 0x044 0 9 (g (·.laneok.toNat))
  , rw 0x044 16 9 (g (·.lanefail.toNat)) (m fun r v => { r with lanefail := r.lanefail &&& ~~~(bv 9 v) })
  , ro 0x048 0 4 (g (·.spared.toNat))
  , rw 0x04C 0 32 (g (·.corrthr.toNat)) (m fun r v => { r with corrthr := bv 32 v })
  , ro 0x050 0 32 (g (·.feccorr.toNat))
  , ro 0x054 0 32 (g (·.fecunc.toNat))
  , ro 0x058 0 32 (g (·.crcerr.toNat))
  , ro 0x05C 0 32 (g (·.retx.toNat))
  , ro 0x060 0 32 (g (·.noroom.toNat))
  , ro 0x064 0 16 (g (·.winerr.toNat))
  , ro 0x068 0 16 (g (·.strtype.toNat))
  , ro 0x068 16 16 (g (·.strdom.toNat))
  , ro 0x06C 0 16 (g (·.strdst.toNat))
  , ro 0x06C 16 16 (g (·.strsrc.toNat))
  , ro 0x070 0 16 (g (·.strauth.toNat))
  , w1 0x074 0 (g fun r => b2n r.scapV) fun s => modLkR s k fun r => { r with scapV := false }
  , ro 0x074 4 3 (g (·.scapCause.toNat))
  , w1 0x074 8 (g fun r => b2n r.twunclaimed) fun s => modLkR s k fun r => { r with twunclaimed := false }
  , ro 0x078 0 32 (g (·.scapTick.toNat))
  , rw 0x0A0 0 16 (g (·.rto.toNat)) (m fun r v => { r with rto := bv 16 v }) fun _ _ v => rangeIf (v == 0)
  , rw 0x0A0 16 8 (g (·.bobase.toNat)) (m fun r v => { r with bobase := bv 8 v }) fun _ _ v => rangeIf (!bobaseOk v)
  , rw 0x0A0 24 8 (g (·.retrylim.toNat)) (m fun r v => { r with retrylim := bv 8 v }) fun _ _ v => rangeIf (v == 0) ]

def lnkPage (k : Fin 8) (o : Nat) : List RegRow :=
  if 0x080 ≤ o ∧ o < 0x0A0 then [ro (o / 4 * 4) 0 32 fun s => word4 (byteAt (lk s k).regs.scapHdr) (o / 4 * 4 - 0x080)]
  else lnkFix k

/-! ### TST (R489, R498) -/

/-- SVC_GO (R504). -/
def svcGo (s : State) : State :=
  if s.tst.regs.svcRes = 1 then dropOk s .tst 0x268 .state else modTstR s fun t => { t with svcRes := 1 }

/-- TS_UNIT and TS_KIND, and TS_GO with them. -/
def tsWrite (s : State) (v : Nat) : State :=
  if nbit v 16 then tsGo s (v % 256) (v / 256 % 16)
  else modTstR s fun t => { t with tsUnit := bv 8 v, tsKind := bv 4 (v / 256) }

/-- DH_CMD with its unit; 0 does nothing. -/
def dhWrite (s : State) (v : Nat) : State :=
  match v / 256 % 4 with
  | 1 => dhHalt s (v % 256)
  | 2 => dhStep s (v % 256)
  | 3 => dhResume s (v % 256)
  | _ => s

def tstFix : List RegRow :=
  let g := fun (f : TstRegs → Nat) (s : State) => f s.tst.regs
  let m := fun (f : TstRegs → Nat → TstRegs) (s : State) (v : Nat) => modTstR s (f · v)
  [ rw 0x040 0 6 (g (·.trEn.toNat)) (m fun t v => { t with trEn := bv 6 v })
  , rw 0x040 8 1 (g fun t => b2n t.trFreeze) (m fun t v => { t with trFreeze := v == 1 })
  , ro 0x044 0 32 (g (·.trPi.toNat))
  , rw 0x080 0 8 (g (·.dwUnit.toNat)) (m fun t v => { t with dwUnit := bv 8 v })
  , rw 0x088 0 64 (g (·.dwAddr.toNat)) (m fun t v => { t with dwAddr := bv 64 v }) (aligned 8)
  , wo 0x090 0 32 fun s v => dwWrite s false (bv 32 v)
  , wo 0x094 0 32 fun s v => dwWrite s true (bv 32 v)
  , w1 0x098 0 (g fun t => b2n t.dwErr) fun s => modTstR s fun t => { t with dwErr := false }
  , wo 0x0A0 0 10 dhWrite
  , ro 0x0A8 0 64 (g (·.dhPan.toNat))
  , ro 0x0B0 0 17 (g fun t => t.dhHrv.toNat + 256 * t.dhSlt.toNat + 65536 * b2n t.dhRak)
  , ro 0x200 0 17 (g fun t => t.tsUnit.toNat + 256 * t.tsKind.toNat + 65536 * b2n (t.tsRes == 1))
  , wo 0x200 0 17 tsWrite
  , ro 0x204 0 3 (g (·.tsRes.toNat))
  , ro 0x204 8 8 (g (·.tsRunit.toNat))
  , ro 0x208 0 32 (g (·.tsTicks.toNat))
  , ro 0x210 0 64 (g (·.tsFaddr.toNat))
  , ro 0x218 0 8 (g (·.tsVcode.toNat))
  , wo 0x21C 0 8 lforce
  , rw 0x240 0 32 (g (·.svTests.toNat)) (m fun t v => { t with svTests := bv 32 v })
  , rw 0x244 0 32 (g (·.svFails.toNat)) (m fun t v => { t with svFails := bv 32 v })
  , rw 0x248 0 64 (g (·.bypPan.toNat)) (m fun t v => { t with bypPan := bv 64 v })
  , rw 0x250 0 8 (g (·.bypHrv.toNat)) (m fun t v => { t with bypHrv := bv 8 v })
  , rw 0x250 8 8 (g (·.bypSlt.toNat)) (m fun t v => { t with bypSlt := bv 8 v })
  , rw 0x250 16 1 (g fun t => b2n t.bypRak) (m fun t v => { t with bypRak := v == 1 })
  , rw 0x250 24 8 (g (·.bypLnk.toNat)) (m fun t v => { t with bypLnk := bv 8 v })
  , rw 0x260 0 64 (g (·.svcAddr.toNat)) (m fun t v => { t with svcAddr := bv 64 v }) (aligned 4096)
  , w1 0x268 0 (g fun t => b2n (t.svcRes == 1)) svcGo
  , ro 0x268 4 2 (g (·.svcRes.toNat)) ]

/-- TEMPMAX of a sensor. -/
def tempmaxReg (o : Nat) (i : Fin 17) : RegRow :=
  rw (o / 4 * 4) (16 * (i.1 % 2)) 16 (fun s => (vget s.tst.regs.tempmax i).toNat)
    fun s v => modTstR s fun t => { t with tempmax := vset t.tempmax i (bv 16 v) }

def tstPage (o : Nat) : List RegRow :=
  if h : 0x280 ≤ o ∧ o < 0x2A0 then
    let i := (o - 0x280) / 4
    [tempmaxReg o ⟨2 * i, by omega⟩, tempmaxReg o ⟨2 * i + 1, by omega⟩]
  else if 0x2A0 ≤ o ∧ o < 0x2A4 then [tempmaxReg o 16]
  else tstFix

/-! ### Every page -/

/-- The field rows of a page that may lie at an offset. -/
def pageRows (p : PageId) (o : Nat) : List RegRow :=
  if o < 0x40 then hdrRegs p
  else match p with
  | .glb => glbArr o ++ glbFix
  | .sec => secPage o
  | .pwr => pwrRegs
  | .tide => tidePage o
  | .flt => fltRegs
  | .vrd => vrdPage o
  | .sal => salRegs
  | .twn => twnPage o
  | .lnk k => lnkPage k o
  | .hrv n => hrvRegs n
  | .rak => rakRegs
  | .pan q => panRegs q
  | .qd q => qdRegs q
  | .slt n => sltRegs n
  | .tst => tstPage o

/-- The fields of the word at an offset, in the order in which a write acts on them. -/
def fieldsAt (p : PageId) (o : Nat) : List RegF :=
  (pageRows p o).filterMap fun r => if r.1 = o ∧ r.2.w ≤ 32 then some r.2 else none

/-- The field above 32 bits that starts at an offset (R457). -/
def wideAt (p : PageId) (o : Nat) : Option RegF :=
  (pageRows p o).findSome? fun r => if r.1 = o ∧ 32 < r.2.w then some r.2 else none

end Sys2Proof.Machine
end

