-- ==== Sys2Proof/Machine/Access.lean ====
section
/-! DEFINITION. Control port accesses: reads and writes of registers with the wide fields' holding register and latch
(spec/17_register_conventions.md R455 to R458, R463, R464), and of the reservoir (R456; spec/16 R437; spec/13 R367). -/

namespace Sys2Proof.Machine

/-! ### Reads (R455, R457) -/

/-- The field that covers the word at an offset as its high word. -/
def highAt (p : PageId) (o : Nat) : Option RegF := if o < 4 then none else wideAt p (o - 4)

/-- The word at an offset of a page. -/
def readWord (s : State) (p : PageId) (o : Nat) : Nat :=
  ((fieldsAt p o).map fun f => f.get s % 2 ^ f.w * 2 ^ f.lo).sum
    + (match wideAt p o with
      | some f => f.get s % 2 ^ 32
      | none => 0)
    + (match highAt p o with
      | some f => f.get s % 2 ^ f.w / 2 ^ 32
      | none => 0)

/-- Whether a read of an offset latches the next word: the low words of the wide fields, FW_DIGEST and SCAP_HDR among
them. -/
def latches (p : PageId) (o : Nat) : Bool :=
  (wideAt p o).isSome || (match p with
    | .sec => o == 0x060
    | .lnk _ => o == 0x080
    | _ => false)

/-- A control port read of a page: a low word latches the high word, and the next read of the high word takes it. -/
def readReg (s : State) (p : PageId) (o : Nat) : State :=
  if p = .tst && (o == 0x090 || o == 0x094) then dwRead s (o == 0x094)
  else if latches p o then
    answer (modHdr s p fun h => { h with latch := some (o, bv 32 (readWord s p (o + 4))) }) cpOk (bv 32 (readWord s p o))
  else match (hdr s p).latch with
    | some (l, w) =>
      if l + 4 = o then answer (modHdr s p fun h => { h with latch := none }) cpOk w
      else answer s cpOk (bv 32 (readWord s p o))
    | none => answer s cpOk (bv 32 (readWord s p o))

/-! ### Writes (R457, R458, R463, R464) -/

/-- What drops a field of a write, judged before any of it takes effect. -/
def dropCause (s : State) (word : Nat) (f : RegF) (v : Nat) : Option Rej :=
  if f.locked s then some .runlock else f.bad s word v

/-- A word written to fields: the dropped ones are recorded as one write, the others take effect in their order. A
run-locked field is answered REJECT (R10). Where fields drop for different causes, PG_CFGREJ records that of the first one in the
order of the register's rows (DESIGN CHOICE, log entry 116). -/
def writeFields (s : State) (p : PageId) (o word : Nat) (fs : List (RegF × Nat)) : State :=
  let old := (hdr s p).rejCnt
  let t := match fs.findSome? fun x => dropCause s word x.1 x.2 with
    | some c => cfgRej s p o c
    | none => s
  let t := fs.foldl (fun t x => if (dropCause s word x.1 x.2).isSome then t else x.1.put t x.2) t
  let t := modHdr t p fun h => if old.toNat + 1 < h.rejCnt.toNat then { h with rejCnt := old + 1 } else h
  if fs.any fun x => x.1.locked s then answer t cpReject else t

/-- The low word that a write of a wide field's high word pairs with. -/
def heldLow (s : State) (p : PageId) (o : Nat) (f : RegF) : Nat :=
  match (hdr s p).hold with
  | some (l, w) => if l = o then w.toNat else f.get s % 2 ^ 32
  | none => f.get s % 2 ^ 32

/-- A control port write of a page: a wide field's low word is held, its high word writes both. -/
def writeReg (s : State) (p : PageId) (o : Nat) (v : W32) : State :=
  if (wideAt p o).isSome then modHdr s p fun h => { h with hold := some (o, v) }
  else match highAt p o with
    | some f =>
      let x := (heldLow s p (o - 4) f + 2 ^ 32 * v.toNat) % 2 ^ f.w
      writeFields (modHdr s p fun h => { h with hold := none }) p o x [(f, x)]
    | none => writeFields s p o v.toNat ((fieldsAt p o).map fun f => (f, v.toNat / 2 ^ f.lo % 2 ^ f.w))

/-! ### The reservoir (R456) -/

/-- What a reservoir offset holds. -/
inductive ResRegion where
  | dir (m : Nat) | shard (i : Nat) | hist (h : Nat) | sal (l : Nat) | journal | queue | pond | plain
  deriving DecidableEq, Repr

/-- The region of a reservoir offset, with its entry. -/
def resRegion (s : State) (o : Nat) : ResRegion :=
  if 0x40000 ≤ o ∧ o < 0x80000 then .dir ((o - 0x40000) / 64)
  else if 0x80000 ≤ o ∧ o < 0x100000 then .shard ((o - 0x80000) / 64)
  else if 0x100000 ≤ o ∧ o < 0x200000 then .hist ((o - 0x100000) / 64)
  else if 0x200000 ≤ o ∧ o < 0x240000 then .sal ((o - 0x200000) / 64)
  else if 0x240000 ≤ o ∧ o < 0x250000 then .queue
  else if 0x400000 ≤ o ∧ o < 0x800000 then .journal
  else if 0x2000000 ≤ o ∧ o < 0x2000000 + 4096 * s.glb.pondPages.toNat then .pond
  else .plain

/-- The 64 bytes of a shard state entry (R275). -/
def Shard.bytes (h : Shard) : List Byte :=
  leBytes 4 h.cep.toNat
    ++ leBytes 1 (b2n h.slot + 2 * b2n h.ready + 4 * b2n h.run + 8 * b2n h.pend + 16 * b2n h.pgin + 32 * b2n h.staged
      + 64 * b2n h.fetch.isSome + 128 * b2n h.badrec)
    ++ [h.rdrA, h.rdrB, h.msf] ++ leBytes 4 h.gcnt.toNat ++ leBytes 4 h.gexp.toNat ++ leBytes 4 h.jstep.toNat
    ++ leBytes 4 h.pgs.toNat ++ leBytes 4 h.nel.toNat ++ List.replicate 36 0

/-- The 64 bytes of a salinometer slot (R314). -/
def SalSlot.bytes (x : SalSlot) : List Byte :=
  leBytes 8 x.dw2.toNat ++ leBytes 8 x.w2.toNat ++ leBytes 4 x.absn.toNat ++ leBytes 4 x.carn.toNat
    ++ leBytes 4 x.silent.toNat ++ leBytes 4 x.lstep.toNat ++ leBytes 4 x.rlim.toNat ++ leBytes 4 x.slim.toNat
    ++ leBytes 4 x.ablim.toNat ++ leBytes 1 x.sctl.toNat ++ leBytes 1 x.alm.toNat ++ leBytes 1 (b2n x.gnz)
    ++ List.replicate 17 0

/-- The word at a reservoir offset. -/
def resWord (s : State) (o : Nat) : Nat :=
  match resRegion s o with
  | .dir m => leAt (dirOf s m).bytes (o % 64) 4
  | .shard i => leAt (shardOf s i).bytes (o % 64) 4
  | .hist h => leAt (histOf s h).bytes (o % 64) 4
  | .sal l => leAt (salOf s l).bytes (o % 64) 4
  | _ => leNat (resBytes s o 4)

/-- Bytes with one replaced. -/
def setByte (bs : List Byte) (i : Nat) (b : Byte) : List Byte := bs.set i b

/-- The byte lanes of a write that are enabled: byte offset and value. -/
def laneBytes (o : Nat) (be : BitVec 4) (d : W32) : List (Nat × Byte) :=
  (List.range 4).filterMap fun i => if bit be i then some (o + i, bv 8 (d.toNat / 256 ^ i)) else none

/-- How a directory byte takes a write (R161): read-only, writable, NOG's byte, or reserved. -/
inductive DirByte where
  | ro | rw | nog | rsv
  deriving DecidableEq, Repr

def dirByte (i : Nat) : DirByte :=
  if i < 4 then .ro else if i < 28 then .rw else if i < 32 then .ro else if i < 36 then .rw else if i < 48 then .ro
  else if i = 48 then .nog else if i < 54 then .rw else if i < 58 then .ro else .rsv

/-- A dropped reservoir write recorded in a page (R456, R463). -/
def resDrop (s : State) (p : PageId) (o : Nat) (c : Rej) : State := dropOk s p (o % 4096) c

/-- What drops a byte of a directory entry's write. -/
def dirDrop (e : DirE) (i : Nat) : Option Rej :=
  match dirByte i with
  | .ro => some .range
  | .rsv => none
  | .rw | .nog => if e.role = 0 || !e.busy then none else some .state

/-- The directory entry with a written byte. -/
def dirPut (e : DirE) (i : Nat) (b : Byte) : DirE :=
  match dirByte i with
  | .rw => { DirE.ofBytes (setByte e.bytes i (if i = 49 then b &&& 0x0F else b)) with lost := e.lost }
  | .nog => { e with nog := bit b 4 }
  | _ => e

/-- A write into the mask directory. -/
def dirWrite (s : State) (m o : Nat) (bs : List (Nat × Byte)) : State :=
  let e := dirOf s m
  let s := match bs.findSome? fun x => dirDrop e (x.1 % 64) with
    | some c => resDrop s .glb o c
    | none => s
  modDir s m fun e' => bs.foldl (fun e'' x => if (dirDrop e (x.1 % 64)).isSome then e'' else dirPut e'' (x.1 % 64) x.2) e'

/-- RLIM admits positive finite numbers. -/
def rlimOk (v : Nat) : Bool := decide (0 < v) && decide (v < 0x7F800000)

/-- A byte of a salinometer slot written: RW and W1C bytes (R314). -/
def salPut (x : SalSlot) (i : Nat) (b : Byte) : SalSlot :=
  let w := fun (v : W32) (k : Nat) => bv 32 (leNat (setByte (leBytes 4 v.toNat) k b))
  if 32 ≤ i ∧ i < 36 then { x with rlim := w x.rlim (i - 32) }
  else if 36 ≤ i ∧ i < 40 then { x with slim := w x.slim (i - 36) }
  else if 40 ≤ i ∧ i < 44 then { x with ablim := w x.ablim (i - 40) }
  else if i = 44 then { x with sctl := b &&& 7 }
  else if i = 45 then { x with alm := x.alm &&& ~~~(b.setWidth 3) }
  else x

/-- Whether a byte of a salinometer slot is read-only. -/
def salRo (i : Nat) : Bool := decide (i < 32) || i == 46

/-- A write into the salinometer slots. -/
def salWrite (s : State) (l o : Nat) (bs : List (Nat × Byte)) : State :=
  let x := bs.foldl (fun x b => salPut x (b.1 % 64) b.2) (salOf s l)
  if !rlimOk x.rlim.toNat then resDrop s .sal o .range
  else
    let s := if bs.any fun b => salRo (b.1 % 64) then resDrop s .sal o .range else s
    modSal s l fun _ => x

/-- A control port write into the reservoir. -/
def resWrite (s : State) (o : Nat) (be : BitVec 4) (d : W32) : State :=
  let bs := laneBytes o be d
  match resRegion s o with
  | .dir m => dirWrite s m o bs
  | .shard _ => if bs.isEmpty then s else resDrop s .glb o .range
  | .hist h => setHist s h (HistSlot.ofBytes (bs.foldl (fun b x => setByte b (x.1 % 64) x.2) (histOf s h).bytes))
  | .sal l => salWrite s l o bs
  | _ => bs.foldl (fun s x => resPut s x.1 [x.2]) s

/-- What an uncorrectable word does, by its memory (R367). -/
def resLost (s : State) (o : Nat) : State :=
  match resRegion s o with
  | .dir m => modDir s m fun e => { e with lost := true }
  | .shard i => modShard s i fun h => { h with badrec := true }
  | .hist h => setHist s h {}
  | .sal l => modVrd (modSal s l fun _ => {}) fun v => { v with pendFt := true }
  | .pond => modVrd s fun v => { v with pendFt := true }
  | .journal => modTwn s fun t => { t with mirror := none }
  | .queue => handlerError s
  | .plain => s

/-- What SECDED makes of a reservoir read, an armed corruption of the GLB page included (R385). -/
def eccSeen (s : State) (e : EccErr) : EccErr × Bool :=
  if corruptArmed s .glb cEccunc then (.two, true) else if corruptArmed s .glb cEcccor then (.one, true) else (e, false)

/-- A control port read of the reservoir: a corrected word counts ECCCOR, an uncorrectable one answers ERROR (R366,
R437). -/
def resRead (s : State) (o : Nat) (e : EccErr) : State :=
  let (e, inj) := eccSeen s e
  let w := bv 32 (resWord s o)
  match e with
  | .none => answer s cpOk w
  | .one => answer (recordErr s .glb { cause := cEcccor, addr := some o, inj := inj }) cpOk w
  | .two => answer (resLost (recordErr s .glb { cause := cEccunc, addr := some o, inj := inj }) o) cpError

/-! ### Commands -/

/-- A request answered with ERROR whatever the state of its page. -/
def cpRefuse (s : State) : State :=
  match reach s none with
  | .dead => s
  | _ => answer s cpError

/-- A request decoded by its window offset: a page, the reservoir, or nothing. -/
def atWindow (s : State) (o : Nat) (page : PageId → Nat → State) (res : Nat → State) : State :=
  if 0x4000000 ≤ o then res (o - 0x4000000)
  else if 0x1000000 ≤ o then cpRefuse s
  else match pageOfNum (o / 0x1000) with
    | some p => page p (o % 0x1000)
    | none => cpRefuse s

/-- RESERVOIR_WRITE (R456). -/
def execReservoirWrite (off : BitVec 24) (be : BitVec 4) (data : W32) (s : State) : Host.Outcome State Fault Refusal :=
  .next (cpDo s none fun s => resWrite s (4 * off.toNat) be data)

/-- RESERVOIR_READ (R437). -/
def execReservoirRead (off : BitVec 24) (ecc : EccErr) (s : State) : Host.Outcome State Fault Refusal :=
  .next (cpDo s none fun s => resRead s (4 * off.toNat) ecc)

/-- REGISTER_WRITE (R458): a register takes all four byte enables (R437). -/
def execRegisterWrite (addr : BitVec 25) (be : BitVec 4) (data : W32) (s : State) : Host.Outcome State Fault Refusal :=
  .next (atWindow s (4 * addr.toNat)
    (fun p o => if be = 0xF then cpDo s (some p) fun s => command [] s (writeReg · p o data) else cpRefuse s)
    (fun o => cpDo s none fun s => resWrite s o be data))

/-- WIDE_READ_LATCH (R457): a control port read. -/
def execWideReadLatch (addr : BitVec 25) (s : State) : Host.Outcome State Fault Refusal :=
  .next (atWindow s (4 * addr.toNat) (fun p o => cpDo s (some p) (readReg · p o)) (fun o => cpDo s none (resRead · o .none)))

/-- INT_ROUTE_WRITE (R473): INTDST words 0 to 11, then INTEN words 0 to 2. -/
def execIntRouteWrite (r : Fin 15) (data : W32) (s : State) : Host.Outcome State Fault Refusal :=
  cpWrite s .glb (writeReg · .glb (if r.1 < 12 then 0x220 + 4 * r.1 else 0x210 + 4 * (r.1 - 12)) data)

/-- INST_WRITE (R466). -/
def execInstWrite (v : BitVec 6) (s : State) : Host.Outcome State Fault Refusal :=
  cpWrite s .glb (writeReg · .glb 0x040 (v.setWidth 32))

end Sys2Proof.Machine
end

