-- ==== Sys2Proof/Machine/Service.lean ====
section
/-! DEFINITION. Service records and the wrapper (spec/19_test_and_service.md R494 to R496, R504). -/

namespace Sys2Proof.Machine

/-! ### Service records (R504) -/

/-- A value of a page word as four bytes. -/
def wordBytes (s : State) (p : PageId) (o : Nat) : List Byte := leBytes 4 (readWord s p o)

/-- Link k's 64 bytes: words 0x040 to 0x070, then SPARED. -/
def svcLink (s : State) (k : Fin 8) : List Byte :=
  fitTo 64 ((List.range 13).flatMap (fun i => wordBytes s (.lnk k) (0x040 + 4 * i)) ++ wordBytes s (.lnk k) 0x048)

/-- The newest error queue entries, at most 16, oldest first. -/
def svcQueue (s : State) : List Byte :=
  let n := s.flt.eqPi.toNat
  let m := min n 16
  fitTo 1024 ((List.range m).flatMap fun i => resBytes s (0x240000 + 64 * ((n - m + i) % 1024)) 64)

/-- Every page, in ascending window offset. -/
def allPages : List PageId := (List.range 0x79).filterMap pageOfNum

/-- The 4096 bytes of a service record. -/
def svcRecord (s : State) : List Byte :=
  let f := s.flt
  let t := s.tst.regs
  fitTo 512 (leBytes 4 Config.pgVer.toNat ++ wordBytes s .sec 0x040 ++ leBytes 8 s.pwr.tick.toNat ++ leBytes 8 f.fpan.toNat
      ++ leBytes 8 f.rsvok.toNat ++ leBytes 8 t.bypPan.toNat ++ wordBytes s .tst 0x250 ++ leBytes 4 f.replaycnt.toNat
      ++ leBytes 2 f.swapcnt.toNat ++ leBytes 1 f.lastrst.toNat ++ [0] ++ leBytes 4 t.svTests.toNat ++ leBytes 4 t.svFails.toNat
      ++ [0, 0, 0, 0] ++ s.pan.toList.flatMap (fun p => leBytes 6 p.regs.liveticks.toNat)
      ++ t.tempmax.toList.flatMap (fun (x : W16) => leBytes 2 x.toNat) ++ s.qd.toList.map (·.vcode))
    ++ (List.finRange 8).flatMap (svcLink s) ++ svcQueue s
    ++ fitTo 2048 (allPages.flatMap fun p => wordBytes s p 0x30)

/-- SVC_GO (R504). -/
def execSvcGo (s : State) : Host.Outcome State Fault Refusal := cpWrite s .tst svcGo

/-- The record is written through the port of quad 0 and SVC_RES tells the outcome. -/
def svcDone (s : State) : State :=
  if s.tst.regs.svcRes ≠ 1 then s
  else
    let (ok, s) := wrHost s s.tst.regs.svcAddr.toNat (svcRecord s)
    modTstR s fun t => { t with svcRes := if ok then 2 else 3 }

/-- SVC_DONE (R504). -/
def execSvcDone (bad : List Nat) (s : State) : Host.Outcome State Fault Refusal := .next (commandAs .svc bad s svcDone)

/-! ### The wrapper (R494 to R496) -/

/-- A wrapper instruction loaded. -/
def loadWir (s : State) (c : BitVec 6) : State := modWrap s fun w => { w with wir := c }

/-- WTAP_WRSTN low loads WS_BYPASS (R494). -/
def execWrapperReset (s : State) : Host.Outcome State Fault Refusal := .next (loadWir s 0)

/-- WS_BYPASS (R494). -/
def execWsBypass (s : State) : Host.Outcome State Fault Refusal := .next (loadWir s 0)

/-- WS_VERSION (R494): PG_VER and LCS_STATE. -/
def execWsVersion (s : State) : Host.Outcome State Fault Refusal :=
  .next (modPins (loadWir s 1) fun p => { p with wso := bv 64 (Config.pgVer.toNat + 2 ^ 32 * s.pins.lcsState.toNat) })

/-- The effects of a core that is taken (R496). -/
def takeCore (s : State) : State :=
  let s := enterFenced (eraseBoth s 4)
  modWrap (abandonAll (abortTests s)) fun w => { w with taken := true }

/-- An instruction that needs INVASIVE loads WS_BYPASS without it (R494). -/
def invasive (s : State) (f : State → State) : State := if s.sec.dbglvl = 2 then f s else loadWir s 0

/-- WS_EXTEST (R496). -/
def execWsExtest (s : State) : Host.Outcome State Fault Refusal := .next (invasive s fun s => takeCore (loadWir s 2))

/-- WS_INTEST_SCAN (R496). -/
def execWsIntestScan (s : State) : Host.Outcome State Fault Refusal := .next (invasive s fun s => takeCore (loadWir s 3))

/-- WS_SEL (R494). -/
def execWsSel (v : BitVec 128) (s : State) : Host.Outcome State Fault Refusal :=
  .next (invasive s fun s => modWrap (loadWir s 4) fun w => { w with sel := v })

/-- Whether WS_TSTREG reaches the TST page: once start step INIT has ended (R495). -/
def tstregReach (s : State) : Bool :=
  decide (3 ≤ s.glb.bstage.toNat) && !s.pins.rstLow && s.pwr.pstate != .off && s.pwr.pstate != .retain

/-- What the WS_TSTREG register captures: the operation completed, its word index and its data. -/
def tstregDone (s : State) (done : Bool) (w : BitVec 6) (data : Nat) : State :=
  modWrap s fun x => { x with tstreg := bv 40 (b2n done + 4 * w.toNat + 256 * data) }

/-- WS_TSTREG with READ (R495). -/
def execWsTstregRead (w : BitVec 6) (s : State) : Host.Outcome State Fault Refusal :=
  let s := loadWir s 5
  .next (if tstregReach s then tstregDone s true w (readWord s .tst (0x200 + 4 * w.toNat)) else tstregDone s false w 0)

/-- WS_TSTREG with WRITE (R495): judged as a control port write, which it gives no response. -/
def execWsTstregWrite (w : BitVec 6) (data : W32) (s : State) : Host.Outcome State Fault Refusal :=
  let s := loadWir s 5
  .next (if tstregReach s then
      let t := command [] s (writeReg · .tst (0x200 + 4 * w.toNat) data)
      tstregDone { t with cp := s.cp } true w data.toNat
    else tstregDone s false w data.toNat)

end Sys2Proof.Machine
end

