-- ==== Sys2Proof/Machine/Dispatch.lean ====
section
/-! DEFINITION. The meaning of each command: one arm per constructor, one call of its meaning. -/

namespace Sys2Proof.Machine

def exec (i : Instr) (s : State) : Host.Outcome State Fault Refusal :=
  match i with
  | .registerWrite addr be data => Sys2Proof.Machine.execRegisterWrite addr be data s
  | .reservoirWrite off be data => Sys2Proof.Machine.execReservoirWrite off be data s
  | .wideReadLatch addr => Sys2Proof.Machine.execWideReadLatch addr s
  | .run p => Sys2Proof.Machine.execRun p s
  | .stop p => Sys2Proof.Machine.execStop p s
  | .quiesce p => Sys2Proof.Machine.execQuiesce p s
  | .isolate p => Sys2Proof.Machine.execIsolate p s
  | .bypass p => Sys2Proof.Machine.execBypass p s
  | .pgAbiWrite p v => Sys2Proof.Machine.execPgAbiWrite p v s
  | .cfgrejClear p => Sys2Proof.Machine.execCfgrejClear p s
  | .errorAck p => Sys2Proof.Machine.execErrorAck p s
  | .errcapClr p => Sys2Proof.Machine.execErrcapClr p s
  | .iarm p cause report dbl => Sys2Proof.Machine.execIarm p cause report dbl s
  | .doorbell l v => Sys2Proof.Machine.execDoorbell l v s
  | .flush l bad => Sys2Proof.Machine.execFlush l bad s
  | .cqCiWrite l v => Sys2Proof.Machine.execCqCiWrite l v s
  | .plan => Sys2Proof.Machine.execPlan s
  | .activate => Sys2Proof.Machine.execActivate s
  | .vclose njobs => Sys2Proof.Machine.execVclose njobs s
  | .skipnow => Sys2Proof.Machine.execSkipnow s
  | .rakeLoad slot mid => Sys2Proof.Machine.execRakeLoad slot mid s
  | .follow slot mid => Sys2Proof.Machine.execFollow slot mid s
  | .drop slot mid => Sys2Proof.Machine.execDrop slot mid s
  | .join => Sys2Proof.Machine.execJoin s
  | .leave => Sys2Proof.Machine.execLeave s
  | .release => Sys2Proof.Machine.execRelease s
  | .doze => Sys2Proof.Machine.execDoze s
  | .wake => Sys2Proof.Machine.execWake s
  | .retain => Sys2Proof.Machine.execRetain s
  | .jlagto => Sys2Proof.Machine.execJlagto s
  | .fwGo => Sys2Proof.Machine.execFwGo s
  | .firmwareLoadDone bad => Sys2Proof.Machine.execFirmwareLoadDone bad s
  | .keyLoad slot => Sys2Proof.Machine.execKeyLoad slot s
  | .keyErase slot => Sys2Proof.Machine.execKeyErase slot s
  | .txkselWrite slot => Sys2Proof.Machine.execTxkselWrite slot s
  | .dbgmaxWrite v => Sys2Proof.Machine.execDbgmaxWrite v s
  | .unfence v => Sys2Proof.Machine.execUnfence v s
  | .ltrain k => Sys2Proof.Machine.execLtrain k s
  | .linkTrainDone k lanes up => Sys2Proof.Machine.execLinkTrainDone k lanes up s
  | .lforce code => Sys2Proof.Machine.execLforce code s
  | .tsGo unit kind => Sys2Proof.Machine.execTsGo unit kind s
  | .testDone unit res faddr ticks => Sys2Proof.Machine.execTestDone unit res faddr ticks s
  | .svcGo => Sys2Proof.Machine.execSvcGo s
  | .svcDone bad => Sys2Proof.Machine.execSvcDone bad s
  | .cgo n => Sys2Proof.Machine.execCgo n s
  | .cgoDone n bad => Sys2Proof.Machine.execCgoDone n bad s
  | .cevt n => Sys2Proof.Machine.execCevt n s
  | .pflush n => Sys2Proof.Machine.execPflush n s
  | .dwDataRead hi => Sys2Proof.Machine.execDwDataRead hi s
  | .dwDataWrite hi data => Sys2Proof.Machine.execDwDataWrite hi data s
  | .dhHalt unit => Sys2Proof.Machine.execDhHalt unit s
  | .dhStep unit => Sys2Proof.Machine.execDhStep unit s
  | .dhResume unit => Sys2Proof.Machine.execDhResume unit s
  | .intRouteWrite r data => Sys2Proof.Machine.execIntRouteWrite r data s
  | .vsharedWrite v => Sys2Proof.Machine.execVsharedWrite v s
  | .instWrite v => Sys2Proof.Machine.execInstWrite v s
  | .wsBypass => Sys2Proof.Machine.execWsBypass s
  | .wsVersion => Sys2Proof.Machine.execWsVersion s
  | .wsExtest => Sys2Proof.Machine.execWsExtest s
  | .wsIntestScan => Sys2Proof.Machine.execWsIntestScan s
  | .wsSel v => Sys2Proof.Machine.execWsSel v s
  | .wsTstregRead w => Sys2Proof.Machine.execWsTstregRead w s
  | .wsTstregWrite w data => Sys2Proof.Machine.execWsTstregWrite w data s
  | .wrapperReset => Sys2Proof.Machine.execWrapperReset s
  | .coldReset lcs svn revoke => Sys2Proof.Machine.execColdReset lcs svn revoke s
  | .warmReset => Sys2Proof.Machine.execWarmReset s
  | .pwrGoodRise => Sys2Proof.Machine.execPwrGoodRise s
  | .pllLock => Sys2Proof.Machine.execPllLock s
  | .sramInitDone => Sys2Proof.Machine.execSramInitDone s
  | .selftestDone pans hrv slt rake => Sys2Proof.Machine.execSelftestDone pans hrv slt rake s
  | .pfWarn => Sys2Proof.Machine.execPfWarn s
  | .pwrGoodFall b => Sys2Proof.Machine.execPwrGoodFall b s
  | .refclkLoss => Sys2Proof.Machine.execRefclkLoss s
  | .vidAck d => Sys2Proof.Machine.execVidAck d s
  | .vidto q => Sys2Proof.Machine.execVidto q s
  | .talm sensor reading => Sys2Proof.Machine.execTalm sensor reading s
  | .ttrip sensor reading => Sys2Proof.Machine.execTtrip sensor reading s
  | .lcsStateChange v => Sys2Proof.Machine.execLcsStateChange v s
  | .debugGrant v => Sys2Proof.Machine.execDebugGrant v s
  | .keyAck sts beats => Sys2Proof.Machine.execKeyAck sts beats s
  | .keyTimeout => Sys2Proof.Machine.execKeyTimeout s
  | .brineResponse q tag kind => Sys2Proof.Machine.execBrineResponse q tag kind s
  | .brineTimeout q tag => Sys2Proof.Machine.execBrineTimeout q tag s
  | .bpstall q => Sys2Proof.Machine.execBpstall q s
  | .tile k f lost => Sys2Proof.Machine.execTile k f lost s
  | .part k f lost bad => Sys2Proof.Machine.execPart k f lost bad s
  | .grant k f lost bad => Sys2Proof.Machine.execGrant k f lost bad s
  | .write k f lost bad => Sys2Proof.Machine.execWrite k f lost bad s
  | .rdreq k f lost bad => Sys2Proof.Machine.execRdreq k f lost bad s
  | .rdrsp k f lost => Sys2Proof.Machine.execRdrsp k f lost s
  | .hold k f lost => Sys2Proof.Machine.execHold k f lost s
  | .vup k f lost => Sys2Proof.Machine.execVup k f lost s
  | .vdn k f lost => Sys2Proof.Machine.execVdn k f lost s
  | .vack k f lost => Sys2Proof.Machine.execVack k f lost s
  | .credit k f lost => Sys2Proof.Machine.execCredit k f lost s
  | .nack k f lost => Sys2Proof.Machine.execNack k f lost s
  | .probe k f lost => Sys2Proof.Machine.execProbe k f lost s
  | .joinReq k f lost => Sys2Proof.Machine.execJoinReq k f lost s
  | .joinDone k f lost => Sys2Proof.Machine.execJoinDone k f lost s
  | .joinRefuse k f lost => Sys2Proof.Machine.execJoinRefuse k f lost s
  | .joinReparent k f lost => Sys2Proof.Machine.execJoinReparent k f lost s
  | .takeoverAnnounce k f lost => Sys2Proof.Machine.execTakeoverAnnounce k f lost s
  | .takeoverAnswer k f lost => Sys2Proof.Machine.execTakeoverAnswer k f lost s
  | .takeoverRelease k f lost => Sys2Proof.Machine.execTakeoverRelease k f lost s
  | .jrnl k f lost => Sys2Proof.Machine.execJrnl k f lost s
  | .hbeat k f lost => Sys2Proof.Machine.execHbeat k f lost s
  | .spare k f lost => Sys2Proof.Machine.execSpare k f lost s
  | .spareack k f lost => Sys2Proof.Machine.execSpareack k f lost s
  | .spareSwitch k => Sys2Proof.Machine.execSpareSwitch k s
  | .deskewDone k => Sys2Proof.Machine.execDeskewDone k s
  | .laneFail k lane => Sys2Proof.Machine.execLaneFail k lane s
  | .spareackTimeout k => Sys2Proof.Machine.execSpareackTimeout k s
  | .rtoExpiry peer cls => Sys2Proof.Machine.execRtoExpiry peer cls s
  | .retransmit peer cls => Sys2Proof.Machine.execRetransmit peer cls s
  | .creditTimer peer cls => Sys2Proof.Machine.execCreditTimer peer cls s
  | .probeTimer peer => Sys2Proof.Machine.execProbeTimer peer s
  | .routeFail peer => Sys2Proof.Machine.execRouteFail peer s
  | .twunclaimed k => Sys2Proof.Machine.execTwunclaimed k s
  | .tkwaitExpiry => Sys2Proof.Machine.execTkwaitExpiry s
  | .finalSilence => Sys2Proof.Machine.execFinalSilence s
  | .sfwaitExpiry => Sys2Proof.Machine.execSfwaitExpiry s
  | .takeoverTimeout peer => Sys2Proof.Machine.execTakeoverTimeout peer s
  | .adopted bad => Sys2Proof.Machine.execAdopted bad s
  | .releaseDone => Sys2Proof.Machine.execReleaseDone s
  | .orderFetch l bad => Sys2Proof.Machine.execOrderFetch l bad s
  | .orderTake l bad => Sys2Proof.Machine.execOrderTake l bad s
  | .tideArm l n bad => Sys2Proof.Machine.execTideArm l n bad s
  | .epochGateCheck l bad => Sys2Proof.Machine.execEpochGateCheck l bad s
  | .tileStart l bad => Sys2Proof.Machine.execTileStart l bad s
  | .tileComplete l bad => Sys2Proof.Machine.execTileComplete l bad s
  | .cakeReread l addr row group bytes => Sys2Proof.Machine.execCakeReread l addr row group bytes s
  | .tileReplay l cause addr row col group => Sys2Proof.Machine.execTileReplay l cause addr row col group s
  | .spareSwap l => Sys2Proof.Machine.execSpareSwap l s
  | .settle l bad => Sys2Proof.Machine.execSettle l bad s
  | .secondPass l bad => Sys2Proof.Machine.execSecondPass l bad s
  | .partialNotice l q bad => Sys2Proof.Machine.execPartialNotice l q bad s
  | .completionWrite l bad => Sys2Proof.Machine.execCompletionWrite l bad s
  | .panWakeDone p => Sys2Proof.Machine.execPanWakeDone p s
  | .pidleExpiry p => Sys2Proof.Machine.execPidleExpiry p s
  | .gradientLand addr bytes bad => Sys2Proof.Machine.execGradientLand addr bytes bad s
  | .pageIn shard => Sys2Proof.Machine.execPageIn shard s
  | .pageInDone shard bad => Sys2Proof.Machine.execPageInDone shard bad s
  | .jobStart shard bad => Sys2Proof.Machine.execJobStart shard bad s
  | .jobComplete n bad => Sys2Proof.Machine.execJobComplete n bad s
  | .nop u w => Sys2Proof.Machine.execNop u w s
  | .faddS u w => Sys2Proof.Machine.execFaddS u w s
  | .fsubS u w => Sys2Proof.Machine.execFsubS u w s
  | .fmulS u w => Sys2Proof.Machine.execFmulS u w s
  | .fdivS u w => Sys2Proof.Machine.execFdivS u w s
  | .fmaS u w => Sys2Proof.Machine.execFmaS u w s
  | .fnmaS u w => Sys2Proof.Machine.execFnmaS u w s
  | .f1S u w => Sys2Proof.Machine.execF1S u w s
  | .f2S u w => Sys2Proof.Machine.execF2S u w s
  | .fcmpS u w => Sys2Proof.Machine.execFcmpS u w s
  | .faddD u w => Sys2Proof.Machine.execFaddD u w s
  | .fsubD u w => Sys2Proof.Machine.execFsubD u w s
  | .fmulD u w => Sys2Proof.Machine.execFmulD u w s
  | .fdivD u w => Sys2Proof.Machine.execFdivD u w s
  | .fmaD u w => Sys2Proof.Machine.execFmaD u w s
  | .fnmaD u w => Sys2Proof.Machine.execFnmaD u w s
  | .f1D u w => Sys2Proof.Machine.execF1D u w s
  | .f2D u w => Sys2Proof.Machine.execF2D u w s
  | .fcmpD u w => Sys2Proof.Machine.execFcmpD u w s
  | .cvt u w => Sys2Proof.Machine.execCvt u w s
  | .lds u w bad => Sys2Proof.Machine.execLds u w bad s
  | .sts u w => Sys2Proof.Machine.execSts u w s
  | .bmrg u w => Sys2Proof.Machine.execBmrg u w s
  | .bspl u w => Sys2Proof.Machine.execBspl u w s
  | .sel u w => Sys2Proof.Machine.execSel u w s
  | .mov u w => Sys2Proof.Machine.execMov u w s
  | .plog u w => Sys2Proof.Machine.execPlog u w s
  | .setrm u w => Sys2Proof.Machine.execSetrm u w s
  | .iop u w => Sys2Proof.Machine.execIop u w s
  | .alu n w => Sys2Proof.Machine.execAlu n w s
  | .addi n d a imm => Sys2Proof.Machine.execAddi n d a imm s
  | .lui n d a imm => Sys2Proof.Machine.execLui n d a imm s
  | .ld n d a imm bad => Sys2Proof.Machine.execLd n d a imm bad s
  | .st n d a imm => Sys2Proof.Machine.execSt n d a imm s
  | .ldw n d a imm bad => Sys2Proof.Machine.execLdw n d a imm bad s
  | .stw n d a imm => Sys2Proof.Machine.execStw n d a imm s
  | .beq n d a imm => Sys2Proof.Machine.execBeq n d a imm s
  | .bne n d a imm => Sys2Proof.Machine.execBne n d a imm s
  | .blt n d a imm => Sys2Proof.Machine.execBlt n d a imm s
  | .bge n d a imm => Sys2Proof.Machine.execBge n d a imm s
  | .jal n d a imm => Sys2Proof.Machine.execJal n d a imm s
  | .xmov n w => Sys2Proof.Machine.execXmov n w s
  | .sadv n w bad => Sys2Proof.Machine.execSadv n w bad s
  | .csr n d a r wr => Sys2Proof.Machine.execCsr n d a r wr s
  | .wfe n => Sys2Proof.Machine.execWfe n s
  | .fence n => Sys2Proof.Machine.execFence n s
  | .halt n => Sys2Proof.Machine.execHalt n s
  | .trap n => Sys2Proof.Machine.execTrap n s
  | .flagsSend => Sys2Proof.Machine.execFlagsSend s
  | .commitFlipDone shard err => Sys2Proof.Machine.execCommitFlipDone shard err s
  | .vslow => Sys2Proof.Machine.execVslow s
  | .rakeEvent bad => Sys2Proof.Machine.execRakeEvent bad s
  | .rakeRetire bad => Sys2Proof.Machine.execRakeRetire bad s
  | .followerFetch n shard bad => Sys2Proof.Machine.execFollowerFetch n shard bad s
  | .avsWindow q slack => Sys2Proof.Machine.execAvsWindow q slack s
  | .tideRelease e meas => Sys2Proof.Machine.execTideRelease e meas s
  | .tideRunComplete e => Sys2Proof.Machine.execTideRunComplete e s
  | .wearSwap => Sys2Proof.Machine.execWearSwap s
  | .handler => Sys2Proof.Machine.execHandler s
  | .wdog unit => Sys2Proof.Machine.execWdog unit s
  | .aonSupplyLoss => Sys2Proof.Machine.execAonSupplyLoss s
  | .rstNLow => Sys2Proof.Machine.execRstNLow s
  | .pllfail => Sys2Proof.Machine.execPllfail s
  | .pwrfail missing => Sys2Proof.Machine.execPwrfail missing s
  | .rakeCommandDone bad => Sys2Proof.Machine.execRakeCommandDone bad s
  | .shtCommandDone bad => Sys2Proof.Machine.execShtCommandDone bad s
  | .reservoirRead off ecc => Sys2Proof.Machine.execReservoirRead off ecc s

end Sys2Proof.Machine
end

