-- ==== Sys2Proof/Machine/Step.lean ====
section
/-! DEFINITION. One step of the block: the command at the front of the queue, or one tick of the always-on clock. -/

namespace Sys2Proof.Machine

/-- One step: takes the command at the front of the queue and runs it with the queue's rest; with no command waiting
one tick of CLK_AON passes, after which a DOZE entry under way goes on as far as it may (R392). -/
def step (s : State) : Host.Outcome State Fault Refusal :=
  match s.pending with
  | [] => .next (dozeGo (idleTick s))
  | c :: rest => exec c { s with pending := rest }

/-- The state with the command that a word spells put at the front of its queue. -/
def State.withFetchWord (s : State) (nbits w : Nat) : State :=
  match decodeTableWord nbits w with
  | none => s
  | some c => { s with pending := c :: s.pending }

end Sys2Proof.Machine
end

