-- ==== Sys2Proof/Safety.lean ====
section
/-! DEFINITION. What a sound state of the block is: conditions that claims use. -/

namespace Sys2Proof.Machine

/-- What holds of the SEC page in every state: a key slot that is not valid holds zeros (R423, R429); the debug level
does not exceed DBGMAX (R420, R421); firmware loads are locked exactly when FW_FAIL has reached 3 (R413); an invalid
LCS_STATE acts as RMA (R409). -/
abbrev secOk (x : Sec) : Prop :=
  (∀ i, (vget x.lk i).valid = false → (vget x.lk i).kid = 0 ∧ (vget x.lk i).ksess0 = 0 ∧ (vget x.lk i).key = 0) ∧
  x.dbglvl.toNat ≤ x.dbgmax.toNat ∧ x.fwLock = decide (x.fwFail = 3) ∧ (x.lcsbad = true → x.lcs = lcsRma)

/-- The control port passes a request for a page on (R438), and no corruption of the control decoder waits for its
detector (R385). -/
abbrev Answers (s : State) (p : PageId) : Prop := reach s (some p) = .ok ∧ corruptArmed s .glb cLockstep = false

/-- A page's unit is IDLE or RUNNING (R460). -/
abbrev Working (s : State) (p : PageId) : Prop := pageState s p = .idle ∨ pageState s p = .running

/-- Every unit finds a Brine credit at every port (R242). -/
abbrev Credits (s : State) : Prop := ∀ q i, creditOk s q i = true

/-- An address that a unit uses lies in the instance's own host memory, not in another instance's (R336); `hostAddr` is
its place there. -/
abbrev Here (s : State) (a : Nat) : Prop := apertureOf s (addr64 a) = none

/-- Host memory is as it was outside what the jobs that ran on the engines leave partly written (R289). -/
abbrev KeepsHost (s t : State) : Prop :=
  ∀ a, (∀ n, ∀ x ∈ partWritten s n, a < x.1 ∨ x.1 + x.2 ≤ a) → smGet 0 t.host a = smGet 0 s.host a

/-- No frame of any pair waits for its acknowledgement or for credit. -/
abbrev NoneWaiting (s : State) : Prop := ∀ x ∈ s.twn.pairs, x.2.unacked = [] ∧ x.2.queue = []

/-- A frame that a link hears whole, that is no stranger, finds a buffer, belongs to the sender's session, is not
protected and is the next of its pair's sequence, with no newer limit (R328 to R335). -/
abbrev InSequence (s : State) (k : Fin 8) (f : Frame) : Prop :=
  linkHears s k = true ∧ f.fcrc = frameCrc f ∧ bufferFree s k f = true ∧ strangerOf s f = none ∧ toAdopted s f = false ∧
  sessOf s f.src.toNat = some f.sess ∧ fProt f = 0 ∧
  rxPos s f = ((pairOf s false f.src.toNat (fClass f)).rxNext : Int) ∧
  newer f.crlim ((pairOf s false f.src.toNat (fClass f)).limit (fClass f)) = false

/-- A page's unit is STOPPED or IDLE. -/
abbrev AtRest (s : State) (p : PageId) : Prop := pageState s p = .stopped ∨ pageState s p = .idle

end Sys2Proof.Machine
end

