-- ==== Sys2Proof/Certificates/Slice0/Obligations.lean ====
section
/-! DEFINITION. What this model claims of the block: the statements for the provers. -/

open Sys2Proof Sys2Proof.Machine

/-! ### The queue of commands -/

/-- A step takes the command at the front of the queue and is that command's effect on the state with the queue's rest. -/
def Obligations.StepRunsFrontCommand : Prop :=
  ∀ (c : Instr) (rest : List Instr) (s : State),
    s.pending = c :: rest → step s = exec c { s with pending := rest }

/-- With no command waiting one tick of CLK_AON passes, outside a DOZE or wake transition: TICK and the LIVETICKS of the
pans that are LIVE count it, and nothing of the pages' other registers, memory, the port or the queues changes. That a
tick passes there is the model's choice (log entry 2). -/
def Obligations.EmptyQueueTicks : Prop :=
  ∀ s : State, s.pending = [] → s.pins.rstLow = false → s.pwr.pstate ≠ .off → s.pwr.ptrans = none →
    ∃ t, step s = .next t ∧ t.pwr.tick = s.pwr.tick + 1 ∧
      (∀ p, (pn t p).regs.liveticks = if (pn s p).pwr = .live then (pn s p).regs.liveticks + 1 else (pn s p).regs.liveticks) ∧
      t.host = s.host ∧ t.res = s.res ∧ t.cp = s.cp ∧ t.hdrs = s.hdrs ∧ t.lpan = s.lpan ∧ t.sec = s.sec ∧
      t.glb = s.glb ∧ t.flt = s.flt ∧ t.vrd = s.vrd ∧ t.twn = s.twn ∧ t.pending = []

/-- Every command leaves the queue of waiting commands as it found it. -/
def Obligations.CommandsLeaveQueue : Prop :=
  ∀ (c : Instr) (s t : State), exec c s = .next t → t.pending = s.pending

/-- Every step keeps the SEC page sound: key slots without VALID hold zeros, DBGLVL stays within DBGMAX, FWLOCK is set
exactly when FWFAIL is 3, and an invalid LCS_STATE acts as RMA. -/
def Obligations.StepKeepsSecuritySound : Prop :=
  ∀ s t : State, secOk s.sec → step s = .next t → secOk t.sec

/-- The SEC page is sound at reset. -/
def Obligations.ResetSecuritySound : Prop := secOk State.reset.sec

/-! ### The page header -/

/-- STOP and QUIESCE, from IDLE or RUNNING, stop the admission of work: the page reads STOPPED once its piece in progress
(STOP) or its held work (QUIESCE) has ended and QUIESCING before. A quad's page treats QUIESCE as STOP. No other page's
header changes. The verdict page refuses STOP in a cascade (R311). Of a pan this is said while it holds no parked tile
(R121). -/
def Obligations.StopAndQuiesceEndAdmission : Prop :=
  ∀ (p : PageId) (s : State), Answers s p → Working s p → firmwareOnly s p = false →
    pageAdmits p .stop = true → (p = .vrd → s.twn.regs.jstate ≠ .joining ∧ s.twn.regs.jstate ≠ .joined) →
    (∀ q l, p = .pan q → logOf s q = some l → (lp s l).parked = []) →
    (∃ t, exec (.stop p) s = .next t ∧ t.cp = {} ∧ (hdr t p).mode = .stopping ∧
      (pageState t p = .stopped ∨ pageState t p = .quiescing) ∧ ∀ q, q ≠ p → hdr t q = hdr s q) ∧
    (pageAdmits p .quiesce = true →
      ∃ t, exec (.quiesce p) s = .next t ∧ t.cp = {} ∧ ((∀ q, p ≠ .qd q) → (hdr t p).mode = .quiescing) ∧
        (pageState t p = .stopped ∨ pageState t p = .quiescing) ∧ ∀ q, q ≠ p → hdr t q = hdr s q)

/-- RUN from STOPPED puts the unit back to work, clears CLKREQ and changes no other header; for a link with no frame held.
A page command that its state or its page does not admit has no effect but the record with cause STATE, and the
answer OK (R461, R464): here RUN, STOP and QUIESCE of the pages that take no command, and of a FAULTED unit. -/
def Obligations.RunAndUnadmittedCommands : Prop :=
  (∀ (p : PageId) (s : State), Answers s p → pageState s p = .stopped → firmwareOnly s p = false →
     pageAdmits p .run = true → (∀ k, p = .lnk k → s.twn.held = []) →
     ∃ t, exec (.run p) s = .next t ∧ t.cp = {} ∧ (hdr t p).mode = .active ∧ (hdr t p).clkreq = false ∧
       ∀ q, q ≠ p → hdr t q = hdr s q) ∧
  (∀ (p : PageId) (s : State), Answers s p → (p ∈ [PageId.sec, .pwr, .sal, .twn, .tst] ∨
       (pageState s p = .faulted ∧ firmwareOnly s p = false ∧ pageAdmits p .quiesce = true)) →
     ∀ c, c ∈ [Instr.run p, .stop p, .quiesce p] →
       ∃ t, exec c s = .next t ∧ t.cp = {} ∧ hdr t p = (hdr s p).reject 0x10 .state ∧ (∀ q, q ≠ p → hdr t q = hdr s q) ∧
         t.lpan = s.lpan ∧ t.glb = s.glb ∧ t.flt = s.flt ∧ t.host = s.host)

/-- ISOLATE takes an idle harvest engine, a stopped and idle Rake, or a pan without a logical number, out of service; the page then
reads ISOLATED and passes of earlier tests count no more.
BYPASS, from ISOLATED or FAULTED, leaves the unit ISOLATED with its bit set in the TST page. -/
def Obligations.UnitsLeaveService : Prop :=
  (∀ (s : State),
     (∀ n, Answers s (.hrv n) → AtRest s (.hrv n) → otherEngine s n = true →
       ∃ t, exec (.isolate (.hrv n)) s = .next t ∧ t.cp = {} ∧ pageState t (.hrv n) = .isolated ∧
         0x40 + n.1 ∉ t.tst.passed ∧ t.hrv = s.hrv) ∧
     (Answers s .rak → pageState s .rak = .stopped → s.rak.evq = [] → s.rak.retire = [] →
       (∀ m, (dirOf s m).busy = false) →
       ∃ t, exec (.isolate .rak) s = .next t ∧ t.cp = {} ∧ pageState t .rak = .isolated ∧ 0x50 ∉ t.tst.passed) ∧
     (∀ p, Answers s (.pan p) → AtRest s (.pan p) → logOf s p = none → (pn s p).wakeFor = none →
       ∃ t, exec (.isolate (.pan p)) s = .next t ∧ t.cp = {} ∧ pageState t (.pan p) = .isolated ∧
         bit t.flt.rsvok p.1 = false ∧ (pn t p).pwr = .gated ∧ p.1 ∉ t.tst.passed)) ∧
  (∀ (s : State) (p : PageId), Answers s p → firmwareOnly s p = false →
     pageState s p = .isolated ∨ pageState s p = .faulted →
     (∀ q, p = .pan q → ∃ t, exec (.bypass p) s = .next t ∧ t.cp = {} ∧ pageState t p = .isolated ∧
       bit t.tst.regs.bypPan q.1 = true ∧ (pn t q).pwr = .gated ∧ bit t.flt.rsvok q.1 = false) ∧
     (∀ n, p = .hrv n → ∃ t, exec (.bypass p) s = .next t ∧ t.cp = {} ∧ pageState t p = .isolated ∧
       bit t.tst.regs.bypHrv n.1 = true ∧ (hdr t p).clkreq = false) ∧
     (∀ n, p = .slt n → ∃ t, exec (.bypass p) s = .next t ∧ t.cp = {} ∧ pageState t p = .isolated ∧
       bit t.tst.regs.bypSlt n.1 = true ∧ (hdr t p).clkreq = false) ∧
     (p = .rak → ∃ t, exec (.bypass p) s = .next t ∧ t.cp = {} ∧ pageState t p = .isolated ∧ t.tst.regs.bypRak = true) ∧
     (∀ k, p = .lnk k → ∃ t, exec (.bypass p) s = .next t ∧ t.cp = {} ∧ pageState t p = .isolated ∧
       bit t.tst.regs.bypLnk k.1 = true))

/-- PG_ABI takes a level of generation 1 up to minor 3 while the unit is IDLE, STOPPED or ISOLATED; another level is
dropped with cause LEVEL and answered OK, and a write while the unit works is answered REJECT with cause RUNLOCK.
CFGREJ_CLEAR empties the reject record; ERRCAP_CLR clears OVR and CORRCNT; ERROR_ACK moves slot B into slot A, unless
slot A holds a DATA record whose replay is open, which is answered REJECT. Nothing else of the block changes.
An injection is accepted in DEV or RMA, or in PROD at debug level TRACE or INVASIVE; in REPORT mode it records the
cause at once, in CORRUPT mode on a pan or an engine it stays armed for the detector. Elsewhere it is dropped with cause
SECURITY. -/
def Obligations.HeaderRegistersAndInjection : Prop :=
  (∀ (p : PageId) (v : W16) (s : State), Answers s p → p ≠ .glb →
     (unlocked s p = true → v ∈ [0x0100#16, 0x0101#16, 0x0102#16, 0x0103#16] → ∃ t, exec (.pgAbiWrite p v) s = .next t ∧
       t.cp = {} ∧ (hdr t p).abi = v ∧ (∀ q, q ≠ p → hdr t q = hdr s q) ∧ t.glb = s.glb) ∧
     (unlocked s p = true → v ∉ [0x0100#16, 0x0101#16, 0x0102#16, 0x0103#16] → ∃ t, exec (.pgAbiWrite p v) s = .next t ∧
       t.cp = {} ∧ hdr t p = (hdr s p).reject 0x0C .level ∧ t.glb = s.glb) ∧
     (unlocked s p = false → ∃ t, exec (.pgAbiWrite p v) s = .next t ∧
       t.cp = { code := 1 } ∧ hdr t p = (hdr s p).reject 0x0C .runlock ∧ t.glb = s.glb)) ∧
  (∀ (p : PageId) (s : State), Answers s p →
     exec (.cfgrejClear p) s = .next (modHdr (answer s cpOk) p fun h =>
       { h with rejValid := false, rejOff := 0, rejCause := 0, rejCnt := 0 }) ∧
     exec (.errcapClr p) s = .next (modHdr (answer s cpOk) p fun h => { h with ovr := 0, corrcnt := 0 }) ∧
     ((hdr s p).slotA.valid = true → ((hdr s p).slotA.cls = 1 → (hdr s p).slotA.replayOpen = false) →
       exec (.errorAck p) s = .next (modHdr (answer s cpOk) p fun h => { h with slotA := h.slotB, slotB := {} })) ∧
     ((hdr s p).slotA.valid = true → (hdr s p).slotA.cls = 1 → (hdr s p).slotA.replayOpen = true →
       exec (.errorAck p) s = .next (modHdr (answer s cpReject) p fun h => h.reject 0x28 .state))) ∧
  (∀ (p : PageId) (c : Byte) (dbl : Bool) (s : State), Answers s p → c.toNat ∈ pageCauses p →
     (mayInject s = true → ∃ t, exec (.iarm p c true dbl) s = .next t ∧ t.cp = {} ∧ bit (hdr t p).err c.toNat = true) ∧
     (mayInject s = true → corruptible c.toNat = true → ((∃ q, p = .pan q) ∨ ∃ n, p = .hrv n) →
       ∃ t, exec (.iarm p c false dbl) s = .next t ∧ t.cp = {} ∧ (hdr t p).iarm = true ∧ (hdr t p).icause = c ∧
         (hdr t p).err = (hdr s p).err ∧ t.flt = s.flt) ∧
     (mayInject s = false → ∀ m, ∃ t, exec (.iarm p c m dbl) s = .next t ∧ t.cp = {} ∧
       hdr t p = (hdr s p).reject 0x24 .security ∧ t.flt = s.flt))

/-- UNFENCE with 0xA5 returns a fenced engine, salter, Rake or, with no number waiting for a pan, pan that has passed its
test; a pan enters reserve. -/
def Obligations.UnfenceReturnsUnit : Prop :=
  ∀ (u : Nat) (s : State), u ≤ 0x50 → Answers s .flt → unitFenced s u = true → unitBypassed s u = false →
    u ∈ s.tst.passed → (∀ l, (physOf s l).isSome = true) →
    ∃ t, exec (.unfence (BitVec.ofNat 16 (0xA500 + u))) s = .next t ∧ t.cp = {} ∧ unitFenced t u = false ∧
      u ∉ t.tst.passed ∧ (u < 64 → bit t.flt.rsvok u = true)

/-! ### Work queues -/

/-- A doorbell within the ring's depth of WQ_FI moves WQ_PI, clears a failed fetch and is answered OK; one beyond it, or one
that moves WQ_PI back, is dropped with REJECT and cause STATE. No other queue, and no byte of memory, changes.
CQ_CI takes a value that leaves at most a ring of records unread; another is dropped with cause RANGE.
FLUSH of a queue with no flush running withdraws every order that the pan has not taken: the window and the armed
slots are empty, WQ_FI reaches WQ_PI, and each withdrawn order's record reads ABORTED. The running order stays. -/
def Obligations.QueueRegistersWritten : Prop :=
  (∀ (l : Fin 60) (v : W32) (s : State), Answers s .glb →
     ((v - (lp s l).wqFi).toNat ≤ 2 ^ (lp s l).wqLog2.toNat → (v - (lp s l).wqPi).toNat ≤ 2 ^ 31 →
       ∃ t, exec (.doorbell l v) s = .next t ∧ t.cp = {} ∧ (lp t l).wqPi = v ∧ (lp t l).fetchStop = false ∧
         (lp t l).wqFi = (lp s l).wqFi ∧ (∀ m, m ≠ l → lp t m = lp s m) ∧ t.glb = s.glb ∧ t.hdrs = s.hdrs ∧ t.host = s.host) ∧
     (2 ^ (lp s l).wqLog2.toNat < (v - (lp s l).wqFi).toNat ∨ 2 ^ 31 < (v - (lp s l).wqPi).toNat →
       ∃ t, exec (.doorbell l v) s = .next t ∧ t.cp = { code := 1 } ∧ t.lpan = s.lpan ∧
         hdr t .glb = (hdr s .glb).reject (0x410 + 0x30 * l.1) .state ∧ t.host = s.host)) ∧
  (∀ (l : Fin 60) (v : W32) (s : State), Answers s .glb →
     (((lp s l).cqPi - v).toNat ≤ 2 ^ (lp s l).cqLog2.toNat → exec (.cqCiWrite l v) s =
       .next (modLp (answer s cpOk) l fun x => { x with cqCi := v })) ∧
     (2 ^ (lp s l).cqLog2.toNat < ((lp s l).cqPi - v).toNat → exec (.cqCiWrite l v) s =
       .next (modHdr (answer s cpOk) .glb fun h => h.reject (0x424 + 0x30 * l.1) .range))) ∧
  (∀ (l : Fin 60) (s : State), Answers s .glb → (∀ n, Here s ((lp s l).wqAddr n)) → (lp s l).flush = none →
     ∃ t, exec (.flush l []) s = .next t ∧ t.cp = {} ∧ (lp t l).win = [] ∧ (∀ j, vget (lp t l).armed j = none) ∧
       (lp t l).wqFi = (lp s l).wqPi ∧ (lp t l).fetchN = (lp s l).wqPi ∧ (lp t l).run = (lp s l).run ∧
       (∃ recs, (lp t l).done = (lp s l).done ++ recs ∧ (∀ d ∈ recs, d.status = 7) ∧
         recs.length = (lp s l).armedRuns.length + (lp s l).win.length + ((lp s l).wqPi - (lp s l).fetchN).toNat) ∧
       (∀ m, m ≠ l → lp t m = lp s m) ∧ t.host = s.host)

/-- ORDER_FETCH of a working pan brings the next ring order into its window, read at WQ_BASE + 128 × (n mod depth), when no
read of it is answered ERROR.
COMPLETION_WRITE, once every remote write of the order is acknowledged, writes the oldest held record's 32 bytes at
CQ_BASE + 32 × (CQ_PI mod depth), its CYCLES field being free, and advances CQ_PI; every byte outside the record reads as
before. Of addresses in the instance's own memory, while Brine credits last. -/
def Obligations.OrdersFetchedAndRecorded : Prop :=
  (∀ (l : Fin 60) (p : Fin 64) (bad : List Nat) (s : State), livePan s l = some p → (lp s l).qen = true →
     (lp s l).flush = none → (lp s l).fetchStop = false → (lp s l).fetchN ≠ (lp s l).wqPi → (lp s l).win.length < 8 →
     noStarts s = false → Credits s →
     let a0 := (lp s l).wqBase.toNat + 128 * ((lp s l).fetchN.toNat % 2 ^ (lp s l).wqLog2.toNat)
     let a := hostAddr s a0
     Here s a0 → (∀ i ∈ linesOf a 128, i ∉ bad) →
       ∃ t, exec (.orderFetch l bad) s = .next t ∧
         (lp t l).win = (lp s l).win ++ [{ n := (lp s l).fetchN.toNat, ord := orderOf (memBytes s.host a 128) }] ∧
         (lp t l).fetchN = (lp s l).fetchN + 1 ∧ (∀ m, m ≠ l → lp t m = lp s m) ∧ t.host = s.host ∧ t.hdrs = s.hdrs ∧
         t.glb = s.glb) ∧
  (∀ (l : Fin 60) (d : Done) (rest : List Done) (s : State), (lp s l).done = d :: rest → (lp s l).cqFull = false →
     s.flt.lastrst ≠ 3 → s.wrap.taken = false → Credits s → writesOut (s.begin []) (.pan l d.n) = false →
     let a0 := (lp s l).cqBase.toNat + 32 * ((lp s l).cqPi.toNat % 2 ^ (lp s l).cqLog2.toNat)
     let a := hostAddr s a0
     Here s a0 → ∃ t, exec (.completionWrite l []) s = .next t ∧ (lp t l).done = rest ∧ (lp t l).cqPi = (lp s l).cqPi + 1 ∧
       t.host = memPut s.host a (completionBytes d l (lp s l).wqFi (Config.freeBits 32 s.free) (lp s l).phase) ∧
       (∀ b, b < a ∨ a + 32 ≤ b → smGet 0 t.host b = smGet 0 s.host b) ∧ (∀ m, m ≠ l → lp t m = lp s m) ∧
       (d.irq = true → bit t.glb.intpnd l.1 = true))

/-! ### The shard table -/

/-- SHT_CMD starts PLAN or ACTIVATE while none runs; a second command leaves the result BUSY and the first one running.
SHT_COMMAND_DONE ends the running command. An ACTIVATE of an empty table returns OK: no shard state is left, the pond
is free and VSTEP is 0. A PLAN below level 1.2 returns BADSHARD, an ACTIVATE with a step open returns BUSY. -/
def Obligations.ShardCommandsRun : Prop :=
  (∀ (s : State) (i : Instr) (c : ShtCmd), Answers s .glb → (i, c) ∈ [(Instr.plan, ShtCmd.plan), (.activate, .activate)] →
     (s.glb.shtRun = none → exec i s = .next (modGlb (answer s cpOk) fun g => { g with shtRun := some c })) ∧
     (s.glb.shtRun ≠ none → exec i s = .next (modGlb (answer s cpOk) fun g => { g with shtRes := 4 }))) ∧
  (∀ s : State,
     (s.glb.shtRun = some .activate → s.glb.shtN = 0 → noStepOpen s = true → s.flt.lastrst ≠ 2 → s.twn.regs.twen = false →
       (capacityBad s [] = false) →
       ∃ t, exec (.shtCommandDone []) s = .next t ∧ t.glb.shtRun = none ∧ t.glb.shtRes = 0 ∧ t.shard = [] ∧ t.pond = [] ∧
         t.vrd.regs.vstep = 0 ∧ t.vrd.activated = true ∧ t.host = s.host) ∧
     (s.glb.shtRun = some .activate → noStepOpen s = false →
       ∃ t, exec (.shtCommandDone []) s = .next t ∧ t.glb.shtRun = none ∧ t.glb.shtRes = 4 ∧ t.shard = s.shard) ∧
     (s.glb.shtRun = some .plan → (hdr s .glb).abi.toNat < 0x0102 →
       ∃ t, exec (.shtCommandDone []) s = .next t ∧ t.glb.shtRun = none ∧ t.glb.shtRes = 2 ∧ t.shard = s.shard))

/-! ### The verdict -/

/-- SKIPNOW at a master that is alone, holds no shard and has formed no verdict ends the open step with a SKIP: VSTEP
advances, the log's next entry holds the step as a SKIP and SKIPRUN counts it.
FLAGS_SEND at a master that is alone commits its own step exactly when its flags are clean and VSIZE is 1: a lone
instance with no shard, its jobs in and nothing pending commits unless FAULT or NONFINITE stands.
VCLOSE closes the open step with its job count; a second one for the same step is answered REJECT.
VSLOW at a sent and unanswered step raises the VSLOW source once. -/
def Obligations.StepDecidedOrClosed : Prop :=
  (∀ s : State, Answers s .vrd → s.vrd.regs.vparent = 0xFF → s.vrd.regs.vchild = 0 → s.vrd.formed = none → s.shard = [] →
     s.vrd.own = none → s.vrd.evals = [] → s.twn.regs.twen = false → s.vrd.flipping = none →
     ∃ t n, exec .skipnow s = .next t ∧ t.cp = {} ∧ t.vrd.regs.vstep = s.vrd.regs.vstep + 1 ∧ t.vrd.regs.closed = false ∧
       t.vrd.regs.skiprun = satAdd s.vrd.regs.skiprun 1 ∧ t.vrd.regs.loghead = n ∧ n = s.vrd.regs.loghead + 1 ∧
       (vget t.vrd.regs.log n.toFin).step = s.vrd.regs.vstep ∧ (vget t.vrd.regs.log n.toFin).commit = false ∧
       (vget t.vrd.regs.log n.toFin).valid = true ∧ t.shard = [] ∧ t.host = s.host) ∧
  (∀ s : State, flagsReady s = true → goesOn s .vrd = true → s.pwr.pstate = .active → s.vrd.regs.vparent = 0xFF →
     s.vrd.regs.vchild = 0 → s.vrd.regs.vsize = 1 → s.vrd.formed = none → s.shard = [] → s.vrd.recs = [] →
     s.vrd.evals = [] → s.twn.regs.twen = false → s.vrd.flipping = none → s.twn.regs.adopted = 0xFF →
     corruptArmed s .vrd cLockstep = false →
     ∃ t n, exec .flagsSend s = .next t ∧ t.vrd.regs.vstep = s.vrd.regs.vstep + 1 ∧ n = s.vrd.regs.loghead + 1 ∧
       (vget t.vrd.regs.log n.toFin).valid = true ∧ (vget t.vrd.regs.log n.toFin).step = s.vrd.regs.vstep ∧
       ((vget t.vrd.regs.log n.toFin).commit = true ↔ ownFlags s [] = (false, false, false)) ∧
       t.vrd.regs.closed = false ∧ t.vrd.regs.sent = false ∧ t.vrd.pendFt = false ∧ t.vrd.pendNf = false) ∧
  (∀ (n : BitVec 14) (s : State), Answers s .vrd →
     (s.vrd.regs.closed = false → exec (.vclose n) s =
       .next (modVrdR (answer s cpOk) fun v => { v with closed := true, njobs := n })) ∧
     (s.vrd.regs.closed = true → exec (.vclose n) s =
       .next (modHdr (answer s cpReject) .vrd fun h => h.reject 0x44 .state))) ∧
  (∀ s : State, s.vrd.regs.sent = true → s.vrd.vslow = false →
     ∃ t, exec .vslow s = .next t ∧ bit t.glb.intpnd 67 = true ∧ t.vrd.vslow = true ∧ t.vrd.regs = s.vrd.regs ∧
       exec .vslow t = .next t)

/-- The response to a shard's record write, which the transaction of its flip awaits, ends the flip: PEND is cleared and the
micro-steps start anew, its pond pages are free, and no transaction of it is left. A good response gives the shard's state
entry the record's epoch and slot, an error leaves both and is recorded as BRINE in the verdict page. While no other flip of a
COMMIT and no held gradient waits for it, a good one stores the record at its address and changes nothing else in memory, no
other shard and no page; for a masked shard the directory entry takes the slot too. -/
def Obligations.CommitFlipWritesRecord : Prop :=
  ∀ (i : Fin 8192) (ws : List W32) (x : Txn) (s : State), s.txns.find? (fun t => t.why == .flip i.1) = some x →
    (shardOf s i.1).flip = some ws → (∀ y ∈ s.shard, y.2.held = []) →
    (∃ t, exec (.commitFlipDone i false) s = .next t ∧
      (shardOf t i.1).cep = recEpoch ws ∧ (shardOf t i.1).slot = recSlot ws ∧ (shardOf t i.1).pend = false ∧
      (shardOf t i.1).flip = none ∧ (shardOf t i.1).msf = 0 ∧ (shardOf t i.1).gcnt = 0 ∧ (∀ y ∈ t.pond, y.2.1 ≠ i.1) ∧
      (∀ y ∈ t.txns, y.why ≠ .flip i.1) ∧
      ((shardOf s i.1).srec.masked = true → (dirOf t (shardOf s i.1).srec.mid).slot = recSlot ws) ∧
      (s.twn.regs.twen = false → s.vrd.flipping = none → t.host = memPut s.host x.addr x.data ∧
        (∀ b, b < x.addr ∨ x.addr + x.data.length ≤ b → smGet 0 t.host b = smGet 0 s.host b) ∧
        (∀ j, j ≠ i.1 → shardOf t j = shardOf s j) ∧ t.hdrs = s.hdrs)) ∧
    ((hdr s .vrd).errsev = 0 → (hdr s .vrd).slotA.valid = false →
      ∃ t, exec (.commitFlipDone i true) s = .next t ∧ (shardOf t i.1).cep = (shardOf s i.1).cep ∧
        (shardOf t i.1).slot = (shardOf s i.1).slot ∧ (shardOf t i.1).pend = false ∧ (shardOf t i.1).flip = none ∧
        bit (hdr t .vrd).err 7 = true ∧ (∀ y ∈ t.txns, y.why ≠ .flip i.1))

/-! ### The Rake -/

/-- RAKE_LOAD, FOLLOW and DROP wait in the Rake, one at a time, held while the page reads STOPPED; a second one, or one
written while the Rake is fenced or isolated, is answered REJECT with cause STATE.
RAKE_COMMAND_DONE ends a DROP whose entry is not BUSY, holds a role and has no reader: the entry's role is NONE and
the result is DONE; a DROP of an entry that is BUSY ends with the result BUSY and one without a role with BADROLE; one
that still has readers waits. -/
def Obligations.RakeCommands : Prop :=
  (∀ (b : Bool) (m : BitVec 12) (s : State) (i : Instr) (op : RakeOp), Answers s .rak →
     (i, op) ∈ [(Instr.rakeLoad b m, RakeOp.load), (.follow b m, .follow), (.drop b m, .drop)] →
     (s.flt.frake = false → (hdr s .rak).mode ≠ .isolated → s.rak.cmd = none → exec i s = .next (modRak (answer s cpOk) fun r =>
       { r with cmd := some { op := op, slot := b, mid := m.toNat, held := decide (pageState s .rak = .stopped) } })) ∧
     (s.flt.frake = true ∨ (hdr s .rak).mode = .isolated ∨ s.rak.cmd ≠ none → exec i s =
       .next (modHdr (answer s cpReject) .rak fun h => h.reject 0x40 .state))) ∧
  (∀ (c : RakeCmd) (s : State), s.rak.cmd = some c → c.op = .drop → rakeGoes s = true → s.twn.regs.twen = false →
     let e := dirOf s c.mid
     (e.busy = false → e.role ≠ 0 → e.rdrA = 0 → e.rdrB = 0 →
       ∃ t, exec (.rakeCommandDone []) s = .next t ∧ t.rak.cmd = none ∧ t.rak.regs.rres = 0 ∧
         t.rak.regs.rrmid = BitVec.ofNat 12 c.mid ∧ (dirOf t c.mid).role = 0 ∧ (∀ m, m ≠ c.mid → dirOf t m = dirOf s m) ∧
         t.host = s.host) ∧
     (e.busy = true → ∃ t, exec (.rakeCommandDone []) s = .next t ∧ t.rak.cmd = none ∧ t.dir = s.dir ∧
       t.rak.regs.rres = 1) ∧
     (e.busy = false → e.role = 0 → ∃ t, exec (.rakeCommandDone []) s = .next t ∧ t.rak.cmd = none ∧ t.dir = s.dir ∧
       t.rak.regs.rres = 2) ∧
     (e.busy = false → e.role ≠ 0 → e.rdrA ≠ 0 → ∃ t, exec (.rakeCommandDone []) s = .next t ∧ t.rak.cmd = some c ∧
       t.dir = s.dir))

/-! ### The cascade -/

/-- A JOIN is refused with JERR 5 where the lifecycle does not permit PROT or the slot of TXKSEL is empty under one, and
with SESSION where the new session would be the key's first; REFUSED makes the BOOT source pending. -/
def Obligations.JoinRefusedWithoutKey : Prop :=
  ∀ s : State, Answers s .twn → s.twn.regs.jstate = .idle → pageState s .vrd ≠ .stopped →
    (protOk s.sec.lcs s.twn.regs.prot.toNat = false ∨
        (s.twn.regs.prot ≠ 0 ∧ (vget s.sec.lk s.sec.txksel).valid = false) →
      ∃ t, exec .join s = .next t ∧ t.cp = {} ∧ t.twn.regs.jstate = .refused ∧ t.twn.regs.jerr = 5 ∧
        t.twn.regs.session = s.twn.regs.session ∧ bit t.glb.intpnd 75 = true ∧ t.sec = s.sec) ∧
    (protOk s.sec.lcs s.twn.regs.prot.toNat = true → s.twn.regs.prot ≠ 0 → (vget s.sec.lk s.sec.txksel).valid = true →
      s.twn.regs.session + 1 = (vget s.sec.lk s.sec.txksel).ksess0 →
      ∃ t, exec .join s = .next t ∧ t.cp = {} ∧ t.twn.regs.jstate = .refused ∧ t.twn.regs.jerr = 4 ∧
        t.twn.regs.session = s.twn.regs.session)

/-- JOIN of a master that is alone, with PROT NONE permitted, opens a new session and makes the instance JOINED, and READY
follows CONFIG; LEAVE takes both back and leaves the session number. -/
def Obligations.LoneMasterJoinsAndLeaves : Prop :=
  ∀ s : State, Answers s .twn →
    (s.twn.regs.jstate = .idle → pageState s .vrd ≠ .stopped → protOk s.sec.lcs 0 = true → s.twn.regs.prot = 0 →
      s.vrd.regs.vparent = 0xFF → s.vrd.regs.vchild = 0 → s.vrd.regs.vsize = 1 → s.glb.bstage = 7 →
      ∃ t, exec .join s = .next t ∧ t.cp = {} ∧ t.twn.regs.jstate = .joined ∧ t.twn.regs.session = s.twn.regs.session + 1 ∧
        t.glb.bstage = 8 ∧ bit t.glb.intpnd 75 = true ∧ t.twn.pairs = [] ∧ t.twn.sess = []) ∧
    (s.twn.regs.jstate = .joined → s.glb.bstage = 8 →
      ∃ t, exec .leave s = .next t ∧ t.cp = {} ∧ t.twn.regs.jstate = .idle ∧ t.glb.bstage = 7 ∧
        t.twn.regs.session = s.twn.regs.session ∧ t.host = s.host) ∧
    (s.twn.regs.jstate ≠ .joined → exec .leave s = .next (modHdr (answer s cpOk) .twn fun h => h.reject 0x54 .state))

/-! ### Power -/

/-- PCMD DOZE is REFUSED while any unit is halted by debug; nothing else changes. -/
def Obligations.DozeRefusedWhileHalted : Prop :=
  ∀ s : State, Answers s .pwr → s.pwr.ptrans = none → s.flt.pfstate = 0 →
    (s.tst.regs.dhPan ≠ 0 ∨ s.tst.regs.dhHrv ≠ 0 ∨ s.tst.regs.dhSlt ≠ 0 ∨ s.tst.regs.dhRak = true) →
    exec .doze s = .next (modPwr (answer s cpOk) fun p => { p with pres := 2 })

/-- PCMD DOZE with the block idle, no salter waiting in its code and no twin ends in DOZE: every pan is GATED, the
history checkpoint is the history's, and PRES reads DONE.
WAKE starts the way back: from DOZE to the core's wake, from RETAIN by requesting every supply, each quad at VMAX and
the shared domain at VSHARED; in ACTIVE it is REFUSED. JLAGTO ends a DOZE entry that waits for the twin, with the block
still ACTIVE and PRES 4. -/
def Obligations.SleepStartsAndEnds : Prop :=
  (∀ s : State, Answers s .pwr → s.pwr.ptrans = none → s.flt.pfstate = 0 → dozeOk s = true →
     (∀ n, (salt s n).mode = .idle) → s.twn.regs.twen = false →
     ∃ t, exec .doze s = .next t ∧ t.cp = {} ∧ t.pwr.pstate = .doze ∧ t.pwr.ptrans = none ∧ t.pwr.pres = 1 ∧
       (∀ p, (pn t p).pwr = .gated) ∧ t.ckpt = s.hist ∧ t.hist = s.hist ∧ t.host = s.host ∧ t.sec = s.sec) ∧
  (∀ s : State,
     (Answers s .pwr → s.pwr.ptrans = none → s.flt.pfstate = 0 → s.pwr.pstate = .doze →
       exec .wake s = .next (modPwr (answer s cpOk) fun p => { p with ptrans := some .dozeWake, wakeCmd := true })) ∧
     (Answers s .pwr → s.pwr.ptrans = none → s.pwr.pstate = .retain →
       ∃ t, exec .wake s = .next t ∧ t.cp = {} ∧ t.pwr.ptrans = some .retainPower ∧ t.pins.vidSEn = true ∧
         t.pins.vidSCode = s.pwr.vshared ∧ ∀ q, (quad t q).vidEn = true ∧ (quad t q).vidCode = (quad s q).vmax) ∧
     (Answers s .pwr → s.pwr.ptrans = none → s.flt.pfstate = 0 → s.pwr.pstate = .active →
       exec .wake s = .next (modPwr (answer s cpOk) fun p => { p with pres := 2 })) ∧
     (s.pwr.ptrans = some .dozeWait → ∃ t, exec .jlagto s = .next t ∧ t.pwr.ptrans = none ∧ t.pwr.pres = 4 ∧
       t.pwr.pstate = s.pwr.pstate ∧ t.host = s.host))

/-- PCMD RETAIN is taken in DOZE by an instance that is not JOINED: both key slots are erased with cause RETAIN, the debug
session ends, the checkpoint is written and every supply is switched off; elsewhere it is REFUSED. -/
def Obligations.RetainErasesKeysAndSupplies : Prop :=
  ∀ s : State, Answers s .pwr → s.pwr.ptrans = none → s.flt.pfstate = 0 →
    (s.pwr.pstate = .doze → s.twn.regs.jstate ≠ .joined → s.pins.pwrGood ≠ 0 →
      ∃ t, exec .retain s = .next t ∧ t.cp = {} ∧ t.pwr.ptrans = some .retainEntry ∧ (∀ i, (vget t.sec.lk i).valid = false) ∧
        t.sec.kercause = 2 ∧ t.sec.dbglvl = 0 ∧ t.ckpt = s.hist ∧ t.pins.vidSEn = false ∧
        ∀ q, (quad t q).vidEn = false ∧ (quad t q).vidCode = 0) ∧
    (s.pwr.pstate ≠ .doze ∨ s.twn.regs.jstate = .joined →
      exec .retain s = .next (modPwr (answer s cpOk) fun p => { p with pres := 2 }))

/-- PF_WARN, the loss of REFCLK, a reading of 125 °C or more and a fall of PWR_GOOD that nothing asked for each run the
power-fail sequence in ACTIVE or DOZE of an instance that is not JOINED: what runs is abandoned in ACTIVE, the checkpoint
is written, the debug session ends, PFSTATE reads 2, and memory is as it was but for the inactive slots of jobs that ran.
The loss of the always-on supply leaves the block OFF with the reset values, and only host memory, outside the block,
as it was. -/
def Obligations.PowerFailAndSupplyLoss : Prop :=
  (∀ (s : State) (c : Instr) (b : Fin 17) (x : Fin 17) (r : W16), s.pins.rstLow = false → s.wrap.taken = false →
     (s.pwr.pstate = .active ∨ s.pwr.pstate = .doze) → s.flt.pfstate = 0 → s.pwr.ptrans = none →
     s.twn.regs.jstate ≠ .joined → s.twn.regs.twen = false → s.pins.vidSEn = true → bit s.pins.pwrGood b.1 = true →
     setBit s.pins.pwrGood b.1 false ≠ 0 → 1000 ≤ r.toInt → s.tst.tests = [] → s.tst.waiting = none →
     c ∈ [Instr.pfWarn, .refclkLoss, .pwrGoodFall b, .ttrip x r, .talm x r] →
     ∃ t, exec c s = .next t ∧ t.flt.pfstate = 2 ∧ t.sec.dbglvl = 0 ∧ t.ckpt = s.hist ∧ t.pwr.pstate = s.pwr.pstate ∧
       KeepsHost s t ∧ (s.pwr.pstate = .active → ∀ l, (lp t l).run = none ∧ (lp t l).parked = []) ∧
       (c = .refclkLoss → t.pwr.refloss = true ∧ bit t.glb.intpnd 73 = true) ∧
       (c = .ttrip x r ∨ c = .talm x r → t.pwr.ttrip = true ∧ bit t.glb.intpnd 73 = true)) ∧
  (∀ (s : State), ∃ t, exec .aonSupplyLoss s = .next t ∧ t.pwr = { pstate := .off } ∧ t.host = s.host ∧ t.ckpt = [] ∧
     t.tail = [] ∧ t.glb = {} ∧ t.sec = {} ∧ t.lpan = Vector.replicate 60 {} ∧ t.shard = [] ∧ t.pins.vidSEn = false ∧
     t.cp = {})

/-- A power domain's reading below 125 °C that reaches TALARM sets TALM and makes the PWR source pending; one below TALARM
sets neither; the highest reading of each sensor and a quad's last one are kept.
Voltage handshakes: VSHARED's write issues one request by a toggle of VID_S_REQ with the new code, unless one is
outstanding or the code is the same; a quad's ACK makes its outstanding code the one in force; VIDTO is noted with its
interrupt and leaves the request outstanding.
An AVS window of a quad with a LIVE pan and no request outstanding: a slack under SLACKLO asks for two codes more, at
most VMAX; the sixteenth window in a row over SLACKHI asks for one code less; a slack under 2 sets STRETCH. -/
def Obligations.TemperatureAndVoltage : Prop :=
  (∀ (x : Fin 17) (r : W16) (s : State) (c : Instr), s.pins.rstLow = false → s.pwr.pstate ≠ .off → s.pwr.pstate ≠ .retain →
     r.toInt < 1000 → c ∈ [Instr.talm x r, .ttrip x r] →
     ∃ t, exec c s = .next t ∧ (s.pwr.talarm.toInt ≤ r.toInt → t.pwr.talm = true ∧ bit t.glb.intpnd 73 = true) ∧
       (r.toInt < s.pwr.talarm.toInt → t.pwr = s.pwr ∧ t.glb = s.glb) ∧ t.pwr.ttrip = s.pwr.ttrip ∧
       vget t.tst.regs.tempmax x = (if (vget s.tst.regs.tempmax x).toInt < r.toInt then r else vget s.tst.regs.tempmax x) ∧
       (∀ q : Fin 16, q.1 = x.1 → (quad t q).temp = r) ∧ t.flt = s.flt ∧ t.host = s.host) ∧
  (∀ (s : State) (v : Byte) (q : Fin 16) (code : Byte),
     (Answers s .pwr → s.pins.vidSEn = true → s.pins.vidSOut = false → s.pins.vidSCode ≠ v →
       ∃ t, exec (.vsharedWrite v) s = .next t ∧ t.cp = {} ∧ t.pwr.vshared = v ∧ t.pins.vidSCode = v ∧
         t.pins.vidSReq = !s.pins.vidSReq ∧ t.pins.vidSOut = true ∧ t.qd = s.qd) ∧
     (Answers s .pwr → s.pins.vidSOut = true → ∃ t, exec (.vsharedWrite v) s = .next t ∧ t.pwr.vshared = v ∧ t.pins = s.pins) ∧
     ((quad s q).reqout = some code → quadLive s q = true →
       exec (.vidAck (q.castSucc)) s = .next (modQd s q fun x => { x with vcode := code, reqout := none })) ∧
     ((quad s q).reqout = some code → ∃ t, exec (.vidto q) s = .next t ∧ (quad t q).vidto = true ∧
       (quad t q).reqout = some code ∧ bit t.glb.intpnd 73 = true)) ∧
  (∀ (q : Fin 16) (slack : BitVec 6) (s : State), s.pwr.pstate = .active → quadLive s q = true → (quad s q).reqout = none →
     (hdr s (.qd q)).mode = .active →
     ∃ t, exec (.avsWindow q slack) s = .next t ∧ (quad t q).slacknow = slack ∧ (quad t q).stretch = decide (slack.toNat < 2) ∧
       (slack.toNat < (quad s q).slacklo.toNat → (quad s q).vcode.toNat < (quad s q).vmax.toNat →
         (quad t q).reqout = some (BitVec.ofNat 8 (min ((quad s q).vcode.toNat + 2) (quad s q).vmax.toNat)) ∧
         (quad t q).vidReq = !(quad s q).vidReq) ∧
       ((quad s q).slacklo.toNat ≤ slack.toNat → (quad s q).slackhi.toNat < slack.toNat → (quad s q).high = 15 →
         (quad s q).vmin.toNat < (quad s q).vcode.toNat → (quad t q).reqout = some ((quad s q).vcode - 1)) ∧
       ((quad s q).slacklo.toNat ≤ slack.toNat → slack.toNat ≤ (quad s q).slackhi.toNat → (quad t q).reqout = none) ∧
       (∀ r, r ≠ q → quad t r = quad s r) ∧ t.pan = s.pan ∧ t.hdrs = s.hdrs)

/-! ### Security and debug -/

/-- A change of LCS_STATE while the block is powered sets LCSCHG, erases both link key slots and ends any debug session;
the lifecycle state in force stays until the next cold reset, which samples the pins. -/
def Obligations.LcsChangeErasesKeys : Prop :=
  ∀ (v : BitVec 4) (s : State), v ≠ s.pins.lcsState → s.pins.rstLow = false → s.pwr.pstate ≠ .off →
    (∃ t, exec (.lcsStateChange v) s = .next t ∧ t.sec.lcschg = true ∧ (∀ i, vget t.sec.lk i = {}) ∧ t.sec.dbglvl = 0 ∧
      t.sec.lcs = s.sec.lcs ∧ t.sec.kercause = 5 ∧ t.host = s.host ∧ t.hdrs = s.hdrs) ∧
    ∀ svn rv, ∃ t, exec (.coldReset v svn rv) s = .next t ∧
      (t.sec.lcs, t.sec.lcsbad) = (if v = 0 then (0, false) else if v = 3 then (1, false) else if v = 7 then (2, false)
        else if v = 15 then (3, false) else (3, true))

/-- KCMD LOAD starts a request for KID on the KEY port where the lifecycle and R417 permit it; ERASE empties the slot,
counts the erasure with cause KCMD and ends OK. In BLANK and RMA a LOAD ends REFUSED, recorded with cause SECURITY; a
command while one runs ends BUSY.
The key manager's answer ends a running load: OK with four beats fills the slot with the KID, the current SESSION and
the 256 key bits; any other answer is DENY and a silent one TIMEOUT, and neither changes a slot. -/
def Obligations.KeysLoadedAndErased : Prop :=
  (∀ (i : Fin 2) (s : State), Answers s .sec → 0x0103 ≤ (hdr s .sec).abi.toNat → s.twn.regs.jstate ≠ .joined →
     (s.sec.kload = none → s.sec.lcs = 1 ∨ s.sec.lcs = 2 → s.sec.noload = false →
       ∃ t, exec (.keyLoad i) s = .next t ∧ t.cp = {} ∧ t.sec.kload = some (i, s.sec.kid) ∧ t.pins.keyKid = s.sec.kid ∧
         t.pins.keyReq = !s.pins.keyReq ∧ t.sec.lk = s.sec.lk) ∧
     (s.sec.kload = none → s.sec.lcs = 0 ∨ s.sec.lcs = 3 ∨ s.sec.noload = true →
       ∃ t, exec (.keyLoad i) s = .next t ∧ t.sec.kload = none ∧ t.sec.kres = 4 ∧ t.sec.lk = s.sec.lk ∧
         hdr t .sec = (hdr s .sec).reject 0x94 .security ∧ bit t.glb.intpnd 76 = true) ∧
     (s.sec.kload = none →
       ∃ t, exec (.keyErase i) s = .next t ∧ t.cp = {} ∧ vget t.sec.lk i = {} ∧ (∀ j, j ≠ i → vget t.sec.lk j = vget s.sec.lk j) ∧
         t.sec.kercause = 3 ∧ t.sec.kerasecnt = satAdd s.sec.kerasecnt 1 ∧ t.sec.kres = 1) ∧
     (s.sec.kload ≠ none → ∀ c, c = Instr.keyLoad i ∨ c = Instr.keyErase i →
       ∃ t, exec c s = .next t ∧ t.sec.kload = s.sec.kload ∧ t.sec.kres = 6 ∧ t.sec.lk = s.sec.lk)) ∧
  (∀ (i : Fin 2) (kid : W32) (beats : List W64) (sts : BitVec 2) (s : State), s.sec.kload = some (i, kid) →
     (sts = 0 → beats.length = 4 → ∃ t, exec (.keyAck sts beats) s = .next t ∧ t.sec.kload = none ∧ t.sec.kres = 1 ∧
       (vget t.sec.lk i).valid = true ∧ (vget t.sec.lk i).kid = kid ∧ (vget t.sec.lk i).ksess0 = s.twn.regs.session ∧
       (vget t.sec.lk i).key = keyBits beats ∧ ∀ j, j ≠ i → vget t.sec.lk j = vget s.sec.lk j) ∧
     (sts ≠ 0 ∨ beats.length ≠ 4 → ∃ t, exec (.keyAck sts beats) s = .next t ∧ t.sec.kload = none ∧ t.sec.kres = 2 ∧
       t.sec.lk = s.sec.lk ∧ t.pins.keyKid = 0) ∧
     (∃ t, exec .keyTimeout s = .next t ∧ t.sec.kload = none ∧ t.sec.kres = 3 ∧ t.sec.lk = s.sec.lk ∧ t.pins.keyKid = 0 ∧
       bit t.glb.intpnd 76 = true))

/-- TXKSEL takes a slot that holds a key and drops one that does not with cause STATE; DBGMAX takes a value that does not
raise it, lowering DBGLVL with it, and drops a raise with cause SECURITY.
A grant is taken up as the lower of itself and DBGMAX and acknowledged; in BLANK the grant counts for nothing. In PROD
one that makes the level INVASIVE first erases both key slots, with cause INVDBG, and fences the instance. -/
def Obligations.DebugLevels : Prop :=
  (∀ (i : Fin 2) (v : BitVec 2) (s : State), Answers s .sec → 0x0103 ≤ (hdr s .sec).abi.toNat →
     ((vget s.sec.lk i).valid = true → s.twn.pairs = [] →
       exec (.txkselWrite i) s = .next (modSec (answer s cpOk) fun x => { x with txksel := i })) ∧
     ((vget s.sec.lk i).valid = false →
       exec (.txkselWrite i) s = .next (modHdr (answer s cpOk) .sec fun h => h.reject 0xB0 .state)) ∧
     (v.toNat ≤ s.sec.dbgmax.toNat → ∃ t, exec (.dbgmaxWrite v) s = .next t ∧ t.cp = {} ∧ t.sec.dbgmax = v ∧
       t.sec.dbglvl = (if v.toNat < s.sec.dbglvl.toNat then v else s.sec.dbglvl) ∧ t.sec.lk = s.sec.lk) ∧
     (s.sec.dbgmax.toNat < v.toNat →
       exec (.dbgmaxWrite v) s = .next (modHdr (answer s cpOk) .sec fun h => h.reject 0xB8 .security))) ∧
  (∀ (v : BitVec 2) (s : State), s.pins.rstLow = false → s.wrap.taken = false → s.pwr.pstate = .active → s.flt.pfstate = 0 →
     (∃ t, exec (.debugGrant v) s = .next t ∧ t.pins.dbgAck = !s.pins.dbgAck ∧ t.sec.dbggrant = v ∧
       t.sec.dbglvl.toNat = min (if s.sec.lcs = 0 then 2 else min v.toNat 2) s.sec.dbgmax.toNat) ∧
     (s.sec.lcs = 2 → 2 ≤ v.toNat → s.sec.dbgmax.toNat = 2 → s.sec.dbglvl ≠ 2 →
       ∃ t, exec (.debugGrant v) s = .next t ∧ t.sec.dbglvl = 2 ∧ (∀ i, vget t.sec.lk i = {}) ∧ t.sec.kercause = 4 ∧
         t.sec.noload = true ∧ t.twn.regs.jstate = .fenced))

/-- DH_CMD at level INVASIVE, on a unit neither GATED nor fenced: HALT and STEP set its halt bit, RESUME clears it; below
that level it is dropped with cause SECURITY.
When DBGLVL falls from INVASIVE every unit halted by debug goes on, and what the debug window wrote stands.
The debug window of a salter's memory at level INVASIVE: a read of the low word gives the word and latches the high
one, which the next read of the high word gives while DW_ADDR moves on; a write of both halves stores eight bytes there
and nothing else. -/
def Obligations.DebugUnits : Prop :=
  (∀ (u : Byte) (s : State), Answers s .tst → u.toNat ≤ 0x50 →
     (s.sec.dbglvl = 2 → dhUnitOk s u.toNat = true →
       (∃ t, exec (.dhHalt u) s = .next t ∧ t.cp = {} ∧ dhBit t.tst.regs u.toNat = true ∧ halted t u.toNat = true) ∧
       (∃ t, exec (.dhStep u) s = .next t ∧ t.cp = {} ∧ dhBit t.tst.regs u.toNat = true ∧ halted t u.toNat = false) ∧
       (∃ t, exec (.dhResume u) s = .next t ∧ t.cp = {} ∧ dhBit t.tst.regs u.toNat = false ∧ t.slt = s.slt)) ∧
     (s.sec.dbglvl ≠ 2 → ∀ c, c ∈ [Instr.dhHalt u, .dhStep u, .dhResume u] →
       exec c s = .next (modHdr (answer s cpOk) .tst fun h => h.reject 0xA0 .security))) ∧
  (∀ (v : BitVec 2) (s : State), s.sec.dbglvl = 2 → s.pins.rstLow = false → s.wrap.taken = false → s.pwr.pstate = .active →
     s.flt.pfstate = 0 → s.sec.lcs ≠ 0 → Answers s .sec → v.toNat < 2 → ∀ c, c = Instr.debugGrant v ∨ (c = .dbgmaxWrite v ∧ v.toNat ≤ s.sec.dbgmax.toNat) →
       ∃ t, exec c s = .next t ∧ t.sec.dbglvl ≠ 2 ∧ t.tst.regs.dhPan = 0 ∧ t.tst.regs.dhHrv = 0 ∧ t.tst.regs.dhSlt = 0 ∧
         t.tst.regs.dhRak = false ∧ t.pan = s.pan ∧ t.hrv = s.hrv ∧ t.slt = s.slt) ∧
  (∀ (n : Fin 8) (a : Nat) (lo hi : W32) (s : State), Answers s .tst → s.sec.dbglvl = 2 → s.tst.regs.dwUnit.toNat = 0x48 + n.1 →
     s.tst.regs.dwAddr.toNat = 8 * a → 8 * a + 8 ≤ 0x40000 →
     (∃ t u, exec (.dwDataRead false) s = .next t ∧ t.cp.code = 0 ∧
       t.cp.data = BitVec.ofNat 32 (leNat (memBytes (salt s n).lmem (8 * a) 4)) ∧
       exec (.dwDataRead true) t = .next u ∧ u.cp.data = BitVec.ofNat 32 (leNat (memBytes (salt s n).lmem (8 * a + 4) 4)) ∧
       u.tst.regs.dwAddr = s.tst.regs.dwAddr + 8 ∧ u.slt = s.slt) ∧
     (∃ t u, exec (.dwDataWrite false lo) s = .next t ∧ t.slt = s.slt ∧ exec (.dwDataWrite true hi) t = .next u ∧ u.cp = {} ∧
       memBytes (salt u n).lmem (8 * a) 8 = leBytes 4 lo.toNat ++ leBytes 4 hi.toNat ∧
       (∀ b, b < 8 * a ∨ 8 * a + 8 ≤ b → smGet 0 (salt u n).lmem b = smGet 0 (salt s n).lmem b) ∧
       (∀ m, m ≠ n → salt u m = salt s m) ∧ u.tst.regs.dwAddr = s.tst.regs.dwAddr + 8))

/-- FW_GO starts a load, and moves FWWAIT on to loading, unless firmware loads are locked: it is then dropped with cause
SECURITY. FIRMWARE_LOAD_DONE ends a running load of an image that is read without error, with FORMAT for a header of a
broken format and else with the result of the checks that follow it. PASS holds the image's SVN, key and digest, starts every
salter in service that runs firmware at ENTRY with the payload at local address 0, and moves a start on to the self-test.
Any other result counts in FWFAIL, locks further loads at the third failure, starts no salter and returns a start to
FWWAIT. Of an image in the instance's own memory, while Brine credits last, and after a warm reset of a block without mask
directory entries. -/
def Obligations.FirmwareLoadJudged : Prop :=
  ∀ s : State,
    (Answers s .sec → s.sec.fwLock = false → s.sec.fwRun = false → ∃ t, exec .fwGo s = .next t ∧ t.cp = {} ∧
      t.sec.fwRun = true ∧ (s.glb.bstage = 3 → t.glb.bstage = 4) ∧ (s.glb.bstage ≠ 3 → t.glb = s.glb)) ∧
    (Answers s .sec → s.sec.fwLock = true →
      exec .fwGo s = .next (modHdr (answer s cpOk) .sec fun h => h.reject 0x50 .security)) ∧
    (let a := s.sec.fwBase.toNat
     let h := memBytes s.host (hostAddr s a) 256
     let p := memBytes s.host (hostAddr s (a + 256)) (leAt h 8 4)
     let res := if fwFormatOk h then fwVerdict s h p else 3
     s.sec.fwRun = true → Credits s → Here s a → Here s (a + 256) → (s.flt.lastrst = 1 → s.dir = []) →
      ∃ t, exec (.firmwareLoadDone []) s = .next t ∧ t.sec.fwRun = false ∧ t.sec.fwRes = BitVec.ofNat 4 res ∧
        bit t.glb.intpnd 76 = true ∧ t.host = s.host ∧
        (res = 1 → t.sec.fwSvn = BitVec.ofNat 8 (byteAt h 12) ∧ t.sec.fwKey = BitVec.ofNat 2 (byteAt h 13) ∧
          t.sec.fwDigest = (h.drop 64).take 48 ∧ t.sec.fwFail = s.sec.fwFail ∧ t.sec.fwLock = s.sec.fwLock ∧
          t.glb.bstage = (if s.glb.bstage = 4 then 5 else s.glb.bstage) ∧
          (∀ n, (salt s n).regs.cust = true ∨ bit s.flt.fslt n.1 = true ∨ (hdr s (.slt n)).mode = .isolated →
            salt t n = salt s n) ∧
          (∀ n, (salt s n).regs.cust = false → bit s.flt.fslt n.1 = false → (hdr s (.slt n)).mode ≠ .isolated →
            (salt t n).lmem = memPut [] 0 p ∧ (salt t n).mode = .run ∧ (salt t n).pc = BitVec.ofNat 32 (leAt h 16 4))) ∧
        (res ≠ 1 → t.sec.fwFail = satAdd s.sec.fwFail 1 ∧ t.sec.fwLock = (s.sec.fwLock || decide (2 ≤ s.sec.fwFail.toNat)) ∧
          t.slt = s.slt ∧ (s.glb.bstage = 4 → t.glb.bstage = 3 ∧ bit t.glb.intpnd 75 = true)))

/-! ### Start and reset -/

/-- Steps of the cold start: RST_N rising samples LCS, requests every supply and leaves every other register at its reset
value; the supplies good, the PLL locks at FMUL and the memories are initialised, and BSTAGE follows, with BOOT pending in
FWWAIT. A PLL that does not lock, or a supply that stays away, is noted and makes BOOT pending. RST_N low drops every
supply and register at once.
The start self-test with every unit passing, none fenced, none bypassed, and all pans equally worn gives the sixty
lowest pans their own logical numbers and puts pans 60 to 63 in reserve, GATED; every link trains. With no salter left to
handle errors it sets STFAIL instead and the start stays where it is. -/
def Obligations.StartSequence : Prop :=
  (∀ (s : State) (lcs : BitVec 4) (svn : BitVec 6) (rv : BitVec 4) (m : BitVec 17),
     (∃ t, exec (.coldReset lcs svn rv) s = .next t ∧ t.glb = { bstage := 1 } ∧ t.pins.vidSEn = true ∧
       (∀ q, (quad t q).vidEn = true) ∧ t.pins.rstLow = false ∧ t.sec.svnfuse = svn ∧ t.sec.rkrevoke = rv ∧
       (∀ i, vget t.sec.lk i = {}) ∧ t.hdrs = Vector.replicate 114 {} ∧ t.lpan = Vector.replicate 60 {} ∧ t.host = s.host) ∧
     (∃ t, exec .rstNLow s = .next t ∧ t.pins.rstLow = true ∧ t.pins.vidSEn = false ∧ t.glb = {} ∧ t.sec = {} ∧
       t.hdrs = Vector.replicate 114 {} ∧ t.cp = {} ∧ t.host = s.host) ∧
     (s.pins.vidSEn = true → s.pwr.ptrans = none →
       exec .pwrGoodRise s = .next (modPins s fun p => { p with pwrGood := 0x1FFFF })) ∧
     (s.glb.bstage = 1 → s.pwr.pstate = .active → s.pins.rstLow = false → s.pwr.ptrans = none → s.pins.pwrGood = 0x1FFFF →
       (∃ t, exec .pllLock s = .next t ∧ t.glb.bstage = 2 ∧ t.pwr.fnow = s.pwr.fmul ∧ t.hdrs = s.hdrs) ∧
       ∃ t, exec .pllfail s = .next t ∧ t.glb.pllfail = true ∧ t.glb.bstage = 1 ∧ bit t.glb.intpnd 75 = true) ∧
     (s.glb.bstage = 1 → s.pins.rstLow = false → s.pins.vidSEn = true → s.pins.pwrGood ≠ 0x1FFFF →
       ∃ t, exec (.pwrfail m) s = .next t ∧ t.glb.pwrfail = m ∧ t.glb.bstage = 1 ∧ bit t.glb.intpnd 75 = true) ∧
     (s.glb.bstage = 2 → s.pwr.ptrans = none →
       ∃ t, exec .sramInitDone s = .next t ∧ t.glb.bstage = 3 ∧ bit t.glb.intpnd 75 = true ∧ t.pwr.pstate = s.pwr.pstate)) ∧
  (∀ s : State, s.glb.bstage = 5 → s.flt.fpan = 0 → s.flt.fhrv = 0 → s.flt.fslt = 0 → s.flt.frake = false →
     s.tst.regs.bypPan = 0 → s.tst.regs.bypHrv = 0 → s.tst.regs.bypSlt = 0 → s.tst.regs.bypRak = false → s.tst.regs.bypLnk = 0 →
     ((∀ p q, ticksOf s p = ticksOf s q) →
       ∃ t, exec (.selftestDone (BitVec.allOnes 64) 0xFF 0xFF true) s = .next t ∧ t.glb.bstage = 6 ∧
         (∀ l : Fin 60, physOf t l = some (l.castLE (by decide))) ∧ (∀ p : Fin 64, bit t.flt.rsvok p.1 = decide (60 ≤ p.1)) ∧
         (∀ p, (pn t p).pwr = .gated) ∧ (∀ k, (lk t k).regs.lstate = 1)) ∧
     (∃ t, exec (.selftestDone (BitVec.allOnes 64) 0xFF 0 true) s = .next t ∧ t.glb.stfail = true ∧ t.glb.bstage = 5 ∧
       bit t.glb.intpnd 75 = true))

/-- A warm reset keeps the recorded errors, the keys, the scale history and VSTEP, gates the pans, empties the queues and
the transactions, ends the debug session, starts a firmware load and makes the first flags carry FAULT; memory is as it was
but for the inactive slots of jobs that ran. -/
def Obligations.WarmResetKeepsRecords : Prop :=
  ∀ s : State, s.pins.rstLow = false → s.wrap.taken = false → s.pwr.pstate = .active ∨ s.pwr.pstate = .doze →
    s.tst.tests = [] → s.tst.waiting = none → s.wear = none →
    ∃ t, exec .warmReset s = .next t ∧ t.glb.bstage = 4 ∧ t.sec.fwRun = true ∧ t.flt.lastrst = 1 ∧ t.sec.dbglvl = 0 ∧
      t.sec.lk = s.sec.lk ∧ t.hist = s.hist ∧ KeepsHost s t ∧ t.txns = [] ∧ t.vrd.regs.vstep = s.vrd.regs.vstep ∧
      t.vrd.regs.closed = false ∧ t.vrd.pendFt = true ∧ t.twn.regs.jstate = (if s.twn.regs.jstate = .fenced then .fenced else .idle) ∧
      (∀ p, (hdr t p).err = (hdr s p).err ∧ (hdr t p).ovr = (hdr s p).ovr ∧ (hdr t p).abi = 0x0100 ∧
        (hdr t p).scratch = 0) ∧ (∀ l, lp t l = {}) ∧ (∀ p, (pn t p).pwr = .gated)

/-! ### Registers, the reservoir and interrupts -/

/-- FMUL takes 40 to 88 in DOZE and RETAIN, a value outside is dropped with cause RANGE and elsewhere a write is answered
REJECT with cause RUNLOCK; it resets to 88, FNOW reads the value in force, and the PLL's next lock takes FMUL. -/
def Obligations.CoreClockMultiplier : Prop :=
  State.reset.pwr.fmul = 0x58 ∧
  ∀ (v : BitVec 7) (s : State), Answers s .pwr →
    let w := exec (.registerWrite (BitVec.ofNat 25 (0x400 * PageId.pwr.num + 0x12)) 0xF (v.setWidth 32)) s
    (s.pwr.pstate = .doze ∨ s.pwr.pstate = .retain →
      (40 ≤ v.toNat → v.toNat ≤ 88 → ∃ t, w = .next t ∧ t.cp = {} ∧ t.pwr.fmul = v ∧ t.pwr.fnow = s.pwr.fnow) ∧
      (v.toNat < 40 ∨ 88 < v.toNat → ∃ t, w = .next t ∧ t.cp = {} ∧ t.pwr.fmul = s.pwr.fmul ∧
        hdr t .pwr = (hdr s .pwr).reject 0x48 .range)) ∧
    (s.pwr.pstate = .active → ∃ t, w = .next t ∧ t.cp = { code := 1 } ∧ t.pwr.fmul = s.pwr.fmul ∧
      hdr t .pwr = (hdr s .pwr).reject 0x48 .runlock) ∧
    ((hdr s .pwr).latch = none →
      exec (.wideReadLatch (BitVec.ofNat 25 (0x400 * PageId.pwr.num + 0x12))) s =
        .next (answer s cpOk (BitVec.ofNat 32 (s.pwr.fmul.toNat + 2 ^ 16 * s.pwr.fnow.toNat)))) ∧
    (s.pwr.pstate = .doze → s.pwr.ptrans = some .dozeWake → s.pins.rstLow = false →
      s.twn.held = [] → s.pwr.heldMsg = [] → s.shard = [] →
      ∃ t, exec .pllLock s = .next t ∧ t.pwr.fnow = s.pwr.fmul ∧ t.pwr.pstate = .active)

/-- INT_ROUTE_WRITE writes one word of INTDST, a destination for each of eight sources, or of INTEN; no other source's
route changes. In ACTIVE and DOZE a line is high exactly while an enabled source routed to it is pending, and in RETAIN
and OFF none is.
INST is written while the instance is neither JOINING nor JOINED, and BOSEED follows it; otherwise the write is
dropped with cause RUNLOCK.
A word written with all four byte enables to PG_SCRATCH of any page is stored there and in no other page; a
register write with other byte enables is answered ERROR and changes nothing.
A read of a page's word through the control port gives what the fields of that word hold: the low word of a wide field
latches the high one, which the next read of the high word gives and empties; any other read changes nothing, that of
DW_DATA in the TST page being DW_DATA_READ's. A read of the reservoir's window is a reservoir read, and one that meets
neither a page nor the reservoir is answered ERROR.
A byte-enabled write into plain reservoir memory stores the enabled bytes and no other; a read of the word gives it
back with the answer OK when no error is seen. One into a shard's state entry is dropped, with cause RANGE by
the model's reading (log entry 36). -/
def Obligations.PageRegisterStores : Prop :=
  (((∀ (r : Fin 15) (d : W32) (s : State), Answers s .glb →
      ∃ t, exec (.intRouteWrite r d) s = .next t ∧ t.cp = {} ∧ t.glb.intpnd = s.glb.intpnd ∧ t.hdrs = s.hdrs ∧
        (∀ i : Fin 96, srcUsed i.1 = true → intDest t i.1 =
          if i.1 / 8 = r.1 then d.toNat / 16 ^ (i.1 % 8) % 8 else intDest s i.1) ∧
        (∀ i : Fin 96, srcUsed i.1 = true → bit t.glb.inten i.1 =
          if i.1 / 32 + 12 = r.1 then bit d (i.1 % 32) else bit s.glb.inten i.1)) ∧
    ∀ (n : Fin 4) (s : State), s.wrap.taken = false →
      (s.pwr.pstate = .active ∨ s.pwr.pstate = .doze →
        (bit (intLine s) n.1 = true ↔ ∃ i : Fin 96, bit s.glb.intpnd i.1 = true ∧ bit s.glb.inten i.1 = true ∧ intDest s i.1 = n.1)) ∧
      (s.pwr.pstate = .retain ∨ s.pwr.pstate = .off → intLine s = 0)) ∧
   (∀ (v : BitVec 6) (s : State), Answers s .glb →
      (s.twn.regs.jstate ≠ .joining → s.twn.regs.jstate ≠ .joined →
        ∃ t, exec (.instWrite v) s = .next t ∧ t.cp = {} ∧ t.glb.inst.toNat = v.toNat ∧ t.twn.regs.boseed.toNat = v.toNat + 1 ∧
          t.host = s.host) ∧
      (s.twn.regs.jstate = .joining ∨ s.twn.regs.jstate = .joined →
        ∃ t, exec (.instWrite v) s = .next t ∧ t.glb.inst = s.glb.inst ∧ t.twn = s.twn ∧
          hdr t .glb = (hdr s .glb).reject 0x40 .runlock))) ∧
  (∀ (p : PageId) (d : W32) (be : BitVec 4) (s : State), Answers s p →
     let a := BitVec.ofNat 25 (0x400 * p.num + 0xF)
     (∃ t, exec (.registerWrite a 0xF d) s = .next t ∧ t.cp = {} ∧ (hdr t p).scratch = d ∧ (∀ q, q ≠ p → hdr t q = hdr s q) ∧
       t.host = s.host ∧ t.glb = s.glb ∧ t.sec = s.sec ∧ t.pwr = s.pwr ∧ t.lpan = s.lpan) ∧
     ((hdr s p).latch = none → exec (.wideReadLatch a) s = .next (answer s cpOk (hdr s p).scratch)) ∧
     (be ≠ 0xF → exec (.registerWrite a be d) s = .next (answer s cpError))) ∧
  ((∀ (p : PageId) (o : Nat) (s : State), Answers s p → o % 4 = 0 → o < 0x1000 →
      let i := Instr.wideReadLatch (BitVec.ofNat 25 (0x400 * p.num + o / 4))
      let v := fun o => BitVec.ofNat 32 (readWord (answer s cpOk) p o)
      (p ≠ .tst ∨ (o ≠ 0x90 ∧ o ≠ 0x94) →
        (latches p o = true →
          exec i s = .next (answer (modHdr s p fun h => { h with latch := some (o, v (o + 4)) }) cpOk (v o))) ∧
        (latches p o = false → (∀ x, (hdr s p).latch = some x → x.1 + 4 ≠ o) → exec i s = .next (answer s cpOk (v o))) ∧
        (latches p o = false → ∀ x, (hdr s p).latch = some x → x.1 + 4 = o →
          exec i s = .next (answer (modHdr s p fun h => { h with latch := none }) cpOk x.2))) ∧
      (p = .tst → o = 0x90 ∨ o = 0x94 → exec i s = exec (.dwDataRead (o == 0x94)) s)) ∧
   (∀ (off : BitVec 24) (s : State),
      exec (.wideReadLatch (BitVec.ofNat 25 (0x1000000 + off.toNat))) s = exec (.reservoirRead off .none) s) ∧
   ∀ (a : BitVec 25) (s : State), reach s none ≠ .dead → a.toNat < 0x1000000 → pageOfNum (a.toNat / 0x400) = none →
      exec (.wideReadLatch a) s = .next (answer s cpError)) ∧
  (∀ (off : BitVec 24) (be : BitVec 4) (d : W32) (s : State), reach s none = .ok → corruptArmed s .glb cLockstep = false →
     corruptArmed s .glb cEccunc = false → corruptArmed s .glb cEcccor = false →
     (resRegion s (4 * off.toNat) = .plain →
       (∃ t, exec (.reservoirWrite off be d) s = .next t ∧ t.cp = {} ∧ t.host = s.host ∧ t.hdrs = s.hdrs ∧
         (∀ i : Fin 4, smGet 0 t.res (4 * off.toNat + i.1) = if bit be i.1 then BitVec.ofNat 8 (d.toNat / 256 ^ i.1)
           else smGet 0 s.res (4 * off.toNat + i.1)) ∧
         ∀ a, a < 4 * off.toNat ∨ 4 * off.toNat + 4 ≤ a → smGet 0 t.res a = smGet 0 s.res a) ∧
       exec (.reservoirRead off .none) s = .next (answer s cpOk (BitVec.ofNat 32 (leNat (memBytes s.res (4 * off.toNat) 4))))) ∧
     (∀ i, resRegion s (4 * off.toNat) = .shard i → be ≠ 0 →
       ∃ t, exec (.reservoirWrite off be d) s = .next t ∧ t.cp = {} ∧ t.shard = s.shard ∧
         hdr t .glb = (hdr s .glb).reject (4 * off.toNat % 4096) .range))

/-! ### Test, service and the wrapper -/

/-- TS_GO starts a test of an isolated engine or salter, unless another test of it runs, and is refused on one in service;
a second TS_GO while the first runs is dropped with cause STATE. SVC_GO starts a service record.
TEST_DONE ends the test of an engine or salter that TS_GO started: a PASS is counted and remembered for UNFENCE and
RUN, a FAIL is counted and recorded as BIST in the unit's page, an ABORT counts for nothing. -/
def Obligations.TestsRun : Prop :=
  (∀ (u : Byte) (k : BitVec 4) (s : State), Answers s .tst → 0x40 ≤ u.toNat → u.toNat < 0x50 → k.toNat ≤ 2 →
     (s.tst.regs.tsRes ≠ 1 → unitBypassed s u.toNat = false → unitIsolated s u.toNat = true → testBlocked s u.toNat = false →
       ∃ t, exec (.tsGo u k) s = .next t ∧ t.cp = {} ∧ t.tst.regs.tsRes = 1 ∧ t.tst.regs.tsUnit = u ∧
         t.tst.tests = s.tst.tests ++ [{ unit := u.toNat, kind := k.toNat, sw := true }] ∧ t.hdrs = s.hdrs) ∧
     (s.tst.regs.tsRes ≠ 1 → s.sec.fwRes = 1 → unitIsolated s u.toNat = false → unitFenced s u.toNat = false →
       ∃ t, exec (.tsGo u k) s = .next t ∧ t.tst.regs.tsRes = 4 ∧ t.tst.regs.tsRunit = u ∧ t.tst.tests = s.tst.tests) ∧
     (s.tst.regs.tsRes = 1 → ∃ t, exec (.tsGo u k) s = .next t ∧ t.tst.tests = s.tst.tests ∧
       hdr t .tst = (hdr s .tst).reject 0x200 .state) ∧
     (s.tst.regs.svcRes ≠ 1 → ∃ t, exec .svcGo s = .next t ∧ t.cp = {} ∧ t.tst.regs.svcRes = 1)) ∧
  (∀ (n : Fin 8) (k : Nat) (a : W64) (ticks : W32) (s : State), s.tst.tests = [{ unit := 0x40 + n.1, kind := k, sw := true }] →
     s.tst.bg = [] → s.tst.waiting = none → s.tide.wearTests = false →
     let u := BitVec.ofNat 8 (0x40 + n.1)
     (∃ t, exec (.testDone u .pass a ticks) s = .next t ∧ t.tst.tests = [] ∧ t.tst.regs.tsRes = 2 ∧ t.tst.regs.tsRunit = u ∧
       t.tst.regs.tsTicks = ticks ∧ 0x40 + n.1 ∈ t.tst.passed ∧ t.tst.regs.svTests = satAdd s.tst.regs.svTests 1 ∧
       t.tst.regs.svFails = s.tst.regs.svFails ∧ t.hdrs = s.hdrs) ∧
     (∃ t, exec (.testDone u .fail a ticks) s = .next t ∧ t.tst.tests = [] ∧ t.tst.regs.tsRes = 3 ∧ t.tst.regs.tsFaddr = a ∧
       0x40 + n.1 ∉ t.tst.passed ∧ t.tst.regs.svFails = satAdd s.tst.regs.svFails 1 ∧ bit (hdr t (.hrv n)).err 0x14 = true) ∧
     (∃ t, exec (.testDone u .abort a ticks) s = .next t ∧ t.tst.tests = [] ∧ t.tst.regs.tsRes = 5 ∧
       t.tst.regs.svTests = s.tst.regs.svTests ∧ t.tst.passed = s.tst.passed ∧ t.hdrs = s.hdrs))

/-- SVC_DONE writes the 4096 bytes of the service record at SVC_ADDR, and nothing outside them, and SVC_RES reads OK;
of a record in the instance's own memory, while Brine credits last. -/
def Obligations.ServiceRecordWritten : Prop :=
  ∀ s : State, s.tst.regs.svcRes = 1 → Here s s.tst.regs.svcAddr.toNat → Credits s →
    let a := hostAddr s s.tst.regs.svcAddr.toNat
    ∃ t, exec (.svcDone []) s = .next t ∧ t.tst.regs.svcRes = 2 ∧
      t.host = memPut s.host a (svcRecord (s.beginAs .svc [])) ∧
      (∀ b, b < a ∨ a + 4096 ≤ b → smGet 0 t.host b = smGet 0 s.host b) ∧
      t.hdrs = s.hdrs ∧ t.lpan = s.lpan

/-- WTAP instructions: WS_BYPASS and a wrapper reset load BYPASS, WS_VERSION shifts out PG_VER and LCS_STATE, WS_SEL holds
its bits at level INVASIVE; EXTEST and INTEST_SCAN take the core at that level, with both keys erased and the instance
fenced; below it all three load BYPASS. Once INIT has ended WS_TSTREG reads a word
of the TST page, and writes one as the control port does, here the test unit and kind, without a response there. -/
def Obligations.WrapperInstructions : Prop :=
  ∀ (s : State) (x : BitVec 128) (w : BitVec 6) (d : BitVec 12),
    (∀ c, c = Instr.wsBypass ∨ c = Instr.wrapperReset → exec c s = .next (modWrap s fun r => { r with wir := 0 })) ∧
    (∃ t, exec .wsVersion s = .next t ∧ t.wrap.wir = 1 ∧
      t.pins.wso = s.pins.lcsState.setWidth 32 ++ Config.pgVer ∧ t.hdrs = s.hdrs) ∧
    (s.sec.dbglvl = 2 → ∃ t, exec (.wsSel x) s = .next t ∧ t.wrap.wir = 4 ∧ t.wrap.sel = x) ∧
    (s.sec.dbglvl = 2 → ∀ c, c = Instr.wsExtest ∨ c = Instr.wsIntestScan → ∃ t, exec c s = .next t ∧ t.wrap.taken = true ∧
      (∀ i, vget t.sec.lk i = {}) ∧ t.twn.regs.jstate = .fenced ∧ t.sec.kercause = 4 ∧ intLine t = 0) ∧
    (s.sec.dbglvl ≠ 2 → ∀ c, c ∈ [Instr.wsSel x, .wsExtest, .wsIntestScan] →
      exec c s = .next (modWrap s fun r => { r with wir := 0 })) ∧
    (3 ≤ s.glb.bstage.toNat → s.pins.rstLow = false → s.pwr.pstate = .active →
      (∃ t, exec (.wsTstregRead w) s = .next t ∧ bit t.wrap.tstreg 0 = true ∧
        t.wrap.tstreg.toNat / 256 = readWord (modWrap s fun r => { r with wir := 5 }) .tst (0x200 + 4 * w.toNat) % 2 ^ 32 ∧
        t.tst = s.tst ∧ t.cp = s.cp) ∧
      ∃ t, exec (.wsTstregWrite 0 (d.setWidth 32)) s = .next t ∧ bit t.wrap.tstreg 0 = true ∧ t.cp = s.cp ∧
        t.tst.regs.tsUnit.toNat = d.toNat % 256 ∧ t.tst.regs.tsKind.toNat = d.toNat / 256)

/-! ### Orders and tiles -/

/-- The head order of a working pan is tried by ORDER_TAKE, and again by EPOCH_GATE_CHECK while it waits: when its checks
and gates pass it leaves the window and runs; refused, its record with the refusal's code is held; else it stays and
waits. TIDE_ARM arms a TIDE order of the window in a free slot the same way. The checks are those of an order whose reads find
their Brine credit and, in a remote aperture, their data. -/
def Obligations.HeadOrderTaken : Prop :=
  (∀ (l : Fin 60) (w : WinE) (rest : List WinE) (bad : List Nat) (s : State) (c : Instr),
    (lp s l).win = w :: rest → mayStart s l = true → (lp s l).qen = true → (lp s l).cqHold = false → (lp s l).run = none →
    (lp s l).inTile = false → (lp s l).parked = [] → (lp s l).settle = none → w.ord.fence = false → w.ord.tide = false →
    (c = .orderTake l bad ∧ w.gate = .unread) ∨ (c = .epochGateCheck l bad ∧ w.gate = .wait) →
    let q := checkOrder (s.beginAs (.pan l 0) bad) l w.n w.ord
    q.2.miss = [] → q.2.stall = false →
    (∀ r, q.1 = .go r → r.ord.settle = false → ∃ t, exec c s = .next t ∧ (lp t l).win = ((lp s l).take w.n).win ∧
      (lp t l).run = some { r with grant := startGrant s w } ∧ ∀ m, m ≠ l → lp t m = lp s m) ∧
    (∀ code tag, q.1 = .refuse code tag → ∃ t, exec c s = .next t ∧ (lp t l).win = ((lp q.2 l).take w.n).win ∧
      (lp t l).done = (lp q.2 l).done ++ [w.ord.done w.n tag code (ppanOf q.2 l)] ∧ (lp t l).run = (lp q.2 l).run) ∧
    (∀ why, q.1 = .wait why → ∃ t, exec c s = .next t ∧ (∀ y ∈ (lp t l).win, y.n = w.n → y.gate = .wait ∧ y.why = why) ∧
      (lp t l).win.map (·.n) = (lp s l).win.map (·.n) ∧ (∀ m, m ≠ l → lp t m = lp s m))) ∧
  (∀ (l : Fin 60) (w : WinE) (j : Fin 16) (n : W32) (r : Run) (bad : List Nat) (s : State),
    (lp s l).win.find? (fun w => w.n = n.toNat ∧ w.ord.tide = true) = some w → (lp s l).freeSlot = some j →
    mayStart s l = true → (lp s l).qen = true → (lp s l).cqHold = false → s.twn.held = [] →
    let q := checkOrder (s.beginAs (.pan l n.toNat) bad) l w.n w.ord
    q.2.miss = [] → q.2.stall = false → q.1 = .go r →
    ∃ t, exec (.tideArm l n bad) s = .next t ∧ (lp t l).win = ((lp s l).take w.n).win ∧ vget (lp t l).armed j = some r ∧
      (∀ i, i ≠ j → vget (lp t l).armed i = vget (lp s l).armed i) ∧ (lp t l).run = (lp s l).run ∧ ∀ m, m ≠ l → lp t m = lp s m)

/-- TILE_START starts the next tile of the running order and nothing else, on the dense path unless its stationary operand
carries a mask; then the path is the sparse one when four times its stored codes are at most its positions. TILE_COMPLETE of an order without QUANT makes
the store its tile gathered, and no other, counts the tile, and ends the order OK after its last tile. SECOND_PASS does
the same for a settled parked tile of an order all of whose tiles have passed; the MODE bit of its statistics is merged
there too, by the model's reading (log entry 25). -/
def Obligations.TilesStartAndComplete : Prop :=
  (∀ (l : Fin 60) (r : Run) (bad : List Nat) (s : State), (lp s l).run = some r → (lp s l).inTile = false → mayTile s l = true →
    (∀ j, vget (lp s l).armed j = none) → (lp s l).settle = none → r.next < r.ord.tileCount → r.abort = false →
    r.ord.settle = false →
    let masked := r.ord.xb || (r.dB.isCake && r.dB.masked)
    (r.chain.isPass = true ∨ masked = false → ∃ t, exec (.tileStart l bad) s = .next t ∧
      lp t l = { lp s l with run := some { r with started := true, sparse := false } } ∧
      (∀ m, m ≠ l → lp t m = lp s m) ∧ t.host = s.host ∧ t.hdrs = s.hdrs ∧ t.glb = s.glb) ∧
    (∀ p nz v, r.chain.isPass = false → masked = true → physOf s l = some p →
      let u := useStep (modRun (s.beginAs (.pan l 0) bad) l .run fun r => { r with started := true }) p.1
      let x := if r.chain.prod2.isSome then (0, opRows r.dB r.ord.xb) else (r.ord.tileAt r.next).2.2
      Io.run (stationaryCodes u r x.1 x.2) u = (.ok nz, v) → v.miss = [] → v.stall = false →
      ∃ t, exec (.tileStart l bad) s = .next t ∧
        (lp t l).run = (lp v l).run.map (fun y => { y with sparse := decide (4 * nz ≤ x.2 * opKlen r.dB r.ord.xb) }) ∧
        (∀ m, m ≠ l → lp t m = lp v m) ∧ t.host = v.host ∧ t.hdrs = v.hdrs)) ∧
  (∀ (l : Fin 60) (p : Fin 64) (r : Run) (out : TileOut) (acc : Acc) (x : TWrite) (s : State), livePan s l = some p →
    (hdr s (.pan p)).mode = .active → (hdr s (.pan p)).iarm = false → (lp s l).run = some r → r.started = true →
    (lp s l).tideTile = none → (lp s l).parked = [] → (lp s l).settle = none → r.abort = false → r.ord.settle = false →
    r.ord.split = false → r.ord.tide = false → r.ord.msel ≠ 2 → r.chain.quant = none → r.cont = none → r.appends = false →
    Credits s → writesOut (s.begin []) (.pan l r.n) = false →
    let u := s.beginAs (.pan l 0) []
    Io.run (tileBody u l r r.next 0 {}) u = (.ok (out, acc), u) → out.fits = true →
    acc.writes = [x] → acc.bads = [] → acc.merges = [] → acc.t = {} → Here s x.addr → gradParts s x = [] →
    let a := hostAddr s x.addr
    ∃ t, exec (.tileComplete l []) s = .next t ∧ t.host = memPut s.host a x.bytes ∧
      (∀ b, b < a ∨ a + x.bytes.length ≤ b → smGet 0 t.host b = smGet 0 s.host b) ∧
      (pn t p).regs.tilecnt = satAdd (pn s p).regs.tilecnt 1 ∧ (∀ m, m ≠ l → lp t m = lp s m) ∧
      (r.next + 1 < r.ord.tileCount → (lp t l).done = (lp s l).done ∧ ∃ u, (lp t l).run = some u ∧ u.n = r.n ∧
        u.next = r.next + 1 ∧ u.tiles = r.tiles + 1 ∧ u.started = false) ∧
      (r.ord.tileCount ≤ r.next + 1 → (lp t l).run = none ∧ ∃ d, (lp t l).done = (lp s l).done ++ [d] ∧ d.n = r.n ∧
        d.status = 0 ∧ d.tiles = r.tiles + 1)) ∧
  (∀ (l : Fin 60) (p : Fin 64) (r : Run) (y : Parked) (c : W32) (out : TileOut) (acc : Acc) (s : State),
    livePan s l = some p → (hdr s (.pan p)).mode = .active → mayTile s l = true → (lp s l).parked = [y] → y.settled = some c →
    (lp s l).run = none → (lp s l).tideTile = none → (∀ j, vget (lp s l).armed j = none) → (lp s l).passed = [r] → r.n = y.n →
    (lp s l).settle = none → r.ord.settle = false → r.cont = none → Credits s → writesOut (s.begin []) (.pan l r.n) = false →
    let u := s.beginAs (.pan l 0) []
    Io.run (secondBody u r y.tile c {}) u = (.ok (out, acc), u) → out.fits = true →
    acc.bads = [] → acc.t = {} → (∀ x ∈ acc.writes, Here s x.addr ∧ gradParts s x = []) → Here s (r.dOut.stats + 28) →
    let st := hostAddr s (r.dOut.stats + 28)
    ∃ t, exec (.secondPass l []) s = .next t ∧ (lp t l).parked = [] ∧ (lp t l).passed = [] ∧
      (pn t p).regs.tilecnt = satAdd (pn s p).regs.tilecnt 1 ∧
      (∃ d, (lp t l).done = (lp s l).done ++ [d] ∧ d.n = r.n ∧ d.status = 0 ∧ d.tiles = r.tiles + 1) ∧
      (∀ b, (∀ x ∈ acc.writes, b < hostAddr s x.addr ∨ hostAddr s x.addr + x.bytes.length ≤ b) →
        b < st ∨ st + 4 ≤ b → smGet 0 t.host b = smGet 0 s.host b))

/-- A detector ends the first attempt of the tile that runs, of the running order or of an armed one: the error is recorded in
the pan's page, REPLAYCNT counts and the tile runs again, unless the page's records raise the error to a unit's. At the second
attempt RESIDUE, LOCKSTEP and ECCUNC fence the pan, and BRINE ends the order with FAULT, as any cause does once a group that
the tile appends to is open. The second read of a cake that the first read found malformed is kept for the tile, a good one
counting as CAKERD; one of a cake that was good is dropped. -/
def Obligations.TileAttemptsEnd : Prop :=
  (∀ (l : Fin 60) (p : Fin 64) (w : Place) (r : Run) (k : ReplayCause) (a : W64) (row col g : W32) (s : State),
    let c := match k with | .residue => 3 | .lockstep => 4 | .eccunc => 2 | .brine => 7
    let h := hdr s (.pan p)
    physOf s l = some p → h.mode ≠ .faulted → bit h.errsev c = false →
    h.slotA.valid = false ∨ (h.slotB.valid = false ∧ (k = .brine ∨ h.slotA.cls ≠ 1)) → (lp s l).active = some (w, r) →
    (r.replayable = true → r.replayed = false → ∃ t, exec (.tileReplay l k a row col g) s = .next t ∧
      (lp t l).at_ w = some { r with replayed := true, good := [], badc := [], cont := none } ∧
      t.flt.replaycnt = s.flt.replaycnt + 1 ∧ bit (hdr t (.pan p)).err c = true ∧ (hdr t (.pan p)).mode = h.mode ∧
      t.host = s.host ∧ ∀ m, m ≠ l → lp t m = lp s m) ∧
    (r.replayable = true → r.replayed = true → k ≠ .brine → logOf s p = some l →
      ∃ t, exec (.tileReplay l k a row col g) s = .next t ∧ bit t.flt.fpan p.1 = true ∧
        (hdr t (.pan p)).mode = .faulted ∧ physOf t l = none ∧ (lp t l).active = none ∧
        ∃ u, (lp t l).at_ w = some u ∧ u.n = r.n ∧ u.replayed = false) ∧
    (r.ord.settle = false → r.opened = true ∨ (r.replayed = true ∧ k = .brine) →
      ∃ t, exec (.tileReplay l k a row col g) s = .next t ∧ (lp t l).at_ w = none ∧ bit (hdr t (.pan p)).err c = true ∧
        ∃ d, (lp t l).done = (lp s l).done ++ [d] ∧ d.n = r.n ∧ d.status = 8)) ∧
  (∀ (l : Fin 60) (p : Fin 64) (w : Place) (r : Run) (a : W64) (row g : W32) (bs : List Byte) (s : State),
    physOf s l = some p → bit (hdr s (.pan p)).errsev 5 = false →
    (lp s l).active = some (w, r) ∨ ((lp s l).active = none ∧ w = .run ∧ (lp s l).run = some r) →
    let good := r.wellFormed s g.toNat (memBytes s.host (hostAddr s a.toNat) bs.length)
    (¬Here s a.toNat ∨ good = false → ∃ t, exec (.cakeReread l a row g bs) s = .next t ∧
      (lp t l).at_ w = some { r with good := r.good ++ [(a.toNat, bs)] } ∧ (∀ m, m ≠ l → lp t m = lp s m) ∧ t.host = s.host ∧
      (r.wellFormed s g.toNat bs = true → bit (hdr t (.pan p)).err 5 = true ∧
        (hdr t (.pan p)).corrcnt = satAdd (hdr s (.pan p)).corrcnt 1 ∧ (hdr t (.pan p)).slotA = (hdr s (.pan p)).slotA) ∧
      (r.wellFormed s g.toNat bs = false → t.hdrs = s.hdrs)) ∧
    (Here s a.toNat → good = true → exec (.cakeReread l a row g bs) s = .next s))

/-- SETTLE of a streamed or a two-pass order pushes the tensor's maximum into its history slot, writes COARSE for a
two-pass one, and tells every parked tile of the slot; a streamed order all of whose tiles have passed is complete with it. PARTIAL_NOTICE notes a block's slot for the running SETTLE order,
and a second notice for the same slot is recorded as PARTDUP. -/
def Obligations.SettlementAndNotices : Prop :=
  (∀ (l : Fin 60) (p : Fin 64) (x : Settling) (s : State), livePan s l = some p → (lp s l).settle = some x → Credits s →
    let d := x.d
    Here s (d.stats + 8) → Here s (d.stats + 28) → (x.mode = 1 → Here s (d.addr + 32)) →
    let ta := leNat (memBytes s.host (hostAddr s (d.stats + 8)) 4)
    let sf := leNat (memBytes s.host (hostAddr s (d.stats + 28)) 4)
    let c := coarseFor d x.cb (fp32Q (BitVec.ofNat 32 ta))
    ∃ t, exec (.settle l []) s = .next t ∧ (lp t l).settle = none ∧
      histOf t d.hist = (histOf s d.hist).push (BitVec.ofNat 32 ta) (decide (x.mode = 2) && nbit sf 2) ∧
      (∀ h, h ≠ d.hist → histOf t h = histOf s h) ∧
      t.host = (if x.mode = 1 then memPut s.host (hostAddr s (d.addr + 32)) (leBytes 4 c.toNat) else s.host) ∧
      (∀ m, m ≠ l ∨ x.mode ≠ 2 →
        (lp t m).parked = (lp s m).parked.map fun y => if y.hist = d.hist then { y with settled := some c } else y) ∧
      (x.mode ≠ 2 → (lp t l).done = (lp s l).done ∧ (lp t l).run = (lp s l).run) ∧
      (∀ r, x.mode = 2 → (lp s l).placeOf x.n = some (.passed x.n) → (lp s l).passed.find? (fun y => y.n = x.n) = some r →
        r.ord.settle = false → (lp t l).passed = (lp s l).passed.filter (fun y => y.n ≠ x.n) ∧
        ∃ e, (lp t l).done = (lp s l).done ++ [e] ∧ e.n = x.n ∧ e.status = 0)) ∧
  (∀ (l : Fin 60) (p : Fin 64) (r : Run) (q : W32) (s : State), physOf s l = some p → (hdr s (.pan p)).errsev = 0 →
    s.pwr.ptrans = none → (lp s l).run = some r → r.ord.settle = true → r.ord.pslots ≠ 0 → r.started = false →
    (lp s l).notices = [(q.toNat, none)] →
    (r.fold.front ≤ q.toNat → (∀ y ∈ r.fold.slots, y.1 ≠ q.toNat % r.ord.pslots) →
      ∃ t, exec (.partialNotice l q []) s = .next t ∧ (lp t l).notices = [] ∧ t.hdrs = s.hdrs ∧ t.host = s.host ∧
        (lp t l).run = some { r with fold := { r.fold with slots := r.fold.slots ++ [(q.toNat % r.ord.pslots, q.toNat)] } }) ∧
    (q.toNat < r.fold.front ∨ (∃ y ∈ r.fold.slots, y.1 = q.toNat % r.ord.pslots) →
      ∃ t, exec (.partialNotice l q []) s = .next t ∧ (lp t l).notices = [] ∧ bit (hdr t (.pan p)).err 8 = true ∧ t.host = s.host))

/-! ### Pans -/

/-- A WAKING pan becomes LIVE, and one woken for a logical number takes it and is counted; a missing number claims the
lowest reserve, or sets NOSPARE once there is none; an idle LIVE pan is GATED at PIDLE; a wear swap gives the number to
the woken reserve. -/
def Obligations.PansWakeSwapAndGate : Prop :=
  ∀ (p : Fin 64) (l : Fin 60) (s : State),
    ((pn s p).pwr = .waking → (pn s p).wakeFor = none → ∃ t, exec (.panWakeDone p) s = .next t ∧ (pn t p).pwr = .live ∧
      t.glb = s.glb ∧ t.lpan = s.lpan ∧ t.flt = s.flt ∧ t.host = s.host) ∧
    ((pn s p).pwr = .waking → (pn s p).wakeFor = some l → (pn s p).forIsolate = false →
      ∃ t, exec (.panWakeDone p) s = .next t ∧ (pn t p).pwr = .live ∧ physOf t l = some p ∧
        (∀ m, m ≠ l → physOf t m = physOf s m) ∧ t.flt.swapcnt = satAdd s.flt.swapcnt 1 ∧ t.host = s.host) ∧
    (physOf s l = none → (∀ q, (pn s q).wakeFor ≠ some l) → lowReserve s = some p → (pn s p).pwr ≠ .live → s.tst.tests = [] →
      ∃ t, exec (.spareSwap l) s = .next t ∧ bit t.flt.rsvok p.1 = false ∧ (pn t p).wakeFor = some l ∧ t.glb = s.glb ∧
        t.lpan = s.lpan) ∧
    (physOf s l = none → (∀ q, (pn s q).wakeFor ≠ some l) → lowReserve s = none → s.flt.nospare = false →
      ∃ t, exec (.spareSwap l) s = .next t ∧ t.flt.nospare = true ∧ bit t.glb.intpnd 66 = true ∧ t.pan = s.pan) ∧
    ((hdr s .pwr).abi = 0x0103 → s.pwr.pidle ≠ 0 → (pn s p).pwr = .live → (∀ m, logOf s p = some m → (lp s m).running = false) →
      s.tst.tests = [] → ∃ t, exec (.pidleExpiry p) s = .next t ∧ (pn t p).pwr = .gated ∧ (pn t p).regs = (pn s p).regs ∧
        (∀ q, q ≠ p → pn t q = pn s q) ∧ t.lpan = s.lpan ∧ t.glb = s.glb) ∧
    (∀ w : WearRun, s.wear = some w → logOf s w.live = some l → (pn s w.rsv).pwr = .live → (lp s l).running = false →
      ∃ t, exec .wearSwap s = .next t ∧ t.wear = none ∧ physOf t l = some w.rsv ∧ bit t.flt.rsvok w.rsv.1 = false ∧
        (∀ m, m ≠ l → physOf t m = physOf s m) ∧ t.lpan = s.lpan ∧ t.host = s.host)

/-! ### Landings, page-ins and jobs -/

/-- A gradient group that may land is stored and counted, or kept unwritten while its shard is READY, runs or waits. PAGE_IN
reserves the pool's lowest room, which is the model's choice (log entry 91), and PAGE_IN_DONE stores the copy and stages
the shard. -/
def Obligations.GradientsLandAndPageIn : Prop :=
  (∀ (i : Nat) (a : W64) (bs : List Byte) (s : State), gradShardOf s a.toNat = some i → Here s a.toNat →
    (landWaits s i = false → (shardOf s i).srec.slow = false →
      let h := hostAddr s a.toNat
      (∃ t, exec (.gradientLand a bs []) s = .next t ∧ t.host = memPut s.host h bs ∧
        (∀ b, b < h ∨ h + bs.length ≤ b → smGet 0 t.host b = smGet 0 s.host b) ∧
        ((shardOf s i).gcnt + 1 ≠ (shardOf s i).gexp → (shardOf t i).gcnt = (shardOf s i).gcnt + 1 ∧
          (shardOf t i).msf = (shardOf s i).msf) ∧
        ((shardOf s i).gcnt + 1 = (shardOf s i).gexp → (shardOf t i).gcnt = 0 ∧ (shardOf t i).msf = (shardOf s i).msf + 1) ∧
        (∀ j, j ≠ i → shardOf t j = shardOf s j) ∧ t.hdrs = s.hdrs ∧ t.lpan = s.lpan)) ∧
    (landWaits s i = true → ∃ t, exec (.gradientLand a bs []) s = .next t ∧ t.host = s.host ∧
      shardOf t i = { shardOf s i with held := (shardOf s i).held ++
        [{ no := nextHeldNo s, addr := a.toNat, bytes := bs, src := none }] } ∧
      ∀ j, j ≠ i → shardOf t j = shardOf s j)) ∧
  (∀ (i : Fin 8192) (o n : Nat) (s : State), s.pwr.pstate = .active →
    (noStarts s = false → pageWaits (shardOf s i.1) = true → pageFirst s i.1 = true →
      n = slotSize s (activeDescs s (shardOf s i.1)) → poolRoom s n = some o →
      exec (.pageIn i) s = .next (modShard s i.1 fun h => { h with pgin := true, pool := some (o, n) })) ∧
    ((shardOf s i.1).pgin = true → (shardOf s i.1).pool = some (o, n) → Credits s → ∀ a bs, Here s a →
      let u := s.beginAs .core []
      (ioPageIn u (shardOf s i.1) o).run u = (.ok [(a, bs)], u) →
      ∃ t, exec (.pageInDone i []) s = .next t ∧ t.host = memPut s.host (hostAddr s a) bs ∧ (shardOf t i.1).pgin = false ∧
        (shardOf t i.1).staged = true ∧ (∀ j, j ≠ i.1 → shardOf t j = shardOf s j) ∧ t.hdrs = s.hdrs))

/-- JOB_START gives the next READY shard's job to the lowest idle engine; JOB_COMPLETE of a job that has ended stores its
outputs, sends its record to the verdict unit, sets PEND and frees the engine, a faulted one without its stores. A
follower's fetch for a waiting order reads the owner's record and asks for a hold of its slot, or waits for the next COMMIT
while the order's epoch is not there; once the hold is held it reads the record again, then copies the slot, writes the copy
record and takes its epoch (its division into commands is the model's, log entry 91). -/
def Obligations.JobsAndFetchesRun : Prop :=
  (∀ (i : Fin 8192) (n : Fin 8) (x : JobIn) (bad : List Nat) (s u : State), firstReady s = some i.1 → idleEngine s = some n →
    jobMayStart s (shardOf s i.1) = true → noStarts s = false → s.pwr.pstate = .active →
    let v := useStep (s.beginAs (.hrv n) bad) (0x40 + n.1)
    (ioJob v n i.1).run v = (.ok x, u) → u.miss = [] → u.stall = false → x.img.bad = false →
    (x.img.streams.any fun y => y.role ≠ 0 && streamBad (placeJob u n i.1 x) x.bind (shardOf u i.1).srec.auxd y) = false →
    x.bads = [] →
    ∃ t j, exec (.jobStart i bad) s = .next t ∧ (eng t n).job = some j ∧ j.bind.shard = i.1 ∧ j.img = x.img ∧ j.pc = 0 ∧
      j.batch = 0 ∧ j.jstep = (shardOf s i.1).jstep ∧ (eng t n).vec = startUnit x.scal x.bind.elems.length ∧
      (shardOf t i.1).run = true ∧ (shardOf t i.1).ready = false ∧ (∀ m, m ≠ n → eng t m = eng s m)) ∧
  (∀ (n : Fin 8) (j : Job) (acc : OutAcc) (a : Nat) (bs : List Byte) (s : State), (eng s n).job = some j → j.ended = true →
    s.pwr.pstate = .active → s.flt.lastrst ≠ 3 → j.pendSeq = none → s.twn.regs.twen = false → Credits s →
    newer s.vrd.regs.vstep j.jstep = false → (eng s n).pflush = false → writesOut (s.begin []) (.hrv n) = false →
    let u := modJob (s.beginAs (.hrv n) []) n fun j => { j with stored := true }
    (j.jrec.fault = false → j.stored = false → (ioOutputs u j).run u = (.ok (acc, []), u) → acc.writes = [(a, bs)] → Here s a →
      ∃ t, exec (.jobComplete n []) s = .next t ∧ t.host = memPut s.host (hostAddr s a) bs ∧
        (eng t n).job = none ∧ (eng t n).regs.jobs = satAdd (eng s n).regs.jobs 1 ∧ (shardOf t j.bind.shard).run = false ∧
        (shardOf t j.bind.shard).pend = true ∧
        t.vrd.recs = s.vrd.recs ++ [{ j.jrec with nonfinite := j.jrec.nonfinite || acc.nonfin }] ∧
        t.vrd.regs.vjobs = (if j.jrec.step = s.vrd.regs.vstep then s.vrd.regs.vjobs + 1 else s.vrd.regs.vjobs) ∧
        (∀ m, m ≠ n → eng t m = eng s m)) ∧
    (j.jrec.fault = true → ∃ t, exec (.jobComplete n []) s = .next t ∧ t.host = s.host ∧ (eng t n).job = none ∧
      (eng t n).regs = (eng s n).regs ∧ (shardOf t j.bind.shard).pend = true ∧ t.vrd.recs = s.vrd.recs ++ [j.jrec])) ∧
  (∀ (n : Fin 8) (i : Fin 8192) (ws : List W32) (s : State),
    let h := shardOf s i.1
    h.srec.role = 2 → h.badrec = false → firmwareSalter s n = true → noStarts s = false → s.twn.regs.jstate ≠ .fenced →
    s.pwr.pstate = .active → Credits s → ws.length = 16 →
    (Here s h.srec.auxd → memBytes s.host (hostAddr s h.srec.auxd) 64 = recBytes ws → recSumOk ws = true →
      recOwner ws = h.srec.owner →
      (h.fetch = none → h.fetchWait = false → (∃ e ∈ waitingEpochs s h, newer e (recEpoch ws) = false) →
        ∃ t, exec (.followerFetch n i []) s = .next t ∧ (shardOf t i.1).fetch = some (ws, n, .asked) ∧ t.host = s.host ∧
          t.hdrs = s.hdrs) ∧
      (h.fetch = none → h.fetchWait = false → waitingEpochs s h ≠ [] →
        (∀ e ∈ waitingEpochs s h, newer e (recEpoch ws) = true) → ∃ t, exec (.followerFetch n i []) s = .next t ∧
          shardOf t i.1 = { h with fetchWait := true } ∧ t.host = s.host ∧ t.hdrs = s.hdrs) ∧
      (∀ m, h.fetch = some (ws, m, .held) → ∃ t, exec (.followerFetch n i []) s = .next t ∧
        shardOf t i.1 = { h with fetch := some (ws, n, .agreed) } ∧ t.host = s.host ∧ t.hdrs = s.hdrs)) ∧
    (∀ m a bs, h.fetch = some (ws, m, .agreed) → slotHolds s h (!h.slot) = 0 →
      let u := s.beginAs (.slt n) []
      (ioFetch u h (recSlot ws) (!h.slot)).run u = (.ok [(a, bs)], u) → Here s a → Here s h.srec.crec →
      ∃ t, exec (.followerFetch n i []) s = .next t ∧ (shardOf t i.1).fetch = none ∧ (shardOf t i.1).cep = recEpoch ws ∧
        (shardOf t i.1).slot = !h.slot ∧ t.host = memPut (memPut s.host (hostAddr s a) bs) (hostAddr s h.srec.crec)
          (recBytes (mkRec (recEpoch ws) (recMepoch ws) (!h.slot) (recOwner ws) 3 (recStep ws) i.1))))

/-- RAKE_EVENT, once the inactive slot has no reader, writes the new masks, crosscut index and record, makes the slot
active under the next mask epoch and leaves the event to be retired; RAKE_RETIRE writes the inactive slot's tables and
clears BUSY, and EVENTS counts the event. -/
def Obligations.RakeEventsRun : Prop :=
  (∀ (v : RakeEv) (rest : List RakeEv) (blk : RakeBlk) (pl : RakePlan) (rows : List RowRd) (s s1 s2 s3 s4 s5 : State),
    s.rak.evq = v :: rest → rakeGoes s = true → noStarts s = false → s.twn.regs.jstate ≠ .fenced →
    let e := dirOf s v.mid
    let y := !e.slot
    let s0 := (useStep s 0x50).beginAs .rak []
    (if y then e.rdrB else e.rdrA) = 0#8 → (ioEvent s0 v).run s0 = (.ok (blk, pl), s1) → pl.bad = none →
    issueWrites s1 pl.writes = (none, s2) → (ioRows (blk.weight y)).run s2 = (.ok rows, s3) →
    buildXc s3 v.mid e blk y (e.mep + 1) rows = (none, s4) → rakeRecord s4 v.mid e (e.mep + 1) y 2 v.step false = (none, s5) →
    s5.miss = [] → s5.stall = false → s5.twn.regs.twen = false →
    ∃ t, exec (.rakeEvent []) s = .next t ∧ (dirOf t v.mid).mep = e.mep + 1 ∧ (dirOf t v.mid).slot = y ∧
      (dirOf t v.mid).cgTiles = 0 ∧ t.rak.evq = rest ∧ t.rak.retire = s.rak.retire ++ [{ v with at_ := 5 }] ∧ t.host = s5.host) ∧
  (∀ (v : RakeEv) (ws : List (Nat × List Byte)) (s s1 s2 : State), s.rak.retire.find? (retireReady s) = some v →
    s.flt.frake = false → halted s 0x50 = false → s.pwr.pstate = .active → (hdr s .rak).mode = .active →
    (ioRetire (s.beginAs .rak []) v.mid).run (s.beginAs .rak []) = (.ok ws, s1) → issueWrites s1 ws = (none, s2) →
    s2.miss = [] → s2.stall = false → s.twn.regs.twen = false →
    ∃ t, exec (.rakeRetire []) s = .next t ∧ dirOf t v.mid = { dirOf s v.mid with busy := false } ∧
      (∀ m, m ≠ v.mid → dirOf t m = dirOf s m) ∧ (∀ y ∈ t.rak.retire, y.mid ≠ v.mid) ∧
      t.rak.regs.events = (if v.at_ = 5 then s.rak.regs.events + 1 else s.rak.regs.events) ∧ t.host = s2.host)

/-! ### Salters and engines -/

/-- CGO starts the load of a customer kernel of an admitted length, and answers LENGTH for another (log entry 92); CGO_DONE places the
kernel's bytes at local address 0 and starts it there with CARG in x1; CEVT is an event; PFLUSH empties an idle engine's
images and waits for a running job's end. -/
def Obligations.KernelCommands : Prop :=
  ∀ (n : Fin 8) (s : State), (Answers s (.slt n) → (salt s n).regs.cust = true → pageState s (.slt n) = .idle →
      (salt s n).regs.cgo = false →
      (64 ≤ (salt s n).regs.clen.toNat ∧ (salt s n).regs.clen.toNat ≤ 0x40000 ∧ (salt s n).regs.clen.toNat % 64 = 0 →
        exec (.cgo n) s = .next (modSlt (answer s cpOk) n fun y => { y with regs := { y.regs with cgo := true, cres := 0 } })) ∧
      (¬(64 ≤ (salt s n).regs.clen.toNat ∧ (salt s n).regs.clen.toNat ≤ 0x40000 ∧ (salt s n).regs.clen.toNat % 64 = 0) →
        exec (.cgo n) s = .next (modSlt (answer s cpOk) n fun y => { y with regs := { y.regs with cres := 3 } }))) ∧
    ((salt s n).regs.cgo = true → Here s (salt s n).regs.cimg.toNat → Credits s → ∃ t, exec (.cgoDone n []) s = .next t ∧
      (salt t n).lmem = memPut (salt s n).lmem 0
        (memBytes s.host (hostAddr s (salt s n).regs.cimg.toNat) (salt s n).regs.clen.toNat) ∧
      (salt t n).mode = .run ∧ (salt t n).pc = 0 ∧ vget (salt t n).x 1 = (salt s n).regs.carg ∧ (salt t n).regs.cgo = false ∧
      (salt t n).regs.cres = 1 ∧ (∀ m, m ≠ n → salt t m = salt s m) ∧ t.host = s.host ∧ t.hdrs = s.hdrs) ∧
    (Answers s (.slt n) → exec (.cevt n) s = .next (modSlt (answer s cpOk) n fun x =>
      if x.mode = .wfe then { x with mode := .run } else { x with event := true })) ∧
    (Answers s (.hrv n) → exec (.pflush n) s = .next (modEng (answer s cpOk) n fun x =>
      if x.job.isSome then { x with pflush := true } else { x with images := [] }))

/-- A vector instruction that computes runs in the lanes that act, raises the flags its lanes raise, and the engine's job,
or the salter, goes on to the next word; NOP changes no register and SETRM sets the rounding mode when a lane acts. An
illegal word ends the job with FAULT. No other unit and no memory changes. -/
def Obligations.VectorInstructionsRun : Prop :=
  ∀ (u : VecId) (w : VFields) (s : State) (c : Instr) (op : Nat) (f : (L : Nat) → VecUnit L → VecUnit L × IFlags),
    (c, op, f) ∈ ([(.nop u w, 0, fun _ x => (x, flNone)),
      (.setrm u w, 0x28, fun L x => (if (List.finRange L).any (x.acts w.pg) then { x with frm := w.m } else x, flNone)),
      (.faddS u w, 1, fun _ x => x.lanes w.pg (arithS w (fadd sp32))), (.fsubS u w, 2, fun _ x => x.lanes w.pg (arithS w (fsub sp32))),
      (.fmulS u w, 3, fun _ x => x.lanes w.pg (arithS w (fmul sp32))), (.fdivS u w, 4, fun _ x => x.lanes w.pg (arithS w (fdiv sp32))),
      (.fmaS u w, 5, fun _ x => x.lanes w.pg (fusedS w (ffma sp32))), (.fnmaS u w, 6, fun _ x => x.lanes w.pg (fusedS w (ffnma sp32))),
      (.f1S u w, 7, fun _ x => x.lanes w.pg (unaryS w)), (.f2S u w, 8, fun _ x => x.lanes w.pg (binaryS w)),
      (.fcmpS u w, 9, fun _ x => x.lanes w.pg (compareS w)),
      (.faddD u w, 0x11, fun _ x => x.lanes w.pg (arithD w (fadd sp64))), (.fsubD u w, 0x12, fun _ x => x.lanes w.pg (arithD w (fsub sp64))),
      (.fmulD u w, 0x13, fun _ x => x.lanes w.pg (arithD w (fmul sp64))), (.fdivD u w, 0x14, fun _ x => x.lanes w.pg (arithD w (fdiv sp64))),
      (.fmaD u w, 0x15, fun _ x => x.lanes w.pg (fusedD w (ffma sp64))), (.fnmaD u w, 0x16, fun _ x => x.lanes w.pg (fusedD w (ffnma sp64))),
      (.f1D u w, 0x17, fun _ x => x.lanes w.pg (unaryD w)), (.f2D u w, 0x18, fun _ x => x.lanes w.pg (binaryD w)),
      (.fcmpD u w, 0x19, fun _ x => x.lanes w.pg (compareD w)), (.cvt u w, 0x20, fun _ x => x.lanes w.pg (convert w)),
      (.bmrg u w, 0x23, fun _ x => x.lanes w.pg (merge w)), (.sel u w, 0x25, fun _ x => x.lanes w.pg (select w)),
      (.mov u w, 0x26, fun _ x => x.lanes w.pg (move w)), (.plog u w, 0x27, fun _ x => x.lanes w.pg (predLogic w)),
      (.iop u w, 0x29, fun _ x => x.lanes w.pg (intOp w))] :
        List (Instr × Nat × ((L : Nat) → VecUnit L → VecUnit L × IFlags))) →
    (∀ n j, u = .hrv n → hrvIssues s n = true → (eng s n).job = some j → legalVec op w = true → j.pc + 1 < j.img.words.length →
      ∃ t, exec c s = .next t ∧ eng t n = { eng s n with
          vec := (f 64 (eng s n).vec).1, job := some { j with pc := j.pc + 1 },
          regs := { (eng s n).regs with fl := (eng s n).regs.fl.raise (f 64 (eng s n).vec).2 } } ∧
        (∀ m, m ≠ n → eng t m = eng s m) ∧ t.slt = s.slt ∧ t.host = s.host ∧ t.hdrs = s.hdrs ∧ t.shard = s.shard) ∧
    (∀ n j, u = .hrv n → hrvIssues s n = true → (eng s n).job = some j → legalVec op w = false →
      (hdr s (.hrv n)).errsev = 0 → (hdr s (.hrv n)).slotA.valid = false →
      ∃ t k, exec c s = .next t ∧ (eng t n).job = some k ∧ k.jrec.fault = true ∧ k.sts = [] ∧
        (eng t n).regs.jfaults = satAdd (eng s n).regs.jfaults 1 ∧ bit (hdr t (.hrv n)).err 0x0B = true ∧ t.host = s.host) ∧
    (∀ n, u = .slt n → sltIssues s n = true → legalVec op w = true →
      ∃ t, exec c s = .next t ∧ salt t n = { salt s n with
          vec := (f 16 (salt s n).vec).1, pc := (salt s n).pc + 4,
          regs := { (salt s n).regs with fl := (salt s n).regs.fl.raise (f 16 (salt s n).vec).2 } } ∧
        (∀ m, m ≠ n → salt t m = salt s m) ∧ t.hrv = s.hrv ∧ t.host = s.host ∧ t.hdrs = s.hdrs)

/-- An FP32 instruction of two operands writes, in the lanes that act and there alone, register D with its function of
the lane's A and B; every other lane and register keeps its value, whichever registers A, B and D are. -/
def Obligations.LanesComputeAlone : Prop :=
  ∀ (L : Nat) (u : VecUnit L) (w : VFields) (f : Rm → Nat → Nat → Nat × IFlags),
    let v := (u.lanes w.pg (arithS w f)).1
    (∀ r l, vget (vget v.v r) l =
      if r = w.d ∧ u.acts w.pg l = true then BitVec.ofNat 32 (f u.rm (opA u w l) (opB u w l)).1 else vget (vget u.v r) l) ∧
    v.p = u.p ∧ v.s = u.s ∧ v.frm = u.frm

/-- LDS gives the lanes that act the stream's elements, STS keeps their values for the batch's end, and BSPL splits A into
D and D + 1 while the job's record counts; the word after it follows. -/
def Obligations.StreamInstructionsRun : Prop :=
  ∀ (n : Fin 8) (w : VFields) (s : State),
    (∀ j, hrvIssues s n = true → (eng s n).job = some j → j.pc + 1 < j.img.words.length →
      (∀ vs, legalVec 0x21 w = true → (j.img.streams.getD w.b.1 {}).isIn = true → (j.img.streams.getD w.b.1 {}).nfchk = false →
        (hdr s (.hrv n)).iarm = false →
        let u := s.beginAs (.hrv n) []
        (ioLds u j (j.img.streams.getD w.b.1 {}) false).run u = (.ok (.ok, vs, []), u) →
        ∃ t, exec (.lds (.hrv n) w []) s = .next t ∧ (eng t n).vec = ((eng s n).vec.load w vs).1 ∧
          (eng t n).job = some { j with pc := j.pc + 1 } ∧ t.host = s.host ∧ t.hdrs = s.hdrs ∧ ∀ m, m ≠ n → eng t m = eng s m) ∧
      (legalVec 0x22 w = true → (j.img.streams.getD w.b.1 {}).isOut = true →
        ∃ t, exec (.sts (.hrv n) w) s = .next t ∧ (eng t n).vec = (eng s n).vec ∧ t.host = s.host ∧ t.hdrs = s.hdrs ∧
          let new := (eng s n).vec.stores w (j.img.streams.getD w.b.1 {}).role (64 * j.batch) j.bind.elems.length
          (eng t n).job = some { j with pc := j.pc + 1, sts := new ++ j.sts }) ∧
      (legalVec 0x24 w = true →
        ∃ t, exec (.bspl (.hrv n) w) s = .next t ∧ (eng t n).vec = ((eng s n).vec.lanes w.pg (split w)).1 ∧
          (eng t n).job = some { j with pc := j.pc + 1, jrec := countSplit (eng s n).vec w j.jrec } ∧ t.host = s.host)) ∧
    (sltIssues s n = true →
      (∀ vs, legalVec 0x21 w = true → (sltStream s n w.b.1).isIn = true → sltEntryBad s n w.b.1 = false →
        let u := s.beginAs (.slt n) []
        (ioLdsSlt u n (sltStream s n w.b.1)).run u = (.ok (some vs), u) →
        ∃ t, exec (.lds (.slt n) w []) s = .next t ∧ (salt t n).vec = ((salt s n).vec.load w vs).1 ∧
          (salt t n).pc = (salt s n).pc + 4 ∧ t.host = s.host) ∧
      (∀ b, legalVec 0x22 w = true → (sltStream s n w.b.1).isOut = true → sltEntryBad s n w.b.1 = false →
        let u := s.beginAs (.slt n) []
        let i := (salt s n).shard.toNat
        (ioRoles u i).run u = (.ok b, u) → streamBad u b (shardOf s i).srec.auxd (sltStream s n w.b.1) = false →
        ∃ t, exec (.sts (.slt n) w) s = .next t ∧ (salt t n).pc = (salt s n).pc + 4 ∧ t.host = s.host ∧
          (salt t n).sts = (salt s n).vec.stores w (sltStream s n w.b.1).role (salt s n).start ((salt s n).start + 16) ++ (salt s n).sts) ∧
      (legalVec 0x24 w = true → ∃ t, exec (.bspl (.slt n) w) s = .next t ∧
        (salt t n).vec = ((salt s n).vec.lanes w.pg (split w)).1 ∧ (salt t n).pc = (salt s n).pc + 4))

/-- A salter's scalar instruction that computes writes D (x0 stays 0) and goes on to the next word, changing nothing else
of the salter: the eleven functions of ALU, ADDI, LUI, the moves between scalar, vector and predicate registers, and CSR,
whose operands are read before it writes (log entry 47) and which, written to STREAMS or SHARD, begins a new vector sequence
(log entry 124). -/
def Obligations.SalterComputes : Prop :=
  ∀ (n : Fin 8) (w : VFields) (d a : Fin 32) (imm : W16) (r : Csr) (wr : Bool) (s : State), sltIssues s n = true →
    let x := salt s n
    (∀ (g : W64 → W64 → W64) (k : Nat), (k, g) ∈ ([(0, fun a b => a + b), (1, fun a b => a - b), (2, fun a b => a &&& b),
        (3, fun a b => a ||| b), (4, fun a b => a ^^^ b), (5, fun a b => a <<< (b.toNat % 64)), (6, fun a b => a >>> (b.toNat % 64)),
        (7, fun a b => a.sshiftRight (b.toNat % 64)), (8, fun a b => a * b), (9, fun a b => if a.toInt < b.toInt then 1 else 0),
        (10, fun a b => if a.toNat < b.toNat then 1 else 0)] : List (Nat × (W64 → W64 → W64))) →
      w.c.1 = k → w.pg = 0 → w.m = 0 → ∃ t, exec (.alu n w) s = .next t ∧ t.host = s.host ∧
        salt t n = { x.wx w.d (g (x.rx w.a) (x.rx w.b)) with pc := x.pc + 4 }) ∧
    (∀ c v, (c, v) ∈ [(Instr.addi n d a imm, x.rx a + imm.signExtend 64), (.lui n d 0 imm, (imm ++ 0#16 : W32).signExtend 64)] →
      ∃ t, exec c s = .next t ∧ salt t n = { x.wx d v with pc := x.pc + 4 } ∧ t.host = s.host ∧ t.hdrs = s.hdrs) ∧
    (w.pg = 0 → w.m = 0 → w.b = 0 →
      (w.c = 0 → ∃ t, exec (.xmov n w) s = .next t ∧ salt t n = { x with pc := x.pc + 4, vec := { x.vec with
        s := vset x.vec.s w.d ((x.rx w.a).setWidth 32) } }) ∧
      (w.c = 1 → ∃ t, exec (.xmov n w) s = .next t ∧ salt t n = { x.wx w.d ((vget x.vec.s w.a).setWidth 64) with pc := x.pc + 4 }) ∧
      (w.c = 2 → w.a.1 < 8 → ∃ t, exec (.xmov n w) s = .next t ∧
        salt t n = { x.wx w.d ((vget x.vec.p (predOf w.a)).setWidth 64) with pc := x.pc + 4 }) ∧
      (w.c = 3 → 1 ≤ w.d.1 → w.d.1 ≤ 7 → ∃ t, exec (.xmov n w) s = .next t ∧ salt t n = { x with pc := x.pc + 4, vec := { x.vec with
        p := vset x.vec.p (predOf w.d) ((x.rx w.a).setWidth 16) } })) ∧
    (r ≠ .reserved → ∃ t, exec (.csr n d a r wr) s = .next t ∧ (salt t n).pc = x.pc + 4 ∧
      (d ≠ 0 → (salt t n).rx d = x.csr r) ∧ (salt t n).csr r = (if wr then x.rx a else x.csr r) ∧
      (∀ e, e ≠ d → (salt t n).rx e = x.rx e) ∧ t.host = s.host ∧
      (wr = true ∧ (r = .streams ∨ r = .shard) → (salt t n).batch = 0 ∧ (salt t n).sts = []) ∧
      (wr = false ∨ (r ≠ .streams ∧ r ≠ .shard) → (salt t n).batch = x.batch ∧ (salt t n).sts = x.sts ∧ (salt t n).vec = x.vec))

/-- A salter's loads and stores: below 256 KiB they reach its own memory, from 2^32 on host memory at the address less
2^32, where a store leaves as one Brine write that stores when it is answered; an unaligned address traps to TVEC with
code 2. -/
def Obligations.SalterLoadsAndStores : Prop :=
  ∀ (n : Fin 8) (d a : Fin 32) (imm : W16) (s : State) (sz : Nat) (c e : Instr), sltIssues s n = true →
    (c, e, sz) ∈ [(Instr.ld n d a imm [], Instr.st n d a imm, 8), (.ldw n d a imm [], .stw n d a imm, 4)] →
    let x := salt s n
    let p := (x.rx a + imm.signExtend 64).toNat
    (p % sz = 0 → p + sz ≤ 0x40000 → (hdr s (.slt n)).iarm = false →
      (∃ t, exec c s = .next t ∧ salt t n = { x.wx d (BitVec.ofNat 64 (leNat (memBytes x.lmem p sz))) with pc := x.pc + 4 } ∧
        t.host = s.host ∧ t.hdrs = s.hdrs) ∧
      ∃ t, exec e s = .next t ∧ salt t n = { x with lmem := memPut x.lmem p (leBytes sz (x.rx d).toNat), pc := x.pc + 4 } ∧
        t.host = s.host ∧ t.txns = s.txns) ∧
    (p % sz = 0 → 2 ^ 32 ≤ p → Here s (p - 2 ^ 32) → (hdr s (.slt n)).iarm = false →
      let h := hostAddr s (p - 2 ^ 32)
      (s.txns = [] → Credits s → ∃ t, exec c s = .next t ∧
        salt t n = { x.wx d (BitVec.ofNat 64 (leNat (memBytes s.host h sz))) with pc := x.pc + 4 } ∧ t.host = s.host) ∧
      (creditOk s x.regs.squad (some (agentShare x.regs.sshare)) = true →
        ∃ t y, exec e s = .next t ∧ t.txns = s.txns ++ [y] ∧ y.kind = .wr ∧ y.addr = h ∧
          y.data = leBytes sz (x.rx d).toNat ∧ y.port = x.regs.squad ∧ salt t n = { x with pc := x.pc + 4 } ∧ t.host = s.host)) ∧
    (p % sz ≠ 0 → (hdr s (.slt n)).iarm = false → x.regs.cust = true → (hdr s (.slt n)).errsev = 0 → n ≠ s.flt.hsalt →
      (hdr s (.slt n)).slotA.valid = false → x.inTrap = false → ∀ i, i = c ∨ i = e →
      ∃ t, exec i s = .next t ∧ (salt t n).pc = x.tvec.setWidth 32 ∧ (salt t n).tpc = x.pc.setWidth 64 ∧ (salt t n).tcause = 2 ∧
        (salt t n).x = x.x ∧ (salt t n).lmem = x.lmem ∧ t.host = s.host)

/-- A salter's branches and jumps set the program counter; WFE waits unless an event has come, FENCE while a store of the
salter's is unanswered; HALT of a salter whose batch stores nothing leaves it IDLE; SADV of such a one moves its streams one
batch on; TRAP saves its address, sets code 5 and passes control to TVEC. -/
def Obligations.SalterControls : Prop :=
  ∀ (n : Fin 8) (d a : Fin 32) (imm : W16) (s : State), sltIssues s n = true →
    let x := salt s n
    (∀ c p, (c, p) ∈ [(Instr.beq n d a imm, decide (x.rx d = x.rx a)), (.bne n d a imm, decide (x.rx d ≠ x.rx a)),
        (.blt n d a imm, decide ((x.rx d).toInt < (x.rx a).toInt)), (.bge n d a imm, decide ((x.rx a).toInt ≤ (x.rx d).toInt))] →
      ∃ t, exec c s = .next t ∧ salt t n = { x with pc := if p then x.pc + imm.signExtend 32 * 4 else x.pc + 4 } ∧ t.host = s.host) ∧
    (∃ t, exec (.jal n d a imm) s = .next t ∧ (salt t n).pc = (x.rx a + imm.signExtend 64 * 4).setWidth 32 ∧
      (salt t n).x = (x.wx d ((x.pc + 4).setWidth 64)).x ∧ t.host = s.host) ∧
    (∃ t, exec (.wfe n) s = .next t ∧ (salt t n).pc = x.pc + 4 ∧ (salt t n).event = false ∧
      (salt t n).mode = if x.event then .run else .wfe) ∧
    (∃ t, exec (.fence n) s = .next t ∧ (salt t n).pc = x.pc + 4 ∧
      (salt t n).mode = if storesOut s n then .fence else .run) ∧
    (x.outs (sltTable s n) = [] → ∃ t, exec (.halt n) s = .next t ∧ (salt t n).mode = .idle ∧ (salt t n).regs.chalt = true ∧
      (salt t n).regs.pc = x.pc ∧ (salt t n).x = x.x ∧ t.host = s.host) ∧
    (∀ b bads, x.outs (sltTable s n) = [] →
      let u := s.beginAs (.slt n) []
      (ioBind u x.shard.toNat).run u = (.ok (b, bads), u) →
      ∃ t, exec (.sadv n {} []) s = .next t ∧ (salt t n).batch = x.batch + 1 ∧ (salt t n).pc = x.pc + 4 ∧
        (salt t n).vec = x.vec.setP0 (b.elems.length - 16 * x.batch)) ∧
    (x.regs.cust = true → (hdr s (.slt n)).errsev = 0 → n ≠ s.flt.hsalt → (hdr s (.slt n)).slotA.valid = false → x.inTrap = false →
      ∃ t, exec (.trap n) s = .next t ∧ (salt t n).pc = x.tvec.setWidth 32 ∧ (salt t n).tpc = x.pc.setWidth 64 ∧
        (salt t n).tcause = 5 ∧ (salt t n).regs.traps = satAdd x.regs.traps 1 ∧ bit (hdr t (.slt n)).err 0x0E = true ∧ t.host = s.host)

/-! ### Links and frames -/

/-- Lanes and training: LTRAIN starts training, LINK_TRAIN_DONE ends it with the link UP on the lanes given, or DOWN with
LINKDOWN recorded; a failing lane is marked and recorded, and in an UP link with lane 8 free in that direction its sparing
begins, goes on by SPARE, SPAREACK and the switch, and ends with SPARED naming the lane, the link UP once neither direction
spares; without a SPAREACK the link goes DOWN. LFORCE marks a lane as LANE_FAIL does. That training leaves SPARED free is the
model's reading (log entry 86), as is that SPARED shows the sparing that ended last and that a switch or a deskew is first
that of the receiving direction (log entry 133). -/
def Obligations.LanesTrainAndSpare : Prop :=
  ∀ (k : Fin 8) (lane : Fin 9) (lanes : BitVec 9) (f : Frame) (s : State),
    (Answers s (.lnk k) → (hdr s (.lnk k)).mode ≠ .isolated → ∃ t, exec (.ltrain k) s = .next t ∧ t.cp = {} ∧
      (lk t k).regs = { (lk s k).regs with lstate := 1, ltrain := true } ∧ ∀ j, j ≠ k → lk t j = lk s j) ∧
    (s.pins.rstLow = false → s.wrap.taken = false → (hdr s (.lnk k)).mode = .active → s.glb.bstage ≠ 6 →
      (lk s k).regs.lstate.toNat < 2 → NoneWaiting s → (∀ p, routeLink (routeOf s p) ≠ some k) →
      (∃ t, exec (.linkTrainDone k lanes true) s = .next t ∧ (lk t k).regs.lstate = 2 ∧ (lk t k).regs.laneok = lanes ∧
        (lk t k).regs.ltrain = false ∧ (lk t k).regs.spared = 0xF ∧ t.hdrs = s.hdrs ∧ ∀ j, j ≠ k → lk t j = lk s j) ∧
      ∃ t, exec (.linkTrainDone k lanes false) s = .next t ∧ (lk t k).regs.lstate = 0 ∧ (lk t k).regs.laneok = lanes ∧
        bit (hdr t (.lnk k)).err 0x11 = true ∧ ∀ j, j ≠ k → lk t j = lk s j) ∧
    (s.wrap.taken = false → (lk s k).regs.lstate.toNat < 2 →
      (∃ t, exec (.laneFail k lane) s = .next t ∧ bit (lk t k).regs.lanefail lane.1 = true ∧
        bit (hdr t (.lnk k)).err 0x10 = true ∧ (lk t k).regs.lstate = (lk s k).regs.lstate) ∧
      (Answers s .tst → s.sec.lcs = 1 ∨ s.sec.lcs = 3 ∨ s.sec.dbglvl ≠ 0 →
        ∃ t, exec (.lforce (BitVec.ofNat 8 (0x60 + 9 * k.1 + lane.1))) s = .next t ∧ bit (lk t k).regs.lanefail lane.1 = true ∧
          bit (hdr t (.lnk k)).err 0x10 = true)) ∧
    (s.wrap.taken = false → 2 ≤ (lk s k).regs.lstate.toNat → lane.1 ≠ 8 → (lk s k).rxSpared = none → (lk s k).rxSpare = none →
      ∃ t n g, exec (.laneFail k lane) s = .next t ∧ (lk t k).rxSpare = some { lane := lane, n := n, ph := .sent } ∧
        (lk t k).txSpare = (lk s k).txSpare ∧ (lk t k).regs.lstate = 3 ∧ t.sent = s.sent ++ [(k, g), (k, g), (k, g)] ∧ g.ftype = 0x12) ∧
    (linkHears s k = true → f.fcrc = frameCrc f → ownFrame 0x12 0 f = true → (lk s k).txSpare = none →
      (∀ x, (lk s k).txSpared = some x → x.1 ≠ tsAt f 21 1 % 9) →
      ∃ t z, exec (.spare k f false) s = .next t ∧ (lk t k).txSpare = some z ∧ z.lane.1 = tsAt f 21 1 % 9 ∧ z.n = tsAt f 22 2 ∧
        z.ph = .acked ∧ (lk t k).rxSpare = (lk s k).rxSpare ∧ (lk t k).regs.lstate = 3) ∧
    (∀ z, (lk s k).txSpare = some z → ∀ r, (lk s k).rxSpare = r → (∀ y, r = some y → y.ph = .sent) →
      (z.ph = .acked → exec (.spareSwitch k) s = .next (modLk s k fun y =>
        { y with txSpare := some { z with ph := .switched }, txSpared := some z.lane })) ∧
      (z.ph = .switched → ∃ t, exec (.deskewDone k) s = .next t ∧ (lk t k).txSpare = none ∧ (lk t k).rxSpare = r ∧
        (lk t k).regs.spared.toNat = z.lane.1 ∧ (lk t k).regs.lstate = (if r.isNone then 2 else (lk s k).regs.lstate))) ∧
    (∀ z, (lk s k).rxSpare = some z →
      (linkHears s k = true → f.fcrc = frameCrc f → ownFrame 0x12 1 f = true → z.ph = .sent → exec (.spareack k f false) s =
        .next (modLk s k fun y => { y with rxSpare := some { z with ph := .acked } })) ∧
      (z.ph = .acked → exec (.spareSwitch k) s = .next (modLk s k fun y =>
        { y with rxSpare := some { z with ph := .switched }, rxSpared := some z.lane })) ∧
      (z.ph = .switched → ∃ t, exec (.deskewDone k) s = .next t ∧ (lk t k).rxSpare = none ∧
        (lk t k).txSpare = (lk s k).txSpare ∧ (lk t k).regs.spared.toNat = z.lane.1 ∧
        (lk t k).regs.lstate = (if (lk s k).txSpare.isNone then 2 else (lk s k).regs.lstate)) ∧
      (z.ph = .sent → (∀ p, routeLink (routeOf s p) ≠ some k) → ∃ t, exec (.spareackTimeout k) s = .next t ∧
        (lk t k).regs.lstate = 0 ∧ bit (hdr t (.lnk k)).err 0x11 = true))

/-- The timers of the pairs: RTO_EXPIRY begins a round with a drawn wait, RETRANSMIT resends the unacknowledged frame
unless its route waits for a link that went DOWN, CREDIT_TIMER carries changed acknowledgements, PROBE_TIMER sends a PROBE on
the alternate link while class V has credit, as the model reads it (log entry 130), ROUTE_FAIL gives the peer
up, and TWUNCLAIMED notes a TILE frame that no order has claimed. -/
def Obligations.PairTimersRun : Prop :=
  ∀ (peer : Fin 64) (cls : Fin 3) (k : Fin 8) (u : Unacked) (s : State),
    let p := pairOf s false peer.1 cls.1
    (p.unacked = [u] → p.backoff = none → p.attempts < (lk s u.link).regs.retrylim.toNat →
      ∃ t w, exec (.rtoExpiry peer cls) s = .next t ∧ pairOf t false peer.1 cls.1 =
          { p with attempts := p.attempts + 1, backoff := some (w, u.ext) } ∧
        (lk s u.link).regs.bobase.toNat * 2 ^ min p.attempts 6 ≤ w ∧ t.twn.regs.boseed = nextR s.twn.regs.boseed ∧
        t.sent = s.sent ∧ t.lnk = s.lnk) ∧
    (∀ w, p.unacked = [u] → p.backoff = some (w, u.ext) → linkUp s u.link = true → heldByRoute s peer.1 u.link = false →
      ∃ t, exec (.retransmit peer cls) s = .next t ∧ t.sent = s.sent ++ [(u.link, u.frame)] ∧
        (lk t u.link).regs.retx = satAdd (lk s u.link).regs.retx 1 ∧ pairOf t false peer.1 cls.1 = { p with backoff := none }) ∧
    (p.dirty = true → s.twn.regs.jstate ≠ .fenced → ∃ t, exec (.creditTimer peer cls) s = .next t ∧
      ∀ c : Fin 3, (pairOf t false peer.1 c.1).dirty = false) ∧
    (bit s.twn.probing peer.1 = true → routeAlt (vget s.twn.regs.route peer) = some k → linkUp s k = true →
      maySend s false peer.1 0 (some k) = true → ∃ t g, exec (.probeTimer peer) s = .next t ∧ t.sent = s.sent ++ [(k, g)] ∧ g.ftype = 0x0D ∧ g.dst.toNat = peer.1) ∧
    (bit s.twn.probing peer.1 = true → bit s.twn.lost peer.1 = false → s.twn.regs.jstate ≠ .joined → s.twn.holds = [] →
      writesTo s peer.1 = [] → ∃ t, exec (.routeFail peer) s = .next t ∧ bit t.twn.lost peer.1 = true ∧ bit t.twn.probing peer.1 = false ∧
        bit t.glb.intpnd 71 = true) ∧
    ((∃ h ∈ s.twn.held, h.link = k ∧ h.frame.ftype = 1) →
      exec (.twunclaimed k) s = .next (modLkR s k fun r => { r with twunclaimed := true }))

/-- A frame of any type that is lost or breaks its FCRC counts in CRCERR and does nothing else, but that a lost one's code words
count in the FEC counters, by amounts that the model leaves free (log entry 132); one of another domain counts as a stranger of
it. -/
def Obligations.BadFramesCounted : Prop :=
  ∀ (k : Fin 8) (f : Frame) (lost : Bool) (s : State) (c : Bool → Instr) (code op : Nat),
    (c, code, op) ∈ [(fun b => Instr.tile k f b, 1, 0), (fun b => .part k f b [], 2, 0), (fun b => .grant k f b [], 3, 0),
      (fun b => .write k f b [], 4, 0), (fun b => .rdreq k f b [], 5, 0), (fun b => .rdrsp k f b, 6, 0), (fun b => .hold k f b, 7, 0),
      (fun b => .vup k f b, 8, 0), (fun b => .vdn k f b, 9, 0), (fun b => .vack k f b, 0x0A, 0), (fun b => .credit k f b, 0x0B, 0),
      (fun b => .nack k f b, 0x0C, 0), (fun b => .probe k f b, 0x0D, 0), (fun b => .joinReq k f b, 0x0E, 0),
      (fun b => .joinDone k f b, 0x0E, 1), (fun b => .joinRefuse k f b, 0x0E, 2), (fun b => .joinReparent k f b, 0x0E, 3),
      (fun b => .takeoverAnnounce k f b, 0x0F, 0), (fun b => .takeoverAnswer k f b, 0x0F, 1),
      (fun b => .takeoverRelease k f b, 0x0F, 2), (fun b => .jrnl k f b, 0x10, 0), (fun b => .hbeat k f b, 0x11, 0)] →
    linkHears s k = true → ownFrame code op f = true →
    (lost = true ∨ f.fcrc ≠ frameCrc f → ∃ t, ∃ x y : W32, exec (c lost) s = .next t ∧
      lk t k = { lk s k with regs := { (lk s k).regs with
        crcerr := satAdd (lk s k).regs.crcerr 1, fecunc := satAdd (lk s k).regs.fecunc x.toNat,
        feccorr := satAdd (lk s k).regs.feccorr y.toNat } } ∧
      (lost = false → (lk t k).regs.fecunc = (lk s k).regs.fecunc ∧ (lk t k).regs.feccorr = (lk s k).regs.feccorr) ∧
      (∀ j, j ≠ k → lk t j = lk s j) ∧ t.twn = s.twn ∧ t.vrd = s.vrd ∧ t.host = s.host ∧ t.glb = s.glb ∧ t.sent = s.sent) ∧
    (f.fcrc = frameCrc f → bufferFree s k f = true → typeClass code = some (fClass f) → s.twn.regs.jstate = .joined →
      f.dom ≠ s.twn.regs.domain → ∃ t, exec (c false) s = .next t ∧
        (lk t k).regs.strdom = satAdd (lk s k).regs.strdom 1 ∧ (lk t k).regs.scapV = true ∧ t.twn = s.twn ∧ t.vrd = s.vrd ∧
        t.host = s.host ∧ t.sent = s.sent)

/-- Frames of remote access: a WRITE inside a window is issued on the link's Brine port, its bytes line by line, one outside
counts in WINERR; an RDREQ inside a window leaves memory as it is and its RDRSP on the way back, and the RDRSP's bytes
are kept for the reader; a HOLD counts a reader of the slot and a RELEASE takes it back. -/
def Obligations.RemoteAccessFrames : Prop :=
  ∀ (k : Fin 8) (f : Frame) (s : State), InSequence s k f → NoneWaiting s → fClass f = 2 → s.pwr.pstate = .active → s.pwr.ptrans = none →
    f.reb = 0 → goesOn s (.lnk k) = true →
    let a := tsAt f 20 8
    let bs := f.payload.take f.plen.toNat
    (ownFrame 4 0 f = true → writeCakesBad s { f with payload := bs } = false → inWindow s a bs.length = true →
      gradShardOf s a = none → s.txns = [] → bs.length ≤ 4096 →
      ∃ t, exec (.write k f false []) s = .next t ∧
        t.txns.map (fun y => (y.addr, y.data)) = linePieces (bs.length / 128 + 2) a bs ∧ t.txns.flatMap (·.data) = bs ∧
        (∀ y ∈ t.txns, y.kind = .wr ∧ y.port = (lk s k).regs.lquad ∧ y.addr / 128 = (y.addr + y.data.length - 1) / 128) ∧
        t.host = s.host ∧ t.lnk = s.lnk) ∧
    (ownFrame 4 0 f = true → writeCakesBad s { f with payload := bs } = false → inWindow s a bs.length = false →
      ∃ t, exec (.write k f false []) s = .next t ∧ (lk t k).regs.winerr = satAdd (lk s k).regs.winerr 1 ∧ t.txns = s.txns ∧
        t.host = s.host) ∧
    (ownFrame 5 0 f = true → inWindow s a (16 * tsAt f 28 2) = true → s.twn.regs.prot = 0 →
      s.twn.regs.jstate ≠ .fenced → Here s a → linkCredit s k = true → bit s.twn.noRoute f.src.toNat = false → ∀ j,
      routeLink (routeOf s f.src.toNat) = some j → linkUp s j = true →
      newer ((pairOf s false f.src.toNat 2).limit 2) (BitVec.ofNat 16 (pairOf s false f.src.toNat 2).txNext) = true →
      ∃ t g, exec (.rdreq k f false []) s = .next t ∧ t.sent = s.sent ++ [(j, g)] ∧ g.ftype = 6 ∧ g.dst = f.src ∧
        g.payload = pad64 (memBytes s.host (hostAddr s a) (16 * tsAt f 28 2)) ∧ tsAt g 20 2 = leAt f.tspec 10 2 ∧ t.host = s.host) ∧
    (∀ u n, ownFrame 6 0 f = true → s.twn.rdreqs = [(tsAt f 20 2, u, n)] → tsAt f 22 1 = 0 →
      rdrspCakesBad s { f with payload := bs } = false →
      ∃ t, exec (.rdrsp k f false) s = .next t ∧ t.twn.rdreqs = [] ∧ t.rbuf = memPut s.rbuf (16 * u) (fitTo (16 * n) bs) ∧
        t.rgot = s.rgot ++ (List.range n).map (u + ·) ∧ t.host = s.host) ∧
    (ownFrame 7 0 f = true → (shardOf s (tsAt f 20 4)).srec.role = 1 → (shardOf s (tsAt f 20 4)).srec.masked = false →
      (tsAt f 24 1 = 0 → nbit (tsAt f 25 1) 0 = false → s.twn.holds.length < 256 → (shardOf s (tsAt f 20 4)).rdrA ≠ 255 →
        ∃ t, exec (.hold k f false) s = .next t ∧ (shardOf t (tsAt f 20 4)).rdrA = (shardOf s (tsAt f 20 4)).rdrA + 1 ∧
          t.twn.holds = s.twn.holds ++ [{ holder := f.src.toNat, shard := tsAt f 20 4, slot := false }] ∧ t.host = s.host) ∧
      (tsAt f 24 1 = 1 → nbit (tsAt f 25 1) 0 = false →
        s.twn.holds = [{ holder := f.src.toNat, shard := tsAt f 20 4, slot := false }] →
        ∃ t, exec (.hold k f false) s = .next t ∧ t.twn.holds = [] ∧
          (shardOf t (tsAt f 20 4)).rdrA.toNat = (shardOf s (tsAt f 20 4)).rdrA.toNat - 1 ∧ t.host = s.host))

/-- Frames of split and tidewater orders: a TILE frame's rows wait at every armed order of its STAG with room; a PART
frame's bytes go to its block's slot of the settling order, and the last ones send the notice; a GRANT reaches the
senders of its tag. -/
def Obligations.OrderFrames : Prop :=
  ∀ (k : Fin 8) (f : Frame) (l : Fin 60) (r : Run) (s : State), InSequence s k f → NoneWaiting s → fClass f = 2 →
    s.pwr.pstate = .active → s.pwr.ptrans = none → f.reb = 0 →
    let bs := f.payload.take f.plen.toNat
    (∀ j, ownFrame 1 0 f = true → tileCakesBad s { f with payload := bs } = false → vget (lp s l).armed j = some r →
      (∀ m i, m ≠ l ∨ i ≠ j → ∀ q, vget (lp s m).armed i = some q → q.ord.stag.toNat ≠ tsAt f 20 4) →
      r.ord.stag.toNat = tsAt f 20 4 → (lp s l).tideBytes + bs.length ≤ 262144 → r.frags = [] →
      ∃ t, exec (.tile k f false) s = .next t ∧ vget (lp t l).armed j =
          some { r with frags := [{ first := tsAt f 24 4, nrow := tsAt f 28 2, bytes := bs }] } ∧
        (∀ m, m ≠ l → lp t m = lp s m) ∧ t.twn.held = s.twn.held ∧ t.host = s.host) ∧
    (ownFrame 2 0 f = true → (lp s l).run = some r → r.ord.settle = true → r.ord.ptag.toNat = tsAt f 20 4 → r.ord.pslots ≠ 0 →
      (∀ m, m ≠ l → ∀ q, (lp s m).run = some q → q.ord.settle = false) →
      let a0 := slotAddr { front := 0, pslots := r.ord.pslots, parea := r.ord.parea } r.ord (if r.chain.irs then 1 else 0)
        (tsAt f 24 4) + tsAt f 28 4 % 2 ^ 31
      let a := hostAddr s a0
      Here s a0 → linkCredit s k = true → ∃ t, exec (.part k f false []) s = .next t ∧ t.host = memPut s.host a bs ∧
        (∀ b, b < a ∨ a + bs.length ≤ b → smGet 0 t.host b = smGet 0 s.host b) ∧ (∀ m, m ≠ l → lp t m = lp s m) ∧
        (lp t l).notices = (if nbit (tsAt f 28 4) 31 then (lp s l).notices ++ [(tsAt f 24 4, none)] else (lp s l).notices)) ∧
    (ownFrame 3 0 f = true → tsAt f 28 1 ≠ 0 → (lp s l).run = some r → senderOf (BitVec.ofNat 32 (tsAt f 20 4)) r.ord = true →
      r.blocks = [] → r.started = true → (∀ m, m ≠ l → (lp s m).run = none) → (∀ m, (lp s m).win = []) →
      ∃ t, exec (.grant k f false []) s = .next t ∧ (lp t l).run =
          some { r with grant := some { front := tsAt f 24 4, pslots := tsAt f 28 1, parea := leAt bs 0 8 } } ∧ t.host = s.host)

/-- Frames of the verdict class: a child's VUP for the open step waits there until the instance's own flags are in, a
second one counts in VSEQERR; a VDN of the parent applies the step's verdict, here at a leaf with VSIZE 1, which the
model does not take for the deputy (log entry 28); a VACK of the deputy lets the master apply
it; a CREDIT raises the limits; a NACK begins a round of retransmission; a PROBE is answered where it came, and its answer
moves the route to the alternate link. -/
def Obligations.VerdictFrames : Prop :=
  ∀ (k : Fin 8) (f : Frame) (s : State), InSequence s k f → fClass f = 0 → f.reb = 0 →
    let peer := f.src.toNat
    let m := VMsg.ofFrame f
    (NoneWaiting s → ownFrame 8 0 f = true → m.step = s.vrd.regs.vstep → s.vrd.formed = none → bit s.vrd.regs.vchild peer = true → s.vrd.own = none →
      bit s.twn.lost peer = false → takenOver s peer = false →
      ((∀ x ∈ s.vrd.vups, x.1 ≠ peer) → ∃ t, exec (.vup k f false) s = .next t ∧ t.vrd.vups = s.vrd.vups ++ [(peer, m)] ∧
        t.vrd.regs = s.vrd.regs ∧ t.host = s.host) ∧
      ((∃ x ∈ s.vrd.vups, x.1 = peer) → ∃ t, exec (.vup k f false) s = .next t ∧ t.vrd.vups = s.vrd.vups ∧
        t.vrd.regs.vseqerr = satAdd s.vrd.regs.vseqerr 1)) ∧
    (NoneWaiting s → s.shard = [] → s.vrd.evals = [] → s.twn.regs.twen = false → s.vrd.flipping = none →
      (ownFrame 9 0 f = true → m.step = s.vrd.regs.vstep → s.vrd.regs.vparent = f.src → s.vrd.regs.vparent ≠ 0xFF →
        s.vrd.regs.vsize.toNat ≤ 1 → s.vrd.regs.vchild = 0 →
        ∃ t, exec (.vdn k f false) s = .next t ∧ t.vrd.regs.vstep = s.vrd.regs.vstep + 1 ∧ t.vrd.regs.closed = false ∧
          (vget t.vrd.regs.log (s.vrd.regs.loghead + 1).toFin).commit = m.commit ∧
          (vget t.vrd.regs.log (s.vrd.regs.loghead + 1).toFin).step = m.step ∧ t.host = s.host) ∧
      (∀ x, ownFrame 0x0A 0 f = true → s.vrd.formed = some x → (x.step.toNat = tsAt f 20 4) → s.vrd.regs.vparent = 0xFF →
        children s = [peer] → s.vrd.regs.vdep = f.src → bit s.twn.lost peer = false → takenOver s peer = false →
        ∃ t, exec (.vack k f false) s = .next t ∧ t.vrd.regs.vstep = x.step + 1 ∧ t.vrd.formed = none ∧
          (vget t.vrd.regs.log (s.vrd.regs.loghead + 1).toFin).commit = x.commit)) ∧
    (∀ c : Fin 3, NoneWaiting s → ownFrame 0x0B 0 f = true → 12 ≤ f.plen.toNat →
      newer (BitVec.ofNat 16 (leAt f.payload (4 * c.1 + 2) 2)) ((pairOf s false peer c.1).limit c.1) = true →
      ∃ t, exec (.credit k f false) s = .next t ∧
        (pairOf t false peer c.1).txLim = some (BitVec.ofNat 16 (leAt f.payload (4 * c.1 + 2) 2)) ∧ t.lnk = s.lnk) ∧
    (∀ (c : Fin 3) (u : Unacked), ownFrame 0x0C 0 f = true → tsAt f 20 1 = c.1 → tsAt f 21 1 = 0 →
      (∀ x ∈ s.twn.pairs, x.2.queue = []) → (pairOf s false peer c.1).unacked = [u] → u.ext % 65536 = tsAt f 24 2 →
      f.ack = BitVec.ofNat 16 u.ext → (pairOf s false peer c.1).backoff = none → u.ext < (pairOf s false peer c.1).txNext →
      (pairOf s false peer c.1).attempts < (lk s u.link).regs.retrylim.toNat →
      ∃ t, exec (.nack k f false) s = .next t ∧ (pairOf t false peer c.1).attempts = (pairOf s false peer c.1).attempts + 1 ∧
        (pairOf t false peer c.1).backoff.isSome = true ∧ (pairOf t false peer c.1).unacked = [u] ∧
        t.twn.regs.boseed = nextR s.twn.regs.boseed) ∧
    (NoneWaiting s → ownFrame 0x0D 0 f = true →
      (tsAt f 20 1 = 0 → maySend s false peer 0 (some k) = true → ∃ t g, exec (.probe k f false) s = .next t ∧ t.sent = s.sent ++ [(k, g)] ∧ g.ftype = 0x0D ∧
        g.dst = f.src ∧ tsAt g 20 1 = 1) ∧
      (∀ j : Fin 8, tsAt f 20 1 = 1 → bit s.twn.probing peer = true → routeAlt (routeOf s peer) = some j →
        ∃ t, exec (.probe k f false) s = .next t ∧ routeLink (routeOf t peer) = some j ∧ bit t.twn.probing peer = false))

/-- Frames of joining and of the twin: a child's REQ is noted; DONE of the parent makes the instance JOINED with the open
step, REFUSE takes its cause, REPARENT gains the child; ANNOUNCE and RELEASE change who answers for a number, ANSWER
strikes its sender from those awaited; a JRNL entry and a history block are mirrored, and HBEAT tells the twin's state. -/
def Obligations.JoinAndTwinFrames : Prop :=
  ∀ (k : Fin 8) (f : Frame) (s : State), InSequence s k f → NoneWaiting s → f.reb = 0 →
    let peer := f.src.toNat
    (fClass f = 0 →
      (ownFrame 0x0E 0 f = true → s.twn.regs.jstate = .joined → children s = [peer] → takenOver s peer = false →
        1 + tsAt f 22 1 = wantedSize s →
        ∃ t, exec (.joinReq k f false) s = .next t ∧ t.twn.regs.jstate = .joined ∧ (peer, tsAt f 22 1) ∈ t.twn.reqs ∧
          t.vrd = s.vrd) ∧
      (s.twn.regs.jstate = .joining → s.vrd.regs.vparent = f.src → children s = [] →
        (ownFrame 0x0E 1 f = true → ∃ t, exec (.joinDone k f false) s = .next t ∧ t.twn.regs.jstate = .joined ∧
          t.vrd.regs.vstep.toNat = tsAt f 24 4 ∧ t.twn.regs.jerr = 0 ∧
          (s.glb.bstage = 7 → t.glb.bstage = 8 ∧ bit t.glb.intpnd 75 = true)) ∧
        (ownFrame 0x0E 2 f = true → ∃ t, exec (.joinRefuse k f false) s = .next t ∧ t.twn.regs.jstate = .refused ∧
          t.twn.regs.jerr.toNat = tsAt f 21 1 % 16 ∧ bit t.glb.intpnd 75 = true ∧ t.vrd = s.vrd)) ∧
      (ownFrame 0x0E 3 f = true → s.twn.regs.jstate = .joined → ∃ t, exec (.joinReparent k f false) s = .next t ∧
        t.vrd = { s.vrd with regs := { s.vrd.regs with vchild := setBit s.vrd.regs.vchild peer true } }) ∧
      (s.twn.regs.jstate = .joined → s.twn.holds = [] →
        (ownFrame 0x0F 0 f = true → tsAt f 20 1 ≠ peer → ∃ t, exec (.takeoverAnnounce k f false) s = .next t ∧
          t.twn.adoptedBy = (s.twn.adoptedBy.filter fun y => y.1 ≠ tsAt f 20 1) ++ [(tsAt f 20 1, peer)] ∧
          (tsAt f 20 1 < 64 → routeOf t (tsAt f 20 1) = routeOf s peer)) ∧
        (ownFrame 0x0F 1 f = true → ∃ t, exec (.takeoverAnswer k f false) s = .next t ∧
          t.twn.await = setBit s.twn.await peer false ∧ t.twn.adoptedBy = s.twn.adoptedBy) ∧
        (ownFrame 0x0F 2 f = true → tsAt f 20 1 ≠ peer → ∃ t, exec (.takeoverRelease k f false) s = .next t ∧
          t.twn.adoptedBy = s.twn.adoptedBy.filter fun y => y.1 ≠ tsAt f 20 1))) ∧
    (fClass f = 1 → s.twn.regs.twen = true → s.twn.regs.twin.toNat = peer →
      let bs := f.payload.take f.plen.toNat
      (ownFrame 0x10 0 f = true → tsAt f 24 1 = 1 → leAt bs 0 1 = 1 → 128 ≤ bs.length →
        ∃ t, exec (.jrnl k f false) s = .next t ∧ t.twn.jin.toNat = (tsAt f 20 4 + 1) % 2 ^ 32 ∧
          t.res = memPut s.res 0x740000 (bs.take 128)) ∧
      (ownFrame 0x10 0 f = true → tsAt f 24 1 = 0 → tsAt f 25 2 < 256 →
        ∃ t, exec (.jrnl k f false) s = .next t ∧ t.twn.mirrorBlk = s.twn.mirrorBlk + 1 ∧
          t.res = memPut s.res ((if s.twn.mirror = some false then 0x600000 else 0x500000) + 4096 * tsAt f 25 2) (fitTo 4096 bs)) ∧
      (ownFrame 0x11 0 f = true → ∃ t, exec (.hbeat k f false) s = .next t ∧
        (tsAt f 24 1 = 1 → t.twn.twinPfail = true) ∧ (tsAt f 24 1 = 2 → t.twn.twinFinal = true) ∧
        (tsAt f 24 1 = 0 → t.twn.twinPfail = false ∧ t.twn.twinFinal = false) ∧ t.res = s.res))

/-- A twin that is silent for TKWAIT, or after its FINAL, is declared lost: the takeover of its number begins and every
other member's answer is awaited; with the work done and every answer held the number is adopted
(the work is one command of the model, log entry 89); RELEASE takes the
adopted shards away and gives the number up, RELEASE_DONE ends it. A member that does not answer is given up, and an
instance that hears no one is FENCED. -/
def Obligations.TakeoverRuns : Prop :=
  ∀ (s : State),
    (s.twn.regs.jstate = .joined → s.twn.regs.twen = true → s.twn.regs.tkstate = .none → s.twn.holds = [] → s.twn.lost = 0 →
      ∀ c, c = Instr.tkwaitExpiry ∨ (c = .finalSilence ∧ s.twn.twinFinal = true) →
      ∃ t, exec c s = .next t ∧ t.twn.regs.tkstate = .adopting ∧ t.twn.tkNum = some s.twn.regs.twin.toNat ∧
        (∀ i : Fin 64, bit t.twn.await i.1 = decide (i.1 ∈ otherMembers s ∧ i.1 ≠ s.twn.regs.twin.toNat)) ∧
        bit (hdr t .twn).err 0x12 = true ∧ t.twn.regs.adopted = s.twn.regs.adopted ∧ t.host = s.host) ∧
    (∀ num, s.twn.regs.tkstate = .adopting → s.twn.tkNum = some num → s.twn.tkWork = true → s.twn.await = 0 →
      ∃ t, exec (.adopted []) s = .next t ∧ t.twn.regs.adopted = BitVec.ofNat 8 num ∧ t.twn.regs.tkstate = .done ∧
        bit t.glb.intpnd 72 = true ∧ (∀ i, vget t.sec.lk i = { vget s.sec.lk i with preAdopt := true }) ∧ t.host = s.host) ∧
    (Answers s .twn → s.twn.regs.tkstate = .done → s.twn.tkDirs = [] →
      (∀ i ∈ s.twn.tkShards, Here s (s.glb.shtBase.toNat + 128 * i)) →
      (∀ i ∈ s.twn.tkShards, (shardOf s i).ready = false ∧ (shardOf s i).run = false ∧ (shardOf s i).pend = false) →
      ∃ t, exec .release s = .next t ∧ t.cp = {} ∧ t.twn.regs.adopted = 0xFF ∧ t.twn.releasing = true ∧ t.twn.tkShards = [] ∧
        (∀ i ∈ s.twn.tkShards, shardOf t i = {}) ∧ ∀ i, i ∉ s.twn.tkShards → shardOf t i = shardOf s i) ∧
    (s.twn.releasing = true → s.twn.await = 0 → (∀ m ∈ s.twn.tkDirs, (dirOf s m).rdrA = 0 ∧ (dirOf s m).rdrB = 0) →
      ∃ t, exec .releaseDone s = .next t ∧ t.twn.releasing = false ∧ t.twn.tkNum = none ∧ t.twn.regs.tkstate = .none ∧
        bit t.glb.intpnd 72 = true ∧ (∀ m ∈ s.twn.tkDirs, (dirOf t m).role = 0) ∧ ∀ m, m ∉ s.twn.tkDirs → dirOf t m = dirOf s m) ∧
    (∀ peer : Fin 64, bit s.twn.await peer.1 = true → bit s.twn.lost peer.1 = false → s.twn.holds = [] → s.vrd.formed = none →
      s.vrd.own = none → s.vrd.regs.vparent.toNat ≠ peer.1 → bit s.vrd.regs.vchild peer.1 = false → writesTo s peer.1 = [] →
      ∃ t, exec (.takeoverTimeout peer) s = .next t ∧ bit t.twn.await peer.1 = false ∧ bit t.twn.lost peer.1 = true ∧
        bit t.glb.intpnd 71 = true) ∧
    (s.twn.regs.jstate = .joined → otherMembers s ≠ [] → ∃ t, exec .sfwaitExpiry s = .next t ∧ t.twn.regs.jstate = .fenced ∧
      t.glb.bstage = (if s.glb.bstage = 8 then 7 else s.glb.bstage) ∧ t.vrd = s.vrd ∧ t.host = s.host)

/-! ### Brine ports and the background -/

/-- A response that answers its transaction ends it, and a write's bytes reach their address and no other byte; one that
answers none counts in BPSTRAY; a transaction of an interrupt message that is not answered ends as an error in
GLB's page (log entry 48); a request held too
long sets its port's BPSTALL bit and makes the FLT source pending. -/
def Obligations.BrinePortsAnswer : Prop :=
  ∀ (q : Fin 16) (tag : BitVec 9) (x : Txn) (i : Nat) (kind : BitVec 2) (s : State), s.pins.rstLow = false → s.wrap.taken = false →
    s.pwr.pstate = .active → s.twn.held = [] → s.pwr.heldMsg = [] → s.shard = [] →
    (txnAt s q tag = some x → x.kind = .wr → x.why = .message i → kind = 1 →
      ∃ t, exec (.brineResponse q tag kind) s = .next t ∧ txnAt t q tag = none ∧ t.host = memPut s.host x.addr x.data ∧
        (∀ b, b < x.addr ∨ x.addr + x.data.length ≤ b → smGet 0 t.host b = smGet 0 s.host b) ∧ t.hdrs = s.hdrs ∧ t.glb = s.glb) ∧
    (txnAt s q tag = none → exec (.brineResponse q tag kind) s =
      .next (modGlb { s with hostBad := [], miss := [], rused := [], rout := [], who := none, rsv := false, stall := false } fun g => { g with bpstray := satAdd g.bpstray 1 })) ∧
    (txnAt s q tag = some x → x.why = .message i → ∃ t, exec (.brineTimeout q tag) s = .next t ∧ txnAt t q tag = none ∧
      bit (hdr t .glb).err 7 = true ∧
      ∀ b, b < x.addr ∨ x.addr + x.data.length ≤ b → smGet 0 t.host b = smGet 0 s.host b) ∧
    (∃ t, exec (.bpstall q) s = .next t ∧ bit t.glb.bpstall q.1 = true ∧ bit t.glb.intpnd 64 = true ∧ t.host = s.host)

/-- A run of the tide table: an entry that is due is released and notes its time, and its task starts, here a calibration
that takes its readings for the quads with a LIVE pan and an event to a salter; its end counts the run and, of one on time without debt, sets when the
next one is due. The watchdog fences a pan or an engine that makes no progress, and an error queue
that stays full loses the instance. -/
def Obligations.BackgroundAndWatchdog : Prop :=
  (∀ (e : Fin 16) (m : Meas) (s : State),
    (tideDue s e = true → ∃ t, exec (.tideRelease e m) s = .next t ∧ KeepsHost s t ∧
      ((vget s.tide.ent e).task ≠ 4 → t.host = s.host) ∧
      ((vget s.tide.ent e).task = 2 → (vget t.tide.ent e).running = true ∧ (vget t.tide.ent e).relAt = (vget s.tide.ent e).now ∧
        ∀ q, (quad t q).rpoff = if quadLive s q then vget m.rpoff q else (quad s q).rpoff) ∧
      ((vget s.tide.ent e).task = 7 → (vget t.tide.ent e).running = true ∧
        salt t (vget s.tide.ent e).fsalt = (let x := salt s (vget s.tide.ent e).fsalt
          if x.mode = .wfe then { x with mode := .run } else { x with event := true }))) ∧
    ((vget s.tide.ent e).running = true → (vget s.tide.ent e).task ≠ 3 →
      ∃ t, exec (.tideRunComplete e) s = .next t ∧ (vget t.tide.ent e).running = false ∧
        (vget t.tide.ent e).runs = (vget s.tide.ent e).runs + 1 ∧
        ((vget s.tide.ent e).now ≤ (vget s.tide.ent e).relAt + (vget s.tide.ent e).relQ → (vget s.tide.ent e).debt = 0 →
          (vget t.tide.ent e).debt = 0 ∧ (vget t.tide.ent e).latecnt = (vget s.tide.ent e).latecnt ∧
          (vget t.tide.ent e).next.toNat = ((vget s.tide.ent e).relAt + (vget s.tide.ent e).relQ - (vget s.tide.ent e).now) % 2 ^ 32) ∧
        t.pan = s.pan ∧ t.host = s.host)) ∧
  (∀ s : State, s.pwr.pstate = .active → s.pwr.ptrans = none →
    (∀ p : Fin 64, unitBusy s (.pan p) = true → dhBit s.tst.regs p.1 = false → pageState s (.pan p) = .running →
      ∃ t, exec (.wdog (BitVec.ofNat 8 p.1)) s = .next t ∧ bit (hdr t (.pan p)).err 0x0F = true ∧
        ((hdr s (.pan p)).errsev = 0 → (hdr s (.pan p)).slotA.valid = false → bit t.flt.fpan p.1 = true ∧
          (hdr t (.pan p)).mode = .faulted ∧ (pn t p).pwr = .gated)) ∧
    (∀ n : Fin 8, unitBusy s (.hrv n) = true → dhBit s.tst.regs (0x40 + n.1) = false → pageState s (.hrv n) = .running →
      (hdr s (.hrv n)).errsev = 0 → (hdr s (.hrv n)).slotA.valid = false →
      ∃ t, exec (.wdog (BitVec.ofNat 8 (0x40 + n.1))) s = .next t ∧ bit t.flt.fhrv n.1 = true ∧ (eng t n).job = none ∧
        (hdr t (.hrv n)).mode = .faulted) ∧
    ((s.flt.eqPi - s.flt.eqCi).toNat = 1024 → s.flt.lastrst ≠ 3 → s.twn.regs.twen = false →
      ∃ t, exec .handler s = .next t ∧ t.flt.lastrst = 3 ∧ t.twn.regs.jstate = .fenced ∧ bit (hdr t .flt).err 0x13 = true ∧
        bit t.glb.intpnd 65 = true ∧ t.vrd.pendFt = true ∧ ∀ l, (lp t l).run = none))
end

