-- ==== Sys2Proof/Laws/State.lean ====
section
/-! SUPPORT. What each named update of the state leaves in each field: one lemma per field and update. -/

namespace Sys2Proof.Machine

/-! ### Vectors -/

theorem vget_vset {α : Type} {n : Nat} (v : Vector α n) (i j : Fin n) (x : α) :
    vget (vset v i x) j = if i = j then x else vget v j := by
  simp [vget, vset, Vector.getElem_set, Fin.ext_iff]

@[simp] theorem vget_map {α β : Type} {n : Nat} (v : Vector α n) (f : α → β) (i : Fin n) : vget (v.map f) i = f (vget v i) := by
  simp [vget]

@[simp] theorem vget_ofFn {α : Type} {n : Nat} (f : Fin n → α) (i : Fin n) : vget (Vector.ofFn f) i = f i := by
  simp [vget]

/-! ### modHdr -/

@[simp] theorem modHdr_pending (s : State) (p : PageId) (f : PageHdr → PageHdr) : (modHdr s p f).pending = s.pending := (rfl)
@[simp] theorem modHdr_glb (s : State) (p : PageId) (f : PageHdr → PageHdr) : (modHdr s p f).glb = s.glb := (rfl)
@[simp] theorem modHdr_sec (s : State) (p : PageId) (f : PageHdr → PageHdr) : (modHdr s p f).sec = s.sec := (rfl)
@[simp] theorem modHdr_pwr (s : State) (p : PageId) (f : PageHdr → PageHdr) : (modHdr s p f).pwr = s.pwr := (rfl)
@[simp] theorem modHdr_tide (s : State) (p : PageId) (f : PageHdr → PageHdr) : (modHdr s p f).tide = s.tide := (rfl)
@[simp] theorem modHdr_flt (s : State) (p : PageId) (f : PageHdr → PageHdr) : (modHdr s p f).flt = s.flt := (rfl)
@[simp] theorem modHdr_vrd (s : State) (p : PageId) (f : PageHdr → PageHdr) : (modHdr s p f).vrd = s.vrd := (rfl)
@[simp] theorem modHdr_sal (s : State) (p : PageId) (f : PageHdr → PageHdr) : (modHdr s p f).sal = s.sal := (rfl)
@[simp] theorem modHdr_twn (s : State) (p : PageId) (f : PageHdr → PageHdr) : (modHdr s p f).twn = s.twn := (rfl)
@[simp] theorem modHdr_lnk (s : State) (p : PageId) (f : PageHdr → PageHdr) : (modHdr s p f).lnk = s.lnk := (rfl)
@[simp] theorem modHdr_hrv (s : State) (p : PageId) (f : PageHdr → PageHdr) : (modHdr s p f).hrv = s.hrv := (rfl)
@[simp] theorem modHdr_rak (s : State) (p : PageId) (f : PageHdr → PageHdr) : (modHdr s p f).rak = s.rak := (rfl)
@[simp] theorem modHdr_pan (s : State) (p : PageId) (f : PageHdr → PageHdr) : (modHdr s p f).pan = s.pan := (rfl)
@[simp] theorem modHdr_lpan (s : State) (p : PageId) (f : PageHdr → PageHdr) : (modHdr s p f).lpan = s.lpan := (rfl)
@[simp] theorem modHdr_qd (s : State) (p : PageId) (f : PageHdr → PageHdr) : (modHdr s p f).qd = s.qd := (rfl)
@[simp] theorem modHdr_slt (s : State) (p : PageId) (f : PageHdr → PageHdr) : (modHdr s p f).slt = s.slt := (rfl)
@[simp] theorem modHdr_tst (s : State) (p : PageId) (f : PageHdr → PageHdr) : (modHdr s p f).tst = s.tst := (rfl)
@[simp] theorem modHdr_wrap (s : State) (p : PageId) (f : PageHdr → PageHdr) : (modHdr s p f).wrap = s.wrap := (rfl)
@[simp] theorem modHdr_pins (s : State) (p : PageId) (f : PageHdr → PageHdr) : (modHdr s p f).pins = s.pins := (rfl)
@[simp] theorem modHdr_hdrs (s : State) (p : PageId) (f : PageHdr → PageHdr) : (modHdr s p f).hdrs = vmod s.hdrs p.ix f := (rfl)
@[simp] theorem modHdr_host (s : State) (p : PageId) (f : PageHdr → PageHdr) : (modHdr s p f).host = s.host := (rfl)
@[simp] theorem modHdr_res (s : State) (p : PageId) (f : PageHdr → PageHdr) : (modHdr s p f).res = s.res := (rfl)
@[simp] theorem modHdr_ckpt (s : State) (p : PageId) (f : PageHdr → PageHdr) : (modHdr s p f).ckpt = s.ckpt := (rfl)
@[simp] theorem modHdr_tail (s : State) (p : PageId) (f : PageHdr → PageHdr) : (modHdr s p f).tail = s.tail := (rfl)
@[simp] theorem modHdr_dir (s : State) (p : PageId) (f : PageHdr → PageHdr) : (modHdr s p f).dir = s.dir := (rfl)
@[simp] theorem modHdr_shard (s : State) (p : PageId) (f : PageHdr → PageHdr) : (modHdr s p f).shard = s.shard := (rfl)
@[simp] theorem modHdr_salino (s : State) (p : PageId) (f : PageHdr → PageHdr) : (modHdr s p f).salino = s.salino := (rfl)
@[simp] theorem modHdr_hist (s : State) (p : PageId) (f : PageHdr → PageHdr) : (modHdr s p f).hist = s.hist := (rfl)
@[simp] theorem modHdr_pond (s : State) (p : PageId) (f : PageHdr → PageHdr) : (modHdr s p f).pond = s.pond := (rfl)
@[simp] theorem modHdr_txns (s : State) (p : PageId) (f : PageHdr → PageHdr) : (modHdr s p f).txns = s.txns := (rfl)
@[simp] theorem modHdr_wear (s : State) (p : PageId) (f : PageHdr → PageHdr) : (modHdr s p f).wear = s.wear := (rfl)
@[simp] theorem modHdr_cp (s : State) (p : PageId) (f : PageHdr → PageHdr) : (modHdr s p f).cp = s.cp := (rfl)
@[simp] theorem modHdr_sent (s : State) (p : PageId) (f : PageHdr → PageHdr) : (modHdr s p f).sent = s.sent := (rfl)
@[simp] theorem modHdr_hostBad (s : State) (p : PageId) (f : PageHdr → PageHdr) : (modHdr s p f).hostBad = s.hostBad := (rfl)
@[simp] theorem modHdr_rbuf (s : State) (p : PageId) (f : PageHdr → PageHdr) : (modHdr s p f).rbuf = s.rbuf := (rfl)
@[simp] theorem modHdr_rgot (s : State) (p : PageId) (f : PageHdr → PageHdr) : (modHdr s p f).rgot = s.rgot := (rfl)
@[simp] theorem modHdr_rfail (s : State) (p : PageId) (f : PageHdr → PageHdr) : (modHdr s p f).rfail = s.rfail := (rfl)
@[simp] theorem modHdr_miss (s : State) (p : PageId) (f : PageHdr → PageHdr) : (modHdr s p f).miss = s.miss := (rfl)
@[simp] theorem modHdr_rused (s : State) (p : PageId) (f : PageHdr → PageHdr) : (modHdr s p f).rused = s.rused := (rfl)
@[simp] theorem modHdr_rout (s : State) (p : PageId) (f : PageHdr → PageHdr) : (modHdr s p f).rout = s.rout := (rfl)
@[simp] theorem modHdr_who (s : State) (p : PageId) (f : PageHdr → PageHdr) : (modHdr s p f).who = s.who := (rfl)
@[simp] theorem modHdr_rsv (s : State) (p : PageId) (f : PageHdr → PageHdr) : (modHdr s p f).rsv = s.rsv := (rfl)
@[simp] theorem modHdr_stall (s : State) (p : PageId) (f : PageHdr → PageHdr) : (modHdr s p f).stall = s.stall := (rfl)
@[simp] theorem modHdr_grants (s : State) (p : PageId) (f : PageHdr → PageHdr) : (modHdr s p f).grants = s.grants := (rfl)
@[simp] theorem modHdr_free (s : State) (p : PageId) (f : PageHdr → PageHdr) : (modHdr s p f).free = s.free := (rfl)

/-! ### modLp -/

@[simp] theorem modLp_pending (s : State) (l : Fin 60) (f : LPan → LPan) : (modLp s l f).pending = s.pending := (rfl)
@[simp] theorem modLp_glb (s : State) (l : Fin 60) (f : LPan → LPan) : (modLp s l f).glb = s.glb := (rfl)
@[simp] theorem modLp_sec (s : State) (l : Fin 60) (f : LPan → LPan) : (modLp s l f).sec = s.sec := (rfl)
@[simp] theorem modLp_pwr (s : State) (l : Fin 60) (f : LPan → LPan) : (modLp s l f).pwr = s.pwr := (rfl)
@[simp] theorem modLp_tide (s : State) (l : Fin 60) (f : LPan → LPan) : (modLp s l f).tide = s.tide := (rfl)
@[simp] theorem modLp_flt (s : State) (l : Fin 60) (f : LPan → LPan) : (modLp s l f).flt = s.flt := (rfl)
@[simp] theorem modLp_vrd (s : State) (l : Fin 60) (f : LPan → LPan) : (modLp s l f).vrd = s.vrd := (rfl)
@[simp] theorem modLp_sal (s : State) (l : Fin 60) (f : LPan → LPan) : (modLp s l f).sal = s.sal := (rfl)
@[simp] theorem modLp_twn (s : State) (l : Fin 60) (f : LPan → LPan) : (modLp s l f).twn = s.twn := (rfl)
@[simp] theorem modLp_lnk (s : State) (l : Fin 60) (f : LPan → LPan) : (modLp s l f).lnk = s.lnk := (rfl)
@[simp] theorem modLp_hrv (s : State) (l : Fin 60) (f : LPan → LPan) : (modLp s l f).hrv = s.hrv := (rfl)
@[simp] theorem modLp_rak (s : State) (l : Fin 60) (f : LPan → LPan) : (modLp s l f).rak = s.rak := (rfl)
@[simp] theorem modLp_pan (s : State) (l : Fin 60) (f : LPan → LPan) : (modLp s l f).pan = s.pan := (rfl)
@[simp] theorem modLp_lpan (s : State) (l : Fin 60) (f : LPan → LPan) : (modLp s l f).lpan = vmod s.lpan l f := (rfl)
@[simp] theorem modLp_qd (s : State) (l : Fin 60) (f : LPan → LPan) : (modLp s l f).qd = s.qd := (rfl)
@[simp] theorem modLp_slt (s : State) (l : Fin 60) (f : LPan → LPan) : (modLp s l f).slt = s.slt := (rfl)
@[simp] theorem modLp_tst (s : State) (l : Fin 60) (f : LPan → LPan) : (modLp s l f).tst = s.tst := (rfl)
@[simp] theorem modLp_wrap (s : State) (l : Fin 60) (f : LPan → LPan) : (modLp s l f).wrap = s.wrap := (rfl)
@[simp] theorem modLp_pins (s : State) (l : Fin 60) (f : LPan → LPan) : (modLp s l f).pins = s.pins := (rfl)
@[simp] theorem modLp_hdrs (s : State) (l : Fin 60) (f : LPan → LPan) : (modLp s l f).hdrs = s.hdrs := (rfl)
@[simp] theorem modLp_host (s : State) (l : Fin 60) (f : LPan → LPan) : (modLp s l f).host = s.host := (rfl)
@[simp] theorem modLp_res (s : State) (l : Fin 60) (f : LPan → LPan) : (modLp s l f).res = s.res := (rfl)
@[simp] theorem modLp_ckpt (s : State) (l : Fin 60) (f : LPan → LPan) : (modLp s l f).ckpt = s.ckpt := (rfl)
@[simp] theorem modLp_tail (s : State) (l : Fin 60) (f : LPan → LPan) : (modLp s l f).tail = s.tail := (rfl)
@[simp] theorem modLp_dir (s : State) (l : Fin 60) (f : LPan → LPan) : (modLp s l f).dir = s.dir := (rfl)
@[simp] theorem modLp_shard (s : State) (l : Fin 60) (f : LPan → LPan) : (modLp s l f).shard = s.shard := (rfl)
@[simp] theorem modLp_salino (s : State) (l : Fin 60) (f : LPan → LPan) : (modLp s l f).salino = s.salino := (rfl)
@[simp] theorem modLp_hist (s : State) (l : Fin 60) (f : LPan → LPan) : (modLp s l f).hist = s.hist := (rfl)
@[simp] theorem modLp_pond (s : State) (l : Fin 60) (f : LPan → LPan) : (modLp s l f).pond = s.pond := (rfl)
@[simp] theorem modLp_txns (s : State) (l : Fin 60) (f : LPan → LPan) : (modLp s l f).txns = s.txns := (rfl)
@[simp] theorem modLp_wear (s : State) (l : Fin 60) (f : LPan → LPan) : (modLp s l f).wear = s.wear := (rfl)
@[simp] theorem modLp_cp (s : State) (l : Fin 60) (f : LPan → LPan) : (modLp s l f).cp = s.cp := (rfl)
@[simp] theorem modLp_sent (s : State) (l : Fin 60) (f : LPan → LPan) : (modLp s l f).sent = s.sent := (rfl)
@[simp] theorem modLp_hostBad (s : State) (l : Fin 60) (f : LPan → LPan) : (modLp s l f).hostBad = s.hostBad := (rfl)
@[simp] theorem modLp_rbuf (s : State) (l : Fin 60) (f : LPan → LPan) : (modLp s l f).rbuf = s.rbuf := (rfl)
@[simp] theorem modLp_rgot (s : State) (l : Fin 60) (f : LPan → LPan) : (modLp s l f).rgot = s.rgot := (rfl)
@[simp] theorem modLp_rfail (s : State) (l : Fin 60) (f : LPan → LPan) : (modLp s l f).rfail = s.rfail := (rfl)
@[simp] theorem modLp_miss (s : State) (l : Fin 60) (f : LPan → LPan) : (modLp s l f).miss = s.miss := (rfl)
@[simp] theorem modLp_rused (s : State) (l : Fin 60) (f : LPan → LPan) : (modLp s l f).rused = s.rused := (rfl)
@[simp] theorem modLp_rout (s : State) (l : Fin 60) (f : LPan → LPan) : (modLp s l f).rout = s.rout := (rfl)
@[simp] theorem modLp_who (s : State) (l : Fin 60) (f : LPan → LPan) : (modLp s l f).who = s.who := (rfl)
@[simp] theorem modLp_rsv (s : State) (l : Fin 60) (f : LPan → LPan) : (modLp s l f).rsv = s.rsv := (rfl)
@[simp] theorem modLp_stall (s : State) (l : Fin 60) (f : LPan → LPan) : (modLp s l f).stall = s.stall := (rfl)
@[simp] theorem modLp_grants (s : State) (l : Fin 60) (f : LPan → LPan) : (modLp s l f).grants = s.grants := (rfl)
@[simp] theorem modLp_free (s : State) (l : Fin 60) (f : LPan → LPan) : (modLp s l f).free = s.free := (rfl)

/-! ### modPan -/

@[simp] theorem modPan_pending (s : State) (p : Fin 64) (f : Pan → Pan) : (modPan s p f).pending = s.pending := (rfl)
@[simp] theorem modPan_glb (s : State) (p : Fin 64) (f : Pan → Pan) : (modPan s p f).glb = s.glb := (rfl)
@[simp] theorem modPan_sec (s : State) (p : Fin 64) (f : Pan → Pan) : (modPan s p f).sec = s.sec := (rfl)
@[simp] theorem modPan_pwr (s : State) (p : Fin 64) (f : Pan → Pan) : (modPan s p f).pwr = s.pwr := (rfl)
@[simp] theorem modPan_tide (s : State) (p : Fin 64) (f : Pan → Pan) : (modPan s p f).tide = s.tide := (rfl)
@[simp] theorem modPan_flt (s : State) (p : Fin 64) (f : Pan → Pan) : (modPan s p f).flt = s.flt := (rfl)
@[simp] theorem modPan_vrd (s : State) (p : Fin 64) (f : Pan → Pan) : (modPan s p f).vrd = s.vrd := (rfl)
@[simp] theorem modPan_sal (s : State) (p : Fin 64) (f : Pan → Pan) : (modPan s p f).sal = s.sal := (rfl)
@[simp] theorem modPan_twn (s : State) (p : Fin 64) (f : Pan → Pan) : (modPan s p f).twn = s.twn := (rfl)
@[simp] theorem modPan_lnk (s : State) (p : Fin 64) (f : Pan → Pan) : (modPan s p f).lnk = s.lnk := (rfl)
@[simp] theorem modPan_hrv (s : State) (p : Fin 64) (f : Pan → Pan) : (modPan s p f).hrv = s.hrv := (rfl)
@[simp] theorem modPan_rak (s : State) (p : Fin 64) (f : Pan → Pan) : (modPan s p f).rak = s.rak := (rfl)
@[simp] theorem modPan_pan (s : State) (p : Fin 64) (f : Pan → Pan) : (modPan s p f).pan = vmod s.pan p f := (rfl)
@[simp] theorem modPan_lpan (s : State) (p : Fin 64) (f : Pan → Pan) : (modPan s p f).lpan = s.lpan := (rfl)
@[simp] theorem modPan_qd (s : State) (p : Fin 64) (f : Pan → Pan) : (modPan s p f).qd = s.qd := (rfl)
@[simp] theorem modPan_slt (s : State) (p : Fin 64) (f : Pan → Pan) : (modPan s p f).slt = s.slt := (rfl)
@[simp] theorem modPan_tst (s : State) (p : Fin 64) (f : Pan → Pan) : (modPan s p f).tst = s.tst := (rfl)
@[simp] theorem modPan_wrap (s : State) (p : Fin 64) (f : Pan → Pan) : (modPan s p f).wrap = s.wrap := (rfl)
@[simp] theorem modPan_pins (s : State) (p : Fin 64) (f : Pan → Pan) : (modPan s p f).pins = s.pins := (rfl)
@[simp] theorem modPan_hdrs (s : State) (p : Fin 64) (f : Pan → Pan) : (modPan s p f).hdrs = s.hdrs := (rfl)
@[simp] theorem modPan_host (s : State) (p : Fin 64) (f : Pan → Pan) : (modPan s p f).host = s.host := (rfl)
@[simp] theorem modPan_res (s : State) (p : Fin 64) (f : Pan → Pan) : (modPan s p f).res = s.res := (rfl)
@[simp] theorem modPan_ckpt (s : State) (p : Fin 64) (f : Pan → Pan) : (modPan s p f).ckpt = s.ckpt := (rfl)
@[simp] theorem modPan_tail (s : State) (p : Fin 64) (f : Pan → Pan) : (modPan s p f).tail = s.tail := (rfl)
@[simp] theorem modPan_dir (s : State) (p : Fin 64) (f : Pan → Pan) : (modPan s p f).dir = s.dir := (rfl)
@[simp] theorem modPan_shard (s : State) (p : Fin 64) (f : Pan → Pan) : (modPan s p f).shard = s.shard := (rfl)
@[simp] theorem modPan_salino (s : State) (p : Fin 64) (f : Pan → Pan) : (modPan s p f).salino = s.salino := (rfl)
@[simp] theorem modPan_hist (s : State) (p : Fin 64) (f : Pan → Pan) : (modPan s p f).hist = s.hist := (rfl)
@[simp] theorem modPan_pond (s : State) (p : Fin 64) (f : Pan → Pan) : (modPan s p f).pond = s.pond := (rfl)
@[simp] theorem modPan_txns (s : State) (p : Fin 64) (f : Pan → Pan) : (modPan s p f).txns = s.txns := (rfl)
@[simp] theorem modPan_wear (s : State) (p : Fin 64) (f : Pan → Pan) : (modPan s p f).wear = s.wear := (rfl)
@[simp] theorem modPan_cp (s : State) (p : Fin 64) (f : Pan → Pan) : (modPan s p f).cp = s.cp := (rfl)
@[simp] theorem modPan_sent (s : State) (p : Fin 64) (f : Pan → Pan) : (modPan s p f).sent = s.sent := (rfl)
@[simp] theorem modPan_hostBad (s : State) (p : Fin 64) (f : Pan → Pan) : (modPan s p f).hostBad = s.hostBad := (rfl)
@[simp] theorem modPan_rbuf (s : State) (p : Fin 64) (f : Pan → Pan) : (modPan s p f).rbuf = s.rbuf := (rfl)
@[simp] theorem modPan_rgot (s : State) (p : Fin 64) (f : Pan → Pan) : (modPan s p f).rgot = s.rgot := (rfl)
@[simp] theorem modPan_rfail (s : State) (p : Fin 64) (f : Pan → Pan) : (modPan s p f).rfail = s.rfail := (rfl)
@[simp] theorem modPan_miss (s : State) (p : Fin 64) (f : Pan → Pan) : (modPan s p f).miss = s.miss := (rfl)
@[simp] theorem modPan_rused (s : State) (p : Fin 64) (f : Pan → Pan) : (modPan s p f).rused = s.rused := (rfl)
@[simp] theorem modPan_rout (s : State) (p : Fin 64) (f : Pan → Pan) : (modPan s p f).rout = s.rout := (rfl)
@[simp] theorem modPan_who (s : State) (p : Fin 64) (f : Pan → Pan) : (modPan s p f).who = s.who := (rfl)
@[simp] theorem modPan_rsv (s : State) (p : Fin 64) (f : Pan → Pan) : (modPan s p f).rsv = s.rsv := (rfl)
@[simp] theorem modPan_stall (s : State) (p : Fin 64) (f : Pan → Pan) : (modPan s p f).stall = s.stall := (rfl)
@[simp] theorem modPan_grants (s : State) (p : Fin 64) (f : Pan → Pan) : (modPan s p f).grants = s.grants := (rfl)
@[simp] theorem modPan_free (s : State) (p : Fin 64) (f : Pan → Pan) : (modPan s p f).free = s.free := (rfl)

/-! ### modEng -/

@[simp] theorem modEng_pending (s : State) (n : Fin 8) (f : Hrv → Hrv) : (modEng s n f).pending = s.pending := (rfl)
@[simp] theorem modEng_glb (s : State) (n : Fin 8) (f : Hrv → Hrv) : (modEng s n f).glb = s.glb := (rfl)
@[simp] theorem modEng_sec (s : State) (n : Fin 8) (f : Hrv → Hrv) : (modEng s n f).sec = s.sec := (rfl)
@[simp] theorem modEng_pwr (s : State) (n : Fin 8) (f : Hrv → Hrv) : (modEng s n f).pwr = s.pwr := (rfl)
@[simp] theorem modEng_tide (s : State) (n : Fin 8) (f : Hrv → Hrv) : (modEng s n f).tide = s.tide := (rfl)
@[simp] theorem modEng_flt (s : State) (n : Fin 8) (f : Hrv → Hrv) : (modEng s n f).flt = s.flt := (rfl)
@[simp] theorem modEng_vrd (s : State) (n : Fin 8) (f : Hrv → Hrv) : (modEng s n f).vrd = s.vrd := (rfl)
@[simp] theorem modEng_sal (s : State) (n : Fin 8) (f : Hrv → Hrv) : (modEng s n f).sal = s.sal := (rfl)
@[simp] theorem modEng_twn (s : State) (n : Fin 8) (f : Hrv → Hrv) : (modEng s n f).twn = s.twn := (rfl)
@[simp] theorem modEng_lnk (s : State) (n : Fin 8) (f : Hrv → Hrv) : (modEng s n f).lnk = s.lnk := (rfl)
@[simp] theorem modEng_hrv (s : State) (n : Fin 8) (f : Hrv → Hrv) : (modEng s n f).hrv = vmod s.hrv n f := (rfl)
@[simp] theorem modEng_rak (s : State) (n : Fin 8) (f : Hrv → Hrv) : (modEng s n f).rak = s.rak := (rfl)
@[simp] theorem modEng_pan (s : State) (n : Fin 8) (f : Hrv → Hrv) : (modEng s n f).pan = s.pan := (rfl)
@[simp] theorem modEng_lpan (s : State) (n : Fin 8) (f : Hrv → Hrv) : (modEng s n f).lpan = s.lpan := (rfl)
@[simp] theorem modEng_qd (s : State) (n : Fin 8) (f : Hrv → Hrv) : (modEng s n f).qd = s.qd := (rfl)
@[simp] theorem modEng_slt (s : State) (n : Fin 8) (f : Hrv → Hrv) : (modEng s n f).slt = s.slt := (rfl)
@[simp] theorem modEng_tst (s : State) (n : Fin 8) (f : Hrv → Hrv) : (modEng s n f).tst = s.tst := (rfl)
@[simp] theorem modEng_wrap (s : State) (n : Fin 8) (f : Hrv → Hrv) : (modEng s n f).wrap = s.wrap := (rfl)
@[simp] theorem modEng_pins (s : State) (n : Fin 8) (f : Hrv → Hrv) : (modEng s n f).pins = s.pins := (rfl)
@[simp] theorem modEng_hdrs (s : State) (n : Fin 8) (f : Hrv → Hrv) : (modEng s n f).hdrs = s.hdrs := (rfl)
@[simp] theorem modEng_host (s : State) (n : Fin 8) (f : Hrv → Hrv) : (modEng s n f).host = s.host := (rfl)
@[simp] theorem modEng_res (s : State) (n : Fin 8) (f : Hrv → Hrv) : (modEng s n f).res = s.res := (rfl)
@[simp] theorem modEng_ckpt (s : State) (n : Fin 8) (f : Hrv → Hrv) : (modEng s n f).ckpt = s.ckpt := (rfl)
@[simp] theorem modEng_tail (s : State) (n : Fin 8) (f : Hrv → Hrv) : (modEng s n f).tail = s.tail := (rfl)
@[simp] theorem modEng_dir (s : State) (n : Fin 8) (f : Hrv → Hrv) : (modEng s n f).dir = s.dir := (rfl)
@[simp] theorem modEng_shard (s : State) (n : Fin 8) (f : Hrv → Hrv) : (modEng s n f).shard = s.shard := (rfl)
@[simp] theorem modEng_salino (s : State) (n : Fin 8) (f : Hrv → Hrv) : (modEng s n f).salino = s.salino := (rfl)
@[simp] theorem modEng_hist (s : State) (n : Fin 8) (f : Hrv → Hrv) : (modEng s n f).hist = s.hist := (rfl)
@[simp] theorem modEng_pond (s : State) (n : Fin 8) (f : Hrv → Hrv) : (modEng s n f).pond = s.pond := (rfl)
@[simp] theorem modEng_txns (s : State) (n : Fin 8) (f : Hrv → Hrv) : (modEng s n f).txns = s.txns := (rfl)
@[simp] theorem modEng_wear (s : State) (n : Fin 8) (f : Hrv → Hrv) : (modEng s n f).wear = s.wear := (rfl)
@[simp] theorem modEng_cp (s : State) (n : Fin 8) (f : Hrv → Hrv) : (modEng s n f).cp = s.cp := (rfl)
@[simp] theorem modEng_sent (s : State) (n : Fin 8) (f : Hrv → Hrv) : (modEng s n f).sent = s.sent := (rfl)
@[simp] theorem modEng_hostBad (s : State) (n : Fin 8) (f : Hrv → Hrv) : (modEng s n f).hostBad = s.hostBad := (rfl)
@[simp] theorem modEng_rbuf (s : State) (n : Fin 8) (f : Hrv → Hrv) : (modEng s n f).rbuf = s.rbuf := (rfl)
@[simp] theorem modEng_rgot (s : State) (n : Fin 8) (f : Hrv → Hrv) : (modEng s n f).rgot = s.rgot := (rfl)
@[simp] theorem modEng_rfail (s : State) (n : Fin 8) (f : Hrv → Hrv) : (modEng s n f).rfail = s.rfail := (rfl)
@[simp] theorem modEng_miss (s : State) (n : Fin 8) (f : Hrv → Hrv) : (modEng s n f).miss = s.miss := (rfl)
@[simp] theorem modEng_rused (s : State) (n : Fin 8) (f : Hrv → Hrv) : (modEng s n f).rused = s.rused := (rfl)
@[simp] theorem modEng_rout (s : State) (n : Fin 8) (f : Hrv → Hrv) : (modEng s n f).rout = s.rout := (rfl)
@[simp] theorem modEng_who (s : State) (n : Fin 8) (f : Hrv → Hrv) : (modEng s n f).who = s.who := (rfl)
@[simp] theorem modEng_rsv (s : State) (n : Fin 8) (f : Hrv → Hrv) : (modEng s n f).rsv = s.rsv := (rfl)
@[simp] theorem modEng_stall (s : State) (n : Fin 8) (f : Hrv → Hrv) : (modEng s n f).stall = s.stall := (rfl)
@[simp] theorem modEng_grants (s : State) (n : Fin 8) (f : Hrv → Hrv) : (modEng s n f).grants = s.grants := (rfl)
@[simp] theorem modEng_free (s : State) (n : Fin 8) (f : Hrv → Hrv) : (modEng s n f).free = s.free := (rfl)

/-! ### modSlt -/

@[simp] theorem modSlt_pending (s : State) (n : Fin 8) (f : Slt → Slt) : (modSlt s n f).pending = s.pending := (rfl)
@[simp] theorem modSlt_glb (s : State) (n : Fin 8) (f : Slt → Slt) : (modSlt s n f).glb = s.glb := (rfl)
@[simp] theorem modSlt_sec (s : State) (n : Fin 8) (f : Slt → Slt) : (modSlt s n f).sec = s.sec := (rfl)
@[simp] theorem modSlt_pwr (s : State) (n : Fin 8) (f : Slt → Slt) : (modSlt s n f).pwr = s.pwr := (rfl)
@[simp] theorem modSlt_tide (s : State) (n : Fin 8) (f : Slt → Slt) : (modSlt s n f).tide = s.tide := (rfl)
@[simp] theorem modSlt_flt (s : State) (n : Fin 8) (f : Slt → Slt) : (modSlt s n f).flt = s.flt := (rfl)
@[simp] theorem modSlt_vrd (s : State) (n : Fin 8) (f : Slt → Slt) : (modSlt s n f).vrd = s.vrd := (rfl)
@[simp] theorem modSlt_sal (s : State) (n : Fin 8) (f : Slt → Slt) : (modSlt s n f).sal = s.sal := (rfl)
@[simp] theorem modSlt_twn (s : State) (n : Fin 8) (f : Slt → Slt) : (modSlt s n f).twn = s.twn := (rfl)
@[simp] theorem modSlt_lnk (s : State) (n : Fin 8) (f : Slt → Slt) : (modSlt s n f).lnk = s.lnk := (rfl)
@[simp] theorem modSlt_hrv (s : State) (n : Fin 8) (f : Slt → Slt) : (modSlt s n f).hrv = s.hrv := (rfl)
@[simp] theorem modSlt_rak (s : State) (n : Fin 8) (f : Slt → Slt) : (modSlt s n f).rak = s.rak := (rfl)
@[simp] theorem modSlt_pan (s : State) (n : Fin 8) (f : Slt → Slt) : (modSlt s n f).pan = s.pan := (rfl)
@[simp] theorem modSlt_lpan (s : State) (n : Fin 8) (f : Slt → Slt) : (modSlt s n f).lpan = s.lpan := (rfl)
@[simp] theorem modSlt_qd (s : State) (n : Fin 8) (f : Slt → Slt) : (modSlt s n f).qd = s.qd := (rfl)
@[simp] theorem modSlt_slt (s : State) (n : Fin 8) (f : Slt → Slt) : (modSlt s n f).slt = vmod s.slt n f := (rfl)
@[simp] theorem modSlt_tst (s : State) (n : Fin 8) (f : Slt → Slt) : (modSlt s n f).tst = s.tst := (rfl)
@[simp] theorem modSlt_wrap (s : State) (n : Fin 8) (f : Slt → Slt) : (modSlt s n f).wrap = s.wrap := (rfl)
@[simp] theorem modSlt_pins (s : State) (n : Fin 8) (f : Slt → Slt) : (modSlt s n f).pins = s.pins := (rfl)
@[simp] theorem modSlt_hdrs (s : State) (n : Fin 8) (f : Slt → Slt) : (modSlt s n f).hdrs = s.hdrs := (rfl)
@[simp] theorem modSlt_host (s : State) (n : Fin 8) (f : Slt → Slt) : (modSlt s n f).host = s.host := (rfl)
@[simp] theorem modSlt_res (s : State) (n : Fin 8) (f : Slt → Slt) : (modSlt s n f).res = s.res := (rfl)
@[simp] theorem modSlt_ckpt (s : State) (n : Fin 8) (f : Slt → Slt) : (modSlt s n f).ckpt = s.ckpt := (rfl)
@[simp] theorem modSlt_tail (s : State) (n : Fin 8) (f : Slt → Slt) : (modSlt s n f).tail = s.tail := (rfl)
@[simp] theorem modSlt_dir (s : State) (n : Fin 8) (f : Slt → Slt) : (modSlt s n f).dir = s.dir := (rfl)
@[simp] theorem modSlt_shard (s : State) (n : Fin 8) (f : Slt → Slt) : (modSlt s n f).shard = s.shard := (rfl)
@[simp] theorem modSlt_salino (s : State) (n : Fin 8) (f : Slt → Slt) : (modSlt s n f).salino = s.salino := (rfl)
@[simp] theorem modSlt_hist (s : State) (n : Fin 8) (f : Slt → Slt) : (modSlt s n f).hist = s.hist := (rfl)
@[simp] theorem modSlt_pond (s : State) (n : Fin 8) (f : Slt → Slt) : (modSlt s n f).pond = s.pond := (rfl)
@[simp] theorem modSlt_txns (s : State) (n : Fin 8) (f : Slt → Slt) : (modSlt s n f).txns = s.txns := (rfl)
@[simp] theorem modSlt_wear (s : State) (n : Fin 8) (f : Slt → Slt) : (modSlt s n f).wear = s.wear := (rfl)
@[simp] theorem modSlt_cp (s : State) (n : Fin 8) (f : Slt → Slt) : (modSlt s n f).cp = s.cp := (rfl)
@[simp] theorem modSlt_sent (s : State) (n : Fin 8) (f : Slt → Slt) : (modSlt s n f).sent = s.sent := (rfl)
@[simp] theorem modSlt_hostBad (s : State) (n : Fin 8) (f : Slt → Slt) : (modSlt s n f).hostBad = s.hostBad := (rfl)
@[simp] theorem modSlt_rbuf (s : State) (n : Fin 8) (f : Slt → Slt) : (modSlt s n f).rbuf = s.rbuf := (rfl)
@[simp] theorem modSlt_rgot (s : State) (n : Fin 8) (f : Slt → Slt) : (modSlt s n f).rgot = s.rgot := (rfl)
@[simp] theorem modSlt_rfail (s : State) (n : Fin 8) (f : Slt → Slt) : (modSlt s n f).rfail = s.rfail := (rfl)
@[simp] theorem modSlt_miss (s : State) (n : Fin 8) (f : Slt → Slt) : (modSlt s n f).miss = s.miss := (rfl)
@[simp] theorem modSlt_rused (s : State) (n : Fin 8) (f : Slt → Slt) : (modSlt s n f).rused = s.rused := (rfl)
@[simp] theorem modSlt_rout (s : State) (n : Fin 8) (f : Slt → Slt) : (modSlt s n f).rout = s.rout := (rfl)
@[simp] theorem modSlt_who (s : State) (n : Fin 8) (f : Slt → Slt) : (modSlt s n f).who = s.who := (rfl)
@[simp] theorem modSlt_rsv (s : State) (n : Fin 8) (f : Slt → Slt) : (modSlt s n f).rsv = s.rsv := (rfl)
@[simp] theorem modSlt_stall (s : State) (n : Fin 8) (f : Slt → Slt) : (modSlt s n f).stall = s.stall := (rfl)
@[simp] theorem modSlt_grants (s : State) (n : Fin 8) (f : Slt → Slt) : (modSlt s n f).grants = s.grants := (rfl)
@[simp] theorem modSlt_free (s : State) (n : Fin 8) (f : Slt → Slt) : (modSlt s n f).free = s.free := (rfl)

/-! ### modLk -/

@[simp] theorem modLk_pending (s : State) (k : Fin 8) (f : Lnk → Lnk) : (modLk s k f).pending = s.pending := (rfl)
@[simp] theorem modLk_glb (s : State) (k : Fin 8) (f : Lnk → Lnk) : (modLk s k f).glb = s.glb := (rfl)
@[simp] theorem modLk_sec (s : State) (k : Fin 8) (f : Lnk → Lnk) : (modLk s k f).sec = s.sec := (rfl)
@[simp] theorem modLk_pwr (s : State) (k : Fin 8) (f : Lnk → Lnk) : (modLk s k f).pwr = s.pwr := (rfl)
@[simp] theorem modLk_tide (s : State) (k : Fin 8) (f : Lnk → Lnk) : (modLk s k f).tide = s.tide := (rfl)
@[simp] theorem modLk_flt (s : State) (k : Fin 8) (f : Lnk → Lnk) : (modLk s k f).flt = s.flt := (rfl)
@[simp] theorem modLk_vrd (s : State) (k : Fin 8) (f : Lnk → Lnk) : (modLk s k f).vrd = s.vrd := (rfl)
@[simp] theorem modLk_sal (s : State) (k : Fin 8) (f : Lnk → Lnk) : (modLk s k f).sal = s.sal := (rfl)
@[simp] theorem modLk_twn (s : State) (k : Fin 8) (f : Lnk → Lnk) : (modLk s k f).twn = s.twn := (rfl)
@[simp] theorem modLk_lnk (s : State) (k : Fin 8) (f : Lnk → Lnk) : (modLk s k f).lnk = vmod s.lnk k f := (rfl)
@[simp] theorem modLk_hrv (s : State) (k : Fin 8) (f : Lnk → Lnk) : (modLk s k f).hrv = s.hrv := (rfl)
@[simp] theorem modLk_rak (s : State) (k : Fin 8) (f : Lnk → Lnk) : (modLk s k f).rak = s.rak := (rfl)
@[simp] theorem modLk_pan (s : State) (k : Fin 8) (f : Lnk → Lnk) : (modLk s k f).pan = s.pan := (rfl)
@[simp] theorem modLk_lpan (s : State) (k : Fin 8) (f : Lnk → Lnk) : (modLk s k f).lpan = s.lpan := (rfl)
@[simp] theorem modLk_qd (s : State) (k : Fin 8) (f : Lnk → Lnk) : (modLk s k f).qd = s.qd := (rfl)
@[simp] theorem modLk_slt (s : State) (k : Fin 8) (f : Lnk → Lnk) : (modLk s k f).slt = s.slt := (rfl)
@[simp] theorem modLk_tst (s : State) (k : Fin 8) (f : Lnk → Lnk) : (modLk s k f).tst = s.tst := (rfl)
@[simp] theorem modLk_wrap (s : State) (k : Fin 8) (f : Lnk → Lnk) : (modLk s k f).wrap = s.wrap := (rfl)
@[simp] theorem modLk_pins (s : State) (k : Fin 8) (f : Lnk → Lnk) : (modLk s k f).pins = s.pins := (rfl)
@[simp] theorem modLk_hdrs (s : State) (k : Fin 8) (f : Lnk → Lnk) : (modLk s k f).hdrs = s.hdrs := (rfl)
@[simp] theorem modLk_host (s : State) (k : Fin 8) (f : Lnk → Lnk) : (modLk s k f).host = s.host := (rfl)
@[simp] theorem modLk_res (s : State) (k : Fin 8) (f : Lnk → Lnk) : (modLk s k f).res = s.res := (rfl)
@[simp] theorem modLk_ckpt (s : State) (k : Fin 8) (f : Lnk → Lnk) : (modLk s k f).ckpt = s.ckpt := (rfl)
@[simp] theorem modLk_tail (s : State) (k : Fin 8) (f : Lnk → Lnk) : (modLk s k f).tail = s.tail := (rfl)
@[simp] theorem modLk_dir (s : State) (k : Fin 8) (f : Lnk → Lnk) : (modLk s k f).dir = s.dir := (rfl)
@[simp] theorem modLk_shard (s : State) (k : Fin 8) (f : Lnk → Lnk) : (modLk s k f).shard = s.shard := (rfl)
@[simp] theorem modLk_salino (s : State) (k : Fin 8) (f : Lnk → Lnk) : (modLk s k f).salino = s.salino := (rfl)
@[simp] theorem modLk_hist (s : State) (k : Fin 8) (f : Lnk → Lnk) : (modLk s k f).hist = s.hist := (rfl)
@[simp] theorem modLk_pond (s : State) (k : Fin 8) (f : Lnk → Lnk) : (modLk s k f).pond = s.pond := (rfl)
@[simp] theorem modLk_txns (s : State) (k : Fin 8) (f : Lnk → Lnk) : (modLk s k f).txns = s.txns := (rfl)
@[simp] theorem modLk_wear (s : State) (k : Fin 8) (f : Lnk → Lnk) : (modLk s k f).wear = s.wear := (rfl)
@[simp] theorem modLk_cp (s : State) (k : Fin 8) (f : Lnk → Lnk) : (modLk s k f).cp = s.cp := (rfl)
@[simp] theorem modLk_sent (s : State) (k : Fin 8) (f : Lnk → Lnk) : (modLk s k f).sent = s.sent := (rfl)
@[simp] theorem modLk_hostBad (s : State) (k : Fin 8) (f : Lnk → Lnk) : (modLk s k f).hostBad = s.hostBad := (rfl)
@[simp] theorem modLk_rbuf (s : State) (k : Fin 8) (f : Lnk → Lnk) : (modLk s k f).rbuf = s.rbuf := (rfl)
@[simp] theorem modLk_rgot (s : State) (k : Fin 8) (f : Lnk → Lnk) : (modLk s k f).rgot = s.rgot := (rfl)
@[simp] theorem modLk_rfail (s : State) (k : Fin 8) (f : Lnk → Lnk) : (modLk s k f).rfail = s.rfail := (rfl)
@[simp] theorem modLk_miss (s : State) (k : Fin 8) (f : Lnk → Lnk) : (modLk s k f).miss = s.miss := (rfl)
@[simp] theorem modLk_rused (s : State) (k : Fin 8) (f : Lnk → Lnk) : (modLk s k f).rused = s.rused := (rfl)
@[simp] theorem modLk_rout (s : State) (k : Fin 8) (f : Lnk → Lnk) : (modLk s k f).rout = s.rout := (rfl)
@[simp] theorem modLk_who (s : State) (k : Fin 8) (f : Lnk → Lnk) : (modLk s k f).who = s.who := (rfl)
@[simp] theorem modLk_rsv (s : State) (k : Fin 8) (f : Lnk → Lnk) : (modLk s k f).rsv = s.rsv := (rfl)
@[simp] theorem modLk_stall (s : State) (k : Fin 8) (f : Lnk → Lnk) : (modLk s k f).stall = s.stall := (rfl)
@[simp] theorem modLk_grants (s : State) (k : Fin 8) (f : Lnk → Lnk) : (modLk s k f).grants = s.grants := (rfl)
@[simp] theorem modLk_free (s : State) (k : Fin 8) (f : Lnk → Lnk) : (modLk s k f).free = s.free := (rfl)

/-! ### modQd -/

@[simp] theorem modQd_pending (s : State) (q : Fin 16) (f : Qd → Qd) : (modQd s q f).pending = s.pending := (rfl)
@[simp] theorem modQd_glb (s : State) (q : Fin 16) (f : Qd → Qd) : (modQd s q f).glb = s.glb := (rfl)
@[simp] theorem modQd_sec (s : State) (q : Fin 16) (f : Qd → Qd) : (modQd s q f).sec = s.sec := (rfl)
@[simp] theorem modQd_pwr (s : State) (q : Fin 16) (f : Qd → Qd) : (modQd s q f).pwr = s.pwr := (rfl)
@[simp] theorem modQd_tide (s : State) (q : Fin 16) (f : Qd → Qd) : (modQd s q f).tide = s.tide := (rfl)
@[simp] theorem modQd_flt (s : State) (q : Fin 16) (f : Qd → Qd) : (modQd s q f).flt = s.flt := (rfl)
@[simp] theorem modQd_vrd (s : State) (q : Fin 16) (f : Qd → Qd) : (modQd s q f).vrd = s.vrd := (rfl)
@[simp] theorem modQd_sal (s : State) (q : Fin 16) (f : Qd → Qd) : (modQd s q f).sal = s.sal := (rfl)
@[simp] theorem modQd_twn (s : State) (q : Fin 16) (f : Qd → Qd) : (modQd s q f).twn = s.twn := (rfl)
@[simp] theorem modQd_lnk (s : State) (q : Fin 16) (f : Qd → Qd) : (modQd s q f).lnk = s.lnk := (rfl)
@[simp] theorem modQd_hrv (s : State) (q : Fin 16) (f : Qd → Qd) : (modQd s q f).hrv = s.hrv := (rfl)
@[simp] theorem modQd_rak (s : State) (q : Fin 16) (f : Qd → Qd) : (modQd s q f).rak = s.rak := (rfl)
@[simp] theorem modQd_pan (s : State) (q : Fin 16) (f : Qd → Qd) : (modQd s q f).pan = s.pan := (rfl)
@[simp] theorem modQd_lpan (s : State) (q : Fin 16) (f : Qd → Qd) : (modQd s q f).lpan = s.lpan := (rfl)
@[simp] theorem modQd_qd (s : State) (q : Fin 16) (f : Qd → Qd) : (modQd s q f).qd = vmod s.qd q f := (rfl)
@[simp] theorem modQd_slt (s : State) (q : Fin 16) (f : Qd → Qd) : (modQd s q f).slt = s.slt := (rfl)
@[simp] theorem modQd_tst (s : State) (q : Fin 16) (f : Qd → Qd) : (modQd s q f).tst = s.tst := (rfl)
@[simp] theorem modQd_wrap (s : State) (q : Fin 16) (f : Qd → Qd) : (modQd s q f).wrap = s.wrap := (rfl)
@[simp] theorem modQd_pins (s : State) (q : Fin 16) (f : Qd → Qd) : (modQd s q f).pins = s.pins := (rfl)
@[simp] theorem modQd_hdrs (s : State) (q : Fin 16) (f : Qd → Qd) : (modQd s q f).hdrs = s.hdrs := (rfl)
@[simp] theorem modQd_host (s : State) (q : Fin 16) (f : Qd → Qd) : (modQd s q f).host = s.host := (rfl)
@[simp] theorem modQd_res (s : State) (q : Fin 16) (f : Qd → Qd) : (modQd s q f).res = s.res := (rfl)
@[simp] theorem modQd_ckpt (s : State) (q : Fin 16) (f : Qd → Qd) : (modQd s q f).ckpt = s.ckpt := (rfl)
@[simp] theorem modQd_tail (s : State) (q : Fin 16) (f : Qd → Qd) : (modQd s q f).tail = s.tail := (rfl)
@[simp] theorem modQd_dir (s : State) (q : Fin 16) (f : Qd → Qd) : (modQd s q f).dir = s.dir := (rfl)
@[simp] theorem modQd_shard (s : State) (q : Fin 16) (f : Qd → Qd) : (modQd s q f).shard = s.shard := (rfl)
@[simp] theorem modQd_salino (s : State) (q : Fin 16) (f : Qd → Qd) : (modQd s q f).salino = s.salino := (rfl)
@[simp] theorem modQd_hist (s : State) (q : Fin 16) (f : Qd → Qd) : (modQd s q f).hist = s.hist := (rfl)
@[simp] theorem modQd_pond (s : State) (q : Fin 16) (f : Qd → Qd) : (modQd s q f).pond = s.pond := (rfl)
@[simp] theorem modQd_txns (s : State) (q : Fin 16) (f : Qd → Qd) : (modQd s q f).txns = s.txns := (rfl)
@[simp] theorem modQd_wear (s : State) (q : Fin 16) (f : Qd → Qd) : (modQd s q f).wear = s.wear := (rfl)
@[simp] theorem modQd_cp (s : State) (q : Fin 16) (f : Qd → Qd) : (modQd s q f).cp = s.cp := (rfl)
@[simp] theorem modQd_sent (s : State) (q : Fin 16) (f : Qd → Qd) : (modQd s q f).sent = s.sent := (rfl)
@[simp] theorem modQd_hostBad (s : State) (q : Fin 16) (f : Qd → Qd) : (modQd s q f).hostBad = s.hostBad := (rfl)
@[simp] theorem modQd_rbuf (s : State) (q : Fin 16) (f : Qd → Qd) : (modQd s q f).rbuf = s.rbuf := (rfl)
@[simp] theorem modQd_rgot (s : State) (q : Fin 16) (f : Qd → Qd) : (modQd s q f).rgot = s.rgot := (rfl)
@[simp] theorem modQd_rfail (s : State) (q : Fin 16) (f : Qd → Qd) : (modQd s q f).rfail = s.rfail := (rfl)
@[simp] theorem modQd_miss (s : State) (q : Fin 16) (f : Qd → Qd) : (modQd s q f).miss = s.miss := (rfl)
@[simp] theorem modQd_rused (s : State) (q : Fin 16) (f : Qd → Qd) : (modQd s q f).rused = s.rused := (rfl)
@[simp] theorem modQd_rout (s : State) (q : Fin 16) (f : Qd → Qd) : (modQd s q f).rout = s.rout := (rfl)
@[simp] theorem modQd_who (s : State) (q : Fin 16) (f : Qd → Qd) : (modQd s q f).who = s.who := (rfl)
@[simp] theorem modQd_rsv (s : State) (q : Fin 16) (f : Qd → Qd) : (modQd s q f).rsv = s.rsv := (rfl)
@[simp] theorem modQd_stall (s : State) (q : Fin 16) (f : Qd → Qd) : (modQd s q f).stall = s.stall := (rfl)
@[simp] theorem modQd_grants (s : State) (q : Fin 16) (f : Qd → Qd) : (modQd s q f).grants = s.grants := (rfl)
@[simp] theorem modQd_free (s : State) (q : Fin 16) (f : Qd → Qd) : (modQd s q f).free = s.free := (rfl)

/-! ### modShard -/

@[simp] theorem modShard_pending (s : State) (i : Nat) (f : Shard → Shard) : (modShard s i f).pending = s.pending := (rfl)
@[simp] theorem modShard_glb (s : State) (i : Nat) (f : Shard → Shard) : (modShard s i f).glb = s.glb := (rfl)
@[simp] theorem modShard_sec (s : State) (i : Nat) (f : Shard → Shard) : (modShard s i f).sec = s.sec := (rfl)
@[simp] theorem modShard_pwr (s : State) (i : Nat) (f : Shard → Shard) : (modShard s i f).pwr = s.pwr := (rfl)
@[simp] theorem modShard_tide (s : State) (i : Nat) (f : Shard → Shard) : (modShard s i f).tide = s.tide := (rfl)
@[simp] theorem modShard_flt (s : State) (i : Nat) (f : Shard → Shard) : (modShard s i f).flt = s.flt := (rfl)
@[simp] theorem modShard_vrd (s : State) (i : Nat) (f : Shard → Shard) : (modShard s i f).vrd = s.vrd := (rfl)
@[simp] theorem modShard_sal (s : State) (i : Nat) (f : Shard → Shard) : (modShard s i f).sal = s.sal := (rfl)
@[simp] theorem modShard_twn (s : State) (i : Nat) (f : Shard → Shard) : (modShard s i f).twn = s.twn := (rfl)
@[simp] theorem modShard_lnk (s : State) (i : Nat) (f : Shard → Shard) : (modShard s i f).lnk = s.lnk := (rfl)
@[simp] theorem modShard_hrv (s : State) (i : Nat) (f : Shard → Shard) : (modShard s i f).hrv = s.hrv := (rfl)
@[simp] theorem modShard_rak (s : State) (i : Nat) (f : Shard → Shard) : (modShard s i f).rak = s.rak := (rfl)
@[simp] theorem modShard_pan (s : State) (i : Nat) (f : Shard → Shard) : (modShard s i f).pan = s.pan := (rfl)
@[simp] theorem modShard_lpan (s : State) (i : Nat) (f : Shard → Shard) : (modShard s i f).lpan = s.lpan := (rfl)
@[simp] theorem modShard_qd (s : State) (i : Nat) (f : Shard → Shard) : (modShard s i f).qd = s.qd := (rfl)
@[simp] theorem modShard_slt (s : State) (i : Nat) (f : Shard → Shard) : (modShard s i f).slt = s.slt := (rfl)
@[simp] theorem modShard_tst (s : State) (i : Nat) (f : Shard → Shard) : (modShard s i f).tst = s.tst := (rfl)
@[simp] theorem modShard_wrap (s : State) (i : Nat) (f : Shard → Shard) : (modShard s i f).wrap = s.wrap := (rfl)
@[simp] theorem modShard_pins (s : State) (i : Nat) (f : Shard → Shard) : (modShard s i f).pins = s.pins := (rfl)
@[simp] theorem modShard_hdrs (s : State) (i : Nat) (f : Shard → Shard) : (modShard s i f).hdrs = s.hdrs := (rfl)
@[simp] theorem modShard_host (s : State) (i : Nat) (f : Shard → Shard) : (modShard s i f).host = s.host := (rfl)
@[simp] theorem modShard_res (s : State) (i : Nat) (f : Shard → Shard) : (modShard s i f).res = s.res := (rfl)
@[simp] theorem modShard_ckpt (s : State) (i : Nat) (f : Shard → Shard) : (modShard s i f).ckpt = s.ckpt := (rfl)
@[simp] theorem modShard_tail (s : State) (i : Nat) (f : Shard → Shard) : (modShard s i f).tail = s.tail := (rfl)
@[simp] theorem modShard_dir (s : State) (i : Nat) (f : Shard → Shard) : (modShard s i f).dir = s.dir := (rfl)
@[simp] theorem modShard_shard (s : State) (i : Nat) (f : Shard → Shard) : (modShard s i f).shard = smSet {} s.shard i (f (shardOf s i)) := (rfl)
@[simp] theorem modShard_salino (s : State) (i : Nat) (f : Shard → Shard) : (modShard s i f).salino = s.salino := (rfl)
@[simp] theorem modShard_hist (s : State) (i : Nat) (f : Shard → Shard) : (modShard s i f).hist = s.hist := (rfl)
@[simp] theorem modShard_pond (s : State) (i : Nat) (f : Shard → Shard) : (modShard s i f).pond = s.pond := (rfl)
@[simp] theorem modShard_txns (s : State) (i : Nat) (f : Shard → Shard) : (modShard s i f).txns = s.txns := (rfl)
@[simp] theorem modShard_wear (s : State) (i : Nat) (f : Shard → Shard) : (modShard s i f).wear = s.wear := (rfl)
@[simp] theorem modShard_cp (s : State) (i : Nat) (f : Shard → Shard) : (modShard s i f).cp = s.cp := (rfl)
@[simp] theorem modShard_sent (s : State) (i : Nat) (f : Shard → Shard) : (modShard s i f).sent = s.sent := (rfl)
@[simp] theorem modShard_hostBad (s : State) (i : Nat) (f : Shard → Shard) : (modShard s i f).hostBad = s.hostBad := (rfl)
@[simp] theorem modShard_rbuf (s : State) (i : Nat) (f : Shard → Shard) : (modShard s i f).rbuf = s.rbuf := (rfl)
@[simp] theorem modShard_rgot (s : State) (i : Nat) (f : Shard → Shard) : (modShard s i f).rgot = s.rgot := (rfl)
@[simp] theorem modShard_rfail (s : State) (i : Nat) (f : Shard → Shard) : (modShard s i f).rfail = s.rfail := (rfl)
@[simp] theorem modShard_miss (s : State) (i : Nat) (f : Shard → Shard) : (modShard s i f).miss = s.miss := (rfl)
@[simp] theorem modShard_rused (s : State) (i : Nat) (f : Shard → Shard) : (modShard s i f).rused = s.rused := (rfl)
@[simp] theorem modShard_rout (s : State) (i : Nat) (f : Shard → Shard) : (modShard s i f).rout = s.rout := (rfl)
@[simp] theorem modShard_who (s : State) (i : Nat) (f : Shard → Shard) : (modShard s i f).who = s.who := (rfl)
@[simp] theorem modShard_rsv (s : State) (i : Nat) (f : Shard → Shard) : (modShard s i f).rsv = s.rsv := (rfl)
@[simp] theorem modShard_stall (s : State) (i : Nat) (f : Shard → Shard) : (modShard s i f).stall = s.stall := (rfl)
@[simp] theorem modShard_grants (s : State) (i : Nat) (f : Shard → Shard) : (modShard s i f).grants = s.grants := (rfl)
@[simp] theorem modShard_free (s : State) (i : Nat) (f : Shard → Shard) : (modShard s i f).free = s.free := (rfl)

/-! ### modDir -/

@[simp] theorem modDir_pending (s : State) (m : Nat) (f : DirE → DirE) : (modDir s m f).pending = s.pending := (rfl)
@[simp] theorem modDir_glb (s : State) (m : Nat) (f : DirE → DirE) : (modDir s m f).glb = s.glb := (rfl)
@[simp] theorem modDir_sec (s : State) (m : Nat) (f : DirE → DirE) : (modDir s m f).sec = s.sec := (rfl)
@[simp] theorem modDir_pwr (s : State) (m : Nat) (f : DirE → DirE) : (modDir s m f).pwr = s.pwr := (rfl)
@[simp] theorem modDir_tide (s : State) (m : Nat) (f : DirE → DirE) : (modDir s m f).tide = s.tide := (rfl)
@[simp] theorem modDir_flt (s : State) (m : Nat) (f : DirE → DirE) : (modDir s m f).flt = s.flt := (rfl)
@[simp] theorem modDir_vrd (s : State) (m : Nat) (f : DirE → DirE) : (modDir s m f).vrd = s.vrd := (rfl)
@[simp] theorem modDir_sal (s : State) (m : Nat) (f : DirE → DirE) : (modDir s m f).sal = s.sal := (rfl)
@[simp] theorem modDir_twn (s : State) (m : Nat) (f : DirE → DirE) : (modDir s m f).twn = s.twn := (rfl)
@[simp] theorem modDir_lnk (s : State) (m : Nat) (f : DirE → DirE) : (modDir s m f).lnk = s.lnk := (rfl)
@[simp] theorem modDir_hrv (s : State) (m : Nat) (f : DirE → DirE) : (modDir s m f).hrv = s.hrv := (rfl)
@[simp] theorem modDir_rak (s : State) (m : Nat) (f : DirE → DirE) : (modDir s m f).rak = s.rak := (rfl)
@[simp] theorem modDir_pan (s : State) (m : Nat) (f : DirE → DirE) : (modDir s m f).pan = s.pan := (rfl)
@[simp] theorem modDir_lpan (s : State) (m : Nat) (f : DirE → DirE) : (modDir s m f).lpan = s.lpan := (rfl)
@[simp] theorem modDir_qd (s : State) (m : Nat) (f : DirE → DirE) : (modDir s m f).qd = s.qd := (rfl)
@[simp] theorem modDir_slt (s : State) (m : Nat) (f : DirE → DirE) : (modDir s m f).slt = s.slt := (rfl)
@[simp] theorem modDir_tst (s : State) (m : Nat) (f : DirE → DirE) : (modDir s m f).tst = s.tst := (rfl)
@[simp] theorem modDir_wrap (s : State) (m : Nat) (f : DirE → DirE) : (modDir s m f).wrap = s.wrap := (rfl)
@[simp] theorem modDir_pins (s : State) (m : Nat) (f : DirE → DirE) : (modDir s m f).pins = s.pins := (rfl)
@[simp] theorem modDir_hdrs (s : State) (m : Nat) (f : DirE → DirE) : (modDir s m f).hdrs = s.hdrs := (rfl)
@[simp] theorem modDir_host (s : State) (m : Nat) (f : DirE → DirE) : (modDir s m f).host = s.host := (rfl)
@[simp] theorem modDir_res (s : State) (m : Nat) (f : DirE → DirE) : (modDir s m f).res = s.res := (rfl)
@[simp] theorem modDir_ckpt (s : State) (m : Nat) (f : DirE → DirE) : (modDir s m f).ckpt = s.ckpt := (rfl)
@[simp] theorem modDir_tail (s : State) (m : Nat) (f : DirE → DirE) : (modDir s m f).tail = s.tail := (rfl)
@[simp] theorem modDir_dir (s : State) (m : Nat) (f : DirE → DirE) : (modDir s m f).dir = smSet {} s.dir m (f (dirOf s m)) := (rfl)
@[simp] theorem modDir_shard (s : State) (m : Nat) (f : DirE → DirE) : (modDir s m f).shard = s.shard := (rfl)
@[simp] theorem modDir_salino (s : State) (m : Nat) (f : DirE → DirE) : (modDir s m f).salino = s.salino := (rfl)
@[simp] theorem modDir_hist (s : State) (m : Nat) (f : DirE → DirE) : (modDir s m f).hist = s.hist := (rfl)
@[simp] theorem modDir_pond (s : State) (m : Nat) (f : DirE → DirE) : (modDir s m f).pond = s.pond := (rfl)
@[simp] theorem modDir_txns (s : State) (m : Nat) (f : DirE → DirE) : (modDir s m f).txns = s.txns := (rfl)
@[simp] theorem modDir_wear (s : State) (m : Nat) (f : DirE → DirE) : (modDir s m f).wear = s.wear := (rfl)
@[simp] theorem modDir_cp (s : State) (m : Nat) (f : DirE → DirE) : (modDir s m f).cp = s.cp := (rfl)
@[simp] theorem modDir_sent (s : State) (m : Nat) (f : DirE → DirE) : (modDir s m f).sent = s.sent := (rfl)
@[simp] theorem modDir_hostBad (s : State) (m : Nat) (f : DirE → DirE) : (modDir s m f).hostBad = s.hostBad := (rfl)
@[simp] theorem modDir_rbuf (s : State) (m : Nat) (f : DirE → DirE) : (modDir s m f).rbuf = s.rbuf := (rfl)
@[simp] theorem modDir_rgot (s : State) (m : Nat) (f : DirE → DirE) : (modDir s m f).rgot = s.rgot := (rfl)
@[simp] theorem modDir_rfail (s : State) (m : Nat) (f : DirE → DirE) : (modDir s m f).rfail = s.rfail := (rfl)
@[simp] theorem modDir_miss (s : State) (m : Nat) (f : DirE → DirE) : (modDir s m f).miss = s.miss := (rfl)
@[simp] theorem modDir_rused (s : State) (m : Nat) (f : DirE → DirE) : (modDir s m f).rused = s.rused := (rfl)
@[simp] theorem modDir_rout (s : State) (m : Nat) (f : DirE → DirE) : (modDir s m f).rout = s.rout := (rfl)
@[simp] theorem modDir_who (s : State) (m : Nat) (f : DirE → DirE) : (modDir s m f).who = s.who := (rfl)
@[simp] theorem modDir_rsv (s : State) (m : Nat) (f : DirE → DirE) : (modDir s m f).rsv = s.rsv := (rfl)
@[simp] theorem modDir_stall (s : State) (m : Nat) (f : DirE → DirE) : (modDir s m f).stall = s.stall := (rfl)
@[simp] theorem modDir_grants (s : State) (m : Nat) (f : DirE → DirE) : (modDir s m f).grants = s.grants := (rfl)
@[simp] theorem modDir_free (s : State) (m : Nat) (f : DirE → DirE) : (modDir s m f).free = s.free := (rfl)

/-! ### modSal -/

@[simp] theorem modSal_pending (s : State) (i : Nat) (f : SalSlot → SalSlot) : (modSal s i f).pending = s.pending := (rfl)
@[simp] theorem modSal_glb (s : State) (i : Nat) (f : SalSlot → SalSlot) : (modSal s i f).glb = s.glb := (rfl)
@[simp] theorem modSal_sec (s : State) (i : Nat) (f : SalSlot → SalSlot) : (modSal s i f).sec = s.sec := (rfl)
@[simp] theorem modSal_pwr (s : State) (i : Nat) (f : SalSlot → SalSlot) : (modSal s i f).pwr = s.pwr := (rfl)
@[simp] theorem modSal_tide (s : State) (i : Nat) (f : SalSlot → SalSlot) : (modSal s i f).tide = s.tide := (rfl)
@[simp] theorem modSal_flt (s : State) (i : Nat) (f : SalSlot → SalSlot) : (modSal s i f).flt = s.flt := (rfl)
@[simp] theorem modSal_vrd (s : State) (i : Nat) (f : SalSlot → SalSlot) : (modSal s i f).vrd = s.vrd := (rfl)
@[simp] theorem modSal_sal (s : State) (i : Nat) (f : SalSlot → SalSlot) : (modSal s i f).sal = s.sal := (rfl)
@[simp] theorem modSal_twn (s : State) (i : Nat) (f : SalSlot → SalSlot) : (modSal s i f).twn = s.twn := (rfl)
@[simp] theorem modSal_lnk (s : State) (i : Nat) (f : SalSlot → SalSlot) : (modSal s i f).lnk = s.lnk := (rfl)
@[simp] theorem modSal_hrv (s : State) (i : Nat) (f : SalSlot → SalSlot) : (modSal s i f).hrv = s.hrv := (rfl)
@[simp] theorem modSal_rak (s : State) (i : Nat) (f : SalSlot → SalSlot) : (modSal s i f).rak = s.rak := (rfl)
@[simp] theorem modSal_pan (s : State) (i : Nat) (f : SalSlot → SalSlot) : (modSal s i f).pan = s.pan := (rfl)
@[simp] theorem modSal_lpan (s : State) (i : Nat) (f : SalSlot → SalSlot) : (modSal s i f).lpan = s.lpan := (rfl)
@[simp] theorem modSal_qd (s : State) (i : Nat) (f : SalSlot → SalSlot) : (modSal s i f).qd = s.qd := (rfl)
@[simp] theorem modSal_slt (s : State) (i : Nat) (f : SalSlot → SalSlot) : (modSal s i f).slt = s.slt := (rfl)
@[simp] theorem modSal_tst (s : State) (i : Nat) (f : SalSlot → SalSlot) : (modSal s i f).tst = s.tst := (rfl)
@[simp] theorem modSal_wrap (s : State) (i : Nat) (f : SalSlot → SalSlot) : (modSal s i f).wrap = s.wrap := (rfl)
@[simp] theorem modSal_pins (s : State) (i : Nat) (f : SalSlot → SalSlot) : (modSal s i f).pins = s.pins := (rfl)
@[simp] theorem modSal_hdrs (s : State) (i : Nat) (f : SalSlot → SalSlot) : (modSal s i f).hdrs = s.hdrs := (rfl)
@[simp] theorem modSal_host (s : State) (i : Nat) (f : SalSlot → SalSlot) : (modSal s i f).host = s.host := (rfl)
@[simp] theorem modSal_res (s : State) (i : Nat) (f : SalSlot → SalSlot) : (modSal s i f).res = s.res := (rfl)
@[simp] theorem modSal_ckpt (s : State) (i : Nat) (f : SalSlot → SalSlot) : (modSal s i f).ckpt = s.ckpt := (rfl)
@[simp] theorem modSal_tail (s : State) (i : Nat) (f : SalSlot → SalSlot) : (modSal s i f).tail = s.tail := (rfl)
@[simp] theorem modSal_dir (s : State) (i : Nat) (f : SalSlot → SalSlot) : (modSal s i f).dir = s.dir := (rfl)
@[simp] theorem modSal_shard (s : State) (i : Nat) (f : SalSlot → SalSlot) : (modSal s i f).shard = s.shard := (rfl)
@[simp] theorem modSal_salino (s : State) (i : Nat) (f : SalSlot → SalSlot) : (modSal s i f).salino = smSet {} s.salino i (f (salOf s i)) := (rfl)
@[simp] theorem modSal_hist (s : State) (i : Nat) (f : SalSlot → SalSlot) : (modSal s i f).hist = s.hist := (rfl)
@[simp] theorem modSal_pond (s : State) (i : Nat) (f : SalSlot → SalSlot) : (modSal s i f).pond = s.pond := (rfl)
@[simp] theorem modSal_txns (s : State) (i : Nat) (f : SalSlot → SalSlot) : (modSal s i f).txns = s.txns := (rfl)
@[simp] theorem modSal_wear (s : State) (i : Nat) (f : SalSlot → SalSlot) : (modSal s i f).wear = s.wear := (rfl)
@[simp] theorem modSal_cp (s : State) (i : Nat) (f : SalSlot → SalSlot) : (modSal s i f).cp = s.cp := (rfl)
@[simp] theorem modSal_sent (s : State) (i : Nat) (f : SalSlot → SalSlot) : (modSal s i f).sent = s.sent := (rfl)
@[simp] theorem modSal_hostBad (s : State) (i : Nat) (f : SalSlot → SalSlot) : (modSal s i f).hostBad = s.hostBad := (rfl)
@[simp] theorem modSal_rbuf (s : State) (i : Nat) (f : SalSlot → SalSlot) : (modSal s i f).rbuf = s.rbuf := (rfl)
@[simp] theorem modSal_rgot (s : State) (i : Nat) (f : SalSlot → SalSlot) : (modSal s i f).rgot = s.rgot := (rfl)
@[simp] theorem modSal_rfail (s : State) (i : Nat) (f : SalSlot → SalSlot) : (modSal s i f).rfail = s.rfail := (rfl)
@[simp] theorem modSal_miss (s : State) (i : Nat) (f : SalSlot → SalSlot) : (modSal s i f).miss = s.miss := (rfl)
@[simp] theorem modSal_rused (s : State) (i : Nat) (f : SalSlot → SalSlot) : (modSal s i f).rused = s.rused := (rfl)
@[simp] theorem modSal_rout (s : State) (i : Nat) (f : SalSlot → SalSlot) : (modSal s i f).rout = s.rout := (rfl)
@[simp] theorem modSal_who (s : State) (i : Nat) (f : SalSlot → SalSlot) : (modSal s i f).who = s.who := (rfl)
@[simp] theorem modSal_rsv (s : State) (i : Nat) (f : SalSlot → SalSlot) : (modSal s i f).rsv = s.rsv := (rfl)
@[simp] theorem modSal_stall (s : State) (i : Nat) (f : SalSlot → SalSlot) : (modSal s i f).stall = s.stall := (rfl)
@[simp] theorem modSal_grants (s : State) (i : Nat) (f : SalSlot → SalSlot) : (modSal s i f).grants = s.grants := (rfl)
@[simp] theorem modSal_free (s : State) (i : Nat) (f : SalSlot → SalSlot) : (modSal s i f).free = s.free := (rfl)

/-! ### setHist -/

@[simp] theorem setHist_pending (s : State) (h : Nat) (x : HistSlot) : (setHist s h x).pending = s.pending := (rfl)
@[simp] theorem setHist_glb (s : State) (h : Nat) (x : HistSlot) : (setHist s h x).glb = s.glb := (rfl)
@[simp] theorem setHist_sec (s : State) (h : Nat) (x : HistSlot) : (setHist s h x).sec = s.sec := (rfl)
@[simp] theorem setHist_pwr (s : State) (h : Nat) (x : HistSlot) : (setHist s h x).pwr = s.pwr := (rfl)
@[simp] theorem setHist_tide (s : State) (h : Nat) (x : HistSlot) : (setHist s h x).tide = s.tide := (rfl)
@[simp] theorem setHist_flt (s : State) (h : Nat) (x : HistSlot) : (setHist s h x).flt = s.flt := (rfl)
@[simp] theorem setHist_vrd (s : State) (h : Nat) (x : HistSlot) : (setHist s h x).vrd = s.vrd := (rfl)
@[simp] theorem setHist_sal (s : State) (h : Nat) (x : HistSlot) : (setHist s h x).sal = s.sal := (rfl)
@[simp] theorem setHist_twn (s : State) (h : Nat) (x : HistSlot) : (setHist s h x).twn = s.twn := (rfl)
@[simp] theorem setHist_lnk (s : State) (h : Nat) (x : HistSlot) : (setHist s h x).lnk = s.lnk := (rfl)
@[simp] theorem setHist_hrv (s : State) (h : Nat) (x : HistSlot) : (setHist s h x).hrv = s.hrv := (rfl)
@[simp] theorem setHist_rak (s : State) (h : Nat) (x : HistSlot) : (setHist s h x).rak = s.rak := (rfl)
@[simp] theorem setHist_pan (s : State) (h : Nat) (x : HistSlot) : (setHist s h x).pan = s.pan := (rfl)
@[simp] theorem setHist_lpan (s : State) (h : Nat) (x : HistSlot) : (setHist s h x).lpan = s.lpan := (rfl)
@[simp] theorem setHist_qd (s : State) (h : Nat) (x : HistSlot) : (setHist s h x).qd = s.qd := (rfl)
@[simp] theorem setHist_slt (s : State) (h : Nat) (x : HistSlot) : (setHist s h x).slt = s.slt := (rfl)
@[simp] theorem setHist_tst (s : State) (h : Nat) (x : HistSlot) : (setHist s h x).tst = s.tst := (rfl)
@[simp] theorem setHist_wrap (s : State) (h : Nat) (x : HistSlot) : (setHist s h x).wrap = s.wrap := (rfl)
@[simp] theorem setHist_pins (s : State) (h : Nat) (x : HistSlot) : (setHist s h x).pins = s.pins := (rfl)
@[simp] theorem setHist_hdrs (s : State) (h : Nat) (x : HistSlot) : (setHist s h x).hdrs = s.hdrs := (rfl)
@[simp] theorem setHist_host (s : State) (h : Nat) (x : HistSlot) : (setHist s h x).host = s.host := (rfl)
@[simp] theorem setHist_res (s : State) (h : Nat) (x : HistSlot) : (setHist s h x).res = s.res := (rfl)
@[simp] theorem setHist_ckpt (s : State) (h : Nat) (x : HistSlot) : (setHist s h x).ckpt = s.ckpt := (rfl)
@[simp] theorem setHist_tail (s : State) (h : Nat) (x : HistSlot) : (setHist s h x).tail = s.tail := (rfl)
@[simp] theorem setHist_dir (s : State) (h : Nat) (x : HistSlot) : (setHist s h x).dir = s.dir := (rfl)
@[simp] theorem setHist_shard (s : State) (h : Nat) (x : HistSlot) : (setHist s h x).shard = s.shard := (rfl)
@[simp] theorem setHist_salino (s : State) (h : Nat) (x : HistSlot) : (setHist s h x).salino = s.salino := (rfl)
@[simp] theorem setHist_hist (s : State) (h : Nat) (x : HistSlot) : (setHist s h x).hist = smSet {} s.hist h x := (rfl)
@[simp] theorem setHist_pond (s : State) (h : Nat) (x : HistSlot) : (setHist s h x).pond = s.pond := (rfl)
@[simp] theorem setHist_txns (s : State) (h : Nat) (x : HistSlot) : (setHist s h x).txns = s.txns := (rfl)
@[simp] theorem setHist_wear (s : State) (h : Nat) (x : HistSlot) : (setHist s h x).wear = s.wear := (rfl)
@[simp] theorem setHist_cp (s : State) (h : Nat) (x : HistSlot) : (setHist s h x).cp = s.cp := (rfl)
@[simp] theorem setHist_sent (s : State) (h : Nat) (x : HistSlot) : (setHist s h x).sent = s.sent := (rfl)
@[simp] theorem setHist_hostBad (s : State) (h : Nat) (x : HistSlot) : (setHist s h x).hostBad = s.hostBad := (rfl)
@[simp] theorem setHist_rbuf (s : State) (h : Nat) (x : HistSlot) : (setHist s h x).rbuf = s.rbuf := (rfl)
@[simp] theorem setHist_rgot (s : State) (h : Nat) (x : HistSlot) : (setHist s h x).rgot = s.rgot := (rfl)
@[simp] theorem setHist_rfail (s : State) (h : Nat) (x : HistSlot) : (setHist s h x).rfail = s.rfail := (rfl)
@[simp] theorem setHist_miss (s : State) (h : Nat) (x : HistSlot) : (setHist s h x).miss = s.miss := (rfl)
@[simp] theorem setHist_rused (s : State) (h : Nat) (x : HistSlot) : (setHist s h x).rused = s.rused := (rfl)
@[simp] theorem setHist_rout (s : State) (h : Nat) (x : HistSlot) : (setHist s h x).rout = s.rout := (rfl)
@[simp] theorem setHist_who (s : State) (h : Nat) (x : HistSlot) : (setHist s h x).who = s.who := (rfl)
@[simp] theorem setHist_rsv (s : State) (h : Nat) (x : HistSlot) : (setHist s h x).rsv = s.rsv := (rfl)
@[simp] theorem setHist_stall (s : State) (h : Nat) (x : HistSlot) : (setHist s h x).stall = s.stall := (rfl)
@[simp] theorem setHist_grants (s : State) (h : Nat) (x : HistSlot) : (setHist s h x).grants = s.grants := (rfl)
@[simp] theorem setHist_free (s : State) (h : Nat) (x : HistSlot) : (setHist s h x).free = s.free := (rfl)

/-! ### answer -/

@[simp] theorem answer_pending (s : State) (c : BitVec 2) (d : W32) : (answer s c d).pending = s.pending := (rfl)
@[simp] theorem answer_glb (s : State) (c : BitVec 2) (d : W32) : (answer s c d).glb = s.glb := (rfl)
@[simp] theorem answer_sec (s : State) (c : BitVec 2) (d : W32) : (answer s c d).sec = s.sec := (rfl)
@[simp] theorem answer_pwr (s : State) (c : BitVec 2) (d : W32) : (answer s c d).pwr = s.pwr := (rfl)
@[simp] theorem answer_tide (s : State) (c : BitVec 2) (d : W32) : (answer s c d).tide = s.tide := (rfl)
@[simp] theorem answer_flt (s : State) (c : BitVec 2) (d : W32) : (answer s c d).flt = s.flt := (rfl)
@[simp] theorem answer_vrd (s : State) (c : BitVec 2) (d : W32) : (answer s c d).vrd = s.vrd := (rfl)
@[simp] theorem answer_sal (s : State) (c : BitVec 2) (d : W32) : (answer s c d).sal = s.sal := (rfl)
@[simp] theorem answer_twn (s : State) (c : BitVec 2) (d : W32) : (answer s c d).twn = s.twn := (rfl)
@[simp] theorem answer_lnk (s : State) (c : BitVec 2) (d : W32) : (answer s c d).lnk = s.lnk := (rfl)
@[simp] theorem answer_hrv (s : State) (c : BitVec 2) (d : W32) : (answer s c d).hrv = s.hrv := (rfl)
@[simp] theorem answer_rak (s : State) (c : BitVec 2) (d : W32) : (answer s c d).rak = s.rak := (rfl)
@[simp] theorem answer_pan (s : State) (c : BitVec 2) (d : W32) : (answer s c d).pan = s.pan := (rfl)
@[simp] theorem answer_lpan (s : State) (c : BitVec 2) (d : W32) : (answer s c d).lpan = s.lpan := (rfl)
@[simp] theorem answer_qd (s : State) (c : BitVec 2) (d : W32) : (answer s c d).qd = s.qd := (rfl)
@[simp] theorem answer_slt (s : State) (c : BitVec 2) (d : W32) : (answer s c d).slt = s.slt := (rfl)
@[simp] theorem answer_tst (s : State) (c : BitVec 2) (d : W32) : (answer s c d).tst = s.tst := (rfl)
@[simp] theorem answer_wrap (s : State) (c : BitVec 2) (d : W32) : (answer s c d).wrap = s.wrap := (rfl)
@[simp] theorem answer_pins (s : State) (c : BitVec 2) (d : W32) : (answer s c d).pins = s.pins := (rfl)
@[simp] theorem answer_hdrs (s : State) (c : BitVec 2) (d : W32) : (answer s c d).hdrs = s.hdrs := (rfl)
@[simp] theorem answer_host (s : State) (c : BitVec 2) (d : W32) : (answer s c d).host = s.host := (rfl)
@[simp] theorem answer_res (s : State) (c : BitVec 2) (d : W32) : (answer s c d).res = s.res := (rfl)
@[simp] theorem answer_ckpt (s : State) (c : BitVec 2) (d : W32) : (answer s c d).ckpt = s.ckpt := (rfl)
@[simp] theorem answer_tail (s : State) (c : BitVec 2) (d : W32) : (answer s c d).tail = s.tail := (rfl)
@[simp] theorem answer_dir (s : State) (c : BitVec 2) (d : W32) : (answer s c d).dir = s.dir := (rfl)
@[simp] theorem answer_shard (s : State) (c : BitVec 2) (d : W32) : (answer s c d).shard = s.shard := (rfl)
@[simp] theorem answer_salino (s : State) (c : BitVec 2) (d : W32) : (answer s c d).salino = s.salino := (rfl)
@[simp] theorem answer_hist (s : State) (c : BitVec 2) (d : W32) : (answer s c d).hist = s.hist := (rfl)
@[simp] theorem answer_pond (s : State) (c : BitVec 2) (d : W32) : (answer s c d).pond = s.pond := (rfl)
@[simp] theorem answer_txns (s : State) (c : BitVec 2) (d : W32) : (answer s c d).txns = s.txns := (rfl)
@[simp] theorem answer_wear (s : State) (c : BitVec 2) (d : W32) : (answer s c d).wear = s.wear := (rfl)
@[simp] theorem answer_cp (s : State) (c : BitVec 2) (d : W32) : (answer s c d).cp = { code := c, data := d } := (rfl)
@[simp] theorem answer_sent (s : State) (c : BitVec 2) (d : W32) : (answer s c d).sent = s.sent := (rfl)
@[simp] theorem answer_hostBad (s : State) (c : BitVec 2) (d : W32) : (answer s c d).hostBad = s.hostBad := (rfl)
@[simp] theorem answer_rbuf (s : State) (c : BitVec 2) (d : W32) : (answer s c d).rbuf = s.rbuf := (rfl)
@[simp] theorem answer_rgot (s : State) (c : BitVec 2) (d : W32) : (answer s c d).rgot = s.rgot := (rfl)
@[simp] theorem answer_rfail (s : State) (c : BitVec 2) (d : W32) : (answer s c d).rfail = s.rfail := (rfl)
@[simp] theorem answer_miss (s : State) (c : BitVec 2) (d : W32) : (answer s c d).miss = s.miss := (rfl)
@[simp] theorem answer_rused (s : State) (c : BitVec 2) (d : W32) : (answer s c d).rused = s.rused := (rfl)
@[simp] theorem answer_rout (s : State) (c : BitVec 2) (d : W32) : (answer s c d).rout = s.rout := (rfl)
@[simp] theorem answer_who (s : State) (c : BitVec 2) (d : W32) : (answer s c d).who = s.who := (rfl)
@[simp] theorem answer_rsv (s : State) (c : BitVec 2) (d : W32) : (answer s c d).rsv = s.rsv := (rfl)
@[simp] theorem answer_stall (s : State) (c : BitVec 2) (d : W32) : (answer s c d).stall = s.stall := (rfl)
@[simp] theorem answer_grants (s : State) (c : BitVec 2) (d : W32) : (answer s c d).grants = s.grants := (rfl)
@[simp] theorem answer_free (s : State) (c : BitVec 2) (d : W32) : (answer s c d).free = s.free := (rfl)

/-! ### resPut -/

@[simp] theorem resPut_pending (s : State) (o : Nat) (bs : List Byte) : (resPut s o bs).pending = s.pending := (rfl)
@[simp] theorem resPut_glb (s : State) (o : Nat) (bs : List Byte) : (resPut s o bs).glb = s.glb := (rfl)
@[simp] theorem resPut_sec (s : State) (o : Nat) (bs : List Byte) : (resPut s o bs).sec = s.sec := (rfl)
@[simp] theorem resPut_pwr (s : State) (o : Nat) (bs : List Byte) : (resPut s o bs).pwr = s.pwr := (rfl)
@[simp] theorem resPut_tide (s : State) (o : Nat) (bs : List Byte) : (resPut s o bs).tide = s.tide := (rfl)
@[simp] theorem resPut_flt (s : State) (o : Nat) (bs : List Byte) : (resPut s o bs).flt = s.flt := (rfl)
@[simp] theorem resPut_vrd (s : State) (o : Nat) (bs : List Byte) : (resPut s o bs).vrd = s.vrd := (rfl)
@[simp] theorem resPut_sal (s : State) (o : Nat) (bs : List Byte) : (resPut s o bs).sal = s.sal := (rfl)
@[simp] theorem resPut_twn (s : State) (o : Nat) (bs : List Byte) : (resPut s o bs).twn = s.twn := (rfl)
@[simp] theorem resPut_lnk (s : State) (o : Nat) (bs : List Byte) : (resPut s o bs).lnk = s.lnk := (rfl)
@[simp] theorem resPut_hrv (s : State) (o : Nat) (bs : List Byte) : (resPut s o bs).hrv = s.hrv := (rfl)
@[simp] theorem resPut_rak (s : State) (o : Nat) (bs : List Byte) : (resPut s o bs).rak = s.rak := (rfl)
@[simp] theorem resPut_pan (s : State) (o : Nat) (bs : List Byte) : (resPut s o bs).pan = s.pan := (rfl)
@[simp] theorem resPut_lpan (s : State) (o : Nat) (bs : List Byte) : (resPut s o bs).lpan = s.lpan := (rfl)
@[simp] theorem resPut_qd (s : State) (o : Nat) (bs : List Byte) : (resPut s o bs).qd = s.qd := (rfl)
@[simp] theorem resPut_slt (s : State) (o : Nat) (bs : List Byte) : (resPut s o bs).slt = s.slt := (rfl)
@[simp] theorem resPut_tst (s : State) (o : Nat) (bs : List Byte) : (resPut s o bs).tst = s.tst := (rfl)
@[simp] theorem resPut_wrap (s : State) (o : Nat) (bs : List Byte) : (resPut s o bs).wrap = s.wrap := (rfl)
@[simp] theorem resPut_pins (s : State) (o : Nat) (bs : List Byte) : (resPut s o bs).pins = s.pins := (rfl)
@[simp] theorem resPut_hdrs (s : State) (o : Nat) (bs : List Byte) : (resPut s o bs).hdrs = s.hdrs := (rfl)
@[simp] theorem resPut_host (s : State) (o : Nat) (bs : List Byte) : (resPut s o bs).host = s.host := (rfl)
@[simp] theorem resPut_res (s : State) (o : Nat) (bs : List Byte) : (resPut s o bs).res = memPut s.res o bs := (rfl)
@[simp] theorem resPut_ckpt (s : State) (o : Nat) (bs : List Byte) : (resPut s o bs).ckpt = s.ckpt := (rfl)
@[simp] theorem resPut_tail (s : State) (o : Nat) (bs : List Byte) : (resPut s o bs).tail = s.tail := (rfl)
@[simp] theorem resPut_dir (s : State) (o : Nat) (bs : List Byte) : (resPut s o bs).dir = s.dir := (rfl)
@[simp] theorem resPut_shard (s : State) (o : Nat) (bs : List Byte) : (resPut s o bs).shard = s.shard := (rfl)
@[simp] theorem resPut_salino (s : State) (o : Nat) (bs : List Byte) : (resPut s o bs).salino = s.salino := (rfl)
@[simp] theorem resPut_hist (s : State) (o : Nat) (bs : List Byte) : (resPut s o bs).hist = s.hist := (rfl)
@[simp] theorem resPut_pond (s : State) (o : Nat) (bs : List Byte) : (resPut s o bs).pond = s.pond := (rfl)
@[simp] theorem resPut_txns (s : State) (o : Nat) (bs : List Byte) : (resPut s o bs).txns = s.txns := (rfl)
@[simp] theorem resPut_wear (s : State) (o : Nat) (bs : List Byte) : (resPut s o bs).wear = s.wear := (rfl)
@[simp] theorem resPut_cp (s : State) (o : Nat) (bs : List Byte) : (resPut s o bs).cp = s.cp := (rfl)
@[simp] theorem resPut_sent (s : State) (o : Nat) (bs : List Byte) : (resPut s o bs).sent = s.sent := (rfl)
@[simp] theorem resPut_hostBad (s : State) (o : Nat) (bs : List Byte) : (resPut s o bs).hostBad = s.hostBad := (rfl)
@[simp] theorem resPut_rbuf (s : State) (o : Nat) (bs : List Byte) : (resPut s o bs).rbuf = s.rbuf := (rfl)
@[simp] theorem resPut_rgot (s : State) (o : Nat) (bs : List Byte) : (resPut s o bs).rgot = s.rgot := (rfl)
@[simp] theorem resPut_rfail (s : State) (o : Nat) (bs : List Byte) : (resPut s o bs).rfail = s.rfail := (rfl)
@[simp] theorem resPut_miss (s : State) (o : Nat) (bs : List Byte) : (resPut s o bs).miss = s.miss := (rfl)
@[simp] theorem resPut_rused (s : State) (o : Nat) (bs : List Byte) : (resPut s o bs).rused = s.rused := (rfl)
@[simp] theorem resPut_rout (s : State) (o : Nat) (bs : List Byte) : (resPut s o bs).rout = s.rout := (rfl)
@[simp] theorem resPut_who (s : State) (o : Nat) (bs : List Byte) : (resPut s o bs).who = s.who := (rfl)
@[simp] theorem resPut_rsv (s : State) (o : Nat) (bs : List Byte) : (resPut s o bs).rsv = s.rsv := (rfl)
@[simp] theorem resPut_stall (s : State) (o : Nat) (bs : List Byte) : (resPut s o bs).stall = s.stall := (rfl)
@[simp] theorem resPut_grants (s : State) (o : Nat) (bs : List Byte) : (resPut s o bs).grants = s.grants := (rfl)
@[simp] theorem resPut_free (s : State) (o : Nat) (bs : List Byte) : (resPut s o bs).free = s.free := (rfl)

/-! ### modGlb -/

@[simp] theorem modGlb_pending (s : State) (f : Glb → Glb) : (modGlb s f).pending = s.pending := (rfl)
@[simp] theorem modGlb_glb (s : State) (f : Glb → Glb) : (modGlb s f).glb = f s.glb := (rfl)
@[simp] theorem modGlb_sec (s : State) (f : Glb → Glb) : (modGlb s f).sec = s.sec := (rfl)
@[simp] theorem modGlb_pwr (s : State) (f : Glb → Glb) : (modGlb s f).pwr = s.pwr := (rfl)
@[simp] theorem modGlb_tide (s : State) (f : Glb → Glb) : (modGlb s f).tide = s.tide := (rfl)
@[simp] theorem modGlb_flt (s : State) (f : Glb → Glb) : (modGlb s f).flt = s.flt := (rfl)
@[simp] theorem modGlb_vrd (s : State) (f : Glb → Glb) : (modGlb s f).vrd = s.vrd := (rfl)
@[simp] theorem modGlb_sal (s : State) (f : Glb → Glb) : (modGlb s f).sal = s.sal := (rfl)
@[simp] theorem modGlb_twn (s : State) (f : Glb → Glb) : (modGlb s f).twn = s.twn := (rfl)
@[simp] theorem modGlb_lnk (s : State) (f : Glb → Glb) : (modGlb s f).lnk = s.lnk := (rfl)
@[simp] theorem modGlb_hrv (s : State) (f : Glb → Glb) : (modGlb s f).hrv = s.hrv := (rfl)
@[simp] theorem modGlb_rak (s : State) (f : Glb → Glb) : (modGlb s f).rak = s.rak := (rfl)
@[simp] theorem modGlb_pan (s : State) (f : Glb → Glb) : (modGlb s f).pan = s.pan := (rfl)
@[simp] theorem modGlb_lpan (s : State) (f : Glb → Glb) : (modGlb s f).lpan = s.lpan := (rfl)
@[simp] theorem modGlb_qd (s : State) (f : Glb → Glb) : (modGlb s f).qd = s.qd := (rfl)
@[simp] theorem modGlb_slt (s : State) (f : Glb → Glb) : (modGlb s f).slt = s.slt := (rfl)
@[simp] theorem modGlb_tst (s : State) (f : Glb → Glb) : (modGlb s f).tst = s.tst := (rfl)
@[simp] theorem modGlb_wrap (s : State) (f : Glb → Glb) : (modGlb s f).wrap = s.wrap := (rfl)
@[simp] theorem modGlb_pins (s : State) (f : Glb → Glb) : (modGlb s f).pins = s.pins := (rfl)
@[simp] theorem modGlb_hdrs (s : State) (f : Glb → Glb) : (modGlb s f).hdrs = s.hdrs := (rfl)
@[simp] theorem modGlb_host (s : State) (f : Glb → Glb) : (modGlb s f).host = s.host := (rfl)
@[simp] theorem modGlb_res (s : State) (f : Glb → Glb) : (modGlb s f).res = s.res := (rfl)
@[simp] theorem modGlb_ckpt (s : State) (f : Glb → Glb) : (modGlb s f).ckpt = s.ckpt := (rfl)
@[simp] theorem modGlb_tail (s : State) (f : Glb → Glb) : (modGlb s f).tail = s.tail := (rfl)
@[simp] theorem modGlb_dir (s : State) (f : Glb → Glb) : (modGlb s f).dir = s.dir := (rfl)
@[simp] theorem modGlb_shard (s : State) (f : Glb → Glb) : (modGlb s f).shard = s.shard := (rfl)
@[simp] theorem modGlb_salino (s : State) (f : Glb → Glb) : (modGlb s f).salino = s.salino := (rfl)
@[simp] theorem modGlb_hist (s : State) (f : Glb → Glb) : (modGlb s f).hist = s.hist := (rfl)
@[simp] theorem modGlb_pond (s : State) (f : Glb → Glb) : (modGlb s f).pond = s.pond := (rfl)
@[simp] theorem modGlb_txns (s : State) (f : Glb → Glb) : (modGlb s f).txns = s.txns := (rfl)
@[simp] theorem modGlb_wear (s : State) (f : Glb → Glb) : (modGlb s f).wear = s.wear := (rfl)
@[simp] theorem modGlb_cp (s : State) (f : Glb → Glb) : (modGlb s f).cp = s.cp := (rfl)
@[simp] theorem modGlb_sent (s : State) (f : Glb → Glb) : (modGlb s f).sent = s.sent := (rfl)
@[simp] theorem modGlb_hostBad (s : State) (f : Glb → Glb) : (modGlb s f).hostBad = s.hostBad := (rfl)
@[simp] theorem modGlb_rbuf (s : State) (f : Glb → Glb) : (modGlb s f).rbuf = s.rbuf := (rfl)
@[simp] theorem modGlb_rgot (s : State) (f : Glb → Glb) : (modGlb s f).rgot = s.rgot := (rfl)
@[simp] theorem modGlb_rfail (s : State) (f : Glb → Glb) : (modGlb s f).rfail = s.rfail := (rfl)
@[simp] theorem modGlb_miss (s : State) (f : Glb → Glb) : (modGlb s f).miss = s.miss := (rfl)
@[simp] theorem modGlb_rused (s : State) (f : Glb → Glb) : (modGlb s f).rused = s.rused := (rfl)
@[simp] theorem modGlb_rout (s : State) (f : Glb → Glb) : (modGlb s f).rout = s.rout := (rfl)
@[simp] theorem modGlb_who (s : State) (f : Glb → Glb) : (modGlb s f).who = s.who := (rfl)
@[simp] theorem modGlb_rsv (s : State) (f : Glb → Glb) : (modGlb s f).rsv = s.rsv := (rfl)
@[simp] theorem modGlb_stall (s : State) (f : Glb → Glb) : (modGlb s f).stall = s.stall := (rfl)
@[simp] theorem modGlb_grants (s : State) (f : Glb → Glb) : (modGlb s f).grants = s.grants := (rfl)
@[simp] theorem modGlb_free (s : State) (f : Glb → Glb) : (modGlb s f).free = s.free := (rfl)

/-! ### modSec -/

@[simp] theorem modSec_pending (s : State) (f : Sec → Sec) : (modSec s f).pending = s.pending := (rfl)
@[simp] theorem modSec_glb (s : State) (f : Sec → Sec) : (modSec s f).glb = s.glb := (rfl)
@[simp] theorem modSec_sec (s : State) (f : Sec → Sec) : (modSec s f).sec = f s.sec := (rfl)
@[simp] theorem modSec_pwr (s : State) (f : Sec → Sec) : (modSec s f).pwr = s.pwr := (rfl)
@[simp] theorem modSec_tide (s : State) (f : Sec → Sec) : (modSec s f).tide = s.tide := (rfl)
@[simp] theorem modSec_flt (s : State) (f : Sec → Sec) : (modSec s f).flt = s.flt := (rfl)
@[simp] theorem modSec_vrd (s : State) (f : Sec → Sec) : (modSec s f).vrd = s.vrd := (rfl)
@[simp] theorem modSec_sal (s : State) (f : Sec → Sec) : (modSec s f).sal = s.sal := (rfl)
@[simp] theorem modSec_twn (s : State) (f : Sec → Sec) : (modSec s f).twn = s.twn := (rfl)
@[simp] theorem modSec_lnk (s : State) (f : Sec → Sec) : (modSec s f).lnk = s.lnk := (rfl)
@[simp] theorem modSec_hrv (s : State) (f : Sec → Sec) : (modSec s f).hrv = s.hrv := (rfl)
@[simp] theorem modSec_rak (s : State) (f : Sec → Sec) : (modSec s f).rak = s.rak := (rfl)
@[simp] theorem modSec_pan (s : State) (f : Sec → Sec) : (modSec s f).pan = s.pan := (rfl)
@[simp] theorem modSec_lpan (s : State) (f : Sec → Sec) : (modSec s f).lpan = s.lpan := (rfl)
@[simp] theorem modSec_qd (s : State) (f : Sec → Sec) : (modSec s f).qd = s.qd := (rfl)
@[simp] theorem modSec_slt (s : State) (f : Sec → Sec) : (modSec s f).slt = s.slt := (rfl)
@[simp] theorem modSec_tst (s : State) (f : Sec → Sec) : (modSec s f).tst = s.tst := (rfl)
@[simp] theorem modSec_wrap (s : State) (f : Sec → Sec) : (modSec s f).wrap = s.wrap := (rfl)
@[simp] theorem modSec_pins (s : State) (f : Sec → Sec) : (modSec s f).pins = s.pins := (rfl)
@[simp] theorem modSec_hdrs (s : State) (f : Sec → Sec) : (modSec s f).hdrs = s.hdrs := (rfl)
@[simp] theorem modSec_host (s : State) (f : Sec → Sec) : (modSec s f).host = s.host := (rfl)
@[simp] theorem modSec_res (s : State) (f : Sec → Sec) : (modSec s f).res = s.res := (rfl)
@[simp] theorem modSec_ckpt (s : State) (f : Sec → Sec) : (modSec s f).ckpt = s.ckpt := (rfl)
@[simp] theorem modSec_tail (s : State) (f : Sec → Sec) : (modSec s f).tail = s.tail := (rfl)
@[simp] theorem modSec_dir (s : State) (f : Sec → Sec) : (modSec s f).dir = s.dir := (rfl)
@[simp] theorem modSec_shard (s : State) (f : Sec → Sec) : (modSec s f).shard = s.shard := (rfl)
@[simp] theorem modSec_salino (s : State) (f : Sec → Sec) : (modSec s f).salino = s.salino := (rfl)
@[simp] theorem modSec_hist (s : State) (f : Sec → Sec) : (modSec s f).hist = s.hist := (rfl)
@[simp] theorem modSec_pond (s : State) (f : Sec → Sec) : (modSec s f).pond = s.pond := (rfl)
@[simp] theorem modSec_txns (s : State) (f : Sec → Sec) : (modSec s f).txns = s.txns := (rfl)
@[simp] theorem modSec_wear (s : State) (f : Sec → Sec) : (modSec s f).wear = s.wear := (rfl)
@[simp] theorem modSec_cp (s : State) (f : Sec → Sec) : (modSec s f).cp = s.cp := (rfl)
@[simp] theorem modSec_sent (s : State) (f : Sec → Sec) : (modSec s f).sent = s.sent := (rfl)
@[simp] theorem modSec_hostBad (s : State) (f : Sec → Sec) : (modSec s f).hostBad = s.hostBad := (rfl)
@[simp] theorem modSec_rbuf (s : State) (f : Sec → Sec) : (modSec s f).rbuf = s.rbuf := (rfl)
@[simp] theorem modSec_rgot (s : State) (f : Sec → Sec) : (modSec s f).rgot = s.rgot := (rfl)
@[simp] theorem modSec_rfail (s : State) (f : Sec → Sec) : (modSec s f).rfail = s.rfail := (rfl)
@[simp] theorem modSec_miss (s : State) (f : Sec → Sec) : (modSec s f).miss = s.miss := (rfl)
@[simp] theorem modSec_rused (s : State) (f : Sec → Sec) : (modSec s f).rused = s.rused := (rfl)
@[simp] theorem modSec_rout (s : State) (f : Sec → Sec) : (modSec s f).rout = s.rout := (rfl)
@[simp] theorem modSec_who (s : State) (f : Sec → Sec) : (modSec s f).who = s.who := (rfl)
@[simp] theorem modSec_rsv (s : State) (f : Sec → Sec) : (modSec s f).rsv = s.rsv := (rfl)
@[simp] theorem modSec_stall (s : State) (f : Sec → Sec) : (modSec s f).stall = s.stall := (rfl)
@[simp] theorem modSec_grants (s : State) (f : Sec → Sec) : (modSec s f).grants = s.grants := (rfl)
@[simp] theorem modSec_free (s : State) (f : Sec → Sec) : (modSec s f).free = s.free := (rfl)

/-! ### modPwr -/

@[simp] theorem modPwr_pending (s : State) (f : Pwr → Pwr) : (modPwr s f).pending = s.pending := (rfl)
@[simp] theorem modPwr_glb (s : State) (f : Pwr → Pwr) : (modPwr s f).glb = s.glb := (rfl)
@[simp] theorem modPwr_sec (s : State) (f : Pwr → Pwr) : (modPwr s f).sec = s.sec := (rfl)
@[simp] theorem modPwr_pwr (s : State) (f : Pwr → Pwr) : (modPwr s f).pwr = f s.pwr := (rfl)
@[simp] theorem modPwr_tide (s : State) (f : Pwr → Pwr) : (modPwr s f).tide = s.tide := (rfl)
@[simp] theorem modPwr_flt (s : State) (f : Pwr → Pwr) : (modPwr s f).flt = s.flt := (rfl)
@[simp] theorem modPwr_vrd (s : State) (f : Pwr → Pwr) : (modPwr s f).vrd = s.vrd := (rfl)
@[simp] theorem modPwr_sal (s : State) (f : Pwr → Pwr) : (modPwr s f).sal = s.sal := (rfl)
@[simp] theorem modPwr_twn (s : State) (f : Pwr → Pwr) : (modPwr s f).twn = s.twn := (rfl)
@[simp] theorem modPwr_lnk (s : State) (f : Pwr → Pwr) : (modPwr s f).lnk = s.lnk := (rfl)
@[simp] theorem modPwr_hrv (s : State) (f : Pwr → Pwr) : (modPwr s f).hrv = s.hrv := (rfl)
@[simp] theorem modPwr_rak (s : State) (f : Pwr → Pwr) : (modPwr s f).rak = s.rak := (rfl)
@[simp] theorem modPwr_pan (s : State) (f : Pwr → Pwr) : (modPwr s f).pan = s.pan := (rfl)
@[simp] theorem modPwr_lpan (s : State) (f : Pwr → Pwr) : (modPwr s f).lpan = s.lpan := (rfl)
@[simp] theorem modPwr_qd (s : State) (f : Pwr → Pwr) : (modPwr s f).qd = s.qd := (rfl)
@[simp] theorem modPwr_slt (s : State) (f : Pwr → Pwr) : (modPwr s f).slt = s.slt := (rfl)
@[simp] theorem modPwr_tst (s : State) (f : Pwr → Pwr) : (modPwr s f).tst = s.tst := (rfl)
@[simp] theorem modPwr_wrap (s : State) (f : Pwr → Pwr) : (modPwr s f).wrap = s.wrap := (rfl)
@[simp] theorem modPwr_pins (s : State) (f : Pwr → Pwr) : (modPwr s f).pins = s.pins := (rfl)
@[simp] theorem modPwr_hdrs (s : State) (f : Pwr → Pwr) : (modPwr s f).hdrs = s.hdrs := (rfl)
@[simp] theorem modPwr_host (s : State) (f : Pwr → Pwr) : (modPwr s f).host = s.host := (rfl)
@[simp] theorem modPwr_res (s : State) (f : Pwr → Pwr) : (modPwr s f).res = s.res := (rfl)
@[simp] theorem modPwr_ckpt (s : State) (f : Pwr → Pwr) : (modPwr s f).ckpt = s.ckpt := (rfl)
@[simp] theorem modPwr_tail (s : State) (f : Pwr → Pwr) : (modPwr s f).tail = s.tail := (rfl)
@[simp] theorem modPwr_dir (s : State) (f : Pwr → Pwr) : (modPwr s f).dir = s.dir := (rfl)
@[simp] theorem modPwr_shard (s : State) (f : Pwr → Pwr) : (modPwr s f).shard = s.shard := (rfl)
@[simp] theorem modPwr_salino (s : State) (f : Pwr → Pwr) : (modPwr s f).salino = s.salino := (rfl)
@[simp] theorem modPwr_hist (s : State) (f : Pwr → Pwr) : (modPwr s f).hist = s.hist := (rfl)
@[simp] theorem modPwr_pond (s : State) (f : Pwr → Pwr) : (modPwr s f).pond = s.pond := (rfl)
@[simp] theorem modPwr_txns (s : State) (f : Pwr → Pwr) : (modPwr s f).txns = s.txns := (rfl)
@[simp] theorem modPwr_wear (s : State) (f : Pwr → Pwr) : (modPwr s f).wear = s.wear := (rfl)
@[simp] theorem modPwr_cp (s : State) (f : Pwr → Pwr) : (modPwr s f).cp = s.cp := (rfl)
@[simp] theorem modPwr_sent (s : State) (f : Pwr → Pwr) : (modPwr s f).sent = s.sent := (rfl)
@[simp] theorem modPwr_hostBad (s : State) (f : Pwr → Pwr) : (modPwr s f).hostBad = s.hostBad := (rfl)
@[simp] theorem modPwr_rbuf (s : State) (f : Pwr → Pwr) : (modPwr s f).rbuf = s.rbuf := (rfl)
@[simp] theorem modPwr_rgot (s : State) (f : Pwr → Pwr) : (modPwr s f).rgot = s.rgot := (rfl)
@[simp] theorem modPwr_rfail (s : State) (f : Pwr → Pwr) : (modPwr s f).rfail = s.rfail := (rfl)
@[simp] theorem modPwr_miss (s : State) (f : Pwr → Pwr) : (modPwr s f).miss = s.miss := (rfl)
@[simp] theorem modPwr_rused (s : State) (f : Pwr → Pwr) : (modPwr s f).rused = s.rused := (rfl)
@[simp] theorem modPwr_rout (s : State) (f : Pwr → Pwr) : (modPwr s f).rout = s.rout := (rfl)
@[simp] theorem modPwr_who (s : State) (f : Pwr → Pwr) : (modPwr s f).who = s.who := (rfl)
@[simp] theorem modPwr_rsv (s : State) (f : Pwr → Pwr) : (modPwr s f).rsv = s.rsv := (rfl)
@[simp] theorem modPwr_stall (s : State) (f : Pwr → Pwr) : (modPwr s f).stall = s.stall := (rfl)
@[simp] theorem modPwr_grants (s : State) (f : Pwr → Pwr) : (modPwr s f).grants = s.grants := (rfl)
@[simp] theorem modPwr_free (s : State) (f : Pwr → Pwr) : (modPwr s f).free = s.free := (rfl)

/-! ### modTide -/

@[simp] theorem modTide_pending (s : State) (f : Tide → Tide) : (modTide s f).pending = s.pending := (rfl)
@[simp] theorem modTide_glb (s : State) (f : Tide → Tide) : (modTide s f).glb = s.glb := (rfl)
@[simp] theorem modTide_sec (s : State) (f : Tide → Tide) : (modTide s f).sec = s.sec := (rfl)
@[simp] theorem modTide_pwr (s : State) (f : Tide → Tide) : (modTide s f).pwr = s.pwr := (rfl)
@[simp] theorem modTide_tide (s : State) (f : Tide → Tide) : (modTide s f).tide = f s.tide := (rfl)
@[simp] theorem modTide_flt (s : State) (f : Tide → Tide) : (modTide s f).flt = s.flt := (rfl)
@[simp] theorem modTide_vrd (s : State) (f : Tide → Tide) : (modTide s f).vrd = s.vrd := (rfl)
@[simp] theorem modTide_sal (s : State) (f : Tide → Tide) : (modTide s f).sal = s.sal := (rfl)
@[simp] theorem modTide_twn (s : State) (f : Tide → Tide) : (modTide s f).twn = s.twn := (rfl)
@[simp] theorem modTide_lnk (s : State) (f : Tide → Tide) : (modTide s f).lnk = s.lnk := (rfl)
@[simp] theorem modTide_hrv (s : State) (f : Tide → Tide) : (modTide s f).hrv = s.hrv := (rfl)
@[simp] theorem modTide_rak (s : State) (f : Tide → Tide) : (modTide s f).rak = s.rak := (rfl)
@[simp] theorem modTide_pan (s : State) (f : Tide → Tide) : (modTide s f).pan = s.pan := (rfl)
@[simp] theorem modTide_lpan (s : State) (f : Tide → Tide) : (modTide s f).lpan = s.lpan := (rfl)
@[simp] theorem modTide_qd (s : State) (f : Tide → Tide) : (modTide s f).qd = s.qd := (rfl)
@[simp] theorem modTide_slt (s : State) (f : Tide → Tide) : (modTide s f).slt = s.slt := (rfl)
@[simp] theorem modTide_tst (s : State) (f : Tide → Tide) : (modTide s f).tst = s.tst := (rfl)
@[simp] theorem modTide_wrap (s : State) (f : Tide → Tide) : (modTide s f).wrap = s.wrap := (rfl)
@[simp] theorem modTide_pins (s : State) (f : Tide → Tide) : (modTide s f).pins = s.pins := (rfl)
@[simp] theorem modTide_hdrs (s : State) (f : Tide → Tide) : (modTide s f).hdrs = s.hdrs := (rfl)
@[simp] theorem modTide_host (s : State) (f : Tide → Tide) : (modTide s f).host = s.host := (rfl)
@[simp] theorem modTide_res (s : State) (f : Tide → Tide) : (modTide s f).res = s.res := (rfl)
@[simp] theorem modTide_ckpt (s : State) (f : Tide → Tide) : (modTide s f).ckpt = s.ckpt := (rfl)
@[simp] theorem modTide_tail (s : State) (f : Tide → Tide) : (modTide s f).tail = s.tail := (rfl)
@[simp] theorem modTide_dir (s : State) (f : Tide → Tide) : (modTide s f).dir = s.dir := (rfl)
@[simp] theorem modTide_shard (s : State) (f : Tide → Tide) : (modTide s f).shard = s.shard := (rfl)
@[simp] theorem modTide_salino (s : State) (f : Tide → Tide) : (modTide s f).salino = s.salino := (rfl)
@[simp] theorem modTide_hist (s : State) (f : Tide → Tide) : (modTide s f).hist = s.hist := (rfl)
@[simp] theorem modTide_pond (s : State) (f : Tide → Tide) : (modTide s f).pond = s.pond := (rfl)
@[simp] theorem modTide_txns (s : State) (f : Tide → Tide) : (modTide s f).txns = s.txns := (rfl)
@[simp] theorem modTide_wear (s : State) (f : Tide → Tide) : (modTide s f).wear = s.wear := (rfl)
@[simp] theorem modTide_cp (s : State) (f : Tide → Tide) : (modTide s f).cp = s.cp := (rfl)
@[simp] theorem modTide_sent (s : State) (f : Tide → Tide) : (modTide s f).sent = s.sent := (rfl)
@[simp] theorem modTide_hostBad (s : State) (f : Tide → Tide) : (modTide s f).hostBad = s.hostBad := (rfl)
@[simp] theorem modTide_rbuf (s : State) (f : Tide → Tide) : (modTide s f).rbuf = s.rbuf := (rfl)
@[simp] theorem modTide_rgot (s : State) (f : Tide → Tide) : (modTide s f).rgot = s.rgot := (rfl)
@[simp] theorem modTide_rfail (s : State) (f : Tide → Tide) : (modTide s f).rfail = s.rfail := (rfl)
@[simp] theorem modTide_miss (s : State) (f : Tide → Tide) : (modTide s f).miss = s.miss := (rfl)
@[simp] theorem modTide_rused (s : State) (f : Tide → Tide) : (modTide s f).rused = s.rused := (rfl)
@[simp] theorem modTide_rout (s : State) (f : Tide → Tide) : (modTide s f).rout = s.rout := (rfl)
@[simp] theorem modTide_who (s : State) (f : Tide → Tide) : (modTide s f).who = s.who := (rfl)
@[simp] theorem modTide_rsv (s : State) (f : Tide → Tide) : (modTide s f).rsv = s.rsv := (rfl)
@[simp] theorem modTide_stall (s : State) (f : Tide → Tide) : (modTide s f).stall = s.stall := (rfl)
@[simp] theorem modTide_grants (s : State) (f : Tide → Tide) : (modTide s f).grants = s.grants := (rfl)
@[simp] theorem modTide_free (s : State) (f : Tide → Tide) : (modTide s f).free = s.free := (rfl)

/-! ### modFlt -/

@[simp] theorem modFlt_pending (s : State) (f : Flt → Flt) : (modFlt s f).pending = s.pending := (rfl)
@[simp] theorem modFlt_glb (s : State) (f : Flt → Flt) : (modFlt s f).glb = s.glb := (rfl)
@[simp] theorem modFlt_sec (s : State) (f : Flt → Flt) : (modFlt s f).sec = s.sec := (rfl)
@[simp] theorem modFlt_pwr (s : State) (f : Flt → Flt) : (modFlt s f).pwr = s.pwr := (rfl)
@[simp] theorem modFlt_tide (s : State) (f : Flt → Flt) : (modFlt s f).tide = s.tide := (rfl)
@[simp] theorem modFlt_flt (s : State) (f : Flt → Flt) : (modFlt s f).flt = f s.flt := (rfl)
@[simp] theorem modFlt_vrd (s : State) (f : Flt → Flt) : (modFlt s f).vrd = s.vrd := (rfl)
@[simp] theorem modFlt_sal (s : State) (f : Flt → Flt) : (modFlt s f).sal = s.sal := (rfl)
@[simp] theorem modFlt_twn (s : State) (f : Flt → Flt) : (modFlt s f).twn = s.twn := (rfl)
@[simp] theorem modFlt_lnk (s : State) (f : Flt → Flt) : (modFlt s f).lnk = s.lnk := (rfl)
@[simp] theorem modFlt_hrv (s : State) (f : Flt → Flt) : (modFlt s f).hrv = s.hrv := (rfl)
@[simp] theorem modFlt_rak (s : State) (f : Flt → Flt) : (modFlt s f).rak = s.rak := (rfl)
@[simp] theorem modFlt_pan (s : State) (f : Flt → Flt) : (modFlt s f).pan = s.pan := (rfl)
@[simp] theorem modFlt_lpan (s : State) (f : Flt → Flt) : (modFlt s f).lpan = s.lpan := (rfl)
@[simp] theorem modFlt_qd (s : State) (f : Flt → Flt) : (modFlt s f).qd = s.qd := (rfl)
@[simp] theorem modFlt_slt (s : State) (f : Flt → Flt) : (modFlt s f).slt = s.slt := (rfl)
@[simp] theorem modFlt_tst (s : State) (f : Flt → Flt) : (modFlt s f).tst = s.tst := (rfl)
@[simp] theorem modFlt_wrap (s : State) (f : Flt → Flt) : (modFlt s f).wrap = s.wrap := (rfl)
@[simp] theorem modFlt_pins (s : State) (f : Flt → Flt) : (modFlt s f).pins = s.pins := (rfl)
@[simp] theorem modFlt_hdrs (s : State) (f : Flt → Flt) : (modFlt s f).hdrs = s.hdrs := (rfl)
@[simp] theorem modFlt_host (s : State) (f : Flt → Flt) : (modFlt s f).host = s.host := (rfl)
@[simp] theorem modFlt_res (s : State) (f : Flt → Flt) : (modFlt s f).res = s.res := (rfl)
@[simp] theorem modFlt_ckpt (s : State) (f : Flt → Flt) : (modFlt s f).ckpt = s.ckpt := (rfl)
@[simp] theorem modFlt_tail (s : State) (f : Flt → Flt) : (modFlt s f).tail = s.tail := (rfl)
@[simp] theorem modFlt_dir (s : State) (f : Flt → Flt) : (modFlt s f).dir = s.dir := (rfl)
@[simp] theorem modFlt_shard (s : State) (f : Flt → Flt) : (modFlt s f).shard = s.shard := (rfl)
@[simp] theorem modFlt_salino (s : State) (f : Flt → Flt) : (modFlt s f).salino = s.salino := (rfl)
@[simp] theorem modFlt_hist (s : State) (f : Flt → Flt) : (modFlt s f).hist = s.hist := (rfl)
@[simp] theorem modFlt_pond (s : State) (f : Flt → Flt) : (modFlt s f).pond = s.pond := (rfl)
@[simp] theorem modFlt_txns (s : State) (f : Flt → Flt) : (modFlt s f).txns = s.txns := (rfl)
@[simp] theorem modFlt_wear (s : State) (f : Flt → Flt) : (modFlt s f).wear = s.wear := (rfl)
@[simp] theorem modFlt_cp (s : State) (f : Flt → Flt) : (modFlt s f).cp = s.cp := (rfl)
@[simp] theorem modFlt_sent (s : State) (f : Flt → Flt) : (modFlt s f).sent = s.sent := (rfl)
@[simp] theorem modFlt_hostBad (s : State) (f : Flt → Flt) : (modFlt s f).hostBad = s.hostBad := (rfl)
@[simp] theorem modFlt_rbuf (s : State) (f : Flt → Flt) : (modFlt s f).rbuf = s.rbuf := (rfl)
@[simp] theorem modFlt_rgot (s : State) (f : Flt → Flt) : (modFlt s f).rgot = s.rgot := (rfl)
@[simp] theorem modFlt_rfail (s : State) (f : Flt → Flt) : (modFlt s f).rfail = s.rfail := (rfl)
@[simp] theorem modFlt_miss (s : State) (f : Flt → Flt) : (modFlt s f).miss = s.miss := (rfl)
@[simp] theorem modFlt_rused (s : State) (f : Flt → Flt) : (modFlt s f).rused = s.rused := (rfl)
@[simp] theorem modFlt_rout (s : State) (f : Flt → Flt) : (modFlt s f).rout = s.rout := (rfl)
@[simp] theorem modFlt_who (s : State) (f : Flt → Flt) : (modFlt s f).who = s.who := (rfl)
@[simp] theorem modFlt_rsv (s : State) (f : Flt → Flt) : (modFlt s f).rsv = s.rsv := (rfl)
@[simp] theorem modFlt_stall (s : State) (f : Flt → Flt) : (modFlt s f).stall = s.stall := (rfl)
@[simp] theorem modFlt_grants (s : State) (f : Flt → Flt) : (modFlt s f).grants = s.grants := (rfl)
@[simp] theorem modFlt_free (s : State) (f : Flt → Flt) : (modFlt s f).free = s.free := (rfl)

/-! ### modSalR -/

@[simp] theorem modSalR_pending (s : State) (f : Sal → Sal) : (modSalR s f).pending = s.pending := (rfl)
@[simp] theorem modSalR_glb (s : State) (f : Sal → Sal) : (modSalR s f).glb = s.glb := (rfl)
@[simp] theorem modSalR_sec (s : State) (f : Sal → Sal) : (modSalR s f).sec = s.sec := (rfl)
@[simp] theorem modSalR_pwr (s : State) (f : Sal → Sal) : (modSalR s f).pwr = s.pwr := (rfl)
@[simp] theorem modSalR_tide (s : State) (f : Sal → Sal) : (modSalR s f).tide = s.tide := (rfl)
@[simp] theorem modSalR_flt (s : State) (f : Sal → Sal) : (modSalR s f).flt = s.flt := (rfl)
@[simp] theorem modSalR_vrd (s : State) (f : Sal → Sal) : (modSalR s f).vrd = s.vrd := (rfl)
@[simp] theorem modSalR_sal (s : State) (f : Sal → Sal) : (modSalR s f).sal = f s.sal := (rfl)
@[simp] theorem modSalR_twn (s : State) (f : Sal → Sal) : (modSalR s f).twn = s.twn := (rfl)
@[simp] theorem modSalR_lnk (s : State) (f : Sal → Sal) : (modSalR s f).lnk = s.lnk := (rfl)
@[simp] theorem modSalR_hrv (s : State) (f : Sal → Sal) : (modSalR s f).hrv = s.hrv := (rfl)
@[simp] theorem modSalR_rak (s : State) (f : Sal → Sal) : (modSalR s f).rak = s.rak := (rfl)
@[simp] theorem modSalR_pan (s : State) (f : Sal → Sal) : (modSalR s f).pan = s.pan := (rfl)
@[simp] theorem modSalR_lpan (s : State) (f : Sal → Sal) : (modSalR s f).lpan = s.lpan := (rfl)
@[simp] theorem modSalR_qd (s : State) (f : Sal → Sal) : (modSalR s f).qd = s.qd := (rfl)
@[simp] theorem modSalR_slt (s : State) (f : Sal → Sal) : (modSalR s f).slt = s.slt := (rfl)
@[simp] theorem modSalR_tst (s : State) (f : Sal → Sal) : (modSalR s f).tst = s.tst := (rfl)
@[simp] theorem modSalR_wrap (s : State) (f : Sal → Sal) : (modSalR s f).wrap = s.wrap := (rfl)
@[simp] theorem modSalR_pins (s : State) (f : Sal → Sal) : (modSalR s f).pins = s.pins := (rfl)
@[simp] theorem modSalR_hdrs (s : State) (f : Sal → Sal) : (modSalR s f).hdrs = s.hdrs := (rfl)
@[simp] theorem modSalR_host (s : State) (f : Sal → Sal) : (modSalR s f).host = s.host := (rfl)
@[simp] theorem modSalR_res (s : State) (f : Sal → Sal) : (modSalR s f).res = s.res := (rfl)
@[simp] theorem modSalR_ckpt (s : State) (f : Sal → Sal) : (modSalR s f).ckpt = s.ckpt := (rfl)
@[simp] theorem modSalR_tail (s : State) (f : Sal → Sal) : (modSalR s f).tail = s.tail := (rfl)
@[simp] theorem modSalR_dir (s : State) (f : Sal → Sal) : (modSalR s f).dir = s.dir := (rfl)
@[simp] theorem modSalR_shard (s : State) (f : Sal → Sal) : (modSalR s f).shard = s.shard := (rfl)
@[simp] theorem modSalR_salino (s : State) (f : Sal → Sal) : (modSalR s f).salino = s.salino := (rfl)
@[simp] theorem modSalR_hist (s : State) (f : Sal → Sal) : (modSalR s f).hist = s.hist := (rfl)
@[simp] theorem modSalR_pond (s : State) (f : Sal → Sal) : (modSalR s f).pond = s.pond := (rfl)
@[simp] theorem modSalR_txns (s : State) (f : Sal → Sal) : (modSalR s f).txns = s.txns := (rfl)
@[simp] theorem modSalR_wear (s : State) (f : Sal → Sal) : (modSalR s f).wear = s.wear := (rfl)
@[simp] theorem modSalR_cp (s : State) (f : Sal → Sal) : (modSalR s f).cp = s.cp := (rfl)
@[simp] theorem modSalR_sent (s : State) (f : Sal → Sal) : (modSalR s f).sent = s.sent := (rfl)
@[simp] theorem modSalR_hostBad (s : State) (f : Sal → Sal) : (modSalR s f).hostBad = s.hostBad := (rfl)
@[simp] theorem modSalR_rbuf (s : State) (f : Sal → Sal) : (modSalR s f).rbuf = s.rbuf := (rfl)
@[simp] theorem modSalR_rgot (s : State) (f : Sal → Sal) : (modSalR s f).rgot = s.rgot := (rfl)
@[simp] theorem modSalR_rfail (s : State) (f : Sal → Sal) : (modSalR s f).rfail = s.rfail := (rfl)
@[simp] theorem modSalR_miss (s : State) (f : Sal → Sal) : (modSalR s f).miss = s.miss := (rfl)
@[simp] theorem modSalR_rused (s : State) (f : Sal → Sal) : (modSalR s f).rused = s.rused := (rfl)
@[simp] theorem modSalR_rout (s : State) (f : Sal → Sal) : (modSalR s f).rout = s.rout := (rfl)
@[simp] theorem modSalR_who (s : State) (f : Sal → Sal) : (modSalR s f).who = s.who := (rfl)
@[simp] theorem modSalR_rsv (s : State) (f : Sal → Sal) : (modSalR s f).rsv = s.rsv := (rfl)
@[simp] theorem modSalR_stall (s : State) (f : Sal → Sal) : (modSalR s f).stall = s.stall := (rfl)
@[simp] theorem modSalR_grants (s : State) (f : Sal → Sal) : (modSalR s f).grants = s.grants := (rfl)
@[simp] theorem modSalR_free (s : State) (f : Sal → Sal) : (modSalR s f).free = s.free := (rfl)

/-! ### modVrd -/

@[simp] theorem modVrd_pending (s : State) (f : Vrd → Vrd) : (modVrd s f).pending = s.pending := (rfl)
@[simp] theorem modVrd_glb (s : State) (f : Vrd → Vrd) : (modVrd s f).glb = s.glb := (rfl)
@[simp] theorem modVrd_sec (s : State) (f : Vrd → Vrd) : (modVrd s f).sec = s.sec := (rfl)
@[simp] theorem modVrd_pwr (s : State) (f : Vrd → Vrd) : (modVrd s f).pwr = s.pwr := (rfl)
@[simp] theorem modVrd_tide (s : State) (f : Vrd → Vrd) : (modVrd s f).tide = s.tide := (rfl)
@[simp] theorem modVrd_flt (s : State) (f : Vrd → Vrd) : (modVrd s f).flt = s.flt := (rfl)
@[simp] theorem modVrd_vrd (s : State) (f : Vrd → Vrd) : (modVrd s f).vrd = f s.vrd := (rfl)
@[simp] theorem modVrd_sal (s : State) (f : Vrd → Vrd) : (modVrd s f).sal = s.sal := (rfl)
@[simp] theorem modVrd_twn (s : State) (f : Vrd → Vrd) : (modVrd s f).twn = s.twn := (rfl)
@[simp] theorem modVrd_lnk (s : State) (f : Vrd → Vrd) : (modVrd s f).lnk = s.lnk := (rfl)
@[simp] theorem modVrd_hrv (s : State) (f : Vrd → Vrd) : (modVrd s f).hrv = s.hrv := (rfl)
@[simp] theorem modVrd_rak (s : State) (f : Vrd → Vrd) : (modVrd s f).rak = s.rak := (rfl)
@[simp] theorem modVrd_pan (s : State) (f : Vrd → Vrd) : (modVrd s f).pan = s.pan := (rfl)
@[simp] theorem modVrd_lpan (s : State) (f : Vrd → Vrd) : (modVrd s f).lpan = s.lpan := (rfl)
@[simp] theorem modVrd_qd (s : State) (f : Vrd → Vrd) : (modVrd s f).qd = s.qd := (rfl)
@[simp] theorem modVrd_slt (s : State) (f : Vrd → Vrd) : (modVrd s f).slt = s.slt := (rfl)
@[simp] theorem modVrd_tst (s : State) (f : Vrd → Vrd) : (modVrd s f).tst = s.tst := (rfl)
@[simp] theorem modVrd_wrap (s : State) (f : Vrd → Vrd) : (modVrd s f).wrap = s.wrap := (rfl)
@[simp] theorem modVrd_pins (s : State) (f : Vrd → Vrd) : (modVrd s f).pins = s.pins := (rfl)
@[simp] theorem modVrd_hdrs (s : State) (f : Vrd → Vrd) : (modVrd s f).hdrs = s.hdrs := (rfl)
@[simp] theorem modVrd_host (s : State) (f : Vrd → Vrd) : (modVrd s f).host = s.host := (rfl)
@[simp] theorem modVrd_res (s : State) (f : Vrd → Vrd) : (modVrd s f).res = s.res := (rfl)
@[simp] theorem modVrd_ckpt (s : State) (f : Vrd → Vrd) : (modVrd s f).ckpt = s.ckpt := (rfl)
@[simp] theorem modVrd_tail (s : State) (f : Vrd → Vrd) : (modVrd s f).tail = s.tail := (rfl)
@[simp] theorem modVrd_dir (s : State) (f : Vrd → Vrd) : (modVrd s f).dir = s.dir := (rfl)
@[simp] theorem modVrd_shard (s : State) (f : Vrd → Vrd) : (modVrd s f).shard = s.shard := (rfl)
@[simp] theorem modVrd_salino (s : State) (f : Vrd → Vrd) : (modVrd s f).salino = s.salino := (rfl)
@[simp] theorem modVrd_hist (s : State) (f : Vrd → Vrd) : (modVrd s f).hist = s.hist := (rfl)
@[simp] theorem modVrd_pond (s : State) (f : Vrd → Vrd) : (modVrd s f).pond = s.pond := (rfl)
@[simp] theorem modVrd_txns (s : State) (f : Vrd → Vrd) : (modVrd s f).txns = s.txns := (rfl)
@[simp] theorem modVrd_wear (s : State) (f : Vrd → Vrd) : (modVrd s f).wear = s.wear := (rfl)
@[simp] theorem modVrd_cp (s : State) (f : Vrd → Vrd) : (modVrd s f).cp = s.cp := (rfl)
@[simp] theorem modVrd_sent (s : State) (f : Vrd → Vrd) : (modVrd s f).sent = s.sent := (rfl)
@[simp] theorem modVrd_hostBad (s : State) (f : Vrd → Vrd) : (modVrd s f).hostBad = s.hostBad := (rfl)
@[simp] theorem modVrd_rbuf (s : State) (f : Vrd → Vrd) : (modVrd s f).rbuf = s.rbuf := (rfl)
@[simp] theorem modVrd_rgot (s : State) (f : Vrd → Vrd) : (modVrd s f).rgot = s.rgot := (rfl)
@[simp] theorem modVrd_rfail (s : State) (f : Vrd → Vrd) : (modVrd s f).rfail = s.rfail := (rfl)
@[simp] theorem modVrd_miss (s : State) (f : Vrd → Vrd) : (modVrd s f).miss = s.miss := (rfl)
@[simp] theorem modVrd_rused (s : State) (f : Vrd → Vrd) : (modVrd s f).rused = s.rused := (rfl)
@[simp] theorem modVrd_rout (s : State) (f : Vrd → Vrd) : (modVrd s f).rout = s.rout := (rfl)
@[simp] theorem modVrd_who (s : State) (f : Vrd → Vrd) : (modVrd s f).who = s.who := (rfl)
@[simp] theorem modVrd_rsv (s : State) (f : Vrd → Vrd) : (modVrd s f).rsv = s.rsv := (rfl)
@[simp] theorem modVrd_stall (s : State) (f : Vrd → Vrd) : (modVrd s f).stall = s.stall := (rfl)
@[simp] theorem modVrd_grants (s : State) (f : Vrd → Vrd) : (modVrd s f).grants = s.grants := (rfl)
@[simp] theorem modVrd_free (s : State) (f : Vrd → Vrd) : (modVrd s f).free = s.free := (rfl)

/-! ### modTwn -/

@[simp] theorem modTwn_pending (s : State) (f : Twn → Twn) : (modTwn s f).pending = s.pending := (rfl)
@[simp] theorem modTwn_glb (s : State) (f : Twn → Twn) : (modTwn s f).glb = s.glb := (rfl)
@[simp] theorem modTwn_sec (s : State) (f : Twn → Twn) : (modTwn s f).sec = s.sec := (rfl)
@[simp] theorem modTwn_pwr (s : State) (f : Twn → Twn) : (modTwn s f).pwr = s.pwr := (rfl)
@[simp] theorem modTwn_tide (s : State) (f : Twn → Twn) : (modTwn s f).tide = s.tide := (rfl)
@[simp] theorem modTwn_flt (s : State) (f : Twn → Twn) : (modTwn s f).flt = s.flt := (rfl)
@[simp] theorem modTwn_vrd (s : State) (f : Twn → Twn) : (modTwn s f).vrd = s.vrd := (rfl)
@[simp] theorem modTwn_sal (s : State) (f : Twn → Twn) : (modTwn s f).sal = s.sal := (rfl)
@[simp] theorem modTwn_twn (s : State) (f : Twn → Twn) : (modTwn s f).twn = f s.twn := (rfl)
@[simp] theorem modTwn_lnk (s : State) (f : Twn → Twn) : (modTwn s f).lnk = s.lnk := (rfl)
@[simp] theorem modTwn_hrv (s : State) (f : Twn → Twn) : (modTwn s f).hrv = s.hrv := (rfl)
@[simp] theorem modTwn_rak (s : State) (f : Twn → Twn) : (modTwn s f).rak = s.rak := (rfl)
@[simp] theorem modTwn_pan (s : State) (f : Twn → Twn) : (modTwn s f).pan = s.pan := (rfl)
@[simp] theorem modTwn_lpan (s : State) (f : Twn → Twn) : (modTwn s f).lpan = s.lpan := (rfl)
@[simp] theorem modTwn_qd (s : State) (f : Twn → Twn) : (modTwn s f).qd = s.qd := (rfl)
@[simp] theorem modTwn_slt (s : State) (f : Twn → Twn) : (modTwn s f).slt = s.slt := (rfl)
@[simp] theorem modTwn_tst (s : State) (f : Twn → Twn) : (modTwn s f).tst = s.tst := (rfl)
@[simp] theorem modTwn_wrap (s : State) (f : Twn → Twn) : (modTwn s f).wrap = s.wrap := (rfl)
@[simp] theorem modTwn_pins (s : State) (f : Twn → Twn) : (modTwn s f).pins = s.pins := (rfl)
@[simp] theorem modTwn_hdrs (s : State) (f : Twn → Twn) : (modTwn s f).hdrs = s.hdrs := (rfl)
@[simp] theorem modTwn_host (s : State) (f : Twn → Twn) : (modTwn s f).host = s.host := (rfl)
@[simp] theorem modTwn_res (s : State) (f : Twn → Twn) : (modTwn s f).res = s.res := (rfl)
@[simp] theorem modTwn_ckpt (s : State) (f : Twn → Twn) : (modTwn s f).ckpt = s.ckpt := (rfl)
@[simp] theorem modTwn_tail (s : State) (f : Twn → Twn) : (modTwn s f).tail = s.tail := (rfl)
@[simp] theorem modTwn_dir (s : State) (f : Twn → Twn) : (modTwn s f).dir = s.dir := (rfl)
@[simp] theorem modTwn_shard (s : State) (f : Twn → Twn) : (modTwn s f).shard = s.shard := (rfl)
@[simp] theorem modTwn_salino (s : State) (f : Twn → Twn) : (modTwn s f).salino = s.salino := (rfl)
@[simp] theorem modTwn_hist (s : State) (f : Twn → Twn) : (modTwn s f).hist = s.hist := (rfl)
@[simp] theorem modTwn_pond (s : State) (f : Twn → Twn) : (modTwn s f).pond = s.pond := (rfl)
@[simp] theorem modTwn_txns (s : State) (f : Twn → Twn) : (modTwn s f).txns = s.txns := (rfl)
@[simp] theorem modTwn_wear (s : State) (f : Twn → Twn) : (modTwn s f).wear = s.wear := (rfl)
@[simp] theorem modTwn_cp (s : State) (f : Twn → Twn) : (modTwn s f).cp = s.cp := (rfl)
@[simp] theorem modTwn_sent (s : State) (f : Twn → Twn) : (modTwn s f).sent = s.sent := (rfl)
@[simp] theorem modTwn_hostBad (s : State) (f : Twn → Twn) : (modTwn s f).hostBad = s.hostBad := (rfl)
@[simp] theorem modTwn_rbuf (s : State) (f : Twn → Twn) : (modTwn s f).rbuf = s.rbuf := (rfl)
@[simp] theorem modTwn_rgot (s : State) (f : Twn → Twn) : (modTwn s f).rgot = s.rgot := (rfl)
@[simp] theorem modTwn_rfail (s : State) (f : Twn → Twn) : (modTwn s f).rfail = s.rfail := (rfl)
@[simp] theorem modTwn_miss (s : State) (f : Twn → Twn) : (modTwn s f).miss = s.miss := (rfl)
@[simp] theorem modTwn_rused (s : State) (f : Twn → Twn) : (modTwn s f).rused = s.rused := (rfl)
@[simp] theorem modTwn_rout (s : State) (f : Twn → Twn) : (modTwn s f).rout = s.rout := (rfl)
@[simp] theorem modTwn_who (s : State) (f : Twn → Twn) : (modTwn s f).who = s.who := (rfl)
@[simp] theorem modTwn_rsv (s : State) (f : Twn → Twn) : (modTwn s f).rsv = s.rsv := (rfl)
@[simp] theorem modTwn_stall (s : State) (f : Twn → Twn) : (modTwn s f).stall = s.stall := (rfl)
@[simp] theorem modTwn_grants (s : State) (f : Twn → Twn) : (modTwn s f).grants = s.grants := (rfl)
@[simp] theorem modTwn_free (s : State) (f : Twn → Twn) : (modTwn s f).free = s.free := (rfl)

/-! ### modRak -/

@[simp] theorem modRak_pending (s : State) (f : Rak → Rak) : (modRak s f).pending = s.pending := (rfl)
@[simp] theorem modRak_glb (s : State) (f : Rak → Rak) : (modRak s f).glb = s.glb := (rfl)
@[simp] theorem modRak_sec (s : State) (f : Rak → Rak) : (modRak s f).sec = s.sec := (rfl)
@[simp] theorem modRak_pwr (s : State) (f : Rak → Rak) : (modRak s f).pwr = s.pwr := (rfl)
@[simp] theorem modRak_tide (s : State) (f : Rak → Rak) : (modRak s f).tide = s.tide := (rfl)
@[simp] theorem modRak_flt (s : State) (f : Rak → Rak) : (modRak s f).flt = s.flt := (rfl)
@[simp] theorem modRak_vrd (s : State) (f : Rak → Rak) : (modRak s f).vrd = s.vrd := (rfl)
@[simp] theorem modRak_sal (s : State) (f : Rak → Rak) : (modRak s f).sal = s.sal := (rfl)
@[simp] theorem modRak_twn (s : State) (f : Rak → Rak) : (modRak s f).twn = s.twn := (rfl)
@[simp] theorem modRak_lnk (s : State) (f : Rak → Rak) : (modRak s f).lnk = s.lnk := (rfl)
@[simp] theorem modRak_hrv (s : State) (f : Rak → Rak) : (modRak s f).hrv = s.hrv := (rfl)
@[simp] theorem modRak_rak (s : State) (f : Rak → Rak) : (modRak s f).rak = f s.rak := (rfl)
@[simp] theorem modRak_pan (s : State) (f : Rak → Rak) : (modRak s f).pan = s.pan := (rfl)
@[simp] theorem modRak_lpan (s : State) (f : Rak → Rak) : (modRak s f).lpan = s.lpan := (rfl)
@[simp] theorem modRak_qd (s : State) (f : Rak → Rak) : (modRak s f).qd = s.qd := (rfl)
@[simp] theorem modRak_slt (s : State) (f : Rak → Rak) : (modRak s f).slt = s.slt := (rfl)
@[simp] theorem modRak_tst (s : State) (f : Rak → Rak) : (modRak s f).tst = s.tst := (rfl)
@[simp] theorem modRak_wrap (s : State) (f : Rak → Rak) : (modRak s f).wrap = s.wrap := (rfl)
@[simp] theorem modRak_pins (s : State) (f : Rak → Rak) : (modRak s f).pins = s.pins := (rfl)
@[simp] theorem modRak_hdrs (s : State) (f : Rak → Rak) : (modRak s f).hdrs = s.hdrs := (rfl)
@[simp] theorem modRak_host (s : State) (f : Rak → Rak) : (modRak s f).host = s.host := (rfl)
@[simp] theorem modRak_res (s : State) (f : Rak → Rak) : (modRak s f).res = s.res := (rfl)
@[simp] theorem modRak_ckpt (s : State) (f : Rak → Rak) : (modRak s f).ckpt = s.ckpt := (rfl)
@[simp] theorem modRak_tail (s : State) (f : Rak → Rak) : (modRak s f).tail = s.tail := (rfl)
@[simp] theorem modRak_dir (s : State) (f : Rak → Rak) : (modRak s f).dir = s.dir := (rfl)
@[simp] theorem modRak_shard (s : State) (f : Rak → Rak) : (modRak s f).shard = s.shard := (rfl)
@[simp] theorem modRak_salino (s : State) (f : Rak → Rak) : (modRak s f).salino = s.salino := (rfl)
@[simp] theorem modRak_hist (s : State) (f : Rak → Rak) : (modRak s f).hist = s.hist := (rfl)
@[simp] theorem modRak_pond (s : State) (f : Rak → Rak) : (modRak s f).pond = s.pond := (rfl)
@[simp] theorem modRak_txns (s : State) (f : Rak → Rak) : (modRak s f).txns = s.txns := (rfl)
@[simp] theorem modRak_wear (s : State) (f : Rak → Rak) : (modRak s f).wear = s.wear := (rfl)
@[simp] theorem modRak_cp (s : State) (f : Rak → Rak) : (modRak s f).cp = s.cp := (rfl)
@[simp] theorem modRak_sent (s : State) (f : Rak → Rak) : (modRak s f).sent = s.sent := (rfl)
@[simp] theorem modRak_hostBad (s : State) (f : Rak → Rak) : (modRak s f).hostBad = s.hostBad := (rfl)
@[simp] theorem modRak_rbuf (s : State) (f : Rak → Rak) : (modRak s f).rbuf = s.rbuf := (rfl)
@[simp] theorem modRak_rgot (s : State) (f : Rak → Rak) : (modRak s f).rgot = s.rgot := (rfl)
@[simp] theorem modRak_rfail (s : State) (f : Rak → Rak) : (modRak s f).rfail = s.rfail := (rfl)
@[simp] theorem modRak_miss (s : State) (f : Rak → Rak) : (modRak s f).miss = s.miss := (rfl)
@[simp] theorem modRak_rused (s : State) (f : Rak → Rak) : (modRak s f).rused = s.rused := (rfl)
@[simp] theorem modRak_rout (s : State) (f : Rak → Rak) : (modRak s f).rout = s.rout := (rfl)
@[simp] theorem modRak_who (s : State) (f : Rak → Rak) : (modRak s f).who = s.who := (rfl)
@[simp] theorem modRak_rsv (s : State) (f : Rak → Rak) : (modRak s f).rsv = s.rsv := (rfl)
@[simp] theorem modRak_stall (s : State) (f : Rak → Rak) : (modRak s f).stall = s.stall := (rfl)
@[simp] theorem modRak_grants (s : State) (f : Rak → Rak) : (modRak s f).grants = s.grants := (rfl)
@[simp] theorem modRak_free (s : State) (f : Rak → Rak) : (modRak s f).free = s.free := (rfl)

/-! ### modTst -/

@[simp] theorem modTst_pending (s : State) (f : Tst → Tst) : (modTst s f).pending = s.pending := (rfl)
@[simp] theorem modTst_glb (s : State) (f : Tst → Tst) : (modTst s f).glb = s.glb := (rfl)
@[simp] theorem modTst_sec (s : State) (f : Tst → Tst) : (modTst s f).sec = s.sec := (rfl)
@[simp] theorem modTst_pwr (s : State) (f : Tst → Tst) : (modTst s f).pwr = s.pwr := (rfl)
@[simp] theorem modTst_tide (s : State) (f : Tst → Tst) : (modTst s f).tide = s.tide := (rfl)
@[simp] theorem modTst_flt (s : State) (f : Tst → Tst) : (modTst s f).flt = s.flt := (rfl)
@[simp] theorem modTst_vrd (s : State) (f : Tst → Tst) : (modTst s f).vrd = s.vrd := (rfl)
@[simp] theorem modTst_sal (s : State) (f : Tst → Tst) : (modTst s f).sal = s.sal := (rfl)
@[simp] theorem modTst_twn (s : State) (f : Tst → Tst) : (modTst s f).twn = s.twn := (rfl)
@[simp] theorem modTst_lnk (s : State) (f : Tst → Tst) : (modTst s f).lnk = s.lnk := (rfl)
@[simp] theorem modTst_hrv (s : State) (f : Tst → Tst) : (modTst s f).hrv = s.hrv := (rfl)
@[simp] theorem modTst_rak (s : State) (f : Tst → Tst) : (modTst s f).rak = s.rak := (rfl)
@[simp] theorem modTst_pan (s : State) (f : Tst → Tst) : (modTst s f).pan = s.pan := (rfl)
@[simp] theorem modTst_lpan (s : State) (f : Tst → Tst) : (modTst s f).lpan = s.lpan := (rfl)
@[simp] theorem modTst_qd (s : State) (f : Tst → Tst) : (modTst s f).qd = s.qd := (rfl)
@[simp] theorem modTst_slt (s : State) (f : Tst → Tst) : (modTst s f).slt = s.slt := (rfl)
@[simp] theorem modTst_tst (s : State) (f : Tst → Tst) : (modTst s f).tst = f s.tst := (rfl)
@[simp] theorem modTst_wrap (s : State) (f : Tst → Tst) : (modTst s f).wrap = s.wrap := (rfl)
@[simp] theorem modTst_pins (s : State) (f : Tst → Tst) : (modTst s f).pins = s.pins := (rfl)
@[simp] theorem modTst_hdrs (s : State) (f : Tst → Tst) : (modTst s f).hdrs = s.hdrs := (rfl)
@[simp] theorem modTst_host (s : State) (f : Tst → Tst) : (modTst s f).host = s.host := (rfl)
@[simp] theorem modTst_res (s : State) (f : Tst → Tst) : (modTst s f).res = s.res := (rfl)
@[simp] theorem modTst_ckpt (s : State) (f : Tst → Tst) : (modTst s f).ckpt = s.ckpt := (rfl)
@[simp] theorem modTst_tail (s : State) (f : Tst → Tst) : (modTst s f).tail = s.tail := (rfl)
@[simp] theorem modTst_dir (s : State) (f : Tst → Tst) : (modTst s f).dir = s.dir := (rfl)
@[simp] theorem modTst_shard (s : State) (f : Tst → Tst) : (modTst s f).shard = s.shard := (rfl)
@[simp] theorem modTst_salino (s : State) (f : Tst → Tst) : (modTst s f).salino = s.salino := (rfl)
@[simp] theorem modTst_hist (s : State) (f : Tst → Tst) : (modTst s f).hist = s.hist := (rfl)
@[simp] theorem modTst_pond (s : State) (f : Tst → Tst) : (modTst s f).pond = s.pond := (rfl)
@[simp] theorem modTst_txns (s : State) (f : Tst → Tst) : (modTst s f).txns = s.txns := (rfl)
@[simp] theorem modTst_wear (s : State) (f : Tst → Tst) : (modTst s f).wear = s.wear := (rfl)
@[simp] theorem modTst_cp (s : State) (f : Tst → Tst) : (modTst s f).cp = s.cp := (rfl)
@[simp] theorem modTst_sent (s : State) (f : Tst → Tst) : (modTst s f).sent = s.sent := (rfl)
@[simp] theorem modTst_hostBad (s : State) (f : Tst → Tst) : (modTst s f).hostBad = s.hostBad := (rfl)
@[simp] theorem modTst_rbuf (s : State) (f : Tst → Tst) : (modTst s f).rbuf = s.rbuf := (rfl)
@[simp] theorem modTst_rgot (s : State) (f : Tst → Tst) : (modTst s f).rgot = s.rgot := (rfl)
@[simp] theorem modTst_rfail (s : State) (f : Tst → Tst) : (modTst s f).rfail = s.rfail := (rfl)
@[simp] theorem modTst_miss (s : State) (f : Tst → Tst) : (modTst s f).miss = s.miss := (rfl)
@[simp] theorem modTst_rused (s : State) (f : Tst → Tst) : (modTst s f).rused = s.rused := (rfl)
@[simp] theorem modTst_rout (s : State) (f : Tst → Tst) : (modTst s f).rout = s.rout := (rfl)
@[simp] theorem modTst_who (s : State) (f : Tst → Tst) : (modTst s f).who = s.who := (rfl)
@[simp] theorem modTst_rsv (s : State) (f : Tst → Tst) : (modTst s f).rsv = s.rsv := (rfl)
@[simp] theorem modTst_stall (s : State) (f : Tst → Tst) : (modTst s f).stall = s.stall := (rfl)
@[simp] theorem modTst_grants (s : State) (f : Tst → Tst) : (modTst s f).grants = s.grants := (rfl)
@[simp] theorem modTst_free (s : State) (f : Tst → Tst) : (modTst s f).free = s.free := (rfl)

/-! ### modWrap -/

@[simp] theorem modWrap_pending (s : State) (f : Wrap → Wrap) : (modWrap s f).pending = s.pending := (rfl)
@[simp] theorem modWrap_glb (s : State) (f : Wrap → Wrap) : (modWrap s f).glb = s.glb := (rfl)
@[simp] theorem modWrap_sec (s : State) (f : Wrap → Wrap) : (modWrap s f).sec = s.sec := (rfl)
@[simp] theorem modWrap_pwr (s : State) (f : Wrap → Wrap) : (modWrap s f).pwr = s.pwr := (rfl)
@[simp] theorem modWrap_tide (s : State) (f : Wrap → Wrap) : (modWrap s f).tide = s.tide := (rfl)
@[simp] theorem modWrap_flt (s : State) (f : Wrap → Wrap) : (modWrap s f).flt = s.flt := (rfl)
@[simp] theorem modWrap_vrd (s : State) (f : Wrap → Wrap) : (modWrap s f).vrd = s.vrd := (rfl)
@[simp] theorem modWrap_sal (s : State) (f : Wrap → Wrap) : (modWrap s f).sal = s.sal := (rfl)
@[simp] theorem modWrap_twn (s : State) (f : Wrap → Wrap) : (modWrap s f).twn = s.twn := (rfl)
@[simp] theorem modWrap_lnk (s : State) (f : Wrap → Wrap) : (modWrap s f).lnk = s.lnk := (rfl)
@[simp] theorem modWrap_hrv (s : State) (f : Wrap → Wrap) : (modWrap s f).hrv = s.hrv := (rfl)
@[simp] theorem modWrap_rak (s : State) (f : Wrap → Wrap) : (modWrap s f).rak = s.rak := (rfl)
@[simp] theorem modWrap_pan (s : State) (f : Wrap → Wrap) : (modWrap s f).pan = s.pan := (rfl)
@[simp] theorem modWrap_lpan (s : State) (f : Wrap → Wrap) : (modWrap s f).lpan = s.lpan := (rfl)
@[simp] theorem modWrap_qd (s : State) (f : Wrap → Wrap) : (modWrap s f).qd = s.qd := (rfl)
@[simp] theorem modWrap_slt (s : State) (f : Wrap → Wrap) : (modWrap s f).slt = s.slt := (rfl)
@[simp] theorem modWrap_tst (s : State) (f : Wrap → Wrap) : (modWrap s f).tst = s.tst := (rfl)
@[simp] theorem modWrap_wrap (s : State) (f : Wrap → Wrap) : (modWrap s f).wrap = f s.wrap := (rfl)
@[simp] theorem modWrap_pins (s : State) (f : Wrap → Wrap) : (modWrap s f).pins = s.pins := (rfl)
@[simp] theorem modWrap_hdrs (s : State) (f : Wrap → Wrap) : (modWrap s f).hdrs = s.hdrs := (rfl)
@[simp] theorem modWrap_host (s : State) (f : Wrap → Wrap) : (modWrap s f).host = s.host := (rfl)
@[simp] theorem modWrap_res (s : State) (f : Wrap → Wrap) : (modWrap s f).res = s.res := (rfl)
@[simp] theorem modWrap_ckpt (s : State) (f : Wrap → Wrap) : (modWrap s f).ckpt = s.ckpt := (rfl)
@[simp] theorem modWrap_tail (s : State) (f : Wrap → Wrap) : (modWrap s f).tail = s.tail := (rfl)
@[simp] theorem modWrap_dir (s : State) (f : Wrap → Wrap) : (modWrap s f).dir = s.dir := (rfl)
@[simp] theorem modWrap_shard (s : State) (f : Wrap → Wrap) : (modWrap s f).shard = s.shard := (rfl)
@[simp] theorem modWrap_salino (s : State) (f : Wrap → Wrap) : (modWrap s f).salino = s.salino := (rfl)
@[simp] theorem modWrap_hist (s : State) (f : Wrap → Wrap) : (modWrap s f).hist = s.hist := (rfl)
@[simp] theorem modWrap_pond (s : State) (f : Wrap → Wrap) : (modWrap s f).pond = s.pond := (rfl)
@[simp] theorem modWrap_txns (s : State) (f : Wrap → Wrap) : (modWrap s f).txns = s.txns := (rfl)
@[simp] theorem modWrap_wear (s : State) (f : Wrap → Wrap) : (modWrap s f).wear = s.wear := (rfl)
@[simp] theorem modWrap_cp (s : State) (f : Wrap → Wrap) : (modWrap s f).cp = s.cp := (rfl)
@[simp] theorem modWrap_sent (s : State) (f : Wrap → Wrap) : (modWrap s f).sent = s.sent := (rfl)
@[simp] theorem modWrap_hostBad (s : State) (f : Wrap → Wrap) : (modWrap s f).hostBad = s.hostBad := (rfl)
@[simp] theorem modWrap_rbuf (s : State) (f : Wrap → Wrap) : (modWrap s f).rbuf = s.rbuf := (rfl)
@[simp] theorem modWrap_rgot (s : State) (f : Wrap → Wrap) : (modWrap s f).rgot = s.rgot := (rfl)
@[simp] theorem modWrap_rfail (s : State) (f : Wrap → Wrap) : (modWrap s f).rfail = s.rfail := (rfl)
@[simp] theorem modWrap_miss (s : State) (f : Wrap → Wrap) : (modWrap s f).miss = s.miss := (rfl)
@[simp] theorem modWrap_rused (s : State) (f : Wrap → Wrap) : (modWrap s f).rused = s.rused := (rfl)
@[simp] theorem modWrap_rout (s : State) (f : Wrap → Wrap) : (modWrap s f).rout = s.rout := (rfl)
@[simp] theorem modWrap_who (s : State) (f : Wrap → Wrap) : (modWrap s f).who = s.who := (rfl)
@[simp] theorem modWrap_rsv (s : State) (f : Wrap → Wrap) : (modWrap s f).rsv = s.rsv := (rfl)
@[simp] theorem modWrap_stall (s : State) (f : Wrap → Wrap) : (modWrap s f).stall = s.stall := (rfl)
@[simp] theorem modWrap_grants (s : State) (f : Wrap → Wrap) : (modWrap s f).grants = s.grants := (rfl)
@[simp] theorem modWrap_free (s : State) (f : Wrap → Wrap) : (modWrap s f).free = s.free := (rfl)

/-! ### modPins -/

@[simp] theorem modPins_pending (s : State) (f : Pins → Pins) : (modPins s f).pending = s.pending := (rfl)
@[simp] theorem modPins_glb (s : State) (f : Pins → Pins) : (modPins s f).glb = s.glb := (rfl)
@[simp] theorem modPins_sec (s : State) (f : Pins → Pins) : (modPins s f).sec = s.sec := (rfl)
@[simp] theorem modPins_pwr (s : State) (f : Pins → Pins) : (modPins s f).pwr = s.pwr := (rfl)
@[simp] theorem modPins_tide (s : State) (f : Pins → Pins) : (modPins s f).tide = s.tide := (rfl)
@[simp] theorem modPins_flt (s : State) (f : Pins → Pins) : (modPins s f).flt = s.flt := (rfl)
@[simp] theorem modPins_vrd (s : State) (f : Pins → Pins) : (modPins s f).vrd = s.vrd := (rfl)
@[simp] theorem modPins_sal (s : State) (f : Pins → Pins) : (modPins s f).sal = s.sal := (rfl)
@[simp] theorem modPins_twn (s : State) (f : Pins → Pins) : (modPins s f).twn = s.twn := (rfl)
@[simp] theorem modPins_lnk (s : State) (f : Pins → Pins) : (modPins s f).lnk = s.lnk := (rfl)
@[simp] theorem modPins_hrv (s : State) (f : Pins → Pins) : (modPins s f).hrv = s.hrv := (rfl)
@[simp] theorem modPins_rak (s : State) (f : Pins → Pins) : (modPins s f).rak = s.rak := (rfl)
@[simp] theorem modPins_pan (s : State) (f : Pins → Pins) : (modPins s f).pan = s.pan := (rfl)
@[simp] theorem modPins_lpan (s : State) (f : Pins → Pins) : (modPins s f).lpan = s.lpan := (rfl)
@[simp] theorem modPins_qd (s : State) (f : Pins → Pins) : (modPins s f).qd = s.qd := (rfl)
@[simp] theorem modPins_slt (s : State) (f : Pins → Pins) : (modPins s f).slt = s.slt := (rfl)
@[simp] theorem modPins_tst (s : State) (f : Pins → Pins) : (modPins s f).tst = s.tst := (rfl)
@[simp] theorem modPins_wrap (s : State) (f : Pins → Pins) : (modPins s f).wrap = s.wrap := (rfl)
@[simp] theorem modPins_pins (s : State) (f : Pins → Pins) : (modPins s f).pins = f s.pins := (rfl)
@[simp] theorem modPins_hdrs (s : State) (f : Pins → Pins) : (modPins s f).hdrs = s.hdrs := (rfl)
@[simp] theorem modPins_host (s : State) (f : Pins → Pins) : (modPins s f).host = s.host := (rfl)
@[simp] theorem modPins_res (s : State) (f : Pins → Pins) : (modPins s f).res = s.res := (rfl)
@[simp] theorem modPins_ckpt (s : State) (f : Pins → Pins) : (modPins s f).ckpt = s.ckpt := (rfl)
@[simp] theorem modPins_tail (s : State) (f : Pins → Pins) : (modPins s f).tail = s.tail := (rfl)
@[simp] theorem modPins_dir (s : State) (f : Pins → Pins) : (modPins s f).dir = s.dir := (rfl)
@[simp] theorem modPins_shard (s : State) (f : Pins → Pins) : (modPins s f).shard = s.shard := (rfl)
@[simp] theorem modPins_salino (s : State) (f : Pins → Pins) : (modPins s f).salino = s.salino := (rfl)
@[simp] theorem modPins_hist (s : State) (f : Pins → Pins) : (modPins s f).hist = s.hist := (rfl)
@[simp] theorem modPins_pond (s : State) (f : Pins → Pins) : (modPins s f).pond = s.pond := (rfl)
@[simp] theorem modPins_txns (s : State) (f : Pins → Pins) : (modPins s f).txns = s.txns := (rfl)
@[simp] theorem modPins_wear (s : State) (f : Pins → Pins) : (modPins s f).wear = s.wear := (rfl)
@[simp] theorem modPins_cp (s : State) (f : Pins → Pins) : (modPins s f).cp = s.cp := (rfl)
@[simp] theorem modPins_sent (s : State) (f : Pins → Pins) : (modPins s f).sent = s.sent := (rfl)
@[simp] theorem modPins_hostBad (s : State) (f : Pins → Pins) : (modPins s f).hostBad = s.hostBad := (rfl)
@[simp] theorem modPins_rbuf (s : State) (f : Pins → Pins) : (modPins s f).rbuf = s.rbuf := (rfl)
@[simp] theorem modPins_rgot (s : State) (f : Pins → Pins) : (modPins s f).rgot = s.rgot := (rfl)
@[simp] theorem modPins_rfail (s : State) (f : Pins → Pins) : (modPins s f).rfail = s.rfail := (rfl)
@[simp] theorem modPins_miss (s : State) (f : Pins → Pins) : (modPins s f).miss = s.miss := (rfl)
@[simp] theorem modPins_rused (s : State) (f : Pins → Pins) : (modPins s f).rused = s.rused := (rfl)
@[simp] theorem modPins_rout (s : State) (f : Pins → Pins) : (modPins s f).rout = s.rout := (rfl)
@[simp] theorem modPins_who (s : State) (f : Pins → Pins) : (modPins s f).who = s.who := (rfl)
@[simp] theorem modPins_rsv (s : State) (f : Pins → Pins) : (modPins s f).rsv = s.rsv := (rfl)
@[simp] theorem modPins_stall (s : State) (f : Pins → Pins) : (modPins s f).stall = s.stall := (rfl)
@[simp] theorem modPins_grants (s : State) (f : Pins → Pins) : (modPins s f).grants = s.grants := (rfl)
@[simp] theorem modPins_free (s : State) (f : Pins → Pins) : (modPins s f).free = s.free := (rfl)

/-! ### modVrdR -/

@[simp] theorem modVrdR_pending (s : State) (f : VrdRegs → VrdRegs) : (modVrdR s f).pending = s.pending := (rfl)
@[simp] theorem modVrdR_glb (s : State) (f : VrdRegs → VrdRegs) : (modVrdR s f).glb = s.glb := (rfl)
@[simp] theorem modVrdR_sec (s : State) (f : VrdRegs → VrdRegs) : (modVrdR s f).sec = s.sec := (rfl)
@[simp] theorem modVrdR_pwr (s : State) (f : VrdRegs → VrdRegs) : (modVrdR s f).pwr = s.pwr := (rfl)
@[simp] theorem modVrdR_tide (s : State) (f : VrdRegs → VrdRegs) : (modVrdR s f).tide = s.tide := (rfl)
@[simp] theorem modVrdR_flt (s : State) (f : VrdRegs → VrdRegs) : (modVrdR s f).flt = s.flt := (rfl)
@[simp] theorem modVrdR_vrd (s : State) (f : VrdRegs → VrdRegs) : (modVrdR s f).vrd = { s.vrd with regs := f s.vrd.regs } := (rfl)
@[simp] theorem modVrdR_sal (s : State) (f : VrdRegs → VrdRegs) : (modVrdR s f).sal = s.sal := (rfl)
@[simp] theorem modVrdR_twn (s : State) (f : VrdRegs → VrdRegs) : (modVrdR s f).twn = s.twn := (rfl)
@[simp] theorem modVrdR_lnk (s : State) (f : VrdRegs → VrdRegs) : (modVrdR s f).lnk = s.lnk := (rfl)
@[simp] theorem modVrdR_hrv (s : State) (f : VrdRegs → VrdRegs) : (modVrdR s f).hrv = s.hrv := (rfl)
@[simp] theorem modVrdR_rak (s : State) (f : VrdRegs → VrdRegs) : (modVrdR s f).rak = s.rak := (rfl)
@[simp] theorem modVrdR_pan (s : State) (f : VrdRegs → VrdRegs) : (modVrdR s f).pan = s.pan := (rfl)
@[simp] theorem modVrdR_lpan (s : State) (f : VrdRegs → VrdRegs) : (modVrdR s f).lpan = s.lpan := (rfl)
@[simp] theorem modVrdR_qd (s : State) (f : VrdRegs → VrdRegs) : (modVrdR s f).qd = s.qd := (rfl)
@[simp] theorem modVrdR_slt (s : State) (f : VrdRegs → VrdRegs) : (modVrdR s f).slt = s.slt := (rfl)
@[simp] theorem modVrdR_tst (s : State) (f : VrdRegs → VrdRegs) : (modVrdR s f).tst = s.tst := (rfl)
@[simp] theorem modVrdR_wrap (s : State) (f : VrdRegs → VrdRegs) : (modVrdR s f).wrap = s.wrap := (rfl)
@[simp] theorem modVrdR_pins (s : State) (f : VrdRegs → VrdRegs) : (modVrdR s f).pins = s.pins := (rfl)
@[simp] theorem modVrdR_hdrs (s : State) (f : VrdRegs → VrdRegs) : (modVrdR s f).hdrs = s.hdrs := (rfl)
@[simp] theorem modVrdR_host (s : State) (f : VrdRegs → VrdRegs) : (modVrdR s f).host = s.host := (rfl)
@[simp] theorem modVrdR_res (s : State) (f : VrdRegs → VrdRegs) : (modVrdR s f).res = s.res := (rfl)
@[simp] theorem modVrdR_ckpt (s : State) (f : VrdRegs → VrdRegs) : (modVrdR s f).ckpt = s.ckpt := (rfl)
@[simp] theorem modVrdR_tail (s : State) (f : VrdRegs → VrdRegs) : (modVrdR s f).tail = s.tail := (rfl)
@[simp] theorem modVrdR_dir (s : State) (f : VrdRegs → VrdRegs) : (modVrdR s f).dir = s.dir := (rfl)
@[simp] theorem modVrdR_shard (s : State) (f : VrdRegs → VrdRegs) : (modVrdR s f).shard = s.shard := (rfl)
@[simp] theorem modVrdR_salino (s : State) (f : VrdRegs → VrdRegs) : (modVrdR s f).salino = s.salino := (rfl)
@[simp] theorem modVrdR_hist (s : State) (f : VrdRegs → VrdRegs) : (modVrdR s f).hist = s.hist := (rfl)
@[simp] theorem modVrdR_pond (s : State) (f : VrdRegs → VrdRegs) : (modVrdR s f).pond = s.pond := (rfl)
@[simp] theorem modVrdR_txns (s : State) (f : VrdRegs → VrdRegs) : (modVrdR s f).txns = s.txns := (rfl)
@[simp] theorem modVrdR_wear (s : State) (f : VrdRegs → VrdRegs) : (modVrdR s f).wear = s.wear := (rfl)
@[simp] theorem modVrdR_cp (s : State) (f : VrdRegs → VrdRegs) : (modVrdR s f).cp = s.cp := (rfl)
@[simp] theorem modVrdR_sent (s : State) (f : VrdRegs → VrdRegs) : (modVrdR s f).sent = s.sent := (rfl)
@[simp] theorem modVrdR_hostBad (s : State) (f : VrdRegs → VrdRegs) : (modVrdR s f).hostBad = s.hostBad := (rfl)
@[simp] theorem modVrdR_rbuf (s : State) (f : VrdRegs → VrdRegs) : (modVrdR s f).rbuf = s.rbuf := (rfl)
@[simp] theorem modVrdR_rgot (s : State) (f : VrdRegs → VrdRegs) : (modVrdR s f).rgot = s.rgot := (rfl)
@[simp] theorem modVrdR_rfail (s : State) (f : VrdRegs → VrdRegs) : (modVrdR s f).rfail = s.rfail := (rfl)
@[simp] theorem modVrdR_miss (s : State) (f : VrdRegs → VrdRegs) : (modVrdR s f).miss = s.miss := (rfl)
@[simp] theorem modVrdR_rused (s : State) (f : VrdRegs → VrdRegs) : (modVrdR s f).rused = s.rused := (rfl)
@[simp] theorem modVrdR_rout (s : State) (f : VrdRegs → VrdRegs) : (modVrdR s f).rout = s.rout := (rfl)
@[simp] theorem modVrdR_who (s : State) (f : VrdRegs → VrdRegs) : (modVrdR s f).who = s.who := (rfl)
@[simp] theorem modVrdR_rsv (s : State) (f : VrdRegs → VrdRegs) : (modVrdR s f).rsv = s.rsv := (rfl)
@[simp] theorem modVrdR_stall (s : State) (f : VrdRegs → VrdRegs) : (modVrdR s f).stall = s.stall := (rfl)
@[simp] theorem modVrdR_grants (s : State) (f : VrdRegs → VrdRegs) : (modVrdR s f).grants = s.grants := (rfl)
@[simp] theorem modVrdR_free (s : State) (f : VrdRegs → VrdRegs) : (modVrdR s f).free = s.free := (rfl)

/-! ### modTwnR -/

@[simp] theorem modTwnR_pending (s : State) (f : TwnRegs → TwnRegs) : (modTwnR s f).pending = s.pending := (rfl)
@[simp] theorem modTwnR_glb (s : State) (f : TwnRegs → TwnRegs) : (modTwnR s f).glb = s.glb := (rfl)
@[simp] theorem modTwnR_sec (s : State) (f : TwnRegs → TwnRegs) : (modTwnR s f).sec = s.sec := (rfl)
@[simp] theorem modTwnR_pwr (s : State) (f : TwnRegs → TwnRegs) : (modTwnR s f).pwr = s.pwr := (rfl)
@[simp] theorem modTwnR_tide (s : State) (f : TwnRegs → TwnRegs) : (modTwnR s f).tide = s.tide := (rfl)
@[simp] theorem modTwnR_flt (s : State) (f : TwnRegs → TwnRegs) : (modTwnR s f).flt = s.flt := (rfl)
@[simp] theorem modTwnR_vrd (s : State) (f : TwnRegs → TwnRegs) : (modTwnR s f).vrd = s.vrd := (rfl)
@[simp] theorem modTwnR_sal (s : State) (f : TwnRegs → TwnRegs) : (modTwnR s f).sal = s.sal := (rfl)
@[simp] theorem modTwnR_twn (s : State) (f : TwnRegs → TwnRegs) : (modTwnR s f).twn = { s.twn with regs := f s.twn.regs } := (rfl)
@[simp] theorem modTwnR_lnk (s : State) (f : TwnRegs → TwnRegs) : (modTwnR s f).lnk = s.lnk := (rfl)
@[simp] theorem modTwnR_hrv (s : State) (f : TwnRegs → TwnRegs) : (modTwnR s f).hrv = s.hrv := (rfl)
@[simp] theorem modTwnR_rak (s : State) (f : TwnRegs → TwnRegs) : (modTwnR s f).rak = s.rak := (rfl)
@[simp] theorem modTwnR_pan (s : State) (f : TwnRegs → TwnRegs) : (modTwnR s f).pan = s.pan := (rfl)
@[simp] theorem modTwnR_lpan (s : State) (f : TwnRegs → TwnRegs) : (modTwnR s f).lpan = s.lpan := (rfl)
@[simp] theorem modTwnR_qd (s : State) (f : TwnRegs → TwnRegs) : (modTwnR s f).qd = s.qd := (rfl)
@[simp] theorem modTwnR_slt (s : State) (f : TwnRegs → TwnRegs) : (modTwnR s f).slt = s.slt := (rfl)
@[simp] theorem modTwnR_tst (s : State) (f : TwnRegs → TwnRegs) : (modTwnR s f).tst = s.tst := (rfl)
@[simp] theorem modTwnR_wrap (s : State) (f : TwnRegs → TwnRegs) : (modTwnR s f).wrap = s.wrap := (rfl)
@[simp] theorem modTwnR_pins (s : State) (f : TwnRegs → TwnRegs) : (modTwnR s f).pins = s.pins := (rfl)
@[simp] theorem modTwnR_hdrs (s : State) (f : TwnRegs → TwnRegs) : (modTwnR s f).hdrs = s.hdrs := (rfl)
@[simp] theorem modTwnR_host (s : State) (f : TwnRegs → TwnRegs) : (modTwnR s f).host = s.host := (rfl)
@[simp] theorem modTwnR_res (s : State) (f : TwnRegs → TwnRegs) : (modTwnR s f).res = s.res := (rfl)
@[simp] theorem modTwnR_ckpt (s : State) (f : TwnRegs → TwnRegs) : (modTwnR s f).ckpt = s.ckpt := (rfl)
@[simp] theorem modTwnR_tail (s : State) (f : TwnRegs → TwnRegs) : (modTwnR s f).tail = s.tail := (rfl)
@[simp] theorem modTwnR_dir (s : State) (f : TwnRegs → TwnRegs) : (modTwnR s f).dir = s.dir := (rfl)
@[simp] theorem modTwnR_shard (s : State) (f : TwnRegs → TwnRegs) : (modTwnR s f).shard = s.shard := (rfl)
@[simp] theorem modTwnR_salino (s : State) (f : TwnRegs → TwnRegs) : (modTwnR s f).salino = s.salino := (rfl)
@[simp] theorem modTwnR_hist (s : State) (f : TwnRegs → TwnRegs) : (modTwnR s f).hist = s.hist := (rfl)
@[simp] theorem modTwnR_pond (s : State) (f : TwnRegs → TwnRegs) : (modTwnR s f).pond = s.pond := (rfl)
@[simp] theorem modTwnR_txns (s : State) (f : TwnRegs → TwnRegs) : (modTwnR s f).txns = s.txns := (rfl)
@[simp] theorem modTwnR_wear (s : State) (f : TwnRegs → TwnRegs) : (modTwnR s f).wear = s.wear := (rfl)
@[simp] theorem modTwnR_cp (s : State) (f : TwnRegs → TwnRegs) : (modTwnR s f).cp = s.cp := (rfl)
@[simp] theorem modTwnR_sent (s : State) (f : TwnRegs → TwnRegs) : (modTwnR s f).sent = s.sent := (rfl)
@[simp] theorem modTwnR_hostBad (s : State) (f : TwnRegs → TwnRegs) : (modTwnR s f).hostBad = s.hostBad := (rfl)
@[simp] theorem modTwnR_rbuf (s : State) (f : TwnRegs → TwnRegs) : (modTwnR s f).rbuf = s.rbuf := (rfl)
@[simp] theorem modTwnR_rgot (s : State) (f : TwnRegs → TwnRegs) : (modTwnR s f).rgot = s.rgot := (rfl)
@[simp] theorem modTwnR_rfail (s : State) (f : TwnRegs → TwnRegs) : (modTwnR s f).rfail = s.rfail := (rfl)
@[simp] theorem modTwnR_miss (s : State) (f : TwnRegs → TwnRegs) : (modTwnR s f).miss = s.miss := (rfl)
@[simp] theorem modTwnR_rused (s : State) (f : TwnRegs → TwnRegs) : (modTwnR s f).rused = s.rused := (rfl)
@[simp] theorem modTwnR_rout (s : State) (f : TwnRegs → TwnRegs) : (modTwnR s f).rout = s.rout := (rfl)
@[simp] theorem modTwnR_who (s : State) (f : TwnRegs → TwnRegs) : (modTwnR s f).who = s.who := (rfl)
@[simp] theorem modTwnR_rsv (s : State) (f : TwnRegs → TwnRegs) : (modTwnR s f).rsv = s.rsv := (rfl)
@[simp] theorem modTwnR_stall (s : State) (f : TwnRegs → TwnRegs) : (modTwnR s f).stall = s.stall := (rfl)
@[simp] theorem modTwnR_grants (s : State) (f : TwnRegs → TwnRegs) : (modTwnR s f).grants = s.grants := (rfl)
@[simp] theorem modTwnR_free (s : State) (f : TwnRegs → TwnRegs) : (modTwnR s f).free = s.free := (rfl)

/-! ### modRakR -/

@[simp] theorem modRakR_pending (s : State) (f : RakRegs → RakRegs) : (modRakR s f).pending = s.pending := (rfl)
@[simp] theorem modRakR_glb (s : State) (f : RakRegs → RakRegs) : (modRakR s f).glb = s.glb := (rfl)
@[simp] theorem modRakR_sec (s : State) (f : RakRegs → RakRegs) : (modRakR s f).sec = s.sec := (rfl)
@[simp] theorem modRakR_pwr (s : State) (f : RakRegs → RakRegs) : (modRakR s f).pwr = s.pwr := (rfl)
@[simp] theorem modRakR_tide (s : State) (f : RakRegs → RakRegs) : (modRakR s f).tide = s.tide := (rfl)
@[simp] theorem modRakR_flt (s : State) (f : RakRegs → RakRegs) : (modRakR s f).flt = s.flt := (rfl)
@[simp] theorem modRakR_vrd (s : State) (f : RakRegs → RakRegs) : (modRakR s f).vrd = s.vrd := (rfl)
@[simp] theorem modRakR_sal (s : State) (f : RakRegs → RakRegs) : (modRakR s f).sal = s.sal := (rfl)
@[simp] theorem modRakR_twn (s : State) (f : RakRegs → RakRegs) : (modRakR s f).twn = s.twn := (rfl)
@[simp] theorem modRakR_lnk (s : State) (f : RakRegs → RakRegs) : (modRakR s f).lnk = s.lnk := (rfl)
@[simp] theorem modRakR_hrv (s : State) (f : RakRegs → RakRegs) : (modRakR s f).hrv = s.hrv := (rfl)
@[simp] theorem modRakR_rak (s : State) (f : RakRegs → RakRegs) : (modRakR s f).rak = { s.rak with regs := f s.rak.regs } := (rfl)
@[simp] theorem modRakR_pan (s : State) (f : RakRegs → RakRegs) : (modRakR s f).pan = s.pan := (rfl)
@[simp] theorem modRakR_lpan (s : State) (f : RakRegs → RakRegs) : (modRakR s f).lpan = s.lpan := (rfl)
@[simp] theorem modRakR_qd (s : State) (f : RakRegs → RakRegs) : (modRakR s f).qd = s.qd := (rfl)
@[simp] theorem modRakR_slt (s : State) (f : RakRegs → RakRegs) : (modRakR s f).slt = s.slt := (rfl)
@[simp] theorem modRakR_tst (s : State) (f : RakRegs → RakRegs) : (modRakR s f).tst = s.tst := (rfl)
@[simp] theorem modRakR_wrap (s : State) (f : RakRegs → RakRegs) : (modRakR s f).wrap = s.wrap := (rfl)
@[simp] theorem modRakR_pins (s : State) (f : RakRegs → RakRegs) : (modRakR s f).pins = s.pins := (rfl)
@[simp] theorem modRakR_hdrs (s : State) (f : RakRegs → RakRegs) : (modRakR s f).hdrs = s.hdrs := (rfl)
@[simp] theorem modRakR_host (s : State) (f : RakRegs → RakRegs) : (modRakR s f).host = s.host := (rfl)
@[simp] theorem modRakR_res (s : State) (f : RakRegs → RakRegs) : (modRakR s f).res = s.res := (rfl)
@[simp] theorem modRakR_ckpt (s : State) (f : RakRegs → RakRegs) : (modRakR s f).ckpt = s.ckpt := (rfl)
@[simp] theorem modRakR_tail (s : State) (f : RakRegs → RakRegs) : (modRakR s f).tail = s.tail := (rfl)
@[simp] theorem modRakR_dir (s : State) (f : RakRegs → RakRegs) : (modRakR s f).dir = s.dir := (rfl)
@[simp] theorem modRakR_shard (s : State) (f : RakRegs → RakRegs) : (modRakR s f).shard = s.shard := (rfl)
@[simp] theorem modRakR_salino (s : State) (f : RakRegs → RakRegs) : (modRakR s f).salino = s.salino := (rfl)
@[simp] theorem modRakR_hist (s : State) (f : RakRegs → RakRegs) : (modRakR s f).hist = s.hist := (rfl)
@[simp] theorem modRakR_pond (s : State) (f : RakRegs → RakRegs) : (modRakR s f).pond = s.pond := (rfl)
@[simp] theorem modRakR_txns (s : State) (f : RakRegs → RakRegs) : (modRakR s f).txns = s.txns := (rfl)
@[simp] theorem modRakR_wear (s : State) (f : RakRegs → RakRegs) : (modRakR s f).wear = s.wear := (rfl)
@[simp] theorem modRakR_cp (s : State) (f : RakRegs → RakRegs) : (modRakR s f).cp = s.cp := (rfl)
@[simp] theorem modRakR_sent (s : State) (f : RakRegs → RakRegs) : (modRakR s f).sent = s.sent := (rfl)
@[simp] theorem modRakR_hostBad (s : State) (f : RakRegs → RakRegs) : (modRakR s f).hostBad = s.hostBad := (rfl)
@[simp] theorem modRakR_rbuf (s : State) (f : RakRegs → RakRegs) : (modRakR s f).rbuf = s.rbuf := (rfl)
@[simp] theorem modRakR_rgot (s : State) (f : RakRegs → RakRegs) : (modRakR s f).rgot = s.rgot := (rfl)
@[simp] theorem modRakR_rfail (s : State) (f : RakRegs → RakRegs) : (modRakR s f).rfail = s.rfail := (rfl)
@[simp] theorem modRakR_miss (s : State) (f : RakRegs → RakRegs) : (modRakR s f).miss = s.miss := (rfl)
@[simp] theorem modRakR_rused (s : State) (f : RakRegs → RakRegs) : (modRakR s f).rused = s.rused := (rfl)
@[simp] theorem modRakR_rout (s : State) (f : RakRegs → RakRegs) : (modRakR s f).rout = s.rout := (rfl)
@[simp] theorem modRakR_who (s : State) (f : RakRegs → RakRegs) : (modRakR s f).who = s.who := (rfl)
@[simp] theorem modRakR_rsv (s : State) (f : RakRegs → RakRegs) : (modRakR s f).rsv = s.rsv := (rfl)
@[simp] theorem modRakR_stall (s : State) (f : RakRegs → RakRegs) : (modRakR s f).stall = s.stall := (rfl)
@[simp] theorem modRakR_grants (s : State) (f : RakRegs → RakRegs) : (modRakR s f).grants = s.grants := (rfl)
@[simp] theorem modRakR_free (s : State) (f : RakRegs → RakRegs) : (modRakR s f).free = s.free := (rfl)

/-! ### modTstR -/

@[simp] theorem modTstR_pending (s : State) (f : TstRegs → TstRegs) : (modTstR s f).pending = s.pending := (rfl)
@[simp] theorem modTstR_glb (s : State) (f : TstRegs → TstRegs) : (modTstR s f).glb = s.glb := (rfl)
@[simp] theorem modTstR_sec (s : State) (f : TstRegs → TstRegs) : (modTstR s f).sec = s.sec := (rfl)
@[simp] theorem modTstR_pwr (s : State) (f : TstRegs → TstRegs) : (modTstR s f).pwr = s.pwr := (rfl)
@[simp] theorem modTstR_tide (s : State) (f : TstRegs → TstRegs) : (modTstR s f).tide = s.tide := (rfl)
@[simp] theorem modTstR_flt (s : State) (f : TstRegs → TstRegs) : (modTstR s f).flt = s.flt := (rfl)
@[simp] theorem modTstR_vrd (s : State) (f : TstRegs → TstRegs) : (modTstR s f).vrd = s.vrd := (rfl)
@[simp] theorem modTstR_sal (s : State) (f : TstRegs → TstRegs) : (modTstR s f).sal = s.sal := (rfl)
@[simp] theorem modTstR_twn (s : State) (f : TstRegs → TstRegs) : (modTstR s f).twn = s.twn := (rfl)
@[simp] theorem modTstR_lnk (s : State) (f : TstRegs → TstRegs) : (modTstR s f).lnk = s.lnk := (rfl)
@[simp] theorem modTstR_hrv (s : State) (f : TstRegs → TstRegs) : (modTstR s f).hrv = s.hrv := (rfl)
@[simp] theorem modTstR_rak (s : State) (f : TstRegs → TstRegs) : (modTstR s f).rak = s.rak := (rfl)
@[simp] theorem modTstR_pan (s : State) (f : TstRegs → TstRegs) : (modTstR s f).pan = s.pan := (rfl)
@[simp] theorem modTstR_lpan (s : State) (f : TstRegs → TstRegs) : (modTstR s f).lpan = s.lpan := (rfl)
@[simp] theorem modTstR_qd (s : State) (f : TstRegs → TstRegs) : (modTstR s f).qd = s.qd := (rfl)
@[simp] theorem modTstR_slt (s : State) (f : TstRegs → TstRegs) : (modTstR s f).slt = s.slt := (rfl)
@[simp] theorem modTstR_tst (s : State) (f : TstRegs → TstRegs) : (modTstR s f).tst = { s.tst with regs := f s.tst.regs } := (rfl)
@[simp] theorem modTstR_wrap (s : State) (f : TstRegs → TstRegs) : (modTstR s f).wrap = s.wrap := (rfl)
@[simp] theorem modTstR_pins (s : State) (f : TstRegs → TstRegs) : (modTstR s f).pins = s.pins := (rfl)
@[simp] theorem modTstR_hdrs (s : State) (f : TstRegs → TstRegs) : (modTstR s f).hdrs = s.hdrs := (rfl)
@[simp] theorem modTstR_host (s : State) (f : TstRegs → TstRegs) : (modTstR s f).host = s.host := (rfl)
@[simp] theorem modTstR_res (s : State) (f : TstRegs → TstRegs) : (modTstR s f).res = s.res := (rfl)
@[simp] theorem modTstR_ckpt (s : State) (f : TstRegs → TstRegs) : (modTstR s f).ckpt = s.ckpt := (rfl)
@[simp] theorem modTstR_tail (s : State) (f : TstRegs → TstRegs) : (modTstR s f).tail = s.tail := (rfl)
@[simp] theorem modTstR_dir (s : State) (f : TstRegs → TstRegs) : (modTstR s f).dir = s.dir := (rfl)
@[simp] theorem modTstR_shard (s : State) (f : TstRegs → TstRegs) : (modTstR s f).shard = s.shard := (rfl)
@[simp] theorem modTstR_salino (s : State) (f : TstRegs → TstRegs) : (modTstR s f).salino = s.salino := (rfl)
@[simp] theorem modTstR_hist (s : State) (f : TstRegs → TstRegs) : (modTstR s f).hist = s.hist := (rfl)
@[simp] theorem modTstR_pond (s : State) (f : TstRegs → TstRegs) : (modTstR s f).pond = s.pond := (rfl)
@[simp] theorem modTstR_txns (s : State) (f : TstRegs → TstRegs) : (modTstR s f).txns = s.txns := (rfl)
@[simp] theorem modTstR_wear (s : State) (f : TstRegs → TstRegs) : (modTstR s f).wear = s.wear := (rfl)
@[simp] theorem modTstR_cp (s : State) (f : TstRegs → TstRegs) : (modTstR s f).cp = s.cp := (rfl)
@[simp] theorem modTstR_sent (s : State) (f : TstRegs → TstRegs) : (modTstR s f).sent = s.sent := (rfl)
@[simp] theorem modTstR_hostBad (s : State) (f : TstRegs → TstRegs) : (modTstR s f).hostBad = s.hostBad := (rfl)
@[simp] theorem modTstR_rbuf (s : State) (f : TstRegs → TstRegs) : (modTstR s f).rbuf = s.rbuf := (rfl)
@[simp] theorem modTstR_rgot (s : State) (f : TstRegs → TstRegs) : (modTstR s f).rgot = s.rgot := (rfl)
@[simp] theorem modTstR_rfail (s : State) (f : TstRegs → TstRegs) : (modTstR s f).rfail = s.rfail := (rfl)
@[simp] theorem modTstR_miss (s : State) (f : TstRegs → TstRegs) : (modTstR s f).miss = s.miss := (rfl)
@[simp] theorem modTstR_rused (s : State) (f : TstRegs → TstRegs) : (modTstR s f).rused = s.rused := (rfl)
@[simp] theorem modTstR_rout (s : State) (f : TstRegs → TstRegs) : (modTstR s f).rout = s.rout := (rfl)
@[simp] theorem modTstR_who (s : State) (f : TstRegs → TstRegs) : (modTstR s f).who = s.who := (rfl)
@[simp] theorem modTstR_rsv (s : State) (f : TstRegs → TstRegs) : (modTstR s f).rsv = s.rsv := (rfl)
@[simp] theorem modTstR_stall (s : State) (f : TstRegs → TstRegs) : (modTstR s f).stall = s.stall := (rfl)
@[simp] theorem modTstR_grants (s : State) (f : TstRegs → TstRegs) : (modTstR s f).grants = s.grants := (rfl)
@[simp] theorem modTstR_free (s : State) (f : TstRegs → TstRegs) : (modTstR s f).free = s.free := (rfl)

/-! ### One unit of many -/

@[simp] theorem lp_modLp (s : State) (l : Fin 60) (f : LPan → LPan) : lp (modLp s l f) l = f (lp s l) := vget_vmod_self _ _ _
theorem lp_modLp_ne (s : State) {i j : Fin 60} (h : i ≠ j) (f : LPan → LPan) : lp (modLp s i f) j = lp s j := vget_vmod_ne _ _ _ _ h
@[simp] theorem pn_modPan (s : State) (p : Fin 64) (f : Pan → Pan) : pn (modPan s p f) p = f (pn s p) := vget_vmod_self _ _ _
theorem pn_modPan_ne (s : State) {i j : Fin 64} (h : i ≠ j) (f : Pan → Pan) : pn (modPan s i f) j = pn s j := vget_vmod_ne _ _ _ _ h
@[simp] theorem eng_modEng (s : State) (n : Fin 8) (f : Hrv → Hrv) : eng (modEng s n f) n = f (eng s n) := vget_vmod_self _ _ _
theorem eng_modEng_ne (s : State) {i j : Fin 8} (h : i ≠ j) (f : Hrv → Hrv) : eng (modEng s i f) j = eng s j := vget_vmod_ne _ _ _ _ h
@[simp] theorem salt_modSlt (s : State) (n : Fin 8) (f : Slt → Slt) : salt (modSlt s n f) n = f (salt s n) := vget_vmod_self _ _ _
theorem salt_modSlt_ne (s : State) {i j : Fin 8} (h : i ≠ j) (f : Slt → Slt) : salt (modSlt s i f) j = salt s j := vget_vmod_ne _ _ _ _ h
@[simp] theorem lk_modLk (s : State) (k : Fin 8) (f : Lnk → Lnk) : lk (modLk s k f) k = f (lk s k) := vget_vmod_self _ _ _
theorem lk_modLk_ne (s : State) {i j : Fin 8} (h : i ≠ j) (f : Lnk → Lnk) : lk (modLk s i f) j = lk s j := vget_vmod_ne _ _ _ _ h
@[simp] theorem quad_modQd (s : State) (q : Fin 16) (f : Qd → Qd) : quad (modQd s q f) q = f (quad s q) := vget_vmod_self _ _ _
theorem quad_modQd_ne (s : State) {i j : Fin 16} (h : i ≠ j) (f : Qd → Qd) : quad (modQd s i f) j = quad s j := vget_vmod_ne _ _ _ _ h
@[simp] theorem hdr_modHdr (s : State) (p : PageId) (f : PageHdr → PageHdr) : hdr (modHdr s p f) p = f (hdr s p) := vget_vmod_self _ _ _

/-- Two pages never share a header. -/
theorem ix_inj {p q : PageId} (h : p.ix = q.ix) : p = q := by
  have k : p.ix.val = q.ix.val := congrArg Fin.val h
  clear h
  cases p <;> cases q <;> first
    | rfl
    | (simp only [PageId.ix] at k; first | omega | (congr 1; apply Fin.ext; omega) | exact absurd k (by decide))

theorem hdr_modHdr_ne (s : State) {p q : PageId} (h : p ≠ q) (f : PageHdr → PageHdr) : hdr (modHdr s p f) q = hdr s q :=
  vget_vmod_ne _ _ _ _ fun e => h (ix_inj e)

end Sys2Proof.Machine
end

