-- ==== Sys2Proof/Laws/Commands.lean ====
section
/-! SUPPORT. What the shells of the commands do: the control port's request and the run of a command. -/

namespace Sys2Proof.Machine

/-- A request to a page that answers has its effect, with the response OK unless the effect answers otherwise. -/
theorem cpDo_answers {s : State} {p : PageId} (h : Answers s p) (f : State → State) :
    cpDo s (some p) f = f (answer s cpOk) := by
  simp only [cpDo, h.1, h.2, Bool.false_eq_true, if_false]

theorem cpWrite_answers {s : State} {p : PageId} (h : Answers s p) (f : State → State) :
    cpWrite s p f = .next (f (answer s cpOk)) := by
  rw [cpWrite, cpDo_answers h]

/-- A command that finds its credits and makes no remote access ends as its effect leaves it. -/
theorem command_local {bad : List Nat} {s : State} {f : State → State} (hs : (f (s.begin bad)).stall = false)
    (hm : (f (s.begin bad)).miss = []) (hu : (f (s.begin bad)).rused = []) (ho : (f (s.begin bad)).rout = []) :
    command bad s f = { f (s.begin bad) with hostBad := [], who := none, rsv := false } := by
  have h : ∀ l : List Nat, (l.filter fun u => !([] : List Nat).contains u) = l := fun l => by simp
  simp only [command, hs, hm, List.isEmpty_nil, if_true, Bool.false_eq_true, if_false, endRemote, sendRout, ho, List.foldl_nil, hu, h]

/-! ### Wakes change pans only -/

/-- The two states differ in their pans at most. -/
def PansOnly (s t : State) : Prop := ∃ v, t = { s with pan := v }

theorem PansOnly.refl (s : State) : PansOnly s s := ⟨s.pan, rfl⟩
theorem PansOnly.trans {s t u : State} (h : PansOnly s t) (k : PansOnly t u) : PansOnly s u := by
  obtain ⟨v, rfl⟩ := h; obtain ⟨w, rfl⟩ := k; exact ⟨w, rfl⟩
theorem PansOnly.foldl {α : Type} {g : State → α → State} (h : ∀ s x, PansOnly s (g s x)) (l : List α) (s : State) :
    PansOnly s (l.foldl g s) := by
  induction l generalizing s with
  | nil => exact .refl s
  | cons x t ih => exact (h s x).trans (ih _)

theorem wakePan_pansOnly (s : State) (p : Fin 64) : PansOnly s (wakePan s p) := by
  unfold wakePan; split
  · exact ⟨_, rfl⟩
  · exact .refl s
theorem wakeLogical_pansOnly (s : State) (l : Fin 60) : PansOnly s (wakeLogical s l) := by
  unfold wakeLogical; (repeat' split) <;> first | exact wakePan_pansOnly _ _ | exact .refl s
theorem serveWakes_pansOnly (s : State) : PansOnly s (serveWakes s) := by
  unfold serveWakes; simp only []
  refine .trans ?_ (PansOnly.foldl ?_ _ _)
  · refine .trans ?_ (PansOnly.foldl wakeLogical_pansOnly _ _)
    refine .trans (PansOnly.foldl (g := fun s p => if (pn s p).wakeFor.isSome then wakePan s p else s) ?_ (List.finRange 64) s) ?_
    · intro s x; split
      · exact wakePan_pansOnly _ _
      · exact .refl s
    · split
      · exact wakePan_pansOnly _ _
      · exact .refl _
  · intro s x; split
    · exact wakePan_pansOnly _ _
    · exact .refl s

end Sys2Proof.Machine
end

