-- ==== Sys2Proof/Laws/KeepOps.lean ====
section
/-! SUPPORT. What leaves the SEC page and the queue of waiting commands as they were: the shared operations, the Brine and frame layers, errors and the control port. -/

namespace Sys2Proof.Machine

theorem foldl_kept2 {α β : Type} (g : β × State → α → β × State)
    (h : ∀ x a, (g x a).2.sec = x.2.sec ∧ (g x a).2.pending = x.2.pending) (l : List α) :
    ∀ x : β × State, (l.foldl g x).2.sec = x.2.sec ∧ (l.foldl g x).2.pending = x.2.pending := by
  induction l with
  | nil => intro x; exact ⟨rfl, rfl⟩
  | cons a t ih => intro x; simp only [List.foldl_cons, ih, h, and_self]

@[simp] theorem ite_sec {c : Prop} [Decidable c] (a b : State) : (if c then a else b).sec = if c then a.sec else b.sec := apply_ite _ _ _ _
@[simp] theorem ite_pending {c : Prop} [Decidable c] (a b : State) : (if c then a else b).pending = if c then a.pending else b.pending := apply_ite _ _ _ _

theorem foldl_kept {α : Type} (g : State → α → State) (h : ∀ s x, (g s x).sec = s.sec ∧ (g s x).pending = s.pending) (l : List α) :
    ∀ s : State, (l.foldl g s).sec = s.sec ∧ (l.foldl g s).pending = s.pending := by
  induction l with
  | nil => intro s; exact ⟨rfl, rfl⟩
  | cons x t ih => intro s; simp only [List.foldl_cons, ih, h, and_self]

@[simp] theorem foldl_sec {α : Type} (g : State → α → State) (h : ∀ s x, (g s x).sec = s.sec) (l : List α) (s : State) :
    (l.foldl g s).sec = s.sec := by
  induction l generalizing s with
  | nil => rfl
  | cons x t ih => rw [List.foldl_cons, ih, h]

@[simp] theorem foldl_pending {α : Type} (g : State → α → State) (h : ∀ s x, (g s x).pending = s.pending) (l : List α) (s : State) :
    (l.foldl g s).pending = s.pending := by
  induction l generalizing s with
  | nil => rfl
  | cons x t ih => rw [List.foldl_cons, ih, h]


/-! ### Mem -/

@[simp] theorem keep_resPut (s : State) (o : Nat) (bs : List Byte) :
    (resPut s o bs).sec = s.sec ∧ (resPut s o bs).pending = s.pending := by
  simp [resPut]
@[simp] theorem keep_takeFree (w : Nat) (s : State) :
    (takeFree w s).2.sec = s.sec ∧ (takeFree w s).2.pending = s.pending := by
  simp [takeFree]
theorem keep_takeFree' (w : Nat) (s : State) {o_ t_} (h : takeFree w s = (o_, t_)) : t_.sec = s.sec ∧ t_.pending = s.pending := by
  have k := keep_takeFree w s; rw [h] at k; exact k
@[simp] theorem keep_putHost (a0 : State) (a1 : Nat) (a2 : List Byte) :
    (putHost a0 a1 a2).sec = a0.sec ∧ (putHost a0 a1 a2).pending = a0.pending := by
  fun_induction putHost a0 a1 a2 <;> first | (simp_all +zetaDelta; done) | grind [→ keep_takeFree'] | (simp_all +zetaDelta; grind [→ keep_takeFree'])
@[simp] theorem keep_useCredit (s : State) : (useCredit s).sec = s.sec ∧ (useCredit s).pending = s.pending := by
  simp [useCredit]
@[simp] theorem keep_rdHost (s : State) (a0 : Nat) (n : Nat) :
    (rdHost s a0 n).2.sec = s.sec ∧ (rdHost s a0 n).2.pending = s.pending := by
  simp only [rdHost]; (repeat' split) <;> simp
theorem keep_rdHost' (s : State) (a0 : Nat) (n : Nat) {o_ t_} (h : rdHost s a0 n = (o_, t_)) : t_.sec = s.sec ∧ t_.pending = s.pending := by
  have k := keep_rdHost s a0 n; rw [h] at k; exact k
@[simp] theorem keep_wrRemote (s : State) (a : Nat) (bs : List Byte) :
    (wrRemote s a bs).2.sec = s.sec ∧ (wrRemote s a bs).2.pending = s.pending := by
  unfold wrRemote; simp only []; split <;> split <;> simp_all
@[simp] theorem keep_onReserve {α : Type} (f : State → α × State) (s : State)
    (h : ∀ t, (f t).2.sec = t.sec ∧ (f t).2.pending = t.pending) :
    (onReserve f s).2.sec = s.sec ∧ (onReserve f s).2.pending = s.pending := by
  simp [onReserve, h]
@[simp] theorem keep_wrHost (s : State) (a0 : Nat) (bs : List Byte) :
    (wrHost s a0 bs).2.sec = s.sec ∧ (wrHost s a0 bs).2.pending = s.pending := by
  simp only [wrHost]; (repeat' split) <;> simp
theorem keep_wrHost' (s : State) (a0 : Nat) (bs : List Byte) {o_ t_} (h : wrHost s a0 bs = (o_, t_)) : t_.sec = s.sec ∧ t_.pending = s.pending := by
  have k := keep_wrHost s a0 bs; rw [h] at k; exact k
@[simp] theorem keep_atHost (s : State) (o : Aop) (a0 : Nat) (y : Nat) :
    (atHost s o a0 y).2.sec = s.sec ∧ (atHost s o a0 y).2.pending = s.pending := by
  simp only [atHost]; (repeat' split) <;> simp
theorem keep_atHost' (s : State) (o : Aop) (a0 : Nat) (y : Nat) {o_ t_} (h : atHost s o a0 y = (o_, t_)) : t_.sec = s.sec ∧ t_.pending = s.pending := by
  have k := keep_atHost s o a0 y; rw [h] at k; exact k
@[simp] theorem keep_spoilHost (a0 : State) (a1 : Nat) (a2 : Nat) :
    (spoilHost a0 a1 a2).sec = a0.sec ∧ (spoilHost a0 a1 a2).pending = a0.pending := by
  fun_induction spoilHost a0 a1 a2 <;> first | (simp_all +zetaDelta; done) | grind [→ keep_takeFree'] | (simp_all +zetaDelta; grind [→ keep_takeFree'])
@[simp] theorem keep_rdNum (s : State) (a : Nat) (n : Nat) :
    (rdNum s a n).2.sec = s.sec ∧ (rdNum s a n).2.pending = s.pending := by
  simp [rdNum]
theorem keep_rdNum' (s : State) (a : Nat) (n : Nat) {o_ t_} (h : rdNum s a n = (o_, t_)) : t_.sec = s.sec ∧ t_.pending = s.pending := by
  have k := keep_rdNum s a n; rw [h] at k; exact k

/-! ### Ops -/

@[simp] theorem keep_answer (s : State) (c : BitVec 2) (d : optParam W32 0) :
    (answer s c d).sec = s.sec ∧ (answer s c d).pending = s.pending := by
  simp [answer]
@[simp] theorem keep_modHdr (s : State) (p : PageId) (f : PageHdr → PageHdr) :
    (modHdr s p f).sec = s.sec ∧ (modHdr s p f).pending = s.pending := by
  simp [modHdr]
@[simp] theorem keep_modTstR (s : State) (f : TstRegs → TstRegs) :
    (modTstR s f).sec = s.sec ∧ (modTstR s f).pending = s.pending := by
  simp [modTstR]
@[simp] theorem keep_trace (s : State) (kind : Nat) (p : PageId) (payload : List Byte) :
    (trace s kind p payload).sec = s.sec ∧ (trace s kind p payload).pending = s.pending := by
  simp [trace]
@[simp] theorem keep_issueTxn (s : State) (q : Fin 16) (sh : Option (Fin 8)) (k : TxnKind) (addr : Nat) (data : List Byte) (why : TxnFor) :
    (issueTxn s q sh k addr data why).sec = s.sec ∧ (issueTxn s q sh k addr data why).pending = s.pending := by
  simp [issueTxn]
@[simp] theorem keep_sendMsg (s : State) (i : Nat) :
    (sendMsg s i).sec = s.sec ∧ (sendMsg s i).pending = s.pending := by
  simp [sendMsg]
@[simp] theorem keep_raiseInt (s : State) (i : Nat) :
    (raiseInt s i).sec = s.sec ∧ (raiseInt s i).pending = s.pending := by
  simp [raiseInt]
@[simp] theorem keep_wakeSalters (s : State) :
    (wakeSalters s).sec = s.sec ∧ (wakeSalters s).pending = s.pending := by
  simp [wakeSalters]
@[simp] theorem keep_wakeEvent (s : State) :
    (wakeEvent s).sec = s.sec ∧ (wakeEvent s).pending = s.pending := by
  unfold wakeEvent; (repeat' split) <;> simp_all
@[simp] theorem keep_modShard (s : State) (i : Nat) (f : Shard → Shard) :
    (modShard s i f).sec = s.sec ∧ (modShard s i f).pending = s.pending := by
  simp [modShard]
@[simp] theorem keep_modSlt (s : State) (n : Fin 8) (f : Slt → Slt) :
    (modSlt s n f).sec = s.sec ∧ (modSlt s n f).pending = s.pending := by
  simp [modSlt]
@[simp] theorem keep_modFlt (s : State) (f : Flt → Flt) :
    (modFlt s f).sec = s.sec ∧ (modFlt s f).pending = s.pending := by
  simp [modFlt]
@[simp] theorem keep_modTst (s : State) (f : Tst → Tst) :
    (modTst s f).sec = s.sec ∧ (modTst s f).pending = s.pending := by
  simp [modTst]
@[simp] theorem keep_modEng (s : State) (n : Fin 8) (f : Hrv → Hrv) :
    (modEng s n f).sec = s.sec ∧ (modEng s n f).pending = s.pending := by
  simp [modEng]
@[simp] theorem keep_modTwnR (s : State) (f : TwnRegs → TwnRegs) :
    (modTwnR s f).sec = s.sec ∧ (modTwnR s f).pending = s.pending := by
  simp [modTwnR]
@[simp] theorem keep_modLp (s : State) (l : Fin 60) (f : LPan → LPan) :
    (modLp s l f).sec = s.sec ∧ (modLp s l f).pending = s.pending := by
  simp [modLp]
@[simp] theorem keep_modPan (s : State) (p : Fin 64) (f : Pan → Pan) :
    (modPan s p f).sec = s.sec ∧ (modPan s p f).pending = s.pending := by
  simp [modPan]
@[simp] theorem keep_modQd (s : State) (q : Fin 16) (f : Qd → Qd) :
    (modQd s q f).sec = s.sec ∧ (modQd s q f).pending = s.pending := by
  simp [modQd]
@[simp] theorem keep_vidRequest (s : State) (q : Fin 16) (code : Byte) :
    (vidRequest s q code).sec = s.sec ∧ (vidRequest s q code).pending = s.pending := by
  simp [vidRequest]
@[simp] theorem keep_quadIdle (s : State) (q : Fin 16) :
    (quadIdle s q).sec = s.sec ∧ (quadIdle s q).pending = s.pending := by
  simp [quadIdle]
@[simp] theorem keep_cfgRej (s : State) (p : PageId) (off : Nat) (c : Rej) :
    (cfgRej s p off c).sec = s.sec ∧ (cfgRej s p off c).pending = s.pending := by
  simp [cfgRej]
@[simp] theorem keep_dropOk (s : State) (p : PageId) (off : Nat) (c : Rej) :
    (dropOk s p off c).sec = s.sec ∧ (dropOk s p off c).pending = s.pending := by
  simp [dropOk]
@[simp] theorem keep_modDir (s : State) (m : Nat) (f : DirE → DirE) :
    (modDir s m f).sec = s.sec ∧ (modDir s m f).pending = s.pending := by
  simp [modDir]
@[simp] theorem keep_setHist (s : State) (h : Nat) (x : HistSlot) :
    (setHist s h x).sec = s.sec ∧ (setHist s h x).pending = s.pending := by
  simp [setHist]
@[simp] theorem keep_modSal (s : State) (i : Nat) (f : SalSlot → SalSlot) :
    (modSal s i f).sec = s.sec ∧ (modSal s i f).pending = s.pending := by
  simp [modSal]
@[simp] theorem keep_modLk (s : State) (k : Fin 8) (f : Lnk → Lnk) :
    (modLk s k f).sec = s.sec ∧ (modLk s k f).pending = s.pending := by
  simp [modLk]
@[simp] theorem keep_modLkR (s : State) (k : Fin 8) (f : LnkRegs → LnkRegs) :
    (modLkR s k f).sec = s.sec ∧ (modLkR s k f).pending = s.pending := by
  simp [modLkR]
@[simp] theorem keep_tracePower (s : State) (old : PState) (new : PState) (cause : Nat) :
    (tracePower s old new cause).sec = s.sec ∧ (tracePower s old new cause).pending = s.pending := by
  simp [tracePower]
@[simp] theorem keep_modTide (s : State) (f : Tide → Tide) :
    (modTide s f).sec = s.sec ∧ (modTide s f).pending = s.pending := by
  simp [modTide]
@[simp] theorem keep_modRak (s : State) (f : Rak → Rak) :
    (modRak s f).sec = s.sec ∧ (modRak s f).pending = s.pending := by
  simp [modRak]
@[simp] theorem keep_modVrd (s : State) (f : Vrd → Vrd) :
    (modVrd s f).sec = s.sec ∧ (modVrd s f).pending = s.pending := by
  simp [modVrd]
@[simp] theorem keep_modSalR (s : State) (f : Sal → Sal) :
    (modSalR s f).sec = s.sec ∧ (modSalR s f).pending = s.pending := by
  simp [modSalR]
@[simp] theorem keep_modPwr (s : State) (f : Pwr → Pwr) :
    (modPwr s f).sec = s.sec ∧ (modPwr s f).pending = s.pending := by
  simp [modPwr]
@[simp] theorem keep_modVrdR (s : State) (f : VrdRegs → VrdRegs) :
    (modVrdR s f).sec = s.sec ∧ (modVrdR s f).pending = s.pending := by
  simp [modVrdR]
@[simp] theorem keep_modPins (s : State) (f : Pins → Pins) :
    (modPins s f).sec = s.sec ∧ (modPins s f).pending = s.pending := by
  simp [modPins]
@[simp] theorem keep_modTwn (s : State) (f : Twn → Twn) :
    (modTwn s f).sec = s.sec ∧ (modTwn s f).pending = s.pending := by
  simp [modTwn]
@[simp] theorem keep_modGlb (s : State) (f : Glb → Glb) :
    (modGlb s f).sec = s.sec ∧ (modGlb s f).pending = s.pending := by
  simp [modGlb]
@[simp] theorem keep_modWrap (s : State) (f : Wrap → Wrap) :
    (modWrap s f).sec = s.sec ∧ (modWrap s f).pending = s.pending := by
  simp [modWrap]
@[simp] theorem keep_traceKey (s : State) (slot : Nat) (event : Nat) (code : Nat) (kid : W32) :
    (traceKey s slot event code kid).sec = s.sec ∧ (traceKey s slot event code kid).pending = s.pending := by
  simp [traceKey]
@[simp] theorem keep_useStep (s : State) (u : Nat) :
    (useStep s u).sec = s.sec ∧ (useStep s u).pending = s.pending := by
  simp [useStep]
@[simp] theorem keep_dropReject (s : State) (p : PageId) (off : Nat) (c : Rej) :
    (dropReject s p off c).sec = s.sec ∧ (dropReject s p off c).pending = s.pending := by
  simp [dropReject]
@[simp] theorem keep_idleTick (s : State) :
    (idleTick s).sec = s.sec ∧ (idleTick s).pending = s.pending := by
  simp [idleTick]
@[simp] theorem keep_sendRouted (before : State) (s : State) :
    (sendRouted before s).sec = s.sec ∧ (sendRouted before s).pending = s.pending := by
  unfold sendRouted; apply foldl_kept; intro s x; (repeat' split) <;> simp_all
@[simp] theorem keep_sltEvent (s : State) (n : Fin 8) :
    (sltEvent s n).sec = s.sec ∧ (sltEvent s n).pending = s.pending := by
  simp [sltEvent]
@[simp] theorem keep_sendHeldMsgs (s : State) :
    (sendHeldMsgs s).sec = s.sec ∧ (sendHeldMsgs s).pending = s.pending := by
  unfold sendHeldMsgs; apply foldl_kept; intro s x; (repeat' split) <;> simp_all
@[simp] theorem keep_modPanR (s : State) (p : Fin 64) (f : PanRegs → PanRegs) :
    (modPanR s p f).sec = s.sec ∧ (modPanR s p f).pending = s.pending := by
  simp [modPanR]
@[simp] theorem keep_modRakR (s : State) (f : RakRegs → RakRegs) :
    (modRakR s f).sec = s.sec ∧ (modRakR s f).pending = s.pending := by
  simp [modRakR]

/-! ### Frames -/

@[simp] theorem keep_modPair (s : State) (adp : Bool) (peer : Nat) (cls : Nat) (f : Pair → Pair) :
    (modPair s adp peer cls f).sec = s.sec ∧ (modPair s adp peer cls f).pending = s.pending := by
  simp [modPair]
@[simp] theorem keep_transmit (s : State) (k : Fin 8) (f : Frame) :
    (transmit s k f).sec = s.sec ∧ (transmit s k f).pending = s.pending := by
  simp [transmit]
@[simp] theorem keep_sendNow (s : State) (adp : Bool) (peer : Nat) (cls : Nat) (k : Fin 8) (ftype : Nat) (ts : List Byte) (payload : List Byte) :
    (sendNow s adp peer cls k ftype ts payload).sec = s.sec ∧ (sendNow s adp peer cls k ftype ts payload).pending = s.pending := by
  simp [sendNow]
@[simp] theorem keep_sendVia (s : State) (via : Option (Fin 8)) (adp : Bool) (peer : Nat) (cls : Nat) (ftype : Nat) (ts : List Byte) (payload : List Byte) :
    (sendVia s via adp peer cls ftype ts payload).sec = s.sec ∧ (sendVia s via adp peer cls ftype ts payload).pending = s.pending := by
  simp only [sendVia]; (repeat' split) <;> simp_all
@[simp] theorem keep_sendTo (s : State) (peer : Nat) (cls : Nat) (ftype : Nat) (ts : List Byte) (payload : List Byte) :
    (sendTo s peer cls ftype ts payload).sec = s.sec ∧ (sendTo s peer cls ftype ts payload).pending = s.pending := by
  simp [sendTo]
@[simp] theorem keep_sendHbeat (s : State) (st : Nat) :
    (sendHbeat s st).sec = s.sec ∧ (sendHbeat s st).pending = s.pending := by
  simp [sendHbeat]
@[simp] theorem keep_resetPairs (s : State) (peer : Nat) :
    (resetPairs s peer).sec = s.sec ∧ (resetPairs s peer).pending = s.pending := by
  simp [resetPairs]
@[simp] theorem keep_drainPair (a0 : Nat) (a1 : State) (a2 : Bool) (a3 : Nat) (a4 : Nat) :
    (drainPair a0 a1 a2 a3 a4).sec = a1.sec ∧ (drainPair a0 a1 a2 a3 a4).pending = a1.pending := by
  induction a0 generalizing a1 with
  | zero => exact ⟨rfl, rfl⟩
  | succ n ih => unfold drainPair; (repeat' split) <;> simp [ih]
@[simp] theorem keep_drainPairs (s : State) (adp : Bool) (peer : Nat) (cls : Nat) :
    (drainPairs s adp peer cls).sec = s.sec ∧ (drainPairs s adp peer cls).pending = s.pending := by
  simp [drainPairs]
@[simp] theorem keep_sendNack (s : State) (adp : Bool) (peer cls reason eseq : Nat) :
    (sendNack s adp peer cls reason eseq).sec = s.sec ∧ (sendNack s adp peer cls reason eseq).pending = s.pending := by
  simp [sendNack]
@[simp] theorem keep_sendLctl (s : State) (k : Fin 8) (op : Nat) (lane : Nat) (n : Nat) :
    (sendLctl s k op lane n).sec = s.sec ∧ (sendLctl s k op lane n).pending = s.pending := by
  simp [sendLctl]

/-! ### Faults -/

@[simp] theorem keep_eqStore (s : State) (bs : List Byte) :
    (eqStore s bs).sec = s.sec ∧ (eqStore s bs).pending = s.pending := by
  simp [eqStore]
@[simp] theorem keep_eqPush (s : State) (bs : List Byte) :
    (eqPush s bs).sec = s.sec ∧ (eqPush s bs).pending = s.pending := by
  simp [eqPush]
@[simp] theorem keep_recordOnly (s : State) (p : PageId) (e : ErrIn) :
    (recordOnly s p e).2.sec = s.sec ∧ (recordOnly s p e).2.pending = s.pending := by
  simp only [recordOnly]; (repeat' split) <;> simp_all
theorem keep_recordOnly' (s : State) (p : PageId) (e : ErrIn) {o_ t_} (h : recordOnly s p e = (o_, t_)) : t_.sec = s.sec ∧ t_.pending = s.pending := by
  have k := keep_recordOnly s p e; rw [h] at k; exact k
@[simp] theorem keep_sendHold (s : State) (peer : Nat) (shard : Nat) (op : Nat) (slot : Bool) (result : Nat) :
    (sendHold s peer shard op slot result).sec = s.sec ∧ (sendHold s peer shard op slot result).pending = s.pending := by
  simp [sendHold]
@[simp] theorem keep_releaseFetches (s : State) (n : Fin 8) :
    (releaseFetches s n).sec = s.sec ∧ (releaseFetches s n).pending = s.pending := by
  unfold releaseFetches; apply foldl_kept; intro s x; (repeat' split) <;> simp_all
@[simp] theorem keep_unpass (s : State) (u : Nat) :
    (unpass s u).sec = s.sec ∧ (unpass s u).pending = s.pending := by
  simp [unpass]
@[simp] theorem keep_fenceSlt (s : State) (n : Fin 8) :
    (fenceSlt s n).sec = s.sec ∧ (fenceSlt s n).pending = s.pending := by
  simp [fenceSlt]
@[simp] theorem keep_spoilAll (s : State) (rs : List (Nat × Nat)) :
    (spoilAll s rs).sec = s.sec ∧ (spoilAll s rs).pending = s.pending := by
  unfold spoilAll; apply foldl_kept; intro s x; simp
@[simp] theorem keep_takeJobOff (s : State) (n : Fin 8) :
    (takeJobOff s n).sec = s.sec ∧ (takeJobOff s n).pending = s.pending := by
  unfold takeJobOff; split <;> simp
@[simp] theorem keep_dropJob (s : State) (n : Fin 8) :
    (dropJob s n).sec = s.sec ∧ (dropJob s n).pending = s.pending := by
  simp [dropJob]
@[simp] theorem keep_stopPans (s : State) :
    (stopPans s).sec = s.sec ∧ (stopPans s).pending = s.pending := by
  simp [stopPans]
@[simp] theorem keep_abandonAll (s : State) :
    (abandonAll s).sec = s.sec ∧ (abandonAll s).pending = s.pending := by
  simp [abandonAll]
@[simp] theorem keep_enterFenced (s : State) :
    (enterFenced s).sec = s.sec ∧ (enterFenced s).pending = s.pending := by
  simp [enterFenced]
@[simp] theorem keep_instLoss (s : State) :
    (instLoss s).sec = s.sec ∧ (instLoss s).pending = s.pending := by
  simp [instLoss]
@[simp] theorem keep_handlerError (s : State) :
    (handlerError s).sec = s.sec ∧ (handlerError s).pending = s.pending := by
  simp [handlerError]
@[simp] theorem keep_unmapPan (s : State) (p : Fin 64) :
    (unmapPan s p).sec = s.sec ∧ (unmapPan s p).pending = s.pending := by
  unfold unmapPan; (repeat' split) <;> simp_all
@[simp] theorem keep_fencePan (s : State) (p : Fin 64) :
    (fencePan s p).sec = s.sec ∧ (fencePan s p).pending = s.pending := by
  unfold fencePan; (repeat' split) <;> simp_all
@[simp] theorem keep_fenceHrv (s : State) (n : Fin 8) :
    (fenceHrv s n).sec = s.sec ∧ (fenceHrv s n).pending = s.pending := by
  simp [fenceHrv]
@[simp] theorem keep_fenceRake (s : State) :
    (fenceRake s).sec = s.sec ∧ (fenceRake s).pending = s.pending := by
  simp [fenceRake]
@[simp] theorem keep_respond (s : State) (p : PageId) (cause : Nat) (cls : Nat) :
    (respond s p cause cls).sec = s.sec ∧ (respond s p cause cls).pending = s.pending := by
  unfold respond; (repeat' split) <;> simp_all
@[simp] theorem keep_recordErr (s : State) (p : PageId) (e : ErrIn) :
    (recordErr s p e).sec = s.sec ∧ (recordErr s p e).pending = s.pending := by
  simp [recordErr]
@[simp] theorem keep_endReplay (s : State) (p : PageId) :
    (endReplay s p).sec = s.sec ∧ (endReplay s p).pending = s.pending := by
  simp [endReplay]
@[simp] theorem keep_eqDrain (a0 : Nat) (a1 : State) :
    (eqDrain a0 a1).sec = a1.sec ∧ (eqDrain a0 a1).pending = a1.pending := by
  fun_induction eqDrain a0 a1 <;> simp_all

/-! ### Remote -/

@[simp] theorem keep_sendWrite (cut : Nat) (a1 : Nat) (a2 : State) (a3 : Nat) (a4 : List Byte) :
    (sendWrite cut a1 a2 a3 a4).sec = a2.sec ∧ (sendWrite cut a1 a2 a3 a4).pending = a2.pending := by
  fun_induction sendWrite cut a1 a2 a3 a4 <;> first | (simp_all +zetaDelta; done) | grind [keep_sendTo] | (simp_all +zetaDelta; grind [keep_sendTo])
@[simp] theorem keep_sendRout (s : State) :
    (sendRout s).sec = s.sec ∧ (sendRout s).pending = s.pending := by
  unfold sendRout; apply foldl_kept; intro s x; (repeat' split) <;> simp_all
@[simp] theorem keep_endRemote (s : State) :
    (endRemote s).sec = s.sec ∧ (endRemote s).pending = s.pending := by
  simp [endRemote]
@[simp] theorem keep_sendRdreqs (s : State) (units : List Nat) :
    (sendRdreqs s units).sec = s.sec ∧ (sendRdreqs s units).pending = s.pending := by
  unfold sendRdreqs; apply foldl_kept; intro s x; (repeat' split) <;> simp_all

/-! ### Cake -/

@[simp] theorem keep_State_withBus (s : State) (t : State) :
    (State.withBus s t).sec = s.sec ∧ (State.withBus s t).pending = s.pending := by
  simp [State.withBus]
@[simp] theorem keep_Io_run {α : Type} (x : Io α) (s : State) :
    (Io.run x s).2.sec = s.sec ∧ (Io.run x s).2.pending = s.pending := by
  unfold Io.run; (repeat' split) <;> simp_all
theorem keep_Io_run' {α : Type} (x : Io α) (s : State) {o_ t_} (h : Io.run x s = (o_, t_)) : t_.sec = s.sec ∧ t_.pending = s.pending := by
  have k := keep_Io_run x s; rw [h] at k; exact k

/-! ### Landing -/

@[simp] theorem keep_landWrite (s : State) (i : Nat) (addr : Nat) (bs : List Byte) :
    (landWrite s i addr bs).2.sec = s.sec ∧ (landWrite s i addr bs).2.pending = s.pending := by
  unfold landWrite; (repeat' split) <;> simp_all
theorem keep_landWrite' (s : State) (i : Nat) (addr : Nat) (bs : List Byte) {o_ t_} (h : landWrite s i addr bs = (o_, t_)) : t_.sec = s.sec ∧ t_.pending = s.pending := by
  have k := keep_landWrite s i addr bs; rw [h] at k; exact k
@[simp] theorem keep_pondAlloc (s : State) (i : Nat) :
    (pondAlloc s i).sec = s.sec ∧ (pondAlloc s i).pending = s.pending := by
  unfold pondAlloc; apply foldl_kept; intro s x; (repeat' split) <;> simp_all
@[simp] theorem keep_readyCheck (s : State) (i : Nat) :
    (readyCheck s i).sec = s.sec ∧ (readyCheck s i).pending = s.pending := by
  simp [readyCheck]
@[simp] theorem keep_countLanding (s : State) (i : Nat) :
    (countLanding s i).sec = s.sec ∧ (countLanding s i).pending = s.pending := by
  simp [countLanding]
@[simp] theorem keep_pondFold (s : State) (i : Nat) (e : Nat) (first : Bool) (g : XVal) :
    (pondFold s i e first g).sec = s.sec ∧ (pondFold s i e first g).pending = s.pending := by
  unfold pondFold; (repeat' split) <;> simp_all
@[simp] theorem keep_landCount (s : State) (i : Nat) (addr : Nat) (bs : List Byte) :
    (landCount s i addr bs).sec = s.sec ∧ (landCount s i addr bs).pending = s.pending := by
  simp [landCount]
@[simp] theorem keep_landNow (s : State) (p : PageId) (i : Nat) (addr : Nat) (bs : List Byte) :
    (landNow s p i addr bs).2.sec = s.sec ∧ (landNow s p i addr bs).2.pending = s.pending := by
  simp [landNow]
@[simp] theorem keep_landGrad (s : State) (p : PageId) (i : Nat) (addr : Nat) (bs : List Byte) (src : Option (Nat × Nat × Nat)) :
    (landGrad s p i addr bs src).2.sec = s.sec ∧ (landGrad s p i addr bs src).2.pending = s.pending := by
  unfold landGrad; split <;> simp
@[simp] theorem keep_frameDone (s : State) (peer : Nat) (cls : Nat) (ext : Nat) :
    (frameDone s peer cls ext).sec = s.sec ∧ (frameDone s peer cls ext).pending = s.pending := by
  simp [frameDone]
@[simp] theorem keep_landedFrame (s : State) (peer ext : Nat) (ok : Bool) :
    (landedFrame s peer ext ok).sec = s.sec ∧ (landedFrame s peer ext ok).pending = s.pending := by
  unfold landedFrame; simp only []; split <;> simp
@[simp] theorem keep_landQueue (q : List (Nat × HeldGrad)) (s : State) :
    (landQueue q s).sec = s.sec ∧ (landQueue q s).pending = s.pending := by
  induction q generalizing s with
  | nil => exact ⟨rfl, rfl⟩
  | cons x t ih => unfold landQueue; (repeat' split) <;> simp [ih]
@[simp] theorem keep_landHeld (s : State) :
    (landHeld s).sec = s.sec ∧ (landHeld s).pending = s.pending := by
  simp [landHeld]
@[simp] theorem keep_pondFreeShard (s : State) (i : Nat) :
    (pondFreeShard s i).sec = s.sec ∧ (pondFreeShard s i).pending = s.pending := by
  simp [pondFreeShard]

/-! ### Port -/

@[simp] theorem keep_wakePan (s : State) (p : Fin 64) :
    (wakePan s p).sec = s.sec ∧ (wakePan s p).pending = s.pending := by
  simp [wakePan]
@[simp] theorem keep_wakeLogical (s : State) (l : Fin 60) :
    (wakeLogical s l).sec = s.sec ∧ (wakeLogical s l).pending = s.pending := by
  unfold wakeLogical; (repeat' split) <;> simp_all
@[simp] theorem keep_serveWakes (s : State) :
    (serveWakes s).sec = s.sec ∧ (serveWakes s).pending = s.pending := by
  simp only [serveWakes]; (repeat' split) <;> simp_all

end Sys2Proof.Machine
end

