-- ==== Sys2Proof/Laws/KeepTile.lean ====
section
/-! SUPPORT. What leaves the SEC page and the queue of waiting commands as they were: queues, orders and tiles. -/

namespace Sys2Proof.Machine

/-! ### Queue -/

@[simp] theorem keep_pushDone (s : State) (l : Fin 60) (d : Done) :
    (pushDone s l d).sec = s.sec ∧ (pushDone s l d).pending = s.pending := by
  simp [pushDone]
@[simp] theorem keep_releaseHolds (s : State) (rdr : List (Nat × Bool)) (hold : Option (Nat × Bool)) :
    (releaseHolds s rdr hold).sec = s.sec ∧ (releaseHolds s rdr hold).pending = s.pending := by
  unfold releaseHolds; (repeat' split) <;> simp_all
@[simp] theorem keep_doorbell (s : State) (l : Fin 60) (v : W32) :
    (doorbell s l v).sec = s.sec ∧ (doorbell s l v).pending = s.pending := by
  simp [doorbell]
@[simp] theorem keep_flushRing (a0 : Nat) (a1 : State) (a2 : Fin 60) (a3 : W32) (a4 : List Done) :
    (flushRing a0 a1 a2 a3 a4).2.sec = a1.sec ∧ (flushRing a0 a1 a2 a3 a4).2.pending = a1.pending := by
  fun_induction flushRing a0 a1 a2 a3 a4 <;> first | (simp_all +zetaDelta; done) | grind [→ keep_rdHost', keep_recordErr] | (simp_all +zetaDelta; grind [→ keep_rdHost', keep_recordErr])
theorem keep_flushRing' (a0 : Nat) (a1 : State) (a2 : Fin 60) (a3 : W32) (a4 : List Done) {o_ t_} (h : flushRing a0 a1 a2 a3 a4 = (o_, t_)) : t_.sec = a1.sec ∧ t_.pending = a1.pending := by
  have k := keep_flushRing a0 a1 a2 a3 a4; rw [h] at k; exact k
@[simp] theorem keep_flushQueue (s : State) (l : Fin 60) :
    (flushQueue s l).sec = s.sec ∧ (flushQueue s l).pending = s.pending := by
  simp [flushQueue]
@[simp] theorem keep_cqCiWrite (s : State) (l : Fin 60) (v : W32) :
    (cqCiWrite s l v).sec = s.sec ∧ (cqCiWrite s l v).pending = s.pending := by
  simp [cqCiWrite]
@[simp] theorem keep_orderFetch (s : State) (l : Fin 60) :
    (orderFetch s l).sec = s.sec ∧ (orderFetch s l).pending = s.pending := by
  simp only [orderFetch]; (repeat' split) <;> simp_all
@[simp] theorem keep_noteRecord (s : State) (d : Done) :
    (noteRecord s d).sec = s.sec ∧ (noteRecord s d).pending = s.pending := by
  simp [noteRecord]
@[simp] theorem keep_writeCompletion (s : State) (l : Fin 60) :
    (writeCompletion s l).sec = s.sec ∧ (writeCompletion s l).pending = s.pending := by
  simp only [writeCompletion]; (repeat' split) <;> simp_all

/-! ### Split -/

@[simp] theorem keep_abortSenders (s : State) (ptag : W32) :
    (abortSenders s ptag).sec = s.sec ∧ (abortSenders s ptag).pending = s.pending := by
  unfold abortSenders; apply foldl_kept; intro s x; (repeat' split) <;> simp_all
@[simp] theorem keep_grantLocal (s : State) (ptag : W32) (g : Grant) :
    (grantLocal s ptag g).sec = s.sec ∧ (grantLocal s ptag g).pending = s.pending := by
  simp [grantLocal]
@[simp] theorem keep_sendGrants (s : State) (o : Order) (front : Nat) (pslots : Nat) :
    (sendGrants s o front pslots).sec = s.sec ∧ (sendGrants s o front pslots).pending = s.pending := by
  simp [sendGrants]
@[simp] theorem keep_endSettle (s : State) (r : Run) :
    (endSettle s r).sec = s.sec ∧ (endSettle s r).pending = s.pending := by
  simp [endSettle]
@[simp] theorem keep_senderCheck (s : State) (l : Fin 60) :
    (senderCheck s l).sec = s.sec ∧ (senderCheck s l).pending = s.pending := by
  unfold senderCheck; (repeat' split) <;> simp_all
@[simp] theorem keep_sendParts (peer : Nat) (ptag : W32) (q : Nat) (a3 : Nat) (a4 : State) (a5 : Nat) (a6 : List Byte) :
    (sendParts peer ptag q a3 a4 a5 a6).sec = a4.sec ∧ (sendParts peer ptag q a3 a4 a5 a6).pending = a4.pending := by
  fun_induction sendParts peer ptag q a3 a4 a5 a6 <;> first | (simp_all +zetaDelta; done) | grind [keep_sendTo] | (simp_all +zetaDelta; grind [keep_sendTo])
@[simp] theorem keep_sendBlocks (a0 : Nat) (a1 : State) (a2 : Fin 60) :
    (sendBlocks a0 a1 a2).sec = a1.sec ∧ (sendBlocks a0 a1 a2).pending = a1.pending := by
  fun_induction sendBlocks a0 a1 a2 <;> first | (simp_all +zetaDelta; done) | grind [→ keep_wrHost', keep_modLp, keep_recordErr, keep_sendParts] | (simp_all +zetaDelta; grind [→ keep_wrHost', keep_modLp, keep_recordErr, keep_sendParts])
@[simp] theorem keep_sendAllBlocks (s : State) (l : Fin 60) :
    (sendAllBlocks s l).sec = s.sec ∧ (sendAllBlocks s l).pending = s.pending := by
  simp [sendAllBlocks]
@[simp] theorem keep_sendEveryBlock (s : State) :
    (sendEveryBlock s).sec = s.sec ∧ (sendEveryBlock s).pending = s.pending := by
  unfold sendEveryBlock; apply foldl_kept; intro s x; (repeat' split) <;> simp_all
@[simp] theorem keep_sendAndCheck (s : State) :
    (sendAndCheck s).sec = s.sec ∧ (sendAndCheck s).pending = s.pending := by
  unfold sendAndCheck; simp
@[simp] theorem keep_takeGrant (s : State) (ptag : W32) (g : Grant) :
    (takeGrant s ptag g).sec = s.sec ∧ (takeGrant s ptag g).pending = s.pending := by
  simp [takeGrant]

/-! ### Order -/

@[simp] theorem keep_deliverTile (s : State) (f : Frame) :
    (deliverTile s f).2.sec = s.sec ∧ (deliverTile s f).2.pending = s.pending := by
  simp only [deliverTile]; (repeat' split) <;> simp_all
theorem keep_deliverTile' (s : State) (f : Frame) {o_ t_} (h : deliverTile s f = (o_, t_)) : t_.sec = s.sec ∧ t_.pending = s.pending := by
  have k := keep_deliverTile s f; rw [h] at k; exact k
@[simp] theorem keep_badRecordAt (s : State) (p : PageId) (rec_ a oid lpan : Nat) (own : Option (Fin 60 × Nat)) :
    (badRecordAt s p rec_ a oid lpan own).sec = s.sec ∧ (badRecordAt s p rec_ a oid lpan own).pending = s.pending := by
  unfold badRecordAt; (repeat' split) <;> simp_all
@[simp] theorem keep_epochGate (s : State) (l : Fin 60) (n : Nat) (o : Order) :
    (epochGate s l n o).2.sec = s.sec ∧ (epochGate s l n o).2.pending = s.pending := by
  simp only [epochGate]; (repeat' split) <;> simp_all
theorem keep_epochGate' (s : State) (l : Fin 60) (n : Nat) (o : Order) {o_ t_} (h : epochGate s l n o = (o_, t_)) : t_.sec = s.sec ∧ t_.pending = s.pending := by
  have k := keep_epochGate s l n o; rw [h] at k; exact k
@[simp] theorem keep_checkFailed (s : State) (l : Fin 60) (o : Order) (ctag : W32) (e : IoErr) :
    (checkFailed s l o ctag e).2.sec = s.sec ∧ (checkFailed s l o ctag e).2.pending = s.pending := by
  unfold checkFailed; simp only []; split <;> simp
theorem keep_checkFailed' (s : State) (l : Fin 60) (o : Order) (ctag : W32) (e : IoErr) {o_ t_} (h : checkFailed s l o ctag e = (o_, t_)) : t_.sec = s.sec ∧ t_.pending = s.pending := by
  have k := keep_checkFailed s l o ctag e; rw [h] at k; exact k
@[simp] theorem keep_checkOrder (s : State) (l : Fin 60) (n : Nat) (o : Order) :
    (checkOrder s l n o).2.sec = s.sec ∧ (checkOrder s l n o).2.pending = s.pending := by
  unfold checkOrder; (repeat' split) <;> first | (simp_all +zetaDelta; done) | grind [→ keep_epochGate', → keep_Io_run', → keep_checkFailed', keep_checkFailed] | (simp_all +zetaDelta; grind [→ keep_epochGate', → keep_Io_run', → keep_checkFailed', keep_checkFailed])
theorem keep_checkOrder' (s : State) (l : Fin 60) (n : Nat) (o : Order) {o_ t_} (h : checkOrder s l n o = (o_, t_)) : t_.sec = s.sec ∧ t_.pending = s.pending := by
  have k := keep_checkOrder s l n o; rw [h] at k; exact k
@[simp] theorem keep_traceTaken (s : State) (l : Fin 60) (n : Nat) (o : Order) :
    (traceTaken s l n o).sec = s.sec ∧ (traceTaken s l n o).pending = s.pending := by
  simp [traceTaken]
@[simp] theorem keep_takeHolds (s : State) (r : Run) :
    (takeHolds s r).sec = s.sec ∧ (takeHolds s r).pending = s.pending := by
  unfold takeHolds; (repeat' split) <;> simp_all
@[simp] theorem keep_takeHead (s : State) (l : Fin 60) (w : WinE) (a3 : Taken) :
    (takeHead s l w a3).sec = s.sec ∧ (takeHead s l w a3).pending = s.pending := by
  unfold takeHead; (repeat' split) <;> simp_all
@[simp] theorem keep_tryHead (s : State) (l : Fin 60) (again : Bool) :
    (tryHead s l again).sec = s.sec ∧ (tryHead s l again).pending = s.pending := by
  simp only [tryHead]; (repeat' split) <;> simp_all
@[simp] theorem keep_countReread (s : State) (f : Frame) :
    (countReread s f).sec = s.sec ∧ (countReread s f).pending = s.pending := by
  unfold countReread; apply foldl_kept; intro s x; split <;> simp
@[simp] theorem keep_takeTile (s : State) (adp : Bool) (peer ext : Nat) (f : Frame) :
    (takeTile s adp peer ext f).2.sec = s.sec ∧ (takeTile s adp peer ext f).2.pending = s.pending := by
  unfold takeTile; simp only []; (repeat' split) <;> simp
theorem keep_takeTile' (s : State) (adp : Bool) (peer ext : Nat) (f : Frame) {o_ t_} (h : takeTile s adp peer ext f = (o_, t_)) : t_.sec = s.sec ∧ t_.pending = s.pending := by
  have k := keep_takeTile s adp peer ext f; rw [h] at k; exact k
@[simp] theorem keep_claimTiles (a0 : List HeldFrame) (a1 : State) :
    (claimTiles a0 a1).sec = a1.sec ∧ (claimTiles a0 a1).pending = a1.pending := by
  induction a0 generalizing a1 with
  | nil => exact ⟨rfl, rfl⟩
  | cons x t ih => unfold claimTiles; simp only []; (repeat' split) <;> simp [ih]
@[simp] theorem keep_tideArm (s : State) (l : Fin 60) (n : W32) :
    (tideArm s l n).sec = s.sec ∧ (tideArm s l n).pending = s.pending := by
  simp only [tideArm]; (repeat' split) <;> simp_all

/-! ### Tile -/

@[simp] theorem keep_applyMerges (s : State) (ms : List (Aop × Nat × Nat)) :
    (applyMerges s ms).sec = s.sec ∧ (applyMerges s ms).pending = s.pending := by
  unfold applyMerges; apply foldl_kept; intro s x; (repeat' split) <;> simp_all
@[simp] theorem keep_modRun (s : State) (l : Fin 60) (w : Place) (f : Run → Run) :
    (modRun s l w f).sec = s.sec ∧ (modRun s l w f).pending = s.pending := by
  simp [modRun]
@[simp] theorem keep_finish (s : State) (l : Fin 60) (w : Place) (status : Nat) :
    (finish s l w status).sec = s.sec ∧ (finish s l w status).pending = s.pending := by
  unfold finish; (repeat' split) <;> simp_all
@[simp] theorem keep_abortParked (s : State) (l : Fin 60) :
    (abortParked s l).sec = s.sec ∧ (abortParked s l).pending = s.pending := by
  unfold abortParked; apply foldl_kept; intro s x; (repeat' split) <;> simp_all
@[simp] theorem keep_dropTest (s : State) (p : Fin 64) :
    (dropTest s p).sec = s.sec ∧ (dropTest s p).pending = s.pending := by
  simp [dropTest]
@[simp] theorem keep_spareResume (s : State) (l : Fin 60) :
    (spareResume s l).sec = s.sec ∧ (spareResume s l).pending = s.pending := by
  have k := foldl_kept (fun s (j : Fin 16) => finish s l (.armed j) stFault) (fun s x => by simp) (List.finRange 16) s
  unfold spareResume; simp only []; (repeat' split) <;> simp [k]
@[simp] theorem keep_gatePan (s : State) (p : Fin 64) :
    (gatePan s p).sec = s.sec ∧ (gatePan s p).pending = s.pending := by
  simp [gatePan]
@[simp] theorem keep_takeNumber (s : State) (p : Fin 64) (l : Fin 60) :
    (takeNumber s p l).sec = s.sec ∧ (takeNumber s p l).pending = s.pending := by
  simp only [takeNumber]; (repeat' split) <;> simp_all
@[simp] theorem keep_claimReserve (s : State) (p : Fin 64) (l : Fin 60) (iso : Bool) :
    (claimReserve s p l iso).sec = s.sec ∧ (claimReserve s p l iso).pending = s.pending := by
  simp [claimReserve]
@[simp] theorem keep_spareFor (s : State) (l : Fin 60) :
    (spareFor s l).sec = s.sec ∧ (spareFor s l).pending = s.pending := by
  unfold spareFor; (repeat' split) <;> simp_all
@[simp] theorem keep_serveMissing (s : State) :
    (serveMissing s).sec = s.sec ∧ (serveMissing s).pending = s.pending := by
  unfold serveMissing; (repeat' split) <;> simp_all
@[simp] theorem keep_modFold (s : State) (l : Fin 60) (f : Fold → Fold) :
    (modFold s l f).sec = s.sec ∧ (modFold s l f).pending = s.pending := by
  simp [modFold]
@[simp] theorem keep_attemptFailed (s : State) (l : Fin 60) (w : Place) (e : ErrIn) :
    (attemptFailed s l w e).sec = s.sec ∧ (attemptFailed s l w e).pending = s.pending := by
  unfold attemptFailed; (repeat' split) <;> simp_all
@[simp] theorem keep_tileReplay (s : State) (l : Fin 60) (c : ReplayCause) (addr : Nat) (row : Nat) (col : Nat) (group : Nat) :
    (tileReplay s l c addr row col group).sec = s.sec ∧ (tileReplay s l c addr row col group).pending = s.pending := by
  unfold tileReplay; (repeat' split) <;> simp_all
@[simp] theorem keep_recordBads (s : State) (l : Fin 60) (r : Run) (bads : List CakeBad) :
    (recordBads s l r bads).sec = s.sec ∧ (recordBads s l r bads).pending = s.pending := by
  unfold recordBads; apply foldl_kept; intro s x; (repeat' split) <;> simp_all
@[simp] theorem keep_replayBad (s : State) (l : Fin 60) (w : Place) :
    (replayBad s l w).sec = s.sec ∧ (replayBad s l w).pending = s.pending := by
  simp [replayBad]
@[simp] theorem keep_regrant (s : State) (l : Fin 60) :
    (regrant s l).sec = s.sec ∧ (regrant s l).pending = s.pending := by
  unfold regrant; (repeat' split) <;> simp_all
@[simp] theorem keep_settleAdvance (a0 : Nat) (a1 : State) (a2 : Fin 60) :
    (settleAdvance a0 a1 a2).sec = a1.sec ∧ (settleAdvance a0 a1 a2).pending = a1.pending := by
  fun_induction settleAdvance a0 a1 a2 <;> first | (simp_all +zetaDelta; done) | grind [→ keep_rdHost', keep_regrant, keep_modFold, keep_attemptFailed, keep_recordErr] | (simp_all +zetaDelta; grind [→ keep_rdHost', keep_regrant, keep_modFold, keep_attemptFailed, keep_recordErr])
@[simp] theorem keep_advanceAll (s : State) (l : Fin 60) :
    (advanceAll s l).sec = s.sec ∧ (advanceAll s l).pending = s.pending := by
  unfold advanceAll; (repeat' split) <;> simp_all
@[simp] theorem keep_settleStart (s : State) (l : Fin 60) (r : Run) :
    (settleStart s l r).sec = s.sec ∧ (settleStart s l r).pending = s.pending := by
  simp only [settleStart]; (repeat' split) <;> simp_all
@[simp] theorem keep_choosePath (s : State) (l : Fin 60) (w : Place) (r : Run) :
    (choosePath s l w r).sec = s.sec ∧ (choosePath s l w r).pending = s.pending := by
  unfold choosePath; (repeat' split) <;> first | (simp_all; done) | grind [→ keep_Io_run', keep_modRun, keep_attemptFailed]
@[simp] theorem keep_tileStart (s : State) (l : Fin 60) :
    (tileStart s l).sec = s.sec ∧ (tileStart s l).pending = s.pending := by
  simp only [tileStart]; (repeat' split) <;> simp_all
@[simp] theorem keep_injectCorr (s : State) (l : Fin 60) (p : Fin 64) (r : Run) :
    (injectCorr s l p r).sec = s.sec ∧ (injectCorr s l p r).pending = s.pending := by
  simp [injectCorr]
@[simp] theorem keep_sendTileFrames (peer : Nat) (stag : W32) (row : Nat) (a3 : Nat) (a4 : State) (a5 : Nat) (a6 : List Byte) :
    (sendTileFrames peer stag row a3 a4 a5 a6).sec = a4.sec ∧ (sendTileFrames peer stag row a3 a4 a5 a6).pending = a4.pending := by
  fun_induction sendTileFrames peer stag row a3 a4 a5 a6 <;> first | (simp_all +zetaDelta; done) | grind [keep_sendTo] | (simp_all +zetaDelta; grind [keep_sendTo])
@[simp] theorem keep_applyStore (s : State) (o : Order) (w : TWrite) :
    (applyStore s o w).2.sec = s.sec ∧ (applyStore s o w).2.pending = s.pending := by
  unfold applyStore; simp only []; generalize (if (apertureOf s _).isSome = true then w.remote else w) = w
  split
  · simp
  · split
    · split <;> simp
    · simp
    · split
      · simp
      · exact foldl_kept2 _ (by intro x p; simp) _ _
theorem keep_applyStore' (s : State) (o : Order) (w : TWrite) {o_ t_} (h : applyStore s o w = (o_, t_)) : t_.sec = s.sec ∧ t_.pending = s.pending := by
  have k := keep_applyStore s o w; rw [h] at k; exact k
@[simp] theorem keep_applyStores (s : State) (o : Order) (ws : List TWrite) :
    (applyStores s o ws).2.sec = s.sec ∧ (applyStores s o ws).2.pending = s.pending := by
  unfold applyStores; apply foldl_kept2; intro x a; simp
theorem keep_applyStores' (s : State) (o : Order) (ws : List TWrite) {o_ t_} (h : applyStores s o ws = (o_, t_)) : t_.sec = s.sec ∧ t_.pending = s.pending := by
  have k := keep_applyStores s o ws; rw [h] at k; exact k
@[simp] theorem keep_landTile (s : State) (ws : List TWrite) :
    (landTile s ws).sec = s.sec ∧ (landTile s ws).pending = s.pending := by
  unfold landTile; apply foldl_kept; intro s x; (repeat' split) <;> simp_all
@[simp] theorem keep_panEvents (s : State) (l : Fin 60) (oid : W32) (t : TEv) :
    (panEvents s l oid t).sec = s.sec ∧ (panEvents s l oid t).pending = s.pending := by
  unfold panEvents; (repeat' split) <;> simp_all
@[simp] theorem keep_countTile (s : State) (l : Fin 60) :
    (countTile s l).sec = s.sec ∧ (countTile s l).pending = s.pending := by
  unfold countTile; (repeat' split) <;> simp_all
@[simp] theorem keep_afterTile (s : State) (l : Fin 60) (w : Place) (r : Run) :
    (afterTile s l w r).sec = s.sec ∧ (afterTile s l w r).pending = s.pending := by
  simp [afterTile]
@[simp] theorem keep_candTile (s : State) (r : Run) :
    (candTile s r).sec = s.sec ∧ (candTile s r).pending = s.pending := by
  simp [candTile]
@[simp] theorem keep_mergeTile (s : State) (l : Fin 60) (w : Place) (r : Run) (c : TileCont) :
    (mergeTile s l w r c).sec = s.sec ∧ (mergeTile s l w r c).pending = s.pending := by
  unfold mergeTile; simp only []; (repeat' split) <;> simp
@[simp] theorem keep_resumeTile (s : State) (l : Fin 60) (w : Place) (r : Run) (c : TileCont) :
    (resumeTile s l w r c).sec = s.sec ∧ (resumeTile s l w r c).pending = s.pending := by
  unfold resumeTile; split <;> simp
@[simp] theorem keep_storeTile (s : State) (l : Fin 60) (w : Place) (r : Run) (mode : Nat) (out : TileOut) (acc : Acc) :
    (storeTile s l w r mode out acc).sec = s.sec ∧ (storeTile s l w r mode out acc).pending = s.pending := by
  unfold storeTile; simp only []; (repeat' split) <;> simp
@[simp] theorem keep_runTile (s0 : State) (l : Fin 60) (w : Place) (r : Run) (p : Fin 64) :
    (runTile s0 l w r p).sec = s0.sec ∧ (runTile s0 l w r p).pending = s0.pending := by
  simp only [runTile]; (repeat' split) <;> simp_all
@[simp] theorem keep_tileComplete (s : State) (l : Fin 60) :
    (tileComplete s l).sec = s.sec ∧ (tileComplete s l).pending = s.pending := by
  simp only [tileComplete]; (repeat' split) <;> simp_all
@[simp] theorem keep_cakeReread (s : State) (l : Fin 60) (addr : Nat) (row : Nat) (group : Nat) (bytes : List Byte) :
    (cakeReread s l addr row group bytes).sec = s.sec ∧ (cakeReread s l addr row group bytes).pending = s.pending := by
  simp only [cakeReread]; (repeat' split) <;> simp_all
@[simp] theorem keep_failParked (s : State) (hist : Nat) :
    (failParked s hist).sec = s.sec ∧ (failParked s hist).pending = s.pending := by
  unfold failParked; apply foldl_kept; intro s l; apply foldl_kept; intro s y; split <;> simp
@[simp] theorem keep_settleFailed (s : State) (l : Fin 60) (x : Settling) (addr : Nat) :
    (settleFailed s l x addr).sec = s.sec ∧ (settleFailed s l x addr).pending = s.pending := by
  unfold settleFailed; simp only []
  have k := fun (s0 : State) (l0 : List W32) => foldl_kept2 (fun (x : List W32 × State) (_ : Nat) =>
    ((x.1 ++ [(takeFree 32 x.2).1], (takeFree 32 x.2).2) : List W32 × State)) (by intro x a; simp) (List.range 16) (l0, s0)
  split <;> simp [k]
@[simp] theorem keep_settle (s : State) (l : Fin 60) :
    (settle s l).sec = s.sec ∧ (settle s l).pending = s.pending := by
  simp only [settle]; (repeat' split) <;> simp_all
@[simp] theorem keep_mergeSecond (s : State) (l : Fin 60) (y : Parked) (w : Place) (r : Run) (c : TileCont) :
    (mergeSecond s l y w r c).2.sec = s.sec ∧ (mergeSecond s l y w r c).2.pending = s.pending := by
  unfold mergeSecond; simp only []; (repeat' split) <;> simp
theorem keep_mergeSecond' (s : State) (l : Fin 60) (y : Parked) (w : Place) (r : Run) (c : TileCont) {o_ t_} (h : mergeSecond s l y w r c = (o_, t_)) : t_.sec = s.sec ∧ t_.pending = s.pending := by
  have k := keep_mergeSecond s l y w r c; rw [h] at k; exact k
@[simp] theorem keep_secondOne (s0 : State) (l : Fin 60) (y : Parked) (c : W32) (w : Place) (r : Run) :
    (secondOne s0 l y c w r).2.sec = s0.sec ∧ (secondOne s0 l y c w r).2.pending = s0.pending := by
  simp only [secondOne]; (repeat' split) <;> simp_all
theorem keep_secondOne' (s0 : State) (l : Fin 60) (y : Parked) (c : W32) (w : Place) (r : Run) {o_ t_} (h : secondOne s0 l y c w r = (o_, t_)) : t_.sec = s0.sec ∧ t_.pending = s0.pending := by
  have k := keep_secondOne s0 l y c w r; rw [h] at k; exact k
@[simp] theorem keep_secondAll (a0 : Nat) (a1 : State) (a2 : Fin 60) :
    (secondAll a0 a1 a2).sec = a1.sec ∧ (secondAll a0 a1 a2).pending = a1.pending := by
  fun_induction secondAll a0 a1 a2 <;> first | (simp_all +zetaDelta; done) | grind [→ keep_secondOne'] | (simp_all +zetaDelta; grind [→ keep_secondOne'])
@[simp] theorem keep_partialNotice (s : State) (l : Fin 60) (q : Nat) :
    (partialNotice s l q).sec = s.sec ∧ (partialNotice s l q).pending = s.pending := by
  simp only [partialNotice]; (repeat' split) <;> simp_all
@[simp] theorem keep_panWakeDone (s : State) (p : Fin 64) :
    (panWakeDone s p).sec = s.sec ∧ (panWakeDone s p).pending = s.pending := by
  simp only [panWakeDone]; (repeat' split) <;> simp_all
@[simp] theorem keep_pidleExpiry (s : State) (p : Fin 64) :
    (pidleExpiry s p).sec = s.sec ∧ (pidleExpiry s p).pending = s.pending := by
  simp [pidleExpiry]

end Sys2Proof.Machine
end

