-- ==== Sys2Proof/Laws/KeepEngines.lean ====
section
/-! SUPPORT. What leaves the SEC page and the queue of waiting commands as they were: vector code, salters, the Rake, the verdict and jobs. -/

namespace Sys2Proof.Machine

/-! ### Vector -/

@[simp] theorem keep_modJob (s : State) (n : Fin 8) (f : Job → Job) :
    (modJob s n f).sec = s.sec ∧ (modJob s n f).pending = s.pending := by
  simp [modJob]
@[simp] theorem keep_jobFault (s : State) (n : Fin 8) (counts : Bool) (e : ErrIn) :
    (jobFault s n counts e).sec = s.sec ∧ (jobFault s n counts e).pending = s.pending := by
  unfold jobFault; (repeat' split) <;> simp_all
@[simp] theorem keep_jobAdvance (s : State) (n : Fin 8) :
    (jobAdvance s n).sec = s.sec ∧ (jobAdvance s n).pending = s.pending := by
  unfold jobAdvance; (repeat' split) <;> simp_all
@[simp] theorem keep_sltTrap (s : State) (n : Fin 8) (c : TrapCode) :
    (sltTrap s n c).sec = s.sec ∧ (sltTrap s n c).pending = s.pending := by
  simp [sltTrap]
@[simp] theorem keep_sltAdvance (s : State) (n : Fin 8) :
    (sltAdvance s n).sec = s.sec ∧ (sltAdvance s n).pending = s.pending := by
  simp [sltAdvance]
@[simp] theorem keep_runVec (v : VecId) (op : Nat) (w : VFields) (f : (L : Nat) → VecUnit L → VecUnit L × IFlags) (s : State) :
    (runVec v op w f s).sec = s.sec ∧ (runVec v op w f s).pending = s.pending := by
  unfold runVec; (repeat' split) <;> simp_all
@[simp] theorem keep_runLanes (v : VecId) (op : Nat) (w : VFields) (f : (L : Nat) → LaneOp L) (s : State) :
    (runLanes v op w f s).sec = s.sec ∧ (runLanes v op w f s).pending = s.pending := by
  simp [runLanes]

/-! ### Streams -/

@[simp] theorem keep_issueWrites (s : State) (ws : List (Nat × List Byte)) :
    (issueWrites s ws).2.sec = s.sec ∧ (issueWrites s ws).2.pending = s.pending := by
  unfold issueWrites; apply foldl_kept2; intro x a; simp
theorem keep_issueWrites' (s : State) (ws : List (Nat × List Byte)) {o_ t_} (h : issueWrites s ws = (o_, t_)) : t_.sec = s.sec ∧ t_.pending = s.pending := by
  have k := keep_issueWrites s ws; rw [h] at k; exact k
@[simp] theorem keep_stsHrv (s : State) (n : Fin 8) (w : VFields) :
    (stsHrv s n w).sec = s.sec ∧ (stsHrv s n w).pending = s.pending := by
  unfold stsHrv; (repeat' split) <;> simp_all
@[simp] theorem keep_hrvInject (s : State) (n : Fin 8) :
    (hrvInject s n).1.sec = s.sec ∧ (hrvInject s n).1.pending = s.pending := by
  simp only [hrvInject]; (repeat' split) <;> simp_all
theorem keep_hrvInject' (s : State) (n : Fin 8) {o_ t_} (h : hrvInject s n = (t_, o_)) : t_.sec = s.sec ∧ t_.pending = s.pending := by
  have k := keep_hrvInject s n; rw [h] at k; exact k
@[simp] theorem keep_hrvBadCake (s : State) (n : Fin 8) (shard : Nat) (c : CakeBad) :
    (hrvBadCake s n shard c).sec = s.sec ∧ (hrvBadCake s n shard c).pending = s.pending := by
  simp [hrvBadCake]
@[simp] theorem keep_ldsHrv (s : State) (n : Fin 8) (w : VFields) :
    (ldsHrv s n w).sec = s.sec ∧ (ldsHrv s n w).pending = s.pending := by
  unfold ldsHrv; simp only []; (repeat' (first | split | (apply foldl_kept; intro _ _))) <;>  first | (simp_all +zetaDelta; done) | grind [→ keep_hrvInject', → keep_Io_run', keep_jobFault, keep_hrvBadCake, keep_modEng, keep_modJob, keep_jobAdvance] | (simp_all +zetaDelta; grind [→ keep_hrvInject', → keep_Io_run', keep_jobFault, keep_hrvBadCake, keep_modEng, keep_modJob, keep_jobAdvance])
@[simp] theorem keep_ldsSlt (s : State) (n : Fin 8) (w : VFields) :
    (ldsSlt s n w).sec = s.sec ∧ (ldsSlt s n w).pending = s.pending := by
  unfold ldsSlt; grind [keep_Io_run', keep_sltTrap, keep_sltAdvance, keep_modSlt]
@[simp] theorem keep_stsSlt (s : State) (n : Fin 8) (w : VFields) :
    (stsSlt s n w).sec = s.sec ∧ (stsSlt s n w).pending = s.pending := by
  unfold stsSlt; simp only []; (repeat' split) <;> first | (simp; done) | grind [keep_Io_run', keep_sltTrap, keep_sltAdvance, keep_modSlt]

/-! ### Salter -/

@[simp] theorem keep_sltFlush (s : State) (n : Fin 8) :
    (sltFlush s n).2.sec = s.sec ∧ (sltFlush s n).2.pending = s.pending := by
  unfold sltFlush; simp only []; (repeat' (first | split | (apply foldl_kept; intro _ _))) <;> (try simp) <;> grind [keep_Io_run', keep_issueWrites', keep_applyMerges, keep_modSlt]
theorem keep_sltFlush' (s : State) (n : Fin 8) {o_ t_} (h : sltFlush s n = (o_, t_)) : t_.sec = s.sec ∧ t_.pending = s.pending := by
  have k := keep_sltFlush s n; rw [h] at k; exact k
@[simp] theorem keep_sltInject (s : State) (n : Fin 8) :
    (sltInject s n).sec = s.sec ∧ (sltInject s n).pending = s.pending := by
  simp [sltInject]
@[simp] theorem keep_store (s : State) (n : Fin 8) (d : Fin 32) (a : Fin 32) (imm : W16) (size : Nat) :
    (store s n d a imm size).sec = s.sec ∧ (store s n d a imm size).pending = s.pending := by
  simp only [store]; (repeat' split) <;> simp_all
@[simp] theorem keep_runScalar (s : State) (n : Fin 8) (legal : Bool) (f : Slt → Slt) :
    (runScalar s n legal f).sec = s.sec ∧ (runScalar s n legal f).pending = s.pending := by
  simp [runScalar]
@[simp] theorem keep_load (s : State) (n : Fin 8) (d : Fin 32) (a : Fin 32) (imm : W16) (size : Nat) :
    (load s n d a imm size).sec = s.sec ∧ (load s n d a imm size).pending = s.pending := by
  simp only [load]; (repeat' split) <;> simp_all
@[simp] theorem keep_runJump (s : State) (n : Fin 8) (f : Slt → Slt) (t : Slt → W32) :
    (runJump s n f t).sec = s.sec ∧ (runJump s n f t).pending = s.pending := by
  simp [runJump]
@[simp] theorem keep_branch (s : State) (n : Fin 8) (d : Fin 32) (a : Fin 32) (imm : W16) (p : W64 → W64 → Bool) :
    (branch s n d a imm p).sec = s.sec ∧ (branch s n d a imm p).pending = s.pending := by
  simp [branch]
@[simp] theorem keep_sltCount (s : State) (n : Fin 8) :
    (sltCount s n).2.sec = s.sec ∧ (sltCount s n).2.pending = s.pending := by
  unfold sltCount; grind [keep_Io_run']
theorem keep_sltCount' (s : State) (n : Fin 8) {o_ t_} (h : sltCount s n = (o_, t_)) : t_.sec = s.sec ∧ t_.pending = s.pending := by
  have k := keep_sltCount s n; rw [h] at k; exact k
@[simp] theorem keep_sadv (s : State) (n : Fin 8) :
    (sadv s n).sec = s.sec ∧ (sadv s n).pending = s.pending := by
  simp only [sadv]; (repeat' split) <;> simp_all
@[simp] theorem keep_fenceEnd (s : State) (n : Fin 8) :
    (fenceEnd s n).sec = s.sec ∧ (fenceEnd s n).pending = s.pending := by
  unfold fenceEnd; split <;> simp
@[simp] theorem keep_haltSlt (s : State) (n : Fin 8) :
    (haltSlt s n).sec = s.sec ∧ (haltSlt s n).pending = s.pending := by
  simp [haltSlt]

/-! ### Journal -/

@[simp] theorem keep_trimTail (s : State) :
    (trimTail s).sec = s.sec ∧ (trimTail s).pending = s.pending := by
  simp [trimTail]
@[simp] theorem keep_sendTwin (s : State) (ftype : Nat) (ts : List Byte) (payload : List Byte) :
    (sendTwin s ftype ts payload).sec = s.sec ∧ (sendTwin s ftype ts payload).pending = s.pending := by
  simp [sendTwin]
@[simp] theorem keep_setJlag (s : State) :
    (setJlag s).sec = s.sec ∧ (setJlag s).pending = s.pending := by
  simp [setJlag]
@[simp] theorem keep_journal (s : State) (kind : Nat) (step : W32) (index : Nat) (body : List Byte) :
    (journal s kind step index body).sec = s.sec ∧ (journal s kind step index body).pending = s.pending := by
  simp [journal]
@[simp] theorem keep_journalDir (s : State) (m : Nat) :
    (journalDir s m).sec = s.sec ∧ (journalDir s m).pending = s.pending := by
  simp [journalDir]
@[simp] theorem keep_writeCkpt (s : State) :
    (writeCkpt s).sec = s.sec ∧ (writeCkpt s).pending = s.pending := by
  simp [writeCkpt]
@[simp] theorem keep_sendCkpt (s : State) :
    (sendCkpt s).sec = s.sec ∧ (sendCkpt s).pending = s.pending := by
  simp [sendCkpt]

/-! ### Rake -/

@[simp] theorem keep_rakeFall (s : State) (step : W32) (m : Nat) :
    (rakeFall s step m).sec = s.sec ∧ (rakeFall s step m).pending = s.pending := by
  simp [rakeFall]
@[simp] theorem keep_queueRake (s : State) (step : W32) (mids : List Nat) :
    (queueRake s step mids).sec = s.sec ∧ (queueRake s step mids).pending = s.pending := by
  unfold queueRake; apply foldl_kept; intro s x; (repeat' split) <;> simp_all
@[simp] theorem keep_rakeCommand (s : State) (op : RakeOp) (slot : Bool) (mid : BitVec 12) :
    (rakeCommand s op slot mid).sec = s.sec ∧ (rakeCommand s op slot mid).pending = s.pending := by
  simp [rakeCommand]
@[simp] theorem keep_rakeErr (s : State) (a1 : IoErr) :
    (rakeErr s a1).sec = s.sec ∧ (rakeErr s a1).pending = s.pending := by
  unfold rakeErr; (repeat' split) <;> simp_all
@[simp] theorem keep_putIndex (s : State) (loc : Bool) (a : Nat) (bs : List Byte) :
    (putIndex s loc a bs).2.sec = s.sec ∧ (putIndex s loc a bs).2.pending = s.pending := by
  simp only [putIndex]; (repeat' split) <;> simp_all
theorem keep_putIndex' (s : State) (loc : Bool) (a : Nat) (bs : List Byte) {o_ t_} (h : putIndex s loc a bs = (o_, t_)) : t_.sec = s.sec ∧ t_.pending = s.pending := by
  have k := keep_putIndex s loc a bs; rw [h] at k; exact k
@[simp] theorem keep_buildXc (s : State) (m : Nat) (e : DirE) (blk : RakeBlk) (slot : Bool) (epoch : W32) (rows : List RowRd) :
    (buildXc s m e blk slot epoch rows).2.sec = s.sec ∧ (buildXc s m e blk slot epoch rows).2.pending = s.pending := by
  simp only [buildXc]; (repeat' split) <;> simp_all
theorem keep_buildXc' (s : State) (m : Nat) (e : DirE) (blk : RakeBlk) (slot : Bool) (epoch : W32) (rows : List RowRd) {o_ t_} (h : buildXc s m e blk slot epoch rows = (o_, t_)) : t_.sec = s.sec ∧ t_.pending = s.pending := by
  have k := keep_buildXc s m e blk slot epoch rows; rw [h] at k; exact k
@[simp] theorem keep_rakeRecord (s : State) (m : Nat) (e : DirE) (mep : W32) (slot : Bool) (cause : Nat) (step : W32) (first : Bool) :
    (rakeRecord s m e mep slot cause step first).2.sec = s.sec ∧ (rakeRecord s m e mep slot cause step first).2.pending = s.pending := by
  simp only [rakeRecord]; (repeat' split) <;> simp_all
theorem keep_rakeRecord' (s : State) (m : Nat) (e : DirE) (mep : W32) (slot : Bool) (cause : Nat) (step : W32) (first : Bool) {o_ t_} (h : rakeRecord s m e mep slot cause step first = (o_, t_)) : t_.sec = s.sec ∧ t_.pending = s.pending := by
  have k := keep_rakeRecord s m e mep slot cause step first; rw [h] at k; exact k
@[simp] theorem keep_countNel (s : State) (m : Nat) (rows : List RowRd) :
    (countNel s m rows).sec = s.sec ∧ (countNel s m rows).pending = s.pending := by
  unfold countNel; (repeat' split) <;> simp_all
@[simp] theorem keep_rakeEvent (s : State) (v : RakeEv) :
    (rakeEvent s v).sec = s.sec ∧ (rakeEvent s v).pending = s.pending := by
  unfold rakeEvent; (repeat' split) <;> first | (simp_all +zetaDelta; done) | grind [→ keep_Io_run', → keep_issueWrites', → keep_buildXc', → keep_rakeRecord', keep_rakeErr, keep_recordErr, keep_modDir, keep_countNel, keep_journalDir] | (simp_all +zetaDelta; grind [→ keep_Io_run', → keep_issueWrites', → keep_buildXc', → keep_rakeRecord', keep_rakeErr, keep_recordErr, keep_modDir, keep_countNel, keep_journalDir])
@[simp] theorem keep_rakeRetire (s : State) (v : RakeEv) :
    (rakeRetire s v).sec = s.sec ∧ (rakeRetire s v).pending = s.pending := by
  unfold rakeRetire; simp only []; (repeat' (first | split | (apply foldl_kept; intro _ _))) <;> (try simp) <;> grind [keep_Io_run', keep_issueWrites', keep_rakeErr, keep_modDir, keep_journalDir]
@[simp] theorem keep_rakeResult (s : State) (m : Nat) (code : Nat) :
    (rakeResult s m code).sec = s.sec ∧ (rakeResult s m code).pending = s.pending := by
  simp [rakeResult]
@[simp] theorem keep_rakeDrop (s : State) (m : Nat) :
    (rakeDrop s m).sec = s.sec ∧ (rakeDrop s m).pending = s.pending := by
  simp [rakeDrop]
@[simp] theorem keep_rakeLoad (s : State) (c : RakeCmd) :
    (rakeLoad s c).sec = s.sec ∧ (rakeLoad s c).pending = s.pending := by
  unfold rakeLoad; simp only []; (repeat' split) <;> (try simp) <;> grind [→ keep_Io_run']

/-! ### Verdict -/

@[simp] theorem keep_alarm (s : State) (slot : Nat) (kind : Nat) (step : W32) :
    (alarm s slot kind step).sec = s.sec ∧ (alarm s slot kind step).pending = s.pending := by
  simp [alarm]
@[simp] theorem keep_evaluate (s : State) :
    (evaluate s).sec = s.sec ∧ (evaluate s).pending = s.pending := by
  unfold evaluate; apply foldl_kept; intro s x; (repeat' split) <;> simp_all
@[simp] theorem keep_sendVerdict (s : State) (peer : Nat) (ftype : Nat) (m : VMsg) :
    (sendVerdict s peer ftype m).sec = s.sec ∧ (sendVerdict s peer ftype m).pending = s.pending := by
  simp [sendVerdict]
@[simp] theorem keep_countSkip (s : State) (commit : Bool) :
    (countSkip s commit).sec = s.sec ∧ (countSkip s commit).pending = s.pending := by
  simp [countSkip]
@[simp] theorem keep_logVerdict (s : State) (m : VMsg) :
    (logVerdict s m).sec = s.sec ∧ (logVerdict s m).pending = s.pending := by
  simp [logVerdict]
@[simp] theorem keep_settleSlot (commit : Bool) (step : W32) (s : State) (e : EvalSum) :
    (settleSlot commit step s e).sec = s.sec ∧ (settleSlot commit step s e).pending = s.pending := by
  simp [settleSlot]
@[simp] theorem keep_releaseShard (s : State) (i : Nat) :
    (releaseShard s i).sec = s.sec ∧ (releaseShard s i).pending = s.pending := by
  simp [releaseShard]
@[simp] theorem keep_flipsEnd (s : State) :
    (flipsEnd s).sec = s.sec ∧ (flipsEnd s).pending = s.pending := by
  unfold flipsEnd; (repeat' split) <;> simp_all
@[simp] theorem keep_issueFlips (s : State) :
    (issueFlips s).sec = s.sec ∧ (issueFlips s).pending = s.pending := by
  unfold issueFlips; simp only []; (repeat' (first | split | (apply foldl_kept; intro _ _))) <;> (try simp) <;> grind [keep_issueTxn]
@[simp] theorem keep_tideStep (s : State) :
    (tideStep s).sec = s.sec ∧ (tideStep s).pending = s.pending := by
  simp [tideStep]
@[simp] theorem keep_nextDeputy (s : State) :
    (nextDeputy s).sec = s.sec ∧ (nextDeputy s).pending = s.pending := by
  simp [nextDeputy]
@[simp] theorem keep_applyVerdict (s : State) (m : VMsg) :
    (applyVerdict s m).sec = s.sec ∧ (applyVerdict s m).pending = s.pending := by
  simp [applyVerdict]
@[simp] theorem keep_distribute (s : State) (m : VMsg) :
    (distribute s m).sec = s.sec ∧ (distribute s m).pending = s.pending := by
  simp [distribute]
@[simp] theorem keep_deliver (s : State) (m : VMsg) :
    (deliver s m).sec = s.sec ∧ (deliver s m).pending = s.pending := by
  simp only [deliver]; (repeat' split) <;> simp_all
@[simp] theorem keep_tryVerdict (s : State) :
    (tryVerdict s).sec = s.sec ∧ (tryVerdict s).pending = s.pending := by
  unfold tryVerdict; (repeat' split) <;> simp_all
@[simp] theorem keep_sendFlags (s : State) :
    (sendFlags s).sec = s.sec ∧ (sendFlags s).pending = s.pending := by
  simp [sendFlags]
@[simp] theorem keep_vclose (s : State) (njobs : BitVec 14) :
    (vclose s njobs).sec = s.sec ∧ (vclose s njobs).pending = s.pending := by
  simp [vclose]
@[simp] theorem keep_takeNextdep (s : State) :
    (takeNextdep s).sec = s.sec ∧ (takeNextdep s).pending = s.pending := by
  simp only [takeNextdep]; (repeat' split) <;> simp_all
@[simp] theorem keep_skipNow (s : State) :
    (skipNow s).sec = s.sec ∧ (skipNow s).pending = s.pending := by
  simp [skipNow]
@[simp] theorem keep_flipDone (s : State) (i : Nat) (err : Bool) (detail : optParam Nat 0) :
    (flipDone s i err detail).sec = s.sec ∧ (flipDone s i err detail).pending = s.pending := by
  unfold flipDone; (repeat' split) <;> simp_all
@[simp] theorem keep_vseqerr (s : State) :
    (vseqerr s).sec = s.sec ∧ (vseqerr s).pending = s.pending := by
  simp [vseqerr]
@[simp] theorem keep_takeVup (s : State) (peer : Nat) (m : VMsg) :
    (takeVup s peer m).sec = s.sec ∧ (takeVup s peer m).pending = s.pending := by
  unfold takeVup; (repeat' split) <;> simp_all
@[simp] theorem keep_takeVdn (s : State) (peer : Nat) (m : VMsg) :
    (takeVdn s peer m).sec = s.sec ∧ (takeVdn s peer m).pending = s.pending := by
  simp [takeVdn]
@[simp] theorem keep_takeVack (s : State) (peer : Nat) (step : W32) :
    (takeVack s peer step).sec = s.sec ∧ (takeVack s peer step).pending = s.pending := by
  unfold takeVack; (repeat' split) <;> simp_all

/-! ### Job -/

@[simp] theorem keep_pageInDone (s : State) (i : Nat) :
    (pageInDone s i).sec = s.sec ∧ (pageInDone s i).pending = s.pending := by
  unfold pageInDone; simp only []; (repeat' (first | split | (apply foldl_kept; intro _ _))) <;> (try simp) <;> grind [keep_Io_run', keep_issueWrites', keep_recordErr, keep_readyCheck, keep_modShard]
@[simp] theorem keep_cgoWrite (s : State) (n : Fin 8) :
    (cgoWrite s n).sec = s.sec ∧ (cgoWrite s n).pending = s.pending := by
  simp [cgoWrite]
@[simp] theorem keep_cgoDone (s : State) (n : Fin 8) :
    (cgoDone s n).sec = s.sec ∧ (cgoDone s n).pending = s.pending := by
  simp only [cgoDone]; (repeat' split) <;> simp_all
@[simp] theorem keep_pflush (s : State) (n : Fin 8) :
    (pflush s n).sec = s.sec ∧ (pflush s n).pending = s.pending := by
  simp [pflush]
@[simp] theorem keep_pageIn (s : State) (i : Nat) :
    (pageIn s i).sec = s.sec ∧ (pageIn s i).pending = s.pending := by
  simp only [pageIn]; (repeat' split) <;> simp_all
@[simp] theorem keep_placeJob (s : State) (n : Fin 8) (i : Nat) (x : JobIn) :
    (placeJob s n i x).sec = s.sec ∧ (placeJob s n i x).pending = s.pending := by
  simp [placeJob]
@[simp] theorem keep_jobStart (s : State) (n : Fin 8) (i : Nat) :
    (jobStart s n i).sec = s.sec ∧ (jobStart s n i).pending = s.pending := by
  unfold jobStart; grind [keep_Io_run', keep_jobFault, keep_placeJob]
@[simp] theorem keep_endFlush (s : State) (n : Fin 8) :
    (endFlush s n).sec = s.sec ∧ (endFlush s n).pending = s.pending := by
  simp [endFlush]
@[simp] theorem keep_jobFinish (s : State) (n : Fin 8) (j : Job) :
    (jobFinish s n j).sec = s.sec ∧ (jobFinish s n j).pending = s.pending := by
  simp [jobFinish]
@[simp] theorem keep_jobStores (s : State) (n : Fin 8) (j : Job) :
    (jobStores s n j).sec = s.sec ∧ (jobStores s n j).pending = s.pending := by
  unfold jobStores; simp only []; (repeat' (first | split | (apply foldl_kept; intro _ _))) <;> (try simp) <;> grind [keep_Io_run', keep_issueWrites', keep_jobFault, keep_modJob, keep_applyMerges]
@[simp] theorem keep_jobRecord (s : State) (n : Fin 8) (j : Job) :
    (jobRecord s n j).sec = s.sec ∧ (jobRecord s n j).pending = s.pending := by
  simp [jobRecord]
@[simp] theorem keep_jobComplete (s : State) (n : Fin 8) :
    (jobComplete s n).sec = s.sec ∧ (jobComplete s n).pending = s.pending := by
  simp only [jobComplete]; (repeat' split) <;> simp_all
@[simp] theorem keep_ownerRecord (s : State) (n : Fin 8) (i : Nat) :
    (ownerRecord s n i).2.sec = s.sec ∧ (ownerRecord s n i).2.pending = s.pending := by
  simp only [ownerRecord]; (repeat' split) <;> simp_all
theorem keep_ownerRecord' (s : State) (n : Fin 8) (i : Nat) {o_ t_} (h : ownerRecord s n i = (o_, t_)) : t_.sec = s.sec ∧ t_.pending = s.pending := by
  have k := keep_ownerRecord s n i; rw [h] at k; exact k
@[simp] theorem keep_fetchBegin (s : State) (n : Fin 8) (i : Nat) :
    (fetchBegin s n i).sec = s.sec ∧ (fetchBegin s n i).pending = s.pending := by
  simp only [fetchBegin]; (repeat' split) <;> simp_all
@[simp] theorem keep_fetchEnd (s : State) (i : Nat) (ws : List W32) :
    (fetchEnd s i ws).sec = s.sec ∧ (fetchEnd s i ws).pending = s.pending := by
  simp [fetchEnd]
@[simp] theorem keep_fetchRecord (s : State) (n : Fin 8) (i : Nat) (ws : List W32) :
    (fetchRecord s n i ws).sec = s.sec ∧ (fetchRecord s n i ws).pending = s.pending := by
  simp [fetchRecord]
@[simp] theorem keep_fetchAgree (s : State) (n : Fin 8) (i : Nat) (ws : List W32) :
    (fetchAgree s n i ws).sec = s.sec ∧ (fetchAgree s n i ws).pending = s.pending := by
  unfold fetchAgree; simp only []; split <;> simp
@[simp] theorem keep_fetchCopy (s : State) (n : Fin 8) (i : Nat) (ws : List W32) :
    (fetchCopy s n i ws).sec = s.sec ∧ (fetchCopy s n i ws).pending = s.pending := by
  unfold fetchCopy; (repeat' split) <;> first | (simp_all +zetaDelta; done) | grind [→ keep_ownerRecord', → keep_Io_run', → keep_issueWrites', keep_fetchEnd, keep_recordErr, keep_fetchRecord] | (simp_all +zetaDelta; grind [→ keep_ownerRecord', → keep_Io_run', → keep_issueWrites', keep_fetchEnd, keep_recordErr, keep_fetchRecord])

end Sys2Proof.Machine
end

