-- ==== Sys2Proof/Laws/KeepLinks.lean ====
section
/-! SUPPORT. What leaves the SEC page and the queue of waiting commands as they were: shards, links, the cascade and Brine answers. -/

namespace Sys2Proof.Machine

/-! ### Shards -/

@[simp] theorem keep_shtCommand (s : State) (c : ShtCmd) :
    (shtCommand s c).sec = s.sec ∧ (shtCommand s c).pending = s.pending := by
  simp [shtCommand]
@[simp] theorem keep_shtDone (s : State) (code : Nat) :
    (shtDone s code).sec = s.sec ∧ (shtDone s code).pending = s.pending := by
  simp [shtDone]
@[simp] theorem keep_shtErr (s : State) (e : IoErr) :
    (shtErr s e).sec = s.sec ∧ (shtErr s e).pending = s.pending := by
  simp [shtErr]
@[simp] theorem keep_planRun (s : State) :
    (planRun s).sec = s.sec ∧ (planRun s).pending = s.pending := by
  unfold planRun; (repeat' split) <;> first | (simp_all +zetaDelta; done) | grind [→ keep_Io_run', → keep_wrHost', keep_shtDone, keep_shtErr, keep_modGlb] | (simp_all +zetaDelta; grind [→ keep_Io_run', → keep_wrHost', keep_shtDone, keep_shtErr, keep_modGlb])
@[simp] theorem keep_activateBadRecs (s : State) (bads : List (Nat × Shard)) :
    (activateBadRecs s bads).sec = s.sec ∧ (activateBadRecs s bads).pending = s.pending := by
  unfold activateBadRecs; apply foldl_kept; intro s x; (repeat' split) <;> simp_all
@[simp] theorem keep_resumeFlips (s : State) (step : W32) (is : List Nat) :
    (resumeFlips s step is).sec = s.sec ∧ (resumeFlips s step is).pending = s.pending := by
  simp [resumeFlips]
@[simp] theorem keep_activateOk (s : State) (es : List (Nat × Shard)) :
    (activateOk s es).sec = s.sec ∧ (activateOk s es).pending = s.pending := by
  simp only [activateOk]; (repeat' split) <;> simp_all
@[simp] theorem keep_activateRun (s : State) :
    (activateRun s).sec = s.sec ∧ (activateRun s).pending = s.pending := by
  unfold activateRun; (repeat' split) <;> first | (simp_all +zetaDelta; done) | grind [→ keep_Io_run', keep_shtDone, keep_shtErr, keep_activateBadRecs, keep_activateOk] | (simp_all +zetaDelta; grind [→ keep_Io_run', keep_shtDone, keep_shtErr, keep_activateBadRecs, keep_activateOk])

/-! ### Link -/

@[simp] theorem keep_stranger (s : State) (k : Fin 8) (f : Frame) (c : Stranger) :
    (stranger s k f c).sec = s.sec ∧ (stranger s k f c).pending = s.pending := by
  simp [stranger]
@[simp] theorem keep_takeSeq (s : State) (k : Fin 8) (f : Frame) (room : Bool) (bad : Bool) :
    (takeSeq s k f room bad).2.sec = s.sec ∧ (takeSeq s k f room bad).2.pending = s.pending := by
  simp only [takeSeq]; (repeat' split) <;> simp_all
theorem keep_takeSeq' (s : State) (k : Fin 8) (f : Frame) (room : Bool) (bad : Bool) {o_ t_} (h : takeSeq s k f room bad = (o_, t_)) : t_.sec = s.sec ∧ t_.pending = s.pending := by
  have k := keep_takeSeq s k f room bad; rw [h] at k; exact k
@[simp] theorem keep_dropHold (s : State) (h : RHold) :
    (dropHold s h).sec = s.sec ∧ (dropHold s h).pending = s.pending := by
  simp [dropHold]
@[simp] theorem keep_dropHolder (s : State) (peer : Nat) :
    (dropHolder s peer).sec = s.sec ∧ (dropHolder s peer).pending = s.pending := by
  unfold dropHolder; apply foldl_kept; intro s x; (repeat' split) <;> simp_all
@[simp] theorem keep_noteSession (s : State) (f : Frame) :
    (noteSession s f).sec = s.sec ∧ (noteSession s f).pending = s.pending := by
  simp only [noteSession]; (repeat' split) <;> simp_all
@[simp] theorem keep_ackEntries (s : State) (us : List Unacked) :
    (ackEntries s us).sec = s.sec ∧ (ackEntries s us).pending = s.pending := by
  simp [ackEntries]
@[simp] theorem keep_drainAll (s : State) :
    (drainAll s).sec = s.sec ∧ (drainAll s).pending = s.pending := by
  unfold drainAll; apply foldl_kept; intro s x; (repeat' split) <;> simp_all
@[simp] theorem keep_applyAck (s : State) (adp : Bool) (peer : Nat) (cls : Nat) (ack : W16) (crlim : W16) :
    (applyAck s adp peer cls ack crlim).sec = s.sec ∧ (applyAck s adp peer cls ack crlim).pending = s.pending := by
  simp [applyAck]
@[simp] theorem keep_holdFrame (s : State) (x : Rx) :
    (holdFrame s x).sec = s.sec ∧ (holdFrame s x).pending = s.pending := by
  simp [holdFrame]
@[simp] theorem keep_takeHold (s : State) (x : Rx) (i : Nat) (slot : Bool) :
    (takeHold s x i slot).sec = s.sec ∧ (takeHold s x i slot).pending = s.pending := by
  simp [takeHold]
@[simp] theorem keep_holdAnswer (s : State) (peer : Nat) (i : Nat) (slot : Bool) (res : Nat) :
    (holdAnswer s peer i slot res).sec = s.sec ∧ (holdAnswer s peer i slot res).pending = s.pending := by
  simp [holdAnswer]
@[simp] theorem keep_serveHold (s : State) (x : Rx) :
    (serveHold s x).2.sec = s.sec ∧ (serveHold s x).2.pending = s.pending := by
  simp only [serveHold]; (repeat' split) <;> simp_all
theorem keep_serveHold' (s : State) (x : Rx) {o_ t_} (h : serveHold s x = (o_, t_)) : t_.sec = s.sec ∧ t_.pending = s.pending := by
  have k := keep_serveHold s x; rw [h] at k; exact k
@[simp] theorem keep_sendRdrsp (s : State) (x : Rx) (status : Nat) (bs : List Byte) :
    (sendRdrsp s x status bs).sec = s.sec ∧ (sendRdrsp s x status bs).pending = s.pending := by
  simp [sendRdrsp]
@[simp] theorem keep_serveRdreq (s : State) (x : Rx) :
    (serveRdreq s x).2.sec = s.sec ∧ (serveRdreq s x).2.pending = s.pending := by
  simp only [serveRdreq]; (repeat' split) <;> simp_all
theorem keep_serveRdreq' (s : State) (x : Rx) {o_ t_} (h : serveRdreq s x = (o_, t_)) : t_.sec = s.sec ∧ t_.pending = s.pending := by
  have k := keep_serveRdreq s x; rw [h] at k; exact k
@[simp] theorem keep_serveTile (s : State) (x : Rx) :
    (serveTile s x).2.sec = s.sec ∧ (serveTile s x).2.pending = s.pending := by
  simp only [serveTile]; (repeat' split) <;> simp_all
theorem keep_serveTile' (s : State) (x : Rx) {o_ t_} (h : serveTile s x = (o_, t_)) : t_.sec = s.sec ∧ t_.pending = s.pending := by
  have k := keep_serveTile s x; rw [h] at k; exact k
@[simp] theorem keep_servePart (s : State) (x : Rx) :
    (servePart s x).2.sec = s.sec ∧ (servePart s x).2.pending = s.pending := by
  simp only [servePart]; (repeat' split) <;> simp_all
theorem keep_servePart' (s : State) (x : Rx) {o_ t_} (h : servePart s x = (o_, t_)) : t_.sec = s.sec ∧ t_.pending = s.pending := by
  have k := keep_servePart s x; rw [h] at k; exact k
@[simp] theorem keep_serveGrant (s : State) (x : Rx) :
    (serveGrant s x).2.sec = s.sec ∧ (serveGrant s x).2.pending = s.pending := by
  simp [serveGrant]
theorem keep_serveGrant' (s : State) (x : Rx) {o_ t_} (h : serveGrant s x = (o_, t_)) : t_.sec = s.sec ∧ t_.pending = s.pending := by
  have k := keep_serveGrant s x; rw [h] at k; exact k
@[simp] theorem keep_landFrame (s : State) (i : Nat) (x : Rx) (ok : Bool) (ps : List (Nat × List Byte)) :
    (landFrame s i x ok ps).sec = s.sec ∧ (landFrame s i x ok ps).pending = s.pending := by
  induction ps generalizing s ok with
  | nil => simp [landFrame]
  | cons p t ih =>
    cases t with
    | nil => unfold landFrame; split <;> simp
    | cons q t => unfold landFrame; simp [ih]
theorem keep_issueServed {s : State} {x : Rx} {a : Nat} {bs : List Byte} {t_ : State} (h : issueServed s x a bs = some t_) :
    t_.sec = s.sec ∧ t_.pending = s.pending := by
  have k : ∀ (g : State → Nat × List Byte → Option State)
      (_ : ∀ u p v, g u p = some v → v.sec = u.sec ∧ v.pending = u.pending) (ps : List (Nat × List Byte)) (o : Option State) (t_ : State),
      ps.foldl (fun o p => o.bind fun u => g u p) o = some t_ → ∃ u, o = some u ∧ t_.sec = u.sec ∧ t_.pending = u.pending := by
    intro g hg ps
    induction ps with
    | nil => intro o t_ h; exact ⟨t_, h, rfl, rfl⟩
    | cons p ps ih =>
      intro o t_ h
      obtain ⟨u, hu, h1, h2⟩ := ih _ _ h
      cases o with
      | none => simp at hu
      | some w => have k := hg w p u hu; exact ⟨w, rfl, h1.trans k.1, h2.trans k.2⟩
  obtain ⟨u, hu, r⟩ := k _ (fun u p v h => by
    split at h
    · cases h; simp
    · simp at h) _ _ _ h
  cases hu; exact r
@[simp] theorem keep_serveWrite (s : State) (x : Rx) :
    (serveWrite s x).2.sec = s.sec ∧ (serveWrite s x).2.pending = s.pending := by
  simp only [serveWrite]; (repeat' split) <;> first | (simp; done) | exact keep_issueServed ‹_›
theorem keep_serveWrite' (s : State) (x : Rx) {o_ t_} (h : serveWrite s x = (o_, t_)) : t_.sec = s.sec ∧ t_.pending = s.pending := by
  have k := keep_serveWrite s x; rw [h] at k; exact k
@[simp] theorem keep_serveRdrsp (s : State) (x : Rx) :
    (serveRdrsp s x).2.sec = s.sec ∧ (serveRdrsp s x).2.pending = s.pending := by
  simp only [serveRdrsp]; (repeat' split) <;> simp_all
theorem keep_serveRdrsp' (s : State) (x : Rx) {o_ t_} (h : serveRdrsp s x = (o_, t_)) : t_.sec = s.sec ∧ t_.pending = s.pending := by
  have k := keep_serveRdrsp s x; rw [h] at k; exact k
@[simp] theorem keep_serveD (s : State) (x : Rx) :
    (serveD s x).2.sec = s.sec ∧ (serveD s x).2.pending = s.pending := by
  unfold serveD; (repeat' split) <;> simp_all
theorem keep_serveD' (s : State) (x : Rx) {o_ t_} (h : serveD s x = (o_, t_)) : t_.sec = s.sec ∧ t_.pending = s.pending := by
  have k := keep_serveD s x; rw [h] at k; exact k
@[simp] theorem keep_serveHeldList (a0 : List HeldFrame) (a1 : State) :
    (serveHeldList a0 a1).sec = a1.sec ∧ (serveHeldList a0 a1).pending = a1.pending := by
  fun_induction serveHeldList a0 a1 <;> first | (simp_all +zetaDelta; done) | grind [→ keep_serveD', keep_modTwn] | (simp_all +zetaDelta; grind [→ keep_serveD', keep_modTwn])
@[simp] theorem keep_serveHeld (s : State) :
    (serveHeld s).sec = s.sec ∧ (serveHeld s).pending = s.pending := by
  simp [serveHeld]
@[simp] theorem keep_startTraining (s : State) (k : Fin 8) :
    (startTraining s k).sec = s.sec ∧ (startTraining s k).pending = s.pending := by
  simp [startTraining]
@[simp] theorem keep_sendV (s : State) (via : Option (Fin 8)) (peer : Nat) (ftype : Nat) (ts : List Byte) :
    (sendV s via peer ftype ts).sec = s.sec ∧ (sendV s via peer ftype ts).pending = s.pending := by
  simp [sendV]
@[simp] theorem keep_parentLost (s : State) :
    (parentLost s).sec = s.sec ∧ (parentLost s).pending = s.pending := by
  simp [parentLost]
@[simp] theorem keep_remoteError (s : State) (who : Option Agent) (k : Fin 8) (a : Nat) :
    (remoteError s who k a).sec = s.sec ∧ (remoteError s who k a).pending = s.pending := by
  unfold remoteError; simp only []; (repeat' split) <;> simp
@[simp] theorem keep_discardFor (s : State) (peer : Nat) :
    (discardFor s peer).sec = s.sec ∧ (discardFor s peer).pending = s.pending := by
  simp [discardFor]
@[simp] theorem keep_peerLost (s : State) (peer : Nat) :
    (peerLost s peer).sec = s.sec ∧ (peerLost s peer).pending = s.pending := by
  simp [peerLost]
@[simp] theorem keep_routeDown (s : State) (peer : Nat) :
    (routeDown s peer).sec = s.sec ∧ (routeDown s peer).pending = s.pending := by
  simp [routeDown]
@[simp] theorem keep_routesDown (s : State) (k : Fin 8) :
    (routesDown s k).sec = s.sec ∧ (routesDown s k).pending = s.pending := by
  unfold routesDown; apply foldl_kept; intro s x; (repeat' split) <;> simp_all
@[simp] theorem keep_lanesOff (s : State) (k : Fin 8) :
    (lanesOff s k).sec = s.sec ∧ (lanesOff s k).pending = s.pending := by
  simp [lanesOff]
@[simp] theorem keep_linkDown (s : State) (k : Fin 8) :
    (linkDown s k).sec = s.sec ∧ (linkDown s k).pending = s.pending := by
  simp [linkDown]
@[simp] theorem keep_countFec (s : State) (k : Fin 8) :
    (countFec s k).sec = s.sec ∧ (countFec s k).pending = s.pending := by
  simp [countFec]
@[simp] theorem keep_dropFrame (s : State) (k : Fin 8) (lost : Bool) :
    (dropFrame s k lost).sec = s.sec ∧ (dropFrame s k lost).pending = s.pending := by
  unfold dropFrame; simp only []; split <;> simp
@[simp] theorem keep_laneFail (s : State) (k : Fin 8) (lane : Fin 9) :
    (laneFail s k lane).sec = s.sec ∧ (laneFail s k lane).pending = s.pending := by
  simp [laneFail]
@[simp] theorem keep_ltrain (s : State) (k : Fin 8) :
    (ltrain s k).sec = s.sec ∧ (ltrain s k).pending = s.pending := by
  simp [ltrain]
@[simp] theorem keep_trainDone (s : State) (k : Fin 8) (lanes : BitVec 9) (up : Bool) :
    (trainDone s k lanes up).sec = s.sec ∧ (trainDone s k lanes up).pending = s.pending := by
  simp [trainDone]
@[simp] theorem keep_takeCredit (s : State) (x : Rx) :
    (takeCredit s x).sec = s.sec ∧ (takeCredit s x).pending = s.pending := by
  simp [takeCredit]
@[simp] theorem keep_rebuild (s : State) (adp : Bool) (peer : Nat) (cls : Nat) (eseq : Nat) :
    (rebuild s adp peer cls eseq).sec = s.sec ∧ (rebuild s adp peer cls eseq).pending = s.pending := by
  simp [rebuild]
@[simp] theorem keep_startRound (s : State) (adp : Bool) (peer : Nat) (cls : Nat) (from_ : Nat) :
    (startRound s adp peer cls from_).sec = s.sec ∧ (startRound s adp peer cls from_).pending = s.pending := by
  simp only [startRound]; (repeat' split) <;> simp_all
@[simp] theorem keep_takeNack (n : Option Unacked) (s : State) (x : Rx) :
    (takeNack n s x).sec = s.sec ∧ (takeNack n s x).pending = s.pending := by
  simp only [takeNack]; (repeat' split) <;> simp_all
@[simp] theorem keep_sendProbe (s : State) (adp : Bool) (peer : Nat) (k : Fin 8) (op : Nat) :
    (sendProbe s adp peer k op).sec = s.sec ∧ (sendProbe s adp peer k op).pending = s.pending := by
  simp [sendProbe]
@[simp] theorem keep_resend (s : State) (peer : Nat) (us : List Unacked) :
    (resend s peer us).sec = s.sec ∧ (resend s peer us).pending = s.pending := by
  unfold resend; apply foldl_kept; intro s x; (repeat' split) <;> simp_all
@[simp] theorem keep_reroute (s : State) (peer : Fin 64) :
    (reroute s peer).sec = s.sec ∧ (reroute s peer).pending = s.pending := by
  simp only [reroute]; (repeat' split) <;> simp_all
@[simp] theorem keep_takeProbe (s : State) (x : Rx) :
    (takeProbe s x).sec = s.sec ∧ (takeProbe s x).pending = s.pending := by
  unfold takeProbe; (repeat' split) <;> simp_all
@[simp] theorem keep_creditNow (s : State) (adp : Bool) (peer : Nat) :
    (creditNow s adp peer).sec = s.sec ∧ (creditNow s adp peer).pending = s.pending := by
  simp [creditNow]

/-! ### Cascade -/

@[simp] theorem keep_adoptHistory (s : State) :
    (adoptHistory s).sec = s.sec ∧ (adoptHistory s).pending = s.pending := by
  unfold adoptHistory; (repeat' split) <;> simp_all
@[simp] theorem keep_joinRefused (s : State) (err : Nat) :
    (joinRefused s err).sec = s.sec ∧ (joinRefused s err).pending = s.pending := by
  simp [joinRefused]
@[simp] theorem keep_sendJoin (s : State) (via : Option (Fin 8)) (peer : Nat) (op : Nat) (cause : Nat) (vsub : Nat) (step : W32) :
    (sendJoin s via peer op cause vsub step).sec = s.sec ∧ (sendJoin s via peer op cause vsub step).pending = s.pending := by
  simp [sendJoin]
@[simp] theorem keep_refuseChild (s : State) (peer : Nat) (cause : Nat) :
    (refuseChild s peer cause).sec = s.sec ∧ (refuseChild s peer cause).pending = s.pending := by
  simp [refuseChild]
@[simp] theorem keep_becomeJoined (s : State) (step : W32) :
    (becomeJoined s step).sec = s.sec ∧ (becomeJoined s step).pending = s.pending := by
  simp [becomeJoined]
@[simp] theorem keep_joinStep (s : State) :
    (joinStep s).sec = s.sec ∧ (joinStep s).pending = s.pending := by
  unfold joinStep; (repeat' split) <;> simp_all
@[simp] theorem keep_newSession (s : State) (x : W16) :
    (newSession s x).sec = s.sec ∧ (newSession s x).pending = s.pending := by
  simp [newSession]
@[simp] theorem keep_joinCommand (s : State) :
    (joinCommand s).sec = s.sec ∧ (joinCommand s).pending = s.pending := by
  simp [joinCommand]
@[simp] theorem keep_leaveCommand (s : State) :
    (leaveCommand s).sec = s.sec ∧ (leaveCommand s).pending = s.pending := by
  simp [leaveCommand]
@[simp] theorem keep_sendTakeover (s : State) (peer : Nat) (num : Nat) (op : Nat) :
    (sendTakeover s peer num op).sec = s.sec ∧ (sendTakeover s peer num op).pending = s.pending := by
  simp [sendTakeover]
@[simp] theorem keep_releaseCommand (s : State) :
    (releaseCommand s).sec = s.sec ∧ (releaseCommand s).pending = s.pending := by
  simp [releaseCommand]
@[simp] theorem keep_rakeResume (s : State) (m : Nat) (ws : List W32) :
    (rakeResume s m ws).sec = s.sec ∧ (rakeResume s m ws).pending = s.pending := by
  simp [rakeResume]
@[simp] theorem keep_takeReq (s : State) (peer : Nat) (vsub : Nat) :
    (takeReq s peer vsub).sec = s.sec ∧ (takeReq s peer vsub).pending = s.pending := by
  simp [takeReq]
@[simp] theorem keep_takeDone (s : State) (peer : Nat) (step : W32) :
    (takeDone s peer step).sec = s.sec ∧ (takeDone s peer step).pending = s.pending := by
  simp [takeDone]
@[simp] theorem keep_forgetNumber (s : State) (num : Nat) :
    (forgetNumber s num).sec = s.sec ∧ (forgetNumber s num).pending = s.pending := by
  simp [forgetNumber]
@[simp] theorem keep_takeAnnounce (s : State) (x : Rx) :
    (takeAnnounce s x).sec = s.sec ∧ (takeAnnounce s x).pending = s.pending := by
  simp only [takeAnnounce]; (repeat' split) <;> simp_all
@[simp] theorem keep_clearPend (s : State) :
    (clearPend s).sec = s.sec ∧ (clearPend s).pending = s.pending := by
  simp [clearPend]
@[simp] theorem keep_setPend (s : State) (i : Nat) (b : Bool) :
    (setPend s i b).sec = s.sec ∧ (setPend s i b).pending = s.pending := by
  simp [setPend]
@[simp] theorem keep_applyEntry (s : State) (e : List Byte) :
    (applyEntry s e).sec = s.sec ∧ (applyEntry s e).pending = s.pending := by
  simp only [applyEntry]; (repeat' split) <;> simp_all
@[simp] theorem keep_applyEntries (a0 : Nat) (a1 : State) (a2 : List Byte) :
    (applyEntries a0 a1 a2).sec = a1.sec ∧ (applyEntries a0 a1 a2).pending = a1.pending := by
  fun_induction applyEntries a0 a1 a2 <;> first | (simp_all +zetaDelta; done) | grind [keep_applyEntry] | (simp_all +zetaDelta; grind [keep_applyEntry])
@[simp] theorem keep_takeJrnl (s : State) (x : Rx) :
    (takeJrnl s x).sec = s.sec ∧ (takeJrnl s x).pending = s.pending := by
  simp [takeJrnl]
@[simp] theorem keep_startTakeover (s : State) :
    (startTakeover s).sec = s.sec ∧ (startTakeover s).pending = s.pending := by
  simp [startTakeover]
@[simp] theorem keep_takeoverFailed (s : State) (a : Nat) :
    (takeoverFailed s a).sec = s.sec ∧ (takeoverFailed s a).pending = s.pending := by
  simp [takeoverFailed]
@[simp] theorem keep_adoptDirs (rs : List (Nat × List W32)) (s : State) :
    (adoptDirs rs s).sec = s.sec ∧ (adoptDirs rs s).pending = s.pending := by
  unfold adoptDirs; apply foldl_kept; intro s x; (repeat' split) <;> simp_all
@[simp] theorem keep_wrRecord (s : State) (a : Nat) (ws : List W32) :
    (wrRecord s a ws).2.sec = s.sec ∧ (wrRecord s a ws).2.pending = s.pending := by
  simp [wrRecord]
theorem keep_wrRecord' (s : State) (a : Nat) (ws : List W32) {o_ t_} (h : wrRecord s a ws = (o_, t_)) : t_.sec = s.sec ∧ t_.pending = s.pending := by
  have k := keep_wrRecord s a ws; rw [h] at k; exact k
@[simp] theorem keep_adoptShard (x : Option Nat × State) (y : Nat × List Byte × Shard × List W32) :
    (adoptShard x y).2.sec = x.2.sec ∧ (adoptShard x y).2.pending = x.2.pending := by
  unfold adoptShard; simp only []; simp [apply_ite Prod.snd]
@[simp] theorem keep_takeoverWork (s : State) :
    (takeoverWork s).sec = s.sec ∧ (takeoverWork s).pending = s.pending := by
  have k := fun xs s => foldl_kept2 adoptShard (by intro x a; simp) xs ((none : Option Nat), s)
  unfold takeoverWork; simp only []; (repeat' split) <;> (try simp [k]) <;> grind [→ keep_Io_run']
@[simp] theorem keep_releaseDirs (s : State) :
    (releaseDirs s).sec = s.sec ∧ (releaseDirs s).pending = s.pending := by
  unfold releaseDirs; apply foldl_kept; intro s x; (repeat' split) <;> simp_all

/-! ### Brine -/

@[simp] theorem keep_creditBack (s : State) :
    (creditBack s).sec = s.sec ∧ (creditBack s).pending = s.pending := by
  simp [creditBack]
@[simp] theorem keep_strayRsp (s : State) :
    (strayRsp s).sec = s.sec ∧ (strayRsp s).pending = s.pending := by
  simp [strayRsp]
@[simp] theorem keep_dropTxn (s : State) (t : Txn) :
    (dropTxn s t).sec = s.sec ∧ (dropTxn s t).pending = s.pending := by
  simp [dropTxn]
@[simp] theorem keep_storeAnswered (s : State) (n : Fin 8) (t : Txn) (err : Bool) (detail : Nat) :
    (storeAnswered s n t err detail).sec = s.sec ∧ (storeAnswered s n t err detail).pending = s.pending := by
  simp [storeAnswered]
@[simp] theorem keep_candLanded (s : State) (a : Nat) :
    (candLanded s a).sec = s.sec ∧ (candLanded s a).pending = s.pending := by
  unfold candLanded; apply foldl_kept; intro s x; simp only []; split <;> simp
@[simp] theorem keep_servedAnswered (s : State) (k : Fin 8) (peer : Nat) (ext : Nat) (bad : Bool) (t : Txn) (err : Bool) (detail : Nat) :
    (servedAnswered s k peer ext bad t err detail).sec = s.sec ∧ (servedAnswered s k peer ext bad t err detail).pending = s.pending := by
  simp [servedAnswered]
@[simp] theorem keep_answerTxn (s : State) (t : Txn) (err : Bool) (detail : Nat) :
    (answerTxn s t err detail).sec = s.sec ∧ (answerTxn s t err detail).pending = s.pending := by
  unfold answerTxn; (repeat' split) <;> simp_all
@[simp] theorem keep_brineRsp (s : State) (q : Fin 16) (tag : BitVec 9) (kind : BitVec 2) :
    (brineRsp s q tag kind).sec = s.sec ∧ (brineRsp s q tag kind).pending = s.pending := by
  unfold brineRsp; (repeat' split) <;> simp_all

end Sys2Proof.Machine
end

