-- ==== Sys2Proof/Laws/KeepSystem.lean ====
section
/-! SUPPORT. What leaves the SEC page and the queue of waiting commands as they were: tests, power, the background, resets, registers and the wrapper. -/

namespace Sys2Proof.Machine

/-! ### Test -/

@[simp] theorem keep_unfenceUnit (s : State) (u : Nat) :
    (unfenceUnit s u).sec = s.sec ∧ (unfenceUnit s u).pending = s.pending := by
  unfold unfenceUnit; (repeat' split) <;> simp_all
@[simp] theorem keep_testDestroys (s : State) (u : Nat) :
    (testDestroys s u).sec = s.sec ∧ (testDestroys s u).pending = s.pending := by
  unfold testDestroys; (repeat' split) <;> simp_all
@[simp] theorem keep_beginTest (s : State) (u : Nat) (k : Nat) (sw : Bool) :
    (beginTest s u k sw).sec = s.sec ∧ (beginTest s u k sw).pending = s.pending := by
  unfold beginTest; (repeat' split) <;> simp_all
@[simp] theorem keep_tsResult (s : State) (u : Nat) (res : BitVec 3) :
    (tsResult s u res).sec = s.sec ∧ (tsResult s u res).pending = s.pending := by
  simp [tsResult]
@[simp] theorem keep_tsGo (s : State) (u : Nat) (k : Nat) :
    (tsGo s u k).sec = s.sec ∧ (tsGo s u k).pending = s.pending := by
  simp [tsGo]
@[simp] theorem keep_noteTested (s : State) (u : Nat) :
    (noteTested s u).sec = s.sec ∧ (noteTested s u).pending = s.pending := by
  unfold noteTested; (repeat' split) <;> simp_all
@[simp] theorem keep_testGate (s : State) (u : Nat) :
    (testGate s u).sec = s.sec ∧ (testGate s u).pending = s.pending := by
  unfold testGate; (repeat' split) <;> simp_all
@[simp] theorem keep_wearEnd (s : State) :
    (wearEnd s).sec = s.sec ∧ (wearEnd s).pending = s.pending := by
  simp only [wearEnd]; (repeat' split) <;> simp_all
@[simp] theorem keep_abortTests (s : State) :
    (abortTests s).sec = s.sec ∧ (abortTests s).pending = s.pending := by
  unfold abortTests; (repeat' split) <;> simp_all
@[simp] theorem keep_lforce (s : State) (code : Nat) :
    (lforce s code).sec = s.sec ∧ (lforce s code).pending = s.pending := by
  unfold lforce; (repeat' split) <;> simp_all
@[simp] theorem keep_testPass (s : State) (u : Nat) (sw : Bool) :
    (testPass s u sw).sec = s.sec ∧ (testPass s u sw).pending = s.pending := by
  unfold testPass; (repeat' split) <;> simp_all
@[simp] theorem keep_rakeFailed (s : State) :
    (rakeFailed s).sec = s.sec ∧ (rakeFailed s).pending = s.pending := by
  unfold rakeFailed; apply foldl_kept; intro s x; (repeat' split) <;> simp_all
@[simp] theorem keep_testFail (s : State) (u : Nat) (faddr : W64) :
    (testFail s u faddr).sec = s.sec ∧ (testFail s u faddr).pending = s.pending := by
  unfold testFail; (repeat' split) <;> simp_all
@[simp] theorem keep_wearChoose (s : State) :
    (wearChoose s).sec = s.sec ∧ (wearChoose s).pending = s.pending := by
  simp [wearChoose]
@[simp] theorem keep_wearGo (s : State) :
    (wearGo s).sec = s.sec ∧ (wearGo s).pending = s.pending := by
  simp [wearGo]
@[simp] theorem keep_startBg (s : State) (u : Nat) :
    (startBg s u).sec = s.sec ∧ (startBg s u).pending = s.pending := by
  simp [startBg]
@[simp] theorem keep_serveTests (s : State) :
    (serveTests s).sec = s.sec ∧ (serveTests s).pending = s.pending := by
  simp only [serveTests]; (repeat' split) <;> simp_all
@[simp] theorem keep_testDone (s : State) (u : Nat) (res : TestRes) (faddr : W64) (ticks : W32) :
    (testDone s u res faddr ticks).sec = s.sec ∧ (testDone s u res faddr ticks).pending = s.pending := by
  unfold testDone; (repeat' split) <;> simp_all
@[simp] theorem keep_wearStart (s : State) :
    (wearStart s).sec = s.sec ∧ (wearStart s).pending = s.pending := by
  simp [wearStart]
@[simp] theorem keep_wearSwap (s : State) :
    (wearSwap s).sec = s.sec ∧ (wearSwap s).pending = s.pending := by
  unfold wearSwap; (repeat' split) <;> simp_all

/-! ### Power -/

@[simp] theorem keep_suppliesOff (s : State) :
    (suppliesOff s).sec = s.sec ∧ (suppliesOff s).pending = s.pending := by
  simp [suppliesOff]
@[simp] theorem keep_dozeFinish (s : State) :
    (dozeFinish s).sec = s.sec ∧ (dozeFinish s).pending = s.pending := by
  simp [dozeFinish]
@[simp] theorem keep_dozeGo (s : State) :
    (dozeGo s).sec = s.sec ∧ (dozeGo s).pending = s.pending := by
  simp [dozeGo]
@[simp] theorem keep_pRefused (s : State) :
    (pRefused s).sec = s.sec ∧ (pRefused s).pending = s.pending := by
  simp [pRefused]
@[simp] theorem keep_dozeCommand (s : State) :
    (dozeCommand s).sec = s.sec ∧ (dozeCommand s).pending = s.pending := by
  simp [dozeCommand]
@[simp] theorem keep_suppliesOn (s : State) :
    (suppliesOn s).sec = s.sec ∧ (suppliesOn s).pending = s.pending := by
  simp [suppliesOn]
@[simp] theorem keep_wakeCommand (s : State) :
    (wakeCommand s).sec = s.sec ∧ (wakeCommand s).pending = s.pending := by
  unfold wakeCommand; (repeat' split) <;> simp_all
@[simp] theorem keep_unhalt (s : State) :
    (unhalt s).sec = s.sec ∧ (unhalt s).pending = s.pending := by
  simp [unhalt]
@[simp] theorem keep_shareRequest (s : State) :
    (shareRequest s).sec = s.sec ∧ (shareRequest s).pending = s.pending := by
  simp [shareRequest]
@[simp] theorem keep_vsharedWrite (s : State) (v : Byte) :
    (vsharedWrite s v).sec = s.sec ∧ (vsharedWrite s v).pending = s.pending := by
  simp [vsharedWrite]
@[simp] theorem keep_tideResume (s : State) :
    (tideResume s).sec = s.sec ∧ (tideResume s).pending = s.pending := by
  simp [tideResume]
@[simp] theorem keep_dozeWoken (s : State) :
    (dozeWoken s).sec = s.sec ∧ (dozeWoken s).pending = s.pending := by
  simp [dozeWoken]
@[simp] theorem keep_pfStop (s : State) :
    (pfStop s).sec = s.sec ∧ (pfStop s).pending = s.pending := by
  simp [pfStop]
@[simp] theorem keep_pfPush (s : State) :
    (pfPush s).sec = s.sec ∧ (pfPush s).pending = s.pending := by
  simp [pfPush]
@[simp] theorem keep_vidAck (s : State) (d : Nat) :
    (vidAck s d).sec = s.sec ∧ (vidAck s d).pending = s.pending := by
  unfold vidAck; (repeat' split) <;> simp_all
@[simp] theorem keep_avsStretch (s : State) (q : Fin 16) (slack : BitVec 6) :
    (avsStretch s q slack).sec = s.sec ∧ (avsStretch s q slack).pending = s.pending := by
  simp [avsStretch]
@[simp] theorem keep_avsRequest (s : State) (q : Fin 16) (slack : BitVec 6) :
    (avsRequest s q slack).sec = s.sec ∧ (avsRequest s q slack).pending = s.pending := by
  simp [avsRequest]
@[simp] theorem keep_avsWindow (s : State) (q : Fin 16) (slack : BitVec 6) :
    (avsWindow s q slack).sec = s.sec ∧ (avsWindow s q slack).pending = s.pending := by
  simp [avsWindow]

/-! ### Background -/

@[simp] theorem keep_repcalRun (s : State) (m : Meas) :
    (repcalRun s m).sec = s.sec ∧ (repcalRun s m).pending = s.pending := by
  unfold repcalRun; apply foldl_kept; intro s x; (repeat' split) <;> simp_all
@[simp] theorem keep_modTideE (s : State) (e : Fin 16) (f : TideE → TideE) :
    (modTideE s e f).sec = s.sec ∧ (modTideE s e f).pending = s.pending := by
  simp [modTideE]
@[simp] theorem keep_tideComplete (s : State) (e : Fin 16) :
    (tideComplete s e).sec = s.sec ∧ (tideComplete s e).pending = s.pending := by
  simp [tideComplete]
@[simp] theorem keep_wdog (s : State) (u : Nat) :
    (wdog s u).sec = s.sec ∧ (wdog s u).pending = s.pending := by
  unfold wdog; (repeat' split) <;> simp_all

/-! ### Security -/

@[simp] theorem keep_dwStep (s : State) :
    (dwStep s).sec = s.sec ∧ (dwStep s).pending = s.pending := by
  simp [dwStep]
@[simp] theorem keep_dwPut (s : State) (bs : List Byte) :
    (dwPut s bs).sec = s.sec ∧ (dwPut s bs).pending = s.pending := by
  simp only [dwPut]; (repeat' split) <;> simp_all
@[simp] theorem keep_dwWrite (s : State) (hi : Bool) (w : W32) :
    (dwWrite s hi w).sec = s.sec ∧ (dwWrite s hi w).pending = s.pending := by
  simp [dwWrite]
@[simp] theorem keep_dwBytes (s : State) :
    (dwBytes s).2.sec = s.sec ∧ (dwBytes s).2.pending = s.pending := by
  unfold dwBytes; simp only []; (repeat' split) <;> (try simp)
  all_goals exact foldl_kept2 _ (by intro x a; split <;> simp) _ _
theorem keep_dwBytes' (s : State) {o_ t_} (h : dwBytes s = (o_, t_)) : t_.sec = s.sec ∧ t_.pending = s.pending := by
  have k := keep_dwBytes s; rw [h] at k; exact k
@[simp] theorem keep_dwRead (s : State) (hi : Bool) :
    (dwRead s hi).sec = s.sec ∧ (dwRead s hi).pending = s.pending := by
  simp only [dwRead]; (repeat' split) <;> simp_all
@[simp] theorem keep_fwCheck (s : State) :
    (fwCheck s).2.sec = s.sec ∧ (fwCheck s).2.pending = s.pending := by
  unfold fwCheck; (repeat' split) <;> first | (simp_all +zetaDelta; done) | grind [→ keep_rdHost', keep_recordErr] | (simp_all +zetaDelta; grind [→ keep_rdHost', keep_recordErr])
theorem keep_fwCheck' (s : State) {o_ t_} (h : fwCheck s = (o_, t_)) : t_.sec = s.sec ∧ t_.pending = s.pending := by
  have k := keep_fwCheck s; rw [h] at k; exact k
@[simp] theorem keep_fwStart (s : State) (h : List Byte) (payload : List Byte) :
    (fwStart s h payload).sec = s.sec ∧ (fwStart s h payload).pending = s.pending := by
  simp [fwStart]
@[simp] theorem keep_resumeRake (s : State) :
    (resumeRake s).sec = s.sec ∧ (resumeRake s).pending = s.pending := by
  unfold resumeRake; apply foldl_kept; intro s x; (repeat' split) <;> simp_all
@[simp] theorem keep_restoreHistory (s : State) :
    (restoreHistory s).sec = s.sec ∧ (restoreHistory s).pending = s.pending := by
  simp [restoreHistory]
@[simp] theorem keep_fwRestore (s : State) :
    (fwRestore s).sec = s.sec ∧ (fwRestore s).pending = s.pending := by
  simp [fwRestore]
@[simp] theorem keep_setDh (s : State) (u : Nat) (b : Bool) :
    (setDh s u b).sec = s.sec ∧ (setDh s u b).pending = s.pending := by
  simp [setDh]
@[simp] theorem keep_dhHalt (s : State) (u : Nat) :
    (dhHalt s u).sec = s.sec ∧ (dhHalt s u).pending = s.pending := by
  simp [dhHalt, dhCommand]
@[simp] theorem keep_dhStep (s : State) (u : Nat) :
    (dhStep s u).sec = s.sec ∧ (dhStep s u).pending = s.pending := by
  simp [dhStep, dhCommand]
@[simp] theorem keep_dhResume (s : State) (u : Nat) :
    (dhResume s u).sec = s.sec ∧ (dhResume s u).pending = s.pending := by
  simp [dhResume, dhCommand]

/-! ### Start -/

@[simp] theorem keep_warmHolds (s : State) :
    (warmHolds s).sec = s.sec ∧ (warmHolds s).pending = s.pending := by
  simp [warmHolds]
@[simp] theorem keep_startConfig (s : State) :
    (startConfig s).sec = s.sec ∧ (startConfig s).pending = s.pending := by
  simp [startConfig]
@[simp] theorem keep_warmModes (s : State) :
    (warmModes s).sec = s.sec ∧ (warmModes s).pending = s.pending := by
  unfold warmModes
  refine ⟨?_, ?_⟩
  · rw [foldl_sec _ (by intro s u; (repeat' split) <;> simp), foldl_sec _ (by intro s u; (repeat' split) <;> simp)]
  · rw [foldl_pending _ (by intro s u; (repeat' split) <;> simp), foldl_pending _ (by intro s u; (repeat' split) <;> simp)]
@[simp] theorem keep_pllLock (s : State) :
    (pllLock s).sec = s.sec ∧ (pllLock s).pending = s.pending := by
  unfold pllLock; (repeat' split) <;> simp_all
@[simp] theorem keep_sramInitDone (s : State) :
    (sramInitDone s).sec = s.sec ∧ (sramInitDone s).pending = s.pending := by
  simp [sramInitDone]
@[simp] theorem keep_choosePans (s : State) (t : SelfTest) :
    (choosePans s t).sec = s.sec ∧ (choosePans s t).pending = s.pending := by
  simp [choosePans]
@[simp] theorem keep_fenceFailing (s : State) (t : SelfTest) :
    (fenceFailing s t).sec = s.sec ∧ (fenceFailing s t).pending = s.pending := by
  unfold fenceFailing; apply foldl_kept; intro s x; (repeat' split) <;> simp_all
@[simp] theorem keep_selftestDone (s : State) (t : SelfTest) :
    (selftestDone s t).sec = s.sec ∧ (selftestDone s t).pending = s.pending := by
  unfold selftestDone; (repeat' split) <;> simp_all

/-! ### Header -/

@[simp] theorem keep_tideFw (s : State) (susp : Bool) :
    (tideFw s susp).sec = s.sec ∧ (tideFw s susp).pending = s.pending := by
  simp [tideFw]
@[simp] theorem keep_stopUnit (s : State) (p : PageId) (m : UMode) :
    (stopUnit s p m).sec = s.sec ∧ (stopUnit s p m).pending = s.pending := by
  simp only [stopUnit]; (repeat' split) <;> simp_all
@[simp] theorem keep_unfence (s : State) (v : W16) :
    (unfence s v).sec = s.sec ∧ (unfence s v).pending = s.pending := by
  simp [unfence]
@[simp] theorem keep_afterError (s : State) (p : PageId) (c : Nat) :
    (afterError s p c).sec = s.sec ∧ (afterError s p c).pending = s.pending := by
  unfold afterError; (repeat' split) <;> simp_all
@[simp] theorem keep_ctlState (s : State) (p : PageId) :
    (ctlState s p).sec = s.sec ∧ (ctlState s p).pending = s.pending := by
  simp [ctlState]
@[simp] theorem keep_runUnit (s : State) (p : PageId) :
    (runUnit s p).sec = s.sec ∧ (runUnit s p).pending = s.pending := by
  unfold runUnit; (repeat' split) <;> simp_all
@[simp] theorem keep_runIsolated (s : State) (p : PageId) :
    (runIsolated s p).sec = s.sec ∧ (runIsolated s p).pending = s.pending := by
  unfold runIsolated; (repeat' split) <;> simp_all
@[simp] theorem keep_runCommand (s : State) (p : PageId) :
    (runCommand s p).sec = s.sec ∧ (runCommand s p).pending = s.pending := by
  unfold runCommand; (repeat' split) <;> simp_all
@[simp] theorem keep_stopCommand (s : State) (p : PageId) (m : UMode) :
    (stopCommand s p m).sec = s.sec ∧ (stopCommand s p m).pending = s.pending := by
  unfold stopCommand; (repeat' split) <;> simp_all
@[simp] theorem keep_setIsolated (s : State) (p : PageId) :
    (setIsolated s p).sec = s.sec ∧ (setIsolated s p).pending = s.pending := by
  unfold setIsolated; (repeat' split) <;> simp_all
@[simp] theorem keep_isolatePan (s : State) (p : Fin 64) :
    (isolatePan s p).sec = s.sec ∧ (isolatePan s p).pending = s.pending := by
  unfold isolatePan; (repeat' split) <;> simp_all
@[simp] theorem keep_isolateCommand (s : State) (p : PageId) :
    (isolateCommand s p).sec = s.sec ∧ (isolateCommand s p).pending = s.pending := by
  unfold isolateCommand; (repeat' split) <;> simp_all
@[simp] theorem keep_bypassCommand (s : State) (p : PageId) :
    (bypassCommand s p).sec = s.sec ∧ (bypassCommand s p).pending = s.pending := by
  unfold bypassCommand; (repeat' split) <;> simp_all
@[simp] theorem keep_pgCommand (s : State) (p : PageId) (c : PgCmd) :
    (pgCommand s p c).sec = s.sec ∧ (pgCommand s p c).pending = s.pending := by
  unfold pgCommand; (repeat' split) <;> simp_all
@[simp] theorem keep_abiWrite (s : State) (p : PageId) (v : W16) :
    (abiWrite s p v).sec = s.sec ∧ (abiWrite s p v).pending = s.pending := by
  simp [abiWrite]
@[simp] theorem keep_cfgrejClear (s : State) (p : PageId) :
    (cfgrejClear s p).sec = s.sec ∧ (cfgrejClear s p).pending = s.pending := by
  simp [cfgrejClear]
@[simp] theorem keep_errorAck (s : State) (p : PageId) :
    (errorAck s p).sec = s.sec ∧ (errorAck s p).pending = s.pending := by
  simp [errorAck]
@[simp] theorem keep_errcapClr (s : State) (p : PageId) :
    (errcapClr s p).sec = s.sec ∧ (errcapClr s p).pending = s.pending := by
  simp [errcapClr]
@[simp] theorem keep_injectNow (s : State) (p : PageId) (c : Nat) :
    (injectNow s p c).sec = s.sec ∧ (injectNow s p c).pending = s.pending := by
  simp [injectNow]
@[simp] theorem keep_eccEffect (s : State) (p : PageId) :
    (eccEffect s p).sec = s.sec ∧ (eccEffect s p).pending = s.pending := by
  simp only [eccEffect]; (repeat' split) <;> simp_all
@[simp] theorem keep_corruptNow (s : State) (p : PageId) (c : Nat) :
    (corruptNow s p c).sec = s.sec ∧ (corruptNow s p c).pending = s.pending := by
  simp only [corruptNow]; (repeat' split) <;> simp_all
@[simp] theorem keep_iarmWrite (s : State) (p : PageId) (cause : Nat) (report : Bool) (dbl : Bool) :
    (iarmWrite s p cause report dbl).sec = s.sec ∧ (iarmWrite s p cause report dbl).pending = s.pending := by
  simp [iarmWrite]

/-! ### Regs -/

@[simp] theorem keep_errinjWrite (s : State) (p : PageId) (v : Nat) :
    (errinjWrite s p v).sec = s.sec ∧ (errinjWrite s p v).pending = s.pending := by
  simp [errinjWrite]
@[simp] theorem keep_shtCmdWrite (s : State) (v : Nat) :
    (shtCmdWrite s v).sec = s.sec ∧ (shtCmdWrite s v).pending = s.pending := by
  unfold shtCmdWrite; (repeat' split) <;> simp_all
@[simp] theorem keep_tenWrite (s : State) (e : Fin 16) (b : Bool) :
    (tenWrite s e b).sec = s.sec ∧ (tenWrite s e b).pending = s.pending := by
  simp [tenWrite]
@[simp] theorem keep_clkreqWrite (s : State) (p : PageId) (b : Bool) :
    (clkreqWrite s p b).sec = s.sec ∧ (clkreqWrite s p b).pending = s.pending := by
  unfold clkreqWrite; (repeat' split) <;> simp_all
@[simp] theorem keep_intdstPut (s : State) (k : Nat) (v : Nat) :
    (intdstPut s k v).sec = s.sec ∧ (intdstPut s k v).pending = s.pending := by
  simp [intdstPut]
@[simp] theorem keep_qenWrite (s : State) (l : Fin 60) (b : Bool) :
    (qenWrite s l b).sec = s.sec ∧ (qenWrite s l b).pending = s.pending := by
  simp [qenWrite]
@[simp] theorem keep_eqCiWrite (s : State) (v : Nat) :
    (eqCiWrite s v).sec = s.sec ∧ (eqCiWrite s v).pending = s.pending := by
  simp [eqCiWrite]
@[simp] theorem keep_intdstWrite (s : State) (k : Nat) (v : Nat) :
    (intdstWrite s k v).sec = s.sec ∧ (intdstWrite s k v).pending = s.pending := by
  simp [intdstWrite]
@[simp] theorem keep_ctlWrite (s : State) (p : PageId) (v : Nat) :
    (ctlWrite s p v).sec = s.sec ∧ (ctlWrite s p v).pending = s.pending := by
  unfold ctlWrite; (repeat' split) <;> simp_all
@[simp] theorem keep_instWrite (s : State) (v : BitVec 6) :
    (instWrite s v).sec = s.sec ∧ (instWrite s v).pending = s.pending := by
  simp [instWrite]
@[simp] theorem keep_intenWrite (s : State) (k : Nat) (v : Nat) :
    (intenWrite s k v).sec = s.sec ∧ (intenWrite s k v).pending = s.pending := by
  simp [intenWrite]

/-! ### UnitRegs -/

@[simp] theorem keep_svcGo (s : State) :
    (svcGo s).sec = s.sec ∧ (svcGo s).pending = s.pending := by
  simp [svcGo]
@[simp] theorem keep_dhWrite (s : State) (v : Nat) :
    (dhWrite s v).sec = s.sec ∧ (dhWrite s v).pending = s.pending := by
  unfold dhWrite; (repeat' split) <;> simp_all
@[simp] theorem keep_routeWrite (s : State) (i : Nat) (v : Nat) :
    (routeWrite s i v).sec = s.sec ∧ (routeWrite s i v).pending = s.pending := by
  simp [routeWrite]
@[simp] theorem keep_ropWrite (s : State) (v : Nat) :
    (ropWrite s v).sec = s.sec ∧ (ropWrite s v).pending = s.pending := by
  unfold ropWrite; (repeat' split) <;> simp_all
@[simp] theorem keep_tsWrite (s : State) (v : Nat) :
    (tsWrite s v).sec = s.sec ∧ (tsWrite s v).pending = s.pending := by
  simp [tsWrite]
@[simp] theorem keep_twenWrite (s : State) (b : Bool) :
    (twenWrite s b).sec = s.sec ∧ (twenWrite s b).pending = s.pending := by
  simp [twenWrite]
@[simp] theorem keep_vcmdWrite (s : State) (v : Nat) :
    (vcmdWrite s v).sec = s.sec ∧ (vcmdWrite s v).pending = s.pending := by
  simp [vcmdWrite]
@[simp] theorem keep_jcmdWrite (s : State) (v : Nat) :
    (jcmdWrite s v).sec = s.sec ∧ (jcmdWrite s v).pending = s.pending := by
  unfold jcmdWrite; (repeat' split) <;> simp_all

/-! ### Access -/

@[simp] theorem keep_resDrop (s : State) (p : PageId) (o : Nat) (c : Rej) :
    (resDrop s p o c).sec = s.sec ∧ (resDrop s p o c).pending = s.pending := by
  simp [resDrop]
@[simp] theorem keep_dirWrite (s : State) (m : Nat) (o : Nat) (bs : List (Nat × Byte)) :
    (dirWrite s m o bs).sec = s.sec ∧ (dirWrite s m o bs).pending = s.pending := by
  simp only [dirWrite]; (repeat' split) <;> simp_all
@[simp] theorem keep_salWrite (s : State) (l : Nat) (o : Nat) (bs : List (Nat × Byte)) :
    (salWrite s l o bs).sec = s.sec ∧ (salWrite s l o bs).pending = s.pending := by
  simp [salWrite]
@[simp] theorem keep_resWrite (s : State) (o : Nat) (be : BitVec 4) (d : W32) :
    (resWrite s o be d).sec = s.sec ∧ (resWrite s o be d).pending = s.pending := by
  unfold resWrite; (repeat' split) <;> simp_all
@[simp] theorem keep_cpRefuse (s : State) :
    (cpRefuse s).sec = s.sec ∧ (cpRefuse s).pending = s.pending := by
  unfold cpRefuse; (repeat' split) <;> simp_all
@[simp] theorem keep_readReg (s : State) (p : PageId) (o : Nat) :
    (readReg s p o).sec = s.sec ∧ (readReg s p o).pending = s.pending := by
  unfold readReg; (repeat' split) <;> simp_all
@[simp] theorem keep_resLost (s : State) (o : Nat) :
    (resLost s o).sec = s.sec ∧ (resLost s o).pending = s.pending := by
  unfold resLost; (repeat' split) <;> simp_all
@[simp] theorem keep_resRead (s : State) (o : Nat) (e : EccErr) :
    (resRead s o e).sec = s.sec ∧ (resRead s o e).pending = s.pending := by
  unfold resRead; (repeat' split) <;> simp_all

/-! ### Service -/

@[simp] theorem keep_loadWir (s : State) (c : BitVec 6) :
    (loadWir s c).sec = s.sec ∧ (loadWir s c).pending = s.pending := by
  simp [loadWir]
@[simp] theorem keep_svcDone (s : State) :
    (svcDone s).sec = s.sec ∧ (svcDone s).pending = s.pending := by
  simp [svcDone]
@[simp] theorem keep_tstregDone (s : State) (done : Bool) (w : BitVec 6) (data : Nat) :
    (tstregDone s done w data).sec = s.sec ∧ (tstregDone s done w data).pending = s.pending := by
  simp [tstregDone]

end Sys2Proof.Machine
end

