-- ==== Sys2Proof/Laws/KeepRegs.lean ====
section
/-! SUPPORT. The register tables: a write of a field outside the SEC and PWR pages leaves the SEC page and the queue of
waiting commands as they were. -/

namespace Sys2Proof.Machine
/-- A row whose write leaves the SEC page and the queue alone. -/
structure KeepRow (r : RegRow) : Prop where
  out : ∀ s v, (r.2.put s v).sec = s.sec ∧ (r.2.put s v).pending = s.pending

theorem keep_ro (o lo w : Nat) (g) : KeepRow (ro o lo w g) := ⟨fun _ _ => ⟨rfl, rfl⟩⟩
theorem keep_rw (o lo w : Nat) (g p b) (h : ∀ s v, (p s v).sec = s.sec ∧ (p s v).pending = s.pending) : KeepRow (rw o lo w g p b) := ⟨h⟩
theorem keep_rwl (o lo w : Nat) (l g p b) (h : ∀ s v, (p s v).sec = s.sec ∧ (p s v).pending = s.pending) : KeepRow (rwl o lo w l g p b) := ⟨h⟩
theorem keep_wo (o lo w : Nat) (p b) (h : ∀ s v, (p s v).sec = s.sec ∧ (p s v).pending = s.pending) : KeepRow (wo o lo w p b) := ⟨h⟩
theorem keep_w1 (o lo : Nat) (g a) (h : ∀ s, (a s).sec = s.sec ∧ (a s).pending = s.pending) : KeepRow (w1 o lo g a) := by
  constructor; intro s v; unfold w1; simp only []; split
  · exact h s
  · exact ⟨rfl, rfl⟩
theorem keep_tier (o w g p b) : KeepRow (tier o w g p b) := ⟨fun _ _ => ⟨rfl, rfl⟩⟩
theorem keep_glbL (o lo w g p b) : KeepRow (glbL o lo w g p b) := ⟨fun _ _ => ⟨rfl, rfl⟩⟩
theorem keep_row (o lo w g p l b) (h : ∀ s v, (p s v).sec = s.sec ∧ (p s v).pending = s.pending) : KeepRow (o, { lo := lo, w := w, get := g, put := p, locked := l, bad := b }) := ⟨h⟩
theorem keep_flagRegs (g) (p : State → (FlagReg → FlagReg) → State) (h : ∀ s f, (p s f).sec = s.sec ∧ (p s f).pending = s.pending) :
    ∀ r ∈ flagRegs g p, KeepRow r := by
  unfold flagRegs; simp only [List.forall_mem_cons]
  (repeat' apply And.intro) <;> first
    | (intro _ h; cases h; done)
    | (apply keep_w1; intro s; exact h s _)
theorem keep_hdrRegs (p : PageId) : ∀ r ∈ hdrRegs p, KeepRow r := by
  unfold hdrRegs; simp only [List.forall_mem_cons]
  (repeat' apply And.intro) <;> first
    | (intro _ h; cases h; done)
    | apply keep_ro
    | (apply keep_flagRegs; intros; simp; done)
    | (split <;> first | apply keep_ro | (apply keep_rw; intros; simp; done) | (apply keep_rwl; intros; simp; done))
    | apply keep_tier
    | apply keep_glbL
    | (first | apply keep_w1 | apply keep_wo | apply keep_rw | apply keep_rwl | apply keep_row) <;> (intros; simp)
theorem keep_queueRegs (l : Fin 60) : ∀ r ∈ queueRegs l, KeepRow r := by
  unfold queueRegs; simp only [List.forall_mem_cons]
  (repeat' apply And.intro) <;> first
    | (intro _ h; cases h; done)
    | apply keep_ro
    | (apply keep_flagRegs; intros; simp; done)
    | (split <;> first | apply keep_ro | (apply keep_rw; intros; simp; done) | (apply keep_rwl; intros; simp; done))
    | apply keep_tier
    | apply keep_glbL
    | (first | apply keep_w1 | apply keep_wo | apply keep_rw | apply keep_rwl | apply keep_row) <;> (intros; simp)
theorem keep_slowRegs (n : Fin 4) : ∀ r ∈ slowRegs n, KeepRow r := by
  unfold slowRegs; simp only [List.forall_mem_cons]
  (repeat' apply And.intro) <;> first
    | (intro _ h; cases h; done)
    | apply keep_ro
    | (apply keep_flagRegs; intros; simp; done)
    | (split <;> first | apply keep_ro | (apply keep_rw; intros; simp; done) | (apply keep_rwl; intros; simp; done))
    | apply keep_tier
    | apply keep_glbL
    | (first | apply keep_w1 | apply keep_wo | apply keep_rw | apply keep_rwl | apply keep_row) <;> (intros; simp)
theorem keep_glbFix  : ∀ r ∈ glbFix , KeepRow r := by
  unfold glbFix; simp only [List.forall_mem_cons]
  (repeat' apply And.intro) <;> first
    | (intro _ h; cases h; done)
    | apply keep_ro
    | (apply keep_flagRegs; intros; simp; done)
    | (split <;> first | apply keep_ro | (apply keep_rw; intros; simp; done) | (apply keep_rwl; intros; simp; done))
    | apply keep_tier
    | apply keep_glbL
    | (first | apply keep_w1 | apply keep_wo | apply keep_rw | apply keep_rwl | apply keep_row) <;> (intros; simp)
theorem keep_tideRegs (e : Fin 16) : ∀ r ∈ tideRegs e, KeepRow r := by
  unfold tideRegs; simp only [List.forall_mem_cons]
  (repeat' apply And.intro) <;> first
    | (intro _ h; cases h; done)
    | apply keep_ro
    | (apply keep_flagRegs; intros; simp; done)
    | (split <;> first | apply keep_ro | (apply keep_rw; intros; simp; done) | (apply keep_rwl; intros; simp; done))
    | apply keep_tier
    | apply keep_glbL
    | (first | apply keep_w1 | apply keep_wo | apply keep_rw | apply keep_rwl | apply keep_row) <;> (intros; simp)
theorem keep_fltRegs  : ∀ r ∈ fltRegs , KeepRow r := by
  unfold fltRegs; simp only [List.forall_mem_cons]
  (repeat' apply And.intro) <;> first
    | (intro _ h; cases h; done)
    | apply keep_ro
    | (apply keep_flagRegs; intros; simp; done)
    | (split <;> first | apply keep_ro | (apply keep_rw; intros; simp; done) | (apply keep_rwl; intros; simp; done))
    | apply keep_tier
    | apply keep_glbL
    | (first | apply keep_w1 | apply keep_wo | apply keep_rw | apply keep_rwl | apply keep_row) <;> (intros; simp)
theorem keep_panRegs (p : Fin 64) : ∀ r ∈ panRegs p, KeepRow r := by
  unfold panRegs; simp only [List.forall_mem_cons]
  (repeat' apply And.intro) <;> first
    | (intro _ h; cases h; done)
    | apply keep_ro
    | (apply keep_flagRegs; intros; simp; done)
    | (split <;> first | apply keep_ro | (apply keep_rw; intros; simp; done) | (apply keep_rwl; intros; simp; done))
    | apply keep_tier
    | apply keep_glbL
    | (first | apply keep_w1 | apply keep_wo | apply keep_rw | apply keep_rwl | apply keep_row) <;> (intros; simp)
theorem keep_qdRegs (q : Fin 16) : ∀ r ∈ qdRegs q, KeepRow r := by
  unfold qdRegs; simp only [List.forall_mem_cons]
  (repeat' apply And.intro) <;> first
    | (intro _ h; cases h; done)
    | apply keep_ro
    | (apply keep_flagRegs; intros; simp; done)
    | (split <;> first | apply keep_ro | (apply keep_rw; intros; simp; done) | (apply keep_rwl; intros; simp; done))
    | apply keep_tier
    | apply keep_glbL
    | (first | apply keep_w1 | apply keep_wo | apply keep_rw | apply keep_rwl | apply keep_row) <;> (intros; simp)
theorem keep_hrvRegs (n : Fin 8) : ∀ r ∈ hrvRegs n, KeepRow r := by
  unfold hrvRegs; simp only [List.forall_mem_cons, List.forall_mem_append]
  (repeat' apply And.intro) <;> first
    | (intro _ h; cases h; done)
    | apply keep_ro
    | (apply keep_flagRegs; intros; simp; done)
    | (split <;> first | apply keep_ro | (apply keep_rw; intros; simp; done) | (apply keep_rwl; intros; simp; done))
    | apply keep_tier
    | apply keep_glbL
    | (first | apply keep_w1 | apply keep_wo | apply keep_rw | apply keep_rwl | apply keep_row) <;> (intros; simp)
theorem keep_sltRegs (n : Fin 8) : ∀ r ∈ sltRegs n, KeepRow r := by
  unfold sltRegs; simp only [List.forall_mem_cons, List.forall_mem_append]
  (repeat' apply And.intro) <;> first
    | (intro _ h; cases h; done)
    | apply keep_ro
    | (apply keep_flagRegs; intros; simp; done)
    | (split <;> first | apply keep_ro | (apply keep_rw; intros; simp; done) | (apply keep_rwl; intros; simp; done))
    | apply keep_tier
    | apply keep_glbL
    | (first | apply keep_w1 | apply keep_wo | apply keep_rw | apply keep_rwl | apply keep_row) <;> (intros; simp)
theorem keep_rakRegs  : ∀ r ∈ rakRegs , KeepRow r := by
  unfold rakRegs; simp only [List.forall_mem_cons]
  (repeat' apply And.intro) <;> first
    | (intro _ h; cases h; done)
    | apply keep_ro
    | (apply keep_flagRegs; intros; simp; done)
    | (split <;> first | apply keep_ro | (apply keep_rw; intros; simp; done) | (apply keep_rwl; intros; simp; done))
    | apply keep_tier
    | apply keep_glbL
    | (first | apply keep_w1 | apply keep_wo | apply keep_rw | apply keep_rwl | apply keep_row) <;> (intros; simp)
theorem keep_salRegs  : ∀ r ∈ salRegs , KeepRow r := by
  unfold salRegs; simp only [List.forall_mem_cons]
  (repeat' apply And.intro) <;> first
    | (intro _ h; cases h; done)
    | apply keep_ro
    | (apply keep_flagRegs; intros; simp; done)
    | (split <;> first | apply keep_ro | (apply keep_rw; intros; simp; done) | (apply keep_rwl; intros; simp; done))
    | apply keep_tier
    | apply keep_glbL
    | (first | apply keep_w1 | apply keep_wo | apply keep_rw | apply keep_rwl | apply keep_row) <;> (intros; simp)
theorem keep_vrdFix  : ∀ r ∈ vrdFix , KeepRow r := by
  unfold vrdFix; simp only [List.forall_mem_cons]
  (repeat' apply And.intro) <;> first
    | (intro _ h; cases h; done)
    | apply keep_ro
    | (apply keep_flagRegs; intros; simp; done)
    | (split <;> first | apply keep_ro | (apply keep_rw; intros; simp; done) | (apply keep_rwl; intros; simp; done))
    | apply keep_tier
    | apply keep_glbL
    | (first | apply keep_w1 | apply keep_wo | apply keep_rw | apply keep_rwl | apply keep_row) <;> (intros; simp)
theorem keep_twnFix  : ∀ r ∈ twnFix , KeepRow r := by
  unfold twnFix; simp only [List.forall_mem_cons]
  (repeat' apply And.intro) <;> first
    | (intro _ h; cases h; done)
    | apply keep_ro
    | (apply keep_flagRegs; intros; simp; done)
    | (split <;> first | apply keep_ro | (apply keep_rw; intros; simp; done) | (apply keep_rwl; intros; simp; done))
    | apply keep_tier
    | apply keep_glbL
    | (first | apply keep_w1 | apply keep_wo | apply keep_rw | apply keep_rwl | apply keep_row) <;> (intros; simp)
theorem keep_windowRegs (n : Fin 4) : ∀ r ∈ windowRegs n, KeepRow r := by
  unfold windowRegs; simp only [List.forall_mem_cons]
  (repeat' apply And.intro) <;> first
    | (intro _ h; cases h; done)
    | apply keep_ro
    | (apply keep_flagRegs; intros; simp; done)
    | (split <;> first | apply keep_ro | (apply keep_rw; intros; simp; done) | (apply keep_rwl; intros; simp; done))
    | apply keep_tier
    | apply keep_glbL
    | (first | apply keep_w1 | apply keep_wo | apply keep_rw | apply keep_rwl | apply keep_row) <;> (intros; simp)
theorem keep_lnkFix (k : Fin 8) : ∀ r ∈ lnkFix k, KeepRow r := by
  unfold lnkFix; simp only [List.forall_mem_cons]
  (repeat' apply And.intro) <;> first
    | (intro _ h; cases h; done)
    | apply keep_ro
    | (apply keep_flagRegs; intros; simp; done)
    | (split <;> first | apply keep_ro | (apply keep_rw; intros; simp; done) | (apply keep_rwl; intros; simp; done))
    | apply keep_tier
    | apply keep_glbL
    | (first | apply keep_w1 | apply keep_wo | apply keep_rw | apply keep_rwl | apply keep_row) <;> (intros; simp)
theorem keep_tstFix  : ∀ r ∈ tstFix , KeepRow r := by
  unfold tstFix; simp only [List.forall_mem_cons]
  (repeat' apply And.intro) <;> first
    | (intro _ h; cases h; done)
    | apply keep_ro
    | (apply keep_flagRegs; intros; simp; done)
    | (split <;> first | apply keep_ro | (apply keep_rw; intros; simp; done) | (apply keep_rwl; intros; simp; done))
    | apply keep_tier
    | apply keep_glbL
    | (first | apply keep_w1 | apply keep_wo | apply keep_rw | apply keep_rwl | apply keep_row) <;> (intros; simp)

/-- Every page's rows but those of the SEC and PWR pages leave the SEC page and the queue alone. -/
theorem keep_pageRows (p : PageId) (o : Nat) (h : o < 0x40 ∨ (p ≠ .sec ∧ p ≠ .pwr)) : ∀ r ∈ pageRows p o, KeepRow r := by
  unfold pageRows
  split
  · exact keep_hdrRegs p
  · next ho =>
    have hp := h.resolve_left ho
    cases p <;> simp only []
    case sec => exact absurd rfl hp.1
    case pwr => exact absurd rfl hp.2
    case glb =>
      rw [List.forall_mem_append]
      refine ⟨?_, keep_glbFix⟩
      unfold glbArr
      (repeat' split) <;> first
        | exact keep_slowRegs _
        | exact keep_queueRegs _
        | (intro r hr; cases hr; done)
        | (simp only [List.forall_mem_cons]; refine ⟨?_, fun _ h => by cases h⟩
           first | apply keep_ro | (apply keep_rw; intros; simp))
    case tide =>
      unfold tidePage
      split
      · exact keep_tideRegs _
      · simp only [List.forall_mem_cons]
        exact ⟨keep_rw _ _ _ _ _ _ (by intros; simp), keep_ro _ _ _ _, fun _ h => by cases h⟩
    case flt => exact keep_fltRegs
    case vrd =>
      unfold vrdPage
      split
      · simp only [List.forall_mem_cons]; exact ⟨keep_ro _ _ _ _, fun _ h => by cases h⟩
      · exact keep_vrdFix
    case sal => exact keep_salRegs
    case twn =>
      unfold twnPage
      (repeat' split) <;> first
        | exact keep_windowRegs _
        | exact keep_twnFix
        | (simp only [List.forall_mem_cons]; exact ⟨keep_rwl _ _ _ _ _ _ _ (by intros; simp), fun _ h => by cases h⟩)
    case lnk k =>
      unfold lnkPage
      split
      · simp only [List.forall_mem_cons]; exact ⟨keep_ro _ _ _ _, fun _ h => by cases h⟩
      · exact keep_lnkFix k
    case hrv n => exact keep_hrvRegs n
    case rak => exact keep_rakRegs
    case pan q => exact keep_panRegs q
    case qd q => exact keep_qdRegs q
    case slt n => exact keep_sltRegs n
    case tst =>
      unfold tstPage tempmaxReg
      (repeat' split) <;> first
        | exact keep_tstFix
        | (simp only [List.forall_mem_cons]
           (repeat' apply And.intro) <;> first | (intro _ h; cases h; done) | (apply keep_rw; intros; simp))
end Sys2Proof.Machine
end

