-- ==== Sys2Proof/Laws/Mem.lean ====
section
/-! SUPPORT. Sparse memories: a read after a write, and that every memory operation keeps the canonical form. -/

namespace Sys2Proof.Machine

variable {α : Type} [DecidableEq α]

/-! ### Setting one key -/

omit [DecidableEq α] in
theorem smGet_smDel (d : α) (m : SMap α) (k k' : Nat) : smGet d (smDel m k) k' = if k = k' then d else smGet d m k' := by
  induction m with
  | nil => simp [smDel, smGet]
  | cons e t ih =>
    obtain ⟨a, y⟩ := e
    simp only [smDel] at ih
    by_cases ha : a = k
    · subst ha
      simp only [smDel, List.filter_cons, ne_eq, not_true, decide_false, Bool.false_eq_true, if_false, ih, smGet]
      by_cases hk : a = k' <;> simp [hk]
    · simp only [smDel, List.filter_cons, ne_eq, ha, not_false_eq_true, decide_true, if_true, smGet, ih]
      by_cases hk : k = k'
      · subst hk; simp [ha]
      · simp [hk]

omit [DecidableEq α] in
theorem smGet_smIns (d : α) (m : SMap α) (k k' : Nat) (x : α) (h : ∀ e ∈ m, e.1 ≠ k) :
    smGet d (smIns k x m) k' = if k = k' then x else smGet d m k' := by
  induction m with
  | nil => simp [smIns, smGet]
  | cons e t ih =>
    obtain ⟨a, y⟩ := e
    have ha : a ≠ k := h (a, y) (List.mem_cons_self ..)
    have ih := ih fun e he => h e (List.mem_cons_of_mem _ he)
    simp only [smIns]
    split
    · by_cases hk : k = k' <;> simp [smGet, hk]
    · simp only [smGet, ih]
      by_cases hk : k = k'
      · subst hk; simp [ha]
      · simp [hk]

/-- A read after a write of the same key gives the value written; every other key reads as before. -/
theorem smGet_smSet (d : α) (m : SMap α) (k k' : Nat) (x : α) :
    smGet d (smSet d m k x) k' = if k = k' then x else smGet d m k' := by
  unfold smSet
  split
  · next hx => rw [smGet_smDel, hx]
  · rw [smGet_smIns _ _ _ _ _ (by simp [smDel]), smGet_smDel]
    by_cases hk : k = k' <;> simp [hk]

theorem smWfFrom_mono (d : α) (m : SMap α) : ∀ (lo lo' : Nat), lo' ≤ lo → smWfFrom d lo m = true → smWfFrom d lo' m = true := by
  cases m with
  | nil => intro _ _ _ _; rfl
  | cons e t =>
    intro lo lo' h hw
    obtain ⟨a, x⟩ := e
    simp only [smWfFrom, Bool.and_eq_true, decide_eq_true_eq] at hw ⊢
    exact ⟨⟨by omega, hw.1.2⟩, hw.2⟩

theorem smDel_wfFrom (d : α) (m : SMap α) (k : Nat) : ∀ lo, smWfFrom d lo m = true → smWfFrom d lo (smDel m k) = true := by
  induction m with
  | nil => intro lo h; exact h
  | cons e t ih =>
    intro lo h
    obtain ⟨a, y⟩ := e
    simp only [smWfFrom, Bool.and_eq_true, decide_eq_true_eq] at h
    by_cases ha : a = k
    · simp only [smDel, List.filter_cons, ha, ne_eq, not_true, decide_false, Bool.false_eq_true, if_false]
      exact smWfFrom_mono d _ _ _ (by omega) (ih _ h.2)
    · simp only [smDel, List.filter_cons, ha, ne_eq, not_false_eq_true, decide_true, if_true, smWfFrom, Bool.and_eq_true,
        decide_eq_true_eq]
      exact ⟨h.1, ih _ h.2⟩

theorem smIns_wfFrom (d : α) (k : Nat) (x : α) (hx : x ≠ d) (m : SMap α) (hm : ∀ e ∈ m, e.1 ≠ k) :
    ∀ lo, lo ≤ k → smWfFrom d lo m = true → smWfFrom d lo (smIns k x m) = true := by
  induction m with
  | nil => intro lo hk _; simp [smIns, smWfFrom, hx, hk]
  | cons e t ih =>
    intro lo hk h
    obtain ⟨a, y⟩ := e
    have ha : a ≠ k := hm (a, y) (List.mem_cons_self ..)
    simp only [smWfFrom, Bool.and_eq_true, decide_eq_true_eq] at h
    simp only [smIns]
    split
    · simp only [smWfFrom, Bool.and_eq_true, decide_eq_true_eq]
      exact ⟨⟨hk, hx⟩, ⟨by omega, h.1.2⟩, h.2⟩
    · simp only [smWfFrom, Bool.and_eq_true, decide_eq_true_eq]
      exact ⟨h.1, ih (fun e he => hm e (List.mem_cons_of_mem _ he)) _ (by omega) h.2⟩

/-- A map keeps its canonical form when a key is set. -/
theorem smSet_wf (d : α) (m : SMap α) (k : Nat) (x : α) (h : smWf d m = true) : smWf d (smSet d m k x) = true := by
  unfold smSet
  split
  · exact smDel_wfFrom d m k 0 h
  · next hx => exact smIns_wfFrom d k x hx _ (by simp [smDel]) 0 (Nat.zero_le k) (smDel_wfFrom d m k 0 h)

/-! ### Byte memories -/

theorem memPut_wf (bs : List Byte) : ∀ (m : SMap Byte) (a : Nat), Memory.wf m = true → Memory.wf (memPut m a bs) = true := by
  induction bs with
  | nil => intro m a h; exact h
  | cons b t ih => intro m a h; exact ih _ _ (smSet_wf 0 m a b h)

/-- What memory reads after bytes were stored: the stored byte inside, as before outside. -/
theorem smGet_memPut (bs : List Byte) :
    ∀ (m : SMap Byte) (a k : Nat),
      smGet 0 (memPut m a bs) k = if a ≤ k ∧ k < a + bs.length then bs.getD (k - a) 0 else smGet 0 m k := by
  induction bs with
  | nil =>
    intro m a k
    have : ¬(a ≤ k ∧ k < a) := by omega
    simp [memPut, this]
  | cons b t ih =>
    intro m a k
    rw [memPut, ih, smGet_smSet]
    by_cases h1 : a + 1 ≤ k ∧ k < a + 1 + t.length
    · rw [if_pos h1, if_pos (by simp only [List.length_cons]; omega)]
      obtain ⟨j, rfl⟩ : ∃ j, k = a + 1 + j := ⟨k - (a + 1), by omega⟩
      have e1 : a + 1 + j - (a + 1) = j := by omega
      have e2 : a + 1 + j - a = j + 1 := by omega
      rw [e1, e2, List.getD_cons_succ]
    · rw [if_neg h1]
      by_cases h2 : a = k
      · subst h2
        rw [if_pos rfl, if_pos (by simp only [List.length_cons]; omega), Nat.sub_self, List.getD_cons_zero]
      · rw [if_neg h2, if_neg (by simp only [List.length_cons]; omega)]

/-! ### Host memory -/

theorem putHost_wf (bs : List Byte) : ∀ (s : State) (a : Nat), Memory.wf s.host = true → Memory.wf (putHost s a bs).host = true := by
  induction bs with
  | nil => intro s a h; exact h
  | cons b t ih =>
    intro s a h
    simp only [putHost]
    split
    · exact ih _ _ (smSet_wf 0 _ _ _ h)
    · exact ih _ _ (smSet_wf 0 _ _ _ h)

theorem spoilHost_wf (n : Nat) : ∀ (s : State) (a : Nat), Memory.wf s.host = true → Memory.wf (spoilHost s a n).host = true := by
  induction n with
  | zero => intro s a h; exact h
  | succ n ih => intro s a h; exact ih _ _ (smSet_wf 0 _ _ _ h)

/-- Bytes that became free values lie in the range alone. -/
theorem spoilHost_frame (n : Nat) :
    ∀ (s : State) (a k : Nat), k < a ∨ a + n ≤ k → smGet 0 (spoilHost s a n).host k = smGet 0 s.host k := by
  induction n with
  | zero => intro s a k _; rfl
  | succ n ih =>
    intro s a k h
    rw [spoilHost, ih _ _ _ (by omega)]
    exact (smGet_smSet ..).trans (if_neg (by omega))

/-- A read changes no memory. -/
theorem rdHost_host (s : State) (a n : Nat) : (rdHost s a n).2.host = s.host := by
  unfold rdHost
  simp only []
  split
  · split
    · rfl
    · split <;> rfl
  · split <;> rfl

/-- A write into the aperture changes no memory of the instance. -/
theorem wrRemote_host (s : State) (a : Nat) (bs : List Byte) : (wrRemote s a bs).2.host = s.host := by
  unfold wrRemote
  simp only []
  split <;> split
  · rfl
  · exact rdHost_host s _ _
  · rfl
  · exact rdHost_host s _ _

/-- A write of host memory keeps its canonical form. -/
theorem wrHost_wf (s : State) (a : Nat) (bs : List Byte) (h : Memory.wf s.host = true) : Memory.wf (wrHost s a bs).2.host = true := by
  unfold wrHost
  simp only []
  split
  · rw [wrRemote_host]; exact h
  · exact putHost_wf _ _ _ h

/-- An atomic operation keeps the canonical form. -/
theorem atHost_wf (s : State) (o : Aop) (a y : Nat) (h : Memory.wf s.host = true) : Memory.wf (atHost s o a y).2.host = true := by
  unfold atHost
  simp only []
  split
  · exact h
  · split
    · exact h
    · exact memPut_wf _ _ _ h

/-- Bytes stored where no line is answered with an error: they read back, and every other byte reads as before. -/
theorem putHost_get (bs : List Byte) :
    ∀ (s : State) (a k : Nat), s.hostBad = [] →
      smGet 0 (putHost s a bs).host k = if a ≤ k ∧ k < a + bs.length then bs.getD (k - a) 0 else smGet 0 s.host k := by
  have e : ∀ (bs : List Byte) (s : State) (a : Nat), s.hostBad = [] → (putHost s a bs).host = memPut s.host a bs := by
    intro bs
    induction bs with
    | nil => intro s a _; rfl
    | cons b t ih =>
      intro s a h
      have hb : lineBad s a = false := by simp [lineBad, h]
      simp only [putHost, hb, memPut]
      exact ih { s with host := smSet 0 s.host a b } (a + 1) h
  intro s a k hb
  rw [e bs s a hb]
  exact smGet_memPut bs s.host a k

/-- The reset state's memory is canonical. -/
theorem reset_host_wf : Memory.wf State.reset.host = true := rfl

end Sys2Proof.Machine
end

