-- ==== Sys2Proof/Laws/Receive.lean ====
section
/-! SUPPORT. What the reception of a frame in sequence does before its command's own effect: only its pair changes. -/

namespace Sys2Proof.Machine

/-- A read of a map gives the default or an entry. -/
theorem smGet_mem {α : Type} (d : α) (m : SMap α) (k : Nat) : smGet d m k = d ∨ (k, smGet d m k) ∈ m := by
  induction m with
  | nil => exact .inl rfl
  | cons e m ih =>
    obtain ⟨a, x⟩ := e
    by_cases h : a = k
    · exact .inr (by simp [smGet, h])
    · simp only [smGet, if_neg h]
      exact ih.imp id (List.mem_cons_of_mem _)

/-- An entry of a map after a write is the new one or an old one. -/
theorem mem_smSet {α : Type} [DecidableEq α] {d : α} {m : SMap α} {k : Nat} {x : α} {e : Nat × α}
    (h : e ∈ smSet d m k x) : e = (k, x) ∨ e ∈ m := by
  have hd : ∀ e, e ∈ smDel m k → e ∈ m := fun e h => (List.mem_filter.1 h).1
  have hi : ∀ l : SMap α, e ∈ smIns k x l → e = (k, x) ∨ e ∈ l := by
    intro l
    induction l with
    | nil => intro h; simpa [smIns] using h
    | cons a l ih =>
      intro h
      simp only [smIns] at h
      split at h
      · simpa using h
      · rcases List.mem_cons.1 h with h | h
        · exact .inr (by simp [h])
        · exact (ih h).imp id (List.mem_cons_of_mem _)
  unfold smSet at h
  split at h
  · exact .inr (hd e h)
  · exact (hi _ h).imp id (hd e)

/-- A pair with nothing waiting. -/
theorem NoneWaiting.pair {s : State} (h : NoneWaiting s) (a : Bool) (p c : Nat) :
    (pairOf s a p c).unacked = [] ∧ (pairOf s a p c).queue = [] := by
  unfold pairOf
  rcases smGet_mem ({} : Pair) s.twn.pairs (pairKey a p c) with e | e
  · rw [e]; exact ⟨rfl, rfl⟩
  · exact h _ e

theorem pairOf_modPair (s : State) (a b : Bool) (p q c d : Nat) (f : Pair → Pair) :
    pairOf (modPair s a p c f) b q d =
      if pairKey a p c = pairKey b q d then f (pairOf s a p c) else pairOf s b q d := by
  simp only [pairOf, modPair, smGet_smSet]

theorem NoneWaiting.modPair {s : State} (h : NoneWaiting s) (a : Bool) (p c : Nat) (f : Pair → Pair)
    (hf : ∀ x, x.unacked = [] ∧ x.queue = [] → (f x).unacked = [] ∧ (f x).queue = []) : NoneWaiting (modPair s a p c f) := by
  intro e he
  rcases mem_smSet he with rfl | he
  · exact hf _ (h.pair a p c)
  · exact h e he

/-- With no frame waiting there is nothing to send. -/
theorem drainAll_none {s : State} (h : NoneWaiting s) : drainAll s = s := by
  have g : ∀ (l : List (Nat × Pair)) (t : State), (∀ x ∈ l, x.2.queue = []) →
      l.foldl (fun s (k, p) => if p.queue.isEmpty then s else drainPairs s (decide (256 ≤ k)) (k % 256 / 4) (k % 4)) t = t := by
    intro l
    induction l with
    | nil => intros; rfl
    | cons x l ih =>
      intro t hl
      have hx := hl x (by simp)
      simp only [List.foldl_cons]
      rw [show (if x.2.queue.isEmpty then t else drainPairs t (decide (256 ≤ x.1)) (x.1 % 256 / 4) (x.1 % 4)) = t by simp [hx]]
      exact ih t fun y hy => hl y (by simp [hy])
  exact g _ _ fun x hx => (h x hx).2

/-- ACK and CRLIM of a frame from whom nothing waits: at most the limit changes. -/
theorem applyAck_none {s : State} (h : NoneWaiting s) (a : Bool) (p c : Nat) (ack lim : W16) :
    applyAck s a p c ack lim =
      modPair s a p c fun x => if newer lim (x.limit c) then { x with txLim := some lim } else x := by
  have hu := (h.pair a p c).1
  have hn := h.modPair a p c (fun x => if newer lim (x.limit c) then { x with txLim := some lim } else x)
    (by intro x hx; split <;> simpa using hx)
  simp only [applyAck, hu, List.filter_nil, List.isEmpty_nil, if_true]
  simp only [ackEntries, List.filterMap_nil, List.isEmpty_nil, if_true]
  exact drainAll_none hn

/-- The first half of a reception: the frame's session is the one recorded, so nothing is noted. -/
theorem noteSession_same {s : State} {f : Frame} (h : sessOf s f.src.toNat = some f.sess) : noteSession s f = s := by
  have hn : newer f.sess f.sess = false := by simp [newer]
  simp only [noteSession, h, hn, Bool.false_eq_true, if_false]

/-- A frame in sequence that is the command's own, from no pair with waiting frames: its effect happens on a state in
which its pair alone has counted it. -/
theorem receive_inSeq {s : State} {k : Fin 8} {f : Frame} {code op : Nat} (h : InSequence s k f) (hn : NoneWaiting s)
    (ho : ownFrame code op f = true) (ht : f.ftype ≠ 0x0C) (act : State → Rx → State) (cakes : State → Frame → Bool)
    (hc : f.reb = 0 → ∀ ps : SMap Pair, cakes { s with twn := { s.twn with pairs := ps } }
      { f with payload := f.payload.take f.plen.toNat } = false) :
    ∃ ps : SMap Pair, ∃ t : State, t = { s with twn := { s.twn with pairs := ps } } ∧ NoneWaiting t ∧
      (∀ b q d, pairOf t b q d = if pairKey false f.src.toNat (fClass f) = pairKey b q d then
        { pairOf s b q d with rxNext := (pairOf s b q d).rxNext + 1, nackAt := none, dirty := true } else pairOf s b q d) ∧
      receive s k f false code op act (cakes := cakes) =
        act t { link := k, adp := false, peer := f.src.toNat, ext := rxExt s f,
                frame := { f with payload := f.payload.take f.plen.toNat } } := by
  obtain ⟨h1, h2, h3, h4, h5, h6, h7, h8, h9⟩ := h
  have hp0 : rxExt s f = (pairOf s false f.src.toNat (fClass f)).rxNext := by simp [rxExt, h8]
  have hother : otherFrame code op f = false := by simp [otherFrame, ho]
  have hopen : openPayload s (rxExt s f) f = f.payload.take f.plen.toNat := by simp [openPayload, h7]
  generalize hm : modPair s false f.src.toNat (fClass f) (fun x => x) = u
  have hu : applyAck s false f.src.toNat (fClass f) f.ack f.crlim = u := by
    rw [applyAck_none hn, ← hm]
    simp only [modPair, h9, Bool.false_eq_true, if_false]
  have hun : NoneWaiting u := hm ▸ hn.modPair _ _ _ _ fun x hx => hx
  have hup : ∀ b q d, pairOf u b q d = pairOf s b q d := by
    intro b q d
    rw [← hm, pairOf_modPair]
    split
    · next e => simp only [pairOf, e]
    · rfl
  let g : Pair → Pair := fun p => { p with rxNext := rxExt s f + 1, nackAt := none, dirty := true }
  refine ⟨(modPair u false f.src.toNat (fClass f) g).twn.pairs, modPair u false f.src.toNat (fClass f) g, ?_,
    hun.modPair _ _ _ _ fun x hx => hx, ?_, ?_⟩
  · rw [← hm]; rfl
  · intro b q d
    rw [pairOf_modPair]
    split
    · next e =>
      have e2 : pairOf s false f.src.toNat (fClass f) = pairOf s b q d := by simp only [pairOf, e]
      show { pairOf u false f.src.toNat (fClass f) with rxNext := rxExt s f + 1, nackAt := none, dirty := true } = _
      rw [hup, hp0, e2]
    · exact hup b q d
  · have hts : takeSeq u k f true (cakes u { f with payload := f.payload.take f.plen.toNat }) = (.accept (rxExt s f),
        modPair u false f.src.toNat (fClass f) g) := by
      have ha : toAdopted u f = false := by rw [← hm]; exact h5
      have hpos : rxPos u f = rxPos s f := by
        have hs : sessOf u f.src.toNat = sessOf s f.src.toNat := by rw [← hm]; rfl
        simp only [rxPos, hs, ha, h5, hup]
      have hx : rxExt u f = rxExt s f := by simp only [rxExt, hpos]
      have hb : (cakes u { f with payload := f.payload.take f.plen.toNat } && decide (f.reb = 0)) = false := by
        by_cases e : f.reb = 0
        · have hu : u = { s with twn := { s.twn with pairs := u.twn.pairs } } := by rw [← hm]; rfl
          rw [hu, hc e]; rfl
        · rw [decide_eq_false e, Bool.and_false]
      simp only [takeSeq, ha, hpos, hx, hup, h8, if_true, hb, Bool.not_true, Bool.false_eq_true, if_false]
      rfl
    simp only [receive, hother, h1, Bool.not_true, Bool.or_false, Bool.false_eq_true, if_false, h2, ne_eq, not_true_eq_false,
      decide_false, h3, if_true, h4, noteSession_same h6, h5, ht, hu, hopen, ho]
    rw [← h2, hts]

end Sys2Proof.Machine
end

