-- ==== Sys2Proof/Laws/Security.lean ====
section
/-! SUPPORT. What the operations on the SEC page and on power keep: the soundness of the SEC page (Safety.lean), and the
queue of waiting commands. -/

namespace Sys2Proof.Machine

/-! ### Soundness of the SEC page -/

theorem secOk_of_keys {x y : Sec} (h : secOk x) (h1 : y.lk = x.lk) (h2 : y.dbglvl = x.dbglvl) (h3 : y.dbgmax = x.dbgmax)
    (h4 : y.fwLock = x.fwLock) (h5 : y.fwFail = x.fwFail) (h6 : y.lcs = x.lcs) (h7 : y.lcsbad = x.lcsbad) : secOk y := by
  unfold secOk at *; rw [h1, h2, h3, h4, h5, h6, h7]; exact h

theorem secOk_erase (s : State) (i : Fin 2) (c : Nat) (h : secOk s.sec) :
   secOk (traceKey (modSec s fun x => { x with lk := vset x.lk i {} }) i.1 3 c (vget s.sec.lk i).kid).sec := by
  simp only [keep_traceKey, modSec_sec]
  refine ⟨?_, h.2⟩
  intro j
  simp only [vget_vset]
  split
  · intro; exact ⟨rfl, rfl, rfl⟩
  · exact h.1 j

theorem foldl_secOk {α : Type} (g : State → α → State) (h : ∀ s x, secOk s.sec → secOk (g s x).sec) (l : List α) :
    ∀ s : State, secOk s.sec → secOk (l.foldl g s).sec := by
  induction l with
  | nil => intro s hs; exact hs
  | cons a t ih => intro s hs; exact ih _ (h _ _ hs)

theorem sec_eraseKeys (s : State) (w c) (h : secOk s.sec) : secOk (eraseKeys s w c).sec := by
  unfold eraseKeys; simp only []
  have k := foldl_secOk (fun s (i : Fin 2) => traceKey (modSec s fun x => { x with lk := vset x.lk i {} }) i.1 3 c (vget s.sec.lk i).kid)
    (fun s i hs => secOk_erase s i c hs) ((List.finRange 2).filter w) s h
  generalize List.foldl _ _ _ = t at k ⊢
  split
  · split
    · simp only [keep_raiseInt, keep_modPins, modSec_sec]; exact secOk_of_keys k rfl rfl rfl rfl rfl rfl rfl
    · exact secOk_of_keys k rfl rfl rfl rfl rfl rfl rfl
  · exact secOk_of_keys k rfl rfl rfl rfl rfl rfl rfl
theorem sec_setLevel (s : State) (v c) (h : secOk s.sec) (hv : v.toNat ≤ s.sec.dbgmax.toNat) : secOk (setLevel s v c).sec := by
  unfold setLevel; simp only []
  split
  · simp only [keep_unhalt, modSec_sec]; exact ⟨h.1, hv, h.2.2⟩
  · exact ⟨h.1, hv, h.2.2⟩
theorem sec_endSession (s : State) (c) (h : secOk s.sec) : secOk (endSession s c).sec := sec_setLevel _ _ _ h (by simp)

theorem secOk_default (x : Sec) (h1 : x.lk = Vector.replicate 2 {}) (h2 : x.dbglvl = 0) (h3 : x.fwLock = decide (x.fwFail = 3))
    (h4 : x.lcsbad = true → x.lcs = lcsRma) : secOk x := by
  refine ⟨?_, ?_, h3, h4⟩
  · intro i _; rw [h1]; simp [vget]
  · rw [h2]; simp
theorem sec_loseCore (s : State) (h : secOk s.sec) : secOk (loseCore s).sec := secOk_default _ rfl rfl h.2.2.1 h.2.2.2
theorem sec_eraseBoth (s : State) (c) (h : secOk s.sec) : secOk (eraseBoth s c).sec := sec_eraseKeys s _ c h
theorem sec_retained (s : State) (c) (h : secOk s.sec) : secOk (retained s c).sec := by
  unfold retained; simp only [keep_suppliesOff]; apply sec_loseCore; simpa using h
theorem sec_retainGo (s : State) (h : secOk s.sec) : secOk (retainGo s).sec := by
  unfold retainGo; (repeat' split) <;> first | exact h | exact sec_retained _ _ h | exact sec_retained _ _ (sec_eraseBoth _ _ h)
theorem sec_retainCommand (s : State) (h : secOk s.sec) : secOk (retainCommand s).sec := by
  unfold retainCommand; split
  · simpa using h
  · apply sec_retainGo; simp only [keep_modPwr]; simp only [keep_suppliesOff]; apply sec_eraseBoth; simp; exact sec_endSession _ _ h
theorem sec_command (bad : List Nat) (s : State) (f : State → State) (h : ∀ s, secOk s.sec → secOk (f s).sec) (hs : secOk s.sec) :
    secOk (command bad s f).sec := by
  unfold command; simp only []; split
  · exact hs
  · split
    · simp only [keep_endRemote]; exact h _ hs
    · simp only [keep_sendRdreqs]; exact hs
theorem sec_commandAs (w : Agent) (bad : List Nat) (s : State) (f : State → State) (h : ∀ s, secOk s.sec → secOk (f s).sec)
    (hs : secOk s.sec) : secOk (commandAs w bad s f).sec := sec_command _ _ _ (fun _ h2 => h _ h2) hs
theorem sec_pfWarn (s : State) (o) (h : secOk s.sec) : secOk (pfWarn s o).sec := by
  unfold pfWarn; simp only []; split
  · exact h
  · apply sec_retainGo; simp only [keep_modFlt, keep_pfPush, keep_trimTail, keep_writeCkpt]
    split <;> simp <;> exact sec_endSession _ _ h
theorem sec_reading (s : State) (i r) (h : secOk s.sec) : secOk (reading s i r).sec := by
  unfold reading; simp only []; split
  · exact h
  · split
    · refine sec_command _ _ _ (fun u hs => sec_pfWarn u _ hs) ?_; simp; (repeat' split) <;> simpa using h
    · (repeat' split) <;> simpa using h
theorem sec_aonLoss (s : State) : secOk (aonLoss s).sec := secOk_default _ rfl rfl (by rfl) (by simp [aonLoss, State.reset])
theorem sec_takeoverEnd (s : State) (n) (h : secOk s.sec) : secOk (takeoverEnd s n).sec := by
  unfold takeoverEnd; simp only [keep_raiseInt, modSec_sec]
  refine ⟨?_, h.2⟩
  intro i; simp only [vget_map]; exact h.1 i
theorem sec_telemRun (s : State) (m) (h : secOk s.sec) : secOk (telemRun s m).sec := by
  unfold telemRun; exact foldl_secOk _ (fun s i hs => sec_reading s i _ hs) _ _ (by simpa using h)
theorem sec_tideStart (s : State) (e m) (h : secOk s.sec) : secOk (tideStart s e m).sec := by
  unfold tideStart tideTask; simp only []
  split <;> first | (simpa using h) | exact sec_telemRun _ _ (by simpa using h) | (split <;> simpa using h)
theorem sec_fwGo (s : State) (h : secOk s.sec) : secOk (fwGo s).sec := by
  have k : secOk { s.sec with fwRun := true } := h
  unfold fwGo; simp only []; split
  · simpa using h
  · split
    · rw [(keep_raiseInt _ _).1]; exact h
    · split <;> exact k
theorem sec_keyResult (s : State) (r) (h : secOk s.sec) : secOk (keyResult s r).sec := by
  unfold keyResult; simp [modSec_sec]; exact h
theorem sec_keyRefused (s : State) (h : secOk s.sec) : secOk (keyRefused s).sec := sec_keyResult _ _ (by simpa using h)
theorem sec_keyCommand (s : State) (i f) (h : secOk s.sec) (hf : ∀ s, secOk s.sec → secOk (f s).sec) : secOk (keyCommand s i f).sec := by
  unfold keyCommand; (repeat' split) <;> first | exact sec_keyResult _ _ h | exact sec_keyRefused _ h | exact hf _ h
theorem sec_keyErase (s : State) (i) (h : secOk s.sec) : secOk (keyErase s i).sec :=
  sec_keyCommand _ _ _ h fun _ hs => sec_keyResult _ _ (sec_eraseKeys _ _ _ hs)
theorem sec_keyLoad (s : State) (i) (h : secOk s.sec) : secOk (keyLoad s i).sec := by
  refine sec_keyCommand _ _ _ h fun s hs => ?_
  split
  · exact sec_keyRefused _ hs
  · simp [modSec_sec]; exact hs
theorem sec_keyEnd (s : State) (i k r) (h : secOk s.sec) : secOk (keyEnd s i k r).sec := by
  unfold keyEnd; apply sec_keyResult; simp [modSec_sec]; exact h
theorem sec_keyAck (s : State) (i b) (h : secOk s.sec) : secOk (keyAck s i b).sec := by
  unfold keyAck; split
  · exact h
  · split
    · simp only [keep_drainAll]; apply sec_keyEnd; refine ⟨?_, h.2⟩
      intro j; simp only [modSec, vget_vset]; split
      · simp
      · exact h.1 j
    · exact sec_keyEnd _ _ _ _ h
theorem sec_txkselWrite (s : State) (i) (h : secOk s.sec) : secOk (txkselWrite s i).sec := by
  unfold txkselWrite; (repeat' split) <;> simp [modSec_sec] <;> exact h
theorem sec_dbgmaxWrite (s : State) (v) (h : secOk s.sec) : secOk (dbgmaxWrite s v).sec := by
  unfold dbgmaxWrite; simp only []; split
  · simpa using h
  · split
    · unfold setLevel; simp only []; split <;> simp [modSec_sec] <;> exact ⟨h.1, Nat.le_refl _, h.2.2⟩
    · next h1 => exact ⟨h.1, by simp [modSec_sec] at *; omega, h.2.2⟩
theorem eraseBoth_dbgmax (s : State) (c : Nat) : (eraseBoth s c).sec.dbgmax = s.sec.dbgmax := by
  have k : ∀ (l : List (Fin 2)) (t : State), (l.foldl (fun s (i : Fin 2) => traceKey (modSec s fun x => { x with lk := vset x.lk i {} })
      i.1 3 c (vget s.sec.lk i).kid) t).sec.dbgmax = t.sec.dbgmax := by
    intro l
    induction l with
    | nil => intro t; rfl
    | cons a l ih => intro t; rw [List.foldl_cons, ih]; simp
  have kk := k ((List.finRange 2).filter fun _ => true) s
  unfold eraseBoth eraseKeys; simp only []
  generalize List.foldl _ _ _ = u at kk ⊢
  split
  · split <;> simpa using kk
  · simpa using kk
theorem sec_debugGrant (s : State) (v) (h : secOk s.sec) : secOk (debugGrant s v).sec := by
  unfold debugGrant; simp only []; split
  · exact h
  · simp only [keep_modPins]
    have hl : (grantLevel s v).toNat ≤ s.sec.dbgmax.toNat := by
      unfold grantLevel; simp only [BitVec.toNat_ofNat]; have := s.sec.dbgmax.isLt
      exact Nat.le_trans (Nat.mod_le _ _) (Nat.min_le_right _ _)
    split
    · apply sec_setLevel
      · simp [modSec_sec]; exact sec_eraseBoth _ _ h
      · rw [(keep_enterFenced _).1, modSec_sec]; rw [eraseBoth_dbgmax]; exact hl
    · exact sec_setLevel _ _ _ h hl
theorem sec_lcsChange (s : State) (v) (h : secOk s.sec) : secOk (lcsChange s v).sec := by
  unfold lcsChange; simp only []; split
  · exact h
  · exact sec_endSession _ _ (sec_eraseBoth _ _ h)
theorem lock_rule : ∀ z : BitVec 2, (decide (z = 3) || decide (2 ≤ z.toNat)) = decide (satAdd z 1 = 3) := by decide
theorem sec_fwLoadDone (s : State) (h : secOk s.sec) : secOk (fwLoadDone s).sec := by
  unfold fwLoadDone; split
  · exact h
  · split; next r hh p t heq =>
    have ht := (keep_fwCheck' _ heq).1
    have h' : secOk t.sec := by rw [ht]; exact h
    simp only []
    split
    · split <;> simp [modSec_sec] <;> exact h'
    · have hk : secOk { t.sec with fwRun := false, fwRes := BitVec.ofNat 4 r, fwFail := satAdd t.sec.fwFail 1, fwLock := t.sec.fwLock || decide (2 ≤ t.sec.fwFail.toNat) } := by
        refine ⟨h'.1, h'.2.1, ?_, h'.2.2.2⟩
        have k := h'.2.2.1
        simp only [k]
        exact lock_rule t.sec.fwFail
      split <;> simp [modSec_sec] <;> exact hk
theorem sec_coldClear (s : State) : secOk (coldClear s).sec := secOk_default _ rfl rfl (by rfl) (by simp [coldClear, State.reset])
theorem sec_sampleLcs (s : State) (a b c) (h : secOk s.sec) : secOk (sampleLcs s a b c).sec := by
  unfold sampleLcs lcsOf; simp only []
  refine ⟨?_, ?_, ?_, ?_⟩
  · split <;> exact h.1
  · split <;> simp [modSec, modPins] <;> split <;> simp
  · split <;> exact h.2.2.1
  · split <;> simp [modSec_sec]
theorem sec_coldStart (s : State) (a b c) : secOk (coldStart s a b c).sec := by
  unfold coldStart; simp; exact sec_sampleLcs _ _ _ _ (sec_coldClear s)
theorem sec_warmClear (s : State) (h : secOk s.sec) : secOk (warmClear s).sec := by
  unfold warmClear; simp; exact h
theorem sec_warmStart (s : State) (h : secOk s.sec) : secOk (warmStart s).sec := by
  unfold warmStart; simp only [modSec_sec]
  have k : secOk (warmClear (endSession (abandonAll (abortTests s)) 3)).sec := sec_warmClear _ (sec_endSession _ _ (by simpa using h))
  split <;> exact k

/-! ### The queue of waiting commands -/

theorem pend_command (bad : List Nat) (s : State) (f : State → State) (h : ∀ s, (f s).pending = s.pending) :
    (command bad s f).pending = s.pending := by
  unfold command; simp only []; (repeat' split) <;> simp [h, State.begin]
theorem pend_commandAs (w : Agent) (bad : List Nat) (s : State) (f : State → State) (h : ∀ s, (f s).pending = s.pending) :
    (commandAs w bad s f).pending = s.pending := pend_command _ _ _ fun _ => h _
@[simp] theorem pend_keyCommand (s : State) (slot : Fin 2) (f : State → State) (h : ∀ s, (f s).pending = s.pending) :
    (keyCommand s slot f).pending = s.pending := by
  unfold keyCommand keyRefused keyResult; (repeat' split) <;> simp [h]
@[simp] theorem pend_pcmd (s : State) (f : State → State) (h : ∀ s, (f s).pending = s.pending) : (pcmd s f).pending = s.pending := by
  unfold pcmd; split <;> simp [h]
@[simp] theorem pend_eraseKeys (s : State) (which : Fin 2 → Bool) (cause : Nat) : (eraseKeys s which cause).pending = s.pending := by
  unfold eraseKeys; simp only []; (repeat' split) <;> simp
@[simp] theorem pend_eraseBoth (s : State) (cause : Nat) : (eraseBoth s cause).pending = s.pending := by
  first | (simp [eraseBoth]; done) | (unfold eraseBoth; simp only []; (repeat' split) <;> simp)
@[simp] theorem pend_fwGo (s : State) : (fwGo s).pending = s.pending := by
  first | (simp [fwGo]; done) | (unfold fwGo; simp only []; (repeat' split) <;> simp)
@[simp] theorem pend_keyResult (s : State) (r : BitVec 3) : (keyResult s r).pending = s.pending := by
  first | (simp [keyResult]; done) | (unfold keyResult; simp only []; (repeat' split) <;> simp)
@[simp] theorem pend_keyRefused (s : State) : (keyRefused s).pending = s.pending := by
  first | (simp [keyRefused]; done) | (unfold keyRefused; simp only []; (repeat' split) <;> simp)
@[simp] theorem pend_keyErase (s : State) (slot : Fin 2) : (keyErase s slot).pending = s.pending := by
  first | (simp [keyErase]; done) | (unfold keyErase; simp only []; (repeat' split) <;> simp)
@[simp] theorem pend_setLevel (s : State) (v : BitVec 2) (cause : Nat) : (setLevel s v cause).pending = s.pending := by
  first | (simp [setLevel]; done) | (unfold setLevel; simp only []; (repeat' split) <;> simp)
@[simp] theorem pend_endSession (s : State) (cause : Nat) : (endSession s cause).pending = s.pending := by
  first | (simp [endSession]; done) | (unfold endSession; simp only []; (repeat' split) <;> simp)
@[simp] theorem pend_loseCore (s : State) : (loseCore s).pending = s.pending := by
  first | (simp [loseCore]; done) | (unfold loseCore; simp only []; (repeat' split) <;> simp)
@[simp] theorem pend_retained (s : State) (cause : Nat) : (retained s cause).pending = s.pending := by
  first | (simp [retained]; done) | (unfold retained; simp only []; (repeat' split) <;> simp)
@[simp] theorem pend_retainGo (s : State) : (retainGo s).pending = s.pending := by
  first | (simp [retainGo]; done) | (unfold retainGo; simp only []; (repeat' split) <;> simp)
@[simp] theorem pend_retainCommand (s : State) : (retainCommand s).pending = s.pending := by
  first | (simp [retainCommand]; done) | (unfold retainCommand; simp only []; (repeat' split) <;> simp)
@[simp] theorem pend_fwLoadDone (s : State) : (fwLoadDone s).pending = s.pending := by
  first | (simp [fwLoadDone]; done) | (unfold fwLoadDone; simp only []; (repeat' split) <;> simp)
@[simp] theorem pend_keyLoad (s : State) (slot : Fin 2) : (keyLoad s slot).pending = s.pending := by
  first | (simp [keyLoad]; done) | (unfold keyLoad; simp only []; (repeat' split) <;> simp)
@[simp] theorem pend_txkselWrite (s : State) (slot : Fin 2) : (txkselWrite s slot).pending = s.pending := by
  first | (simp [txkselWrite]; done) | (unfold txkselWrite; simp only []; (repeat' split) <;> simp)
@[simp] theorem pend_dbgmaxWrite (s : State) (v : BitVec 2) : (dbgmaxWrite s v).pending = s.pending := by
  first | (simp [dbgmaxWrite]; done) | (unfold dbgmaxWrite; simp only []; (repeat' split) <;> simp)
@[simp] theorem pend_sampleLcs (s : State) (lcs : BitVec 4) (svn : BitVec 6) (revoke : BitVec 4) : (sampleLcs s lcs svn revoke).pending = s.pending := by
  first | (simp [sampleLcs]; done) | (unfold sampleLcs; simp only []; (repeat' split) <;> simp)
@[simp] theorem pend_coldClear (s : State) : (coldClear s).pending = s.pending := by
  first | (simp [coldClear]; done) | (unfold coldClear; simp only []; (repeat' split) <;> simp)
@[simp] theorem pend_coldStart (s : State) (lcs : BitVec 4) (svn : BitVec 6) (revoke : BitVec 4) : (coldStart s lcs svn revoke).pending = s.pending := by
  first | (simp [coldStart]; done) | (unfold coldStart; simp only []; (repeat' split) <;> simp)
@[simp] theorem pend_warmClear (s : State) : (warmClear s).pending = s.pending := by
  first | (simp [warmClear]; done) | (unfold warmClear; simp only []; (repeat' split) <;> simp)
@[simp] theorem pend_warmStart (s : State) : (warmStart s).pending = s.pending := by
  first | (simp [warmStart]; done) | (unfold warmStart; simp only []; (repeat' split) <;> simp)
@[simp] theorem pend_pfWarn (s : State) (other : Bool) : (pfWarn s other).pending = s.pending := by
  first | (simp [pfWarn]; done) | (unfold pfWarn; simp only []; (repeat' split) <;> simp)
@[simp] theorem pend_reading (s : State) (sensor : Fin 17) (r : W16) : (reading s sensor r).pending = s.pending := by
  unfold reading; simp only []; (repeat' split) <;> first | rfl | simp | (rw [pend_command _ _ _ fun s => pend_pfWarn s _]; simp)
@[simp] theorem pend_lcsChange (s : State) (v : BitVec 4) : (lcsChange s v).pending = s.pending := by
  first | (simp [lcsChange]; done) | (unfold lcsChange; simp only []; (repeat' split) <;> simp)
@[simp] theorem pend_debugGrant (s : State) (v : BitVec 2) : (debugGrant s v).pending = s.pending := by
  first | (simp [debugGrant]; done) | (unfold debugGrant; simp only []; (repeat' split) <;> simp)
@[simp] theorem pend_keyEnd (s : State) (slot : Fin 2) (kid : W32) (r : BitVec 3) : (keyEnd s slot kid r).pending = s.pending := by
  first | (simp [keyEnd]; done) | (unfold keyEnd; simp only []; (repeat' split) <;> simp)
@[simp] theorem pend_keyAck (s : State) (sts : BitVec 2) (beats : List W64) : (keyAck s sts beats).pending = s.pending := by
  unfold keyAck; (repeat' split) <;> simp
@[simp] theorem pend_takeoverEnd (s : State) (num : Nat) : (takeoverEnd s num).pending = s.pending := by
  first | (simp [takeoverEnd]; done) | (unfold takeoverEnd; simp only []; (repeat' split) <;> simp)
@[simp] theorem pend_telemRun (s : State) (m : Meas) : (telemRun s m).pending = s.pending := by
  first | (simp [telemRun]; done) | (unfold telemRun; simp only []; (repeat' split) <;> simp)
@[simp] theorem pend_tideTask (s : State) (task : Nat) (fsalt : Fin 8) (m : Meas) : (tideTask s task fsalt m).pending = s.pending := by
  unfold tideTask; (repeat' split) <;> simp
@[simp] theorem pend_tideStart (s : State) (e : Fin 16) (m : Meas) : (tideStart s e m).pending = s.pending := by
  first | (simp [tideStart]; done) | (unfold tideStart; simp only []; (repeat' split) <;> simp)
@[simp] theorem pend_aonLoss (s : State) : (aonLoss s).pending = s.pending := by
  first | (simp [aonLoss]; done) | (unfold aonLoss; simp only []; (repeat' split) <;> simp)
@[simp] theorem pend_pcmdWrite (s : State) (v : Nat) : (pcmdWrite s v).pending = s.pending := by
  unfold pcmdWrite; (repeat' split) <;> simp
@[simp] theorem pend_kcmdWrite (s : State) (v : Nat) : (kcmdWrite s v).pending = s.pending := by
  unfold kcmdWrite; (repeat' split) <;> simp

/-! ### Register writes -/

theorem sec_takeCore (s : State) (h : secOk s.sec) : secOk (takeCore s).sec := by
  unfold takeCore; simp; exact sec_eraseBoth _ _ h
@[simp] theorem pend_takeCore (s : State) : (takeCore s).pending = s.pending := by
  first | (simp [takeCore]; done) | (unfold takeCore; simp only []; (repeat' split) <;> simp)

/-- A row whose write keeps the SEC page sound and the queue as it was. -/
structure SoundRow (r : RegRow) : Prop where
  sec : ∀ s v, secOk s.sec → secOk (r.2.put s v).sec
  queue : ∀ s v, (r.2.put s v).pending = s.pending

theorem KeepRow.sound {r : RegRow} (h : KeepRow r) : SoundRow r :=
  ⟨fun s v hs => by rw [(h.out s v).1]; exact hs, fun s v => (h.out s v).2⟩

theorem sound_w1 (o lo : Nat) (g) (a : State → State) (h1 : ∀ s, secOk s.sec → secOk (a s).sec) (h2 : ∀ s, (a s).pending = s.pending) :
    SoundRow (w1 o lo g a) := by
  constructor
  · intro s v hs; unfold w1; simp only []; split
    · exact h1 s hs
    · exact hs
  · intro s v; unfold w1; simp only []; split
    · exact h2 s
    · rfl
theorem sound_rw (o lo w : Nat) (g) (p : State → Nat → State) (b) (h1 : ∀ s v, secOk s.sec → secOk (p s v).sec)
    (h2 : ∀ s v, (p s v).pending = s.pending) : SoundRow (rw o lo w g p b) := ⟨h1, h2⟩
theorem sound_wo (o lo w : Nat) (p : State → Nat → State) (b) (h1 : ∀ s v, secOk s.sec → secOk (p s v).sec)
    (h2 : ∀ s v, (p s v).pending = s.pending) : SoundRow (wo o lo w p b) := ⟨h1, h2⟩

theorem sec_pcmd (s : State) (f : State → State) (h : secOk s.sec) (hf : ∀ s, secOk s.sec → secOk (f s).sec) :
    secOk (pcmd s f).sec := by
  unfold pcmd; split
  · simpa using h
  · exact hf s h
theorem sec_pcmdWrite (s : State) (v : Nat) (h : secOk s.sec) : secOk (pcmdWrite s v).sec := by
  unfold pcmdWrite; split
  · exact sec_pcmd _ _ h fun s hs => by simpa using hs
  · exact sec_pcmd _ _ h fun s hs => by simpa using hs
  · exact sec_pcmd _ _ h fun s hs => sec_retainCommand s hs
  · exact h
theorem sec_kcmdWrite (s : State) (v : Nat) (h : secOk s.sec) : secOk (kcmdWrite s v).sec := by
  unfold kcmdWrite; simp only []; split
  · exact sec_keyLoad _ _ h
  · exact sec_keyErase _ _ h
  · exact h

theorem sound_pwrRegs : ∀ r ∈ pwrRegs, SoundRow r := by
  unfold pwrRegs; simp only [List.forall_mem_cons]
  (repeat' apply And.intro) <;> first
    | (intro _ h; cases h; done)
    | (apply KeepRow.sound; apply keep_ro)
    | (apply sound_wo; exact fun s v h => sec_pcmdWrite s v h; exact fun s v => by simp)
    | (apply KeepRow.sound; (first | apply keep_w1 | apply keep_rw | apply keep_rwl) <;> (intros; simp))

theorem sound_secRegs : ∀ r ∈ secRegs, SoundRow r := by
  unfold secRegs; simp only [List.forall_mem_cons]
  (repeat' apply And.intro) <;> first
    | (intro _ h; cases h; done)
    | (apply KeepRow.sound; apply keep_ro)
    | exact sound_wo _ _ _ _ _ (fun s v h => sec_kcmdWrite s v h) (fun s v => by simp)
    | exact sound_w1 _ _ _ _ (fun s h => sec_fwGo s h) (fun s => by simp)
    | exact sound_rw _ _ _ _ _ _ (fun s v h => sec_txkselWrite s _ h) (fun s v => by simp)
    | exact sound_rw _ _ _ _ _ _ (fun s v h => sec_dbgmaxWrite s _ h) (fun s v => by simp)
    | exact sound_w1 _ _ _ _ (fun s h => h) (fun s => rfl)
    | exact sound_rw _ _ _ _ _ _ (fun s v h => h) (fun s v => rfl)

theorem sound_pageRows (p : PageId) (o : Nat) : ∀ r ∈ pageRows p o, SoundRow r := by
  by_cases h : o < 0x40 ∨ (p ≠ .sec ∧ p ≠ .pwr)
  · exact fun r hr => (keep_pageRows p o h r hr).sound
  · have ho : ¬o < 0x40 := fun e => h (.inl e)
    have hp : p = .sec ∨ p = .pwr := by
      by_cases h1 : p = .sec
      · exact .inl h1
      · by_cases h2 : p = .pwr
        · exact .inr h2
        · exact absurd (.inr ⟨h1, h2⟩) h
    unfold pageRows
    rw [if_neg ho]
    obtain rfl | rfl := hp
    · simp only [secPage]
      split
      · simp only [List.forall_mem_cons]; exact ⟨(keep_ro _ _ _ _).sound, fun _ h => by cases h⟩
      · exact sound_secRegs
    · exact sound_pwrRegs

theorem sec_writeFields (s : State) (p : PageId) (o w : Nat) (fs : List (RegF × Nat))
    (hf : ∀ x ∈ fs, ∀ s v, secOk s.sec → secOk (x.1.put s v).sec) (h : secOk s.sec) : secOk (writeFields s p o w fs).sec := by
  have k : ∀ (l : List (RegF × Nat)) (t : State), (∀ x ∈ l, x ∈ fs) → secOk t.sec →
      secOk (l.foldl (fun t x => if (dropCause s w x.1 x.2).isSome then t else x.1.put t x.2) t).sec := by
    intro l
    induction l with
    | nil => intro t _ ht; exact ht
    | cons a l ih =>
      intro t hl ht
      refine ih _ (fun x hx => hl x (List.mem_cons_of_mem _ hx)) ?_
      dsimp only
      split
      · exact ht
      · exact hf a (hl a List.mem_cons_self) _ _ ht
  unfold writeFields; simp only []
  split
  · simp only [keep_answer, keep_modHdr]; refine k fs _ (fun _ h => h) ?_; split <;> simpa using h
  · simp only [keep_modHdr]; refine k fs _ (fun _ h => h) ?_; split <;> simpa using h
theorem pend_writeFields (s : State) (p : PageId) (o w : Nat) (fs : List (RegF × Nat))
    (hf : ∀ x ∈ fs, ∀ s v, (x.1.put s v).pending = s.pending) : (writeFields s p o w fs).pending = s.pending := by
  have k : ∀ (l : List (RegF × Nat)) (t : State), (∀ x ∈ l, x ∈ fs) →
      (l.foldl (fun t x => if (dropCause s w x.1 x.2).isSome then t else x.1.put t x.2) t).pending = t.pending := by
    intro l
    induction l with
    | nil => intro t _; rfl
    | cons a l ih =>
      intro t hl
      rw [List.foldl_cons, ih _ fun x hx => hl x (List.mem_cons_of_mem _ hx)]
      split
      · rfl
      · exact hf a (hl a List.mem_cons_self) _ _
  unfold writeFields; simp only []
  split
  · simp only [keep_answer, keep_modHdr]; rw [k fs _ fun _ h => h]; split <;> simp
  · simp only [keep_modHdr]; rw [k fs _ fun _ h => h]; split <;> simp

theorem sound_fieldsAt (p : PageId) (o : Nat) {f : RegF} (h : f ∈ fieldsAt p o) : ∃ a, SoundRow (a, f) := by
  unfold fieldsAt at h
  obtain ⟨r, hr, he⟩ := List.mem_filterMap.1 h
  split at he
  · injection he with he; subst he; exact ⟨r.1, sound_pageRows p o r hr⟩
  · cases he
theorem sound_highAt (p : PageId) (o : Nat) {f : RegF} (h : highAt p o = some f) : ∃ a, SoundRow (a, f) := by
  unfold highAt at h
  split at h
  · cases h
  · unfold wideAt at h
    obtain ⟨r, hr, he⟩ := List.exists_of_findSome?_eq_some h
    split at he
    · injection he with he; subst he; exact ⟨r.1, sound_pageRows p _ r hr⟩
    · cases he

/-- A control port write of any page keeps the SEC page sound. -/
theorem sec_writeReg (s : State) (p : PageId) (o : Nat) (v : W32) (h : secOk s.sec) : secOk (writeReg s p o v).sec := by
  unfold writeReg
  split
  · simpa using h
  · split
    · next f hf =>
      obtain ⟨a, ha⟩ := sound_highAt p o hf
      refine sec_writeFields _ _ _ _ _ ?_ (by simpa using h)
      intro x hx; rw [List.mem_singleton.1 hx]; exact ha.sec
    · refine sec_writeFields _ _ _ _ _ ?_ h
      intro x hx
      obtain ⟨f, hf, rfl⟩ := List.mem_map.1 hx
      obtain ⟨a, ha⟩ := sound_fieldsAt p o hf
      exact ha.sec
/-- A control port write of any page leaves the queue alone. -/
theorem pend_writeReg (s : State) (p : PageId) (o : Nat) (v : W32) : (writeReg s p o v).pending = s.pending := by
  unfold writeReg
  split
  · simp
  · split
    · next f hf =>
      obtain ⟨a, ha⟩ := sound_highAt p o hf
      rw [pend_writeFields _ _ _ _ _ fun x hx => by rw [List.mem_singleton.1 hx]; exact ha.queue]; simp
    · refine pend_writeFields _ _ _ _ _ ?_
      intro x hx
      obtain ⟨f, hf, rfl⟩ := List.mem_map.1 hx
      obtain ⟨a, ha⟩ := sound_fieldsAt p o hf
      exact ha.queue

end Sys2Proof.Machine
end

