-- ==== Sys2Proof/Laws/Shells.lean ====
section
/-! SUPPORT. The relation that every command keeps, the queue unchanged and the SEC page sound, through the shells that
commands run in: requests to the control port, host access, frames, debug commands, power commands, the access window. -/

namespace Sys2Proof.Machine

/-- The queue is unchanged, and a sound SEC page stays sound. -/
structure Keeps (s t : State) : Prop where
  queue : t.pending = s.pending
  sound : secOk s.sec → secOk t.sec

theorem Keeps.of_eq {s t : State} (h : t.sec = s.sec ∧ t.pending = s.pending) : Keeps s t := ⟨h.2, fun hs => h.1 ▸ hs⟩
theorem Keeps.refl (s : State) : Keeps s s := ⟨rfl, id⟩
theorem Keeps.trans {s t u : State} (h : Keeps s t) (k : Keeps t u) : Keeps s u :=
  ⟨k.queue.trans h.queue, fun hs => k.sound (h.sound hs)⟩

/-- A request to the control port. -/
theorem Keeps.cpDo {s : State} {p : Option PageId} {f : State → State} (h : ∀ s, Keeps s (f s)) :
    Keeps s (Sys2Proof.Machine.cpDo s p f) := by
  unfold Sys2Proof.Machine.cpDo
  (repeat' split) <;> first | (apply Keeps.of_eq; simp; done) | exact Keeps.trans (Keeps.of_eq (by simp)) (h _)

/-- A command with its host lines. -/
theorem Keeps.command {b : List Nat} {s : State} {f : State → State} (h : ∀ s, Keeps s (f s)) :
    Keeps s (Sys2Proof.Machine.command b s f) :=
  ⟨pend_command _ _ _ fun s => (h s).queue, fun hs => sec_command _ _ _ (fun s => (h s).sound) hs⟩

/-- A command of a unit. -/
theorem Keeps.commandAs {w : Agent} {b : List Nat} {s : State} {f : State → State} (h : ∀ s, Keeps s (f s)) :
    Keeps s (Sys2Proof.Machine.commandAs w b s f) :=
  ⟨pend_commandAs _ _ _ _ fun s => (h s).queue, fun hs => sec_commandAs _ _ _ _ (fun s => (h s).sound) hs⟩

/-- A received frame. -/
theorem Keeps.receive {s : State} {k : Fin 8} {f : Frame} {lost : Bool} {code op : Nat} {act : State → Rx → State}
    {cakes : State → Frame → Bool} (h1 : ∀ s x, Keeps s (act s x)) :
    Keeps s (Sys2Proof.Machine.receive s k f lost code op act cakes) := by
  unfold Sys2Proof.Machine.receive
  simp only []
  have h0 : Keeps s (if bufferFree s k f = true then s else modLkR s k fun r => { r with noroom := satAdd r.noroom 1 }) := by
    split <;> exact .of_eq (by simp)
  split
  · exact .of_eq (by simp)
  · split
    · exact .of_eq (by simp)
    · generalize (if bufferFree s k f = true then s else modLkR s k fun r => { r with noroom := satAdd r.noroom 1 }) = t at h0 ⊢
      refine h0.trans ?_
      split
      · split <;> exact .of_eq (by simp)
      · generalize hu : noteSession t f = u
        have h3 : Keeps t u := by rw [← hu]; exact .of_eq (by simp)
        have h4 := fun a p c k l => Keeps.of_eq (keep_applyAck u a p c k l)
        refine h3.trans ?_
        split
        · split
          · exact (h4 _ _ _ _ _).trans ((Keeps.of_eq (keep_takeSeq _ _ _ _ _)).trans (h1 _ _))
          · exact (h4 _ _ _ _ _).trans (.of_eq (keep_takeSeq _ _ _ _ _))
        · exact (h4 _ _ _ _ _).trans (.of_eq (keep_takeSeq _ _ _ _ _))

/-- A frame of class D that was accepted. -/
theorem Keeps.takeD {s : State} {act : State → Rx → Bool × State} {x : Rx}
    (h : ∀ s x, (act s x).2.sec = s.sec ∧ (act s x).2.pending = s.pending) : Keeps s (Sys2Proof.Machine.takeD act s x) := by
  unfold Sys2Proof.Machine.takeD
  simp only []
  (repeat' split) <;> (apply Keeps.of_eq; simp [h]; done)

/-- An LCTL frame. -/
theorem Keeps.receiveLctl {s : State} {k : Fin 8} {f : Frame} {lost : Bool} {op : Nat} {act : State → State}
    (h : ∀ s, Keeps s (act s)) : Keeps s (Sys2Proof.Machine.receiveLctl s k f lost op act) := by
  unfold Sys2Proof.Machine.receiveLctl
  (repeat' split) <;> first | (apply Keeps.of_eq; simp; done) | exact h _

/-- An invasive debug command. -/
theorem Keeps.invasive {s : State} {f : State → State} (h : ∀ s, Keeps s (f s)) : Keeps s (Sys2Proof.Machine.invasive s f) := by
  unfold Sys2Proof.Machine.invasive
  split
  · exact h s
  · (apply Keeps.of_eq; simp; done)

/-- A power command. -/
theorem Keeps.pcmd {s : State} {f : State → State} (h : ∀ s, Keeps s (f s)) : Keeps s (Sys2Proof.Machine.pcmd s f) := by
  unfold Sys2Proof.Machine.pcmd
  split
  · (apply Keeps.of_eq; simp; done)
  · exact h s

end Sys2Proof.Machine
end

