-- ==== Sys2Proof/WellFormed.lean ====
section
/-! DEFINITION. Which commands are well formed: the fields of a received frame have the sizes of R325 and R326, and
the listed host lines lie in a 64-bit address space. -/

namespace Sys2Proof

open Sys2Proof.Machine

/-- A frame as it can be received: 12 type-specific bytes, a 16-byte tag, PLEN at most 4096 and a payload padded to the
next multiple of 64 bytes (R325). -/
def frameWf (f : Frame) : Bool :=
  f.tspec.length == 12 && f.tag.length == 16 && f.payload.length == (f.plen.toNat + 63) / 64 * 64 && decide (f.plen.toNat ≤ 4096)

/-- Host lines of 128 bytes in a 64-bit address space. -/
def linesWf (bad : List Nat) : Bool := bad.all fun a => decide (a < 2 ^ 57)

/-- Four beats or fewer can reach the block in one key answer; more are counted by the caller as five (R444). -/
def beatsWf (beats : List W64) : Bool := decide (beats.length ≤ 5)

/-- Whether a command is well formed. -/
def Instr.wf : Instr → Bool
  | .tile _ f _ | .rdrsp _ f _ | .hold _ f _ | .vup _ f _ | .vdn _ f _ | .vack _ f _ | .credit _ f _
  | .nack _ f _ | .probe _ f _ | .joinReq _ f _ | .joinDone _ f _ | .joinRefuse _ f _ | .joinReparent _ f _
  | .takeoverAnnounce _ f _ | .takeoverAnswer _ f _ | .takeoverRelease _ f _ | .jrnl _ f _ | .hbeat _ f _
  | .spare _ f _ | .spareack _ f _ => frameWf f
  | .part _ f _ bad | .grant _ f _ bad | .write _ f _ bad | .rdreq _ f _ bad => frameWf f && linesWf bad
  | .flush _ bad | .firmwareLoadDone bad | .svcDone bad | .cgoDone _ bad | .adopted bad | .orderFetch _ bad
  | .orderTake _ bad | .tideArm _ _ bad | .epochGateCheck _ bad | .tileStart _ bad | .tileComplete _ bad
  | .settle _ bad | .secondPass _ bad | .partialNotice _ _ bad | .pageInDone _ bad | .jobStart _ bad
  | .jobComplete _ bad | .lds _ _ bad | .ld _ _ _ _ bad | .ldw _ _ _ _ bad | .sadv _ _ bad | .rakeEvent bad
  | .rakeRetire bad | .followerFetch _ _ bad | .rakeCommandDone bad | .shtCommandDone bad
  | .gradientLand _ _ bad => linesWf bad
  | .keyAck _ beats => beatsWf beats
  | _ => true

end Sys2Proof
end

