-- ==== Sys2Proof/Tests/Slice0.lean ====
section
/-! SUPPORT. The model's own tests: ill-formed commands are refused by the check, every statement's hypotheses are met
by a named state, and worked values of the spec come out. -/

namespace Sys2Proof.Tests

open Sys2Proof Sys2Proof.Machine

/- The evaluations below run one after the other: together they would ask for a thread each. -/
set_option Elab.async false

/-! ### Well-formed commands -/

/-- A well-formed frame. -/
def okFrame : Frame := { plen := 3, payload := List.replicate 64 0 }

theorem test_wf_frame : (Instr.tile 0 okFrame false).wf = true := by decide
theorem test_illformed_tspec : (Instr.tile 0 { okFrame with tspec := [] } false).wf = false := by decide
theorem test_illformed_tag : (Instr.vup 0 { okFrame with tag := [1] } false).wf = false := by decide
theorem test_illformed_padding : (Instr.rdreq 0 { okFrame with payload := [1, 2, 3] } false []).wf = false := by decide
theorem test_illformed_plen : (Instr.jrnl 0 { okFrame with plen := 4097, payload := List.replicate 4160 0 } false).wf = false := by
  decide +kernel
theorem test_illformed_lines : (Instr.jobStart 0 [2 ^ 57]).wf = false := by decide
theorem test_illformed_frame_lines : (Instr.write 0 okFrame false [2 ^ 57]).wf = false := by decide +kernel
theorem test_illformed_beats : (Instr.keyAck 0 [0, 0, 0, 0, 0, 0]).wf = false := by decide
theorem test_wf_beats : (Instr.keyAck 0 [1, 2, 3, 4]).wf = true := by decide

/-! ### States -/

/-- The state a command leaves. -/
def after (o : Host.Outcome State Fault Refusal) : State :=
  match o with
  | .next t => t
  | _ => State.reset

/-- A block that has started: ACTIVE, READY, pans 0 to 59 mapped and LIVE, four reserves, JOINED without protection. -/
def on : State :=
  { State.reset with
    pins := { State.reset.pins with rstLow := false, pwrGood := 0x1FFFF#17, vidSEn := true }
    pwr := { State.reset.pwr with pstate := .active }
    glb := { State.reset.glb with bstage := 8, panmap := Vector.ofFn fun l => { missing := false, phys := ⟨l.1, by omega⟩ } }
    sec := { State.reset.sec with fwRes := 1, lcs := 1 }
    flt := { State.reset.flt with rsvok := BitVec.ofNat 64 (0xF * 2 ^ 60) }
    twn := { State.reset.twn with regs := { State.reset.twn.regs with jstate := .joined, prot := 0 } }
    vrd := { State.reset.vrd with activated := true }
    pan := Vector.ofFn fun p => { pwr := if p.1 < 60 then .live else .gated } }

def modJstate (s : State) (j : JState) : State := modTwnR s fun t => { t with jstate := j }
def put (s : State) (a : Nat) (bs : List Byte) : State := { s with host := memPut s.host a bs }

/-! ### The statements' hypotheses are met -/

/-- Every unit finds a credit, tried port by port and share by share. -/
def credits (s : State) : Bool :=
  (List.finRange 16).all fun q => (none :: (List.finRange 8).map some).all fun i => creditOk s q i

theorem credits_found (s : State) (h : credits s = true) : Credits s := by
  intro q i
  simp only [credits, List.all_eq_true] at h
  refine h q (List.mem_finRange q) i ?_
  cases i with
  | none => exact List.mem_cons_self
  | some j => exact List.mem_cons_of_mem _ (List.mem_map_of_mem (List.mem_finRange j))

theorem meets_StepRunsFrontCommand : ({ on with pending := [.vslow] } : State).pending = .vslow :: [] := rfl

theorem meets_EmptyQueueTicks : on.pending = [] ∧ on.pins.rstLow = false ∧ on.pwr.pstate ≠ .off ∧ on.pwr.ptrans = none := by
  decide +kernel

theorem meets_CommandsLeaveQueue : exec .vslow on = .next on := by rfl

theorem meets_StepKeepsSecuritySound : secOk on.sec ∧ step { on with pending := [.vslow] } = .next on := by
  refine ⟨?_, rfl⟩
  decide +kernel

theorem meets_StopAndQuiesceEndAdmission :
    (Answers on (.hrv 3) ∧ Working on (.hrv 3) ∧ firmwareOnly on (.hrv 3) = false ∧ pageAdmits (.hrv 3) .stop = true ∧
      pageAdmits (.hrv 3) .quiesce = true) ∧
    (let s := modJstate on .idle
     Answers s .vrd ∧ Working s .vrd ∧ firmwareOnly s .vrd = false ∧ pageAdmits .vrd .stop = true ∧
      s.twn.regs.jstate ≠ .joining ∧ s.twn.regs.jstate ≠ .joined) ∧
    (Answers on (.pan 59) ∧ Working on (.pan 59) ∧ firmwareOnly on (.pan 59) = false ∧ pageAdmits (.pan 59) .stop = true ∧
      logOf on 59 = some 59 ∧ (lp on 59).parked = []) := by
  decide +kernel

/-- A unit that was stopped. -/
def stopped (p : PageId) : State := modHdr on p fun h => { h with mode := .stopping }

theorem meets_RunAndUnadmittedCommands :
    (Answers (stopped (.hrv 7)) (.hrv 7) ∧ pageState (stopped (.hrv 7)) (.hrv 7) = .stopped ∧
      firmwareOnly (stopped (.hrv 7)) (.hrv 7) = false ∧ pageAdmits (.hrv 7) .run = true) ∧
    (Answers (stopped (.lnk 7)) (.lnk 7) ∧ pageState (stopped (.lnk 7)) (.lnk 7) = .stopped ∧
      firmwareOnly (stopped (.lnk 7)) (.lnk 7) = false ∧ pageAdmits (.lnk 7) .run = true ∧ (stopped (.lnk 7)).twn.held = []) ∧
    (∀ p ∈ [PageId.sec, .pwr, .sal, .twn, .tst], Answers on p) ∧
    (let s := { modHdr on (.hrv 0) fun h => { h with mode := .faulted } with flt := { on.flt with fhrv := 1 } }
     Answers s (.hrv 0) ∧ pageState s (.hrv 0) = .faulted ∧ firmwareOnly s (.hrv 0) = false ∧ pageAdmits (.hrv 0) .quiesce = true) := by
  decide +kernel

theorem meets_UnitsLeaveService :
    (Answers on (.hrv 0) ∧ AtRest on (.hrv 0) ∧ otherEngine on 0 = true) ∧
    (Answers (stopped .rak) .rak ∧ pageState (stopped .rak) .rak = .stopped ∧ (stopped .rak).rak.evq = [] ∧
      (stopped .rak).rak.retire = [] ∧ (stopped .rak).dir = []) ∧
    (Answers on (.pan 63) ∧ AtRest on (.pan 63) ∧ logOf on 63 = none ∧ (pn on 63).wakeFor = none) ∧
    (∀ p ∈ [PageId.pan 60, .hrv 1, .rak, .lnk 2], let s := modHdr on p fun h => { h with mode := .isolated }
      Answers s p ∧ firmwareOnly s p = false ∧ pageState s p = .isolated) ∧
    (let s := modSlt (modHdr on (.slt 5) fun h => { h with mode := .faulted }) 5 fun x => { x with regs := { x.regs with cust := true } }
     Answers s (.slt 5) ∧ firmwareOnly s (.slt 5) = false ∧ pageState s (.slt 5) = .faulted) := by
  decide +kernel

theorem meets_HeaderRegistersAndInjection :
    (Answers on .sal ∧ PageId.sal ≠ .glb ∧ unlocked on .sal = true ∧ (0x0103 : W16) ∈ [0x0100#16, 0x0101#16, 0x0102#16, 0x0103#16] ∧
      (0x0104 : W16) ∉ [0x0100#16, 0x0101#16, 0x0102#16, 0x0103#16]) ∧
    (let s := modLp on 4 fun x => { x with qen := true, run := some { n := 0, ord := {}, chain := {}, started := true } }
     Answers s (.pan 4) ∧ unlocked s (.pan 4) = false) ∧
    (let s := modHdr on (.hrv 2) fun h => { h with slotA := { h.slotA with valid := true } }
     Answers s (.hrv 2) ∧ (hdr s (.hrv 2)).slotA.valid = true ∧ (hdr s (.hrv 2)).slotA.cls ≠ 1) ∧
    (let s := modHdr on (.hrv 2) fun h => { h with slotA := { h.slotA with valid := true, cls := 1, replayOpen := true } }
     Answers s (.hrv 2) ∧ (hdr s (.hrv 2)).slotA.cls = 1 ∧ (hdr s (.hrv 2)).slotA.replayOpen = true) ∧
    ((4 : Nat) ∈ pageCauses (.pan 3) ∧ mayInject on = true ∧ corruptible 4 = true ∧
      mayInject { on with sec := { on.sec with lcs := 2 } } = false) := by
  decide +kernel

theorem meets_UnfenceReturnsUnit :
    let s := { on with flt := { on.flt with frake := true }, tst := { on.tst with passed := [0x50] } }
    Answers s .flt ∧ unitFenced s 0x50 = true ∧ unitBypassed s 0x50 = false ∧ 0x50 ∈ s.tst.passed ∧
      ∀ l, (physOf s l).isSome = true := by
  decide +kernel

theorem meets_QueueRegistersWritten :
    Answers on .glb ∧ ((16 : W32) - (lp on 0).wqFi).toNat ≤ 2 ^ (lp on 0).wqLog2.toNat ∧
      ((16 : W32) - (lp on 0).wqPi).toNat ≤ 2 ^ 31 ∧ 2 ^ (lp on 59).wqLog2.toNat < ((17 : W32) - (lp on 59).wqFi).toNat ∧
      ((lp on 0).cqPi - (0xFFFFFFF0 : W32)).toNat ≤ 2 ^ (lp on 0).cqLog2.toNat ∧
      2 ^ (lp on 0).cqLog2.toNat < ((lp on 0).cqPi - (1 : W32)).toNat ∧ (lp on 0).flush = none := by
  decide +kernel

/-- Where RAPBASE and INST are 0, the low addresses are the instance's own. -/
theorem here_low (s : State) (a : Nat) (hb : s.twn.regs.rapbase = 0) (hi : s.glb.inst = 0) (ha : a < 2 ^ 40) : Here s a := by
  have h1 : addr64 a = a := Nat.mod_eq_of_lt (by omega)
  simp only [Here, apertureOf, h1, hb, hi]
  split
  · exact if_pos (Nat.div_eq_of_lt ha)
  · rfl

theorem meets_QueueRegistersWritten_ring : ∀ n, Here on ((lp on 0).wqAddr n) := by
  intro n
  apply here_low on _ (by decide +kernel) (by decide +kernel)
  have h1 : (lp on 0).wqBase = 0 := by decide +kernel
  have h2 : (lp on 0).wqDepth = 16 := by decide +kernel
  have : n.toNat % 16 < 16 := Nat.mod_lt _ (by omega)
  simp only [LPan.wqAddr, h1, h2]
  show 0 + 128 * (n.toNat % 16) < 2 ^ 40
  omega

/-- A pan with one order in its ring and one record to write. -/
def queued : State := modLp on 7 fun x =>
  { x with qen := true, wqPi := 1, done := [{ n := 0, oid := 5, status := 0, irq := true }] }

theorem meets_OrdersFetchedAndRecorded :
    (livePan queued 7 = some 7 ∧ (lp queued 7).qen = true ∧ (lp queued 7).flush = none ∧ (lp queued 7).fetchStop = false ∧
      (lp queued 7).fetchN ≠ (lp queued 7).wqPi ∧ (lp queued 7).win.length < 8 ∧ noStarts queued = false ∧
      credits queued = true ∧ Here queued 0 ∧ hostAddr queued 0 = 0 ∧ ∀ i ∈ linesOf 0 128, i ∉ [1]) ∧
    ((lp queued 7).done = [{ n := 0, oid := 5, status := 0, irq := true }] ∧ (lp queued 7).cqFull = false ∧
      queued.flt.lastrst ≠ 3 ∧ queued.wrap.taken = false ∧ writesOut (queued.begin []) (.pan 7 0) = false ∧
      (lp queued 7).cqBase = 0) := by
  decide +kernel

theorem meets_ShardCommandsRun :
    (Answers on .glb ∧ on.glb.shtRun = none ∧ (modGlb on fun g => { g with shtRun := some .plan }).glb.shtRun ≠ none) ∧
    (let s := modVrd (modGlb on fun g => { g with shtRun := some .activate }) fun v => { v with activated := false }
     s.glb.shtRun = some .activate ∧ s.glb.shtN = 0 ∧ noStepOpen s = true ∧ s.flt.lastrst ≠ 2 ∧ s.twn.regs.twen = false ∧
       capacityBad s [] = false) ∧
    (let s := modGlb on fun g => { g with shtRun := some .activate }
     s.glb.shtRun = some .activate ∧ noStepOpen s = false) ∧
    (let s := modGlb on fun g => { g with shtRun := some .plan }
     s.glb.shtRun = some .plan ∧ (hdr s .glb).abi.toNat < 0x0102) := by
  decide +kernel

/-- The open step closed, with nothing to wait for. -/
def closedStep : State := modVrdR on fun v => { v with closed := true }

theorem meets_StepDecidedOrClosed :
    (Answers on .vrd ∧ on.vrd.regs.vparent = 0xFF ∧ on.vrd.regs.vchild = 0 ∧ on.vrd.formed = none ∧ on.shard = [] ∧
      on.vrd.own = none ∧ on.vrd.evals = [] ∧ on.twn.regs.twen = false ∧ on.vrd.flipping = none) ∧
    (flagsReady closedStep = true ∧ goesOn closedStep .vrd = true ∧ closedStep.pwr.pstate = .active ∧
      closedStep.vrd.regs.vparent = 0xFF ∧ closedStep.vrd.regs.vchild = 0 ∧ closedStep.vrd.regs.vsize = 1 ∧
      closedStep.vrd.formed = none ∧ closedStep.shard = [] ∧ closedStep.vrd.recs = [] ∧ closedStep.vrd.evals = [] ∧
      closedStep.twn.regs.twen = false ∧ closedStep.vrd.flipping = none ∧ closedStep.twn.regs.adopted = 0xFF ∧
      corruptArmed closedStep .vrd cLockstep = false ∧ closedStep.vrd.regs.closed = true ∧ Answers closedStep .vrd) ∧
    (let s := modVrdR on fun v => { v with sent := true }
     s.vrd.regs.sent = true ∧ s.vrd.vslow = false) := by
  decide +kernel

/-- Shard 8191 with its record's write issued. -/
def flipping : State :=
  { modShard on 8191 fun h => { h with flip := some (mkRec 6 0 true 0 0 4 8191) } with
    txns := [{ port := 0, tag := 3, kind := .wr, share := none, addr := 0x9000, data := recBytes (mkRec 6 0 true 0 0 4 8191), why := .flip 8191 }] }

theorem meets_CommitFlipWritesRecord :
    (flipping.txns.find? (fun t => t.why == .flip 8191)).isSome = true ∧ (shardOf flipping 8191).flip = some (mkRec 6 0 true 0 0 4 8191) ∧
      (shardOf flipping 8191).held = [] ∧ (shardOf flipping 8191).srec.masked = false ∧ flipping.twn.regs.twen = false ∧
      flipping.vrd.flipping = none := by
  decide +kernel

/-- A DROP of mask directory entry 4095 waits. -/
def dropping (e : DirE) : State :=
  modRak (modDir on 4095 fun _ => e) fun r => { r with cmd := some { op := .drop, slot := false, mid := 4095 } }

theorem meets_RakeCommands :
    (Answers on .rak ∧ on.flt.frake = false ∧ (hdr on .rak).mode ≠ .isolated ∧ on.rak.cmd = none ∧
      (dropping {}).rak.cmd ≠ none ∧ Answers (dropping {}) .rak) ∧
    (rakeGoes (dropping {}) = true ∧ (dropping {}).twn.regs.twen = false ∧
      (dirOf (dropping { role := 1 }) 4095).role ≠ 0 ∧ (dirOf (dropping { role := 1 }) 4095).busy = false ∧
      (dirOf (dropping { role := 1 }) 4095).rdrA = 0 ∧ (dirOf (dropping { role := 1 }) 4095).rdrB = 0 ∧
      (dirOf (dropping { busy := true }) 4095).busy = true ∧ (dirOf (dropping {}) 4095).role = 0 ∧
      (dirOf (dropping { role := 2, rdrA := 255 }) 4095).rdrA ≠ 0) := by
  decide +kernel

/-- An IDLE instance under PROT AUTH with an empty and with a filled key slot. -/
def joinless (v : Bool) : State :=
  { modTwnR on fun t => { t with jstate := .idle, prot := 1, session := 8 } with
    sec := { on.sec with lcs := 2, lk := Vector.replicate 2 { valid := v, ksess0 := 9, kid := if v then 4 else 0 } } }

theorem meets_JoinRefusedWithoutKey :
    (Answers (joinless false) .twn ∧ (joinless false).twn.regs.jstate = .idle ∧ pageState (joinless false) .vrd ≠ .stopped ∧
      (joinless false).twn.regs.prot ≠ 0 ∧ (vget (joinless false).sec.lk (joinless false).sec.txksel).valid = false) ∧
    (let s := modTwnR (joinless true) fun t => { t with prot := 0 }
     Answers s .twn ∧ s.twn.regs.jstate = .idle ∧ pageState s .vrd ≠ .stopped ∧ protOk s.sec.lcs s.twn.regs.prot.toNat = false) ∧
    (Answers (joinless true) .twn ∧ protOk (joinless true).sec.lcs 1 = true ∧
      (vget (joinless true).sec.lk (joinless true).sec.txksel).valid = true ∧
      (joinless true).twn.regs.session + 1 = (vget (joinless true).sec.lk (joinless true).sec.txksel).ksess0) := by
  decide +kernel

theorem meets_LoneMasterJoinsAndLeaves :
    (let s := modGlb (modJstate on .idle) fun g => { g with bstage := 7 }
     Answers s .twn ∧ s.twn.regs.jstate = .idle ∧ pageState s .vrd ≠ .stopped ∧ protOk s.sec.lcs 0 = true ∧ s.twn.regs.prot = 0 ∧
       s.vrd.regs.vparent = 0xFF ∧ s.vrd.regs.vchild = 0 ∧ s.vrd.regs.vsize = 1 ∧ s.glb.bstage = 7) ∧
    (Answers on .twn ∧ on.twn.regs.jstate = .joined ∧ on.glb.bstage = 8) ∧
    (let s := modJstate on .fenced
     Answers s .twn ∧ s.twn.regs.jstate ≠ .joined) := by
  decide +kernel

theorem meets_DozeRefusedWhileHalted :
    let s := { on with tst := { on.tst with regs := { on.tst.regs with dhSlt := 0x80 } } }
    Answers s .pwr ∧ s.pwr.ptrans = none ∧ s.flt.pfstate = 0 ∧ s.tst.regs.dhSlt ≠ 0 := by
  decide +kernel

def inPstate (s : State) (p : PState) (t : Option PTrans) : State := modPwr s fun x => { x with pstate := p, ptrans := t }

theorem meets_SleepStartsAndEnds :
    (Answers on .pwr ∧ on.pwr.ptrans = none ∧ on.flt.pfstate = 0 ∧ dozeOk on = true ∧ (∀ n, (salt on n).mode = .idle) ∧
      on.twn.regs.twen = false ∧ on.pwr.pstate = .active) ∧
    (Answers (inPstate on .doze none) .pwr ∧ (inPstate on .doze none).pwr.ptrans = none ∧ (inPstate on .doze none).flt.pfstate = 0) ∧
    (Answers (inPstate on .retain none) .pwr ∧ (inPstate on .retain none).pwr.ptrans = none) ∧
    (inPstate on .active (some .dozeWait)).pwr.ptrans = some .dozeWait := by
  decide +kernel

theorem meets_RetainErasesKeysAndSupplies :
    (let s := modJstate (inPstate on .doze none) .idle
     Answers s .pwr ∧ s.pwr.ptrans = none ∧ s.flt.pfstate = 0 ∧ s.pwr.pstate = .doze ∧ s.twn.regs.jstate ≠ .joined ∧
       s.pins.pwrGood ≠ 0) ∧
    (Answers on .pwr ∧ on.pwr.pstate ≠ .doze) := by
  decide +kernel

theorem meets_PowerFailAndSupplyLoss :
    let s := modJstate on .idle
    s.pins.rstLow = false ∧ s.wrap.taken = false ∧ s.pwr.pstate = .active ∧ s.flt.pfstate = 0 ∧ s.pwr.ptrans = none ∧
      s.twn.regs.jstate ≠ .joined ∧ s.twn.regs.twen = false ∧ s.pins.vidSEn = true ∧ bit s.pins.pwrGood 16 = true ∧
      setBit s.pins.pwrGood 16 false ≠ 0 ∧ 1000 ≤ (1000 : W16).toInt ∧ s.tst.tests = [] ∧ s.tst.waiting = none ∧
      (inPstate s .doze none).pwr.pstate = .doze := by
  decide +kernel

theorem meets_TemperatureAndVoltage :
    (on.pins.rstLow = false ∧ on.pwr.pstate ≠ .off ∧ on.pwr.pstate ≠ .retain ∧ (999 : W16).toInt < 1000 ∧
      on.pwr.talarm.toInt ≤ (999 : W16).toInt ∧ (0xFFFF : W16).toInt < on.pwr.talarm.toInt) ∧
    (Answers on .pwr ∧ on.pins.vidSEn = true ∧ on.pins.vidSOut = false ∧ on.pins.vidSCode ≠ 1 ∧
      (modPins on fun p => { p with vidSOut := true }).pins.vidSOut = true ∧
      (quad (modQd on 14 fun q => { q with reqout := some 0x70 }) 14).reqout = some 0x70 ∧ quadLive on 14 = true) ∧
    (on.pwr.pstate = .active ∧ quadLive on 0 = true ∧ (quad on 0).reqout = none ∧ (hdr on (.qd 0)).mode = .active ∧
      (0 : BitVec 6).toNat < (quad on 0).slacklo.toNat ∧ (quad on 0).slackhi.toNat < (13 : BitVec 6).toNat ∧
      (let s := modQd on 0 fun q => { q with high := 15, vcode := 0x60 }
       (quad s 0).high = 15 ∧ (quad s 0).vmin.toNat < (quad s 0).vcode.toNat ∧ (quad s 0).vcode.toNat < (quad s 0).vmax.toNat)) := by
  decide +kernel

theorem meets_LcsChangeErasesKeys : (15 : BitVec 4) ≠ on.pins.lcsState ∧ on.pins.rstLow = false ∧ on.pwr.pstate ≠ .off := by
  decide +kernel

/-- A SEC page at level 1.3 of an instance that is not JOINED. -/
def keyed (f : Sec → Sec) : State :=
  let s := modHdr (modJstate on .idle) .sec fun h => { h with abi := 0x0103 }
  { s with sec := f s.sec }

theorem meets_KeysLoadedAndErased :
    (let s := keyed id
     Answers s .sec ∧ 0x0103 ≤ (hdr s .sec).abi.toNat ∧ s.twn.regs.jstate ≠ .joined ∧ s.sec.kload = none ∧ s.sec.lcs = 1 ∧
       s.sec.noload = false) ∧
    (let s := keyed fun x => { x with lcs := 3 }
     Answers s .sec ∧ 0x0103 ≤ (hdr s .sec).abi.toNat ∧ s.sec.kload = none ∧ s.sec.lcs = 3) ∧
    (let s := keyed fun x => { x with kload := some (1, 4) }
     Answers s .sec ∧ s.sec.kload = some (1, 4) ∧ [1, 2, 3, (4 : W64)].length = 4 ∧ [1, 2, 3, 4, (5 : W64)].length ≠ 4) := by
  decide +kernel

theorem meets_DebugLevels :
    (let s := keyed fun x => { x with dbgmax := 1, lk := vset x.lk 1 { valid := true } }
     Answers s .sec ∧ 0x0103 ≤ (hdr s .sec).abi.toNat ∧ (vget s.sec.lk 1).valid = true ∧ s.twn.pairs = [] ∧
       (vget s.sec.lk 0).valid = false ∧ (1 : BitVec 2).toNat ≤ s.sec.dbgmax.toNat ∧ s.sec.dbgmax.toNat < (2 : BitVec 2).toNat) ∧
    (let s := keyed fun x => { x with lcs := 2, dbgmax := 2 }
     s.pins.rstLow = false ∧ s.wrap.taken = false ∧ s.pwr.pstate = .active ∧ s.flt.pfstate = 0 ∧ s.sec.lcs = 2 ∧
       s.sec.dbgmax.toNat = 2 ∧ s.sec.dbglvl ≠ 2) := by
  decide +kernel

/-- Debug level INVASIVE, with the debug window at a salter's last eight bytes. -/
def invasiveOn : State :=
  { on with sec := { on.sec with dbglvl := 2, dbgmax := 2 }
            tst := { on.tst with regs := { on.tst.regs with dwUnit := 0x4F, dwAddr := 0x3FFF8 } } }

theorem meets_DebugUnits :
    (Answers invasiveOn .tst ∧ invasiveOn.sec.dbglvl = 2 ∧ dhUnitOk invasiveOn 0x50 = true ∧ dhUnitOk invasiveOn 0 = true) ∧
    (Answers on .tst ∧ on.sec.dbglvl ≠ 2) ∧
    (invasiveOn.pins.rstLow = false ∧ invasiveOn.wrap.taken = false ∧ invasiveOn.pwr.pstate = .active ∧ invasiveOn.flt.pfstate = 0 ∧
      invasiveOn.sec.lcs ≠ 0 ∧ Answers invasiveOn .sec ∧ (1 : BitVec 2).toNat ≤ invasiveOn.sec.dbgmax.toNat) ∧
    (invasiveOn.tst.regs.dwUnit.toNat = 0x48 + 7 ∧ invasiveOn.tst.regs.dwAddr.toNat = 8 * 0x7FFF ∧ 8 * 0x7FFF + 8 ≤ 0x40000) := by
  decide +kernel

theorem meets_FirmwareLoadJudged :
    (Answers on .sec ∧ on.sec.fwLock = false ∧ on.sec.fwRun = false ∧ on.glb.bstage ≠ 3) ∧
    (let s := { on with sec := { on.sec with fwLock := true } }
     Answers s .sec ∧ s.sec.fwLock = true) ∧
    (let s := { on with sec := { on.sec with fwRun := true, fwFail := 2 } }
     s.sec.fwRun = true ∧ credits s = true ∧ Here s s.sec.fwBase.toNat ∧ Here s (s.sec.fwBase.toNat + 256) ∧ s.flt.lastrst ≠ 1 ∧
       fwFormatOk (memBytes s.host (hostAddr s s.sec.fwBase.toNat) 256) = false) := by
  decide +kernel

/-- The header of a firmware image for PROD, of 64 bytes, with the digest `d`. -/
def fwHeader (d : List Byte) : List Byte :=
  leBytes 4 0x57465849 ++ leBytes 4 1 ++ leBytes 4 64 ++ [0, 0, 2, 0] ++ leBytes 4 0 ++ leBytes 2 0x0103 ++ List.replicate 42 0
    ++ fitTo 48 d ++ List.replicate 144 0

theorem meets_FirmwareLoadJudged_format :
    let s := put { on with sec := { on.sec with fwRun := true } } 0 (fwHeader [])
    fwFormatOk (memBytes s.host (hostAddr s s.sec.fwBase.toNat) 256) = true ∧ rootOk s 0 = true ∧ s.sec.svnfuse = 0 := by
  decide +kernel

/-- PASS of a firmware load stands on the digest and the signature alone, once the checks before them pass. -/
theorem meets_FirmwareLoadJudged_pass (p h : List Byte) (h1 : leAt h 20 2 = 0x0103) (h2 : byteAt h 14 = 2) (h3 : byteAt h 13 = 0)
    (h4 : byteAt h 12 = 0) (hd : Config.sha384 p = (h.drop 64).take 48)
    (he : Config.ecdsaOk 0 (Config.sha384 (h.take 112)) ((h.drop 112).take 48) ((h.drop 160).take 48) = true) :
    fwVerdict on h p = 1 := by
  have r : rootOk on 0 = true := by decide +kernel
  have n : nbit 2 on.sec.lcs.toNat = true := by decide +kernel
  have z : on.sec.svnfuse.toNat = 0 := by decide +kernel
  simp [fwVerdict, h1, h2, h3, h4, r, n, z, hd, he]

/-- A start at a stage. -/
def starting (n : BitVec 4) : State :=
  { on with glb := { on.glb with bstage := n } }

theorem meets_StartSequence :
    (on.pins.vidSEn = true ∧ on.pwr.ptrans = none) ∧
    ((starting 1).glb.bstage = 1 ∧ (starting 1).pwr.pstate = .active ∧ (starting 1).pins.rstLow = false ∧
      (starting 1).pins.pwrGood = 0x1FFFF ∧ (modPins (starting 1) fun p => { p with pwrGood := 1 }).pins.pwrGood ≠ 0x1FFFF) ∧
    (starting 2).glb.bstage = 2 ∧
    (let s := starting 5
     s.flt.fpan = 0 ∧ s.flt.fhrv = 0 ∧ s.flt.fslt = 0 ∧ s.flt.frake = false ∧ s.tst.regs.bypPan = 0 ∧ s.tst.regs.bypHrv = 0 ∧
       s.tst.regs.bypSlt = 0 ∧ s.tst.regs.bypRak = false ∧ s.tst.regs.bypLnk = 0 ∧ ∀ p, ticksOf s p = ticksOf s 0) := by
  decide +kernel

theorem meets_WarmResetKeepsRecords :
    on.pins.rstLow = false ∧ on.wrap.taken = false ∧ on.pwr.pstate = .active ∧ on.tst.tests = [] ∧ on.tst.waiting = none ∧
      on.wear = none := by
  decide +kernel

theorem meets_CoreClockMultiplier :
    (Answers (inPstate on .doze none) .pwr ∧ (40 : BitVec 7).toNat = 40 ∧ (88 : BitVec 7).toNat = 88 ∧
      (39 : BitVec 7).toNat < 40 ∧ 88 < (89 : BitVec 7).toNat) ∧ (Answers on .pwr ∧ on.pwr.pstate = .active ∧ (hdr on .pwr).latch = none) ∧
    (let s := inPstate on .doze (some .dozeWake)
     s.pwr.ptrans = some .dozeWake ∧ s.pins.rstLow = false ∧ s.twn.held = [] ∧ s.pwr.heldMsg = [] ∧ s.shard = []) := by
  decide +kernel

theorem meets_PageRegisterStores :
    (Answers on .glb ∧ on.wrap.taken = false ∧ (modJstate on .idle).twn.regs.jstate ≠ .joining ∧
      (modJstate on .idle).twn.regs.jstate ≠ .joined ∧ on.twn.regs.jstate = .joined) ∧
    (Answers on (.pan 63) ∧ (hdr on (.pan 63)).latch = none ∧ (7 : BitVec 4) ≠ 0xF) ∧
    (reach on none = .ok ∧ corruptArmed on .glb cLockstep = false ∧ corruptArmed on .glb cEccunc = false ∧
      corruptArmed on .glb cEcccor = false ∧ resRegion on 0x250000 = .plain ∧
      resRegion on 0x80000 = .shard 0 ∧ resRegion on 0xFFFFC = .shard 8191) := by
  decide +kernel

/-- A page whose wide read at offset 0x60 is open. -/
def latched : State := modHdr on .pwr fun h => { h with latch := some (0x60, 7) }

theorem meets_PageRegisterStores_reads :
    (latches (.pan 63) 0x60 = false ∧ (hdr on (.pan 63)).latch = none) ∧
    (Answers on .glb ∧ latches .glb 0x440 = (latches .glb 0x440)) ∧
    (∃ p ∈ [PageId.glb, .pwr, .flt, .vrd, .rak, .lnk 7, .sec], ∃ o ∈ (List.range 1024).map (4 * ·), latches p o = true ∧ Answers on p) ∧
    (latches .pwr 0x64 = false ∧ (∃ x, (hdr latched .pwr).latch = some x ∧ x.1 + 4 = 0x64) ∧ Answers latched .pwr) ∧
    (Answers on .tst ∧ reach on none ≠ .dead ∧ pageOfNum (0x100000 / 0x400) = none) := by
  decide +kernel

theorem meets_TestsRun :
    (let s := modHdr on (.slt 7) fun h => { h with mode := .isolated }
     Answers s .tst ∧ s.tst.regs.tsRes ≠ 1 ∧ unitBypassed s 0x4F = false ∧ unitIsolated s 0x4F = true ∧ testBlocked s 0x4F = false) ∧
    (on.sec.fwRes = 1 ∧ unitIsolated on 0x40 = false ∧ unitFenced on 0x40 = false ∧ on.tst.regs.svcRes ≠ 1) ∧
    ({ on with tst := { on.tst with regs := { on.tst.regs with tsRes := 1 } } } : State).tst.regs.tsRes = 1 ∧
    (let s := { on with tst := { on.tst with tests := [{ unit := 0x47, kind := 2, sw := true }] } }
     s.tst.tests = [{ unit := 0x40 + (7 : Fin 8).1, kind := 2, sw := true }] ∧ s.tst.bg = [] ∧ s.tst.waiting = none ∧
       s.tide.wearTests = false) := by
  decide +kernel

theorem meets_ServiceRecordWritten :
    let s := { on with tst := { on.tst with regs := { on.tst.regs with svcRes := 1 } } }
    s.tst.regs.svcRes = 1 ∧ Here s s.tst.regs.svcAddr.toNat ∧ credits s = true := by
  decide +kernel

theorem meets_WrapperInstructions : invasiveOn.sec.dbglvl = 2 ∧ on.sec.dbglvl ≠ 2 ∧ 3 ≤ on.glb.bstage.toNat ∧
    on.pins.rstLow = false ∧ on.pwr.pstate = .active := by
  decide +kernel

/-! Orders and tiles: a plain FP32 tensor of one row of 32 elements, copied with a scale of 2. -/

def plainDesc (base : Nat) : List Byte :=
  leBytes 8 base ++ leBytes 8 0 ++ leBytes 8 0 ++ leBytes 8 0 ++ leBytes 4 0x3F800000 ++ leBytes 4 1 ++ leBytes 4 32
    ++ leBytes 4 128 ++ leBytes 4 0 ++ leBytes 2 0 ++ [0x21, 2, 0, 0] ++ List.replicate 6 0

/-- Host memory with the two descriptors, the chain (PASS then SCALE) and the first element of A. -/
def ready : State :=
  put (put (put (put on 0x1000 (plainDesc 0x3000)) 0x1040 (plainDesc 0x4000)) 0x2000
    ([1, 0, 0, 0] ++ leBytes 4 0 ++ List.replicate 24 0 ++ [2, 22, 0, 0] ++ leBytes 4 0x40000000 ++ List.replicate 24 0))
    0x3000 (leBytes 4 0x3F800000)

def copyOrder : Order :=
  { oid := 7, chain := 0x2000, descA := 0x1000, descOut := 0x1040, nrows := 1, ncols := 32, trows := 1, tcols := 32 }

/-- The order is at the head of pan 5's window. -/
def heading (o : Order) : State := modLp ready 5 fun x =>
  { x with qen := true, win := [{ n := 0, ord := o }], wqPi := 1, fetchN := 1 }

def gone (q : Taken) : Bool := match q with
  | .go _ => true
  | _ => false
def refusedBy (q : Taken) : Option Nat := match q with
  | .refuse c _ => some c
  | _ => none
def waits (q : Taken) : Bool := match q with
  | .wait _ => true
  | _ => false

theorem meets_HeadOrderTaken :
    (mayStart (heading copyOrder) 5 = true ∧ (lp (heading copyOrder) 5).cqHold = false ∧ (lp (heading copyOrder) 5).run = none ∧
      (lp (heading copyOrder) 5).inTile = false ∧ (lp (heading copyOrder) 5).parked = []) ∧
    (gone (checkOrder ((heading copyOrder).begin []) 5 0 copyOrder).1 = true ∧
      (checkOrder ((heading copyOrder).begin []) 5 0 copyOrder).2.miss = []) ∧
    (refusedBy (checkOrder ((heading copyOrder).begin []) 5 0 { copyOrder with nrows := 0 }).1).isSome = true ∧
    (let o := { copyOrder with wcrec := 0x9000, wepoch := 1 }
     waits (checkOrder ((put (heading o) 0x9000 (recBytes (mkRec 0 0 false 0 5 0 0))).begin []) 5 0 o).1 = true) ∧
    (let o := { copyOrder with tide := true, stag := 9 }
     (lp (heading o) 5).freeSlot = some 0 ∧ (heading o).twn.held = [] ∧
       gone (checkOrder ((heading o).begin []) 5 0 o).1 = true) := by
  decide +kernel

def taken : State := after (exec (.orderTake 5 []) (heading copyOrder))
def started : State := after (exec (.tileStart 5 []) taken)
/-- The running order of pan 5. -/
def runOf (s : State) : Run := (lp s 5).run.getD { n := 0, ord := {}, chain := {} }

/-- What a tile's reads and arithmetic give, when they give a result, judged. -/
def okAnd {α β : Type} (x : Except IoErr (α × β) × State) (f : α → β → Bool) : Bool :=
  match x.1 with
  | .ok (a, b) => f a b
  | _ => false

/-- A state as pan 5's commands find it. -/
def pan5 (s : State) : State := s.beginAs (.pan 5 0) []

/-- A second pass of a settled tile of an order without a chain: it has nothing to write. -/
def settledTile : State := modLp started 5 fun x =>
  { x with run := none, passed := [{ runOf started with n := 4, chain := {} }]
           parked := [{ n := 4, tile := 0, hist := 3, settled := some 5 }] }

theorem meets_TilesStartAndComplete :
    ((lp taken 5).run = some (runOf taken) ∧ (lp taken 5).inTile = false ∧ mayTile taken 5 = true ∧
      (∀ j, vget (lp taken 5).armed j = none) ∧ (runOf taken).next < (runOf taken).ord.tileCount ∧
      (lp taken 5).settle = none ∧ (runOf taken).chain.isPass = true ∧
      (runOf taken).abort = false ∧ (runOf taken).ord.settle = false) ∧
    (livePan started 5 = some 5 ∧ (hdr started (.pan 5)).mode = .active ∧ (hdr started (.pan 5)).iarm = false ∧
      (lp started 5).run = some (runOf started) ∧ (runOf started).started = true ∧ (lp started 5).tideTile = none ∧
      (lp started 5).parked = [] ∧ (lp started 5).settle = none ∧ (runOf started).ord.split = false ∧
      (runOf started).ord.tide = false ∧ (runOf started).ord.msel ≠ 2 ∧ (runOf started).chain.quant = none ∧
      (runOf started).abort = false ∧ (runOf started).cont = none ∧ (runOf started).appends = false ∧
      credits started = true ∧ writesOut (started.begin []) (.pan 5 (runOf started).n) = false ∧
      (runOf started).ord.tileCount ≤ (runOf started).next + 1) ∧
    okAnd (Io.run (tileBody (pan5 started) 5 (runOf started) (runOf started).next 0 {}) (pan5 started)) (fun o a =>
      o.fits && a.writes.length == 1 && a.bads.isEmpty && a.merges.isEmpty && a.t == {} &&
        a.writes.all fun x => (gradParts started x).isEmpty && decide (Here started x.addr)) = true ∧
    (livePan settledTile 5 = some 5 ∧ mayTile settledTile 5 = true ∧ (lp settledTile 5).run = none ∧
      (lp settledTile 5).settle = none ∧ credits settledTile = true ∧ writesOut (settledTile.begin []) (.pan 5 4) = false ∧
      Here settledTile ((runOf started).dOut.stats + 28) ∧
      okAnd (Io.run (secondBody (pan5 settledTile) { runOf started with n := 4, chain := {} } 0 5 {}) (pan5 settledTile))
        (fun o a => o.fits && a.bads.isEmpty && a.t == {} && a.writes.isEmpty) = true) := by
  decide +kernel

theorem meets_TilesStartAndComplete_reads :
    (Io.run (tileBody (pan5 started) 5 (runOf started) (runOf started).next 0 {}) (pan5 started)).2 = pan5 started ∧
    (Io.run (secondBody (pan5 settledTile) { runOf started with n := 4, chain := {} } 0 5 {}) (pan5 settledTile)).2 =
      pan5 settledTile := by
  decide +kernel

/-- A running order whose stationary operand is a masked cake of four stored codes in 32 positions, as a tile of it starts. -/
def sparseRun : Run := { runOf taken with
  ord := { copyOrder with ncols := 1, tcols := 1 }
  chain := { stages := [{ raw := [1] }] }
  dB := { fmt := 8, rows := 1, klen := 32, base := 0x6000, aux := 0x6800, masked := true } }
def fourOf : List Bool := List.replicate 4 true ++ List.replicate 28 false
def sparseTile : State :=
  modLp (put (put taken 0x6000 (encodeCake sparseRun.dB 127 0 false false false fourOf (List.replicate 4 1))) 0x6804 [2, 0, 0, 0]) 5
    fun x => { x with run := some sparseRun }
def sparseAt : State := useStep (modRun (pan5 sparseTile) 5 .run fun r => { r with started := true }) 5

theorem meets_TilesStartAndComplete_sparse :
    sparseRun.chain.isPass = false ∧ (sparseRun.ord.xb || (sparseRun.dB.isCake && sparseRun.dB.masked)) = true ∧
      physOf sparseTile 5 = some 5 ∧ mayTile sparseTile 5 = true ∧ sparseRun.chain.prod2.isSome = false ∧
      (let x := (sparseRun.ord.tileAt sparseRun.next).2.2
       let v := Io.run (stationaryCodes sparseAt sparseRun x.1 x.2) sparseAt
       (match v.1 with
        | .ok nz => nz == 4
        | _ => false) = true ∧ v.2.miss = [] ∧ v.2.stall = false) := by
  decide +kernel

/-- The running order reads an FP4 cake as operand A. -/
def cakeRun : Run := { runOf started with dA := { fmt := 8, rows := 1, klen := 32, rowstride := 48, base := 0x6000 } }
def goodCake : List Byte := encodeCake cakeRun.dA 127 0 false false false (List.replicate 32 true) (List.replicate 32 1)

theorem meets_TileAttemptsEnd :
    (physOf started 5 = some 5 ∧ logOf started 5 = some 5 ∧ (hdr started (.pan 5)).mode ≠ .faulted ∧
      (hdr started (.pan 5)).errsev = 0 ∧ (hdr started (.pan 5)).slotA.valid = false ∧
      (lp started 5).active = some (.run, runOf started) ∧ (runOf started).replayable = true ∧
      (runOf started).ord.settle = false ∧ (runOf started).replayed = false) ∧
    (let s := modLp started 5 fun x => { x with run := some { runOf started with replayed := true } }
     (lp s 5).active = some (.run, { runOf started with replayed := true }) ∧ physOf s 5 = some 5 ∧ logOf s 5 = some 5) ∧
    (let s := modLp started 5 fun x => { x with run := some { runOf started with opened := true } }
     (lp s 5).active = some (.run, { runOf started with opened := true })) ∧
    (let s := modLp started 5 fun x => { x with run := none, armed := vset x.armed 3 (some (runOf started)), tideTile := some 3 }
     (lp s 5).active = some (.armed 3, runOf started)) := by
  decide +kernel

theorem meets_TileAttemptsEnd_rereads :
    let s := modLp started 5 fun x => { x with run := some cakeRun }
    let t := put s 0x6000 goodCake
    (lp s 5).active = some (.run, cakeRun) ∧ Here s 0x6000 ∧ hostAddr s 0x6000 = 0x6000 ∧
      cakeRun.wellFormed s 0 (memBytes s.host 0x6000 goodCake.length) = false ∧ cakeRun.wellFormed s 0 goodCake = true ∧
      (lp t 5).active = some (.run, cakeRun) ∧ Here t 0x6000 ∧
      cakeRun.wellFormed t 0 (memBytes t.host 0x6000 goodCake.length) = true ∧
      (let u := modLp s 5 fun x => { x with run := some { cakeRun with started := false } }
       (lp u 5).active = none ∧ (lp u 5).run = some { cakeRun with started := false }) := by
  decide +kernel

/-- An order of SETTLE kind, and one whose stream waits for its settlement. -/
def settleRun : Run := { runOf started with
  ord := { copyOrder with settle := true, pslots := 4, ptag := 3 }, started := false, fold := { front := 2 } }
def streamRun : Run := { runOf started with dOut := { fmt := 8, addr := 0x7000, stats := 0x7100, hist := 9, rows := 1, klen := 32 } }

theorem meets_SettlementAndNotices :
    (∀ m ∈ [1, 2], let x : Settling := { n := 4, mode := m, d := streamRun.dOut }
     let s := modLp ready 5 fun y => { y with passed := [{ streamRun with n := 4 }], settle := some x }
     livePan s 5 = some 5 ∧ (lp s 5).settle = some x ∧ credits s = true ∧ Here s (x.d.stats + 8) ∧ Here s (x.d.stats + 28) ∧
       Here s (x.d.addr + 32) ∧ (lp s 5).placeOf 4 = some (.passed 4) ∧ streamRun.ord.settle = false ∧
       (lp s 5).passed.find? (fun y => y.n = 4) = some { streamRun with n := 4 }) ∧
    (let s := modLp ready 5 fun x => { x with run := some settleRun, notices := [((6 : W32).toNat, none)] }
     physOf s 5 = some 5 ∧ (hdr s (.pan 5)).errsev = 0 ∧ s.pwr.ptrans = none ∧ (lp s 5).run = some settleRun ∧
       settleRun.ord.settle = true ∧ settleRun.ord.pslots ≠ 0 ∧ settleRun.started = false ∧
       (lp s 5).notices = [((6 : W32).toNat, none)] ∧ settleRun.fold.front ≤ (6 : W32).toNat ∧ settleRun.fold.slots = [] ∧
       (1 : W32).toNat < settleRun.fold.front) := by
  decide +kernel

def modMap (s : State) (l : Fin 60) : State := modGlb s fun g => { g with panmap := vmod g.panmap l fun e => { e with missing := true } }

theorem meets_PansWakeSwapAndGate :
    (let s := modPan on 63 fun x => { x with pwr := .waking }
     (pn s 63).pwr = .waking ∧ (pn s 63).wakeFor = none) ∧
    (let s := modPan on 63 fun x => { x with pwr := .waking, wakeFor := some 59 }
     (pn s 63).pwr = .waking ∧ (pn s 63).wakeFor = some 59 ∧ (pn s 63).forIsolate = false) ∧
    (let s := modMap on 59
     physOf s 59 = none ∧ (∀ q, (pn s q).wakeFor ≠ some 59) ∧ lowReserve s = some 60 ∧ (pn s 60).pwr ≠ .live ∧ s.tst.tests = []) ∧
    (let s := modFlt (modMap on 0) fun f => { f with rsvok := 0 }
     physOf s 0 = none ∧ (∀ q, (pn s q).wakeFor ≠ some 0) ∧ lowReserve s = none ∧ s.flt.nospare = false) ∧
    (let s := modHdr (modPwr on fun p => { p with pidle := 5 }) .pwr fun h => { h with abi := 0x0103 }
     (hdr s .pwr).abi = 0x0103 ∧ s.pwr.pidle ≠ 0 ∧ (pn s 7).pwr = .live ∧ logOf s 7 = some 7 ∧ (lp s 7).running = false) ∧
    (let s := { modPan on 61 (fun x => { x with pwr := .live }) with wear := some { live := 7, rsv := 61 } }
     s.wear = some { live := 7, rsv := 61 } ∧ logOf s 7 = some 7 ∧ (pn s 61).pwr = .live ∧ (lp s 7).running = false) := by
  decide +kernel

/-- Shard 9 owns a gradient tensor of 32 FP32 elements at 0x3000. -/
def owned : State := modShard ready 9 fun h =>
  { h with srec := { role := 1, lslot := 4, sblk := 0x10000, prog := 0x20000, scal := 0x21000, gdesc := 0x1000, crec := 0x22000 }
           gd := descOf 0x1000 (plainDesc 0x3000), gexp := 3, gcnt := 1 }

/-- The same, of the slow tier, with a pool and a page-in that waits. -/
def paging : State := modShard (put (modGlb owned fun g => { g with pgSize := 0x10000, pgBase := 0x900000 }) 0x10000 (plainDesc 0x3000)) 9
  fun h => { h with srec := { h.srec with slow := true }, pgWait := some 1 }
def paged : State := after (exec (.pageIn 9) paging)

theorem meets_GradientsLandAndPageIn :
    (gradShardOf owned 0x3000 = some 9 ∧ Here owned 0x3000 ∧ landWaits owned 9 = false ∧
      (shardOf owned 9).srec.slow = false ∧ (shardOf owned 9).gcnt + 1 ≠ (shardOf owned 9).gexp) ∧
    (let s := modShard owned 9 fun h => { h with gcnt := 2, ready := true }
     gradShardOf s 0x3000 = some 9 ∧ landWaits s 9 = true ∧ (shardOf s 9).gcnt + 1 = (shardOf s 9).gexp) ∧
    (paging.pwr.pstate = .active ∧ noStarts paging = false ∧ pageWaits (shardOf paging 9) = true ∧ pageFirst paging 9 = true ∧
      slotSize paging (activeDescs paging (shardOf paging 9)) = 128 ∧ poolRoom paging 128 = some 0) ∧
    ((shardOf paged 9).pgin = true ∧ (shardOf paged 9).pool = some (0, 128) ∧ credits paged = true ∧ Here paged 0x900000 ∧
      (match ((ioPageIn (paged.beginAs .core []) (shardOf paged 9) 0).run (paged.beginAs .core [])).1 with
       | .ok [(a, _)] => a == 0x900000
       | _ => false) = true) := by
  decide +kernel

theorem meets_GradientsLandAndPageIn_reads :
    ((ioPageIn (paged.beginAs .core []) (shardOf paged 9) 0).run (paged.beginAs .core [])).2 = paged.beginAs .core [] := by
  decide +kernel

/-- A READY shard whose program is one NOP on one stream; its job as started, and as ended with one stored value. -/
def jobReady : State := modShard (put (put owned 0x10000 (((List.range 8).map fun k =>
    if k = 0 then plainDesc 0x3000 else if k = 4 then plainDesc 0x5000 else List.replicate 64 0).flatten))
    0x20000 (leBytes 2 1 ++ [1, 0] ++ leBytes 12 0 ++ [1, 0] ++ List.replicate 46 0)) 9
  fun h => { h with ready := true, jstep := 3, gd := {} }
def jobRun : State := after (exec (.jobStart 9 []) jobReady)
def jobOf0 (s : State) : Job := (eng s 0).job.getD { bind := {}, img := { addr := 0, words := [], streams := [] }, jrec := { shard := 0, step := 0, lslot := 0 } }
def jobEnded (fault : Bool) : State := modVrdR (modEng (after (exec (.nop (.hrv 0) {}) jobRun)) 0 fun e =>
    { e with job := e.job.map fun j => { j with sts := [{ role := 3, elem := 2, dbl := false, bits := 0x3F800000 }]
                                                jrec := { j.jrec with fault := fault } } }) fun v => { v with vstep := 3 }

theorem meets_JobsAndFetchesRun_start :
    firstReady jobReady = some 9 ∧ idleEngine jobReady = some 0 ∧ jobMayStart jobReady (shardOf jobReady 9) = true ∧
    noStarts jobReady = false ∧ jobReady.pwr.pstate = .active ∧
    (let s0 := useStep (jobReady.beginAs (.hrv 0) []) 0x40
     let r := (ioJob s0 0 9).run s0
     r.2.miss = [] ∧ r.2.stall = false ∧ (match r.1 with
       | .ok x => !x.img.bad && !(x.img.streams.any fun y => y.role ≠ 0 &&
           streamBad (placeJob r.2 0 9 x) x.bind (shardOf r.2 9).srec.auxd y) && x.bads.isEmpty
       | _ => false) = true) := by
  decide +kernel

/-- An engine's job as its stores begin. -/
def storing (s : State) : State := modJob (s.beginAs (.hrv 0) []) 0 fun j => { j with stored := true }

theorem meets_JobsAndFetchesRun_complete :
    (∀ b, (eng (jobEnded b) 0).job = some (jobOf0 (jobEnded b)) ∧ (jobOf0 (jobEnded b)).ended = true ∧
      (jobEnded b).pwr.pstate = .active ∧ (jobEnded b).flt.lastrst ≠ 3 ∧ (jobOf0 (jobEnded b)).pendSeq = none ∧
      (jobEnded b).twn.regs.twen = false ∧ newer (jobEnded b).vrd.regs.vstep (jobOf0 (jobEnded b)).jstep = false ∧
      (eng (jobEnded b) 0).pflush = false ∧ (jobOf0 (jobEnded b)).jrec.fault = b ∧
      (jobOf0 (jobEnded b)).stored = false ∧ credits (jobEnded b) = true ∧ writesOut ((jobEnded b).begin []) (.hrv 0) = false) ∧
    (match ((ioOutputs (storing (jobEnded false)) (jobOf0 (jobEnded false))).run (storing (jobEnded false))).1 with
     | .ok (acc, []) => acc.writes.length == 1 && !acc.nonfin && acc.writes.all fun x => decide (Here (jobEnded false) x.1)
     | _ => false) = true := by
  decide +kernel

theorem meets_JobsAndFetchesRun_reads :
    ((ioOutputs (storing (jobEnded false)) (jobOf0 (jobEnded false))).run (storing (jobEnded false))).2 = storing (jobEnded false) := by
  decide +kernel

/-- A follower whose order waits for epoch 5 while its owner's record is at epoch 6. -/
def ownerRec : List W32 := mkRec 6 0 true 3 1 4 77
def following : State :=
  modLp (modShard (put (put (put (put ready 0x30000 (recBytes ownerRec)) 0x31000 (plainDesc 0x3000)) 0x31100 (plainDesc 0x3000)) 0x32100
    (plainDesc 0x5000)) 9 fun h =>
    { h with srec := { role := 2, owner := 3, auxd := 0x30000, gdesc := 0x31000, sblk := 0x32000, crec := 0x33000 }, cep := 4 }) 7
    fun x => { x with win := [{ n := 1, gate := .wait, ord := { copyOrder with wcrec := 0x33000, wepoch := 5 } }] }

/-- The follower's fetch by salter 7 at a phase. -/
def fetching (ph : FetchPh) : State := modShard following 9 fun h => { h with fetch := some (ownerRec, 7, ph) }

theorem meets_JobsAndFetchesRun_fetch :
    ((shardOf following 9).srec.role = 2 ∧ (shardOf following 9).badrec = false ∧ firmwareSalter following 7 = true ∧
      noStarts following = false ∧ following.twn.regs.jstate ≠ .fenced ∧ recSumOk ownerRec = true ∧
      recOwner ownerRec = (shardOf following 9).srec.owner ∧ ownerRec.length = 16 ∧
      memBytes following.host (shardOf following 9).srec.auxd 64 = recBytes ownerRec ∧ (shardOf following 9).fetch = none ∧
      waitingEpochs following (shardOf following 9) = [5] ∧ newer (5 : W32) (recEpoch ownerRec) = false ∧
      following.pwr.pstate = .active ∧ credits following = true ∧ Here following (shardOf following 9).srec.auxd ∧
      hostAddr following (shardOf following 9).srec.auxd = 0x30000 ∧ (shardOf following 9).fetchWait = false) ∧
    (let s := modLp following 7 fun x => { x with win := x.win.map fun w => { w with ord := { w.ord with wepoch := 7 } } }
     waitingEpochs s (shardOf s 9) = [7] ∧ newer (7 : W32) (recEpoch ownerRec) = true) ∧
    (let s := fetching .held
     (shardOf s 9).fetch = some (ownerRec, 7, .held)) ∧
    (let s := fetching .agreed
     (shardOf s 9).fetch = some (ownerRec, 7, .agreed) ∧ slotHolds s (shardOf s 9) (!(shardOf s 9).slot) = 0 ∧
       Here s (shardOf s 9).srec.crec ∧ Here s 0x5000 ∧
       (match ((ioFetch (s.beginAs (.slt 7) []) (shardOf s 9) (recSlot ownerRec) (!(shardOf s 9).slot)).run (s.beginAs (.slt 7) [])).1 with
        | .ok [(a, bs)] => a == 0x5000 && bs.length == 128
        | _ => false) = true) := by
  decide +kernel

theorem meets_JobsAndFetchesRun_fetch_reads :
    let s := (fetching .agreed).beginAs (.slt 7) []
    ((ioFetch s (shardOf s 9) (recSlot ownerRec) (!(shardOf s 9).slot)).run s).2 = s := by
  decide +kernel

/-- A rake event of an entry whose rake block names no tensor, and what it leaves. -/
def raking : State :=
  let s := put (modDir ready 4095 fun e => { e with role := 1, rblk := 0x40000, crec := 0x41000, busy := true, mep := 3 }) 0x41000
    (recBytes (mkRec 8 3 false 0 1 2 0))
  { s with rak := { s.rak with evq := [{ mid := 4095, step := 7, xch := 1, cands := 1, ktarget := 1, kstep := 1 }] } }
def raked : State := after (exec (.rakeEvent []) raking)

theorem meets_RakeEventsRun :
    (rakeGoes raking = true ∧ noStarts raking = false ∧ raking.twn.regs.jstate ≠ .fenced ∧ (dirOf raking 4095).rdrB = 0#8 ∧
      (dirOf raking 4095).slot = false ∧ raking.twn.regs.twen = false ∧ (dirOf raked 4095).mep = 4 ∧ raked.rak.evq = []) ∧
    (raked.rak.retire.length = 1 ∧ raked.rak.retire.all (retireReady raked) = true ∧ raked.flt.frake = false ∧
      halted raked 0x50 = false ∧ (hdr raked .rak).mode = .active ∧ raked.pwr.pstate = .active) := by
  decide +kernel

/-- Salter 3 under customer code, and as its kernel runs, with its vector registers in p0's lanes. -/
def custom : State := modSlt ready 3 fun x => { x with regs := { x.regs with cust := true, clen := 64, cimg := 0x1000, carg := 77 } }
def salting : State := modSlt custom 3 fun x => { x with mode := .run, pc := 0x100, tvec := 0x2000, shard := 9, streams := 0x1000
                                                         x := vset (vset x.x 6 0x200) 8 0x100000800#64
                                                         lmem := memPut [] 0x1000 [1, 0, 0, 0, 3, 0, 0, 0]
                                                         vec := { x.vec with p := vset x.vec.p 0 0xFFFF } }

theorem meets_KernelCommands :
    (Answers custom (.slt 3) ∧ (salt custom 3).regs.cust = true ∧ pageState custom (.slt 3) = .idle ∧
      (salt custom 3).regs.cgo = false ∧ 64 ≤ (salt custom 3).regs.clen.toNat ∧ (salt custom 3).regs.clen.toNat ≤ 0x40000 ∧
      (salt custom 3).regs.clen.toNat % 64 = 0) ∧
    (let s := modSlt custom 3 fun x => { x with regs := { x.regs with clen := 100 } }
     (salt s 3).regs.clen.toNat % 64 ≠ 0 ∧ Answers s (.slt 3) ∧ pageState s (.slt 3) = .idle) ∧
    (let s := modSlt custom 3 fun x => { x with regs := { x.regs with cgo := true } }
     (salt s 3).regs.cgo = true ∧ Here s (salt s 3).regs.cimg.toNat ∧ credits s = true) ∧ Answers custom (.hrv 3) := by
  decide +kernel

/-- Engine 2 in the middle of a job of five words on a 32-element shard: stream 0 reads GRAD, stream 1 writes W_OUT. -/
def gradDesc : Desc := { descOf 0x1000 (plainDesc 0x3000) with base := 0x3000 }
def working : State := modEng ready 2 fun x => { x with
  vec := { x.vec with p := vset x.vec.p 0 (BitVec.ofNat 64 (2 ^ 32 - 1)) }
  job := some { bind := { blk := List.replicate 8 gradDesc, gdesc := gradDesc, elems := (List.range 32).map fun p => (0, p) }
                img := { addr := 0, words := List.replicate 5 0, streams := [{ role := 1 }, { role := 3 }] }, pc := 1
                jrec := { shard := 4, step := 0, lslot := 0 } } }
def workJob : Job := (eng working 2).job.getD { bind := {}, img := { addr := 0, words := [], streams := [] }, jrec := { shard := 0, step := 0, lslot := 0 } }
/-- FADD.S of registers 6 and 7 into 4, and the same with an unused field set. -/
def faddWord : VFields := { d := 4, a := 6, b := 7 }

theorem meets_VectorInstructionsRun :
    (hrvIssues working 2 = true ∧ (eng working 2).job = some workJob ∧ legalVec 1 faddWord = true ∧
      workJob.pc + 1 < workJob.img.words.length ∧ legalVec 1 { faddWord with c := 1 } = false ∧
      (hdr working (.hrv 2)).errsev = 0 ∧ (hdr working (.hrv 2)).slotA.valid = false) ∧
    sltIssues salting 3 = true := by
  decide +kernel

theorem meets_StreamInstructionsRun :
    (legalVec 0x21 { d := 4, b := 0 } = true ∧ (workJob.img.streams.getD 0 {}).isIn = true ∧
      (workJob.img.streams.getD 0 {}).nfchk = false ∧ (hdr working (.hrv 2)).iarm = false ∧
      (match ((ioLds (working.beginAs (.hrv 2) []) workJob (workJob.img.streams.getD 0 {}) false).run (working.beginAs (.hrv 2) [])).1 with
       | .ok (.ok, vs, []) => vs.length == 32
       | _ => false) = true ∧
      legalVec 0x22 { a := 5, b := 1 } = true ∧ (workJob.img.streams.getD 1 {}).isOut = true ∧
      legalVec 0x24 { d := 4, a := 5, b := 6 } = true) ∧
    (let s := modShard (put salting 0x10000 ((List.replicate 8 (plainDesc 0x3000)).flatten)) 9 fun h =>
       { h with srec := { h.srec with role := 1, sblk := 0x10000, gdesc := 0x1000 } }
     sltIssues s 3 = true ∧ (sltStream s 3 0).isIn = true ∧ sltEntryBad s 3 0 = false ∧
       (match ((ioLdsSlt (s.beginAs (.slt 3) []) 3 (sltStream s 3 0)).run (s.beginAs (.slt 3) [])).1 with
        | .ok (some vs) => vs.length == 16
        | _ => false) = true ∧
       (sltStream s 3 1).isOut = true ∧ sltEntryBad s 3 1 = false ∧
       (match ((ioRoles (s.beginAs (.slt 3) []) (salt s 3).shard.toNat).run (s.beginAs (.slt 3) [])).1 with
        | .ok b => !streamBad (s.beginAs (.slt 3) []) b (shardOf s (salt s 3).shard.toNat).srec.auxd (sltStream s 3 1)
        | _ => false) = true) := by
  decide +kernel

theorem meets_StreamInstructionsRun_reads :
    ((ioLds (working.beginAs (.hrv 2) []) workJob (workJob.img.streams.getD 0 {}) false).run (working.beginAs (.hrv 2) [])).2 =
      working.beginAs (.hrv 2) [] ∧
    (let s := (modShard (put salting 0x10000 ((List.replicate 8 (plainDesc 0x3000)).flatten)) 9 fun h =>
       { h with srec := { h.srec with role := 1, sblk := 0x10000, gdesc := 0x1000 } }).beginAs (.slt 3) []
     ((ioLdsSlt s 3 (sltStream s 3 0)).run s).2 = s ∧ ((ioRoles s (salt s 3).shard.toNat).run s).2 = s) := by
  decide +kernel

theorem meets_SalterComputes : sltIssues salting 3 = true ∧ (10 : Fin 32).1 = 10 ∧ Csr.tcause ≠ .reserved ∧ (7 : Fin 32).1 ≤ 7 ∧
    Csr.tcause ≠ .streams ∧ Csr.tcause ≠ .shard ∧ Csr.streams ≠ .reserved := by
  decide +kernel

theorem meets_SalterLoadsAndStores :
    (let p := ((salt salting 3).rx 6 + (0xFE00 : W16).signExtend 64).toNat
     p % 8 = 0 ∧ p + 8 ≤ 0x40000 ∧ (hdr salting (.slt 3)).iarm = false) ∧
    ((0x3FFF8 : Nat) % 8 = 0 ∧ 0x3FFF8 + 8 ≤ 0x40000) ∧
    (let p := ((salt salting 3).rx 8 + (0x800 : W16).signExtend 64).toNat
     p % 8 = 0 ∧ 2 ^ 32 ≤ p ∧ Here salting (p - 2 ^ 32) ∧ salting.txns = [] ∧ credits salting = true ∧
       creditOk salting (salt salting 3).regs.squad (some (agentShare (salt salting 3).regs.sshare)) = true) ∧
    (((salt salting 3).rx 6 + (0x3 : W16).signExtend 64).toNat % 4 ≠ 0 ∧ (salt salting 3).regs.cust = true ∧
      (hdr salting (.slt 3)).errsev = 0 ∧ (3 : Fin 8) ≠ salting.flt.hsalt ∧ (hdr salting (.slt 3)).slotA.valid = false ∧
      (salt salting 3).inTrap = false) := by
  decide +kernel

theorem meets_SalterControls :
    (sltIssues salting 3 = true ∧ (salt salting 3).sts = [] ∧ (salt salting 3).regs.cust = true ∧
      (hdr salting (.slt 3)).errsev = 0 ∧ (3 : Fin 8) ≠ salting.flt.hsalt ∧ (salt salting 3).inTrap = false) ∧
    (salt salting 3).outs (sltTable salting 3) = [] ∧
    (match ((ioBind (salting.beginAs (.slt 3) []) (salt salting 3).shard.toNat).run (salting.beginAs (.slt 3) [])).1 with
     | .ok (b, _) => b.elems.isEmpty
     | _ => false) = true ∧
    ((ioBind (salting.beginAs (.slt 3) []) (salt salting 3).shard.toNat).run (salting.beginAs (.slt 3) [])).2 =
      salting.beginAs (.slt 3) [] := by
  decide +kernel

/-! Frames: member 4 sends on link 2 to instance 0. -/

def netted : State := modLk { ready with twn := { ready.twn with
    regs := { ready.twn.regs with domain := 0x77, members := 0x31, session := 9, route := vset (vset ready.twn.regs.route 4 0x9A) 5 0x0B
                                  rw := vset ready.twn.regs.rw 0 { base := 0x9000, lim := 0xA000 } }
    sess := [(4, some 3), (5, some 3)] } } 2 fun x => { x with regs := { x.regs with lstate := 2, laneok := 0xFF } }

def frame (t cls : Nat) (ts pl : List Byte) : Frame :=
  sealCrc { ftype := BitVec.ofNat 8 t, fctl := BitVec.ofNat 8 cls, plen := BitVec.ofNat 16 pl.length, src := 4, dom := 0x77, sess := 3
            tspec := fitTo 12 ts, payload := pad64 pl }

theorem meets_NoneWaiting : NoneWaiting netted := by
  decide +kernel

/-- A frame is in sequence. -/
def inSeq (f : Frame) : Bool :=
  linkHears netted 2 && bufferFree netted 2 f && (strangerOf netted f).isNone && !toAdopted netted f
    && sessOf netted f.src.toNat == some f.sess && fProt f == 0
    && rxPos netted f == ((pairOf netted false f.src.toNat (fClass f)).rxNext : Int)
    && !newer f.crlim ((pairOf netted false f.src.toNat (fClass f)).limit (fClass f))

theorem inSeq_frame {f g : Frame} (h : inSeq f = true) (hg : f = sealCrc g) : InSequence netted 2 f := by
  have hf : f.fcrc = frameCrc f := by subst hg; rfl
  simp only [inSeq, Bool.and_eq_true, Bool.not_eq_true', beq_iff_eq, Option.isNone_iff_eq_none] at h
  obtain ⟨⟨⟨⟨⟨⟨⟨h1, h2⟩, h3⟩, h4⟩, h5⟩, h6⟩, h7⟩, h8⟩ := h
  exact ⟨h1, hf, h2, h3, h4, h5, h6, h7, h8⟩

def writeFrame (a : Nat) : Frame := frame 4 2 (leBytes 8 a) [1, 2, 3, 4]
def readFrame : Frame := frame 5 2 (leBytes 8 0x9FD0 ++ leBytes 2 3 ++ leBytes 2 0x1234) []
def holdFrame' (op : Nat) : Frame := frame 7 2 (leBytes 4 9 ++ leBytes 1 op ++ [0, 0]) []

theorem meets_RemoteAccessFrames_sequence :
    InSequence netted 2 (writeFrame 0x9FFC) ∧ InSequence netted 2 readFrame ∧ InSequence netted 2 (frame 6 2 [0x12, 0, 0] [1]) ∧
      InSequence netted 2 (holdFrame' 0) := by
  refine ⟨inSeq_frame ?_ rfl, inSeq_frame ?_ rfl, inSeq_frame ?_ rfl, inSeq_frame ?_ rfl⟩ <;> decide +kernel

theorem meets_RemoteAccessFrames :
    (fClass (writeFrame 0x9FFC) = 2 ∧ netted.pwr.pstate = .active ∧ netted.pwr.ptrans = none ∧ (writeFrame 0x9FFC).reb = 0 ∧
      netted.txns = [] ∧ goesOn netted (.lnk 2) = true ∧ ownFrame 4 0 (writeFrame 0x9FFC) = true ∧
      inWindow netted (tsAt (writeFrame 0x9FFC) 20 8) 4 = true ∧ gradShardOf netted 0x9FFC = none ∧
      writeCakesBad netted (writeFrame 0x9FFC) = false ∧
      linkCredit netted 2 = true ∧ Here netted 0x9FD0 ∧ bit netted.twn.noRoute 4 = false ∧
      inWindow netted (tsAt (writeFrame 0x9FFD) 20 8) 4 = false) ∧
    (ownFrame 5 0 readFrame = true ∧ inWindow netted (tsAt readFrame 20 8) (16 * tsAt readFrame 28 2) = true ∧
      netted.twn.regs.prot = 0 ∧ netted.twn.regs.jstate ≠ .fenced ∧ routeLink (routeOf netted 4) = some 2 ∧ linkUp netted 2 = true ∧
      newer ((pairOf netted false 4 2).limit 2) (BitVec.ofNat 16 (pairOf netted false 4 2).txNext) = true) ∧
    (let s := modTwn netted fun t => { t with rdreqs := [(0x12, 0x100, 1)] }
     s.twn.rdreqs = [(0x12, 0x100, 1)] ∧ rdrspCakesBad s (frame 6 2 [0x12, 0, 0] [1]) = false ∧ NoneWaiting s) ∧
    (ownFrame 6 0 (frame 6 2 [0x12, 0, 0] [1]) = true ∧ tsAt (frame 6 2 [0x12, 0, 0] [1]) 20 2 = 0x12 ∧
      tsAt (frame 6 2 [0x12, 0, 0] [1]) 22 1 = 0) ∧
    (let s := modShard netted 9 fun h => { h with srec := { role := 1 }, rdrA := 254 }
     ownFrame 7 0 (holdFrame' 0) = true ∧ tsAt (holdFrame' 0) 20 4 = 9 ∧ (shardOf s 9).srec.role = 1 ∧
       (shardOf s 9).srec.masked = false ∧ tsAt (holdFrame' 0) 24 1 = 0 ∧ nbit (tsAt (holdFrame' 0) 25 1) 0 = false ∧
       s.twn.holds.length < 256 ∧ (shardOf s 9).rdrA ≠ 255 ∧ tsAt (holdFrame' 1) 24 1 = 1) := by
  decide +kernel

def tileFrame : Frame := frame 1 2 (leBytes 4 0x99 ++ leBytes 4 1 ++ leBytes 2 2) (List.replicate 64 7)
def partFrame : Frame := frame 2 2 (leBytes 4 0x31 ++ leBytes 4 6 ++ leBytes 4 0x80000020) (List.replicate 16 7)
def grantFrame : Frame := frame 3 2 (leBytes 4 0x31 ++ leBytes 4 6 ++ [4]) (leBytes 8 0x60000)
def tideRun : Run := { n := 0, ord := { copyOrder with tide := true, stag := 0x99 }, chain := {}, dA := { rows := 4, klen := 32, rowstride := 128 } }
def foldRun : Run := { n := 0, ord := { copyOrder with settle := true, ptag := 0x31, pslots := 4, parea := 0x50000 }, chain := {} }
def sendRun : Run := { n := 0, ord := { copyOrder with split := true, sinst := 4, ptag := 0x31 }, chain := {}, started := true }

theorem meets_OrderFrames_sequence :
    InSequence netted 2 tileFrame ∧ InSequence netted 2 partFrame ∧ InSequence netted 2 grantFrame := by
  refine ⟨inSeq_frame ?_ rfl, inSeq_frame ?_ rfl, inSeq_frame ?_ rfl⟩ <;> decide +kernel

theorem meets_OrderFrames :
    (let s := modLp netted 5 fun x => { x with armed := vset x.armed 3 (some tideRun) }
     ownFrame 1 0 tileFrame = true ∧ tileCakesBad s tileFrame = false ∧ vget (lp s 5).armed 3 = some tideRun ∧
       tideRun.ord.stag.toNat = tsAt tileFrame 20 4 ∧ (lp s 5).tideBytes + 64 ≤ 262144 ∧ tideRun.frags = [] ∧
       (∀ m i, m ≠ 5 ∨ i ≠ 3 → vget (lp s m).armed i = none)) ∧
    (let s := modLp netted 5 fun x => { x with run := some foldRun }
     ownFrame 2 0 partFrame = true ∧ (lp s 5).run = some foldRun ∧ foldRun.ord.settle = true ∧
       foldRun.ord.ptag.toNat = tsAt partFrame 20 4 ∧ foldRun.ord.pslots ≠ 0 ∧ nbit (tsAt partFrame 28 4) 31 = true ∧
       linkCredit s 2 = true ∧ Here s (slotAddr { front := 0, pslots := 4, parea := 0x50000 } foldRun.ord 0 6 + 0x20)) ∧
    (let s := modLp netted 5 fun x => { x with run := some sendRun }
     ownFrame 3 0 grantFrame = true ∧ tsAt grantFrame 28 1 ≠ 0 ∧ (lp s 5).run = some sendRun ∧
       senderOf (BitVec.ofNat 32 (tsAt grantFrame 20 4)) sendRun.ord = true ∧ sendRun.blocks = [] ∧ sendRun.started = true ∧
       ∀ m, (m ≠ 5 → (lp s m).run = none) ∧ (lp s m).win = []) := by
  decide +kernel

/-! Frames of the verdict, join and twin classes. -/

def vupFrame : Frame := frame 8 0 (leBytes 4 0) []
def vdnFrame : Frame := frame 9 0 (leBytes 4 0 ++ leBytes 4 1) (List.replicate 40 1)
def vackFrame : Frame := frame 0x0A 0 (leBytes 4 0) []
def creditFrame : Frame := frame 0x0B 0 [] ((List.range 3).map fun c => leBytes 2 0 ++ leBytes 2 (1000 + c)).flatten
def nackFrame : Frame := sealCrc { frame 0x0C 0 ([2, 0, 0, 0] ++ leBytes 2 7) [] with ack := 7 }
def probeFrame (op : Byte) : Frame := frame 0x0D 0 [op] []
def joinFrame (op : Byte) : Frame := frame 0x0E 0 ([op, 3, 1, 0] ++ leBytes 4 0x55) []
def takeFrame (op num : Byte) : Frame := frame 0x0F 0 [num, op] []
def jrnlFrame (n : Byte) (pl : List Byte) : Frame := frame 0x10 1 (leBytes 4 6 ++ [n] ++ leBytes 2 255) pl
def hbeatFrame (st : Byte) : Frame := frame 0x11 1 (leBytes 4 6 ++ [st]) []

theorem meets_VerdictFrames_sequence :
    InSequence netted 2 vupFrame ∧ InSequence netted 2 vdnFrame ∧ InSequence netted 2 vackFrame ∧ InSequence netted 2 creditFrame ∧
      InSequence netted 2 nackFrame ∧ InSequence netted 2 (probeFrame 1) := by
  refine ⟨inSeq_frame ?_ rfl, inSeq_frame ?_ rfl, inSeq_frame ?_ rfl, inSeq_frame ?_ rfl, inSeq_frame ?_ rfl, inSeq_frame ?_ rfl⟩ <;>
    decide +kernel

/-- A child's master, a parent's leaf, and a master with its deputy. -/
def master : State := modVrdR netted fun v => { v with vchild := 0x10, vsize := 2 }
def leaf : State := modVrdR netted fun v => { v with vparent := 4, closed := true }
def deputised : State := modVrd (modVrdR master fun v => { v with vdep := 4 }) fun v => { v with formed := some { step := 0, commit := true } }
def unacked : State := modPair netted false 4 2 fun p => { p with unacked := [{ ext := 7, link := 2, frame := {}, plain := [] }], txNext := 8 }

theorem meets_VerdictFrames :
    (ownFrame 8 0 vupFrame = true ∧ (VMsg.ofFrame vupFrame).step = master.vrd.regs.vstep ∧ master.vrd.formed = none ∧
      bit master.vrd.regs.vchild 4 = true ∧ master.vrd.own = none ∧ master.vrd.vups = [] ∧ fClass vupFrame = 0 ∧ vupFrame.reb = 0 ∧
      bit master.twn.lost 4 = false ∧ takenOver master 4 = false) ∧
    (ownFrame 9 0 vdnFrame = true ∧ leaf.shard = [] ∧ leaf.vrd.evals = [] ∧ leaf.twn.regs.twen = false ∧ leaf.vrd.flipping = none ∧
      (VMsg.ofFrame vdnFrame).step = leaf.vrd.regs.vstep ∧ leaf.vrd.regs.vparent = vdnFrame.src ∧ leaf.vrd.regs.vsize.toNat ≤ 1 ∧
      leaf.vrd.regs.vchild = 0) ∧
    (ownFrame 0x0A 0 vackFrame = true ∧ deputised.vrd.formed = some { step := 0, commit := true } ∧ tsAt vackFrame 20 4 = 0 ∧
      deputised.vrd.regs.vparent = 0xFF ∧ children deputised = [4] ∧ deputised.vrd.regs.vdep = vackFrame.src ∧
      bit deputised.twn.lost 4 = false ∧ takenOver deputised 4 = false) ∧
    (ownFrame 0x0B 0 creditFrame = true ∧ 12 ≤ creditFrame.plen.toNat ∧ ∀ c : Fin 3,
      newer (BitVec.ofNat 16 (leAt creditFrame.payload (4 * c.1 + 2) 2)) ((pairOf netted false 4 c.1).limit c.1) = true) ∧
    (ownFrame 0x0C 0 nackFrame = true ∧ tsAt nackFrame 20 1 = 2 ∧ tsAt nackFrame 21 1 = 0 ∧
      (∀ x ∈ unacked.twn.pairs, x.2.queue = []) ∧ tsAt nackFrame 24 2 = 7 ∧ nackFrame.ack = 7 ∧
      (pairOf unacked false 4 2).backoff = none ∧ 7 < (pairOf unacked false 4 2).txNext ∧
      (pairOf unacked false 4 2).attempts < (lk unacked 2).regs.retrylim.toNat) ∧
    (ownFrame 0x0D 0 (probeFrame 0) = true ∧ tsAt (probeFrame 0) 20 1 = 0 ∧ tsAt (probeFrame 1) 20 1 = 1 ∧
      bit (modTwn netted fun t => { t with probing := 0x10 }).twn.probing 4 = true ∧ routeAlt (routeOf netted 4) = some 1 ∧
      maySend netted false 4 0 (some 2) = true) := by
  decide +kernel

/-- Joining under parent 4, joined with 4 as twin, and taking 4's number over. -/
def joiner : State := modVrdR (modGlb (modJstate netted .joining) fun g => { g with bstage := 7 }) fun v => { v with vparent := 4 }
def twinned : State := modTwnR netted fun t => { t with twen := true, twin := 4 }

theorem meets_JoinAndTwinFrames_sequence :
    InSequence netted 2 (joinFrame 0) ∧ InSequence netted 2 (joinFrame 3) ∧ InSequence netted 2 (takeFrame 0 5) ∧
      InSequence netted 2 (jrnlFrame 1 (1 :: List.replicate 127 3)) ∧ InSequence netted 2 (hbeatFrame 2) := by
  refine ⟨inSeq_frame ?_ rfl, inSeq_frame ?_ rfl, inSeq_frame ?_ rfl, inSeq_frame ?_ rfl, inSeq_frame ?_ rfl⟩ <;> decide +kernel

theorem meets_JoinAndTwinFrames :
    (ownFrame 0x0E 0 (joinFrame 0) = true ∧ master.twn.regs.jstate = .joined ∧ children master = [4] ∧ takenOver master 4 = false ∧
      1 + tsAt (joinFrame 0) 22 1 = wantedSize master ∧ fClass (joinFrame 0) = 0) ∧
    (joiner.twn.regs.jstate = .joining ∧ joiner.vrd.regs.vparent = (joinFrame 1).src ∧ children joiner = [] ∧
      ownFrame 0x0E 1 (joinFrame 1) = true ∧ joiner.glb.bstage = 7 ∧ ownFrame 0x0E 2 (joinFrame 2) = true ∧
      ownFrame 0x0E 3 (joinFrame 3) = true ∧ strangerOf joiner (joinFrame 1) = none ∧ linkHears joiner 2 = true) ∧
    (netted.twn.holds = [] ∧ ownFrame 0x0F 0 (takeFrame 0 5) = true ∧ tsAt (takeFrame 0 5) 20 1 ≠ 4 ∧
      ownFrame 0x0F 1 (takeFrame 1 5) = true ∧ ownFrame 0x0F 2 (takeFrame 2 5) = true) ∧
    (twinned.twn.regs.twen = true ∧ twinned.twn.regs.twin.toNat = 4 ∧ fClass (hbeatFrame 2) = 1 ∧
      ownFrame 0x10 0 (jrnlFrame 1 (1 :: List.replicate 127 3)) = true ∧ tsAt (jrnlFrame 1 []) 24 1 = 1 ∧
      tsAt (jrnlFrame 0 []) 24 1 = 0 ∧ tsAt (jrnlFrame 0 []) 25 2 < 256 ∧ ownFrame 0x11 0 (hbeatFrame 2) = true ∧
      tsAt (hbeatFrame 2) 24 1 = 2 ∧ strangerOf twinned (hbeatFrame 2) = none) := by
  decide +kernel

def adopting : State := modTwn (modTwnR twinned fun t => { t with tkstate := .adopting }) fun t => { t with tkNum := some 4, tkWork := true }
def adoptee : State :=
  modTwn (modTwnR (modShard twinned 9 fun h => { h with cep := 5 }) fun t => { t with tkstate := .done, adopted := 4 }) fun t =>
    { t with tkNum := some 4, tkShards := [9] }

theorem meets_TakeoverRuns :
    (twinned.twn.regs.jstate = .joined ∧ twinned.twn.regs.tkstate = .none ∧ twinned.twn.holds = [] ∧
      twinned.twn.lost = 0 ∧ otherMembers twinned ≠ []) ∧
    (adopting.twn.regs.tkstate = .adopting ∧ adopting.twn.tkNum = some 4 ∧ adopting.twn.tkWork = true ∧ adopting.twn.await = 0) ∧
    (Answers adoptee .twn ∧ adoptee.twn.regs.tkstate = .done ∧ adoptee.twn.tkDirs = [] ∧
      (∀ i ∈ adoptee.twn.tkShards, Here adoptee (adoptee.glb.shtBase.toNat + 128 * i)) ∧
      ∀ i ∈ adoptee.twn.tkShards, (shardOf adoptee i).ready = false ∧ (shardOf adoptee i).run = false ∧ (shardOf adoptee i).pend = false) ∧
    (let s := modTwn adoptee fun t => { t with releasing := true, tkDirs := [3] }
     s.twn.releasing = true ∧ s.twn.await = 0 ∧ ∀ m ∈ s.twn.tkDirs, (dirOf s m).rdrA = 0 ∧ (dirOf s m).rdrB = 0) ∧
    (let s := modTwn adopting fun t => { t with await := 0x20 }
     bit s.twn.await 5 = true ∧ bit s.twn.lost 5 = false ∧ s.vrd.formed = none ∧ s.vrd.regs.vparent.toNat ≠ 5 ∧
       bit s.vrd.regs.vchild 5 = false ∧ s.vrd.own = none ∧ writesTo s 5 = []) := by
  decide +kernel

theorem meets_LanesTrainAndSpare :
    (Answers netted (.lnk 5) ∧ (hdr netted (.lnk 5)).mode ≠ .isolated) ∧
    (netted.pins.rstLow = false ∧ netted.wrap.taken = false ∧ (hdr netted (.lnk 5)).mode = .active ∧ netted.glb.bstage ≠ 6 ∧
      (lk netted 5).regs.lstate.toNat < 2 ∧ ∀ p < 64, routeLink (routeOf netted p) ≠ some 5) ∧
    (Answers netted .tst ∧ netted.sec.lcs = 1) ∧
    (2 ≤ (lk netted 2).regs.lstate.toNat ∧ (7 : Fin 9).1 ≠ 8 ∧ (lk netted 2).rxSpared = none ∧ (lk netted 2).rxSpare = none ∧
      (lk netted 2).txSpare = none ∧ (lk netted 2).txSpared = none) ∧
    (linkHears netted 2 = true ∧ ownFrame 0x12 0 { ftype := 0x12, tspec := [0, 3, 77, 0] } = true ∧
      ownFrame 0x12 1 { ftype := 0x12, tspec := [1, 3, 77, 0] } = true) ∧
    (∀ ph ∈ [SparePh.sent, .acked, .switched],
      let z : SpareRun := { lane := 3, n := 77, ph := ph }
      (lk (modLk netted 2 fun y => { y with rxSpare := some z }) 2).rxSpare = some z ∧
      (lk (modLk netted 2 fun y => { y with rxSpare := some { z with ph := .sent }, txSpare := some z }) 2).txSpare = some z) := by
  decide +kernel

theorem meets_PairTimersRun :
    ((pairOf unacked false 4 2).unacked = [{ ext := 7, link := 2, frame := {}, plain := [] }] ∧ (pairOf unacked false 4 2).backoff = none ∧
      (pairOf unacked false 4 2).attempts < (lk unacked 2).regs.retrylim.toNat) ∧
    (let s := modPair unacked false 4 2 fun p => { p with backoff := some (17, 7), dirty := true }
     (pairOf s false 4 2).backoff = some (17, 7) ∧ linkUp s 2 = true ∧ (pairOf s false 4 2).dirty = true ∧
       s.twn.regs.jstate ≠ .fenced ∧ heldByRoute s 4 2 = false) ∧
    (let s := modLk (modTwn netted fun t => { t with probing := 0x10 }) 1 fun x => { x with regs := { x.regs with lstate := 2 } }
     bit s.twn.probing 4 = true ∧ routeAlt (vget s.twn.regs.route 4) = some 1 ∧ linkUp s 1 = true ∧ bit s.twn.lost 4 = false ∧
       s.twn.holds = [] ∧ (modJstate s .idle).twn.regs.jstate ≠ .joined ∧ maySend s false 4 0 (some 1) = true ∧
       writesTo (modJstate s .idle) 4 = []) ∧
    (let s := modTwn netted fun t => { t with held := [{ link := 2, peer := 4, cls := 2, ext := 0, adp := false, frame := tileFrame }] }
     ∃ h ∈ s.twn.held, h.link = 2 ∧ h.frame.ftype = 1) := by
  decide +kernel

theorem meets_BadFramesCounted :
    (linkHears netted 2 = true ∧ ownFrame 1 0 { tileFrame with fcrc := 0 } = true) ∧
    (let f := sealCrc { vupFrame with dom := 1 }
     ownFrame 8 0 f = true ∧ bufferFree netted 2 f = true ∧ typeClass 8 = some (fClass f) ∧ netted.twn.regs.jstate = .joined ∧
       f.dom ≠ netted.twn.regs.domain) := by
  decide +kernel

/-! Brine ports and the background. -/

def issued : State := { netted with
  txns := [{ port := 15, tag := 511, kind := .wr, share := none, addr := 0x9100, data := [1, 2, 3], why := .message 70 }] }

theorem meets_BrinePortsAnswer :
    issued.pins.rstLow = false ∧ issued.wrap.taken = false ∧ issued.pwr.pstate = .active ∧ issued.twn.held = [] ∧
      issued.pwr.heldMsg = [] ∧ issued.shard = [] ∧
      txnAt issued 15 511 = some { port := 15, tag := 511, kind := .wr, share := none, addr := 0x9100, data := [1, 2, 3], why := .message 70 } ∧
      txnAt issued 0 511 = none := by
  decide +kernel

/-- Tide entry 8 with a task that is due. -/
def tiding (task : BitVec 4) : State := modTide netted fun t => { t with
  ent := vset t.ent 8 { vget t.ent 8 with ten := true, task := task, next := 0, period := 1000, now := 500, nextQ := 900, fsalt := 3 } }

theorem meets_BackgroundAndWatchdog :
    (tideDue (tiding 2) 8 = true ∧ (vget (tiding 2).tide.ent 8).task = 2 ∧ tideDue (tiding 7) 8 = true ∧
      (vget (tiding 7).tide.ent 8).task = 7) ∧
    (let s := after (exec (.tideRelease 8 {}) (tiding 7))
     (vget s.tide.ent 8).running = true ∧ (vget s.tide.ent 8).task ≠ 3 ∧ (vget s.tide.ent 8).debt = 0 ∧
       (vget s.tide.ent 8).now ≤ (vget s.tide.ent 8).relAt + (vget s.tide.ent 8).relQ) ∧
    (let s := modLp netted 5 fun x => { x with qen := true, run := some sendRun }
     s.pwr.pstate = .active ∧ s.pwr.ptrans = none ∧ unitBusy s (.pan 5) = true ∧ dhBit s.tst.regs 5 = false ∧
       pageState s (.pan 5) = .running ∧ (hdr s (.pan 5)).errsev = 0 ∧ (hdr s (.pan 5)).slotA.valid = false) ∧
    (unitBusy working (.hrv 2) = true ∧ dhBit working.tst.regs 0x42 = false ∧ pageState working (.hrv 2) = .running) ∧
    (let s := modFlt netted fun f => { f with eqPi := 1024 }
     (s.flt.eqPi - s.flt.eqCi).toNat = 1024 ∧ s.flt.lastrst ≠ 3 ∧ s.twn.regs.twen = false) := by
  decide +kernel

/-! ### Values the spec works out -/

/-- No row of the table has bits, so no word spells a command. -/
theorem test_no_word_spells_a_command : decodeTableWord 16 0 = none ∧ decodeTableWord 32 0xFFFFFFFF = none := by decide

/-- spec/10, the flip of shard 17: words 0 to 4 and CHK of the record before it. -/
theorem test_record_sum_before : (mkRec 0x40 3 false 5 1 0x3F 17).take 5 = [0x40, 3, 0x00010500, 0x3F, 0x11] ∧
    (mkRec 0x40 3 false 5 1 0x3F 17).getLast? = some 0xA5A454C7 := by decide +kernel

/-- spec/10, the record the flip writes. -/
theorem test_record_sum_after : (mkRec 0x41 3 true 5 1 0x40 17).take 5 = [0x41, 3, 0x00010501, 0x40, 0x11] ∧
    (mkRec 0x41 3 true 5 1 0x40 17).getLast? = some 0xA5A454C4 := by decide +kernel

/-- spec/12, two congestion drops: r after BOSEED 6. -/
theorem test_backoff_draw : nextR 6 = 0x0018C0C6 := by decide +kernel

/-- spec/09, one weight over three updates: the bittern of the carry, the negative tie and the move to the next binade. -/
theorem test_bittern_carry : (bsplOp 0x3F808000).1 = 0x3F810000 ∧ (bsplOp 0x3F808000).2.1 = 0xC3000000 := by decide +kernel
theorem test_bittern_negative_tie : (bsplOp 0xBF808000).1 = 0xBF800000 ∧ (bsplOp 0xBF808000).2.1 = 0xC3000000 := by decide +kernel
theorem test_bittern_merge : bmrgOp 0x40000000 0xC2000000 = 0x3FFFC000 := by decide +kernel

/-- spec/02, RTO followed by RNA: the exact tie goes away from zero and what lies under it does not. -/
theorem test_rto_under_tie :
    x40Of (roundX40 (.fin (qsub (qadd qone (qpow2 (-8))) (qpow2 (-40))))).1 = 0x3FE01FFFFF#40 := by decide +kernel
theorem test_rto_over_tie :
    x40Of (roundX40 (.fin (qadd (qadd qone (qpow2 (-8))) (qpow2 (-40))))).1 = 0x3FE0200001#40 := by decide +kernel

/-- spec/02, exact expansions: E4M3 0x5D under UE4M3 0x3B, and an INT8 code under its zero point. -/
theorem test_expand_e4m3 : p21OfX (.fin (qmul (finValue (Fmt.spec .e4m3) 0x5D) ⟨11, 8⟩)) = 0x0820F0#21 := by decide +kernel
theorem test_expand_int8 : p21OfX (fineTimes (some (qpow2 (-5))) (codeValue .int8 [] 127 0x81)) = 0x180FE0#21 := by decide +kernel
theorem test_expand_least : p21OfX (.fin (qpow2 (-260))) = 0x000020#21 := by decide +kernel

end Sys2Proof.Tests
end

/-! SUPPORT. Refutes O37 (TilesStartAndComplete) in its part on SECOND_PASS, by a second pass whose first store changes where
gradients lie, so that its second store takes the path of a gradient and leaves for the peer with INST 0. -/

namespace Sys2Proof.StrayStore

open Sys2Proof.Machine

/-! ### The state -/

/-- A place in the block's own host memory as its orders and descriptors name it, with RAPBASE 0 and INST 1 (R336). -/
def own (a : Nat) : Nat := 2 ^ 40 + a

/-- A QUANT stage that measures the scale over one tile; the tile is staged at 0x1000 (R101, R118). -/
def quantStage : Stage :=
  { raw := [0xC, 0, 1, 0] ++ leBytes 4 1 ++ List.replicate 8 0 ++ leBytes 8 (own 0x1000) ++ List.replicate 8 0 }

/-- A two-pass order of one tile, of one row of two INT8 cakes: they lie at 0x7000 and at 0x7030. -/
def order : Run :=
  { n := 4, next := 1
    ord := { oid := 7, nrows := 1, ncols := 64, trows := 1, tcols := 64 }
    chain := { nstg := 1, stages := [quantStage] }
    dOut := { base := own 0x7000, stats := own 0x5000, rows := 1, klen := 64, rowstride := 96, fmt := 8 } }

/-- The order's tile, parked and settled with COARSE 1.0. -/
def tile : Parked := { n := 4, tile := 0, hist := 0, settled := some 0x3F800000 }

/-- A shard whose masked gradient tensor begins at 0x7000. The entry of its row table that ends the tensor (R283) lies at 0x7008,
among the codes of the order's first cake; it reads 0. -/
def shard : Shard := { srec := { role := 1 }, gd := { base := 0x7000, aux := own 0x7008, masked := true } }

/-- A block with INST 1 and the parked tile on pan 0; of the staged row the first value is 1.0 and the others are 0. -/
def parkedState : State :=
  let s := { State.reset with shard := [(1, shard)], host := memPut [] 0x1000 (leBytes 4 0x3F800000) }
  let s := modGlb (modPwr s fun x => { x with pstate := .active }) fun g =>
    { g with inst := 1, panmap := vset g.panmap 0 { missing := false, phys := 0 } }
  modLp (modPan s 0 fun x => { x with pwr := .live }) 0 fun x => { x with passed := [order], parked := [tile] }

/-- The state in which the command begins, as the statement names it. -/
def begun : State := parkedState.beginAs (.pan 0 0) []

/-! ### The statement's hypotheses hold -/

theorem parkedState_ready :
    livePan parkedState 0 = some 0 ∧ (hdr parkedState (.pan 0)).mode = .active ∧ mayTile parkedState 0 = true ∧
      (lp parkedState 0).parked = [tile] ∧ (lp parkedState 0).run = none ∧ (lp parkedState 0).tideTile = none ∧
      (∀ j, vget (lp parkedState 0).armed j = none) ∧ (lp parkedState 0).passed = [order] ∧
      (lp parkedState 0).settle = none ∧ writesOut (parkedState.begin []) (.pan 0 order.n) = false ∧
      Here parkedState (order.dOut.stats + 28) := by
  decide +kernel

/-- A free reserved credit and one of each share, port by port. -/
theorem parkedState_creditOk :
    (∀ q, creditOk parkedState q none = true) ∧ ∀ q, ∀ i : Fin 8, creditOk parkedState q (some i) = true := by
  decide +kernel

theorem parkedState_credits : Credits parkedState := by
  obtain ⟨hreserved, hshares⟩ := parkedState_creditOk
  intro q i
  cases i with
  | none => exact hreserved q
  | some i => exact hshares q i

/-- What the statement asks of a second pass's computation: it fits, met no malformed cake, raised no event, and each of its stores
stays in the block's own memory and is no gradient's, memory being as it is before them. -/
def plainStores (s : State) (out : TileOut) (acc : Acc) : Bool :=
  out.fits && acc.bads.isEmpty && decide (acc.t = {}) &&
    acc.writes.all fun x => decide (Here s x.addr) && (gradParts s x).isEmpty

theorem plainStores_iff (s : State) (out : TileOut) (acc : Acc) :
    plainStores s out acc = true ↔
      out.fits = true ∧ acc.bads = [] ∧ acc.t = {} ∧ ∀ x ∈ acc.writes, Here s x.addr ∧ gradParts s x = [] := by
  simp [plainStores, and_assoc]

/-- Whether a computation ends with a result that passes a test. -/
def endsWith {α β : Type} (f : α → β → Bool) : Except IoErr (α × β) → Bool
  | .ok (a, b) => f a b
  | .error _ => false

theorem exists_of_endsWith {α β : Type} {f : α → β → Bool} {x : Except IoErr (α × β)} (h : endsWith f x = true) :
    ∃ a b, x = .ok (a, b) ∧ f a b = true := by
  match x, h with
  | .ok (a, b), h => exact ⟨a, b, rfl, h⟩

theorem secondBody_plainStores :
    endsWith (plainStores parkedState) (Io.run (secondBody begun order tile.tile 0x3F800000 {}) begun).1 = true := by
  decide +kernel

theorem secondBody_keeps_state : (Io.run (secondBody begun order tile.tile 0x3F800000 {}) begun).2 = begun := by
  decide +kernel

/-! ### The command does not end the tile -/

/-- What the command leaves. -/
def left : State := commandAs (.pan 0 0) [] parkedState fun s =>
  if mayTile s 0 && !(lp s 0).inTile then secondAll (lp s 0).parked.length s 0 else s

theorem exec_secondPass_parkedState : exec (.secondPass 0 []) parkedState = .next left := by rfl

/-- The tile stays parked, for its order has a remote write that is not acknowledged (R229, R331). -/
theorem left_waits : (lp left 0).parked = [tile] ∧ writesOut left (.pan 0 order.n) = true := by
  decide +kernel

/-- Why: the second cake's place is no gradient's before the command and shard 1's after it, the first cake having written the end
of the shard's row table. A gradient's store is made at its host address, and as an address of the aperture 0x7030 names the
peer with INST 0. -/
theorem second_cake_becomes_gradient :
    hostAddr parkedState (order.dOut.base + order.dOut.slot) = 0x7030 ∧ gradShardOf parkedState 0x7030 = none ∧
      gradShardOf left 0x7030 = some 1 ∧ apertureOf parkedState (addr64 0x7030) = some (0, 0x7030) := by
  decide +kernel

/-- Refutes O37: the statement asks that no store of the second pass be a gradient's in the memory before the command, and the
model asks it of each store in the memory that the stores before it have left (`second_cake_becomes_gradient`). The second store
leaves for a peer, and the tile stays parked until it is acknowledged. -/
theorem not_tilesStartAndComplete : ¬ Obligations.TilesStartAndComplete := by
  unfold Obligations.TilesStartAndComplete
  rintro ⟨-, -, second⟩
  obtain ⟨hlive, hmode, hmay, hparked, hrun, htide, harmed, hpassed, hsettle, hout, hstats⟩ := parkedState_ready
  obtain ⟨out, acc, hok, hplain⟩ := exists_of_endsWith secondBody_plainStores
  obtain ⟨hfits, hbads, hev, hstores⟩ := (plainStores_iff ..).1 hplain
  obtain ⟨t, hexec, hnone, -⟩ := second 0 0 order tile 0x3F800000 out acc parkedState hlive hmode hmay hparked rfl hrun htide
    harmed hpassed rfl hsettle rfl rfl parkedState_credits hout (Prod.ext hok secondBody_keeps_state) hfits hbads hev hstores
    hstats
  obtain rfl : left = t := Host.Outcome.next.inj (exec_secondPass_parkedState.symm.trans hexec)
  exact absurd (hnone.symm.trans left_waits.1) (by decide)

end Sys2Proof.StrayStore

/-! SUPPORT. Settles O38 (TileAttemptsEnd): what a record of an error leaves, what each end of a tile's attempt does, and that
whether bytes are a cake of an order does not depend on what the pans hold. -/

namespace Sys2Proof.Machine.TileAttempt

/-! ### What a record of an error leaves -/

/-- What every record of an error with a cause in a page leaves: ERR shows the cause (R358), and the page's mode, the orders, the
pan map, REPLAYCNT and host memory are as they were. -/
structure Recorded (s t : State) (p : PageId) (cause : Nat) : Prop where
  err : (hdr t p).err = setBit (hdr s p).err cause true
  mode : (hdr t p).mode = (hdr s p).mode
  lpan : t.lpan = s.lpan
  panmap : t.glb.panmap = s.glb.panmap
  replaycnt : t.flt.replaycnt = s.flt.replaycnt
  host : t.host = s.host

/-- No page, order, pan map entry, replay count or byte of host memory differs. -/
structure Unseen (s t : State) : Prop where
  hdrs : t.hdrs = s.hdrs
  lpan : t.lpan = s.lpan
  panmap : t.glb.panmap = s.glb.panmap
  replaycnt : t.flt.replaycnt = s.flt.replaycnt
  host : t.host = s.host

theorem Unseen.refl (s : State) : Unseen s s := ⟨rfl, rfl, rfl, rfl, rfl⟩

theorem Unseen.trans {s t u : State} (h : Unseen s t) (k : Unseen t u) : Unseen s u :=
  ⟨k.hdrs.trans h.hdrs, k.lpan.trans h.lpan, k.panmap.trans h.panmap, k.replaycnt.trans h.replaycnt, k.host.trans h.host⟩

theorem Recorded.unseen {s t u : State} {p : PageId} {c : Nat} (h : Recorded s t p c) (k : Unseen t u) : Recorded s u p c where
  err := by simpa [hdr, k.hdrs] using h.err
  mode := by simpa [hdr, k.hdrs] using h.mode
  lpan := k.lpan.trans h.lpan
  panmap := k.panmap.trans h.panmap
  replaycnt := k.replaycnt.trans h.replaycnt
  host := k.host.trans h.host

theorem eqPush_unseen (s : State) (bs : List Byte) : Unseen s (eqPush s bs) := by
  unfold eqPush
  dsimp only
  split <;> exact ⟨rfl, rfl, rfl, rfl, rfl⟩

theorem trace_unseen (s : State) (kind : Nat) (p : PageId) (bs : List Byte) : Unseen s (trace s kind p bs) := by
  unfold trace
  dsimp only
  split <;> exact ⟨rfl, rfl, rfl, rfl, rfl⟩

theorem sendMsg_unseen (s : State) (i : Nat) : Unseen s (sendMsg s i) := by
  unfold sendMsg
  dsimp only
  split <;> exact ⟨rfl, rfl, rfl, rfl, rfl⟩

theorem raiseInt_unseen (s : State) (i : Nat) : Unseen s (raiseInt s i) := by
  unfold raiseInt
  extract_lets g t
  have ht : Unseen s t := ⟨rfl, rfl, rfl, rfl, rfl⟩
  split
  · exact ht.trans (sendMsg_unseen t i)
  · exact ht

theorem wakeEvent_unseen (s : State) : Unseen s (wakeEvent s) := by
  unfold wakeEvent
  split
  · exact ⟨rfl, rfl, rfl, rfl, rfl⟩
  · exact ⟨rfl, rfl, rfl, rfl, rfl⟩
  · split <;> exact ⟨rfl, rfl, rfl, rfl, rfl⟩
  · exact .refl s

/-- A header update that shows a cause in ERR and keeps the mode makes a record. -/
theorem recorded_modHdr (s : State) {p : PageId} {c : Nat} {f : PageHdr → PageHdr}
    (herr : (f (hdr s p)).err = setBit (hdr s p).err c true) (hmode : (f (hdr s p)).mode = (hdr s p).mode) :
    Recorded s (modHdr s p f) p c :=
  ⟨by simpa using herr, by simpa using hmode, rfl, rfl, rfl, rfl⟩

theorem Recorded.modHdr {s t : State} {p : PageId} {c : Nat} (h : Recorded s t p c) {f : PageHdr → PageHdr}
    (hf : ∀ x, (f x).err = x.err ∧ (f x).mode = x.mode) : Recorded s (modHdr t p f) p c :=
  ⟨by simpa [hf] using h.err, by simpa [hf] using h.mode, h.lpan, h.panmap, h.replaycnt, h.host⟩

theorem enter_err_mode (h : PageHdr) (r : ErrSlot) : (h.enter r).err = h.err ∧ (h.enter r).mode = h.mode := by
  unfold PageHdr.enter
  split
  · exact ⟨rfl, rfl⟩
  · split <;> exact ⟨rfl, rfl⟩

theorem recordOnly_recorded (s : State) (p : PageId) (e : ErrIn) : Recorded s (recordOnly s p e).2 p e.cause := by
  unfold recordOnly
  extract_lets h armed inj c0 c1 noted
  have hnoted : Recorded s noted p e.cause := recorded_modHdr s rfl rfl
  split
  · exact hnoted.modHdr fun _ => ⟨rfl, rfl⟩
  · split
    extract_lets r entered fseq queued traced raised vrd pending
    have hentered : Recorded s entered p e.cause := hnoted.modHdr (enter_err_mode · r)
    have hraised : Unseen traced raised := by
      unfold raised
      split
      · exact .refl _
      · exact raiseInt_unseen ..
    have hpending : Unseen raised pending := by
      unfold pending
      split <;> exact ⟨rfl, rfl, rfl, rfl, rfl⟩
    exact hentered.unseen <| (eqPush_unseen ..).trans <| (trace_unseen ..).trans <| hraised.trans <| hpending.trans <|
      wakeEvent_unseen _

/-- The class of a record whose cause is neither injected with a class nor raised by ERRSEV (R355, R361). -/
theorem recordOnly_class {s : State} {p : PageId} {e : ErrIn} (hcls : e.cls = none) (hsev : bit (hdr s p).errsev e.cause = false) :
    (recordOnly s p e).1 =
      if defaultClass e.cause = 0 then 0 else (escalate (hdr s p) p e (defaultClass e.cause)).1 := by
  unfold recordOnly
  extract_lets h armed inj c0 c1 noted
  have hc1 : c1 = defaultClass e.cause := by simp [c1, c0, h, hcls, hsev]
  rw [← hc1]
  split <;> rfl

/-- A cause of class CORR is counted and takes no record slot (R355, R365). -/
theorem recordOnly_corr {s : State} {p : PageId} {e : ErrIn} (hcls : e.cls = none) (hsev : bit (hdr s p).errsev e.cause = false)
    (hcorr : defaultClass e.cause = 0) :
    (hdr (recordOnly s p e).2 p).corrcnt = satAdd (hdr s p).corrcnt 1 ∧ (hdr (recordOnly s p e).2 p).slotA = (hdr s p).slotA := by
  unfold recordOnly
  extract_lets h armed inj c0 c1 noted
  have hc1 : c1 = 0 := by simp [c1, c0, h, hcls, hsev, hcorr]
  rw [if_pos hc1]
  simp [noted]

/-! ### What a pan's page does with a record -/

/-- Whether a record of a DATA error takes a slot of a pan's page as DATA: one is free, and where the cause points at the pan itself
slot A holds no DATA record (R361). -/
def StaysData (h : PageHdr) (suspect : Bool) : Prop :=
  h.slotA.valid = false ∨ (h.slotB.valid = false ∧ (suspect = false ∨ h.slotA.cls ≠ 1))

theorem escalate_pan_data {h : PageHdr} {q : Fin 64} {e : ErrIn} (hs : StaysData h e.suspect) :
    (escalate h (.pan q) e 1).1 = 1 := by
  rcases hs with hA | ⟨hB, hsus | hcls⟩
  · simp [escalate, hA]
  · simp [escalate, hB, hsus]
  · simp [escalate, hB, show h.slotA.cls ≠ 1#2 from hcls]

theorem respond_corr (s : State) (p : PageId) (cause : Nat) : respond s p cause 0 = s := by simp [respond]

theorem respond_pan_data (s : State) (q : Fin 64) (cause : Nat) : respond s (.pan q) cause 1 = s := by simp [respond]

theorem respond_pan_unit (s : State) (q : Fin 64) (cause : Nat) : respond s (.pan q) cause 2 = fencePan s q := by simp [respond]

theorem recordErr_eq (s : State) (p : PageId) (e : ErrIn) :
    recordErr s p e = respond (recordOnly s p e).2 p e.cause (recordOnly s p e).1 := rfl

/-- An error of a tile that its page takes as DATA. -/
structure TileData (h : PageHdr) (e : ErrIn) : Prop where
  cls : e.cls = none
  data : defaultClass e.cause = 1
  sev : bit h.errsev e.cause = false
  slot : StaysData h e.suspect

theorem recordOnly_pan_class {s : State} {q : Fin 64} {e : ErrIn} (h : TileData (hdr s (.pan q)) e) :
    (recordOnly s (.pan q) e).1 = 1 := by
  rw [recordOnly_class h.cls h.sev, h.data, if_neg Nat.one_ne_zero, escalate_pan_data h.slot]

/-- A record of class DATA in a pan's page has no response (R373). -/
theorem recordErr_pan_data {s : State} {q : Fin 64} {e : ErrIn} (h : TileData (hdr s (.pan q)) e) :
    Recorded s (recordErr s (.pan q) e) (.pan q) e.cause := by
  rw [recordErr_eq, recordOnly_pan_class h, respond_pan_data]
  exact recordOnly_recorded ..

theorem recordErr_corr {s : State} {p : PageId} {e : ErrIn} (hcls : e.cls = none) (hsev : bit (hdr s p).errsev e.cause = false)
    (hcorr : defaultClass e.cause = 0) : recordErr s p e = (recordOnly s p e).2 := by
  rw [recordErr_eq, recordOnly_class hcls hsev, if_pos hcorr, respond_corr]

theorem bit_setBit_self {w i : Nat} (x : BitVec w) (h : i < w) : bit (setBit x i true) i = true := by
  have hone : (BitVec.ofNat w (2 ^ i)).getLsbD i = true := by
    rw [BitVec.getLsbD_ofNat, Nat.testBit_two_pow_self, decide_eq_true h, Bool.and_self]
  rw [setBit, if_pos rfl, bit, BitVec.getLsbD_or, hone, Bool.or_true]

theorem Recorded.bit_err {s t : State} {p : PageId} {c : Nat} (h : Recorded s t p c) (hc : c < 32) :
    bit (hdr t p).err c = true := by
  rw [h.err, bit_setBit_self _ hc]

/-! ### The pan map -/

theorem physOf_congr {s t : State} (h : t.glb.panmap = s.glb.panmap) (l : Fin 60) : physOf t l = physOf s l := by
  simp [physOf, h]

theorem logOf_congr {s t : State} (h : t.glb.panmap = s.glb.panmap) (p : Fin 64) : logOf t p = logOf s p := by
  simp only [logOf, physOf_congr h]

theorem panPage_eq {s : State} {l : Fin 60} {p : Fin 64} (h : physOf s l = some p) : panPage s l = .pan p := by
  simp [panPage, h]

theorem lp_congr {s t : State} (h : t.lpan = s.lpan) (l : Fin 60) : lp t l = lp s l := by rw [lp, h, lp]

/-! ### The places of a pan's orders -/

/-- The order of an active tile runs, or stands in the armed slot whose tile was started. -/
theorem active_cases {x : LPan} {w : Place} {r : Run} (h : x.active = some (w, r)) :
    (w = .run ∧ x.run = some r ∧ x.tideTile = none) ∨ ∃ j, w = .armed j ∧ vget x.armed j = some r := by
  unfold LPan.active at h
  split at h
  · next j hj =>
    obtain ⟨r', hr', he⟩ := Option.map_eq_some_iff.1 h
    obtain ⟨rfl, rfl⟩ := Prod.mk.inj he
    exact .inr ⟨j, rfl, hr'⟩
  · next hnone =>
    split at h
    · next r' hr' =>
      split at h
      · obtain ⟨rfl, rfl⟩ := Prod.mk.inj (Option.some.inj h)
        exact .inl ⟨rfl, hr', hnone⟩
      · contradiction
    · contradiction

/-- A place where the tiles of an order run. -/
def RunsTiles (w : Place) : Prop := ∀ n, w ≠ .passed n

theorem runsTiles_of_active {x : LPan} {w : Place} {r : Run} (h : x.active = some (w, r)) : RunsTiles w ∧ x.at_ w = some r := by
  obtain ⟨rfl, hr, -⟩ | ⟨j, rfl, hr⟩ := active_cases h
  · exact ⟨fun n => by simp, hr⟩
  · exact ⟨fun n => by simp, hr⟩

theorem at_put {w : Place} (hw : RunsTiles w) (x : LPan) (o : Option Run) : (x.put w o).at_ w = o := by
  cases w with
  | run => rfl
  | armed j => simp [LPan.put, LPan.at_]
  | passed n => exact absurd rfl (hw n)

theorem put_done (x : LPan) (w : Place) (o : Option Run) : (x.put w o).done = x.done := by cases w <;> rfl

theorem lp_modRun_at {w : Place} (hw : RunsTiles w) (s : State) (l : Fin 60) (f : Run → Run) :
    (lp (modRun s l w f) l).at_ w = ((lp s l).at_ w).map f := by
  rw [modRun, lp_modLp, at_put hw]

theorem lp_modRun_ne (s : State) {l m : Fin 60} (h : m ≠ l) (w : Place) (f : Run → Run) : lp (modRun s l w f) m = lp s m :=
  lp_modLp_ne s h.symm _

/-! ### The three ends of a tile's attempt (R371, R372) -/

/-- What the record of an attempt's error says beside what its detector found. -/
def tileError (e : ErrIn) (l : Fin 60) (r : Run) : ErrIn := { e with oid := r.ord.oid.toNat, lpan := l.1, replay := r.replayed }

/-- An order whose tile runs again. -/
def again (r : Run) : Run := { r with replayed := true, good := [], badc := [], cont := none }

/-- An order whose tile runs as a first attempt on a spare. -/
def afresh (r : Run) : Run := { r with replayed := false, cont := none }

section
variable {s : State} {l : Fin 60} {w : Place} {r : Run} {e : ErrIn} (hat : (lp s l).at_ w = some r)
include hat

theorem attemptFailed_first (hc : e.cause ≠ cRemoteat) (hrep : r.replayable = true) (hfirst : r.replayed = false) :
    attemptFailed s l w e =
      (let t := recordErr s (panPage s l) { tileError e l r with opens := true }
       if fencedNow t l then t else modRun (modFlt t fun f => { f with replaycnt := f.replaycnt + 1 }) l w again) := by
  simp only [attemptFailed, hat, hc, hrep, hfirst, tileError]
  rfl

theorem attemptFailed_second (hc : e.cause ≠ cRemoteat) (hrep : r.replayable = true) (hsecond : r.replayed = true)
    (hsus : e.suspect = true) :
    attemptFailed s l w e =
      (let x := recordOnly s (panPage s l) (tileError e l r)
       modRun (endReplay (respond x.2 (panPage s l) e.cause (max x.1 2)) (panPage s l)) l w afresh) := by
  simp only [attemptFailed, hat, hc, hrep, hsecond, hsus, tileError]
  rfl

theorem attemptFailed_ends (h : r.replayable = false ∨ (r.replayed = true ∧ e.suspect = false)) :
    attemptFailed s l w e = finish (recordErr s (panPage s l) (tileError e l r)) l w stFault := by
  rcases h with hrep | ⟨hsecond, hsus⟩
  · simp [attemptFailed, hat, hrep, tileError]
  · simp [attemptFailed, hat, hsecond, hsus, tileError]

end

/-! ### The first attempt fails: the tile runs again -/

/-- Every first failure of class DATA of a tile that may be replayed. -/
theorem attemptFailed_replays {s : State} {l : Fin 60} {p : Fin 64} {w : Place} {r : Run} {e : ErrIn} (hphys : physOf s l = some p)
    (hmode : (hdr s (.pan p)).mode ≠ .faulted) (hdata : TileData (hdr s (.pan p)) e) (hw : RunsTiles w)
    (hat : (lp s l).at_ w = some r) (hc : e.cause ≠ cRemoteat) (hrep : r.replayable = true) (hfirst : r.replayed = false)
    {t : State} (ht : attemptFailed s l w e = t) :
    (lp t l).at_ w = some (again r) ∧ t.flt.replaycnt = s.flt.replaycnt + 1 ∧
      (hdr t (.pan p)).err = setBit (hdr s (.pan p)).err e.cause true ∧ (hdr t (.pan p)).mode = (hdr s (.pan p)).mode ∧
      t.host = s.host ∧ ∀ m, m ≠ l → lp t m = lp s m := by
  have hrec : Recorded s (recordErr s (.pan p) { tileError e l r with opens := true }) (.pan p) e.cause :=
    recordErr_pan_data (e := { tileError e l r with opens := true }) ⟨hdata.cls, hdata.data, hdata.sev, hdata.slot⟩
  rw [attemptFailed_first hat hc hrep hfirst, panPage_eq hphys] at ht
  dsimp only at ht
  generalize recordErr s (.pan p) { tileError e l r with opens := true } = u at hrec ht
  have hphys' := (physOf_congr hrec.panmap l).trans hphys
  have hlive : fencedNow u l = false := by simp [fencedNow, panPage_eq hphys', hphys', hrec.mode, hmode]
  rw [if_neg (by simp [hlive])] at ht
  subst ht
  refine ⟨?_, congrArg (· + 1) hrec.replaycnt, hrec.err, hrec.mode, hrec.host, fun m hm => ?_⟩
  · rw [lp_modRun_at hw]
    exact congrArg (Option.map again) ((congrArg (LPan.at_ · w) (lp_congr hrec.lpan l)).trans hat)
  · rw [lp_modRun_ne _ hm]
    exact lp_congr hrec.lpan m

/-! ### The second attempt fails: the pan is fenced -/

/-- What a fence leaves of its logical pan's orders: the running one keeps its copy, with its tile to run again (R373). -/
def haltPan (x : LPan) : LPan :=
  { x with run := x.run.map fun r => { r with started := false, cont := none }, tideTile := none }

theorem quadIdle_eq (s : State) (q : Fin 16) : ∃ d, quadIdle s q = { s with qd := d } := by
  unfold quadIdle
  dsimp only
  split
  · exact ⟨_, rfl⟩
  · exact ⟨_, rfl⟩

@[simp] theorem quadIdle_flt (s : State) (q : Fin 16) : (quadIdle s q).flt = s.flt := by
  obtain ⟨d, h⟩ := quadIdle_eq s q
  rw [h]

@[simp] theorem quadIdle_hdrs (s : State) (q : Fin 16) : (quadIdle s q).hdrs = s.hdrs := by
  obtain ⟨d, h⟩ := quadIdle_eq s q
  rw [h]

@[simp] theorem quadIdle_glb (s : State) (q : Fin 16) : (quadIdle s q).glb = s.glb := by
  obtain ⟨d, h⟩ := quadIdle_eq s q
  rw [h]

@[simp] theorem quadIdle_lpan (s : State) (q : Fin 16) : (quadIdle s q).lpan = s.lpan := by
  obtain ⟨d, h⟩ := quadIdle_eq s q
  rw [h]

theorem unmapPan_of_logOf {s : State} {p : Fin 64} {l : Fin 60} (h : logOf s p = some l) :
    unmapPan s p = modGlb s fun g => { g with panmap := vmod g.panmap l fun e => { e with missing := true } } := by
  simp only [unmapPan, h]
  rfl

theorem fencePan_of_logOf {s : State} {p : Fin 64} {l : Fin 60} (h : logOf s p = some l) :
    bit (fencePan s p).flt.fpan p.1 = true ∧ (hdr (fencePan s p) (.pan p)).mode = .faulted ∧ physOf (fencePan s p) l = none ∧
      lp (fencePan s p) l = haltPan (lp s l) := by
  have hlog : ∀ f, logOf (modLp s l f) p = some l := fun f => (logOf_congr rfl p).trans h
  simp only [fencePan, h, unpass, unmapPan_of_logOf (hlog _)]
  refine ⟨?_, ?_, ?_, ?_⟩
  · simp [bit_setBit_self _ p.2]
  · simp [hdr]
  · simp [physOf]
  · simp [lp, haltPan]

/-- An order whose tile ran when its pan was fenced keeps its place, and no tile of the pan runs. -/
theorem haltPan_afresh {x : LPan} {w : Place} {r : Run} (h : x.active = some (w, r)) :
    ((haltPan x).put w (((haltPan x).at_ w).map afresh)).active = none ∧
      ∃ u, ((haltPan x).put w (((haltPan x).at_ w).map afresh)).at_ w = some u ∧ u.n = r.n ∧ u.replayed = false := by
  obtain ⟨rfl, hr, -⟩ | ⟨j, rfl, hr⟩ := active_cases h
  · simp [haltPan, LPan.put, LPan.at_, LPan.active, hr, afresh]
  · cases hx : x.run <;> simp [haltPan, LPan.put, LPan.at_, LPan.active, hr, hx, afresh]

theorem attemptFailed_fences {s : State} {l : Fin 60} {p : Fin 64} {w : Place} {r : Run} {e : ErrIn} (hphys : physOf s l = some p)
    (hdata : TileData (hdr s (.pan p)) e) (hact : (lp s l).active = some (w, r)) (hc : e.cause ≠ cRemoteat)
    (hrep : r.replayable = true) (hsecond : r.replayed = true) (hsus : e.suspect = true) (hlog : logOf s p = some l)
    {t : State} (ht : attemptFailed s l w e = t) :
    bit t.flt.fpan p.1 = true ∧ (hdr t (.pan p)).mode = .faulted ∧ physOf t l = none ∧
      (lp t l).active = none ∧ ∃ u, (lp t l).at_ w = some u ∧ u.n = r.n ∧ u.replayed = false := by
  have hclass : (recordOnly s (.pan p) (tileError e l r)).1 = 1 :=
    recordOnly_pan_class (e := tileError e l r) ⟨hdata.cls, hdata.data, hdata.sev, hdata.slot⟩
  have hrec := recordOnly_recorded s (.pan p) (tileError e l r)
  obtain ⟨hfpan, hmode, hgone, hlp⟩ := fencePan_of_logOf ((logOf_congr hrec.panmap p).trans hlog)
  have hhalt := haltPan_afresh hact
  rw [attemptFailed_second (runsTiles_of_active hact).2 hc hrep hsecond hsus] at ht
  simp only [panPage_eq hphys, hclass, Nat.max_eq_right (by decide : 1 ≤ 2), respond_pan_unit] at ht
  generalize fencePan (recordOnly s (.pan p) (tileError e l r)).2 p = u at hfpan hmode hgone hlp ht
  subst ht
  rw [lp_congr hrec.lpan] at hlp
  have hlast : lp (modRun (endReplay u (.pan p)) l w afresh) l =
      (haltPan (lp s l)).put w (((haltPan (lp s l)).at_ w).map afresh) := by
    rw [modRun, lp_modLp, ← hlp]
    rfl
  rw [hlast]
  exact ⟨hfpan, (congrArg PageHdr.mode (hdr_modHdr u (.pan p) _)).trans hmode, hgone, hhalt⟩

/-! ### The order ends with FAULT -/

theorem endSettle_of_settle {r : Run} (h : r.ord.settle = false) (s : State) : endSettle s r = s := by simp [endSettle, h]

/-- The pan after an order has left its place with a completion record to write. -/
theorem finish_eq {s : State} {l : Fin 60} {w : Place} {r : Run} (hat : (lp s l).at_ w = some r) (hset : r.ord.settle = false) :
    finish s l w stFault =
      (let t := modLp s l fun x => { (x.put w none) with parked := x.parked.filter fun y => y.n ≠ r.n }
       pushDone (endReplay t (panPage s l)) l (r.done stFault (ppanOf s l))) := by
  simp only [finish, hat, endSettle_of_settle hset, ite_self]
  rfl

theorem finish_leaves {s : State} {l : Fin 60} {w : Place} {r : Run} (hw : RunsTiles w) (hat : (lp s l).at_ w = some r)
    (hset : r.ord.settle = false) :
    (lp (finish s l w stFault) l).at_ w = none ∧
      (lp (finish s l w stFault) l).done = (lp s l).done ++ [r.done stFault (ppanOf s l)] ∧
      (hdr (finish s l w stFault) (panPage s l)).err = (hdr s (panPage s l)).err := by
  rw [finish_eq hat hset]
  dsimp only
  generalize ht : modLp s l _ = t
  have hlp : lp t l = { ((lp s l).put w none) with parked := (lp s l).parked.filter fun y => y.n ≠ r.n } := ht ▸ lp_modLp ..
  have hlast : lp (pushDone (endReplay t (panPage s l)) l (r.done stFault (ppanOf s l))) l =
      { lp t l with done := (lp t l).done ++ [r.done stFault (ppanOf s l)] } := by
    rw [pushDone, lp_modLp]
    rfl
  rw [hlast, hlp, put_done]
  refine ⟨?_, rfl, ?_⟩
  · refine Eq.trans ?_ (at_put hw (lp s l) none)
    cases w <;> rfl
  · exact (congrArg PageHdr.err (hdr_modHdr t (panPage s l) _)).trans (by subst ht; rfl)

theorem attemptFailed_ends_order {s : State} {l : Fin 60} {p : Fin 64} {w : Place} {r : Run} {e : ErrIn}
    (hphys : physOf s l = some p) (hdata : TileData (hdr s (.pan p)) e) (hw : RunsTiles w) (hat : (lp s l).at_ w = some r)
    (hset : r.ord.settle = false) (hends : r.replayable = false ∨ (r.replayed = true ∧ e.suspect = false))
    {t : State} (ht : attemptFailed s l w e = t) :
    (lp t l).at_ w = none ∧
      (hdr t (.pan p)).err = setBit (hdr s (.pan p)).err e.cause true ∧
      (lp t l).done = (lp s l).done ++ [r.done stFault (ppanOf s l)] := by
  have hrec : Recorded s (recordErr s (.pan p) (tileError e l r)) (.pan p) e.cause :=
    recordErr_pan_data (e := tileError e l r) ⟨hdata.cls, hdata.data, hdata.sev, hdata.slot⟩
  rw [attemptFailed_ends hat hends, panPage_eq hphys] at ht
  generalize recordErr s (.pan p) (tileError e l r) = u at hrec ht
  subst ht
  have hlp := lp_congr hrec.lpan l
  obtain ⟨hgone, hdone, herr⟩ := finish_leaves (s := u) hw (hlp ▸ hat) hset
  rw [panPage_eq ((physOf_congr hrec.panmap l).trans hphys)] at herr
  refine ⟨hgone, herr.trans hrec.err, hdone.trans ?_⟩
  rw [hlp, ppanOf, hrec.panmap, ppanOf]

/-! ### TILE_REPLAY -/

/-- The cause that a detector reports (R357). -/
def causeCode : ReplayCause → Nat
  | .residue => 3
  | .lockstep => 4
  | .eccunc => 2
  | .brine => 7

/-- Whether the cause points at the pan itself (R361). -/
def causeSuspect : ReplayCause → Bool
  | .brine => false
  | _ => true

/-- What a detector of TILE_REPLAY reports. -/
def detected (k : ReplayCause) (a : W64) (row col g : W32) : ErrIn :=
  { cause := causeCode k, suspect := causeSuspect k, addr := some a.toNat, row := row.toNat, col := col.toNat, group := g.toNat }

theorem exec_tileReplay {s : State} {l : Fin 60} {w : Place} {r : Run} (hact : (lp s l).active = some (w, r)) (k : ReplayCause)
    (a : W64) (row col g : W32) :
    exec (.tileReplay l k a row col g) s = .next (attemptFailed s l w (detected k a row col g)) := by
  change Host.Outcome.next (tileReplay s l k a.toNat row.toNat col.toNat g.toNat) = _
  cases k <;> simp [tileReplay, hact, detected, causeCode, causeSuspect, cResidue, cLockstep, cEccunc, cBrine]

theorem detected_data {h : PageHdr} {k : ReplayCause} (hsev : bit h.errsev (causeCode k) = false)
    (hslot : h.slotA.valid = false ∨ (h.slotB.valid = false ∧ (k = .brine ∨ h.slotA.cls ≠ 1))) (a : W64) (row col g : W32) :
    TileData h (detected k a row col g) where
  cls := rfl
  data := by cases k <;> rfl
  sev := hsev
  slot := hslot.imp_right fun ⟨hB, h⟩ => ⟨hB, h.imp_left (congrArg causeSuspect)⟩

theorem causeSuspect_of_ne_brine {k : ReplayCause} (h : k ≠ .brine) : causeSuspect k = true := by
  cases k with
  | brine => exact absurd rfl h
  | _ => rfl

theorem causeCode_lt (k : ReplayCause) : causeCode k < 32 := by cases k <;> decide

theorem causeCode_ne_remoteat (k : ReplayCause) : causeCode k ≠ cRemoteat := by cases k <;> decide

/-- Once the tile has opened a group, or on BRINE of a second attempt, the order ends (R371, R372). -/
theorem ends_of_opened {r : Run} {k : ReplayCause} {a : W64} {row col g : W32}
    (h : r.opened = true ∨ (r.replayed = true ∧ k = .brine)) :
    r.replayable = false ∨ (r.replayed = true ∧ (detected k a row col g).suspect = false) := by
  rcases h with ho | ⟨hsecond, rfl⟩
  · exact .inl (by simp [Run.replayable, ho])
  · exact .inr ⟨hsecond, rfl⟩

/-! ### CAKE_REREAD (R69) -/

/-- What a read of memory gives does not depend on what the pans hold. -/
theorem rdHost_modLp (s : State) (l : Fin 60) (f : LPan → LPan) (a n : Nat) :
    (rdHost (modLp s l f) a n).1 = (rdHost s a n).1 := by
  simp only [rdHost, show apertureOf (modLp s l f) (addr64 a) = apertureOf s (addr64 a) from rfl, modLp_rgot, modLp_rfail,
    modLp_rbuf, modLp_hostBad, modLp_host, show hostAddr (modLp s l f) a = hostAddr s a from rfl]
  split
  · split
    · rfl
    · split <;> rfl
  · split <;> rfl

theorem ioRead_result (s : State) (a n : Nat) :
    (ioRead a n s).1 = (rdHost s a n).1.elim (.error (.brine (firstBad s (hostAddr s a) n))) .ok := by
  have hplace : firstBad (rdHost s a n).2 (hostAddr (rdHost s a n).2 a) n = firstBad s (hostAddr s a) n := by
    unfold rdHost
    dsimp only
    split
    · split
      · rfl
      · split <;> rfl
    · split <;> rfl
  rw [← hplace]
  unfold ioRead
  generalize rdHost s a n = x
  obtain ⟨_ | b, t⟩ := x <;> rfl

theorem ioRead_modLp (s : State) (l : Fin 60) (f : LPan → LPan) (a n : Nat) :
    (ioRead a n (modLp s l f)).1 = (ioRead a n s).1 := by
  rw [ioRead_result, ioRead_result, rdHost_modLp]
  rfl

/-- A computation whose first part gives the same result from two states, and whose rest takes nothing from its state. -/
theorem bind_result_congr {α β : Type} {x : Io α} {g : α → Io β} {s t : State} (hx : (x s).1 = (x t).1)
    (hg : ∀ a u v, (g a u).1 = (g a v).1) : ((x >>= g) s).1 = ((x >>= g) t).1 := by
  have hbind : ∀ u, ((x >>= g) u).1 = match x u with | (.ok a, v) => (g a v).1 | (.error e, _) => .error e := fun u => by
    simp only [bind, ExceptT.bind, ExceptT.mk, StateT.bind, ExceptT.bindCont]
    rcases x u with ⟨_ | a, v⟩ <;> rfl
  rw [hbind, hbind]
  generalize x s = y at hx ⊢
  generalize x t = z at hx ⊢
  obtain ⟨_ | a, u⟩ := y <;> obtain ⟨_ | b, v⟩ := z <;> cases hx
  · rfl
  · exact hg a u v

theorem maskSource_modLp (s : State) (l : Fin 60) (f : LPan → LPan) (r : Run) :
    (Io.run (maskSource (modLp s l f) r) (modLp s l f)).1 = (Io.run (maskSource s r) s).1 := by
  change (maskSource s r (modLp s l f)).1 = (maskSource s r s).1
  have hrake : ∀ m, (ioRakeOf s m (modLp s l f)).1 = (ioRakeOf s m s).1 := fun m =>
    bind_result_congr (bind_result_congr (ioRead_modLp ..) fun _ _ _ => rfl) fun _ _ _ => by split <;> rfl
  unfold maskSource
  dsimp only
  split
  · rfl
  · refine bind_result_congr (hrake _) fun blk u v => ?_
    cases blk.slotOf r.dOut.base false with
    | none => dsimp only; split <;> rfl
    | some slot => rfl

/-- Whether bytes are a cake of an order's tensors does not depend on what the pans hold. -/
theorem wellFormed_modLp (s : State) (l : Fin 60) (f : LPan → LPan) (r : Run) (g : Nat) (bs : List Byte) :
    r.wellFormed (modLp s l f) g bs = r.wellFormed s g bs := by
  simp only [Run.wellFormed, Run.cakeSources, maskSource_modLp]
  rfl

/-- An order that keeps the second read of a cake. -/
def keepCake (a : Nat) (bs : List Byte) (r : Run) : Run := { r with good := r.good ++ [(a, bs)] }

/-- The order whose cakes are read a second time: that of the active tile, or the order to start next. -/
def Rereads (x : LPan) (w : Place) (r : Run) : Prop := x.active = some (w, r) ∨ (x.active = none ∧ w = .run ∧ x.run = some r)

theorem Rereads.at_ {x : LPan} {w : Place} {r : Run} (h : Rereads x w r) : RunsTiles w ∧ x.at_ w = some r := by
  rcases h with hact | ⟨-, rfl, hrun⟩
  · exact runsTiles_of_active hact
  · exact ⟨fun n => by simp, hrun⟩

theorem cakeReread_eq {s : State} {l : Fin 60} {w : Place} {r : Run} (h : Rereads (lp s l) w r) (a row g : Nat) (bs : List Byte) :
    cakeReread s l a row g bs =
      if (apertureOf s (addr64 a)).isNone && r.wellFormed s g (memBytes s.host (hostAddr s a) bs.length) then s
      else
        let t := modRun s l w (keepCake a bs)
        if r.wellFormed s g bs then
          recordErr t (panPage s l)
            { cause := cCakerd, oid := r.ord.oid.toNat, addr := some a, row := row, group := g, lpan := l.1 }
        else t := by
  have hat := h.at_.2
  rcases h with hact | ⟨hnone, rfl, hrun⟩
  · simp only [cakeReread, hact, hat, modRun, wellFormed_modLp]
    rfl
  · simp only [cakeReread, hnone, hat, modRun, wellFormed_modLp]
    rfl

/-- The record of a cake whose second read is good counts as CAKERD and takes no slot (R69, R358). -/
theorem recordErr_cakerd {s : State} {p : PageId} {e : ErrIn} (hcls : e.cls = none) (hc : e.cause = cCakerd)
    (hsev : bit (hdr s p).errsev 5 = false) :
    Recorded s (recordErr s p e) p e.cause ∧ bit (hdr (recordErr s p e) p).err 5 = true ∧
      (hdr (recordErr s p e) p).corrcnt = satAdd (hdr s p).corrcnt 1 ∧ (hdr (recordErr s p e) p).slotA = (hdr s p).slotA := by
  have hsev' : bit (hdr s p).errsev e.cause = false := hc ▸ hsev
  have hcorr : defaultClass e.cause = 0 := hc ▸ rfl
  rw [recordErr_corr hcls hsev' hcorr]
  have hrec := recordOnly_recorded s p e
  have herr : bit (hdr (recordOnly s p e).2 p).err e.cause = true := hrec.bit_err (hc ▸ by decide)
  rw [hc] at herr
  exact ⟨hrec, herr, recordOnly_corr hcls hsev' hcorr⟩

theorem cakeReread_keeps {s : State} {l : Fin 60} {p : Fin 64} {w : Place} {r : Run} (h : Rereads (lp s l) w r)
    (hphys : physOf s l = some p) (hsev : bit (hdr s (.pan p)).errsev 5 = false) {a row g : Nat} {bs : List Byte}
    (hfirst : ¬ Here s a ∨ r.wellFormed s g (memBytes s.host (hostAddr s a) bs.length) = false)
    {t : State} (ht : cakeReread s l a row g bs = t) :
    (lp t l).at_ w = some (keepCake a bs r) ∧ (∀ m, m ≠ l → lp t m = lp s m) ∧
      t.host = s.host ∧
      (r.wellFormed s g bs = true → bit (hdr t (.pan p)).err 5 = true ∧
        (hdr t (.pan p)).corrcnt = satAdd (hdr s (.pan p)).corrcnt 1 ∧ (hdr t (.pan p)).slotA = (hdr s (.pan p)).slotA) ∧
      (r.wellFormed s g bs = false → t.hdrs = s.hdrs) := by
  have hkept : ((apertureOf s (addr64 a)).isNone && r.wellFormed s g (memBytes s.host (hostAddr s a) bs.length)) = false := by
    rcases hfirst with haway | hbad
    · simp [Option.isNone_iff_eq_none, haway]
    · simp [hbad]
  obtain ⟨hw, hat⟩ := h.at_
  have hput : (lp (modRun s l w (keepCake a bs)) l).at_ w = some (keepCake a bs r) := by
    rw [lp_modRun_at hw, hat, Option.map_some]
  have hothers : ∀ m, m ≠ l → lp (modRun s l w (keepCake a bs)) m = lp s m := fun m hm => lp_modRun_ne s hm w _
  rw [cakeReread_eq h, if_neg (by simp [hkept]), panPage_eq hphys] at ht
  dsimp only at ht
  subst ht
  cases hgood : r.wellFormed s g bs
  case false => exact ⟨hput, hothers, rfl, by simp, fun _ => rfl⟩
  case true =>
    obtain ⟨hrec, herr, hcorr, hslot⟩ := recordErr_cakerd (s := modRun s l w (keepCake a bs)) (p := .pan p)
      (e := { cause := cCakerd, oid := r.ord.oid.toNat, addr := some a, row := row, group := g, lpan := l.1 }) rfl rfl hsev
    rw [if_pos rfl]
    exact ⟨lp_congr hrec.lpan l ▸ hput, fun m hm => (lp_congr hrec.lpan m).trans (hothers m hm), hrec.host,
      fun _ => ⟨herr, hcorr, hslot⟩, by simp⟩

/-! ### The obligation -/

/-- Settles O38, detection by detection (the first attempt, the second, the order that ends), then read by read. -/
theorem tileAttemptsEnd : Obligations.TileAttemptsEnd := by
  unfold Obligations.TileAttemptsEnd
  refine ⟨?_, ?_⟩
  · intro l p w r k a row col g s c h hphys hmode hsev hslot hact
    have hc : c = causeCode k := by cases k <;> rfl
    rw [hc] at hsev ⊢
    obtain ⟨hw, hat⟩ := runsTiles_of_active hact
    have hdata := detected_data hsev hslot a row col g
    have hexec := exec_tileReplay hact k a row col g
    refine ⟨fun hrep hfirst => ?_, fun hrep hsecond hk hlog => ?_, fun hset hends => ?_⟩
    · obtain ⟨hagain, hcount, herr, hleft⟩ :=
        attemptFailed_replays hphys hmode hdata hw hat (causeCode_ne_remoteat k) hrep hfirst rfl
      exact ⟨_, hexec, hagain, hcount, herr ▸ bit_setBit_self _ (causeCode_lt k), hleft⟩
    · exact ⟨_, hexec, attemptFailed_fences hphys hdata hact (causeCode_ne_remoteat k) hrep hsecond
        (causeSuspect_of_ne_brine hk) hlog rfl⟩
    · obtain ⟨hgone, herr, hdone⟩ := attemptFailed_ends_order hphys hdata hw hat hset (ends_of_opened hends) rfl
      exact ⟨_, hexec, hgone, herr ▸ bit_setBit_self _ (causeCode_lt k), _, hdone, rfl, rfl⟩
  · intro l p w r a row g bs s hphys hsev hreads good
    refine ⟨fun hfirst => ?_, fun hhere hgood => ?_⟩
    · exact ⟨_, rfl, cakeReread_keeps hreads hphys hsev hfirst rfl⟩
    · have hdrop : cakeReread s l a.toNat row.toNat g.toNat bs = s := by
        rw [cakeReread_eq hreads, if_pos (by simpa [hhere] using hgood)]
      exact congrArg _ hdrop

end Sys2Proof.Machine.TileAttempt

/-! SUPPORT. Settles O39 (SettlementAndNotices): what a unit's reads and writes of the block's own memory are while Brine credits
last, what a settlement leaves and what the end of its order adds, and the two ways a notice is taken. -/

namespace Sys2Proof.Machine.Settlement

open Sys2Proof.Machine.TileAttempt

/-! ### Accesses that find their credit and stay in the block -/

/-- What the shell of a command asks of its effect: whether an access found no credit, and the remote reads and writes it noted. -/
def accesses (s : State) : Bool × List Nat × List Nat × List ROut := (s.stall, s.miss, s.rused, s.rout)

/-- The accesses of a command that needs nothing from another block and finds its credits. -/
def noAccesses : Bool × List Nat × List Nat × List ROut := (false, [], [], [])

/-- Such a command of a unit ends as its effect leaves it. -/
theorem commandAs_local {w : Agent} {bad : List Nat} {s : State} {f : State → State}
    (h : accesses (f (s.beginAs w bad)) = noAccesses) :
    commandAs w bad s f = { f (s.beginAs w bad) with hostBad := [], who := none, rsv := false } := by
  simp only [accesses, noAccesses, Prod.mk.injEq] at h
  obtain ⟨hstall, hmiss, hrused, hrout⟩ := h
  exact command_local hstall hmiss hrused hrout

theorem noCredit_of_credits {s : State} (h : Credits s) : noCredit s = false := by
  unfold noCredit
  split
  · simp [h]
  · rfl

theorem useCredit_of_credits {s : State} (h : Credits s) : useCredit s = s := by
  simp only [useCredit, noCredit_of_credits h, Bool.or_false]

/-- A number read in the block's own memory, no line of which is answered with an error. -/
theorem rdNum_here {s : State} {a : Nat} (h : Here s a) (hc : Credits s) (hb : s.hostBad = []) (n : Nat) :
    rdNum s a n = (some (leNat (memBytes s.host (hostAddr s a) n)), s) := by
  simp [rdNum, rdHost, show apertureOf s (addr64 a) = none from h, hb, useCredit_of_credits hc]

theorem putHost_eq (bs : List Byte) : ∀ (s : State) (a : Nat), s.hostBad = [] →
    putHost s a bs = { s with host := memPut s.host a bs } := by
  induction bs with
  | nil => intro s a _; rfl
  | cons b t ih =>
    intro s a hb
    have hgood : lineBad s a = false := by simp [lineBad, hb]
    simp only [putHost, hgood, Bool.false_eq_true, if_false]
    exact ih { s with host := smSet 0 s.host a b } (a + 1) hb

theorem wrHost_here {s : State} {a : Nat} (h : Here s a) (hc : Credits s) (hb : s.hostBad = []) (bs : List Byte) :
    wrHost s a bs = (true, { s with host := memPut s.host (hostAddr s a) bs }) := by
  simp [wrHost, show apertureOf s (addr64 a) = none from h, hb, useCredit_of_credits hc, putHost_eq]

/-! ### What a settlement does before its order ends (R120, R123, R128) -/

/-- The maximum of a settled tensor, as its statistics hold it. -/
def maxOf (s : State) (x : Settling) : Nat := leNat (memBytes s.host (hostAddr s (x.d.stats + 8)) 4)

/-- The flags of a settled tensor's statistics. -/
def flagsOf (s : State) (x : Settling) : Nat := leNat (memBytes s.host (hostAddr s (x.d.stats + 28)) 4)

/-- The coarse scale of a settlement. -/
def coarseOf (s : State) (x : Settling) : W32 := coarseFor x.d x.cb (fp32Q (BitVec.ofNat 32 (maxOf s x)))

/-- A parked tile once the event of its history slot has reached its pan. -/
def tellTile (h : Nat) (c : W32) (y : Parked) : Parked := if y.hist = h then { y with settled := some c } else y

/-- A pan once the event of a history slot has reached it. -/
def tell (h : Nat) (c : W32) (x : LPan) : LPan := { x with parked := x.parked.map (tellTile h c) }

/-- The state after the pan of a settlement has carried it out, its order still in its place: COARSE written for a two-pass order,
the maximum in the history slot, the event at every pan. -/
def settled (s : State) (l : Fin 60) (x : Settling) : State :=
  let c := coarseOf s x
  let u := { s with host := if x.mode = 1 then memPut s.host (hostAddr s (x.d.addr + 32)) (leBytes 4 c.toNat) else s.host }
  let u := setHist u x.d.hist
    ((histOf s x.d.hist).push (BitVec.ofNat 32 (maxOf s x)) (decide (x.mode = 2) && nbit (flagsOf s x) 2))
  modLp { u with lpan := u.lpan.map (tell x.d.hist c) } l fun y => { y with settle := none }

theorem lp_settled_self (s : State) (l : Fin 60) (x : Settling) :
    lp (settled s l x) l = { tell x.d.hist (coarseOf s x) (lp s l) with settle := none } := by
  simp [settled, lp]

theorem lp_settled_ne (s : State) {l m : Fin 60} (h : m ≠ l) (x : Settling) :
    lp (settled s l x) m = tell x.d.hist (coarseOf s x) (lp s m) := by
  rw [settled, lp_modLp_ne _ h.symm]
  simp [lp]

theorem parked_settled (s : State) (l m : Fin 60) (x : Settling) :
    (lp (settled s l x) m).parked = (lp s m).parked.map (tellTile x.d.hist (coarseOf s x)) := by
  by_cases h : m = l
  · subst h
    rw [lp_settled_self]
    rfl
  · rw [lp_settled_ne s h]
    rfl

theorem done_settled (s : State) (l : Fin 60) (x : Settling) : (lp (settled s l x) l).done = (lp s l).done := by
  rw [lp_settled_self]
  rfl

theorem run_settled (s : State) (l : Fin 60) (x : Settling) : (lp (settled s l x) l).run = (lp s l).run := by
  rw [lp_settled_self]
  rfl

theorem passed_settled (s : State) (l : Fin 60) (x : Settling) : (lp (settled s l x) l).passed = (lp s l).passed := by
  rw [lp_settled_self]
  rfl

theorem ppanOf_settled (s : State) (l : Fin 60) (x : Settling) : ppanOf (settled s l x) l = ppanOf s l := (rfl)

theorem histOf_settled (s : State) (l : Fin 60) (x : Settling) (h : Nat) :
    histOf (settled s l x) h =
      if x.d.hist = h then
        (histOf s x.d.hist).push (BitVec.ofNat 32 (maxOf s x)) (decide (x.mode = 2) && nbit (flagsOf s x) 2)
      else histOf s h :=
  smGet_smSet ..

/-! ### The end of an order with OK -/

/-- A pan that an order leaves. -/
def leave (w : Place) (r : Run) (x : LPan) : LPan :=
  { x.put w none with parked := x.parked.filter fun y => y.n ≠ r.n }

theorem finish_ok {s : State} {l : Fin 60} {w : Place} {r : Run} (h : (lp s l).at_ w = some r) :
    finish s l w stOk =
      pushDone (endReplay (modLp s l (leave w r)) (panPage s l)) l (r.done stOk (ppanOf s l)) := by
  simp only [finish, h, if_true]
  rfl

theorem lp_finish_ok {s : State} {l : Fin 60} {w : Place} {r : Run} (h : (lp s l).at_ w = some r) :
    lp (finish s l w stOk) l =
      { leave w r (lp s l) with done := (leave w r (lp s l)).done ++ [r.done stOk (ppanOf s l)] } := by
  have hleave : lp (endReplay (modLp s l (leave w r)) (panPage s l)) l = leave w r (lp s l) := lp_modLp ..
  rw [finish_ok h, pushDone, lp_modLp, hleave]

theorem done_finish_ok {s : State} {l : Fin 60} {w : Place} {r : Run} (h : (lp s l).at_ w = some r) :
    (lp (finish s l w stOk) l).done = (lp s l).done ++ [r.done stOk (ppanOf s l)] := by
  have hdone : (leave w r (lp s l)).done = (lp s l).done := put_done ..
  rw [lp_finish_ok h, hdone]

theorem passed_finish_ok {s : State} {l : Fin 60} {n : Nat} {r : Run} (h : (lp s l).at_ (.passed n) = some r) :
    (lp (finish s l (.passed n) stOk) l).passed = (lp s l).passed.filter fun y => y.n ≠ n := by
  rw [lp_finish_ok h]
  rfl

/-- What the end of an order with OK leaves of the rest: host memory, the scale history, the command's accesses, the pan's
settlement and every other pan. -/
structure EndsOnly (s t : State) (l : Fin 60) : Prop where
  host : t.host = s.host
  hist : ∀ h, histOf t h = histOf s h
  accesses : accesses t = accesses s
  settle : (lp t l).settle = (lp s l).settle
  others : ∀ m, m ≠ l → lp t m = lp s m

theorem EndsOnly.refl (s : State) (l : Fin 60) : EndsOnly s s l := ⟨rfl, fun _ => rfl, rfl, rfl, fun _ _ => rfl⟩

theorem put_settle (x : LPan) (w : Place) (r : Option Run) : (x.put w r).settle = x.settle := by cases w <;> rfl

theorem finish_ok_endsOnly (s : State) (l : Fin 60) (w : Place) : EndsOnly s (finish s l w stOk) l := by
  cases h : (lp s l).at_ w with
  | none =>
    have hsame : finish s l w stOk = s := by simp [finish, h]
    exact hsame.symm ▸ .refl s l
  | some r =>
    refine ⟨by rw [finish_ok h]; rfl, fun _ => by rw [finish_ok h]; rfl, by rw [finish_ok h]; rfl, ?_, fun m hm => ?_⟩
    · rw [lp_finish_ok h]
      exact put_settle ..
    · rw [finish_ok h, pushDone, lp_modLp_ne _ hm.symm]
      exact lp_modLp_ne _ hm.symm _

/-! ### SETTLE -/

section
variable {s : State} {l : Fin 60} {p : Fin 64} {x : Settling} (hlive : livePan s l = some p)
  (hset : (lp s l).settle = some x) (hc : Credits s) (hb : s.hostBad = []) (hmax : Here s (x.d.stats + 8))
  (hflags : Here s (x.d.stats + 28)) (hcoarse : x.mode = 1 → Here s (x.d.addr + 32))
include hlive hset hc hb hmax hflags hcoarse

theorem settle_eq :
    settle s l = match (lp s l).placeOf x.n with
      | some (.passed n) => if x.mode = 2 then finish (settled s l x) l (.passed n) stOk else settled s l x
      | _ => settled s l x := by
  have hwrite : (if x.mode = 1 then wrHost s (x.d.addr + 32) (leBytes 4 (coarseOf s x).toNat) else (true, s)) =
      (true, { s with host := if x.mode = 1 then memPut s.host (hostAddr s (x.d.addr + 32)) (leBytes 4 (coarseOf s x).toNat)
                              else s.host }) := by
    split
    · next h => exact wrHost_here (hcoarse h) hc hb _
    · rfl
  have hplace : (lp (settled s l x) l).placeOf x.n = (lp s l).placeOf x.n := by
    rw [lp_settled_self]
    rfl
  rw [← hplace]
  simp only [coarseOf, maxOf] at hwrite
  simp only [settle, hlive, hset, rdNum_here hmax hc hb, rdNum_here hflags hc hb, hwrite]
  rfl

/-- A settlement ends an order only in a streamed one. -/
theorem settle_endsOnly : EndsOnly (settled s l x) (settle s l) l ∧ (x.mode ≠ 2 → settle s l = settled s l x) := by
  rw [settle_eq hlive hset hc hb hmax hflags hcoarse]
  split
  · split
    · next h => exact ⟨finish_ok_endsOnly .., fun hne => absurd h hne⟩
    · exact ⟨.refl .., fun _ => rfl⟩
  · exact ⟨.refl .., fun _ => rfl⟩

/-- A streamed order all of whose tiles have passed ends with its settlement. -/
theorem settle_ends_passed {r : Run} (hmode : x.mode = 2) (hplace : (lp s l).placeOf x.n = some (.passed x.n))
    (hfind : (lp s l).passed.find? (fun y => y.n = x.n) = some r) :
    (lp (settle s l) l).passed = (lp s l).passed.filter (fun y => y.n ≠ x.n) ∧
      (lp (settle s l) l).done = (lp s l).done ++ [r.done stOk (ppanOf s l)] := by
  have hfinish : settle s l = finish (settled s l x) l (.passed x.n) stOk := by
    simp only [settle_eq hlive hset hc hb hmax hflags hcoarse, hplace, hmode, if_true]
  have hat : (lp (settled s l x) l).at_ (.passed x.n) = some r := by
    rw [lp_settled_self]
    exact hfind
  rw [hfinish, passed_finish_ok hat, done_finish_ok hat, passed_settled, done_settled, ppanOf_settled]
  exact ⟨rfl, rfl⟩

end

/-! ### What a record of a pan's error leaves (R358, R361, R373) -/

theorem accesses_eqPush (s : State) (bs : List Byte) : accesses (eqPush s bs) = accesses s := by
  unfold eqPush
  dsimp only
  split <;> rfl

theorem accesses_trace (s : State) (kind : Nat) (p : PageId) (bs : List Byte) : accesses (trace s kind p bs) = accesses s := by
  unfold trace
  dsimp only
  split
  · rfl
  · simp [accesses]

theorem accesses_raiseInt (s : State) (i : Nat) : accesses (raiseInt s i) = accesses s := by
  unfold raiseInt sendMsg
  dsimp only
  split
  · split <;> rfl
  · rfl

theorem accesses_wakeEvent (s : State) : accesses (wakeEvent s) = accesses s := by
  unfold wakeEvent
  split
  · rfl
  · rfl
  · split <;> rfl
  · rfl

theorem accesses_recordOnly (s : State) (p : PageId) (e : ErrIn) : accesses (recordOnly s p e).2 = accesses s := by
  unfold recordOnly
  extract_lets h armed inj c0 c1 noted
  split
  · rfl
  · split
    extract_lets r entered fseq queued traced raised vrd pending
    have hraised : accesses raised = accesses traced := by
      unfold raised
      split
      · rfl
      · exact accesses_raiseInt ..
    calc accesses (wakeEvent pending) = accesses pending := accesses_wakeEvent _
      _ = accesses raised := by unfold pending; split <;> rfl
      _ = accesses traced := hraised
      _ = accesses queued := accesses_trace ..
      _ = accesses entered := accesses_eqPush ..

/-- A page's ERR, host memory, the notices on their way and the command's accesses are as they were. -/
structure Kept (s t : State) (p : PageId) : Prop where
  err : (hdr t p).err = (hdr s p).err
  host : t.host = s.host
  notices : ∀ l, (lp t l).notices = (lp s l).notices
  accesses : accesses t = accesses s

theorem Kept.refl (s : State) (p : PageId) : Kept s s p := ⟨rfl, rfl, fun _ => rfl, rfl⟩

theorem Kept.trans {s t u : State} {p : PageId} (h : Kept s t p) (k : Kept t u p) : Kept s u p :=
  ⟨k.err.trans h.err, k.host.trans h.host, fun l => (k.notices l).trans (h.notices l), k.accesses.trans h.accesses⟩

theorem modHdr_kept (s : State) {p : PageId} {f : PageHdr → PageHdr} (h : (f (hdr s p)).err = (hdr s p).err) :
    Kept s (modHdr s p f) p :=
  ⟨(congrArg PageHdr.err (hdr_modHdr ..)).trans h, rfl, fun _ => rfl, rfl⟩

theorem modLp_kept (s : State) (p : PageId) (l : Fin 60) {f : LPan → LPan} (h : ∀ x, (f x).notices = x.notices) :
    Kept s (modLp s l f) p where
  err := rfl
  host := rfl
  notices m := by
    by_cases hm : l = m
    · rw [hm, lp_modLp, h]
    · rw [lp_modLp_ne s hm]
  accesses := rfl

theorem unmapPan_kept (s : State) (q : Fin 64) (p : PageId) : Kept s (unmapPan s q) p := by
  unfold unmapPan
  split <;> exact ⟨rfl, rfl, fun _ => rfl, rfl⟩

theorem quadIdle_kept (s : State) (q : Fin 16) (p : PageId) : Kept s (quadIdle s q) p := by
  obtain ⟨d, h⟩ := quadIdle_eq s q
  exact h ▸ ⟨rfl, rfl, fun _ => rfl, rfl⟩

theorem modPan_kept (s : State) (q : Fin 64) (f : Pan → Pan) (p : PageId) : Kept s (modPan s q f) p :=
  ⟨rfl, rfl, fun _ => rfl, rfl⟩

theorem modFlt_kept (s : State) (f : Flt → Flt) (p : PageId) : Kept s (modFlt s f) p := ⟨rfl, rfl, fun _ => rfl, rfl⟩

theorem modTstR_kept (s : State) (f : TstRegs → TstRegs) (p : PageId) : Kept s (modTstR s f) p := ⟨rfl, rfl, fun _ => rfl, rfl⟩

theorem unpass_kept (s : State) (u : Nat) (p : PageId) : Kept s (unpass s u) p := ⟨rfl, rfl, fun _ => rfl, rfl⟩

/-- A fence loses no notice (R373). -/
theorem fencePan_kept (s : State) (q : Fin 64) : Kept s (fencePan s q) (.pan q) := by
  unfold fencePan
  extract_lets halted unmapped faulted gated counted idle
  have hhalted : Kept s halted (.pan q) := by
    unfold halted
    split
    · exact .refl ..
    · exact modLp_kept s _ _ fun _ => rfl
  have hfaulted : Kept unmapped faulted (.pan q) := modHdr_kept _ rfl
  exact hhalted.trans <| (unmapPan_kept ..).trans <| hfaulted.trans <| (modPan_kept ..).trans <| (modFlt_kept ..).trans <|
    (quadIdle_kept ..).trans <| (modTstR_kept ..).trans <| unpass_kept ..

/-- An error of class DATA whose cause does not point at the pan keeps its class, or becomes UNIT where both slots are taken
(R361). -/
theorem escalate_unsuspected (h : PageHdr) (q : Fin 64) {e : ErrIn} (hsus : e.suspect = false) :
    (escalate h (.pan q) e 1).1 = if h.slotA.valid && h.slotB.valid then 2 else 1 := by
  have hagain : ((PageId.pan q == .glb || PageId.pan q == .vrd) : Bool) = false := rfl
  simp only [escalate, hsus, hagain, Bool.and_false, Bool.false_and, Bool.or_self, Bool.false_eq_true, if_false]
  split <;> rfl

/-- An error of class DATA that its pan's page records: ERR shows it, and the fence that may follow loses no notice. -/
theorem recordErr_unsuspected {s : State} {q : Fin 64} {e : ErrIn} (hcls : e.cls = none) (hdata : defaultClass e.cause = 1)
    (hsev : bit (hdr s (.pan q)).errsev e.cause = false) (hsus : e.suspect = false) {t : State}
    (ht : recordErr s (.pan q) e = t) :
    (hdr t (.pan q)).err = setBit (hdr s (.pan q)).err e.cause true ∧ t.host = s.host ∧
      (∀ l, (lp t l).notices = (lp s l).notices) ∧ accesses t = accesses s := by
  have hrec := recordOnly_recorded s (.pan q) e
  have hacc := accesses_recordOnly s (.pan q) e
  have hclass : (recordOnly s (.pan q) e).1 = _ := recordOnly_class hcls hsev
  rw [hdata, if_neg Nat.one_ne_zero, escalate_unsuspected _ q hsus] at hclass
  have hkept : Kept (recordOnly s (.pan q) e).2 t (.pan q) := by
    rw [← ht, recordErr_eq, hclass]
    split
    · rw [respond_pan_unit]
      exact fencePan_kept ..
    · rw [respond_pan_data]
      exact .refl ..
  exact ⟨hkept.err.trans hrec.err, hkept.host.trans hrec.host,
    fun l => (hkept.notices l).trans (congrArg LPan.notices (lp_congr hrec.lpan l)), hkept.accesses.trans hacc⟩

/-! ### PARTIAL_NOTICE (R238, R239) -/

/-- A pan that has taken a notice that no sender of its own block waits for. -/
def takeNotice (q : Nat) (x : LPan) : LPan := { x with notices := x.notices.erase (q, none) }

/-- An order whose fold has a slot noted, with the block that it holds. -/
def noteSlot (slot q : Nat) (r : Run) : Run := { r with fold := { r.fold with slots := r.fold.slots ++ [(slot, q)] } }

/-- Whether a notice names a block that the fold has passed, or a slot that holds one (R239). -/
def noticeAgain (q : Nat) (r : Run) : Bool :=
  decide (q < r.fold.front) || r.fold.slots.any fun y => decide (y.1 = q % r.ord.pslots)

theorem noticeAgain_eq_true_iff (q : Nat) (r : Run) :
    noticeAgain q r = true ↔ q < r.fold.front ∨ ∃ y ∈ r.fold.slots, y.1 = q % r.ord.pslots := by
  simp [noticeAgain]

/-- The error of a second notice for a slot. -/
def duplicate (l : Fin 60) (q : Nat) (r : Run) : ErrIn :=
  { cause := cPartdup, oid := r.ord.oid.toNat, group := q, lpan := l.1 }

/-- The fold of an order whose tile has not been started waits. -/
theorem advanceAll_waits {s : State} {l : Fin 60} {r : Run} (hrun : (lp s l).run = some r) (hstart : r.started = false) :
    advanceAll s l = s := by
  simp [advanceAll, hrun, settleAdvance, hstart]

theorem partialNotice_eq {s : State} {l : Fin 60} {r : Run} {q : Nat} (hnotice : (lp s l).notices = [(q, none)])
    (hrun : (lp s l).run = some r) (hset : r.ord.settle = true) (hslots : r.ord.pslots ≠ 0) (hstart : r.started = false) :
    partialNotice s l q =
      if noticeAgain q r then recordErr (modLp s l (takeNotice q)) (panPage s l) (duplicate l q r)
      else modRun (modLp s l (takeNotice q)) l .run (noteSlot (q % r.ord.pslots) q) := by
  have hwait : advanceAll (modRun (modLp s l (takeNotice q)) l .run (noteSlot (q % r.ord.pslots) q)) l =
      modRun (modLp s l (takeNotice q)) l .run (noteSlot (q % r.ord.pslots) q) := by
    refine advanceAll_waits (r := noteSlot (q % r.ord.pslots) q r) ?_ hstart
    rw [modRun, lp_modLp, lp_modLp]
    exact congrArg (Option.map _) hrun
  have hsettles : (r.ord.settle && r.ord.pslots != 0) = true := by simp [hset, hslots]
  have hfind : (lp s l).notices.find? (fun x => x.1 = q) = some (q, none) := by simp [hnotice]
  simp only [partialNotice, hfind, lp_modLp, hrun, hsettles, if_true]
  exact congrArg (ite (noticeAgain q r = true) _) hwait

/-- What the pan holds once it has taken its one notice. -/
theorem takeNotice_last {x : LPan} {q : Nat} (h : x.notices = [(q, none)]) : (takeNotice q x).notices = [] := by
  simp [takeNotice, h]

/-- What the first notice for a slot leaves. -/
theorem noteSlot_leaves {s : State} {l : Fin 60} {r : Run} {q slot : Nat} (hnotice : (lp s l).notices = [(q, none)])
    (hrun : (lp s l).run = some r) {t : State} (ht : modRun (modLp s l (takeNotice q)) l .run (noteSlot slot q) = t) :
    (lp t l).notices = [] ∧ t.hdrs = s.hdrs ∧ t.host = s.host ∧ (lp t l).run = some (noteSlot slot q r) ∧
      accesses t = accesses s := by
  have hlp : lp t l = { takeNotice q (lp s l) with run := (lp s l).run.map (noteSlot slot q) } := by
    rw [← ht, modRun, lp_modLp, lp_modLp]
    rfl
  refine ⟨?_, ht ▸ rfl, ht ▸ rfl, ?_, ht ▸ rfl⟩
  · rw [hlp, takeNotice_last hnotice]
  · rw [hlp, hrun, Option.map_some]

/-- The page of a pan records a second notice for a slot. -/
theorem recordErr_duplicate {s : State} {l : Fin 60} {p : Fin 64} {q : Nat} (r : Run) (hsev : (hdr s (.pan p)).errsev = 0)
    (hnotice : (lp s l).notices = [(q, none)]) {t : State}
    (ht : recordErr (modLp s l (takeNotice q)) (.pan p) (duplicate l q r) = t) :
    (lp t l).notices = [] ∧ bit (hdr t (.pan p)).err cPartdup = true ∧ t.host = s.host ∧ accesses t = accesses s := by
  have hbit : bit (hdr (modLp s l (takeNotice q)) (.pan p)).errsev cPartdup = false := by
    change bit (hdr s (.pan p)).errsev cPartdup = false
    rw [hsev]
    rfl
  obtain ⟨herr, hhost, hkept, hacc⟩ := recordErr_unsuspected (e := duplicate l q r) rfl rfl hbit rfl ht
  refine ⟨?_, herr ▸ bit_setBit_self _ (by decide : cPartdup < 32), hhost, hacc⟩
  rw [hkept, lp_modLp, takeNotice_last hnotice]

/-! ### The obligation -/

theorem exec_settle (s : State) (l : Fin 60) :
    exec (.settle l []) s = .next (commandAs (.pan l 0) [] s fun s => settle s l) := rfl

theorem exec_partialNotice (s : State) (l : Fin 60) (q : W32) :
    exec (.partialNotice l q []) s = .next (commandAs (.pan l 0) [] s fun s => partialNotice s l q.toNat) := rfl

/-- Settles O39: of a settlement, what the pan does for every order and then what the end of a streamed one adds; of a notice, a
slot's first and its second. -/
theorem settlementAndNotices : Obligations.SettlementAndNotices := by
  unfold Obligations.SettlementAndNotices
  refine ⟨?_, ?_⟩
  · intro l p x s hlive hset hc d hmax hflags hcoarse ta sf c
    let u := s.beginAs (.pan l 0) []
    have hcu : Credits u := hc
    obtain ⟨hends, hplain⟩ := settle_endsOnly (s := u) hlive hset hcu rfl hmax hflags hcoarse
    have hpassed := fun r => settle_ends_passed (s := u) (r := r) hlive hset hcu rfl hmax hflags hcoarse
    have hexec := (exec_settle s l).trans (congrArg _ (commandAs_local hends.accesses))
    generalize settle (s.beginAs (.pan l 0) []) l = t at hends hplain hpassed hexec
    refine ⟨_, hexec, ?_, ?_, fun h hne => ?_, hends.host, fun m hm => ?_, fun hmode => ?_, fun r hmode hplace hfind _ => ?_⟩
    · exact hends.settle.trans (congrArg LPan.settle (lp_settled_self u l x))
    · exact (hends.hist d.hist).trans ((histOf_settled u l x d.hist).trans (if_pos rfl))
    · exact (hends.hist h).trans ((histOf_settled u l x h).trans (if_neg hne.symm))
    · have hlp : lp t m = lp (settled u l x) m := hm.elim (hends.others m) fun hmode => by rw [hplain hmode]
      exact (congrArg LPan.parked hlp).trans (parked_settled u l m x)
    · rw [hplain hmode]
      exact ⟨done_settled u l x, run_settled u l x⟩
    · obtain ⟨hgone, hdone⟩ := hpassed r hmode hplace hfind
      have hn : r.n = x.n := by simpa using List.find?_some hfind
      exact ⟨hgone, _, hdone, hn, rfl⟩
  · intro l p r q s hphys hsev _ hrun hsettle hslots hstart hnotices
    let u := s.beginAs (.pan l 0) []
    have hnotice := partialNotice_eq (s := u) hnotices hrun hsettle hslots hstart
    have hexec := fun h => (exec_partialNotice s l q).trans (congrArg _ (commandAs_local h))
    generalize partialNotice (s.beginAs (.pan l 0) []) l q.toNat = t at hnotice hexec
    refine ⟨fun hfront hfree => ?_, fun hagain => ?_⟩
    · have hnew : ¬ noticeAgain q.toNat r = true := by
        rw [noticeAgain_eq_true_iff, not_or, Nat.not_lt]
        exact ⟨hfront, fun ⟨y, hy, h⟩ => hfree y hy h⟩
      rw [if_neg hnew] at hnotice
      obtain ⟨hnone, hhdrs, hhost, hnoted, hacc⟩ := noteSlot_leaves (s := u) hnotices hrun hnotice.symm
      exact ⟨_, hexec hacc, hnone, hhdrs, hhost, hnoted⟩
    · rw [if_pos ((noticeAgain_eq_true_iff ..).2 hagain), panPage_eq (show physOf u l = some p from hphys)] at hnotice
      obtain ⟨hnone, herr, hhost, hacc⟩ := recordErr_duplicate (s := u) r hsev hnotices hnotice.symm
      exact ⟨_, hexec hacc, hnone, herr, hhost⟩

end Sys2Proof.Machine.Settlement

/-! SUPPORT. Settles O16 (RakeCommands) and O43 (RakeEventsRun): what a command of the Rake keeps of the mask directory, of the Rake's
own queues and of host memory, what its accesses change, and the states that a flip and a retirement leave. -/

namespace Sys2Proof.Machine.RakeWork

/-! ### What the end of a command keeps -/

/-- The mask directory, the Rake's own state and host memory are the same, and so is whether the command goes on: the accesses that
found no credit and the remote data it lacks. -/
structure RakeKept (s t : State) : Prop where
  dir : t.dir = s.dir
  rak : t.rak = s.rak
  host : t.host = s.host
  stall : t.stall = s.stall
  miss : t.miss = s.miss

theorem RakeKept.refl (s : State) : RakeKept s s := ⟨rfl, rfl, rfl, rfl, rfl⟩

theorem RakeKept.trans {s t u : State} (h : RakeKept s t) (k : RakeKept t u) : RakeKept s u :=
  ⟨k.dir.trans h.dir, k.rak.trans h.rak, k.host.trans h.host, k.stall.trans h.stall, k.miss.trans h.miss⟩

theorem transmit_kept (s : State) (k : Fin 8) (f : Frame) : RakeKept s (transmit s k f) := by
  unfold transmit
  split <;> exact ⟨rfl, rfl, rfl, rfl, rfl⟩

theorem modPair_kept (s : State) (adp : Bool) (peer cls : Nat) (f : Pair → Pair) : RakeKept s (modPair s adp peer cls f) :=
  ⟨rfl, rfl, rfl, rfl, rfl⟩

theorem sendNow_kept (s : State) (adp : Bool) (peer cls : Nat) (k : Fin 8) (ftype : Nat) (ts payload : List Byte) :
    RakeKept s (sendNow s adp peer cls k ftype ts payload) := by
  unfold sendNow
  extract_lets p f queued clean once
  have honce : RakeKept s once := ((modPair_kept ..).trans (modPair_kept ..)).trans (transmit_kept ..)
  split
  · exact honce.trans (transmit_kept ..)
  · exact honce

theorem sendVia_kept (s : State) (via : Option (Fin 8)) (adp : Bool) (peer cls ftype : Nat) (ts payload : List Byte) :
    RakeKept s (sendVia s via adp peer cls ftype ts payload) := by
  unfold sendVia
  dsimp only
  split
  · exact .refl s
  · split
    · split
      · exact sendNow_kept ..
      · exact modPair_kept ..
    · exact modPair_kept ..

theorem sendWrite_kept (cut n : Nat) (s : State) (a : Nat) (bs : List Byte) : RakeKept s (sendWrite cut n s a bs) := by
  induction n generalizing s a bs with
  | zero => exact .refl s
  | succ n ih =>
    unfold sendWrite
    split
    · exact .refl s
    · exact (sendVia_kept ..).trans (ih ..)

theorem sendRout_kept (s : State) : RakeKept s (sendRout s) := by
  have hsent : RakeKept s (s.rout.foldl (fun s w =>
      sendWrite 4096 (w.bytes.length / 4096 + 1) { s with who := w.who } w.addr w.bytes) { s with rout := [] }) :=
    List.foldlRecOn s.rout _ ⟨rfl, rfl, rfl, rfl, rfl⟩ fun t ht w _ =>
      ht.trans (.trans (t := { t with who := w.who }) ⟨rfl, rfl, rfl, rfl, rfl⟩ (sendWrite_kept ..))
  exact hsent.trans ⟨rfl, rfl, rfl, rfl, rfl⟩

/-- The shell of a command that finds its credits and lacks no remote data sends its remote writes and keeps the rest. -/
theorem commandAs_kept {w : Agent} {bad : List Nat} {s u : State} {f : State → State} (hu : f (s.beginAs w bad) = u)
    (hstall : u.stall = false) (hmiss : u.miss = []) : RakeKept u (commandAs w bad s f) := by
  have hends : commandAs w bad s f = endRemote { u with hostBad := [] } := by
    subst hu
    exact (if_neg (Bool.eq_false_iff.1 hstall)).trans (if_pos (List.isEmpty_iff.2 hmiss))
  have hsent : RakeKept u (sendRout { u with hostBad := [] }) :=
    .trans (t := { u with hostBad := [] }) ⟨rfl, rfl, rfl, rfl, rfl⟩ (sendRout_kept _)
  rw [hends]
  exact ⟨hsent.dir, hsent.rak, hsent.host, hstall.symm, hsent.miss⟩

theorem trimTail_kept (s : State) : RakeKept s (trimTail s) := ⟨rfl, rfl, rfl, rfl, rfl⟩

theorem journalDir_kept (s : State) (m : Nat) : RakeKept s (journalDir s m) := by
  unfold journalDir journal
  dsimp only
  split
  · refine .trans (.trans ?_ (sendVia_kept ..)) (trimTail_kept _)
    exact ⟨rfl, rfl, rfl, rfl, rfl⟩
  · exact ⟨rfl, rfl, rfl, rfl, rfl⟩

/-- A command that ends with a directory entry journaled keeps the state that it journals in the same way. -/
theorem commandAs_journaled {w : Agent} {bad : List Nat} {s u : State} {m : Nat} {f : State → State}
    (hu : f (s.beginAs w bad) = journalDir u m) (hstall : u.stall = false) (hmiss : u.miss = []) :
    RakeKept u (commandAs w bad s f) :=
  have hjournal := journalDir_kept u m
  hjournal.trans (commandAs_kept hu (hjournal.stall.trans hstall) (hjournal.miss.trans hmiss))

theorem countNel_kept (s : State) (m : Nat) (rows : List RowRd) : RakeKept s (countNel s m rows) := by
  unfold countNel
  split <;> exact ⟨rfl, rfl, rfl, rfl, rfl⟩

/-! ### What accesses change -/

/-- Only what a computation may change differs: host memory and the notes of a command's accesses. -/
def BusOnly (s t : State) : Prop := t = s.withBus t

theorem BusOnly.refl (s : State) : BusOnly s s := rfl

/-- What an operation leaves, its result given by an equation. -/
theorem BusOnly.of_result {α : Type} {s t : State} {x : α × State} {r : α} (hx : BusOnly s x.2) (h : x = (r, t)) : BusOnly s t := by
  rw [h] at hx
  exact hx

/-- A state that shares all but the bus with another. -/
theorem BusOnly.of_eq {s t : State} (h : t = s.withBus t) : BusOnly s t := h

theorem BusOnly.trans {s t u : State} (h : BusOnly s t) (k : BusOnly t u) : BusOnly s u := by
  unfold BusOnly at *
  rw [k, h]
  rfl

theorem BusOnly.dir {s t : State} (h : BusOnly s t) : t.dir = s.dir := (congrArg State.dir h :)
theorem BusOnly.rak {s t : State} (h : BusOnly s t) : t.rak = s.rak := (congrArg State.rak h :)

theorem rdHost_busOnly (s : State) (a n : Nat) : BusOnly s (rdHost s a n).2 := by
  unfold rdHost
  dsimp only
  split
  · split
    · rfl
    · split <;> rfl
  · split <;> rfl

theorem wrRemote_busOnly (s : State) (a : Nat) (bs : List Byte) : BusOnly s (wrRemote s a bs).2 := by
  unfold wrRemote
  dsimp only
  split <;> split
  · rfl
  · exact rdHost_busOnly ..
  · rfl
  · exact (rdHost_busOnly ..).trans rfl

theorem putHost_busOnly (bs : List Byte) : ∀ (s : State) (a : Nat), BusOnly s (putHost s a bs) := by
  induction bs with
  | nil => exact fun s _ => .refl s
  | cons b bs ih =>
    intro s a
    unfold putHost
    split
    · exact .trans (BusOnly.of_eq rfl) (ih ..)
    · exact .trans (BusOnly.of_eq rfl) (ih ..)

theorem wrHost_busOnly (s : State) (a : Nat) (bs : List Byte) : BusOnly s (wrHost s a bs).2 := by
  unfold wrHost
  split
  · exact wrRemote_busOnly ..
  · exact .trans (.of_eq rfl) (putHost_busOnly ..)

theorem onReserve_busOnly {α : Type} {f : State → α × State} (hf : ∀ s, BusOnly s (f s).2) (s : State) :
    BusOnly s (onReserve f s).2 :=
  (congrArg (fun t : State => { t with rsv := s.rsv }) (hf { s with rsv := true }) :)

theorem issueWrites_busOnly (s : State) (ws : List (Nat × List Byte)) : BusOnly s (issueWrites s ws).2 :=
  List.foldlRecOn (motive := fun x : Option Nat × State => BusOnly s x.2) ws _ (.refl s)
    fun _ hx _ _ => hx.trans (wrHost_busOnly ..)

theorem run_busOnly {α : Type} (x : Io α) (s : State) : BusOnly s (x.run s).2 := (rfl)

/-! ### A directory entry changed -/

theorem dirOf_congr {s t : State} (h : t.dir = s.dir) (m : Nat) : dirOf t m = dirOf s m := by rw [dirOf, h, dirOf]

theorem dirOf_modDir (s : State) (m : Nat) (f : DirE → DirE) : dirOf (modDir s m f) m = f (dirOf s m) :=
  (smGet_smSet ..).trans (if_pos rfl)

theorem dirOf_modDir_ne (s : State) {m n : Nat} (h : m ≠ n) (f : DirE → DirE) : dirOf (modDir s m f) n = dirOf s n :=
  (smGet_smSet ..).trans (if_neg h)

theorem dirOf_modRak (s : State) (f : Rak → Rak) (m : Nat) : dirOf (modRak s f) m = dirOf s m := (rfl)

/-! ### Commands written to the Rake (R164, R377, R483) -/

theorem rakeCommand_taken {s : State} (hfree : s.flt.frake = false) (hmode : (hdr s .rak).mode ≠ .isolated)
    (hcmd : s.rak.cmd = none) (op : RakeOp) (b : Bool) (m : BitVec 12) :
    rakeCommand s op b m = modRak s fun r =>
      { r with cmd := some { op := op, slot := b, mid := m.toNat, held := decide (pageState s .rak = .stopped) } } := by
  have hserves : ¬ (s.flt.frake || (hdr s .rak).mode == .isolated) = true := by
    rw [hfree, Bool.false_or, beq_iff_eq]
    exact hmode
  have hidle : ¬ s.rak.cmd.isSome = true := by
    rw [hcmd]
    exact Bool.false_ne_true
  rw [rakeCommand, if_neg hserves, if_neg hidle, Bool.beq_eq_decide_eq]
  rfl

theorem rakeCommand_refused {s : State} (h : s.flt.frake = true ∨ (hdr s .rak).mode = .isolated ∨ s.rak.cmd ≠ none) (op : RakeOp)
    (b : Bool) (m : BitVec 12) : rakeCommand s op b m = dropReject s .rak 0x40 .state := by
  rcases h with h | h | h
  · exact if_pos (Bool.or_eq_true_iff.2 (.inl h))
  · exact if_pos (Bool.or_eq_true_iff.2 (.inr (beq_iff_eq.2 h)))
  · rw [rakeCommand, if_pos (Option.isSome_iff_ne_none.2 h)]
    split <;> rfl

/-- The three commands are one write to the Rake's page. -/
theorem exec_rakeCommand {s : State} (h : Answers s .rak) {b : Bool} {m : BitVec 12} {i : Instr} {op : RakeOp}
    (hi : (i, op) ∈ [(Instr.rakeLoad b m, RakeOp.load), (.follow b m, .follow), (.drop b m, .drop)]) :
    exec i s = .next (rakeCommand (answer s cpOk) op b m) := by
  simp only [List.mem_cons, Prod.mk.injEq, List.not_mem_nil, or_false] at hi
  rcases hi with ⟨rfl, rfl⟩ | ⟨rfl, rfl⟩ | ⟨rfl, rfl⟩
  · exact cpWrite_answers h (rakeCommand · .load b m)
  · exact cpWrite_answers h (rakeCommand · .follow b m)
  · exact cpWrite_answers h (rakeCommand · .drop b m)

/-! ### The end of a DROP (R164) -/

theorem rakeDrop_busy {s : State} {m : Nat} (hbusy : (dirOf s m).busy = true) : rakeDrop s m = rakeResult s m rkBusy :=
  if_pos hbusy

section
variable {s : State} {m : Nat} (hbusy : (dirOf s m).busy = false)
include hbusy

theorem rakeDrop_noRole (hrole : (dirOf s m).role = 0) : rakeDrop s m = rakeResult s m rkBadRole :=
  (if_neg (Bool.eq_false_iff.1 hbusy)).trans (if_pos hrole)

theorem rakeDrop_waits (hrole : (dirOf s m).role ≠ 0) (hA : (dirOf s m).rdrA ≠ 0) : rakeDrop s m = s :=
  (if_neg (Bool.eq_false_iff.1 hbusy)).trans ((if_neg hrole).trans (if_pos (.inl hA)))

theorem rakeDrop_done (hrole : (dirOf s m).role ≠ 0) (hA : (dirOf s m).rdrA = 0) (hB : (dirOf s m).rdrB = 0) :
    rakeDrop s m = rakeResult (modDir s m fun e => { e with role := 0 }) m rkDone :=
  have hunread : ¬ ((dirOf s m).rdrA ≠ 0 ∨ (dirOf s m).rdrB ≠ 0) := not_or.2 ⟨Decidable.not_not.2 hA, Decidable.not_not.2 hB⟩
  (if_neg (Bool.eq_false_iff.1 hbusy)).trans ((if_neg hrole).trans (if_neg hunread))

end

/-- The Rake once a command on an entry has ended with a result. -/
def ended (m code : Nat) (r : Rak) : Rak :=
  { r with cmd := none, regs := { r.regs with rres := BitVec.ofNat 4 code, rrmid := BitVec.ofNat 12 m } }

theorem rakeResult_eq (s : State) (m code : Nat) : rakeResult s m code = journalDir (modRak s (ended m code)) m := (rfl)

/-- The state in which a command of the Rake begins, its debug step used (R492). -/
def begun (s : State) : State := (useStep s 0x50).beginAs .rak []

theorem exec_rakeCommandDone_drop {s : State} {c : RakeCmd} (hcmd : s.rak.cmd = some c) (hop : c.op = .drop)
    (hgoes : rakeGoes s = true) :
    exec (.rakeCommandDone []) s = .next (commandAs .rak [] (useStep s 0x50) (rakeDrop · c.mid)) := by
  change execRakeCommandDone [] s = _
  simp [execRakeCommandDone, hcmd, hop, hgoes]

/-- A DROP that its entry's state ends at once (R164), from the state in which the entry has its new role. -/
theorem drop_ends {s u : State} {c : RakeCmd} {code : Nat} (hcmd : s.rak.cmd = some c) (hop : c.op = .drop)
    (hgoes : rakeGoes s = true) (hdrop : rakeDrop (begun s) c.mid = rakeResult u c.mid code)
    (hrak : u.rak = s.rak) (hstall : u.stall = false) (hmiss : u.miss = []) :
    ∃ t, exec (.rakeCommandDone []) s = .next t ∧ t.rak = ended c.mid code s.rak ∧ t.dir = u.dir ∧ t.host = u.host := by
  have hkept := commandAs_journaled (s := useStep s 0x50) (f := (rakeDrop · c.mid)) (hdrop.trans (rakeResult_eq ..)) hstall hmiss
  exact ⟨_, exec_rakeCommandDone_drop hcmd hop hgoes, hkept.rak.trans (congrArg (ended c.mid code) hrak), hkept.dir, hkept.host⟩

/-- Settles O16: of a written command, that the three are one write; of DROP, the four states of its entry. -/
theorem rakeCommands : Obligations.RakeCommands := by
  unfold Obligations.RakeCommands
  refine ⟨fun b m s i op hans hi => ⟨fun hfree hmode hcmd => ?_, fun h => ?_⟩, fun c s hcmd hop hgoes _ =>
    ⟨fun hbusy hrole hA hB => ?_, fun hbusy => ?_, fun hbusy hrole => ?_, fun hbusy hrole hA => ?_⟩⟩
  · rw [exec_rakeCommand hans hi, rakeCommand_taken (s := answer s cpOk) hfree hmode hcmd]
    rfl
  · rw [exec_rakeCommand hans hi, rakeCommand_refused (s := answer s cpOk) h]
    rfl
  · obtain ⟨t, hexec, hrak, hdir, hhost⟩ :=
      drop_ends hcmd hop hgoes (rakeDrop_done (s := begun s) hbusy hrole hA hB) rfl rfl rfl
    have hentry : ∀ m, dirOf t m = dirOf (modDir s c.mid fun e => { e with role := 0 }) m := dirOf_congr hdir
    refine ⟨t, hexec, congrArg Rak.cmd hrak, congrArg (·.regs.rres) hrak, congrArg (·.regs.rrmid) hrak, ?_, fun m hm => ?_, hhost⟩
    · rw [hentry, dirOf_modDir]
    · rw [hentry, dirOf_modDir_ne s hm.symm]
  · obtain ⟨t, hexec, hrak, hdir, -⟩ := drop_ends hcmd hop hgoes (rakeDrop_busy (s := begun s) hbusy) rfl rfl rfl
    exact ⟨t, hexec, congrArg Rak.cmd hrak, hdir, congrArg (·.regs.rres) hrak⟩
  · obtain ⟨t, hexec, hrak, hdir, -⟩ := drop_ends hcmd hop hgoes (rakeDrop_noRole (s := begun s) hbusy hrole) rfl rfl rfl
    exact ⟨t, hexec, congrArg Rak.cmd hrak, hdir, congrArg (·.regs.rres) hrak⟩
  · have hkept := commandAs_kept (s := useStep s 0x50) (f := (rakeDrop · c.mid))
      (rakeDrop_waits (s := begun s) hbusy hrole hA) rfl rfl
    exact ⟨_, exec_rakeCommandDone_drop hcmd hop hgoes, (congrArg Rak.cmd hkept.rak).trans hcmd, hkept.dir⟩

/-! ### RAKE_EVENT (R173) -/

theorem putIndex_rak (s : State) (loc : Bool) (a : Nat) (bs : List Byte) : (putIndex s loc a bs).2.rak = s.rak := by
  unfold putIndex
  split
  · exact (wrHost_busOnly ..).rak
  · rfl

/-- An index that is built leaves the Rake's own state. -/
theorem buildXc_rak {s t : State} {m : Nat} {e : DirE} {blk : RakeBlk} {slot : Bool} {epoch : W32} {rows : List RowRd}
    (h : buildXc s m e blk slot epoch rows = (none, t)) : t.rak = s.rak := by
  have hput := putIndex_rak s (nbit e.xcfg.toNat 2) (blk.xbase slot) (xcBytes (blk.weight slot) rows)
  unfold buildXc at h
  split at h
  · generalize putIndex s (nbit e.xcfg.toNat 2) (blk.xbase slot) (xcBytes (blk.weight slot) rows) = x at h hput
    obtain ⟨_ | a, u⟩ := x
    · cases h
      exact hput
    · cases h
  · cases h
    rfl

/-- A record that is written leaves the Rake's own state. -/
theorem rakeRecord_rak {s t : State} {m : Nat} {e : DirE} {mep : W32} {slot : Bool} {cause : Nat} {step : W32} {first : Bool}
    (h : rakeRecord s m e mep slot cause step first = (none, t)) : t.rak = s.rak := by
  have hread := (rdHost_busOnly s e.crec.toNat 64).rak
  have hwrite := fun u bs => (onReserve_busOnly (fun v => wrHost_busOnly v e.crec.toNat bs) u).rak
  unfold rakeRecord at h
  generalize rdHost s e.crec.toNat 64 = x at h hread
  obtain ⟨_ | bs, u⟩ := x
  · cases h
  · dsimp -zeta only at h
    extract_lets old sh known epoch i ws recorded at h
    have hrecorded : recorded.rak = u.rak := by
      clear_value sh
      unfold recorded
      split <;> exact hwrite u _
    split at h
    · cases h
    · split at h
      · cases h
      · rw [← (Prod.mk.inj h).2]
        exact hrecorded.trans hread

/-- The state once an event has made its entry's slot active under an epoch, the event left to be retired. -/
def flipped (s : State) (v : RakeEv) (mep : W32) (slot : Bool) (rows : List RowRd) : State :=
  modRak (countNel (modDir s v.mid fun e => { e with mep := mep, slot := slot, cgTiles := 0 }) v.mid rows) fun r =>
    { r with evq := r.evq.drop 1, retire := r.retire ++ [{ v with at_ := 5 }] }

theorem flipped_dir (s : State) (v : RakeEv) (mep : W32) (slot : Bool) (rows : List RowRd) :
    dirOf (flipped s v mep slot rows) v.mid = { dirOf s v.mid with mep := mep, slot := slot, cgTiles := 0 } :=
  (dirOf_congr (countNel_kept ..).dir v.mid).trans (dirOf_modDir ..)

theorem flipped_rak (s : State) (v : RakeEv) (mep : W32) (slot : Bool) (rows : List RowRd) :
    (flipped s v mep slot rows).rak =
      { s.rak with evq := s.rak.evq.drop 1, retire := s.rak.retire ++ [{ v with at_ := 5 }] } :=
  congrArg (fun r : Rak => { r with evq := r.evq.drop 1, retire := r.retire ++ [{ v with at_ := 5 }] }) (countNel_kept ..).rak

/-- The bus after a flip is the one before it. -/
theorem flipped_bus (s : State) (v : RakeEv) (mep : W32) (slot : Bool) (rows : List RowRd) :
    (flipped s v mep slot rows).host = s.host ∧ (flipped s v mep slot rows).stall = s.stall ∧
      (flipped s v mep slot rows).miss = s.miss :=
  have h := countNel_kept (modDir s v.mid fun e => { e with mep := mep, slot := slot, cgTiles := 0 }) v.mid rows
  ⟨h.host, h.stall, h.miss⟩

/-- Steps 2 to 5 of an event whose accesses all succeed end in the flip. -/
theorem rakeEvent_flips {s s1 s2 s3 s4 s5 : State} {v : RakeEv} {e : DirE} {y : Bool} {blk : RakeBlk} {pl : RakePlan}
    {rows : List RowRd} (he : dirOf s v.mid = e) (hy : (!e.slot) = y) (hfree : (if y then e.rdrB else e.rdrA) = 0#8)
    (hplan : (ioEvent s v).run s = (.ok (blk, pl), s1)) (hgood : pl.bad = none)
    (hwrites : issueWrites s1 pl.writes = (none, s2)) (hrows : (ioRows (blk.weight y)).run s2 = (.ok rows, s3))
    (hxc : buildXc s3 v.mid e blk y (e.mep + 1) rows = (none, s4))
    (hrec : rakeRecord s4 v.mid e (e.mep + 1) y 2 v.step false = (none, s5)) :
    rakeEvent s v = journalDir (flipped s5 v (e.mep + 1) y rows) v.mid ∧ s5.rak = s.rak := by
  refine ⟨?_, ?_⟩
  · unfold rakeEvent
    dsimp only
    rw [he, hy, if_neg (Decidable.not_not.2 hfree), hplan]
    dsimp only
    rw [hgood, hwrites]
    dsimp only
    rw [hrows]
    dsimp only
    rw [hxc, hrec]
    rfl
  · calc s5.rak = s4.rak := rakeRecord_rak hrec
      _ = s3.rak := buildXc_rak hxc
      _ = s2.rak := ((run_busOnly ..).of_result hrows).rak
      _ = s1.rak := ((issueWrites_busOnly ..).of_result hwrites).rak
      _ = s.rak := ((run_busOnly ..).of_result hplan).rak

/-! ### RAKE_RETIRE (R173) -/

/-- The state once an event of an entry is retired. -/
def retired (s : State) (v : RakeEv) : State :=
  modRak (modDir s v.mid fun e => { e with busy := false }) fun r =>
    { r with
      retire := r.retire.filter fun y => y.mid ≠ v.mid
      regs := { r.regs with events := if v.at_ = 5 then r.regs.events + 1 else r.regs.events } }

theorem dirOf_retired (s : State) (v : RakeEv) : dirOf (retired s v) v.mid = { dirOf s v.mid with busy := false } :=
  (dirOf_modRak ..).trans (dirOf_modDir ..)

theorem dirOf_retired_ne (s : State) {v : RakeEv} {m : Nat} (h : m ≠ v.mid) : dirOf (retired s v) m = dirOf s m :=
  (dirOf_modRak ..).trans (dirOf_modDir_ne _ h.symm _)

/-- Steps 6 and 7 of an event whose accesses all succeed end in its retirement. -/
theorem rakeRetire_retires {s s1 s2 : State} {v : RakeEv} {ws : List (Nat × List Byte)}
    (hplan : (ioRetire s v.mid).run s = (.ok ws, s1)) (hwrites : issueWrites s1 ws = (none, s2)) :
    rakeRetire s v = journalDir (retired s2 v) v.mid ∧ BusOnly s s2 := by
  refine ⟨?_, ?_⟩
  · unfold rakeRetire
    dsimp only
    rw [hplan]
    dsimp only
    rw [hwrites]
    rfl
  · exact ((run_busOnly ..).of_result hplan).trans ((issueWrites_busOnly ..).of_result hwrites)

/-! ### The obligation -/

theorem exec_rakeEvent {s : State} {v : RakeEv} {rest : List RakeEv} (hq : s.rak.evq = v :: rest) (hgoes : rakeGoes s = true)
    (hstarts : noStarts s = false) (hjoined : s.twn.regs.jstate ≠ .fenced) :
    exec (.rakeEvent []) s = .next (commandAs .rak [] (useStep s 0x50) (rakeEvent · v)) := by
  change execRakeEvent [] s = _
  simp [execRakeEvent, hq, hgoes, hstarts, hjoined]

theorem exec_rakeRetire {s : State} {v : RakeEv} (hready : s.rak.retire.find? (retireReady s) = some v)
    (hfree : s.flt.frake = false) (hrun : halted s 0x50 = false) (hpwr : s.pwr.pstate = .active)
    (hmode : (hdr s .rak).mode = .active) : exec (.rakeRetire []) s = .next (commandAs .rak [] s (rakeRetire · v)) := by
  change execRakeRetire [] s = _
  simp [execRakeRetire, hready, hfree, hrun, hpwr, hmode]

/-- Settles O43: an event ends in its flip, a retirement in the entry's BUSY cleared, and the journal and the remote writes sent
after them keep what either left. -/
theorem rakeEventsRun : Obligations.RakeEventsRun := by
  unfold Obligations.RakeEventsRun
  refine ⟨?_, ?_⟩
  · intro v rest blk pl rows s s1 s2 s3 s4 s5 hq hgoes hstarts hjoined e y s0 hfree hplan hgood hwrites hrows hxc hrec hmiss hstall _
    obtain ⟨hflips, hrak⟩ := rakeEvent_flips (s := s0) rfl rfl hfree hplan hgood hwrites hrows hxc hrec
    obtain ⟨hhost, hfstall, hfmiss⟩ := flipped_bus s5 v (e.mep + 1) y rows
    have hkept := commandAs_journaled (s := useStep s 0x50) (f := (rakeEvent · v)) hflips (hfstall.trans hstall)
      (hfmiss.trans hmiss)
    have hentry := (dirOf_congr hkept.dir v.mid).trans (flipped_dir s5 v (e.mep + 1) y rows)
    have hqueues := hkept.rak.trans (flipped_rak s5 v (e.mep + 1) y rows)
    rw [hrak] at hqueues
    refine ⟨_, exec_rakeEvent hq hgoes hstarts hjoined, congrArg DirE.mep hentry, congrArg DirE.slot hentry,
      congrArg DirE.cgTiles hentry, (congrArg Rak.evq hqueues).trans ?_, congrArg Rak.retire hqueues, hkept.host.trans hhost⟩
    rw [show s0.rak.evq = v :: rest from hq, List.drop_one, List.tail_cons]
  · intro v ws s s1 s2 hready hfree hrun hpwr hmode hplan hwrites hmiss hstall _
    obtain ⟨hretires, hbus⟩ := rakeRetire_retires hplan hwrites
    have hkept := commandAs_journaled (s := s) (f := (rakeRetire · v)) hretires hstall hmiss
    have hentry : ∀ m, dirOf _ m = dirOf (retired s2 v) m := dirOf_congr hkept.dir
    have hbefore : ∀ m, dirOf s2 m = dirOf s m := dirOf_congr hbus.dir
    have hrak : s2.rak = s.rak := hbus.rak
    refine ⟨_, exec_rakeRetire hready hfree hrun hpwr hmode, ?_, fun m hm => ?_, fun x hx => ?_, ?_, hkept.host⟩
    · rw [hentry, dirOf_retired, hbefore]
    · rw [hentry, dirOf_retired_ne s2 hm, hbefore]
    · rw [hkept.rak] at hx
      exact of_decide_eq_true (List.mem_filter.1 hx).2
    · rw [hkept.rak, ← hrak]
      rfl

end Sys2Proof.Machine.RakeWork

/-! SUPPORT. For O13, O15 and O41: a command that needs nothing from another block, a shard's state entry after a write, and what
an entry of the journal changes. -/

namespace Sys2Proof.Machine.ShardState

open Sys2Proof.Machine.Settlement

/-- A command whose effect needs nothing from another block and finds its credits ends as its effect leaves it. -/
theorem command_of_noAccesses {bad : List Nat} {s : State} {f : State → State} (h : accesses (f (s.begin bad)) = noAccesses) :
    command bad s f = { f (s.begin bad) with hostBad := [], who := none, rsv := false } := by
  simp only [accesses, noAccesses, Prod.mk.injEq] at h
  obtain ⟨hstall, hmiss, hrused, hrout⟩ := h
  exact command_local hstall hmiss hrused hrout

/-! ### A shard's state entry changed -/

theorem shardOf_congr {s t : State} (h : t.shard = s.shard) (i : Nat) : shardOf t i = shardOf s i := by rw [shardOf, h, shardOf]

theorem shardOf_modShard (s : State) (i : Nat) (f : Shard → Shard) : shardOf (modShard s i f) i = f (shardOf s i) :=
  (smGet_smSet ..).trans (if_pos rfl)

theorem shardOf_modShard_ne (s : State) {i j : Nat} (h : j ≠ i) (f : Shard → Shard) : shardOf (modShard s i f) j = shardOf s j :=
  (smGet_smSet ..).trans (if_neg h.symm)

theorem hdr_congr {s t : State} (h : t.hdrs = s.hdrs) (p : PageId) : hdr t p = hdr s p := by rw [hdr, h, hdr]

/-- One shard's state entry differs at most. -/
structure ShardOnly (s t : State) (i : Nat) : Prop where
  rest : t = { s with shard := t.shard }
  others : ∀ j, j ≠ i → shardOf t j = shardOf s j

theorem ShardOnly.refl (s : State) (i : Nat) : ShardOnly s s i := ⟨rfl, fun _ _ => rfl⟩

theorem ShardOnly.trans {s t u : State} {i : Nat} (h : ShardOnly s t i) (k : ShardOnly t u i) : ShardOnly s u i where
  rest := by
    rw [k.rest, h.rest]
  others j hj := (k.others j hj).trans (h.others j hj)

theorem ShardOnly.host {s t : State} {i : Nat} (h : ShardOnly s t i) : t.host = s.host := (congrArg State.host h.rest :)
theorem ShardOnly.hdrs {s t : State} {i : Nat} (h : ShardOnly s t i) : t.hdrs = s.hdrs := (congrArg State.hdrs h.rest :)
theorem ShardOnly.lpan {s t : State} {i : Nat} (h : ShardOnly s t i) : t.lpan = s.lpan := (congrArg State.lpan h.rest :)
theorem ShardOnly.accesses {s t : State} {i : Nat} (h : ShardOnly s t i) : accesses t = accesses s :=
  (congrArg Settlement.accesses h.rest :)

theorem modShard_shardOnly (s : State) (i : Nat) (f : Shard → Shard) : ShardOnly s (modShard s i f) i :=
  ⟨rfl, fun _ hj => shardOf_modShard_ne s hj f⟩

/-! ### What a journal entry changes (R347, R348) -/

/-- The states differ at most in what journaling an entry may change: the retention store, the staging area in the reservoir, and
what the links send. -/
def JournalOnly (s t : State) : Prop := t = { s with pwr := t.pwr, res := t.res, twn := t.twn, sent := t.sent, tail := t.tail }

theorem JournalOnly.refl (s : State) : JournalOnly s s := rfl

theorem JournalOnly.trans {s t u : State} (h : JournalOnly s t) (k : JournalOnly t u) : JournalOnly s u := by
  unfold JournalOnly at *
  rw [k, h]

/-- A state that shares all but those parts with another. -/
theorem JournalOnly.of_eq {s t : State}
    (h : t = { s with pwr := t.pwr, res := t.res, twn := t.twn, sent := t.sent, tail := t.tail }) : JournalOnly s t := h

theorem trimTail_journalOnly (s : State) : JournalOnly s (trimTail s) := rfl

theorem transmit_journalOnly (s : State) (k : Fin 8) (f : Frame) : JournalOnly s (transmit s k f) := by
  unfold transmit
  split <;> rfl

theorem modPair_journalOnly (s : State) (adp : Bool) (peer cls : Nat) (f : Pair → Pair) :
    JournalOnly s (modPair s adp peer cls f) := rfl

theorem sendNow_journalOnly (s : State) (adp : Bool) (peer cls : Nat) (k : Fin 8) (ftype : Nat) (ts payload : List Byte) :
    JournalOnly s (sendNow s adp peer cls k ftype ts payload) := by
  unfold sendNow
  extract_lets p f queued clean once
  have honce : JournalOnly s once := .trans (t := clean) rfl (transmit_journalOnly ..)
  split
  · exact honce.trans (transmit_journalOnly ..)
  · exact honce

theorem sendVia_journalOnly (s : State) (via : Option (Fin 8)) (adp : Bool) (peer cls ftype : Nat) (ts payload : List Byte) :
    JournalOnly s (sendVia s via adp peer cls ftype ts payload) := by
  unfold sendVia
  dsimp only
  split
  · exact .refl s
  · split
    · split
      · exact sendNow_journalOnly ..
      · exact modPair_journalOnly ..
    · exact modPair_journalOnly ..

theorem journal_journalOnly (s : State) (kind : Nat) (step : W32) (index : Nat) (body : List Byte) :
    JournalOnly s (journal s kind step index body) := by
  unfold journal
  dsimp only
  split
  · exact .trans (.trans (JournalOnly.of_eq rfl) (sendVia_journalOnly ..)) (trimTail_journalOnly _)
  · rfl

end Sys2Proof.Machine.ShardState

/-! SUPPORT. Settles O13 (ShardCommandsRun): a command of the shard table as it is written, and the results its run ends with. -/

namespace Sys2Proof.Machine.ShardTable

open Sys2Proof.Machine.ShardState

/-! ### Commands written to SHT_CMD (R272, R294) -/

/-- The two commands are one write to the page. -/
theorem exec_shtCommand {s : State} (h : Answers s .glb) {i : Instr} {c : ShtCmd}
    (hi : (i, c) ∈ [(Instr.plan, ShtCmd.plan), (.activate, .activate)]) :
    exec i s = .next (shtCommand (answer s cpOk) c) := by
  simp only [List.mem_cons, Prod.mk.injEq, List.not_mem_nil, or_false] at hi
  rcases hi with ⟨rfl, rfl⟩ | ⟨rfl, rfl⟩
  · exact cpWrite_answers h (shtCommand · .plan)
  · exact cpWrite_answers h (shtCommand · .activate)

theorem shtCommand_starts {s : State} (h : s.glb.shtRun = none) (c : ShtCmd) :
    shtCommand s c = modGlb s fun g => { g with shtRun := some c } := by
  simp [shtCommand, modGlb, h]

theorem shtCommand_busy {s : State} (h : s.glb.shtRun ≠ none) (c : ShtCmd) :
    shtCommand s c = modGlb s fun g => { g with shtRes := 4 } := by
  simp [shtCommand, modGlb, shtBusy, Option.isSome_iff_ne_none.2 h]

/-! ### The end of a command (R293 to R295) -/

theorem exec_shtCommandDone_plan {s : State} (h : s.glb.shtRun = some .plan) :
    exec (.shtCommandDone []) s = .next (command [] s planRun) := by
  change execShtCommandDone [] s = _
  simp only [execShtCommandDone, h]

theorem exec_shtCommandDone_activate {s : State} (h : s.glb.shtRun = some .activate) :
    exec (.shtCommandDone []) s = .next (command [] s activateRun) := by
  change execShtCommandDone [] s = _
  simp only [execShtCommandDone, h]

/-- A command that does no more than set its result ends with it. -/
theorem command_shtDone {s : State} {f : State → State} {code : Nat} (h : f (s.begin []) = shtDone (s.begin []) code) :
    command [] s f = { shtDone (s.begin []) code with hostBad := [], who := none, rsv := false } :=
  h ▸ command_of_noAccesses (f := f) (h ▸ rfl)

theorem planRun_below {s : State} (h : (hdr s .glb).abi.toNat < 0x0102) : planRun s = shtDone s shtBadShard := if_pos h

theorem activateRun_open {s : State} (h : noStepOpen s = false) : activateRun s = shtDone s shtBusy :=
  if_pos (by rw [h]; rfl)

/-- A table without an entry is read without an access and holds no shard. -/
theorem ioTable_empty {s : State} (h : s.glb.shtN = 0) : (ioTable s true).run s = (.ok (some []), s) := by
  simp [ioTable, h]
  rfl

/-- An ACTIVATE of an empty table resets the shard state (R295). -/
theorem activateRun_empty {s : State} (hn : s.glb.shtN = 0) (hstep : noStepOpen s = true) (hcap : capacityBad s [] = false) :
    activateRun s = activateOk s [] := by
  have hentries : (pure [] : Io (List (Nat × Shard × List W32))).run s = (.ok [], s) := rfl
  simp [activateRun, hstep, ioTable_empty hn, hentries, hcap]

/-- The verdict unit once an ACTIVATE has returned OK: the round of a step later than 0 is discarded (R301). -/
def restart (v : Vrd) : Vrd :=
  if v.regs.vstep = 0 then { v with activated := true }
  else { v with activated := true, recs := [], vups := [], next := [], own := none, evals := [], formed := none, upSent := false
                lockFt := false
                regs := { v.regs with vstep := 0, closed := false, njobs := 0, sent := false, oflags := 0, vjobs := 0 } }

theorem restart_step_zero (v : Vrd) : (restart v).regs.vstep = 0 ∧ (restart v).activated = true := by
  unfold restart
  split
  · next h => exact ⟨h, rfl⟩
  · exact ⟨rfl, rfl⟩

/-- An ACTIVATE that is no restart from RETAIN leaves no shard and no pond page, and journals its step. -/
theorem activateOk_empty {s : State} (h : s.flt.lastrst ≠ 2) :
    ∃ t, JournalOnly { s with shard := [], pond := [], vrd := restart s.vrd } t ∧ activateOk s [] = shtDone t shtOk := by
  have hheld : heldFlips s = none := if_pos h
  exact ⟨_, journal_journalOnly .., by rw [activateOk, hheld]; rfl⟩

/-! ### The obligation -/

/-- Settles O13: of a written command, that the two are one write; of its end, the results that are known before the table is read,
and the ACTIVATE of a table without an entry. -/
theorem shardCommandsRun : Obligations.ShardCommandsRun := by
  unfold Obligations.ShardCommandsRun
  refine ⟨fun s i c hans hi => ⟨fun hnone => ?_, fun hrun => ?_⟩, fun s =>
    ⟨fun hrun hn hstep hrst _ hcap => ?_, fun hrun hopen => ?_, fun hrun hlevel => ?_⟩⟩
  · rw [exec_shtCommand hans hi, shtCommand_starts (s := answer s cpOk) hnone]
  · rw [exec_shtCommand hans hi, shtCommand_busy (s := answer s cpOk) hrun]
  · obtain ⟨t, hjournal, hok⟩ := activateOk_empty (s := s.begin []) hrst
    have hdone : activateRun (s.begin []) = shtDone t shtOk :=
      (activateRun_empty (s := s.begin []) hn hstep hcap).trans hok
    obtain ⟨hvstep, hactivated⟩ := restart_step_zero s.vrd
    rw [exec_shtCommandDone_activate hrun, command_of_noAccesses (by rw [hdone, hjournal]; rfl), hdone, hjournal]
    exact ⟨_, rfl, rfl, rfl, rfl, rfl, hvstep, hactivated, rfl⟩
  · have hbusy : activateRun (s.begin []) = shtDone (s.begin []) shtBusy := activateRun_open hopen
    exact ⟨_, (exec_shtCommandDone_activate hrun).trans (congrArg _ (command_shtDone hbusy)), rfl, rfl, rfl⟩
  · have hbad : planRun (s.begin []) = shtDone (s.begin []) shtBadShard := planRun_below hlevel
    exact ⟨_, (exec_shtCommandDone_plan hrun).trans (congrArg _ (command_shtDone hbad)), rfl, rfl, rfl⟩

end Sys2Proof.Machine.ShardTable

/-! SUPPORT. Settles O15 (CommitFlipWritesRecord): what the end of a flip keeps of the shards, of the transactions and of the mask
directory's slots. -/

namespace Sys2Proof.Machine.CommitFlip

open Sys2Proof.Machine.TileAttempt Sys2Proof.Machine.Settlement Sys2Proof.Machine.RakeWork Sys2Proof.Machine.ShardState

/-! ### What the steps around a flip keep -/

/-- No transaction of a shard's flip is outstanding. -/
abbrev NoFlip (s : State) (i : Nat) : Prop := ∀ y ∈ s.txns, y.why ≠ .flip i

/-- The shards' state entries, the pond, the slots of the mask directory, the pages, memory and the command's accesses are as they
were, and no flip of one shard has been issued. -/
structure FlipKept (s t : State) (i : Nat) : Prop where
  shard : t.shard = s.shard
  pond : t.pond = s.pond
  slots : ∀ m, (dirOf t m).slot = (dirOf s m).slot
  hdrs : t.hdrs = s.hdrs
  host : t.host = s.host
  accesses : accesses t = accesses s
  noFlip : NoFlip s i → NoFlip t i

section
variable {s t u : State} {i : Nat}

theorem FlipKept.refl (s : State) (i : Nat) : FlipKept s s i := ⟨rfl, rfl, fun _ => rfl, rfl, rfl, rfl, id⟩

theorem FlipKept.trans (h : FlipKept s t i) (k : FlipKept t u i) : FlipKept s u i :=
  ⟨k.shard.trans h.shard, k.pond.trans h.pond, fun m => (k.slots m).trans (h.slots m), k.hdrs.trans h.hdrs, k.host.trans h.host,
    k.accesses.trans h.accesses, k.noFlip ∘ h.noFlip⟩

/-- Where all these parts are the same, they are kept. -/
theorem FlipKept.of_eq (hshard : t.shard = s.shard := by rfl) (hpond : t.pond = s.pond := by rfl) (hdir : t.dir = s.dir := by rfl)
    (hhdrs : t.hdrs = s.hdrs := by rfl) (hhost : t.host = s.host := by rfl)
    (hacc : Settlement.accesses t = Settlement.accesses s := by rfl) (htxns : t.txns = s.txns := by rfl) : FlipKept s t i :=
  ⟨hshard, hpond, fun m => congrArg DirE.slot (dirOf_congr hdir m), hhdrs, hhost, hacc, fun h y hy => h y (htxns ▸ hy)⟩

theorem FlipKept.of_journalOnly (h : JournalOnly s t) : FlipKept s t i := by
  rw [h]
  exact .of_eq

end

/-- A directory entry changed in all but its slot. -/
theorem modDir_kept (s : State) (i m : Nat) {f : DirE → DirE} (h : ∀ e, (f e).slot = e.slot) : FlipKept s (modDir s m f) i where
  shard := rfl
  pond := rfl
  slots n := by
    by_cases hn : m = n
    · rw [← hn, dirOf_modDir, h]
    · rw [dirOf_modDir_ne s hn]
  hdrs := rfl
  host := rfl
  accesses := rfl
  noFlip := id

theorem rakeFall_kept (s : State) (i : Nat) (step : W32) (m : Nat) : FlipKept s (rakeFall s step m) i := by
  unfold rakeFall
  dsimp only
  split
  · exact .refl ..
  · split
    · exact modDir_kept s i m fun _ => rfl
    · refine (modDir_kept s i m (f := fun e => { e with busy := true }) fun _ => rfl).trans ?_
      refine .trans ?_ (.of_journalOnly (journal_journalOnly ..))
      exact .of_eq

theorem queueRake_kept (s : State) (i : Nat) (step : W32) (mids : List Nat) : FlipKept s (queueRake s step mids) i :=
  List.foldlRecOn (motive := (FlipKept s · i)) _ _ (.refl ..) fun _ h m _ => h.trans (rakeFall_kept _ i step m)

/-- The end of a COMMIT's flips queues events of the Rake and no more (R287). -/
theorem flipsEnd_kept (s : State) (i : Nat) : FlipKept s (flipsEnd s) i := by
  unfold flipsEnd
  split
  · exact .refl ..
  · split
    · exact .refl ..
    · exact .trans (t := modVrd s fun v => { v with flipping := none, due := [] }) .of_eq (queueRake_kept ..)

/-! ### Transactions issued -/

theorem issueTxn_kept (s : State) (q : Fin 16) (sh : Option (Fin 8)) (k : TxnKind) (a : Nat) (bs : List Byte) {why : TxnFor}
    {i : Nat} (h : why ≠ .flip i) : FlipKept s (issueTxn s q sh k a bs why) i where
  shard := rfl
  pond := rfl
  slots _ := rfl
  hdrs := rfl
  host := rfl
  accesses := rfl
  noFlip hnone y hy := by
    rcases List.mem_append.1 hy with hy | hy
    · exact hnone y hy
    · rw [List.mem_singleton.1 hy]
      exact h

/-- The records that are issued are those of shards whose flips wait (R287). -/
theorem issueFlips_kept {s : State} {i : Nat} (hnone : ∀ h, (i, h) ∈ s.shard → h.flip = none) : FlipKept s (issueFlips s) i := by
  unfold issueFlips
  split
  · exact .refl ..
  · refine List.foldlRecOn (motive := (FlipKept s · i)) _ _ (.refl ..) ?_
    rintro t hkept ⟨j, h⟩ hmem
    dsimp only
    split
    · next ws hws =>
      split
      · exact hkept
      · refine hkept.trans (issueTxn_kept _ _ _ _ _ _ fun hwhy => ?_)
        obtain rfl : j = i := TxnFor.flip.inj hwhy
        exact Option.some_ne_none ws (hws.symm.trans (hnone h hmem))
    · exact hkept

/-! ### A shard released (R288, R299) -/

theorem landHeld_none {s : State} (h : ∀ y ∈ s.shard, y.2.held = []) : landHeld s = s := by
  have hnone : (s.shard.map fun y => y.2.held.map (y.1, ·)).flatten = [] := by
    rw [List.flatten_eq_nil_iff]
    intro l hl
    obtain ⟨y, hy, rfl⟩ := List.mem_map.1 hl
    rw [h y hy, List.map_nil]
  rw [landHeld, hnone]
  rfl

/-- The state entry of a shard whose job is over (R288). -/
def unpend (h : Shard) : Shard := { h with pend := false, msf := 0, gcnt := 0, flip := none, staged := false, pgWait := none }

/-- The state entry of a released shard, which has no pond pages (R299). -/
def release (h : Shard) : Shard := { unpend h with pgs := 0 }

/-- No shard holds a gradient, if none did before a write that leaves the entry's. -/
theorem modShard_held {s : State} {i : Nat} {f : Shard → Shard} (h : ∀ y ∈ s.shard, y.2.held = [])
    (hf : ∀ x, (f x).held = x.held) : ∀ y ∈ (modShard s i f).shard, y.2.held = [] := by
  intro y hy
  rcases mem_smSet hy with rfl | hy
  · rw [hf]
    rcases smGet_mem ({} : Shard) s.shard i with hdef | hmem
    · exact congrArg Shard.held hdef
    · exact h _ hmem
  · exact h y hy

/-- A map lists the value last written to a key and no other for it. -/
theorem eq_of_mem_smSet {α : Type} [DecidableEq α] {d : α} {m : SMap α} {k : Nat} {x y : α} (h : (k, y) ∈ smSet d m k x) :
    y = x := by
  have hdel : smSet d m k x = smSet d (smDel m k) k x := by simp [smSet, smDel]
  rw [hdel] at h
  rcases mem_smSet h with heq | hmem
  · exact congrArg Prod.snd heq
  · simp [smDel] at hmem

/-- A state with a shard's pond pages freed and its job over. -/
def released (s : State) (i : Nat) : State := pondFreeShard (modShard s i unpend) i

theorem releaseShard_eq {s : State} {i : Nat} (h : ∀ y ∈ s.shard, y.2.held = []) : releaseShard s i = released s i := by
  refine landHeld_none (modShard_held (f := fun h => { h with pgs := 0 }) ?_ fun _ => rfl)
  exact modShard_held (f := unpend) h fun _ => rfl

theorem shardOf_released (s : State) (i : Nat) : shardOf (released s i) i = release (shardOf s i) := by
  refine (shardOf_modShard _ i _).trans ?_
  exact congrArg (fun h : Shard => { h with pgs := 0 }) (shardOf_modShard s i unpend)

theorem shardOf_released_ne (s : State) {i j : Nat} (h : j ≠ i) : shardOf (released s i) j = shardOf s j :=
  (shardOf_modShard_ne _ h _).trans (shardOf_modShard_ne s h unpend)

theorem released_flip {s : State} {i : Nat} {h : Shard} (hmem : (i, h) ∈ (released s i).shard) : h.flip = none := by
  rw [eq_of_mem_smSet hmem]
  exact congrArg Shard.flip (shardOf_modShard s i unpend)

theorem released_pond (s : State) (i : Nat) : ∀ y ∈ (released s i).pond, y.2.1 ≠ i := fun y hy => by
  simpa using (List.mem_filter.1 hy).2

/-- Freeing pond pages and ending a job changes nothing but the pond and the shard's state entry. -/
theorem released_rest (s : State) (i : Nat) :
    (released s i).txns = s.txns ∧ (released s i).dir = s.dir ∧ (released s i).hdrs = s.hdrs ∧ (released s i).host = s.host ∧
      accesses (released s i) = accesses s := by
  simp [released, pondFreeShard, accesses]

/-! ### The end of a flip -/

/-- What the end of a shard's flip leaves, its record's write being answered: the shard is released and has no transaction; the
other shards, the mask directory's slots, the pages, memory and the command's accesses are as they were. -/
structure FlipEnded (s t : State) (i : Nat) : Prop where
  self : shardOf t i = release (shardOf s i)
  others : ∀ j, j ≠ i → shardOf t j = shardOf s j
  pond : ∀ y ∈ t.pond, y.2.1 ≠ i
  noFlip : NoFlip t i
  slots : ∀ m, (dirOf t m).slot = (dirOf s m).slot
  hdrs : t.hdrs = s.hdrs
  host : t.host = s.host
  accesses : accesses t = accesses s

theorem flip_ends {s : State} {i : Nat} (hheld : ∀ y ∈ s.shard, y.2.held = []) (hnone : NoFlip s i) :
    FlipEnded s (flipsEnd (issueFlips (releaseShard s i))) i := by
  rw [releaseShard_eq hheld]
  obtain ⟨htxns, hdir, hhdrs, hhost, hacc⟩ := released_rest s i
  have hkept := (issueFlips_kept (i := i) (s := released s i) fun _ => released_flip).trans (flipsEnd_kept _ i)
  generalize flipsEnd (issueFlips (released s i)) = t at hkept
  exact
    { self := (shardOf_congr hkept.shard i).trans (shardOf_released s i)
      others := fun j hj => (shardOf_congr hkept.shard j).trans (shardOf_released_ne s hj)
      pond := fun y hy => released_pond s i y (hkept.pond ▸ hy)
      noFlip := hkept.noFlip fun y hy => hnone y (htxns ▸ hy)
      slots := fun m => (hkept.slots m).trans (congrArg DirE.slot (dirOf_congr hdir m))
      hdrs := hkept.hdrs.trans hhdrs
      host := hkept.host.trans hhost
      accesses := hkept.accesses.trans hacc }

/-! ### The response to a record's write (R244, R287) -/

/-- A state without the transactions of a shard's flip. -/
def closeFlip (s : State) (i : Nat) : State := { s with txns := s.txns.filter fun x => !(x.why == .flip i) }

theorem closeFlip_noFlip (s : State) (i : Nat) : NoFlip (closeFlip s i) i := fun y hy => by
  simpa using (List.mem_filter.1 hy).2

/-- A state entry that has taken a record's epoch and slot. -/
def latch (ws : List W32) (h : Shard) : Shard := { h with cep := recEpoch ws, slot := recSlot ws }

/-- A record stored at its address, and its shard's state entry with it. -/
def recorded (s : State) (i : Nat) (x : Txn) (ws : List W32) : State :=
  modShard { closeFlip s i with host := memPut s.host x.addr x.data } i (latch ws)

/-- The same, with the slot of a masked shard's directory entry. -/
def entered (s : State) (i : Nat) (x : Txn) (ws : List W32) : State :=
  if (shardOf s i).srec.masked then modDir (recorded s i x ws) (shardOf s i).srec.mid fun e => { e with slot := recSlot ws }
  else recorded s i x ws

/-- The state once a good response has been taken and journaled. -/
def written (s : State) (i : Nat) (x : Txn) (ws : List W32) : State :=
  journal (entered s i x ws) jFlip (recStep ws) i ((ws.take 5).flatMap fun (w : W32) => leBytes 4 w.toNat)

/-- The state once an error has been recorded, the bytes of the write spoilt. -/
def failed (s : State) (i : Nat) (x : Txn) : State :=
  recordErr (spoilHost (closeFlip s i) x.addr x.data.length) .vrd { cause := cBrine, addr := some x.addr, row := i }

section
variable {s : State} {i : Nat} {x : Txn} {ws : List W32} (hx : s.txns.find? (fun t => t.why == .flip i) = some x)
  (hws : (shardOf s i).flip = some ws)
include hx hws

theorem flipDone_good (hb : s.hostBad = []) :
    flipDone s i false = flipsEnd (issueFlips (releaseShard (written s i x ws) i)) := by
  have hput : putHost (closeFlip s i) x.addr x.data = { closeFlip s i with host := memPut s.host x.addr x.data } :=
    putHost_eq _ _ _ hb
  unfold closeFlip at hput
  simp only [flipDone, hx, hws, hput]
  rfl

theorem flipDone_error : flipDone s i true = flipsEnd (issueFlips (releaseShard (failed s i x) i)) := by
  simp only [flipDone, hx, hws]
  rfl

end

/-! ### A good response -/

theorem shardOf_recorded (s : State) (i : Nat) (x : Txn) (ws : List W32) :
    shardOf (recorded s i x ws) i = latch ws (shardOf s i) := shardOf_modShard ..

theorem shardOf_recorded_ne (s : State) {i j : Nat} (h : j ≠ i) (x : Txn) (ws : List W32) :
    shardOf (recorded s i x ws) j = shardOf s j := shardOf_modShard_ne _ h _

/-- Beside the record's shard, only the mask directory may differ. -/
theorem entered_eq (s : State) (i : Nat) (x : Txn) (ws : List W32) :
    ∃ d, entered s i x ws = { recorded s i x ws with dir := d } := by
  unfold entered
  split
  · exact ⟨_, rfl⟩
  · exact ⟨_, rfl⟩

theorem entered_slot {s : State} {i : Nat} (x : Txn) (ws : List W32) (h : (shardOf s i).srec.masked = true) :
    (dirOf (entered s i x ws) (shardOf s i).srec.mid).slot = recSlot ws := by
  rw [entered, if_pos h, dirOf_modDir]

/-- What a good response leaves before the shard is released: its state entry has the record's epoch and slot, the record is
stored, and the other shards, the pages and the command's accesses are as they were. -/
structure RecordTaken (s t : State) (i : Nat) (x : Txn) (ws : List W32) : Prop where
  self : shardOf t i = latch ws (shardOf s i)
  others : ∀ j, j ≠ i → shardOf t j = shardOf s j
  held : ∀ y ∈ t.shard, y.2.held = []
  noFlip : NoFlip t i
  slot : (shardOf s i).srec.masked = true → (dirOf t (shardOf s i).srec.mid).slot = recSlot ws
  hdrs : t.hdrs = s.hdrs
  host : t.host = memPut s.host x.addr x.data
  accesses : accesses t = accesses s

theorem written_taken {s : State} (hheld : ∀ y ∈ s.shard, y.2.held = []) (i : Nat) (x : Txn) (ws : List W32) :
    RecordTaken s (written s i x ws) i x ws := by
  obtain ⟨d, hentered⟩ := entered_eq s i x ws
  have hjournal := journal_journalOnly (entered s i x ws) jFlip (recStep ws) i
    ((ws.take 5).flatMap fun (w : W32) => leBytes 4 w.toNat)
  have hkept := FlipKept.of_journalOnly (i := i) hjournal
  have hshard : (written s i x ws).shard = (recorded s i x ws).shard := hkept.shard.trans (congrArg State.shard hentered :)
  have htxns : (written s i x ws).txns = (closeFlip s i).txns :=
    (congrArg State.txns hjournal :).trans (congrArg State.txns hentered :)
  exact
    { self := (shardOf_congr hshard i).trans (shardOf_recorded ..)
      others := fun j hj => (shardOf_congr hshard j).trans (shardOf_recorded_ne s hj x ws)
      held := fun y hy => modShard_held (f := latch ws) hheld (fun _ => rfl) y (hshard ▸ hy)
      noFlip := fun y hy => closeFlip_noFlip s i y (htxns ▸ hy)
      slot := fun h => (hkept.slots _).trans (entered_slot x ws h)
      hdrs := hkept.hdrs.trans (congrArg State.hdrs hentered :)
      host := hkept.host.trans (congrArg State.host hentered :)
      accesses := hkept.accesses.trans (congrArg Settlement.accesses hentered :) }

/-! ### An error response (R244) -/

section
variable (s : State) (j : Nat)

theorem eqPush_kept (bs : List Byte) : FlipKept s (eqPush s bs) j := by
  unfold eqPush
  dsimp only
  split <;> exact .of_eq

theorem trace_kept (kind : Nat) (p : PageId) (bs : List Byte) : FlipKept s (trace s kind p bs) j := by
  unfold trace
  dsimp only
  split
  · exact .refl ..
  · refine .of_eq ?_ ?_ ?_ ?_ ?_ ?_ ?_ <;> simp [Settlement.accesses]

theorem raiseInt_kept (i : Nat) : FlipKept s (raiseInt s i) j := by
  unfold raiseInt sendMsg
  extract_lets g t q sh v
  have hpending : FlipKept s t j := .of_eq
  split
  · split
    · exact hpending.trans (issueTxn_kept _ _ _ _ _ _ TxnFor.noConfusion)
    · exact hpending.trans .of_eq
  · exact hpending

theorem wakeEvent_kept : FlipKept s (wakeEvent s) j := by
  unfold wakeEvent
  split
  · exact .of_eq
  · exact .of_eq
  · split
    · exact .of_eq
    · exact .refl ..
  · exact .refl ..

/-- A record of an error leaves the shards' state entries, and issues no flip. -/
theorem recordOnly_noFlip (p : PageId) (e : ErrIn) :
    (recordOnly s p e).2.shard = s.shard ∧ (NoFlip s j → NoFlip (recordOnly s p e).2 j) := by
  unfold recordOnly
  extract_lets h armed inj c0 c1 noted
  split
  · exact ⟨rfl, id⟩
  · split
    extract_lets r entered fseq queued traced raised vrd pending
    have hraised : FlipKept traced raised j := by
      unfold raised
      split
      · exact .refl ..
      · exact raiseInt_kept ..
    have hpending : FlipKept raised pending j := by
      unfold pending
      split
      · exact .of_eq
      · exact .refl ..
    have hkept : FlipKept entered (wakeEvent pending) j :=
      (eqPush_kept ..).trans <| (trace_kept ..).trans <| hraised.trans <| hpending.trans <| wakeEvent_kept ..
    exact ⟨hkept.shard, hkept.noFlip⟩

end

theorem spoilHost_eq (n : Nat) : ∀ (s : State) (a : Nat), ∃ h f, spoilHost s a n = { s with host := h, free := f } := by
  induction n with
  | zero => exact fun s _ => ⟨_, _, rfl⟩
  | succ n ih =>
    intro s a
    obtain ⟨h, f, heq⟩ := ih { s with host := smSet 0 s.host a (takeFree 8 s).1, free := s.free + 1 } (a + 1)
    exact ⟨h, f, heq⟩

/-- An error of class DATA in the verdict page, whose first slot is free, has no response (R355, R361). -/
theorem recordErr_vrd {s : State} {e : ErrIn} (hcls : e.cls = none) (hdata : defaultClass e.cause = 1)
    (hsev : (hdr s .vrd).errsev = 0) (hslot : (hdr s .vrd).slotA.valid = false) :
    recordErr s .vrd e = (recordOnly s .vrd e).2 := by
  have hbit : bit (hdr s .vrd).errsev e.cause = false := by simp [hsev, bit]
  have hesc : (escalate (hdr s .vrd) .vrd e 1).1 = 1 := by simp [escalate, hslot]
  rw [recordErr_eq, recordOnly_class hcls hbit, hdata, if_neg Nat.one_ne_zero, hesc]
  simp [respond]

/-- What an error response leaves before the shard is released: the error is recorded, and the shards and the command's accesses are
as they were. -/
structure RecordLost (s t : State) (i : Nat) : Prop where
  shard : t.shard = s.shard
  noFlip : NoFlip t i
  err : bit (hdr t .vrd).err 7 = true
  accesses : accesses t = accesses s

theorem failed_lost {s : State} (hsev : (hdr s .vrd).errsev = 0) (hslot : (hdr s .vrd).slotA.valid = false) (i : Nat) (x : Txn) :
    RecordLost s (failed s i x) i := by
  obtain ⟨h, f, hspoilt⟩ := spoilHost_eq x.data.length (closeFlip s i) x.addr
  rw [failed, hspoilt, recordErr_vrd rfl rfl (by exact hsev) (by exact hslot)]
  generalize hu : ({ closeFlip s i with host := h, free := f } : State) = u
  obtain ⟨hshard, htxns⟩ := recordOnly_noFlip u i .vrd { cause := cBrine, addr := some x.addr, row := i }
  exact
    { shard := hshard.trans (hu ▸ rfl)
      noFlip := htxns (hu ▸ closeFlip_noFlip s i)
      err := (recordOnly_recorded u .vrd { cause := cBrine, addr := some x.addr, row := i }).bit_err (by decide : cBrine < 32)
      accesses := (accesses_recordOnly ..).trans (hu ▸ rfl) }

/-! ### The obligation -/

theorem exec_commitFlipDone (i : Fin 8192) (err : Bool) (s : State) :
    exec (.commitFlipDone i err) s = .next (command [] s (flipDone · i.1 err)) := rfl

/-- Settles O15: of a good response, what it takes before the shard is released and that the end of the flip keeps it; of an error,
the record that takes its place. -/
theorem commitFlipWritesRecord : Obligations.CommitFlipWritesRecord := by
  unfold Obligations.CommitFlipWritesRecord
  intro i ws x s hx hws hheld
  refine ⟨?_, fun hsev hslot => ?_⟩
  · have hdone := flipDone_good (s := s.begin []) hx hws rfl
    have htaken := written_taken (s := s.begin []) hheld i.1 x ws
    have hended := flip_ends htaken.held htaken.noFlip
    rw [← hdone] at hended
    have hself := hended.self.trans (congrArg release htaken.self)
    have hhost := hended.host.trans htaken.host
    refine ⟨_, (exec_commitFlipDone i false s).trans (congrArg _ (command_of_noAccesses (hended.accesses.trans htaken.accesses))),
      (congrArg Shard.cep hself :), (congrArg Shard.slot hself :), (congrArg Shard.pend hself :), (congrArg Shard.flip hself :),
      (congrArg Shard.msf hself :), (congrArg Shard.gcnt hself :), hended.pond, hended.noFlip,
      fun hmasked => (hended.slots _).trans (htaken.slot hmasked), fun _ _ => ⟨hhost, fun b hb => ?_, fun j hj => ?_, ?_⟩⟩
    · exact (congrArg (smGet 0 · b) hhost).trans ((smGet_memPut ..).trans (if_neg (by omega)))
    · exact (hended.others j hj).trans (htaken.others j hj)
    · exact hended.hdrs.trans htaken.hdrs
  · have hdone := flipDone_error (s := s.begin []) hx hws
    have hlost := failed_lost (s := s.begin []) hsev hslot i.1 x
    have hended := flip_ends (fun y hy => hheld y (hlost.shard ▸ hy)) hlost.noFlip
    rw [← hdone] at hended
    have hself := hended.self.trans (congrArg release (shardOf_congr (s := s) hlost.shard i.1))
    refine ⟨_, (exec_commitFlipDone i true s).trans (congrArg _ (command_of_noAccesses (hended.accesses.trans hlost.accesses))),
      (congrArg Shard.cep hself :), (congrArg Shard.slot hself :), (congrArg Shard.pend hself :), (congrArg Shard.flip hself :),
      ?_, hended.noFlip⟩
    exact (congrArg (fun h : PageHdr => bit h.err 7) (hdr_congr hended.hdrs .vrd)).trans hlost.err

end Sys2Proof.Machine.CommitFlip

/-! SUPPORT. Settles O41 (GradientsLandAndPageIn): a gradient that lands changes its shard's counts beside memory, and a page-in its
shard's state entry. -/

namespace Sys2Proof.Machine.Landing

open Sys2Proof.Machine.Settlement Sys2Proof.Machine.ShardState

/-! ### READY (R286) -/

/-- Whether a shard becomes READY, only what a READY shard notes of its place and step differs. -/
theorem readyCheck_self (s : State) (i : Nat) :
    ∃ b j n, shardOf (readyCheck s i) i = { shardOf s i with ready := b, jstep := j, readyNo := n } := by
  unfold readyCheck
  dsimp only
  split
  · exact ⟨_, _, _, shardOf_modShard ..⟩
  · exact ⟨_, _, _, rfl⟩

theorem readyCheck_shardOnly (s : State) (i : Nat) : ShardOnly s (readyCheck s i) i := by
  unfold readyCheck
  dsimp only
  split
  · exact modShard_shardOnly ..
  · exact .refl ..

/-! ### A landing (R283) -/

/-- A state entry with one landing more counted. -/
def countGrad (h : Shard) : Shard :=
  if h.gcnt + 1 = h.gexp then { h with gcnt := 0, msf := h.msf + 1 } else { h with gcnt := h.gcnt + 1 }

theorem countGrad_partial {h : Shard} (hne : h.gcnt + 1 ≠ h.gexp) :
    (countGrad h).gcnt = h.gcnt + 1 ∧ (countGrad h).msf = h.msf := by
  rw [countGrad, if_neg hne]
  exact ⟨rfl, rfl⟩

theorem countGrad_full {h : Shard} (heq : h.gcnt + 1 = h.gexp) : (countGrad h).gcnt = 0 ∧ (countGrad h).msf = h.msf + 1 := by
  rw [countGrad, if_pos heq]
  exact ⟨rfl, rfl⟩

theorem countLanding_counts (s : State) (i : Nat) :
    (shardOf (countLanding s i) i).gcnt = (countGrad (shardOf s i)).gcnt ∧
      (shardOf (countLanding s i) i).msf = (countGrad (shardOf s i)).msf := by
  obtain ⟨b, j, n, hready⟩ := readyCheck_self (modShard s i countGrad) i
  rw [shardOf_modShard] at hready
  exact ⟨(congrArg Shard.gcnt hready :), (congrArg Shard.msf hready :)⟩

theorem countLanding_shardOnly (s : State) (i : Nat) : ShardOnly s (countLanding s i) i :=
  (modShard_shardOnly s i countGrad).trans (readyCheck_shardOnly ..)

/-- What a landing of the fast tier leaves: the landing counted, and memory, the other shards, the pages, the pans and the
command's accesses as they were. -/
structure Landed (s t : State) (i : Nat) : Prop where
  gcnt : (shardOf t i).gcnt = (countGrad (shardOf s i)).gcnt
  msf : (shardOf t i).msf = (countGrad (shardOf s i)).msf
  others : ∀ j, j ≠ i → shardOf t j = shardOf s j
  host : t.host = s.host
  hdrs : t.hdrs = s.hdrs
  lpan : t.lpan = s.lpan
  accesses : accesses t = accesses s

theorem countLanding_landed (s : State) (i : Nat) : Landed s (countLanding s i) i :=
  have h := countLanding_shardOnly s i
  ⟨(countLanding_counts s i).1, (countLanding_counts s i).2, h.others, h.host, h.hdrs, h.lpan, h.accesses⟩

/-- A landing of the fast tier may note GNZ in the salinometer (R315) beside its count. -/
theorem landCount_landed {s : State} {i : Nat} (h : (shardOf s i).srec.slow = false) (addr : Nat) (bs : List Byte) :
    Landed s (landCount s i addr bs) i := by
  unfold landCount
  dsimp only
  rw [h, if_neg Bool.false_ne_true]
  split
  · obtain ⟨hgcnt, hmsf, hothers, hhost, hhdrs, hlpan, hacc⟩ := countLanding_landed (modSal s _ fun x => { x with gnz := true }) i
    exact ⟨hgcnt, hmsf, hothers, hhost, hhdrs, hlpan, hacc⟩
  · exact countLanding_landed s i

/-- A state with bytes stored in the block's own memory. -/
def stored (s : State) (a : Nat) (bs : List Byte) : State := { s with host := memPut s.host (hostAddr s a) bs }

/-- A gradient of the fast tier that may land is stored in the block's own memory and counted. -/
theorem landGrad_lands {s : State} {i a : Nat} (hwait : landWaits s i = false) (hfast : (shardOf s i).srec.slow = false)
    (hhere : Here s a) (hb : s.hostBad = []) (hcredit : useCredit s = s) (p : PageId) (bs : List Byte) :
    Landed (stored s a bs) (landGrad s p i a bs none).2 i := by
  have hwrite : wrHost s a bs = (true, stored s a bs) := by
    simp [wrHost, show apertureOf s (addr64 a) = none from hhere, hb, hcredit, putHost_eq, stored]
  have hland : (landGrad s p i a bs none).2 = landCount (stored s a bs) i a bs := by
    simp [landGrad, hwait, landNow, landWrite, hfast, hwrite]
  rw [hland]
  exact landCount_landed (s := stored s a bs) hfast a bs

/-- A state entry with a gradient kept behind those kept before it. -/
def hold (g : HeldGrad) (h : Shard) : Shard := { h with held := h.held ++ [g] }

/-- A gradient that may not land is kept unwritten (R285). -/
theorem landGrad_holds {s : State} {i : Nat} (hwait : landWaits s i = true) (p : PageId) (a : Nat) (bs : List Byte)
    (src : Option (Nat × Nat × Nat)) :
    ShardOnly s (landGrad s p i a bs src).2 i ∧ shardOf (landGrad s p i a bs src).2 i =
      hold { no := nextHeldNo s, addr := a, bytes := bs, src := src } (shardOf s i) := by
  have hheld : (landGrad s p i a bs src).2 = modShard s i (hold { no := nextHeldNo s, addr := a, bytes := bs, src := src }) := by
    rw [landGrad, if_pos hwait]
    rfl
  rw [hheld]
  exact ⟨modShard_shardOnly .., shardOf_modShard ..⟩

/-- A gradient that reaches its owner without an access to another block is what its landing leaves. -/
theorem exec_gradientLand {s t : State} {a : W64} {bs : List Byte} {i : Nat} (h : gradShardOf s a.toNat = some i)
    (ht : (landGrad (s.begin []) .glb i a.toNat bs none).2 = t) (hacc : accesses t = noAccesses) :
    exec (.gradientLand a bs []) s = .next { t with hostBad := [], who := none, rsv := false } := by
  have hshard : gradShardOf (s.begin []) a.toNat = some i := h
  change execGradientLand a bs [] s = _
  rw [execGradientLand, command_of_noAccesses]
  · simp only [hshard, ht]
  · simp only [hshard, ht, hacc]

/-! ### PAGE_IN and PAGE_IN_DONE (R298) -/

theorem exec_pageIn {s : State} {i : Fin 8192} {o n : Nat} (hpwr : s.pwr.pstate = .active) (hstarts : noStarts s = false)
    (hwaits : pageWaits (shardOf s i.1) = true) (hfirst : pageFirst s i.1 = true)
    (hn : n = slotSize s (activeDescs s (shardOf s i.1))) (hroom : poolRoom s n = some o) :
    exec (.pageIn i) s = .next (modShard s i.1 fun h => { h with pgin := true, pool := some (o, n) }) := by
  change execPageIn i s = _
  rw [hn] at hroom
  simp [execPageIn, hpwr, hstarts, pageIn, hroom, hwaits, hfirst, hn]

theorem exec_pageInDone (s : State) (i : Fin 8192) :
    exec (.pageInDone i []) s = .next (commandAs .core [] s (pageInDone · i.1)) := rfl

/-- A state entry whose page-in is complete. -/
def stage (h : Shard) : Shard := { h with pgin := false, staged := true }

/-- A shard whose page-in is complete, and that may be READY with it, is staged. -/
theorem readyCheck_staged (s : State) (i : Nat) :
    ShardOnly s (readyCheck (modShard s i stage) i) i ∧ (shardOf (readyCheck (modShard s i stage) i) i).pgin = false ∧
      (shardOf (readyCheck (modShard s i stage) i) i).staged = true := by
  obtain ⟨b, j, n, hself⟩ := readyCheck_self (modShard s i stage) i
  rw [shardOf_modShard] at hself
  exact ⟨(modShard_shardOnly ..).trans (readyCheck_shardOnly ..), (congrArg Shard.pgin hself :), (congrArg Shard.staged hself :)⟩

/-- A copy of one write into the block's own memory stages its shard. -/
theorem pageInDone_stages {s : State} {i o n a : Nat} {bs : List Byte} (hin : (shardOf s i).pgin = true)
    (hpool : (shardOf s i).pool = some (o, n)) (hrun : (ioPageIn s (shardOf s i) o).run s = (.ok [(a, bs)], s))
    (hhere : Here s a) (hc : Credits s) (hb : s.hostBad = []) :
    ShardOnly (stored s a bs) (pageInDone s i) i ∧ (shardOf (pageInDone s i) i).pgin = false ∧
      (shardOf (pageInDone s i) i).staged = true := by
  have hwrites : issueWrites s [(a, bs)] = (none, stored s a bs) := by
    simp [issueWrites, wrHost_here hhere hc hb, stored]
  have hdone : pageInDone s i = readyCheck (modShard (stored s a bs) i stage) i := by
    simp only [pageInDone, hin, hpool, hrun, hwrites]
    rfl
  rw [hdone]
  exact readyCheck_staged ..

/-! ### The obligation -/

/-- Settles O41: of a gradient, that it lands or waits; of a page-in, its start and its end. -/
theorem gradientsLandAndPageIn : Obligations.GradientsLandAndPageIn := by
  unfold Obligations.GradientsLandAndPageIn
  refine ⟨fun i a bs s hshard hhere => ⟨fun hwait hfast => ?_, fun hwait => ?_⟩, fun i o n s hpwr =>
    ⟨fun hstarts hwaits hfirst hn hroom => ?_, fun hin hpool hc a bs hhere hrun => ?_⟩⟩
  · have hland := landGrad_lands (s := s.begin []) hwait hfast hhere rfl rfl .glb bs
    have hhost : _ = memPut s.host (hostAddr s a.toNat) bs := hland.host
    refine ⟨_, exec_gradientLand hshard rfl hland.accesses, hhost, fun b hb => ?_, fun hne => ?_, fun heq => ?_, hland.others,
      hland.hdrs, hland.lpan⟩
    · exact (congrArg (smGet 0 · b) hhost).trans ((smGet_memPut ..).trans (if_neg (by omega)))
    · exact (countGrad_partial hne).imp hland.gcnt.trans hland.msf.trans
    · exact (countGrad_full heq).imp hland.gcnt.trans hland.msf.trans
  · obtain ⟨honly, hheld⟩ := landGrad_holds (s := s.begin []) hwait .glb a.toNat bs none
    exact ⟨_, exec_gradientLand hshard rfl honly.accesses, honly.host, hheld, honly.others⟩
  · exact exec_pageIn hpwr hstarts hwaits hfirst hn hroom
  · obtain ⟨honly, hpgin, hstaged⟩ := pageInDone_stages (s := s.beginAs .core []) hin hpool hrun hhere hc rfl
    exact ⟨_, (exec_pageInDone s i).trans (congrArg _ (commandAs_local honly.accesses)), honly.host, hpgin, hstaged,
      honly.others, honly.hdrs⟩

end Sys2Proof.Machine.Landing

/-! SUPPORT. Settles O14 (StepDecidedOrClosed): what applying a verdict leaves at an instance that holds no shard, and how a master
that is alone comes to apply its own. -/

namespace Sys2Proof.Machine.VerdictStep

open Sys2Proof.Machine.TileAttempt Sys2Proof.Machine.Settlement Sys2Proof.Machine.ShardState

/-! ### The verdict unit and what stays beside it -/

/-- The verdict unit is left as `v`; the shards' state entries, memory, the control port's response and the command's accesses are
as they were. -/
structure VrdLeft (s t : State) (v : Vrd) : Prop where
  vrd : t.vrd = v
  shard : t.shard = s.shard
  host : t.host = s.host
  cp : t.cp = s.cp
  accesses : accesses t = accesses s

theorem VrdLeft.refl (s : State) : VrdLeft s s s.vrd := ⟨rfl, rfl, rfl, rfl, rfl⟩

theorem VrdLeft.trans {s t u : State} {v w : Vrd} (h : VrdLeft s t v) (k : VrdLeft t u w) : VrdLeft s u w :=
  ⟨k.vrd, k.shard.trans h.shard, k.host.trans h.host, k.cp.trans h.cp, k.accesses.trans h.accesses⟩

/-- An update of the verdict unit after steps that have left it as `v`. -/
theorem VrdLeft.modVrd {s t : State} {v : Vrd} (h : VrdLeft s t v) (f : Vrd → Vrd) : VrdLeft s (modVrd t f) (f v) :=
  ⟨congrArg f h.vrd, h.shard, h.host, h.cp, h.accesses⟩

/-- A step that leaves the verdict unit, after steps that have left it as `v`. -/
theorem VrdLeft.then {s t u : State} {v : Vrd} (h : VrdLeft s t v) (k : VrdLeft t u t.vrd) : VrdLeft s u v :=
  h.trans (h.vrd ▸ k)

theorem journal_left (s : State) (kind : Nat) (step : W32) (index : Nat) (body : List Byte) :
    VrdLeft s (journal s kind step index body) s.vrd := by
  rw [journal_journalOnly s kind step index body]
  exact ⟨rfl, rfl, rfl, rfl, rfl⟩

theorem trace_left (s : State) (kind : Nat) (p : PageId) (bs : List Byte) : VrdLeft s (trace s kind p bs) s.vrd := by
  unfold trace
  dsimp only
  split
  · exact .refl s
  · exact ⟨rfl, rfl, rfl, rfl, rfl⟩

theorem raiseInt_left (s : State) (i : Nat) : VrdLeft s (raiseInt s i) s.vrd := by
  unfold raiseInt sendMsg
  dsimp only
  split
  · split <;> exact ⟨rfl, rfl, rfl, rfl, rfl⟩
  · exact ⟨rfl, rfl, rfl, rfl, rfl⟩

theorem tideStep_left (s : State) : VrdLeft s (tideStep s) s.vrd := ⟨rfl, rfl, rfl, rfl, rfl⟩

/-! ### The steps of a verdict (R287, R312, R313, R346) -/

/-- The verdict unit with a log entry behind the newest one. -/
def logged (v : Vrd) (e : VLog) (late : W16) : Vrd :=
  { v with regs := { v.regs with
      loghead := v.regs.loghead + 1, log := vset v.regs.log (v.regs.loghead + 1).toFin e, vlate := late } }

/-- A valid log entry of a verdict's step and result. -/
structure EntryOf (e : VLog) (m : VMsg) : Prop where
  valid : e.valid = true
  step : e.step = m.step
  commit : e.commit = m.commit

theorem logVerdict_left (s : State) (m : VMsg) :
    ∃ e late, EntryOf e m ∧ VrdLeft s (logVerdict s m) (logged s.vrd e late) := by
  unfold logVerdict
  extract_lets v wait n e entered
  have hentered : VrdLeft s entered (logged s.vrd e _) := ⟨rfl, rfl, rfl, rfl, rfl⟩
  exact ⟨e, _, ⟨rfl, rfl, rfl⟩, hentered.then (trace_left ..)⟩

/-- The verdict unit with SKIPRUN after a verdict, and whether its interrupt has been raised. -/
def skipCounted (v : Vrd) (commit raised : Bool) : Vrd :=
  { v with skipInt := raised, regs := { v.regs with skiprun := if commit then 0 else satAdd v.regs.skiprun 1 } }

theorem countSkip_left (s : State) (commit : Bool) :
    ∃ raised, VrdLeft s (countSkip s commit) (skipCounted s.vrd commit raised) := by
  cases commit with
  | true => exact ⟨_, rfl, rfl, rfl, rfl, rfl⟩
  | false =>
    unfold countSkip
    rw [if_neg Bool.false_ne_true]
    extract_lets counted v
    have hcounted : VrdLeft s counted (skipCounted s.vrd false s.vrd.skipInt) := ⟨rfl, rfl, rfl, rfl, rfl⟩
    split
    · exact ⟨true, (hcounted.modVrd fun v => { v with skipInt := true }).then (raiseInt_left ..)⟩
    · exact ⟨_, hcounted⟩

/-- The verdict unit with a deputy, and whether NEXTDEP takes its place at the next step. -/
def withDeputy (v : Vrd) (take : Bool) (dep : Byte) : Vrd := { v with takeDep := take, regs := { v.regs with vdep := dep } }

theorem nextDeputy_left (s : State) : ∃ take dep, VrdLeft s (nextDeputy s) (withDeputy s.vrd take dep) := by
  unfold nextDeputy
  split
  · exact ⟨_, _, rfl, rfl, rfl, rfl, rfl⟩
  · exact ⟨s.vrd.takeDep, s.vrd.regs.vdep, .refl s⟩

/-- The verdict unit once a step's COMMIT is under way. -/
def flipped (v : Vrd) (m : VMsg) : Vrd :=
  { v with flipping := if m.commit then some m.step else v.flipping, due := if m.commit then [] else v.due }

/-- The verdict unit with the step after a verdict's open: only the records of later steps and the VUPs for it are kept. -/
def opened (v : Vrd) (step : W32) : Vrd :=
  let recs := v.recs.filter fun r => newer r.step step
  { v with recs := recs, vups := v.next, next := [], own := none, evals := [], formed := none, upSent := false, vslow := false
           lockFt := false
           regs := { v.regs with vstep := step + 1, closed := false, njobs := 0, sent := false, oflags := 0
                                 vjobs := BitVec.ofNat 14 (recs.filter fun r => r.step == step + 1).length } }

/-! ### Without shards -/

theorem issueFlips_none {s : State} (h : s.shard = []) : issueFlips s = s := by
  unfold issueFlips
  split
  · rfl
  · rw [h, List.foldl_nil]

/-- The verdict unit with no COMMIT under way. -/
def noFlips (v : Vrd) (due : List Nat) : Vrd := { v with flipping := none, due := due }

/-- Without shards a COMMIT ends at once, and no event of the Rake falls due. -/
theorem flipsEnd_left {s : State} (hshard : s.shard = []) (hdue : s.vrd.due = [] ∨ s.vrd.flipping = none) :
    ∃ due, VrdLeft s (flipsEnd s) (noFlips s.vrd due) := by
  cases hflip : s.vrd.flipping with
  | none =>
    have hkeep : flipsEnd s = s := by simp [flipsEnd, hflip]
    have hvrd : noFlips s.vrd s.vrd.due = s.vrd := by rw [noFlips, ← hflip]
    exact ⟨s.vrd.due, hkeep.symm ▸ hvrd.symm ▸ .refl s⟩
  | some step =>
    have hends : flipsEnd s = modVrd s (noFlips · []) := by
      have hdue : s.vrd.due = [] := hdue.resolve_right (by simp [hflip])
      simp [flipsEnd, hflip, hshard, hdue, queueRake, sortNat, noFlips]
    exact ⟨[], hends ▸ (VrdLeft.refl s).modVrd _⟩

theorem pendShards_none {s : State} (h : s.shard = []) (step : W32) : pendShards s step = [] := by simp [pendShards, h]

/-- What ends a verdict at an instance without shards, once the next step is open. -/
theorem stepEnd_left {s : State} (hshard : s.shard = []) (hdue : s.vrd.due = [] ∨ s.vrd.flipping = none) :
    ∃ take dep due, VrdLeft s (flipsEnd (issueFlips (tideStep (nextDeputy s)))) (noFlips (withDeputy s.vrd take dep) due) := by
  obtain ⟨take, dep, hdep⟩ := nextDeputy_left s
  have htide := hdep.then (tideStep_left _)
  have hnone : (tideStep (nextDeputy s)).shard = [] := htide.shard.trans hshard
  obtain ⟨due, hends⟩ := flipsEnd_left hnone (by rw [htide.vrd]; exact hdue)
  rw [htide.vrd] at hends
  rw [issueFlips_none hnone]
  exact ⟨take, dep, due, htide.trans hends⟩

/-- The verdict unit with a verdict logged and counted, its COMMIT begun and the step after it open. -/
def stepped (v : Vrd) (m : VMsg) (e : VLog) (late : W16) (raised : Bool) : Vrd :=
  opened (flipped (skipCounted (logged v e late) m.commit raised) m) m.step

theorem applyVerdict_left {s : State} (m : VMsg) (hshard : s.shard = []) (hevals : s.vrd.evals = [])
    (hflip : s.vrd.flipping = none) :
    ∃ e late raised take dep due, EntryOf e m ∧
      VrdLeft s (applyVerdict s m) (noFlips (withDeputy (stepped s.vrd m e late raised) take dep) due) := by
  unfold applyVerdict
  extract_lets journaled counted settled ps mids flips waiting committed next
  have hjournaled : VrdLeft s journaled s.vrd := journal_left ..
  obtain ⟨e, late, he, hlog⟩ := logVerdict_left journaled m
  obtain ⟨raised, hskip⟩ := countSkip_left (logVerdict journaled m) m.commit
  rw [hlog.vrd, hjournaled.vrd] at hskip
  have hsettled : VrdLeft s settled (skipCounted (logged s.vrd e late) m.commit raised) := by
    have hnone : settled = counted := by
      have : counted.vrd.evals = [] := (congrArg Vrd.evals hskip.vrd).trans hevals
      simp only [settled, this, List.foldl_nil]
    exact hnone ▸ hjournaled.trans (hlog.trans hskip)
  have hps : ps = [] := pendShards_none (hsettled.shard.trans hshard) m.step
  have hmids : mids = [] := by simp only [mids, hps, List.map_nil, List.filterMap_nil]
  have hcommitted : VrdLeft settled committed (flipped settled.vrd m) := by
    have hwaiting : waiting = settled := by simp only [waiting, flips, hps, hmids, List.eraseDups_nil, List.foldl_nil]
    simp only [committed, flipped, hwaiting, hmids, hps, List.foldl_nil]
    split
    · exact ⟨rfl, by simp [hsettled.shard, hshard, smMap], rfl, rfl, rfl⟩
    · exact .refl settled
  rw [hsettled.vrd] at hcommitted
  have hnext : VrdLeft s next _ := (hsettled.trans hcommitted).modVrd (opened · m.step)
  obtain ⟨take, dep, due, hend⟩ := stepEnd_left (s := next) (hnext.shard.trans hshard) <| by
    rw [hnext.vrd]
    cases hc : m.commit with
    | true => exact .inl (by simp [flipped, hc, opened])
    | false => exact .inr (by simpa [flipped, hc, opened, skipCounted, logged] using hflip)
  rw [hnext.vrd] at hend
  exact ⟨e, late, raised, take, dep, due, he, hnext.trans hend⟩

/-- What a verdict leaves at an instance without shards: the next step is open with nothing held, the log holds the verdict, and
SKIPRUN has counted it. -/
structure VerdictApplied (s t : State) (m : VMsg) : Prop where
  vstep : t.vrd.regs.vstep = m.step + 1
  closed : t.vrd.regs.closed = false
  sent : t.vrd.regs.sent = false
  skiprun : t.vrd.regs.skiprun = if m.commit then 0 else satAdd s.vrd.regs.skiprun 1
  loghead : t.vrd.regs.loghead = s.vrd.regs.loghead + 1
  entry : EntryOf (vget t.vrd.regs.log (s.vrd.regs.loghead + 1).toFin) m
  formed : t.vrd.formed = none
  pendNf : t.vrd.pendNf = s.vrd.pendNf
  pendFt : t.vrd.pendFt = s.vrd.pendFt
  shard : t.shard = s.shard
  host : t.host = s.host
  cp : t.cp = s.cp
  accesses : accesses t = accesses s

theorem applyVerdict_applied {s : State} (m : VMsg) (hshard : s.shard = []) (hevals : s.vrd.evals = [])
    (hflip : s.vrd.flipping = none) : VerdictApplied s (applyVerdict s m) m := by
  obtain ⟨e, late, raised, take, dep, due, he, hall⟩ := applyVerdict_left m hshard hevals hflip
  have hvrd := hall.vrd
  exact
    { vstep := (congrArg (·.regs.vstep) hvrd :)
      closed := (congrArg (·.regs.closed) hvrd :)
      sent := (congrArg (·.regs.sent) hvrd :)
      skiprun := (congrArg (·.regs.skiprun) hvrd :)
      loghead := (congrArg (·.regs.loghead) hvrd :)
      entry := by
        have hlast : vget (applyVerdict s m).vrd.regs.log (s.vrd.regs.loghead + 1).toFin = e :=
          (congrArg (fun v : Vrd => vget v.regs.log (s.vrd.regs.loghead + 1).toFin) hvrd :).trans (vget_vset_self ..)
        exact hlast ▸ he
      formed := (congrArg Vrd.formed hvrd :)
      pendNf := (congrArg Vrd.pendNf hvrd :)
      pendFt := (congrArg Vrd.pendFt hvrd :)
      shard := hall.shard
      host := hall.host
      cp := hall.cp
      accesses := hall.accesses }

/-! ### A master that is alone -/

theorem children_none {s : State} (h : s.vrd.regs.vchild = 0) : children s = [] := by simp [children, h, bit]

theorem deputyOf_none {s : State} (h : s.vrd.regs.vchild = 0) : deputyOf s = none := by simp [deputyOf, children_none h]

/-- The verdict unit of a master that has formed a verdict. -/
def formed (v : Vrd) (m : VMsg) : Vrd := { v with formed := some m }

/-- An instance without children applies the verdict it has formed at once. -/
theorem deliver_alone {s : State} (h : s.vrd.regs.vchild = 0) (m : VMsg) :
    deliver s m = applyVerdict (modVrd s (formed · m)) m := by
  have hdep : deputyOf (modVrd s (formed · m)) = none := deputyOf_none h
  have hchildren : children (modVrd s (formed · m)) = [] := children_none h
  unfold formed at *
  simp only [deliver, hdep, distribute, hchildren, List.foldl_nil]

/-! ### SKIPNOW (R311) -/

/-- A master that is alone and has not sent its flags applies a SKIP without any. -/
theorem skipNow_alone {s : State} (hmaster : s.vrd.regs.vparent = 0xFF) (hchild : s.vrd.regs.vchild = 0)
    (hformed : s.vrd.formed = none) (hown : s.vrd.own = none) (hshard : s.shard = []) (hevals : s.vrd.evals = [])
    (hflip : s.vrd.flipping = none) :
    VerdictApplied (modVrd s (formed · { step := s.vrd.regs.vstep })) (skipNow s) { step := s.vrd.regs.vstep } := by
  have hskip : skipNow s = deliver s { step := s.vrd.regs.vstep } := by
    simp [skipNow, isMaster, hmaster, hformed, children_none hchild, hown]
  rw [hskip, deliver_alone hchild]
  exact applyVerdict_applied (s := modVrd s _) _ hshard hevals hflip

theorem exec_skipnow {s : State} (h : Answers s .vrd) : exec .skipnow s = .next (command [] (answer s cpOk) skipNow) :=
  cpWrite_answers h (command [] · skipNow)

/-! ### FLAGS_SEND (R302) -/

/-- The message of an instance's own flags: its number is their origin. -/
def flagsMsg (s : State) (flags : Bool × Bool × Bool) : VMsg :=
  let o := fun (b : Bool) => if b then s.glb.inst.toNat else 0x7F
  { step := s.vrd.regs.vstep, nonfinite := flags.1, absurd := flags.2.1, fault := flags.2.2
    count := if s.twn.regs.adopted = 0xFF then 1 else 2
    onf := o flags.1, oab := o flags.2.1, oft := o flags.2.2 }

/-- The verdict unit once its own flags are formed and no layer slot was evaluated. -/
def flagsSent (v : Vrd) (m : VMsg) (tick : Nat) : Vrd :=
  { v with evals := [], own := some m, pendNf := false, pendFt := false, sentAt := tick
           regs := { v.regs with sent := true, oflags := BitVec.ofNat 3 m.flagBits } }

theorem evaluate_none {s : State} (h : s.vrd.recs = []) :
    evaluate s = modVrd (modSalR s fun r => { r with evals := r.evals + 0 }) fun v => { v with evals := [] } := by
  simp [evaluate, stepRecs, h, sortNat]

theorem flagBits_zero (m : VMsg) :
    m.flagBits = 0 ↔ (m.nonfinite, m.absurd, m.fault) = (false, false, false) := by
  unfold VMsg.flagBits
  cases m.nonfinite <;> cases m.absurd <;> cases m.fault <;> decide

/-- A master that is alone forms its verdict from its own flags. -/
theorem tryVerdict_alone {s : State} {o : VMsg} (hmaster : s.vrd.regs.vparent = 0xFF) (hchild : s.vrd.regs.vchild = 0)
    (hown : s.vrd.own = some o) (hformed : s.vrd.formed = none) :
    tryVerdict s = deliver s
      { o with commit := o.flagBits = 0 && !o.missing && decide (o.count = s.vrd.regs.vsize.toNat) } := by
  have hcombined : combined s = some o := by simp [combined, children_none hchild, hown]
  simp [tryVerdict, hcombined, isMaster, hmaster, hformed]

theorem sendFlags_left {s : State} (harmed : corruptArmed s .vrd cLockstep = false) (hrecs : s.vrd.recs = []) :
    ∃ u, VrdLeft s u (flagsSent s.vrd (flagsMsg s (ownFlags s [])) s.pwr.tick.toNat) ∧ sendFlags s = tryVerdict u := by
  refine ⟨_, ?_, by rw [sendFlags, if_neg (Bool.eq_false_iff.1 harmed), evaluate_none hrecs]⟩
  exact ⟨rfl, rfl, rfl, rfl, rfl⟩

/-- A master that is alone, holds no shard and evaluates no layer slot applies the verdict of its own flags: a COMMIT where they are
clean and it is all of VSIZE. -/
theorem sendFlags_alone {s : State} (harmed : corruptArmed s .vrd cLockstep = false) (hmaster : s.vrd.regs.vparent = 0xFF)
    (hchild : s.vrd.regs.vchild = 0) (hsize : s.vrd.regs.vsize = 1) (hformed : s.vrd.formed = none) (hshard : s.shard = [])
    (hrecs : s.vrd.recs = []) (hflip : s.vrd.flipping = none) (hadopted : s.twn.regs.adopted = 0xFF) :
    ∃ u m, VrdLeft s u (formed (flagsSent s.vrd (flagsMsg s (ownFlags s [])) s.pwr.tick.toNat) m) ∧
      m.step = s.vrd.regs.vstep ∧ (m.commit = true ↔ ownFlags s [] = (false, false, false)) ∧
      VerdictApplied u (sendFlags s) m := by
  obtain ⟨u, hu, hsend⟩ := sendFlags_left harmed hrecs
  have hparent : u.vrd.regs.vparent = 0xFF := (congrArg (·.regs.vparent) hu.vrd :).trans hmaster
  have hleaf : u.vrd.regs.vchild = 0 := (congrArg (·.regs.vchild) hu.vrd :).trans hchild
  have hvsize : u.vrd.regs.vsize = 1 := (congrArg (·.regs.vsize) hu.vrd :).trans hsize
  have hnone : u.vrd.formed = none := (congrArg Vrd.formed hu.vrd :).trans hformed
  have hown : u.vrd.own = some (flagsMsg s (ownFlags s [])) := (congrArg Vrd.own hu.vrd :)
  rw [hsend, tryVerdict_alone hparent hleaf hown hnone, deliver_alone hleaf]
  have hclean : (flagsMsg s (ownFlags s [])).flagBits = 0 ↔ ownFlags s [] = (false, false, false) := flagBits_zero _
  have hmissing : (flagsMsg s (ownFlags s [])).missing = false := rfl
  have hcount : (flagsMsg s (ownFlags s [])).count = u.vrd.regs.vsize.toNat := by
    rw [hvsize]
    exact if_pos hadopted
  refine ⟨_, _, hu.modVrd (formed · _), rfl, ?_, applyVerdict_applied _ (hu.shard.trans hshard) ?_ ?_⟩
  · simp only [hcount, hmissing, decide_true, Bool.not_false, Bool.and_true, decide_eq_true_eq, hclean]
  · exact (congrArg Vrd.evals hu.vrd :)
  · exact (congrArg Vrd.flipping hu.vrd :).trans hflip

theorem exec_flagsSend {s : State} (hready : flagsReady s = true) (hgoes : goesOn s .vrd = true) (hpwr : s.pwr.pstate = .active) :
    exec .flagsSend s = .next (command [] s sendFlags) := by
  change execFlagsSend s = _
  simp [execFlagsSend, hready, hgoes, hpwr]

/-! ### VCLOSE and VSLOW (R302, R312) -/

theorem exec_vclose {s : State} (h : Answers s .vrd) (n : BitVec 14) : exec (.vclose n) s = .next (vclose (answer s cpOk) n) :=
  cpWrite_answers h (vclose · n)

theorem vclose_opens {s : State} (h : s.vrd.regs.closed = false) (n : BitVec 14) :
    vclose s n = modVrdR s fun v => { v with closed := true, njobs := n } := if_neg (by simp [h])

theorem vclose_again {s : State} (h : s.vrd.regs.closed = true) (n : BitVec 14) :
    vclose s n = dropReject s .vrd 0x44 .state := if_pos h

theorem raiseInt_pending (s : State) {i : Nat} (h : i < 96) : bit (raiseInt s i).glb.intpnd i = true := by
  unfold raiseInt sendMsg
  dsimp only
  split
  · split <;> exact bit_setBit_self _ h
  · exact bit_setBit_self _ h

theorem exec_vslow_raises {s : State} (hsent : s.vrd.regs.sent = true) (hslow : s.vrd.vslow = false) :
    exec .vslow s = .next (raiseInt (modVrd s fun v => { v with vslow := true }) srcVslow) := by
  change execVslow s = _
  simp [execVslow, hsent, hslow]

theorem exec_vslow_again {s : State} (h : s.vrd.vslow = true) : exec .vslow s = .next s := by
  change execVslow s = _
  simp [execVslow, h]

/-! ### The obligation -/

/-- Settles O14: of SKIPNOW and FLAGS_SEND, the verdict that the master comes to apply and what applying it leaves; of VCLOSE and
VSLOW, each branch. -/
theorem stepDecidedOrClosed : Obligations.StepDecidedOrClosed := by
  unfold Obligations.StepDecidedOrClosed
  refine ⟨fun s hans hmaster hchild hformed hshard hown hevals _ hflip => ?_,
    fun s hready hgoes hpwr hmaster hchild hsize hformed hshard hrecs hevals _ hflip hadopted harmed => ?_,
    fun n s hans => ⟨fun hopen => ?_, fun hclosed => ?_⟩, fun s hsent hslow => ?_⟩
  · have happlied := skipNow_alone (s := (answer s cpOk).begin []) hmaster hchild hformed hown hshard hevals hflip
    exact ⟨_, _, (exec_skipnow hans).trans (congrArg _ (command_of_noAccesses happlied.accesses)), happlied.cp, happlied.vstep,
      happlied.closed, happlied.skiprun, happlied.loghead, rfl, happlied.entry.step, happlied.entry.commit, happlied.entry.valid,
      happlied.shard.trans hshard, happlied.host⟩
  · obtain ⟨u, m, hu, hstep, hcommit, happlied⟩ :=
      sendFlags_alone (s := s.begin []) harmed hmaster hchild hsize hformed hshard hrecs hflip hadopted
    have hhead : u.vrd.regs.loghead = s.vrd.regs.loghead := (congrArg (·.regs.loghead) hu.vrd :)
    have hentry := hhead ▸ happlied.entry
    refine ⟨_, _, (exec_flagsSend hready hgoes hpwr).trans
      (congrArg _ (command_of_noAccesses (happlied.accesses.trans hu.accesses))), ?_, rfl, hentry.valid, hentry.step.trans hstep, ?_,
      happlied.closed, happlied.sent, ?_, ?_⟩
    · exact happlied.vstep.trans (congrArg (· + 1) hstep)
    · exact hentry.commit ▸ hcommit
    · exact happlied.pendFt.trans (congrArg Vrd.pendFt hu.vrd :)
    · exact happlied.pendNf.trans (congrArg Vrd.pendNf hu.vrd :)
  · rw [exec_vclose hans, vclose_opens (s := answer s cpOk) hopen]
  · rw [exec_vclose hans, vclose_again (s := answer s cpOk) hclosed]
    rfl
  · have hleft := raiseInt_left (modVrd s fun v => { v with vslow := true }) srcVslow
    have hagain := (congrArg Vrd.vslow hleft.vrd :)
    exact ⟨_, exec_vslow_raises hsent hslow, raiseInt_pending _ (by decide : srcVslow < 96), hagain,
      (congrArg Vrd.regs hleft.vrd :), exec_vslow_again hagain⟩

end Sys2Proof.Machine.VerdictStep

/-! SUPPORT. Settles O56 (VerdictFrames): how a frame in sequence comes to its command's own effect, and the effect of each frame of
the verdict class. -/

namespace Sys2Proof.Machine.VerdictFrame

open Sys2Proof.Machine.Settlement Sys2Proof.Machine.ShardState Sys2Proof.Machine.VerdictStep

/-! ### A frame that is taken (R328 to R331) -/

/-- The frame as its handler gets it: unprotected, the payload without its padding. -/
def received (s : State) (k : Fin 8) (f : Frame) : Rx :=
  { link := k, adp := false, peer := f.src.toNat, ext := rxExt s f, frame := { f with payload := f.payload.take f.plen.toNat } }

/-- The state in which a frame's own effect happens: that of its command, with what the frame left of the link layer's pairs. -/
def withPairs (s : State) (ps : SMap Pair) : State := { s.begin [] with twn := { s.twn with pairs := ps } }

/-- What a frame in sequence leaves of the pairs: nothing waits, and its own pair has counted it. -/
structure FrameTaken (s : State) (ps : SMap Pair) (f : Frame) : Prop where
  noneWaiting : NoneWaiting (withPairs s ps)
  pair : ∀ b q d, pairOf (withPairs s ps) b q d = if pairKey false f.src.toNat (fClass f) = pairKey b q d then
    { pairOf s b q d with rxNext := (pairOf s b q d).rxNext + 1, nackAt := none, dirty := true } else pairOf s b q d

/-- What a pair may send is not changed by a frame taken. -/
theorem FrameTaken.pair_sends {s : State} {ps : SMap Pair} {f : Frame} (h : FrameTaken s ps f) (b : Bool) (q d : Nat) :
    (pairOf (withPairs s ps) b q d).txNext = (pairOf s b q d).txNext ∧
      (pairOf (withPairs s ps) b q d).limit d = (pairOf s b q d).limit d := by
  rw [h.pair]
  split <;> exact ⟨rfl, rfl⟩

/-- So a frame of class V may leave as before. -/
theorem FrameTaken.maySend_verdict {s : State} {ps : SMap Pair} {f : Frame} (h : FrameTaken s ps f) (b : Bool) (q : Nat)
    (k : Fin 8) : maySend (withPairs s ps) b q 0 (some k) = maySend s b q 0 (some k) := by
  obtain ⟨hnext, hlim⟩ := h.pair_sends b q 0
  simp only [maySend, hnext, hlim, show (0 != 2) = true from rfl, Bool.true_or, Bool.and_true]
  rfl

/-- A frame in sequence, from no pair with waiting frames, ends as its command's own effect leaves it. -/
theorem frame_taken {s : State} {k : Fin 8} {f : Frame} {code : Nat} {act : State → Rx → State} {i : Instr}
    (h : InSequence s k f) (hn : NoneWaiting s) (ho : ownFrame code 0 f = true) (hcode : code ≠ 0x0C)
    (hexec : exec i s = .next (command [] s fun s => receive s k f false code 0 act)) :
    ∃ ps, FrameTaken s ps f ∧ (accesses (act (withPairs s ps) (received s k f)) = noAccesses →
      exec i s = .next { act (withPairs s ps) (received s k f) with hostBad := [], who := none, rsv := false }) := by
  have htype : f.ftype ≠ 0x0C := by
    intro hf
    simp only [ownFrame, hf, Bool.and_eq_true, beq_iff_eq] at ho
    exact hcode ho.1.symm
  obtain ⟨ps, t, rfl, hnone, hpair, hreceive⟩ := receive_inSeq (s := s.begin []) (code := code) (op := 0) h hn ho htype act
    (fun _ _ => false) fun _ _ => rfl
  refine ⟨ps, ⟨hnone, hpair⟩, fun hacc => hexec.trans (congrArg _ ?_)⟩
  rw [command_of_noAccesses (f := fun s => receive s k f false code 0 act) (hreceive ▸ hacc), hreceive]
  rfl

/-! ### VUP (R306, R309) -/

/-- No verdict is formed while the instance's own flags are not in. -/
theorem tryVerdict_waits {s : State} (h : s.vrd.own = none) : tryVerdict s = s := by simp [tryVerdict, combined, h]

section
variable {s : State} {peer : Nat} {m : VMsg} (hstep : m.step = s.vrd.regs.vstep)
include hstep

/-- A child's first VUP for the open step waits while the instance's own flags are not in. -/
theorem takeVup_waits (hfirst : ∀ x ∈ s.vrd.vups, x.1 ≠ peer) (hlost : bit s.twn.lost peer = false)
    (htaken : takenOver s peer = false) (hchild : bit s.vrd.regs.vchild peer = true) (hown : s.vrd.own = none) :
    takeVup s peer m = modVrd s fun v => { v with vups := v.vups ++ [(peer, m)] } := by
  have hnew : (s.vrd.vups.any fun x => decide (x.1 = peer)) = false := by simpa using hfirst
  simp only [takeVup, hstep, if_true, hnew, hlost, htaken, hchild, Bool.not_true, Bool.or_false, Bool.false_eq_true, if_false]
  exact tryVerdict_waits hown

theorem takeVup_again (hagain : ∃ x ∈ s.vrd.vups, x.1 = peer) : takeVup s peer m = vseqerr s := by
  have hheld : (s.vrd.vups.any fun x => decide (x.1 = peer)) = true := by simpa using hagain
  simp only [takeVup, hstep, if_true, hheld, Bool.true_or]

end

/-! ### VDN and VACK (R307, R309) -/

/-- A VDN of the parent for the open step is applied by a leaf that is not the deputy. -/
theorem takeVdn_leaf {s : State} {peer : Nat} {m : VMsg} (hstep : m.step = s.vrd.regs.vstep)
    (hparent : peer = s.vrd.regs.vparent.toNat) (hsize : s.vrd.regs.vsize.toNat ≤ 1) (hchild : s.vrd.regs.vchild = 0) :
    takeVdn s peer m = applyVerdict s m := by
  have hdep : isDeputy s = false := by simp [isDeputy, Nat.not_lt.2 hsize]
  simp [takeVdn, hstep, hparent, hdep, children_none hchild]

/-- The VACK of the deputy, the master's only child, lets it apply its verdict. -/
theorem takeVack_deputy {s : State} {peer : Nat} {m : VMsg} {step : W32} (hformed : s.vrd.formed = some m) (hstep : m.step = step)
    (hchildren : children s = [peer]) (hdep : s.vrd.regs.vdep.toNat = peer) (hlost : bit s.twn.lost peer = false)
    (htaken : takenOver s peer = false) : takeVack s peer step = applyVerdict s m := by
  have hdeputy : deputyOf s = some peer := by simp [deputyOf, hchildren, hdep, hlost, htaken]
  simp [takeVack, hformed, hstep, hdeputy, distribute, hchildren]

/-! ### CREDIT (R329, R331) -/

/-- A pair whose limit has risen to a newer CRLIM. -/
def raiseLimit (cls : Nat) (lim : W16) (p : Pair) : Pair := if newer lim (p.limit cls) then { p with txLim := some lim } else p

theorem raiseLimit_newer {cls : Nat} {lim : W16} {p : Pair} (h : newer lim (p.limit cls) = true) :
    (raiseLimit cls lim p).txLim = some lim := by rw [raiseLimit, if_pos h]

theorem raiseLimit_waiting (cls : Nat) (lim : W16) (p : Pair) :
    (raiseLimit cls lim p).unacked = p.unacked ∧ (raiseLimit cls lim p).queue = p.queue := by
  unfold raiseLimit
  split <;> exact ⟨rfl, rfl⟩

/-- With nothing waiting, an acknowledgement raises the pair's limit and does no more. -/
theorem applyAck_raises {s : State} (h : NoneWaiting s) (adp : Bool) (peer cls : Nat) (ack lim : W16) :
    applyAck s adp peer cls ack lim = modPair s adp peer cls (raiseLimit cls lim) ∧
      NoneWaiting (modPair s adp peer cls (raiseLimit cls lim)) := by
  refine ⟨applyAck_none h adp peer cls ack lim, h.modPair _ _ _ _ fun x hx => ?_⟩
  obtain ⟨hunacked, hqueue⟩ := raiseLimit_waiting cls lim x
  exact ⟨hunacked.trans hx.1, hqueue.trans hx.2⟩

/-- CRLIM of a class in the payload of a CREDIT frame. -/
def creditLim (f : Frame) (cls : Nat) : W16 := BitVec.ofNat 16 (leAt f.payload (4 * cls + 2) 2)

theorem takeCredit_eq {s : State} (h : NoneWaiting s) (x : Rx) :
    takeCredit s x = modPair (modPair (modPair s x.adp x.peer 0 (raiseLimit 0 (creditLim x.frame 0)))
      x.adp x.peer 1 (raiseLimit 1 (creditLim x.frame 1))) x.adp x.peer 2 (raiseLimit 2 (creditLim x.frame 2)) := by
  obtain ⟨h0, hn0⟩ := applyAck_raises h x.adp x.peer 0 (BitVec.ofNat 16 (leAt x.frame.payload 0 2)) (creditLim x.frame 0)
  obtain ⟨h1, hn1⟩ := applyAck_raises hn0 x.adp x.peer 1 (BitVec.ofNat 16 (leAt x.frame.payload 4 2)) (creditLim x.frame 1)
  obtain ⟨h2, -⟩ := applyAck_raises hn1 x.adp x.peer 2 (BitVec.ofNat 16 (leAt x.frame.payload 8 2)) (creditLim x.frame 2)
  rw [← h2, ← h1, ← h0]
  rfl

theorem takeCredit_pair {s : State} (h : NoneWaiting s) (x : Rx) (c : Fin 3) :
    pairOf (takeCredit s x) x.adp x.peer c.1 = raiseLimit c.1 (creditLim x.frame c.1) (pairOf s x.adp x.peer c.1) := by
  have hkey : ∀ a b, pairKey x.adp x.peer a = pairKey x.adp x.peer b ↔ a = b := fun a b => by simp [pairKey]
  rw [takeCredit_eq h]
  simp only [pairOf_modPair, hkey]
  match c with
  | 0 => rfl
  | 1 => rfl
  | 2 => rfl

theorem modPair_rest (s : State) (adp : Bool) (peer cls : Nat) (g : Pair → Pair) :
    (modPair s adp peer cls g).lnk = s.lnk ∧ (modPair s adp peer cls g).twn.regs = s.twn.regs ∧
      accesses (modPair s adp peer cls g) = accesses s := ⟨rfl, rfl, rfl⟩

/-- Beside the pairs, a CREDIT frame changes nothing. -/
theorem takeCredit_rest {s : State} (h : NoneWaiting s) (x : Rx) :
    (takeCredit s x).lnk = s.lnk ∧ accesses (takeCredit s x) = accesses s := by
  rw [takeCredit_eq h]
  simp only [modPair_rest, and_self]

/-- A field that lies in a payload's first bytes is there once the payload is cut behind them. -/
theorem leAt_take {bs : List Byte} {o n m : Nat} (h : o + n ≤ m) : leAt (bs.take m) o n = leAt bs o n := by
  rw [leAt, List.drop_take, List.take_take, Nat.min_eq_left (by omega), leAt]

/-! ### NACK (R330, R332) -/

/-- The pair of a frame that is next in its sequence, once the frame is counted. -/
def counted (ext : Nat) (p : Pair) : Pair := { p with rxNext := ext + 1, nackAt := none, dirty := true }

/-- A NACK in sequence whose ACK does no more than change its class's pair comes to the command's effect with the frame counted in
the pair of the verdict class. -/
theorem receive_nack {s : State} {k : Fin 8} {f : Frame} {c : Nat} {g : Pair → Pair} (h : InSequence s k f)
    (ho : ownFrame 0x0C 0 f = true) (hc : tsAt f 20 1 = c)
    (hack : applyAck s false f.src.toNat c f.ack f.crlim = modPair s false f.src.toNat c g) (hg : ∀ p, (g p).rxNext = p.rxNext)
    (act : State → Rx → State) :
    receive s k f false 0x0C 0 act =
      act (modPair (modPair s false f.src.toNat c g) false f.src.toNat (fClass f) (counted (rxExt s f))) (received s k f) := by
  obtain ⟨hhears, hcrc, hfree, hknown, hadopted, hsess, hprot, hpos, -⟩ := h
  have htype : f.ftype = 0x0C := by
    simp only [ownFrame, Bool.and_eq_true, beq_iff_eq] at ho
    exact BitVec.eq_of_toNat_eq ho.1
  have hclass : (if f.ftype = 0x0C then tsAt f 20 1 else fClass f) = c := (if_pos htype).trans hc
  have hother : otherFrame 0x0C 0 f = false := by simp [otherFrame, ho]
  have hopen : openPayload s (rxExt s f) f = f.payload.take f.plen.toNat := by simp [openPayload, hprot]
  generalize hu : modPair s false f.src.toNat c g = u at *
  have hnext : ∀ q d, (pairOf u false q d).rxNext = (pairOf s false q d).rxNext := by
    intro q d
    rw [← hu, pairOf_modPair]
    split
    · next hkey => rw [hg, pairOf, pairOf, hkey]
    · rfl
  have hadp : toAdopted u f = false := by rw [← hu]; exact hadopted
  have hupos : rxPos u f = rxPos s f := by
    have hsame : sessOf u f.src.toNat = sessOf s f.src.toNat := by rw [← hu]; rfl
    simp only [rxPos, hsame, hadp, hadopted, hnext]
  have hseq : takeSeq u k f true false = (.accept (rxExt s f), modPair u false f.src.toNat (fClass f) (counted (rxExt s f))) := by
    have hext : rxExt u f = rxExt s f := by simp only [rxExt, hupos]
    simp only [takeSeq, hadp, hupos, hext, hnext, hpos, if_true, Bool.not_true, Bool.false_eq_true, if_false, Bool.false_and]
    rfl
  simp only [receive, hother, hhears, Bool.not_true, Bool.or_false, Bool.false_eq_true, if_false, ← hcrc, ne_eq, not_true_eq_false,
    decide_false, hfree, if_true, hknown, noteSession_same hsess, hadopted, hclass, hack, hopen, hseq, ho]
  rfl

/-- No frame of any pair waits for credit. -/
abbrev QueuesEmpty (s : State) : Prop := ∀ x ∈ s.twn.pairs, x.2.queue = []

theorem drainAll_queuesEmpty {s : State} (h : QueuesEmpty s) : drainAll s = s :=
  List.foldlRecOn (motive := (· = s)) s.twn.pairs _ rfl fun t ht x hx => by simp [h x hx, ht]

theorem QueuesEmpty.modPair {s : State} (h : QueuesEmpty s) (adp : Bool) (peer cls : Nat) {f : Pair → Pair}
    (hf : ∀ p, (f p).queue = p.queue) : QueuesEmpty (modPair s adp peer cls f) := by
  intro x hx
  rcases mem_smSet hx with rfl | hx
  · rw [hf]
    rcases smGet_mem ({} : Pair) s.twn.pairs (pairKey adp peer cls) with hnew | hold
    · exact congrArg Pair.queue hnew
    · exact h _ hold
  · exact h x hx

theorem nearest_self (n : Nat) : nearest n (BitVec.ofNat 16 n) = n := by simp [nearest, nearestInt]

/-- An ACK of the only frame that is not acknowledged acknowledges none: at most the limit rises. -/
theorem applyAck_oldest {s : State} {peer cls : Nat} {u : Unacked} (hqueues : QueuesEmpty s)
    (hunacked : (pairOf s false peer cls).unacked = [u]) (hnext : u.ext < (pairOf s false peer cls).txNext) (lim : W16) :
    applyAck s false peer cls (BitVec.ofNat 16 u.ext) lim = modPair s false peer cls (raiseLimit cls lim) := by
  have hdrain := drainAll_queuesEmpty (hqueues.modPair false peer cls fun p => (raiseLimit_waiting cls lim p).2)
  have hgone : ([u].filter fun v => decide (v.ext < min u.ext (pairOf s false peer cls).txNext)) = [] := by
    simp [Nat.min_eq_left (Nat.le_of_lt hnext)]
  simp only [applyAck, hunacked, List.head?_cons, Option.map_some, Option.getD_some, nearest_self, hgone, List.isEmpty_nil, if_true,
    ackEntries, List.filterMap_nil]
  exact hdrain

/-- A round of retransmission begins: the attempt is counted, the wait drawn, and the generator moves on (R332). -/
theorem startRound_begins {s : State} {adp : Bool} {peer cls : Nat} {u : Unacked} (hunacked : (pairOf s adp peer cls).unacked = [u])
    (hback : (pairOf s adp peer cls).backoff = none) (hlimit : (pairOf s adp peer cls).attempts < (lk s u.link).regs.retrylim.toNat)
    (start : Nat) :
    ∃ wait, startRound s adp peer cls start =
      modPair (modTwnR s fun t => { t with boseed := nextR s.twn.regs.boseed }) adp peer cls fun p =>
        { p with attempts := (pairOf s adp peer cls).attempts + 1, backoff := some (wait, start) } := by
  simp only [startRound, hunacked, hback, Option.isSome_none, Bool.false_eq_true, if_false, if_neg (Nat.not_le.2 hlimit)]
  exact ⟨_, rfl⟩

/-- A NACK that names the only frame not acknowledged, with the reason SEQ, begins a round. -/
theorem takeNack_seq {s : State} {x : Rx} {u : Unacked} (named : Option Unacked) (hreason : tsAt x.frame 21 1 = 0)
    (hunacked : (pairOf s x.adp x.peer (tsAt x.frame 20 1)).unacked = [u]) (hseq : u.ext % 65536 = tsAt x.frame 24 2) :
    takeNack named s x = startRound s x.adp x.peer (tsAt x.frame 20 1) u.ext := by
  simp [takeNack, hreason, hunacked, hseq]

/-- What a round of retransmission goes by is the same in two states of a pair. -/
structure SameRound (p q : Pair) : Prop where
  unacked : q.unacked = p.unacked
  attempts : q.attempts = p.attempts
  backoff : q.backoff = p.backoff

theorem SameRound.trans {p q r : Pair} (h : SameRound p q) (k : SameRound q r) : SameRound p r :=
  ⟨k.unacked.trans h.unacked, k.attempts.trans h.attempts, k.backoff.trans h.backoff⟩

theorem raiseLimit_sameRound (cls : Nat) (lim : W16) (p : Pair) : SameRound p (raiseLimit cls lim p) := by
  unfold raiseLimit
  split <;> exact ⟨rfl, rfl, rfl⟩

theorem modPair_sameRound (s : State) (adp : Bool) (peer cls : Nat) {g : Pair → Pair} (hg : ∀ p, SameRound p (g p)) (b : Bool)
    (q d : Nat) : SameRound (pairOf s b q d) (pairOf (modPair s adp peer cls g) b q d) := by
  rw [pairOf_modPair]
  split
  · next hkey =>
    rw [pairOf, ← hkey]
    exact hg _
  · exact ⟨rfl, rfl, rfl⟩

/-- A NACK in sequence comes to its command's effect with its class's pair at the same point of its round, where a single frame is not
acknowledged and the NACK's ACK leaves it so. -/
theorem nack_taken {k : Fin 8} {f : Frame} {s : State} {c : Nat} {u : Unacked} (hseq : InSequence s k f)
    (ho : ownFrame 0x0C 0 f = true) (hc : tsAt f 20 1 = c) (hqueues : QueuesEmpty s)
    (hunacked : (pairOf s false f.src.toNat c).unacked = [u]) (hack : f.ack = BitVec.ofNat 16 u.ext)
    (hnext : u.ext < (pairOf s false f.src.toNat c).txNext) (act : State → Rx → State) :
    ∃ t, receive s k f false 0x0C 0 act = act t (received s k f) ∧
      SameRound (pairOf s false f.src.toNat c) (pairOf t false f.src.toNat c) ∧ t.lnk = s.lnk ∧ t.twn.regs = s.twn.regs ∧
      accesses t = accesses s := by
  have hacked := applyAck_oldest hqueues hunacked hnext f.crlim
  rw [← hack] at hacked
  have hlimit : ∀ p, (raiseLimit c f.crlim p).rxNext = p.rxNext := fun p => by
    unfold raiseLimit
    split <;> rfl
  have hcounted : ∀ p, SameRound p (counted (rxExt s f) p) := fun _ => ⟨rfl, rfl, rfl⟩
  refine ⟨_, receive_nack hseq ho hc hacked hlimit act, ?_, by simp only [modPair_rest, and_self]⟩
  exact (modPair_sameRound s _ _ _ (raiseLimit_sameRound c f.crlim) ..).trans (modPair_sameRound _ _ _ _ hcounted ..)

/-- A NACK in sequence that names the only frame not acknowledged, with the reason SEQ, begins a round in its class's pair. -/
theorem exec_nack_begins {k : Fin 8} {f : Frame} {s : State} {c : Nat} {u : Unacked} (hseq : InSequence s k f)
    (ho : ownFrame 0x0C 0 f = true) (hc : tsAt f 20 1 = c) (hreason : tsAt f 21 1 = 0) (hqueues : QueuesEmpty s)
    (hunacked : (pairOf s false f.src.toNat c).unacked = [u]) (hnamed : u.ext % 65536 = tsAt f 24 2)
    (hack : f.ack = BitVec.ofNat 16 u.ext) (hback : (pairOf s false f.src.toNat c).backoff = none)
    (hnext : u.ext < (pairOf s false f.src.toNat c).txNext)
    (hlimit : (pairOf s false f.src.toNat c).attempts < (lk s u.link).regs.retrylim.toNat) :
    ∃ t, exec (.nack k f false) s = .next t ∧
      (pairOf t false f.src.toNat c).attempts = (pairOf s false f.src.toNat c).attempts + 1 ∧
      (pairOf t false f.src.toNat c).backoff.isSome = true ∧ (pairOf t false f.src.toNat c).unacked = [u] ∧
      t.twn.regs.boseed = nextR s.twn.regs.boseed := by
  obtain ⟨t, hreceive, hround, hlnk, hregs, hacc⟩ := nack_taken (s := s.begin []) hseq ho hc hqueues hunacked hack hnext
    (takeNack (nackedFrame (s.begin []) f))
  have hwaits : (pairOf t false f.src.toNat c).unacked = [u] := hround.unacked.trans hunacked
  obtain ⟨wait, hbegins⟩ := startRound_begins (s := t) hwaits (hround.backoff.trans hback)
    (by rw [hround.attempts, lk, hlnk]; exact hlimit) u.ext
  have hnack : takeNack (nackedFrame (s.begin []) f) t (received (s.begin []) k f) = startRound t false f.src.toNat c u.ext :=
    hc ▸ takeNack_seq _ hreason (hc.symm ▸ hwaits) hnamed
  rw [hnack, hbegins] at hreceive
  have hexec : exec (.nack k f false) s = .next (command [] s fun s => receive s k f false 0x0C 0 (takeNack (nackedFrame s f))) := rfl
  rw [command_of_noAccesses (f := fun s => receive s k f false 0x0C 0 (takeNack (nackedFrame s f))) (hreceive ▸ hacc)] at hexec
  have hpair := (pairOf_modPair (modTwnR t fun x => { x with boseed := nextR t.twn.regs.boseed }) false false f.src.toNat f.src.toNat
    c c fun p => { p with attempts := (pairOf t false f.src.toNat c).attempts + 1, backoff := some (wait, u.ext) }).trans (if_pos rfl)
  rw [← hreceive] at hpair
  refine ⟨_, hexec, (congrArg Pair.attempts hpair).trans (congrArg (· + 1) hround.attempts),
    (congrArg (·.backoff.isSome) hpair :), (congrArg Pair.unacked hpair).trans hwaits, ?_⟩
  exact (congrArg (·.twn.regs.boseed) hreceive).trans (congrArg (nextR ·.boseed) hregs)

/-! ### PROBE (R342) -/

theorem protect_header (s : State) (ext : Nat) (f : Frame) :
    (protect s ext f).ftype = f.ftype ∧ (protect s ext f).dst = f.dst ∧ (protect s ext f).tspec = f.tspec := by
  unfold protect
  dsimp only
  split <;> exact ⟨rfl, rfl, rfl⟩

/-- A PROBE frame for which there is credit leaves on the link named, and what it asks or answers is its first field. -/
theorem sendProbe_sent {s : State} {peer : Nat} {k : Fin 8} (hcredit : maySend s false peer 0 (some k) = true)
    (hup : linkUp s k = true) (op : Nat) :
    ∃ g, (sendProbe s false peer k op).sent = s.sent ++ [(k, g)] ∧ g.ftype = 0x0D ∧ g.dst = BitVec.ofNat 8 peer ∧
      g.tspec = fitTo 12 (leBytes 1 op ++ leBytes 1 k.1) := by
  rw [sendProbe, if_pos hcredit]
  unfold sendNow
  extract_lets p f queued clean once
  have hlanes : linkUp clean k = true := hup
  rw [if_neg (by decide), show once.sent = s.sent ++ [(k, f)] by simp only [once, transmit, hlanes, if_true]; rfl]
  exact ⟨f, rfl, protect_header ..⟩

theorem sendProbe_accesses (s : State) (adp : Bool) (peer : Nat) (k : Fin 8) (op : Nat) :
    accesses (sendProbe s adp peer k op) = accesses s := by
  unfold sendProbe
  split
  · exact (congrArg Settlement.accesses (sendNow_journalOnly ..) :)
  · rfl

/-- A ROUTE byte that has moved names its alternate link as its link. -/
theorem routeLink_moved (n : Nat) (j : Fin 8) : routeLink (BitVec.ofNat 8 (n * 16 + 8 + j.1)) = some j := by
  have hbit : bit (BitVec.ofNat 8 (n * 16 + 8 + j.1)) 3 = true := by
    have hodd : (n * 16 + 8 + j.1) / 2 ^ 3 % 2 = 1 := by omega
    rw [bit, BitVec.getLsbD_ofNat, Nat.testBit_eq_decide_div_mod_eq, hodd]
    rfl
  exact (if_pos hbit).trans (congrArg some (Fin.ext (by simp only [BitVec.toNat_ofNat]; omega)))

theorem bit_setBit_cleared {w : Nat} (x : BitVec w) (i : Nat) : bit (setBit x i false) i = false := by
  by_cases hi : i < w
  · have hone : (BitVec.ofNat w (2 ^ i)).getLsbD i = true := by
      rw [BitVec.getLsbD_ofNat, Nat.testBit_two_pow_self, decide_eq_true hi, Bool.and_self]
    simp only [setBit, Bool.false_eq_true, if_false, BitVec.getLsbD_and, BitVec.getLsbD_not, hone, Bool.not_true, Bool.and_false]
  · exact BitVec.getLsbD_of_ge _ _ (Nat.le_of_not_lt hi)

/-- With nothing waiting, a route that moves to its alternate link resends nothing and is probed no more. -/
theorem reroute_moves {s : State} {peer : Fin 64} {j : Fin 8} (hn : NoneWaiting s)
    (halt : routeAlt (vget s.twn.regs.route peer) = some j) :
    routeLink (vget (reroute s peer).twn.regs.route peer) = some j ∧ bit (reroute s peer).twn.probing peer.1 = false ∧
      accesses (reroute s peer) = accesses s := by
  generalize hreroute : reroute s peer = t
  rw [reroute, halt] at hreroute
  dsimp -zeta only at hreroute
  extract_lets old routed moved resent at hreroute
  have hmoved : NoneWaiting moved := by
    intro x hx
    obtain ⟨y, hy, rfl⟩ := List.mem_map.1 hx
    obtain ⟨hunacked, hqueue⟩ := hn y hy
    split <;> simp [hunacked, hqueue]
  have hresent : resent = moved :=
    List.foldlRecOn (motive := (· = moved)) moved.twn.pairs _ rfl fun t ht x hx => by
      simp [resend, (hmoved x hx).1, ht]
  rw [hresent, drainAll_none hmoved] at hreroute
  subst hreroute
  exact ⟨(congrArg routeLink (vget_vset_self ..)).trans (routeLink_moved _ j), bit_setBit_cleared .., rfl⟩

/-! ### The obligation -/

section
variable {k : Fin 8} {f : Frame} {s : State} (hseq : InSequence s k f) (hn : NoneWaiting s)
include hseq hn

theorem exec_vup_waits (ho : ownFrame 8 0 f = true) (hstep : (VMsg.ofFrame f).step = s.vrd.regs.vstep)
    (hchild : bit s.vrd.regs.vchild f.src.toNat = true) (hown : s.vrd.own = none) (hlost : bit s.twn.lost f.src.toNat = false)
    (htaken : takenOver s f.src.toNat = false) (hfirst : ∀ x ∈ s.vrd.vups, x.1 ≠ f.src.toNat) :
    ∃ t, exec (.vup k f false) s = .next t ∧ t.vrd.vups = s.vrd.vups ++ [(f.src.toNat, VMsg.ofFrame f)] ∧
      t.vrd.regs = s.vrd.regs ∧ t.host = s.host := by
  obtain ⟨ps, -, hexec⟩ := frame_taken (i := .vup k f false) hseq hn ho (by decide) rfl
  have hwaits : takeVup (withPairs s ps) f.src.toNat (VMsg.ofFrame f) = _ :=
    takeVup_waits hstep hfirst hlost htaken hchild hown
  exact ⟨_, hexec (congrArg accesses hwaits), (congrArg (·.vrd.vups) hwaits :), (congrArg (·.vrd.regs) hwaits :),
    (congrArg State.host hwaits :)⟩

theorem exec_vup_again (ho : ownFrame 8 0 f = true) (hstep : (VMsg.ofFrame f).step = s.vrd.regs.vstep)
    (hagain : ∃ x ∈ s.vrd.vups, x.1 = f.src.toNat) :
    ∃ t, exec (.vup k f false) s = .next t ∧ t.vrd.vups = s.vrd.vups ∧ t.vrd.regs.vseqerr = satAdd s.vrd.regs.vseqerr 1 := by
  obtain ⟨ps, -, hexec⟩ := frame_taken (i := .vup k f false) hseq hn ho (by decide) rfl
  have hcounts : takeVup (withPairs s ps) f.src.toNat (VMsg.ofFrame f) = vseqerr (withPairs s ps) := takeVup_again hstep hagain
  exact ⟨_, hexec (congrArg accesses hcounts), (congrArg (·.vrd.vups) hcounts :), (congrArg (·.vrd.regs.vseqerr) hcounts :)⟩

/-- A verdict frame by which a verdict is applied, at an instance without shards. -/
theorem exec_applies {i : Instr} {code : Nat} {act : State → Rx → State} {m : VMsg} (ho : ownFrame code 0 f = true)
    (hcode : code ≠ 0x0C) (hexec : exec i s = .next (command [] s fun s => receive s k f false code 0 act))
    (hact : ∀ ps, act (withPairs s ps) (received s k f) = applyVerdict (withPairs s ps) m) (hshard : s.shard = [])
    (hevals : s.vrd.evals = []) (hflip : s.vrd.flipping = none) :
    ∃ ps u, VerdictApplied (withPairs s ps) u m ∧ exec i s = .next { u with hostBad := [], who := none, rsv := false } := by
  obtain ⟨ps, -, hends⟩ := frame_taken hseq hn ho hcode hexec
  have happlied := applyVerdict_applied (s := withPairs s ps) m hshard hevals hflip
  rw [hact] at hends
  exact ⟨ps, _, happlied, hends happlied.accesses⟩

theorem exec_credit_raises (ho : ownFrame 0x0B 0 f = true) (hlen : 12 ≤ f.plen.toNat) (c : Fin 3)
    (hnewer : newer (creditLim f c.1) ((pairOf s false f.src.toNat c.1).limit c.1) = true) :
    ∃ t, exec (.credit k f false) s = .next t ∧ (pairOf t false f.src.toNat c.1).txLim = some (creditLim f c.1) ∧ t.lnk = s.lnk := by
  obtain ⟨ps, ht, hexec⟩ := frame_taken (i := .credit k f false) hseq hn ho (by decide) rfl
  obtain ⟨hlnk, hacc⟩ := takeCredit_rest ht.noneWaiting (received s k f)
  have hlim : creditLim (received s k f).frame c.1 = creditLim f c.1 := congrArg (BitVec.ofNat 16) (leAt_take (by omega))
  have hpair := takeCredit_pair ht.noneWaiting (received s k f) c
  rw [hlim] at hpair
  generalize takeCredit (withPairs s ps) (received s k f) = u at *
  have hrises : newer (creditLim f c.1) ((pairOf (withPairs s ps) false f.src.toNat c.1).limit c.1) = true := by
    rw [(ht.pair_sends ..).2]
    exact hnewer
  exact ⟨_, hexec hacc, (congrArg Pair.txLim hpair).trans (raiseLimit_newer hrises), hlnk⟩

theorem exec_probe_answered (ho : ownFrame 0x0D 0 f = true) (hop : tsAt f 20 1 = 0)
    (hcredit : maySend s false f.src.toNat 0 (some k) = true) :
    ∃ t g, exec (.probe k f false) s = .next t ∧ t.sent = s.sent ++ [(k, g)] ∧ g.ftype = 0x0D ∧ g.dst = f.src ∧ tsAt g 20 1 = 1 := by
  obtain ⟨ps, ht, hexec⟩ := frame_taken (i := .probe k f false) hseq hn ho (by decide) rfl
  have hup : linkUp s k = true := by
    have hhears := hseq.1
    simp only [linkHears, Bool.and_eq_true] at hhears
    exact hhears.1.1.1
  obtain ⟨g, hsent, htype, hdst, hts⟩ :=
    sendProbe_sent (s := withPairs s ps) ((ht.maySend_verdict ..).trans hcredit) hup 1
  have hanswers : takeProbe (withPairs s ps) (received s k f) = sendProbe (withPairs s ps) false f.src.toNat k 1 := if_pos hop
  refine ⟨_, g, hexec ?_, (congrArg State.sent hanswers).trans hsent, htype, ?_, ?_⟩
  · rw [hanswers]
    exact sendProbe_accesses ..
  · simpa using hdst
  · rw [tsAt, hts]
    rfl

theorem exec_probe_moves (ho : ownFrame 0x0D 0 f = true) (hop : tsAt f 20 1 = 1) {j : Fin 8}
    (hprobing : bit s.twn.probing f.src.toNat = true) (halt : routeAlt (routeOf s f.src.toNat) = some j) :
    ∃ t, exec (.probe k f false) s = .next t ∧ routeLink (routeOf t f.src.toNat) = some j ∧
      bit t.twn.probing f.src.toNat = false := by
  obtain ⟨ps, ht, hexec⟩ := frame_taken (i := .probe k f false) hseq hn ho (by decide) rfl
  have hpeer : f.src.toNat < 64 := Decidable.byContradiction fun hge => by
    rw [routeOf, dif_neg hge] at halt
    cases halt
  rw [routeOf, dif_pos hpeer] at halt
  obtain ⟨hroute, hdone, hacc⟩ := reroute_moves (s := withPairs s ps) (peer := ⟨f.src.toNat, hpeer⟩) ht.noneWaiting halt
  have hmoves : takeProbe (withPairs s ps) (received s k f) = reroute (withPairs s ps) ⟨f.src.toNat, hpeer⟩ := by
    have hanswer : ¬ tsAt (received s k f).frame 20 1 = 0 := fun h => absurd (hop.symm.trans h) Nat.one_ne_zero
    exact (if_neg hanswer).trans ((dif_pos hpeer).trans (if_pos hprobing))
  rw [hmoves] at hexec
  exact ⟨_, hexec hacc, (congrArg routeLink (dif_pos hpeer)).trans hroute, hdone⟩

end

/-- Settles O56: each frame in sequence comes to its command's own effect, in a state that differs from the one before it in the link
layer's pairs alone; of VDN and VACK, what applying a verdict leaves without shards. -/
theorem verdictFrames : Obligations.VerdictFrames := by
  unfold Obligations.VerdictFrames
  intro k f s hseq _ _ peer m
  refine ⟨fun hn ho hstep _ hchild hown hlost htaken => ⟨?_, ?_⟩, fun hn hshard hevals _ hflip =>
    ⟨fun ho hstep hparent _ hsize hchild => ?_, fun x ho hformed hstep _ hchildren hdep hlost htaken => ?_⟩,
    fun c hn ho => exec_credit_raises hseq hn ho (c := c), fun c u ho hc hreason hqueues hunacked hnamed hack hback hnext hlimit => ?_,
    fun hn ho => ⟨exec_probe_answered hseq hn ho, fun _ hop => exec_probe_moves hseq hn ho hop⟩⟩
  · exact exec_vup_waits hseq hn ho hstep hchild hown hlost htaken
  · exact exec_vup_again hseq hn ho hstep
  · obtain ⟨ps, u, happlied, hexec⟩ := exec_applies (i := .vdn k f false) (m := m) hseq hn ho (by decide) rfl
      (fun ps => takeVdn_leaf (s := withPairs s ps) hstep (congrArg BitVec.toNat hparent.symm) hsize hchild) hshard hevals hflip
    exact ⟨_, hexec, happlied.vstep.trans (congrArg (· + 1) hstep), happlied.closed, happlied.entry.commit, happlied.entry.step,
      happlied.host⟩
  · have hopen : x.step = BitVec.ofNat 32 (tsAt f 20 4) := by rw [← hstep, BitVec.ofNat_toNat, BitVec.setWidth_eq]
    obtain ⟨ps, u, happlied, hexec⟩ := exec_applies (i := .vack k f false) (m := x) hseq hn ho (by decide) rfl
      (fun ps => takeVack_deputy (s := withPairs s ps) hformed hopen hchildren (congrArg BitVec.toNat hdep) hlost htaken) hshard
      hevals hflip
    exact ⟨_, hexec, happlied.vstep, happlied.formed, happlied.entry.commit⟩
  · exact exec_nack_begins hseq ho hc hreason hqueues hunacked hnamed hack hback hnext hlimit

end Sys2Proof.Machine.VerdictFrame

/-! SUPPORT. For O18, O52, O57 and O58: what a frame sent or kept waiting changes. -/

namespace Sys2Proof.Machine.FrameSent

open Sys2Proof.Machine.Settlement Sys2Proof.Machine.ShardState Sys2Proof.Machine.VerdictFrame

/-! ### Frames sent (R329, R332) -/

/-- The states differ at most in what the link layer's pairs hold and in the frames sent. -/
def SendsOnly (s t : State) : Prop := t = { s with twn := { s.twn with pairs := t.twn.pairs }, sent := t.sent }

namespace SendsOnly
variable {s t u : State}

theorem refl (s : State) : SendsOnly s s := rfl

theorem trans (h : SendsOnly s t) (k : SendsOnly t u) : SendsOnly s u := by
  unfold SendsOnly at *
  rw [k, h]

theorem foldl {α : Type} {g : State → α → State} (h : ∀ s x, SendsOnly s (g s x)) (l : List α) (s : State) :
    SendsOnly s (l.foldl g s) :=
  List.foldlRecOn (motive := SendsOnly s) l g (refl s) fun _ ht x _ => ht.trans (h _ x)

theorem twn (h : SendsOnly s t) : t.twn = { s.twn with pairs := t.twn.pairs } := (congrArg State.twn h :)
theorem vrd (h : SendsOnly s t) : t.vrd = s.vrd := (congrArg State.vrd h :)
theorem glb (h : SendsOnly s t) : t.glb = s.glb := (congrArg State.glb h :)
theorem hdrs (h : SendsOnly s t) : t.hdrs = s.hdrs := (congrArg State.hdrs h :)
theorem shard (h : SendsOnly s t) : t.shard = s.shard := (congrArg State.shard h :)
theorem host (h : SendsOnly s t) : t.host = s.host := (congrArg State.host h :)
theorem cp (h : SendsOnly s t) : t.cp = s.cp := (congrArg State.cp h :)
theorem accesses (h : SendsOnly s t) : accesses t = accesses s := (congrArg Settlement.accesses h :)

theorem transmit (s : State) (k : Fin 8) (f : Frame) : SendsOnly s (transmit s k f) := by
  unfold Machine.transmit
  split <;> rfl

theorem modPair (s : State) (adp : Bool) (peer cls : Nat) (f : Pair → Pair) : SendsOnly s (modPair s adp peer cls f) := rfl

theorem sendNow (s : State) (adp : Bool) (peer cls : Nat) (k : Fin 8) (ftype : Nat) (ts payload : List Byte) :
    SendsOnly s (sendNow s adp peer cls k ftype ts payload) := by
  unfold Machine.sendNow
  extract_lets p f queued clean once
  have honce : SendsOnly s once := .trans (t := clean) rfl (.transmit ..)
  split
  · exact honce.trans (.transmit ..)
  · exact honce

theorem sendVia (s : State) (via : Option (Fin 8)) (adp : Bool) (peer cls ftype : Nat) (ts payload : List Byte) :
    SendsOnly s (sendVia s via adp peer cls ftype ts payload) := by
  unfold Machine.sendVia
  dsimp only
  split
  · exact .refl s
  · split
    · split
      · exact .sendNow ..
      · exact .modPair ..
    · exact .modPair ..

theorem sendJoin (s : State) (via : Option (Fin 8)) (peer op cause vsub : Nat) (step : W32) :
    SendsOnly s (sendJoin s via peer op cause vsub step) := .sendVia ..

theorem sendTakeover (s : State) (peer num op : Nat) : SendsOnly s (sendTakeover s peer num op) := .sendVia ..

end SendsOnly

/-! ### What an interrupt changes (R446 to R448) -/

/-- An interrupt source raised changes its pending bit, and a message is issued or held. -/
theorem raiseInt_rest (s : State) (i : Nat) : raiseInt s i =
    { s with glb := { s.glb with intpnd := setBit s.glb.intpnd i true }, pwr := (raiseInt s i).pwr, txns := (raiseInt s i).txns } := by
  unfold raiseInt sendMsg
  dsimp only
  split
  · split <;> rfl
  · rfl

end Sys2Proof.Machine.FrameSent

/-! SUPPORT. For O52 and O58: what giving a peer up leaves, where no write is under way to it and it holds nothing. -/

namespace Sys2Proof.Machine.PeerLoss

open Sys2Proof.Machine.TileAttempt Sys2Proof.Machine.Settlement Sys2Proof.Machine.VerdictStep Sys2Proof.Machine.VerdictFrame
  Sys2Proof.Machine.FrameSent

theorem fenceEnd_rest (s : State) (n : Fin 8) : fenceEnd s n = { s with slt := (fenceEnd s n).slt } := by
  unfold fenceEnd
  split <;> rfl

/-- With no write under way to the peer, what is discarded shows in the pairs, the reads asked for and the salters that have waited
for writes. -/
theorem discardFor_rest {s : State} {peer : Nat} (hwrites : writesTo s peer = []) :
    ∃ slt rfail rdreqs pairs, discardFor s peer =
      { s with slt := slt, rfail := rfail, twn := { s.twn with rdreqs := rdreqs, pairs := pairs } } := by
  unfold discardFor
  extract_lets ws asked failed dropped
  have hws : ws = [] := hwrites
  have hfences : ∀ t : State, (List.finRange 8).foldl fenceEnd t = { t with slt := ((List.finRange 8).foldl fenceEnd t).slt } := fun t =>
    List.foldlRecOn (motive := fun u => u = { t with slt := u.slt }) (List.finRange 8) fenceEnd rfl fun u hu n _ => by
      rw [fenceEnd_rest, hu]
  rw [hws, List.foldl_nil, hfences dropped]
  exact ⟨_, _, _, _, rfl⟩

theorem dropHolder_none {s : State} (h : s.twn.holds = []) (peer : Nat) : dropHolder s peer = s := by simp [dropHolder, h]

/-! ### A peer given up (R343) -/

/-- The peer marked as lost. -/
def marked (s : State) (peer : Nat) : State :=
  modTwn s fun t =>
    { t with lost := setBit t.lost peer true, probing := setBit t.probing peer false, await := setBit t.await peer false }

/-- The peer lost and PEERLOST raised, before the tree of verdicts is looked at. -/
def told (s : State) (peer : Nat) : State := raiseInt (dropHolder (discardFor (marked s peer) peer) peer) srcPeerLost

/-- A peer that has been given up counts as lost and is neither probed nor awaited, and PEERLOST is pending; the instance's own place
in the tree and its verdict are as they were. -/
structure GivenUp (s t : State) (peer : Nat) : Prop where
  lost : bit t.twn.lost peer = true
  probing : bit t.twn.probing peer = false
  pending : bit t.glb.intpnd srcPeerLost = true
  jstate : t.twn.regs.jstate = s.twn.regs.jstate
  regs : t.vrd.regs = s.vrd.regs
  formed : t.vrd.formed = s.vrd.formed
  own : t.vrd.own = s.vrd.own
  accesses : accesses t = accesses s

/-- What the loss of a peer leads to in the tree of verdicts does not concern the instance: it is not JOINED, or the peer is neither
its parent nor its child and its own verdict is not under way (R310, R346). -/
def Unrelated (s : State) (peer : Nat) : Prop :=
  s.twn.regs.jstate ≠ .joined ∨
    (s.vrd.formed = none ∧ s.vrd.own = none ∧ s.vrd.regs.vparent.toNat ≠ peer ∧ bit s.vrd.regs.vchild peer = false)

/-- Once a peer is lost, the tree of verdicts goes on without it where it had a place in it (R310, R346). -/
theorem peerLost_eq {s : State} {peer : Nat} (hlost : bit s.twn.lost peer = false) :
    peerLost s peer = if (told s peer).twn.regs.jstate ≠ .joined then told s peer
      else if (told s peer).vrd.regs.vparent.toNat = peer then parentLost (told s peer)
      else if isMaster (told s peer) && (told s peer).vrd.regs.vdep.toNat = peer then
        if (told s peer).vrd.formed.isSome then takeNextdep (told s peer)
        else tryVerdict (modVrd (told s peer) fun v => { v with takeDep := true })
      else if (children (told s peer)).contains peer then tryVerdict (told s peer)
      else told s peer := if_neg (by rw [hlost]; decide)

section
variable {s : State} {peer : Nat} (hpeer : peer < 64) (hholds : s.twn.holds = []) (hwrites : writesTo s peer = [])
include hpeer hholds hwrites

theorem told_givenUp : GivenUp s (told s peer) peer := by
  obtain ⟨slt, rfail, rdreqs, pairs, hdiscarded⟩ := discardFor_rest (s := marked s peer) hwrites
  have htold : told s peer = raiseInt { marked s peer with
      slt := slt, rfail := rfail, twn := { (marked s peer).twn with rdreqs := rdreqs, pairs := pairs } } srcPeerLost := by
    rw [told, hdiscarded, dropHolder_none (s := { marked s peer with
      slt := slt, rfail := rfail, twn := { (marked s peer).twn with rdreqs := rdreqs, pairs := pairs } }) hholds peer]
  have hpending := raiseInt_pending { marked s peer with
      slt := slt, rfail := rfail, twn := { (marked s peer).twn with rdreqs := rdreqs, pairs := pairs } }
    (by decide : srcPeerLost < 96)
  have hlost := bit_setBit_self s.twn.lost hpeer
  have hprobing := bit_setBit_cleared s.twn.probing peer
  rw [htold]
  rw [raiseInt_rest] at hpending ⊢
  exact ⟨hlost, hprobing, hpending, rfl, rfl, rfl, rfl, rfl⟩

theorem peerLost_givenUp (hlost : bit s.twn.lost peer = false) (hunrelated : Unrelated s peer) :
    GivenUp s (peerLost s peer) peer := by
  have hgiven := told_givenUp hpeer hholds hwrites
  rw [peerLost_eq hlost]
  generalize told s peer = t at *
  rcases hunrelated with hidle | ⟨hformed, hown, hparent, hchild⟩
  · rw [if_pos (hgiven.jstate.symm ▸ hidle)]
    exact hgiven
  · have hnotchild : (children t).contains peer = false := by simp [children, hgiven.regs, hchild]
    have hdeputy : tryVerdict (modVrd t fun v => { v with takeDep := true }) = modVrd t fun v => { v with takeDep := true } :=
      tryVerdict_waits (hgiven.own.trans hown)
    rw [hnotchild, hgiven.regs, if_neg hparent, hgiven.formed, hformed, hdeputy]
    split
    · exact hgiven
    · split
      · exact ⟨hgiven.lost, hgiven.probing, hgiven.pending, hgiven.jstate, hgiven.regs, hgiven.formed, hgiven.own, hgiven.accesses⟩
      · exact hgiven

end

end Sys2Proof.Machine.PeerLoss

/-! SUPPORT. Settles O52 (PairTimersRun): what each timer of a pair or of a route leaves. -/

namespace Sys2Proof.Machine.PairTimer

open Sys2Proof.Machine.Settlement Sys2Proof.Machine.ShardState Sys2Proof.Machine.VerdictFrame Sys2Proof.Machine.FrameSent
  Sys2Proof.Machine.PeerLoss

theorem pairOf_modPair_self (s : State) (adp : Bool) (peer cls : Nat) (f : Pair → Pair) :
    pairOf (modPair s adp peer cls f) adp peer cls = f (pairOf s adp peer cls) := (pairOf_modPair ..).trans (if_pos rfl)

/-! ### RTO_EXPIRY (R332, R333) -/

section
variable {s : State} {peer : Fin 64} {cls : Fin 3} {u : Unacked} (hunacked : (pairOf s false peer.1 cls.1).unacked = [u])
include hunacked

theorem exec_rtoExpiry (hback : (pairOf s false peer.1 cls.1).backoff = none) :
    exec (.rtoExpiry peer cls) s = .next (startRound s false peer.1 cls.1 u.ext) := by
  change execRtoExpiry peer cls s = _
  simp [execRtoExpiry, pairWith, hunacked, hback]

/-- The wait of a round is drawn on top of the one that its attempt begins with. -/
theorem startRound_draws (hback : (pairOf s false peer.1 cls.1).backoff = none)
    (hlimit : (pairOf s false peer.1 cls.1).attempts < (lk s u.link).regs.retrylim.toNat) (start : Nat) :
    ∃ draw, startRound s false peer.1 cls.1 start =
      modPair (modTwnR s fun t => { t with boseed := nextR s.twn.regs.boseed }) false peer.1 cls.1 fun p =>
        { p with
          attempts := (pairOf s false peer.1 cls.1).attempts + 1
          backoff := some ((lk s u.link).regs.bobase.toNat * 2 ^ min (pairOf s false peer.1 cls.1).attempts 6 + draw, start) } := by
  simp only [startRound, hunacked, hback, Option.isSome_none, Bool.false_eq_true, if_false, if_neg (Nat.not_le.2 hlimit),
    Nat.add_sub_cancel]
  exact ⟨_, rfl⟩

/-! ### RETRANSMIT (R332, R342) -/

/-- A pair whose round's wait has ended. -/
def waited (p : Pair) : Pair := { p with backoff := none }

theorem exec_retransmit {w : Nat} (hback : (pairOf s false peer.1 cls.1).backoff = some (w, u.ext)) :
    exec (.retransmit peer cls) s =
      .next (resend (modPair s false peer.1 cls.1 waited) peer.1 [u]) := by
  change execRetransmit peer cls s = _
  simp only [execRetransmit, pairWith, hback, hunacked, Option.isSome_some, if_true, Option.map_some, Option.getD_some,
    List.filter_cons, List.filter_nil, Nat.le_refl, decide_true]
  rfl

end

/-- A frame whose route has not lost its link is resent on it. -/
theorem resend_one {s : State} {peer : Nat} {u : Unacked} (hup : linkUp s u.link = true) (hroute : heldByRoute s peer u.link = false) :
    resend s peer [u] =
      modLkR { s with sent := s.sent ++ [(u.link, u.frame)] } u.link fun r => { r with retx := satAdd r.retx 1 } := by
  simp [resend, hroute, transmit, hup]

/-! ### CREDIT_TIMER (R331) -/

theorem exec_creditTimer {s : State} {peer : Fin 64} {cls : Fin 3} (hdirty : (pairOf s false peer.1 cls.1).dirty = true) :
    exec (.creditTimer peer cls) s = .next (creditNow s false peer.1) := by
  change execCreditTimer peer cls s = _
  simp [execCreditTimer, pairWith, hdirty]

/-- A pair whose acknowledgements a frame has carried. -/
def clean (p : Pair) : Pair := { p with dirty := false }

/-- Once a CREDIT frame has carried them, no class has a changed acknowledgement. -/
theorem creditNow_clean (s : State) (adp : Bool) (peer : Nat) (c : Fin 3) :
    (pairOf (creditNow s adp peer) adp peer c.1).dirty = false := by
  have hkey : ∀ a b, pairKey adp peer a = pairKey adp peer b ↔ a = b := fun a b => by simp [pairKey]
  obtain ⟨t, hleft⟩ : ∃ t, creditNow s adp peer =
      modPair (modPair (modPair t adp peer 0 clean) adp peer 1 clean) adp peer 2 clean := ⟨_, rfl⟩
  rw [hleft]
  simp only [pairOf_modPair, hkey]
  match c with
  | 0 => rfl
  | 1 => rfl
  | 2 => rfl

/-! ### PROBE_TIMER (R342) -/

theorem exec_probeTimer {s : State} {peer : Fin 64} {k : Fin 8} (hprobing : bit s.twn.probing peer.1 = true)
    (halt : routeAlt (vget s.twn.regs.route peer) = some k) :
    exec (.probeTimer peer) s = .next (sendProbe s false peer.1 k 0) := by
  change execProbeTimer peer s = _
  simp only [execProbeTimer, hprobing, halt]

/-! ### ROUTE_FAIL (R342, R343) -/

/-- The route's failure gives the peer up. -/
theorem exec_routeFail {s : State} {peer : Fin 64} (hprobing : bit s.twn.probing peer.1 = true)
    (hacc : accesses (peerLost (s.begin []) peer.1) = noAccesses) :
    exec (.routeFail peer) s = .next { peerLost (s.begin []) peer.1 with hostBad := [], who := none, rsv := false } :=
  congrArg _ ((if_pos hprobing).trans (command_of_noAccesses (f := (peerLost · peer.1)) hacc))

/-! ### TWUNCLAIMED (R235) -/

theorem exec_twunclaimed {s : State} {k : Fin 8} (hheld : ∃ h ∈ s.twn.held, h.link = k ∧ h.frame.ftype = 1) :
    exec (.twunclaimed k) s = .next (modLkR s k fun r => { r with twunclaimed := true }) := by
  have hany : (s.twn.held.any fun h => decide (h.link = k ∧ h.frame.ftype = 1)) = true := by simpa using hheld
  exact congrArg _ (if_pos hany)

/-! ### The obligation -/

/-- Settles O52: of each timer, the state its command ends in; of ROUTE_FAIL, what giving the peer up leaves. -/
theorem pairTimersRun : Obligations.PairTimersRun := by
  unfold Obligations.PairTimersRun
  intro peer cls k u s p
  refine ⟨fun hunacked hback hlimit => ?_, fun w hunacked hback hup hroute => ?_, fun hdirty _ => ?_,
    fun hprobing halt hup hcredit => ?_, fun hprobing hlost hidle hholds hwrites => ?_, exec_twunclaimed⟩
  · obtain ⟨draw, hround⟩ := startRound_draws hunacked hback hlimit u.ext
    exact ⟨_, _, (exec_rtoExpiry hunacked hback).trans (congrArg _ hround), pairOf_modPair_self .., Nat.le_add_right .., rfl, rfl, rfl⟩
  · have hexec := exec_retransmit hunacked hback
    rw [resend_one (s := modPair s false peer.1 cls.1 waited) hup hroute] at hexec
    exact ⟨_, hexec, rfl, congrArg (·.regs.retx) (lk_modLk ..),
      (pairOf_modPair_self s false peer.1 cls.1 waited :)⟩
  · exact ⟨_, exec_creditTimer hdirty, creditNow_clean s false peer.1⟩
  · obtain ⟨g, hsent, htype, hdst, -⟩ := sendProbe_sent hcredit hup 0
    refine ⟨_, g, exec_probeTimer hprobing halt, hsent, htype, ?_⟩
    rw [hdst, BitVec.toNat_ofNat, Nat.mod_eq_of_lt (by omega)]
  · have hgiven := peerLost_givenUp (s := s.begin []) peer.2 hholds hwrites hlost (.inl hidle)
    exact ⟨_, exec_routeFail hprobing hgiven.accesses, hgiven.lost, hgiven.probing, hgiven.pending⟩

end Sys2Proof.Machine.PairTimer

/-! SUPPORT. Settles O53 (BadFramesCounted): how each frame's command receives it, and what a dropped frame and a stranger leave. -/

namespace Sys2Proof.Machine.BadFrame

open Sys2Proof.Machine.Settlement Sys2Proof.Machine.ShardState

/-! ### A frame's command -/

/-- The command for frames of a type and operation receives them as such; what it does with an accepted one may go by the state it
begins in. The type travels in a class of frames, as all but LCTL do (R327). -/
structure Receives (c : Bool → Instr) (k : Fin 8) (f : Frame) (code op : Nat) : Prop where
  exec_eq : ∃ (act : State → State → Rx → State) (cakes : State → Frame → Bool), ∀ lost s,
    exec (c lost) s = .next (command [] s fun s => receive s k f lost code op (act s) (cakes := cakes))
  routed : typeClass code ≠ some 3

section
variable {c : Bool → Instr} {k : Fin 8} {f : Frame} {code op : Nat} {s : State}

theorem otherFrame_of_own (ho : ownFrame code op f = true) : otherFrame code op f = false := by simp [otherFrame, ho]

theorem ftype_of_own (ho : ownFrame code op f = true) : f.ftype.toNat = code := by
  simp only [ownFrame, Bool.and_eq_true, beq_iff_eq] at ho
  exact ho.1

/-! ### A frame that is lost or breaks its FCRC (R326, R344) -/

theorem receive_broken {lost : Bool} {act : State → Rx → State} {cakes : State → Frame → Bool} (hears : linkHears s k = true)
    (ho : ownFrame code op f = true) (hbroken : lost = true ∨ f.fcrc ≠ frameCrc f) :
    receive s k f lost code op act (cakes := cakes) = dropFrame s k lost := by
  have hdrop : (lost || decide (f.fcrc ≠ frameCrc f)) = true := by simpa using hbroken
  simp only [receive, otherFrame_of_own ho, hears, hdrop, Bool.not_true, Bool.or_false, Bool.false_eq_true, if_false, if_true]

/-- A link's registers with one frame more dropped, and code words counted. -/
def countDrop (unc corr : Nat) (r : LnkRegs) : LnkRegs :=
  { r with crcerr := satAdd r.crcerr 1, fecunc := satAdd r.fecunc unc, feccorr := satAdd r.feccorr corr }

theorem satAdd_zero {w : Nat} (x : BitVec w) : satAdd x 0 = x := by
  have := x.isLt
  rw [satAdd, Nat.add_zero, Nat.min_eq_left (by omega), BitVec.ofNat_toNat, BitVec.setWidth_eq]

/-- What a dropped frame leaves: its link's registers count it, those of FEC code words of a lost one alone, and beside them free
values are taken at most. -/
structure FrameDropped (s t : State) (k : Fin 8) (lost : Bool) : Prop where
  counts : ∃ x y : W32, lk t k = { lk s k with regs := countDrop x.toNat y.toNat (lk s k).regs }
  kept : lost = false → (lk t k).regs.fecunc = (lk s k).regs.fecunc ∧ (lk t k).regs.feccorr = (lk s k).regs.feccorr
  others : ∀ j, j ≠ k → lk t j = lk s j
  rest : t = { s with lnk := t.lnk, free := t.free }

theorem dropFrame_dropped (s : State) (k : Fin 8) (lost : Bool) : FrameDropped s (dropFrame s k lost) k lost := by
  generalize hs : (modLkR s k fun r => { r with crcerr := satAdd r.crcerr 1 }) = t
  have hlk : lk t k = { lk s k with regs := { (lk s k).regs with crcerr := satAdd (lk s k).regs.crcerr 1 } } :=
    hs ▸ lk_modLk ..
  have hothers : ∀ j, j ≠ k → lk t j = lk s j := fun j hj => hs ▸ lk_modLk_ne s hj.symm _
  have hrest : t = { s with lnk := t.lnk, free := t.free } := hs ▸ rfl
  cases lost with
  | false =>
    have hdrop : dropFrame s k false = t := hs
    rw [hdrop]
    refine ⟨⟨0, 0, ?_⟩, fun _ => by rw [hlk]; exact ⟨rfl, rfl⟩, hothers, hrest⟩
    rw [hlk, countDrop, show (0 : W32).toNat = 0 from rfl, satAdd_zero, satAdd_zero]
  | true =>
    have hdrop : dropFrame s k true = countFec t k := congrArg (countFec · k) hs
    rw [hdrop]
    refine ⟨⟨Config.freeBits 32 t.free, Config.freeBits 32 (t.free + 1), (lk_modLk ..).trans ?_⟩, nofun,
      fun j hj => (lk_modLk_ne _ hj.symm _).trans (hothers j hj), ?_⟩
    · rw [show lk { t with free := t.free + 1 + 1 } k = lk t k from rfl, hlk]
      rfl
    · rw [hrest]
      rfl

/-- A frame that a link hears and drops. -/
theorem Receives.broken (h : Receives c k f code op) {lost : Bool} (hears : linkHears s k = true) (ho : ownFrame code op f = true)
    (hbroken : lost = true ∨ f.fcrc ≠ frameCrc f) :
    exec (c lost) s = .next { dropFrame (s.begin []) k lost with hostBad := [], who := none, rsv := false } := by
  obtain ⟨act, cakes, hexec⟩ := h.exec_eq
  have hdrop : receive (s.begin []) k f lost code op (act (s.begin [])) (cakes := cakes) = dropFrame (s.begin []) k lost :=
    receive_broken hears ho hbroken
  have hacc : accesses (dropFrame (s.begin []) k lost) = noAccesses := by
    rw [(dropFrame_dropped (s.begin []) k lost).rest]
    rfl
  rw [hexec, command_of_noAccesses (f := fun s => receive s k f lost code op (act s) (cakes := cakes)) (hdrop ▸ hacc), hdrop]

/-! ### A stranger of another domain (R334, R344) -/

theorem strangerOf_domain (ho : ownFrame code op f = true) (hclass : typeClass code = some (fClass f)) (hrouted : typeClass code ≠ some 3)
    (hjoined : s.twn.regs.jstate = .joined) (hdom : f.dom ≠ s.twn.regs.domain) : strangerOf s f = some .domain := by
  have hc : fClass f ≠ 3 := fun h => hrouted (h ▸ hclass)
  simp [strangerOf, ftype_of_own ho, hclass, hc, hjoined, hdom]

theorem receive_stranger {act : State → Rx → State} {cakes : State → Frame → Bool} {z : Stranger} (hears : linkHears s k = true)
    (ho : ownFrame code op f = true) (hcrc : f.fcrc = frameCrc f) (hfree : bufferFree s k f = true) (hz : strangerOf s f = some z) :
    receive s k f false code op act (cakes := cakes) = stranger s k f z := by
  simp only [receive, otherFrame_of_own ho, hears, Bool.not_true, Bool.or_false, Bool.false_eq_true, if_false, ← hcrc, ne_eq,
    not_true_eq_false, decide_false, hfree, if_true, hz]

/-- What a stranger of another domain leaves: it is counted and captured, and an interrupt may be raised. -/
structure StrangerCounted (s t : State) (k : Fin 8) : Prop where
  strdom : (lk t k).regs.strdom = satAdd (lk s k).regs.strdom 1
  captured : (lk t k).regs.scapV = true
  twn : t.twn = s.twn
  vrd : t.vrd = s.vrd
  host : t.host = s.host
  sent : t.sent = s.sent
  accesses : accesses t = accesses s

theorem StrangerCounted.raiseInt {t : State} (h : StrangerCounted s t k) (i : Nat) : StrangerCounted s (raiseInt t i) k := by
  unfold Machine.raiseInt sendMsg
  dsimp only
  split
  · split <;> exact ⟨h.strdom, h.captured, h.twn, h.vrd, h.host, h.sent, h.accesses⟩
  · exact ⟨h.strdom, h.captured, h.twn, h.vrd, h.host, h.sent, h.accesses⟩

theorem stranger_domain (s : State) (k : Fin 8) (f : Frame) : StrangerCounted s (stranger s k f .domain) k := by
  unfold stranger
  extract_lets free counted
  have hcounted : StrangerCounted s counted k := by
    refine ⟨?_, ?_, rfl, rfl, rfl, rfl, rfl⟩
    · simp only [counted, modLkR, lk_modLk]
      split <;> rfl
    · simp only [counted, modLkR, lk_modLk]
      split
      · assumption
      · rfl
  split
  · exact hcounted.raiseInt _
  · exact hcounted

/-- A whole frame of another domain that finds a buffer. -/
theorem Receives.foreign (h : Receives c k f code op) (hears : linkHears s k = true) (ho : ownFrame code op f = true)
    (hcrc : f.fcrc = frameCrc f) (hfree : bufferFree s k f = true) (hclass : typeClass code = some (fClass f))
    (hjoined : s.twn.regs.jstate = .joined) (hdom : f.dom ≠ s.twn.regs.domain) :
    exec (c false) s = .next { stranger (s.begin []) k f .domain with hostBad := [], who := none, rsv := false } := by
  obtain ⟨act, cakes, hexec⟩ := h.exec_eq
  have hz : strangerOf (s.begin []) f = some .domain := strangerOf_domain ho hclass h.routed hjoined hdom
  have hcount : receive (s.begin []) k f false code op (act (s.begin [])) (cakes := cakes) = stranger (s.begin []) k f .domain :=
    receive_stranger hears ho hcrc hfree hz
  have hacc : accesses (stranger (s.begin []) k f .domain) = noAccesses := (stranger_domain ..).accesses
  rw [hexec, command_of_noAccesses (f := fun s => receive s k f false code op (act s) (cakes := cakes)) (hcount ▸ hacc), hcount]

end

/-! ### The obligation -/

/-- Settles O53: each of the listed commands receives its frame, and a frame is judged broken or foreign before its command's own
effect. -/
theorem badFramesCounted : Obligations.BadFramesCounted := by
  unfold Obligations.BadFramesCounted
  intro k f lost s c code op hrow hears ho
  have hreceives : Receives c k f code op := by
    simp only [List.mem_cons, Prod.mk.injEq] at hrow
    repeat' obtain ⟨rfl, rfl, rfl⟩ | hrow := hrow
    all_goals exact ⟨⟨_, _, fun _ _ => rfl⟩, by decide⟩
  refine ⟨fun hbroken => ?_, fun hcrc hfree hclass hjoined hdom => ?_⟩
  · have hleft := dropFrame_dropped (s.begin []) k lost
    obtain ⟨x, y, hcounts⟩ := hleft.counts
    exact ⟨_, x, y, hreceives.broken hears ho hbroken, hcounts, hleft.kept, hleft.others, (congrArg State.twn hleft.rest :),
      (congrArg State.vrd hleft.rest :), (congrArg State.host hleft.rest :), (congrArg State.glb hleft.rest :),
      (congrArg State.sent hleft.rest :)⟩
  · have hleft := stranger_domain (s.begin []) k f
    exact ⟨_, hreceives.foreign hears ho hcrc hfree hclass hjoined hdom, hleft.strdom, hleft.captured, hleft.twn, hleft.vrd,
      hleft.host, hleft.sent⟩

end Sys2Proof.Machine.BadFrame

/-! SUPPORT. Settles O18 (LoneMasterJoinsAndLeaves) and O57 (JoinAndTwinFrames): what becoming JOINED leaves at an instance without
children, and the effect of each frame of joining, of takeover and of the twin. -/

namespace Sys2Proof.Machine.JoinTwin

open Sys2Proof.Machine.TileAttempt Sys2Proof.Machine.Settlement Sys2Proof.Machine.ShardState Sys2Proof.Machine.VerdictStep
  Sys2Proof.Machine.VerdictFrame Sys2Proof.Machine.FrameSent Sys2Proof.Machine.PeerLoss

/-! ### JOINED (R345, R450) -/

/-- An instance without children that has become JOINED with an open step. -/
structure JoinedAlone (s t : State) (step : W32) : Prop where
  twn : t.twn = { s.twn with rejoin := false, regs := { s.twn.regs with jstate := .joined, jerr := 0 } }
  vstep : t.vrd.regs.vstep = step
  ready : s.glb.bstage = 7 → t.glb.bstage = 8 ∧ bit t.glb.intpnd srcBoot = true
  cp : t.cp = s.cp
  accesses : accesses t = accesses s

theorem becomeJoined_alone {s : State} (hchildren : children s = []) (step : W32) : JoinedAlone s (becomeJoined s step) step := by
  unfold becomeJoined
  extract_lets registered opened ready
  have hnone : children ready = [] := by
    have hvchild : ready.vrd.regs.vchild = s.vrd.regs.vchild := by
      unfold ready
      split
      · rw [raiseInt_rest]
        rfl
      · rfl
    rw [children, hvchild]
    exact hchildren
  rw [hnone, List.foldl_nil]
  unfold ready
  split
  · have hpending := raiseInt_pending (modGlb opened fun g => { g with bstage := 8 }) (by decide : srcBoot < 96)
    rw [raiseInt_rest] at hpending ⊢
    exact ⟨rfl, rfl, fun _ => ⟨rfl, hpending⟩, rfl, rfl⟩
  · next hstage => exact ⟨rfl, rfl, fun h => absurd h hstage, rfl, rfl⟩

/-! ### JOIN and LEAVE (R345, R354) -/

theorem exec_join {s : State} (h : Answers s .twn) : exec .join s = .next (joinCommand (answer s cpOk)) := cpWrite_answers h _

theorem exec_leave {s : State} (h : Answers s .twn) : exec .leave s = .next (leaveCommand (answer s cpOk)) := cpWrite_answers h _

/-- A JOIN that is not refused opens a new session. -/
theorem joinCommand_opens {s : State} (hidle : s.twn.regs.jstate = .idle) (hvrd : pageState s .vrd ≠ .stopped)
    (hprot : s.twn.regs.prot = 0) (hok : protOk s.sec.lcs 0 = true) :
    joinCommand s = joinStep (newSession s (s.twn.regs.session + 1)) := by
  simp [joinCommand, hidle, hvrd, hprot, hok]

/-- A JOINING master of a domain of one is JOINED at once. -/
theorem joinStep_alone {s : State} (hjoining : s.twn.regs.jstate = .joining) (hmaster : s.vrd.regs.vparent = 0xFF)
    (hchildren : children s = []) (hsize : s.vrd.regs.vsize = 1) : joinStep s = becomeJoined s s.vrd.regs.vstep := by
  simp [joinStep, hjoining, allReqs, subtreeSize, wantedSize, isMaster, hmaster, hchildren, hsize]

/-- Settles O18: JOIN by what becoming JOINED leaves of the new session's state, LEAVE by its registers. -/
theorem loneMasterJoinsAndLeaves : Obligations.LoneMasterJoinsAndLeaves := by
  unfold Obligations.LoneMasterJoinsAndLeaves
  intro s hans
  refine ⟨fun hidle hvrd hok hprot hmaster hchild hsize hstage => ?_, fun hjoined hstage => ?_, fun hout => ?_⟩
  · have hopens := joinCommand_opens (s := answer s cpOk) hidle hvrd hprot hok
    have hchildren : children (newSession (answer s cpOk) (s.twn.regs.session + 1)) = [] := children_none hchild
    have hleft := becomeJoined_alone hchildren s.vrd.regs.vstep
    have hexec := (exec_join hans).trans (congrArg _ (hopens.trans (joinStep_alone rfl hmaster hchildren hsize)))
    obtain ⟨hready, hboot⟩ := hleft.ready hstage
    exact ⟨_, hexec, hleft.cp, (congrArg (·.regs.jstate) hleft.twn :), (congrArg (·.regs.session) hleft.twn :), hready, hboot,
      (congrArg Twn.pairs hleft.twn :), (congrArg Twn.sess hleft.twn :)⟩
  · have hleaves : leaveCommand (answer s cpOk) = modGlb (modTwnR (answer s cpOk) fun r => { r with jstate := .idle }) fun g =>
        { g with bstage := if g.bstage = 8 then 7 else g.bstage } := if_neg fun h => h hjoined
    exact ⟨_, (exec_leave hans).trans (congrArg _ hleaves), rfl, rfl, if_pos hstage, rfl, rfl⟩
  · exact (exec_leave hans).trans (congrArg _ (if_pos hout))

/-! ### A frame that is taken (R328 to R331) -/

/-- A frame in sequence with an operation of its own, from no pair with waiting frames, ends as its command's own effect leaves it. -/
theorem operation_taken {s : State} {k : Fin 8} {f : Frame} {code op : Nat} {act : State → Rx → State} {i : Instr}
    (h : InSequence s k f) (hn : NoneWaiting s) (ho : ownFrame code op f = true) (hcode : code ≠ 0x0C)
    (hexec : exec i s = .next (command [] s fun s => receive s k f false code op act)) :
    ∃ ps, ∀ t, act (withPairs s ps) (received s k f) = t → accesses t = noAccesses →
      exec i s = .next { t with hostBad := [], who := none, rsv := false } := by
  have htype : f.ftype ≠ 0x0C := by
    intro hf
    simp only [ownFrame, hf, Bool.and_eq_true, beq_iff_eq] at ho
    exact hcode ho.1.symm
  obtain ⟨ps, t, rfl, -, -, hreceive⟩ := receive_inSeq (s := s.begin []) (code := code) (op := op) h hn ho htype act
    (fun _ _ => false) fun _ _ => rfl
  refine ⟨ps, fun t ht hacc => hexec.trans (congrArg _ ?_)⟩
  subst ht
  rw [command_of_noAccesses (f := fun s => receive s k f false code op act) (hreceive ▸ hacc), hreceive]
  rfl

/-! ### REQ, DONE and REFUSE (R345) -/

/-- The parent's state with the REQ of a child noted. -/
def noted (s : State) (peer vsub : Nat) : State :=
  modTwn s fun t => { t with reqs := (t.reqs.filter fun x => x.1 ≠ peer) ++ [(peer, vsub)], lost := setBit t.lost peer false }

/-- The REQ of an only child that makes the subtree whole is noted and answered with DONE. -/
theorem takeReq_accepts {s : State} {peer vsub : Nat} (hjoined : s.twn.regs.jstate = .joined) (hchildren : children s = [peer])
    (htaken : takenOver s peer = false) (hsize : 1 + vsub = wantedSize s) :
    takeReq s peer vsub = sendJoin (noted s peer vsub) none peer 1 0 0 s.vrd.regs.vstep := by
  have hchild : bit s.vrd.regs.vchild peer = true := by
    have hmem : peer ∈ children s := by simp [hchildren]
    exact (List.mem_filter.1 hmem).2
  have hreq : (noted s peer vsub).twn.reqs.find? (fun x => x.1 = peer) = some (peer, vsub) := by
    have hnew : (s.twn.reqs.filter fun x => x.1 ≠ peer).find? (fun x => x.1 = peer) = none := by simp [List.find?_eq_none]
    exact List.find?_append.trans (by rw [hnew]; simp)
  have hsubtree : subtreeSize (noted s peer vsub) = wantedSize (noted s peer vsub) := by
    simp only [subtreeSize, show children (noted s peer vsub) = [peer] from hchildren, List.filterMap_cons, hreq]
    exact hsize
  have hgood : ¬ (allReqs (noted s peer vsub) && decide (subtreeSize (noted s peer vsub) ≠ wantedSize (noted s peer vsub))) = true := by
    simp [hsubtree]
  unfold takeReq
  rw [if_neg (by simp [htaken]), if_neg (by simp [hchild])]
  exact (if_pos hjoined).trans (if_neg hgood)

theorem leNat_lt (bs : List Byte) : leNat bs < 256 ^ bs.length := by
  induction bs with
  | nil => exact Nat.one_pos
  | cons b t ih =>
    have hb := b.isLt
    rw [leNat, List.length_cons, Nat.pow_succ]
    omega

theorem tsAt_lt (f : Frame) (byte n : Nat) : tsAt f byte n < 256 ^ n :=
  Nat.lt_of_lt_of_le (leNat_lt _) (Nat.pow_le_pow_right (by decide) (List.length_take_le ..))

theorem takeDone_parent {s : State} {peer : Nat} (hjoining : s.twn.regs.jstate = .joining) (hparent : s.vrd.regs.vparent.toNat = peer)
    (step : W32) : takeDone s peer step = becomeJoined s step := (if_pos hjoining).trans (if_pos hparent)

/-- A JOIN refused, with the cause in JERR and BOOT pending (R454). -/
theorem joinRefused_leaves (s : State) (err : Nat) :
    (joinRefused s err).twn.regs.jstate = .refused ∧ (joinRefused s err).twn.regs.jerr = BitVec.ofNat 4 err ∧
      bit (joinRefused s err).glb.intpnd srcBoot = true ∧ (joinRefused s err).vrd = s.vrd ∧
      accesses (joinRefused s err) = accesses s := by
  have hpending := raiseInt_pending (modTwnR s fun r => { r with jstate := .refused, jerr := BitVec.ofNat 4 err })
    (by decide : srcBoot < 96)
  unfold joinRefused
  rw [raiseInt_rest] at hpending ⊢
  exact ⟨rfl, rfl, hpending, rfl, rfl⟩

/-- The alternate parent's state with a child gained (R346). -/
def gained (s : State) (peer : Nat) : State := modVrdR s fun v => { v with vchild := setBit v.vchild peer true }

/-! ### ANNOUNCE and RELEASE (R352, R353) -/

/-- An instance that keeps no holds forgets a number: its pairs, its session and its loss. -/
theorem forgetNumber_rest {s : State} (hholds : s.twn.holds = []) (num : Nat) : ∃ pairs held sess lost,
    forgetNumber s num = { s with twn := { s.twn with pairs := pairs, held := held, sess := sess, lost := lost } } := by
  rw [forgetNumber, dropHolder_none (s := resetPairs s num) hholds num]
  exact ⟨_, _, _, _, rfl⟩

/-- No other member answers for a number. -/
def unadopt (num : Nat) (t : Twn) : Twn := { t with adoptedBy := t.adoptedBy.filter fun y => y.1 ≠ num }

/-- Another member answers for an announced number from here on, and the number is reached as that member is. -/
theorem takeAnnounce_leaves {s : State} (hholds : s.twn.holds = []) (x : Rx) :
    (takeAnnounce s x).twn.adoptedBy =
        (s.twn.adoptedBy.filter fun y => y.1 ≠ tsAt x.frame 20 1) ++ [(tsAt x.frame 20 1, x.peer)] ∧
      (tsAt x.frame 20 1 < 64 → routeOf (takeAnnounce s x) (tsAt x.frame 20 1) = routeOf s x.peer) ∧
      accesses (takeAnnounce s x) = accesses s := by
  obtain ⟨pairs, held, sess, lost, hforgot⟩ := forgetNumber_rest hholds (tsAt x.frame 20 1)
  unfold takeAnnounce
  extract_lets num route forgot routed adopted
  have hsends := SendsOnly.sendTakeover adopted x.peer num 1
  have hrouted : routed.twn.adoptedBy = s.twn.adoptedBy ∧ accesses routed = accesses s := by
    unfold routed forgot
    rw [hforgot]
    split <;> exact ⟨rfl, rfl⟩
  refine ⟨?_, fun hnum => ?_, hsends.accesses.trans hrouted.2⟩
  · rw [hsends.twn, ← hrouted.1]
    rfl
  · have hroute : adopted.twn.regs.route = vset forgot.twn.regs.route ⟨num, hnum⟩ route := by
      unfold adopted routed
      rw [dif_pos hnum]
      rfl
    rw [routeOf, dif_pos hnum, hsends.twn]
    exact (congrArg (vget · ⟨num, hnum⟩) hroute).trans (vget_vset_self ..)

/-! ### The twin's mirror and state (R348, R349, R351) -/

theorem fitTo_of_le {n : Nat} {bs : List Byte} (h : n ≤ bs.length) : fitTo n bs = bs.take n := by
  rw [fitTo, Nat.sub_eq_zero_of_le h, List.replicate_zero, List.append_nil]

theorem byteAt_eq_leAt (bs : List Byte) : byteAt bs 0 = leAt bs 0 1 := by cases bs <;> rfl

theorem applyEntry_activate (s : State) {e : List Byte} (hkind : byteAt e 0 = 1) : applyEntry s e = resPut s 0x740000 e := by
  simp only [applyEntry, JEntry.kind, hkind]

section
variable {s : State} {x : Rx} (htwen : s.twn.regs.twen = true) (htwin : s.twn.regs.twin.toNat = x.peer)
include htwen htwin

/-- A frame of the twin is not dropped as another member's. -/
theorem of_twin : (!s.twn.regs.twen || decide (x.peer ≠ s.twn.regs.twin.toNat)) = false := by simp [htwen, htwin]

/-- An entry of kind 1 is kept as the twin's ACTIVATE entry. -/
theorem takeJrnl_activate (hone : tsAt x.frame 24 1 = 1) (hkind : leAt x.frame.payload 0 1 = 1) (hlen : 128 ≤ x.frame.payload.length) :
    takeJrnl s x = resPut (modTwn s fun t => { t with jin := BitVec.ofNat 32 (tsAt x.frame 20 4 + 1) }) 0x740000
      (x.frame.payload.take 128) := by
  have hentry : byteAt (fitTo 128 x.frame.payload) 0 = 1 := by
    rw [fitTo_of_le hlen, byteAt_eq_leAt, leAt_take (by decide), hkind]
  have happlied := applyEntry_activate (modTwn s fun t => { t with jin := BitVec.ofNat 32 (tsAt x.frame 20 4 + 1) }) hentry
  unfold takeJrnl
  dsimp only
  rw [of_twin (s := s) (x := x) htwen htwin, hone, if_neg (by decide), if_neg (by decide), ← fitTo_of_le hlen]
  exact happlied

/-- A history block goes to the copy of the mirror that is not valid. -/
theorem takeJrnl_block (hnone : tsAt x.frame 24 1 = 0) (hblock : tsAt x.frame 25 2 < 256) :
    takeJrnl s x = modTwn (resPut s (mirrorOff (mirrorNext s) + 4096 * tsAt x.frame 25 2) (fitTo 4096 x.frame.payload))
      fun t => { t with mirrorBlk := t.mirrorBlk + 1 } := by
  unfold takeJrnl
  dsimp only
  rw [of_twin (s := s) (x := x) htwen htwin, hnone]
  simp only [Bool.false_eq_true, if_false, if_true, if_neg (Nat.not_le.2 hblock)]

end

theorem mirrorOff_next (s : State) :
    mirrorOff (mirrorNext s) = if s.twn.mirror = some false then 0x600000 else 0x500000 := by
  unfold mirrorNext
  rcases s.twn.mirror with _ | _ | _ <;> rfl

/-- What the twin's state in an HBEAT frame says of the twin. -/
def heard (state : Nat) (t : Twn) : Twn :=
  match state with
  | 0 => { t with twinFinal := false, twinPfail := false }
  | 1 => { t with twinPfail := true }
  | 2 => { t with twinFinal := true }
  | _ => t

/-! ### The obligation -/

section
variable {k : Fin 8} {f : Frame} {s : State} (hseq : InSequence s k f) (hn : NoneWaiting s)
include hseq hn

theorem exec_joinReq_accepts (ho : ownFrame 0x0E 0 f = true) (hjoined : s.twn.regs.jstate = .joined)
    (hchildren : children s = [f.src.toNat]) (htaken : takenOver s f.src.toNat = false) (hsize : 1 + tsAt f 22 1 = wantedSize s) :
    ∃ t, exec (.joinReq k f false) s = .next t ∧ t.twn.regs.jstate = .joined ∧ (f.src.toNat, tsAt f 22 1) ∈ t.twn.reqs ∧
      t.vrd = s.vrd := by
  obtain ⟨ps, hexec⟩ := operation_taken (i := .joinReq k f false) hseq hn ho (by decide) rfl
  have haccepts := takeReq_accepts (s := withPairs s ps) hjoined hchildren htaken hsize
  have hsends := SendsOnly.sendJoin (noted (withPairs s ps) f.src.toNat (tsAt f 22 1)) none f.src.toNat 1 0 0 s.vrd.regs.vstep
  have hreqs := congrArg ((f.src.toNat, tsAt f 22 1) ∈ ·.reqs) hsends.twn
  exact ⟨_, hexec _ haccepts hsends.accesses, (congrArg (·.regs.jstate) hsends.twn).trans hjoined,
    hreqs.mpr (List.mem_append_right _ (List.mem_singleton_self _)), hsends.vrd⟩

theorem exec_joinDone_joins (ho : ownFrame 0x0E 1 f = true) (hjoining : s.twn.regs.jstate = .joining)
    (hparent : s.vrd.regs.vparent = f.src) (hchildren : children s = []) :
    ∃ t, exec (.joinDone k f false) s = .next t ∧ t.twn.regs.jstate = .joined ∧ t.vrd.regs.vstep.toNat = tsAt f 24 4 ∧
      t.twn.regs.jerr = 0 ∧ (s.glb.bstage = 7 → t.glb.bstage = 8 ∧ bit t.glb.intpnd srcBoot = true) := by
  obtain ⟨ps, hexec⟩ := operation_taken (i := .joinDone k f false) hseq hn ho (by decide) rfl
  have hleft := becomeJoined_alone (s := withPairs s ps) hchildren (BitVec.ofNat 32 (tsAt f 24 4))
  have hstep : (BitVec.ofNat 32 (tsAt f 24 4)).toNat = tsAt f 24 4 := Nat.mod_eq_of_lt (tsAt_lt f 24 4)
  exact ⟨_, hexec _ (takeDone_parent (s := withPairs s ps) hjoining (congrArg BitVec.toNat hparent) _) hleft.accesses,
    (congrArg (·.regs.jstate) hleft.twn :), (congrArg BitVec.toNat hleft.vstep).trans hstep, (congrArg (·.regs.jerr) hleft.twn :),
    hleft.ready⟩

theorem exec_joinRefuse_refuses (ho : ownFrame 0x0E 2 f = true) (hjoining : s.twn.regs.jstate = .joining)
    (hparent : s.vrd.regs.vparent = f.src) :
    ∃ t, exec (.joinRefuse k f false) s = .next t ∧ t.twn.regs.jstate = .refused ∧ t.twn.regs.jerr.toNat = tsAt f 21 1 % 16 ∧
      bit t.glb.intpnd srcBoot = true ∧ t.vrd = s.vrd := by
  obtain ⟨ps, hexec⟩ := operation_taken (i := .joinRefuse k f false) hseq hn ho (by decide) rfl
  have hmine : ((withPairs s ps).twn.regs.jstate = .joining && (withPairs s ps).vrd.regs.vparent.toNat = f.src.toNat) = true := by
    simp [withPairs, State.begin, hjoining, hparent]
  obtain ⟨hstate, herr, hpending, hvrd, hacc⟩ := joinRefused_leaves (withPairs s ps) (tsAt f 21 1)
  exact ⟨_, hexec _ (if_pos hmine) hacc, hstate, (congrArg BitVec.toNat herr).trans (BitVec.toNat_ofNat ..), hpending, hvrd⟩

theorem exec_joinReparent_gains (ho : ownFrame 0x0E 3 f = true) (hjoined : s.twn.regs.jstate = .joined) :
    ∃ t, exec (.joinReparent k f false) s = .next t ∧
      t.vrd = { s.vrd with regs := { s.vrd.regs with vchild := setBit s.vrd.regs.vchild f.src.toNat true } } := by
  obtain ⟨ps, hexec⟩ := operation_taken (i := .joinReparent k f false) hseq hn ho (by decide) rfl
  have hsends := SendsOnly.sendJoin (gained (withPairs s ps) f.src.toNat) (some k) f.src.toNat 1 0 0 s.vrd.regs.vstep
  have hjoins : ¬ (withPairs s ps).twn.regs.jstate ≠ .joined := fun h => h hjoined
  exact ⟨_, hexec (sendJoin (gained (withPairs s ps) f.src.toNat) _ _ _ _ _ _) (if_neg hjoins) hsends.accesses, hsends.vrd⟩

theorem exec_takeoverAnnounce_adopts (ho : ownFrame 0x0F 0 f = true) (hholds : s.twn.holds = []) :
    ∃ t, exec (.takeoverAnnounce k f false) s = .next t ∧
      t.twn.adoptedBy = (s.twn.adoptedBy.filter fun y => y.1 ≠ tsAt f 20 1) ++ [(tsAt f 20 1, f.src.toNat)] ∧
      (tsAt f 20 1 < 64 → routeOf t (tsAt f 20 1) = routeOf s f.src.toNat) := by
  obtain ⟨ps, hexec⟩ := operation_taken (i := .takeoverAnnounce k f false) hseq hn ho (by decide) rfl
  obtain ⟨hadopted, hroute, hacc⟩ := takeAnnounce_leaves (s := withPairs s ps) hholds (received s k f)
  have hends := hexec (takeAnnounce (withPairs s ps) (received s k f)) rfl hacc
  generalize takeAnnounce (withPairs s ps) (received s k f) = t at *
  exact ⟨_, hends, hadopted, hroute⟩

theorem exec_takeoverAnswer_strikes (ho : ownFrame 0x0F 1 f = true) :
    ∃ t, exec (.takeoverAnswer k f false) s = .next t ∧ t.twn.await = setBit s.twn.await f.src.toNat false ∧
      t.twn.adoptedBy = s.twn.adoptedBy := by
  obtain ⟨ps, hexec⟩ := operation_taken (i := .takeoverAnswer k f false) hseq hn ho (by decide) rfl
  exact ⟨_, hexec _ rfl rfl, rfl, rfl⟩

theorem exec_takeoverRelease_forgets (ho : ownFrame 0x0F 2 f = true) (hholds : s.twn.holds = []) :
    ∃ t, exec (.takeoverRelease k f false) s = .next t ∧
      t.twn.adoptedBy = s.twn.adoptedBy.filter fun y => y.1 ≠ tsAt f 20 1 := by
  obtain ⟨ps, hexec⟩ := operation_taken (i := .takeoverRelease k f false) hseq hn ho (by decide) rfl
  obtain ⟨pairs, held, sess, lost, hforgot⟩ :=
    forgetNumber_rest (s := modTwn (withPairs s ps) (unadopt (tsAt f 20 1))) hholds (tsAt f 20 1)
  have hsends := SendsOnly.sendTakeover (modTwn (forgetNumber (modTwn (withPairs s ps) (unadopt (tsAt f 20 1))) (tsAt f 20 1))
    fun t => { t with lost := setBit t.lost (tsAt f 20 1) true }) f.src.toNat (tsAt f 20 1) 1
  exact ⟨_, hexec _ rfl (hsends.accesses.trans (congrArg accesses hforgot :)),
    (congrArg Twn.adoptedBy hsends.twn).trans (congrArg (·.twn.adoptedBy) hforgot :)⟩

section
variable (htwen : s.twn.regs.twen = true) (htwin : s.twn.regs.twin.toNat = f.src.toNat)
include htwen htwin

theorem exec_jrnl_activate (ho : ownFrame 0x10 0 f = true) (hone : tsAt f 24 1 = 1)
    (hkind : leAt (f.payload.take f.plen.toNat) 0 1 = 1) (hlen : 128 ≤ (f.payload.take f.plen.toNat).length) :
    ∃ t, exec (.jrnl k f false) s = .next t ∧ t.twn.jin.toNat = (tsAt f 20 4 + 1) % 2 ^ 32 ∧
      t.res = memPut s.res 0x740000 ((f.payload.take f.plen.toNat).take 128) := by
  obtain ⟨ps, hexec⟩ := operation_taken (i := .jrnl k f false) hseq hn ho (by decide) rfl
  exact ⟨_, hexec _ (takeJrnl_activate (s := withPairs s ps) (x := received s k f) htwen htwin hone hkind hlen) rfl,
    BitVec.toNat_ofNat .., rfl⟩

theorem exec_jrnl_block (ho : ownFrame 0x10 0 f = true) (hnone : tsAt f 24 1 = 0) (hblock : tsAt f 25 2 < 256) :
    ∃ t, exec (.jrnl k f false) s = .next t ∧ t.twn.mirrorBlk = s.twn.mirrorBlk + 1 ∧
      t.res = memPut s.res ((if s.twn.mirror = some false then 0x600000 else 0x500000) + 4096 * tsAt f 25 2)
        (fitTo 4096 (f.payload.take f.plen.toNat)) := by
  obtain ⟨ps, hexec⟩ := operation_taken (i := .jrnl k f false) hseq hn ho (by decide) rfl
  refine ⟨_, hexec _ (takeJrnl_block (s := withPairs s ps) (x := received s k f) htwen htwin hnone hblock) rfl, rfl, ?_⟩
  rw [← mirrorOff_next s]
  rfl

theorem exec_hbeat_heard (ho : ownFrame 0x11 0 f = true) :
    ∃ t, exec (.hbeat k f false) s = .next t ∧ (∃ ps, t.twn = heard (tsAt f 24 1) { s.twn with pairs := ps }) ∧ t.res = s.res := by
  obtain ⟨ps, hexec⟩ := operation_taken (i := .hbeat k f false) hseq hn ho (by decide) rfl
  have htwin' := of_twin (s := withPairs s ps) (x := received s k f) htwen htwin
  exact ⟨_, hexec (modTwn (withPairs s ps) (heard (tsAt f 24 1))) (if_neg (by rw [htwin']; decide)) rfl, ⟨ps, rfl⟩, rfl⟩

end
end

/-- Settles O57: each frame in sequence comes to its command's own effect, which beside the pairs and what is sent is the effect
named. -/
theorem joinAndTwinFrames : Obligations.JoinAndTwinFrames := by
  unfold Obligations.JoinAndTwinFrames
  intro k f s hseq hn _
  dsimp only
  refine ⟨fun _ => ⟨fun ho hjoined hchildren htaken hsize => ?_, fun hjoining hparent hchildren => ⟨fun ho => ?_, fun ho => ?_⟩,
    fun ho hjoined => ?_, fun _ hholds => ⟨fun ho _ => ?_, fun ho => ?_, fun ho _ => ?_⟩⟩,
    fun _ htwen htwin => ⟨fun ho hone hkind hlen => ?_, fun ho hnone hblock => ?_, fun ho => ?_⟩⟩
  · exact exec_joinReq_accepts hseq hn ho hjoined hchildren htaken hsize
  · exact exec_joinDone_joins hseq hn ho hjoining hparent hchildren
  · exact exec_joinRefuse_refuses hseq hn ho hjoining hparent
  · exact exec_joinReparent_gains hseq hn ho hjoined
  · exact exec_takeoverAnnounce_adopts hseq hn ho hholds
  · exact exec_takeoverAnswer_strikes hseq hn ho
  · exact exec_takeoverRelease_forgets hseq hn ho hholds
  · exact exec_jrnl_activate hseq hn htwen htwin ho hone hkind hlen
  · exact exec_jrnl_block hseq hn htwen htwin ho hnone hblock
  · obtain ⟨t, hexec, ⟨ps, htwn⟩, hres⟩ := exec_hbeat_heard hseq hn htwen htwin ho
    refine ⟨t, hexec, fun h => ?_, fun h => ?_, fun h => ?_, hres⟩ <;> rw [htwn, h]
    · rfl
    · rfl
    · exact ⟨rfl, rfl⟩

end Sys2Proof.Machine.JoinTwin

/-! SUPPORT. Settles O58 (TakeoverRuns): what the beginning and the end of a takeover leave, what a release takes away, and the timers
around them. -/

namespace Sys2Proof.Machine.Takeover

open Sys2Proof.Machine.TileAttempt Sys2Proof.Machine.Settlement Sys2Proof.Machine.RakeWork Sys2Proof.Machine.ShardState
  Sys2Proof.Machine.VerdictStep Sys2Proof.Machine.VerdictFrame Sys2Proof.Machine.FrameSent Sys2Proof.Machine.PeerLoss

/-! ### The record of TWINLOST (R355, R357) -/

/-- The join and twin logic and the instance's number are as they were. -/
structure TwinKept (s t : State) : Prop where
  twn : t.twn = s.twn
  inst : t.glb.inst = s.glb.inst

theorem TwinKept.refl (s : State) : TwinKept s s := ⟨rfl, rfl⟩

theorem TwinKept.trans {s t u : State} (h : TwinKept s t) (k : TwinKept t u) : TwinKept s u :=
  ⟨k.twn.trans h.twn, k.inst.trans h.inst⟩

theorem eqPush_twinKept (s : State) (bs : List Byte) : TwinKept s (eqPush s bs) := by
  unfold eqPush
  dsimp only
  split <;> exact ⟨rfl, rfl⟩

theorem trace_twinKept (s : State) (kind : Nat) (p : PageId) (bs : List Byte) : TwinKept s (trace s kind p bs) := by
  unfold trace
  dsimp only
  split <;> exact ⟨rfl, rfl⟩

theorem raiseInt_twinKept (s : State) (i : Nat) : TwinKept s (raiseInt s i) := by
  rw [raiseInt_rest]
  exact ⟨rfl, rfl⟩

theorem wakeEvent_twinKept (s : State) : TwinKept s (wakeEvent s) := by
  unfold wakeEvent
  split
  · exact ⟨rfl, rfl⟩
  · exact ⟨rfl, rfl⟩
  · split <;> exact ⟨rfl, rfl⟩
  · exact .refl s

theorem recordOnly_twinKept (s : State) (p : PageId) (e : ErrIn) : TwinKept s (recordOnly s p e).2 := by
  unfold recordOnly
  extract_lets h armed inj c0 c1 noted
  split
  · exact ⟨rfl, rfl⟩
  · split
    extract_lets r entered fseq queued traced raised vrd pending
    have hraised : TwinKept traced raised := by
      unfold raised
      split
      · exact .refl _
      · exact raiseInt_twinKept ..
    have hpending : TwinKept raised pending := by
      unfold pending
      split <;> exact ⟨rfl, rfl⟩
    have hentered : TwinKept s entered := ⟨rfl, rfl⟩
    exact hentered.trans <| (eqPush_twinKept ..).trans <| (trace_twinKept ..).trans <| hraised.trans <| hpending.trans <|
      wakeEvent_twinKept _

/-- The class of an error before its page's record slots are looked at: ERRSEV raises it by one (R355). -/
def raisedClass (h : PageHdr) (e : ErrIn) : Nat :=
  if bit h.errsev e.cause then min 3 (e.cls.getD (defaultClass e.cause) + 1) else e.cls.getD (defaultClass e.cause)

theorem recordOnly_fst (s : State) (p : PageId) (e : ErrIn) {c : Nat} (hc : raisedClass (hdr s p) e = c) :
    (recordOnly s p e).1 = if c = 0 then 0 else (escalate (hdr s p) p e c).1 := by
  unfold recordOnly
  extract_lets h armed inj c0 c1 noted
  have hc1 : c1 = c := hc
  clear_value c1
  subst hc1
  split <;> rfl

theorem escalate_twn_inst (h : PageHdr) (e : ErrIn) : (escalate h .twn e 3).1 = 3 := by
  simp only [escalate, Bool.false_and, Bool.false_or, show (PageId.twn == PageId.glb) = false from rfl,
    show (PageId.twn == PageId.vrd) = false from rfl, Bool.false_eq_true, if_false]
  split <;> rfl

/-- TWINLOST is of class INST whatever ERRSEV and the record slots hold: no class lies above it. -/
theorem recordOnly_twinlost (s : State) {e : ErrIn} (hcls : e.cls = none) (hc : e.cause = cTwinlost) : (recordOnly s .twn e).1 = 3 := by
  have hclass : raisedClass (hdr s .twn) e = 3 := by
    simp only [raisedClass, hcls, hc, Option.getD_none]
    split <;> rfl
  rw [recordOnly_fst s .twn e hclass, if_neg (by decide), escalate_twn_inst]

/-- The loss of a twin is not answered by the loss of the instance (R351). -/
theorem recordErr_twinlost (s : State) {e : ErrIn} (hcls : e.cls = none) (hc : e.cause = cTwinlost) :
    recordErr s .twn e = (recordOnly s .twn e).2 := by
  rw [recordErr_eq, recordOnly_twinlost s hcls hc, hc]
  simp [respond, cTwinlost]

/-! ### The members awaited (R352) -/

theorem bit_setBit_true {w i : Nat} (x : BitVec w) (j : Nat) (hi : i < w) : bit (setBit x j true) i = (bit x i || decide (i = j)) := by
  rw [bit, setBit, if_pos rfl, BitVec.getLsbD_or, BitVec.getLsbD_ofNat, Nat.testBit_two_pow, decide_eq_true hi, Bool.true_and,
    bit, decide_eq_decide.2 eq_comm]

theorem bit_maskOf (ls : List Nat) {i : Nat} (hi : i < 64) : bit (maskOf ls) i = decide (i ∈ ls) := by
  have hfold : ∀ (ls : List Nat) (m : W64), bit (ls.foldl (fun m j => setBit m j true) m) i = (bit m i || decide (i ∈ ls)) := by
    intro ls
    induction ls with
    | nil => simp
    | cons j t ih => intro m; simp [ih, bit_setBit_true m j hi, Bool.or_assoc]
  simp [maskOf, hfold, bit]

/-- With no member lost, every other member but the number itself must answer about it. -/
theorem mem_answerers {s : State} (hlost : s.twn.lost = 0) (num i : Nat) :
    i ∈ answerers s num ↔ i ∈ otherMembers s ∧ i ≠ num := by
  simp [answerers, hlost, bit]

/-! ### The takeover begins (R352) -/

/-- A takeover that has begun: the twin's number is being adopted, and the members that must answer are awaited. -/
structure TakeoverBegun (s t : State) : Prop where
  tkstate : t.twn.regs.tkstate = .adopting
  tkNum : t.twn.tkNum = some s.twn.regs.twin.toNat
  await : t.twn.await = maskOf (answerers s s.twn.regs.twin.toNat)
  err : bit (hdr t .twn).err cTwinlost = true
  adopted : t.twn.regs.adopted = s.twn.regs.adopted
  host : t.host = s.host
  accesses : accesses t = accesses s

/-- The twin declared lost. -/
def declaredLost (s : State) : State := recordErr s .twn { cause := cTwinlost, detail := s.twn.regs.twin.toNat }

/-- The join and twin logic as it begins to adopt a number. -/
def adopt (num : Nat) (who : List Nat) (t : Twn) : Twn :=
  { t with tkNum := some num, tkShards := [], tkDirs := [], tkWork := false, await := maskOf who, releasing := false
           regs := { t.regs with tkstate := .adopting } }

/-- The number is the instance's own to answer for: its pairs, its holds and its session are gone. -/
def takeNumber (s : State) (num : Nat) (who : List Nat) : State :=
  modTwn (dropHolder (resetPairs (modTwn s (adopt num who)) num) num) fun t => { t with sess := smSet none t.sess num none }

theorem takeNumber_rest {s : State} (hholds : s.twn.holds = []) (num : Nat) (who : List Nat) : ∃ pairs held sess,
    takeNumber s num who = { s with twn := { adopt num who s.twn with pairs := pairs, held := held, sess := sess } } := by
  rw [takeNumber, dropHolder_none (s := resetPairs (modTwn s (adopt num who)) num) hholds num]
  exact ⟨_, _, _, rfl⟩

theorem startTakeover_eq {s : State} (hjoined : s.twn.regs.jstate = .joined) (htwen : s.twn.regs.twen = true)
    (hnone : s.twn.regs.tkstate = .none) :
    startTakeover s = (answerers (declaredLost s) s.twn.regs.twin.toNat).foldl
      (fun t p => sendTakeover t p s.twn.regs.twin.toNat 0)
      (takeNumber (declaredLost s) s.twn.regs.twin.toNat (answerers (declaredLost s) s.twn.regs.twin.toNat)) :=
  if_neg (by simp [hjoined, htwen, hnone])

theorem startTakeover_begins {s : State} (hjoined : s.twn.regs.jstate = .joined) (htwen : s.twn.regs.twen = true)
    (hnone : s.twn.regs.tkstate = .none) (hholds : s.twn.holds = []) : TakeoverBegun s (startTakeover s) := by
  rw [startTakeover_eq hjoined htwen hnone]
  generalize hnum : s.twn.regs.twin.toNat = num
  have hrecord : declaredLost s = (recordOnly s .twn { cause := cTwinlost, detail := s.twn.regs.twin.toNat }).2 :=
    recordErr_twinlost s rfl rfl
  have hkept : TwinKept s (declaredLost s) := hrecord ▸ recordOnly_twinKept ..
  have herr : Recorded s (declaredLost s) .twn cTwinlost := hrecord ▸ recordOnly_recorded ..
  have hacc : accesses (declaredLost s) = accesses s := hrecord ▸ accesses_recordOnly ..
  have hwho : answerers (declaredLost s) num = answerers s num := by
    simp only [answerers, otherMembers, hkept.twn, hkept.inst]
  rw [hwho]
  generalize declaredLost s = u at *
  obtain ⟨pairs, held, sess, htaken⟩ := takeNumber_rest (s := u) ((congrArg Twn.holds hkept.twn).trans hholds) num (answerers s num)
  have hsends := SendsOnly.foldl (fun t p => SendsOnly.sendTakeover t p num 0) (answerers s num)
    (takeNumber u num (answerers s num))
  generalize (answerers s num).foldl (fun t p => sendTakeover t p num 0) (takeNumber u num (answerers s num)) = t at *
  have htwn : t.twn = { adopt num (answerers s num) s.twn with pairs := t.twn.pairs, held := held, sess := sess } := by
    rw [hsends.twn, htaken, hkept.twn]
  have hhdrs : t.hdrs = u.hdrs := hsends.hdrs.trans (by rw [htaken])
  have hhost : t.host = u.host := hsends.host.trans (by rw [htaken])
  have hsame : accesses t = accesses u := hsends.accesses.trans (by rw [htaken]; rfl)
  clear hsends htaken
  subst hnum
  refine ⟨?_, ?_, ?_, ?_, ?_, hhost.trans herr.host, hsame.trans hacc⟩
  · rw [htwn]; rfl
  · rw [htwn]; rfl
  · rw [htwn]; rfl
  · rw [hdr_congr hhdrs]
    exact herr.bit_err (by decide)
  · rw [htwn]; rfl

/-- TKWAIT_EXPIRY, and FINAL_SILENCE once the twin has sent FINAL, declare the twin lost. -/
theorem exec_twinSilent {s : State} {c : Instr} (hc : c = .tkwaitExpiry ∨ (c = .finalSilence ∧ s.twn.twinFinal = true)) :
    exec c s = .next (command [] s startTakeover) := by
  rcases hc with rfl | ⟨rfl, hfinal⟩
  · rfl
  · exact congrArg _ (if_pos hfinal)

/-! ### The number is adopted (R352) -/

/-- The number adopted, with the key slots marked as loaded before and TAKEOVER pending (R352, R419). -/
theorem takeoverEnd_leaves (s : State) (num : Nat) :
    (takeoverEnd s num).twn.regs.adopted = BitVec.ofNat 8 num ∧ (takeoverEnd s num).twn.regs.tkstate = .done ∧
      bit (takeoverEnd s num).glb.intpnd srcTakeover = true ∧
      (∀ i, vget (takeoverEnd s num).sec.lk i = { vget s.sec.lk i with preAdopt := true }) ∧ (takeoverEnd s num).host = s.host ∧
      accesses (takeoverEnd s num) = accesses s := by
  unfold takeoverEnd
  extract_lets done marked
  have hpending := raiseInt_pending marked (by decide : srcTakeover < 96)
  rw [raiseInt_rest] at hpending ⊢
  exact ⟨rfl, rfl, hpending, fun i => vget_map .., rfl, rfl⟩

theorem exec_adopted {s : State} {num : Nat} (hstate : s.twn.regs.tkstate = .adopting) (hnum : s.twn.tkNum = some num)
    (hwork : s.twn.tkWork = true) (hawait : s.twn.await = 0) (hacc : accesses (takeoverEnd (s.begin []) num) = noAccesses) :
    exec (.adopted []) s = .next { takeoverEnd (s.begin []) num with hostBad := [], who := none, rsv := false } := by
  have hends : ∀ t : State, t.twn = s.twn →
      (let u := if t.twn.tkWork then t else takeoverWork t
       if u.twn.tkWork && u.twn.await == 0 && u.twn.regs.tkstate = .adopting then takeoverEnd u num else u) = takeoverEnd t num := by
    intro t ht
    simp [ht, hwork, hawait, hstate]
  change execAdopted [] s = _
  simp only [execAdopted, hstate, hnum]
  rw [command_of_noAccesses ((congrArg accesses (hends (s.begin []) rfl)).trans hacc), hends (s.begin []) rfl]

/-! ### RELEASE (R353) -/

/-- A service without a unit of its own writes to the block's own memory, no line of which is answered with an error. -/
theorem wrHost_service {s : State} {a : Nat} (hhere : Here s a) (hwho : s.who = none) (hbad : s.hostBad = []) (bs : List Byte) :
    wrHost s a bs = (true, { s with host := memPut s.host (hostAddr s a) bs }) := by
  have hfree : noCredit s = false := by
    unfold noCredit
    rw [hwho]
    rfl
  have hcredit : useCredit s = s := by simp only [useCredit, hfree, Bool.or_false]
  simp [wrHost, show apertureOf s (addr64 a) = none from hhere, hbad, hcredit, putHost_eq]

/-- A shard's record in the own table voided and its state entry emptied. -/
def freeShard (s : State) (i : Nat) : State := modShard (wrHost s (s.glb.shtBase.toNat + 128 * i) [0]).2 i fun _ => {}

/-- The states differ at most in host memory and in the shards' state entries. -/
def ShardStores (s t : State) : Prop := t = { s with host := t.host, shard := t.shard }

theorem ShardStores.trans {s t u : State} (h : ShardStores s t) (k : ShardStores t u) : ShardStores s u := by
  unfold ShardStores at *
  rw [k, h]

theorem ShardStores.here {s t : State} (h : ShardStores s t) {i : Nat} (hhere : Here s (s.glb.shtBase.toNat + 128 * i)) :
    Here t (t.glb.shtBase.toNat + 128 * i) := by
  rw [h]
  exact hhere

/-- The state entries of some shards are emptied; beside them host memory differs at most. -/
structure ShardsFreed (s t : State) (is : List Nat) : Prop where
  rest : ShardStores s t
  freed : ∀ i ∈ is, shardOf t i = {}
  others : ∀ i, i ∉ is → shardOf t i = shardOf s i

theorem freeShard_freed {s : State} {i : Nat} (hhere : Here s (s.glb.shtBase.toNat + 128 * i)) (hwho : s.who = none)
    (hbad : s.hostBad = []) : ShardsFreed s (freeShard s i) [i] := by
  unfold freeShard
  rw [wrHost_service hhere hwho hbad]
  refine ⟨rfl, fun j hj => ?_, fun j hj => ?_⟩
  · rw [List.mem_singleton.1 hj, shardOf_modShard]
  · exact shardOf_modShard_ne _ (fun h => hj (List.mem_singleton.2 h)) _

theorem freeShards_freed (is : List Nat) : ∀ {s : State}, (∀ i ∈ is, Here s (s.glb.shtBase.toNat + 128 * i)) → s.who = none →
    s.hostBad = [] → ShardsFreed s (is.foldl freeShard s) is := by
  induction is with
  | nil => exact fun _ _ _ => ⟨rfl, nofun, fun _ _ => rfl⟩
  | cons i t ih =>
    intro s hhere hwho hbad
    have hfirst := freeShard_freed (hhere i (List.mem_cons_self ..)) hwho hbad
    have hrest := ih (s := freeShard s i)
      (fun j hj => hfirst.rest.here (hhere j (List.mem_cons_of_mem _ hj)))
      ((congrArg State.who hfirst.rest).trans hwho) ((congrArg State.hostBad hfirst.rest).trans hbad)
    refine ⟨hfirst.rest.trans hrest.rest, fun j hj => ?_, fun j hj => ?_⟩
    · by_cases hmem : j ∈ t
      · exact hrest.freed j hmem
      · rw [List.foldl_cons, hrest.others j hmem]
        exact hfirst.freed j (by simpa [hmem] using hj)
    · rw [List.mem_cons, not_or] at hj
      exact (hrest.others j hj.2).trans (hfirst.others j (by simpa using hj.1))

/-- RELEASE is admitted where no adopted shard has work and no directory entry was adopted. -/
theorem mayRelease_idle {s : State} (hdone : s.twn.regs.tkstate = .done) (hdirs : s.twn.tkDirs = [])
    (hidle : ∀ i ∈ s.twn.tkShards, (shardOf s i).ready = false ∧ (shardOf s i).run = false ∧ (shardOf s i).pend = false) :
    mayRelease s = true := by
  have hnone : (s.twn.tkShards.any fun i => (shardOf s i).ready || (shardOf s i).run || (shardOf s i).pend) = false := by
    rw [List.any_eq_false]
    intro i hi
    obtain ⟨hready, hrun, hpend⟩ := hidle i hi
    simp [hready, hrun, hpend]
  simp only [mayRelease, hdone, hnone, hdirs, List.any_nil]
  rfl

/-- A release that has begun: the adopted shards are gone and the number is given up. -/
structure ReleaseBegun (s t : State) : Prop where
  adopted : t.twn.regs.adopted = 0xFF
  releasing : t.twn.releasing = true
  tkShards : t.twn.tkShards = []
  cp : t.cp = s.cp
  freed : ∀ i ∈ s.twn.tkShards, shardOf t i = {}
  others : ∀ i, i ∉ s.twn.tkShards → shardOf t i = shardOf s i
  accesses : accesses t = accesses s

theorem releaseCommand_begins {s : State} (hmay : mayRelease s = true)
    (hhere : ∀ i ∈ s.twn.tkShards, Here s (s.glb.shtBase.toNat + 128 * i)) (hwho : s.who = none) (hbad : s.hostBad = []) :
    ReleaseBegun s (releaseCommand s) := by
  have hfreed := freeShards_freed s.twn.tkShards hhere hwho hbad
  unfold releaseCommand
  rw [if_neg (by simp [hmay])]
  extract_lets num who freed given
  have hsends : SendsOnly given (who.foldl (fun s p => sendTakeover s p num 2) given) :=
    SendsOnly.foldl (fun s p => SendsOnly.sendTakeover s p num 2) who given
  have hfold : freed = s.twn.tkShards.foldl freeShard s := rfl
  rw [← hfold] at hfreed
  generalize who.foldl (fun s p => sendTakeover s p num 2) given = t at *
  exact
    { adopted := (congrArg (·.regs.adopted) hsends.twn :)
      releasing := (congrArg Twn.releasing hsends.twn :)
      tkShards := (congrArg Twn.tkShards hsends.twn :)
      cp := hsends.cp.trans (congrArg State.cp hfreed.rest :)
      freed := fun i hi => (shardOf_congr hsends.shard i).trans (hfreed.freed i hi)
      others := fun i hi => (shardOf_congr hsends.shard i).trans (hfreed.others i hi)
      accesses := hsends.accesses.trans (congrArg Settlement.accesses hfreed.rest :) }

theorem exec_release {s : State} (h : Answers s .twn) :
    exec .release s = .next (command [] (answer s cpOk) releaseCommand) := cpWrite_answers h _

/-! ### RELEASE_DONE (R353) -/

/-- A directory entry without a role. -/
def noRole (e : DirE) : DirE := { e with role := 0 }

/-- An adopted directory entry without readers dropped. -/
def dropDir (s : State) (m : Nat) : State :=
  modTwn (modDir s m noRole) fun t => { t with tkDirs := t.tkDirs.filter (· ≠ m) }

/-- Some directory entries lose their role and are adopted no more. -/
structure DirsDropped (s t : State) (ms : List Nat) : Prop where
  rest : t = { s with dir := t.dir, twn := { s.twn with tkDirs := t.twn.tkDirs } }
  tkDirs : t.twn.tkDirs = s.twn.tkDirs.filter (· ∉ ms)
  dropped : ∀ m ∈ ms, dirOf t m = noRole (dirOf s m)
  others : ∀ m, m ∉ ms → dirOf t m = dirOf s m

theorem dropDir_dropped (s : State) (m : Nat) : DirsDropped s (dropDir s m) [m] where
  rest := rfl
  tkDirs := by simp [dropDir]
  dropped n hn := by
    rw [List.mem_singleton.1 hn]
    exact dirOf_modDir s m noRole
  others n hn := dirOf_modDir_ne s (fun h => hn (List.mem_singleton.2 h.symm)) noRole

theorem DirsDropped.cons {s t u : State} {m : Nat} {ms : List Nat} (h : DirsDropped s t [m]) (k : DirsDropped t u ms) :
    DirsDropped s u (m :: ms) where
  rest := by
    have hstate := k.rest
    rw [h.rest] at hstate
    exact hstate
  tkDirs := by
    rw [k.tkDirs, h.tkDirs, List.filter_filter]
    exact List.filter_congr fun n _ => by simp [Bool.and_comm]
  dropped n hn := by
    by_cases hfirst : n = m
    · subst hfirst
      have hone := h.dropped n (List.mem_singleton_self n)
      by_cases hmem : n ∈ ms
      · rw [k.dropped n hmem, hone]
        rfl
      · rw [k.others n hmem, hone]
    · have hkept := h.others n (by simpa using hfirst)
      rw [k.dropped n ((List.mem_cons.1 hn).resolve_left hfirst), hkept]
  others n hn := by
    rw [List.mem_cons, not_or] at hn
    exact (k.others n hn.2).trans (h.others n (by simpa using hn.1))

/-- A directory entry without readers. -/
abbrev NoReaders (s : State) (m : Nat) : Prop := (dirOf s m).rdrA = 0 ∧ (dirOf s m).rdrB = 0

/-- What RELEASE_DONE does of one adopted directory entry. -/
def releaseDir (s : State) (m : Nat) : State := if NoReaders s m then dropDir s m else s

theorem releaseDirs_eq (s : State) : releaseDirs s = s.twn.tkDirs.foldl releaseDir s := rfl

theorem NoReaders.dropDir {s : State} {m n : Nat} (h : NoReaders s n) : NoReaders (dropDir s m) n := by
  by_cases hn : n = m
  · subst hn
    have hrole : dirOf (Takeover.dropDir s n) n = noRole (dirOf s n) := (dropDir_dropped s n).dropped n (List.mem_singleton_self n)
    rw [NoReaders, hrole]
    exact h
  · rw [NoReaders, (dropDir_dropped s m).others n (by simpa using hn)]
    exact h

theorem releaseDirs_dropped (ms : List Nat) : ∀ {s : State}, (∀ m ∈ ms, NoReaders s m) →
    DirsDropped s (ms.foldl releaseDir s) ms := by
  induction ms with
  | nil => exact fun _ => ⟨rfl, (List.filter_eq_self.2 fun _ _ => decide_eq_true List.not_mem_nil).symm, nofun, fun _ _ => rfl⟩
  | cons m ms ih =>
    intro s hfree
    have hfirst : releaseDir s m = dropDir s m := if_pos (hfree m (List.mem_cons_self ..))
    rw [List.foldl_cons, hfirst]
    exact (dropDir_dropped s m).cons (ih fun n hn => (hfree n (List.mem_cons_of_mem _ hn)).dropDir)

/-- The takeover at its end: the number is given back. -/
def giveBack (t : Twn) : Twn := { t with releasing := false, tkNum := none, regs := { t.regs with tkstate := .none } }

theorem exec_releaseDone {s : State} (hreleasing : s.twn.releasing = true) (hawait : s.twn.await = 0)
    (hdropped : DirsDropped s (releaseDirs s) s.twn.tkDirs) :
    exec .releaseDone s = .next (raiseInt (modTwn (releaseDirs s) giveBack) srcTakeover) := by
  have hnone : (releaseDirs s).twn.tkDirs = [] := by
    rw [hdropped.tkDirs, List.filter_eq_nil_iff]
    simp
  have hquiet : (releaseDirs s).twn.await = 0 := (congrArg (·.twn.await) hdropped.rest).trans hawait
  have hends : ((releaseDirs s).twn.tkDirs.isEmpty && (releaseDirs s).twn.await == 0) = true := by rw [hnone, hquiet]; rfl
  exact congrArg _ ((if_neg (by rw [hreleasing]; decide)).trans (if_pos hends))

/-! ### A member that does not answer, and self-fencing (R351, R352) -/

theorem exec_takeoverTimeout {s : State} {peer : Fin 64} (hawait : bit s.twn.await peer.1 = true)
    (hacc : accesses (peerLost (s.begin []) peer.1) = noAccesses) :
    exec (.takeoverTimeout peer) s =
      .next { modTwn (peerLost (s.begin []) peer.1) fun t => { t with await := setBit t.await peer.1 false } with
        hostBad := [], who := none, rsv := false } :=
  congrArg _ ((if_pos hawait).trans (command_of_noAccesses
    (f := fun s => modTwn (peerLost s peer.1) fun t => { t with await := setBit t.await peer.1 false }) hacc))

theorem exec_sfwaitExpiry {s : State} (hjoined : s.twn.regs.jstate = .joined) (hothers : otherMembers s ≠ []) :
    exec .sfwaitExpiry s = .next (enterFenced s) := congrArg _ (if_pos (by simp [hjoined, hothers]))

theorem enterFenced_leaves (s : State) :
    (enterFenced s).twn.regs.jstate = .fenced ∧
      (enterFenced s).glb.bstage = (if s.glb.bstage = 8 then 7 else s.glb.bstage) ∧
      (enterFenced s).vrd = s.vrd ∧ (enterFenced s).host = s.host := by
  unfold enterFenced
  dsimp only
  split
  · next hready => exact ⟨rfl, (if_pos hready).symm, rfl, rfl⟩
  · next hready => exact ⟨rfl, (if_neg hready).symm, rfl, rfl⟩

/-! ### The obligation -/

/-- Settles O58: the timers declare the twin lost, and what the takeover's beginning, its end, the release and the end of the release
leave. -/
theorem takeoverRuns : Obligations.TakeoverRuns := by
  unfold Obligations.TakeoverRuns
  intro s
  refine ⟨fun hjoined htwen hnone hholds hlost c hc => ?_, fun num hstate hnum hwork hawait => ?_,
    fun hans hdone hdirs hhere hidle => ?_, fun hreleasing hawait hfree => ?_,
    fun peer hawait hlost hholds hformed hown hparent hchild hwrites => ?_, fun hjoined hothers => ?_⟩
  · have hbegun := startTakeover_begins (s := s.begin []) hjoined htwen hnone hholds
    refine ⟨_, (exec_twinSilent hc).trans (congrArg _ (command_of_noAccesses hbegun.accesses)), hbegun.tkstate, hbegun.tkNum,
      fun i => ?_, hbegun.err, hbegun.adopted, hbegun.host⟩
    have hawait := congrArg (bit · i.1) hbegun.await
    exact hawait.trans ((bit_maskOf _ i.2).trans (decide_eq_decide.2 (mem_answerers (s := s) hlost ..)))
  · obtain ⟨hadopted, hdone, hpending, hkeys, hhost, hacc⟩ := takeoverEnd_leaves (s.begin []) num
    exact ⟨_, exec_adopted hstate hnum hwork hawait hacc, hadopted, hdone, hpending, hkeys, hhost⟩
  · have hbegun := releaseCommand_begins (s := (answer s cpOk).begin []) (mayRelease_idle (s := s) hdone hdirs hidle) hhere rfl rfl
    exact ⟨_, (exec_release hans).trans (congrArg _ (command_of_noAccesses hbegun.accesses)), hbegun.cp, hbegun.adopted,
      hbegun.releasing, hbegun.tkShards, hbegun.freed, hbegun.others⟩
  · have hdropped := releaseDirs_dropped s.twn.tkDirs hfree
    rw [← releaseDirs_eq] at hdropped
    have hpending := raiseInt_pending (modTwn (releaseDirs s) giveBack) (by decide : srcTakeover < 96)
    refine ⟨_, exec_releaseDone hreleasing hawait hdropped, ?_⟩
    rw [raiseInt_rest] at hpending ⊢
    exact ⟨rfl, rfl, rfl, hpending, fun m hm => congrArg DirE.role (hdropped.dropped m hm), hdropped.others⟩
  · have hgiven := peerLost_givenUp (s := s.begin []) peer.2 hholds hwrites hlost (.inr ⟨hformed, hown, hparent, hchild⟩)
    exact ⟨_, exec_takeoverTimeout hawait hgiven.accesses, bit_setBit_cleared .., hgiven.lost, hgiven.pending⟩
  · exact ⟨_, exec_sfwaitExpiry hjoined hothers, enterFenced_leaves s⟩

end Sys2Proof.Machine.Takeover

/-! SUPPORT. Refutes O51 (LanesTrainAndSpare) in its part on a failing lane of an UP link: where ERRSEV of the link's page raises LANE
to INST, the same command loses the instance, and a twin is told so before the SPARE leaves. -/

namespace Sys2Proof.LaneLoss

open Sys2Proof.Machine

/-- A running instance in lifecycle DEV, JOINED under PROT NONE, with a twin reached on link 2; the link is UP, and its page's ERRSEV
raises LANE by one class (R351, R355, R411). -/
def twinned : State :=
  let s := modSec (modPins State.reset fun x => { x with rstLow := false }) fun x => { x with lcs := lcsDev }
  let s := modGlb (modPwr s fun x => { x with pstate := .active }) fun g => { g with bstage := 8 }
  let s := modTwnR s fun r => { r with prot := 0, jstate := .joined, twen := true, twlink := 2, hbalt := 2 }
  modHdr (modLkR s 2 fun r => { r with lstate := 2 }) (.lnk 2) fun h => { h with errsev := setBit 0 cLane true }

/-- What the command leaves when lane 0 fails. -/
def left : State := laneFail twinned 2 0

theorem exec_laneFail_twinned : exec (.laneFail 2 0) twinned = .next left := by rfl

theorem twinned_ready :
    twinned.wrap.taken = false ∧ 2 ≤ (lk twinned 2).regs.lstate.toNat ∧ (lk twinned 2).rxSpared = none ∧
      (lk twinned 2).rxSpare = none ∧ twinned.sent = [] := by
  decide +kernel

/-- The loss of the instance sends HBEAT FINAL on TWLINK and on HBALT (R351, R380), the sparing its SPARE three times (R327). -/
theorem left_sent : left.flt.lastrst = 3 ∧ left.sent.map (·.2.ftype) = [0x11, 0x11, 0x12, 0x12, 0x12] := by
  decide +kernel

/-- Refutes O51: the statement has the three copies of the SPARE as all that the command sends, and no condition on the class of the
LANE error; raised to INST, it also sends two HBEAT frames to the twin (`left_sent`). -/
theorem not_lanesTrainAndSpare : ¬ Obligations.LanesTrainAndSpare := by
  unfold Obligations.LanesTrainAndSpare
  intro h
  obtain ⟨-, -, -, spare, -⟩ := h 2 0 0 {} twinned
  obtain ⟨htaken, hup, hspared, hspare, hsent⟩ := twinned_ready
  obtain ⟨t, n, g, hexec, -, -, -, hframes, -⟩ := spare htaken hup (by decide) hspared hspare
  obtain rfl : left = t := Host.Outcome.next.inj (exec_laneFail_twinned.symm.trans hexec)
  have hthree : left.sent.map (·.2.ftype) = [g.ftype, g.ftype, g.ftype] := by rw [hframes, hsent]; rfl
  have hcount : 5 = 3 := congrArg List.length (left_sent.2.symm.trans hthree)
  exact absurd hcount (by decide)

end Sys2Proof.LaneLoss

/-! SUPPORT. Settles O10 (UnfenceReturnsUnit): what the return of a unit to service leaves where no logical number is missing. -/

namespace Sys2Proof.Machine.Unfence

open Sys2Proof.Machine.TileAttempt Sys2Proof.Machine.VerdictFrame

/-- UNFENCE with 0xA5 of a fenced unit that has passed its test returns the unit. -/
theorem exec_unfence {u : Nat} {s : State} (hu : u ≤ 0x50) (hans : Answers s .flt) (hfenced : unitFenced s u = true)
    (hbypass : unitBypassed s u = false) (hpassed : u ∈ s.tst.passed) :
    exec (.unfence (BitVec.ofNat 16 (0xA500 + u))) s = .next (unfenceUnit (answer s cpOk) u) := by
  have hvalue : (BitVec.ofNat 16 (0xA500 + u)).toNat = 0xA500 + u := by
    rw [BitVec.toNat_ofNat, Nat.mod_eq_of_lt (by omega)]
  have hunit : (0xA500 + u) % 256 = u := by omega
  have hcode : (0xA500 + u) / 256 = 0xA5 := by omega
  have hfenced' : unitFenced (answer s cpOk) u = true := hfenced
  have hbypass' : unitBypassed (answer s cpOk) u = false := hbypass
  have hpassed' : (answer s cpOk).tst.passed.contains u = true := List.contains_iff_mem.2 hpassed
  refine (cpWrite_answers hans _).trans (congrArg Host.Outcome.next ?_)
  simp only [unfence, hvalue, hunit, hcode, hfenced', hbypass', hpassed', Bool.not_true, Bool.or_false, Bool.false_eq_true,
    if_false, if_neg (show ¬(0xA5 ≠ 0xA5 ∨ 0x50 < u) by omega)]

/-- With every logical number on a pan, FLT has none to serve (R374). -/
theorem serveMissing_none {s : State} (h : ∀ l, (physOf s l).isSome = true) : serveMissing s = s := by
  have hnone : ((List.finRange 60).find? fun l =>
      (physOf s l).isNone && !(List.finRange 64).any (fun p => (pn s p).wakeFor = some l)) = none := by
    rw [List.find?_eq_none]
    intro l _
    simp [Option.isNone_eq_false_iff.2 (h l)]
  unfold serveMissing
  rw [hnone]

/-- The fault registers with a unit's fence taken away; a pan is a reserve again. -/
def unfenced (u : Nat) (f : Flt) : Flt :=
  if u < 64 then { f with fpan := setBit f.fpan u false, rsvok := setBit f.rsvok u true }
  else if u < 0x48 then { f with fhrv := setBit f.fhrv (u - 0x40) false }
  else if u < 0x50 then { f with fslt := setBit f.fslt (u - 0x48) false } else { f with frake := false }

/-- What the return of a unit leaves, where no number is missing: the fault registers, the tests passed, and all but the unit's page
and the Rake as it was. -/
theorem unfenceUnit_rest {s : State} (u : Nat) (h : ∀ l, (physOf s l).isSome = true) :
    ∃ hd r, unfenceUnit s u = { s with hdrs := hd, rak := r, flt := unfenced u s.flt, tst := (unpass s u).tst } := by
  unfold unfenceUnit
  extract_lets paged cleared raked
  have hpaged : ∃ hd, paged = { s with hdrs := hd } := by
    unfold paged
    split
    · exact ⟨_, rfl⟩
    · exact ⟨_, rfl⟩
  obtain ⟨hd, hpaged⟩ := hpaged
  have hcleared : cleared = { s with hdrs := hd, flt := unfenced u s.flt, tst := (unpass s u).tst } := by
    unfold cleared
    rw [hpaged]
    rfl
  have hraked : ∃ r, raked = { s with hdrs := hd, rak := r, flt := unfenced u s.flt, tst := (unpass s u).tst } := by
    unfold raked
    rw [hcleared]
    split
    · exact ⟨_, rfl⟩
    · exact ⟨_, rfl⟩
  obtain ⟨r, hraked⟩ := hraked
  have hserved : serveMissing raked = raked := serveMissing_none fun l => by
    rw [physOf_congr (s := s) (by rw [hraked]) l]
    exact h l
  exact ⟨hd, r, by rw [hserved, ite_self, hraked]⟩

theorem unitFenced_unfenced {s t : State} {u : Nat} (h : t.flt = unfenced u s.flt) : unitFenced t u = false := by
  rw [unitFenced, h, unfenced]
  repeat' split
  all_goals simp [bit_setBit_cleared]

theorem rsvok_unfenced {u : Nat} (hu : u < 64) (f : Flt) : bit (unfenced u f).rsvok u = true := by
  rw [unfenced, if_pos hu]
  exact bit_setBit_self _ hu

/-- Settles O10: UNFENCE returns the unit, and with no number missing no reserve is claimed. -/
theorem unfenceReturnsUnit : Obligations.UnfenceReturnsUnit := by
  unfold Obligations.UnfenceReturnsUnit
  intro u s hu hans hfenced hbypass hpassed hall
  obtain ⟨hd, r, hleft⟩ := unfenceUnit_rest (s := answer s cpOk) u hall
  refine ⟨_, exec_unfence hu hans hfenced hbypass hpassed, ?_⟩
  rw [hleft]
  exact ⟨rfl, unitFenced_unfenced (s := s) rfl, by simp [unpass], fun hpan => rsvok_unfenced hpan _⟩

end Sys2Proof.Machine.Unfence

/-! SUPPORT. Settles O40 (PansWakeSwapAndGate): what served wakes, a gated pan, a resumed number and a background test leave. -/

namespace Sys2Proof.Machine.PanPower

open Sys2Proof.Machine.TileAttempt Sys2Proof.Machine.VerdictFrame Sys2Proof.Machine.FrameSent Sys2Proof.Machine.VerdictStep

/-! ### Wakes (R396) -/

/-- A pan before and after wakes were served: as it was, or WAKING where it was GATED. -/
def MayWake (x y : Pan) : Prop := y = x ∨ (x.pwr = .gated ∧ y = { x with pwr := .waking })

theorem mayWake_wakePan {s u : State} {q : Fin 64} (h : MayWake (pn s q) (pn u q)) (p : Fin 64) :
    MayWake (pn s q) (pn (wakePan u p) q) := by
  unfold wakePan
  split
  case isFalse => exact h
  case isTrue hgated =>
    by_cases hpq : p = q
    · subst hpq
      simp only [Bool.and_eq_true, decide_eq_true_eq] at hgated
      obtain ⟨⟨hpwr, -⟩, -⟩ := hgated
      rcases h with hsame | ⟨-, hwaking⟩
      · exact .inr ⟨hsame ▸ hpwr, by rw [pn_modPan, hsame]⟩
      · simp [hwaking] at hpwr
    · rw [pn_modPan_ne _ hpq]
      exact h

/-- What holds of a state and is kept by every wake holds once the wakes are served. -/
theorem serveWakes_keeps {P : State → Prop} {s : State} (h : P s) (hwake : ∀ u p, P u → P (wakePan u p)) :
    P (serveWakes s) := by
  unfold serveWakes
  extract_lets spares wears logicals
  have hspares : P spares := List.foldlRecOn (motive := P) _ _ h fun u hu p _ => by
    split
    · exact hwake u p hu
    · exact hu
  have hwears : P wears := by
    unfold wears
    split
    · exact hwake _ _ hspares
    · exact hspares
  have hlogicals : P logicals := List.foldlRecOn (motive := P) _ _ hwears fun u hu l _ => by
    unfold wakeLogical
    split
    · split
      · exact hwake u _ hu
      · exact hu
    · exact hu
  exact List.foldlRecOn (motive := P) _ _ hlogicals fun u hu p _ => by
    split
    · exact hwake u p hu
    · exact hu

theorem serveWakes_mayWake (s : State) (q : Fin 64) : MayWake (pn s q) (pn (serveWakes s) q) :=
  serveWakes_keeps (P := fun u => MayWake (pn s q) (pn u q)) (.inl rfl) fun _ p hu => mayWake_wakePan hu p

theorem pn_serveWakes_live {s : State} {q : Fin 64} (h : (pn s q).pwr = .live) : pn (serveWakes s) q = pn s q := by
  rcases serveWakes_mayWake s q with hsame | ⟨hgated, -⟩
  · exact hsame
  · rw [h] at hgated
    exact absurd hgated (by decide)

theorem wakeFor_serveWakes (s : State) (q : Fin 64) : (pn (serveWakes s) q).wakeFor = (pn s q).wakeFor := by
  rcases serveWakes_mayWake s q with hsame | ⟨-, hwaking⟩
  · rw [hsame]
  · rw [hwaking]

/-! ### A gated pan -/

/-- A pan whose power switches have opened. -/
def gated (x : Pan) : Pan := { x with pwr := .gated, store := [] }

theorem gatePan_rest (s : State) (p : Fin 64) : ∃ d, gatePan s p = { modPan s p gated with qd := d } := quadIdle_eq _ _

theorem pidleOf_level {s : State} (h : (hdr s .pwr).abi = 0x0103) : pidleOf s = s.pwr.pidle := by
  simp [pidleOf, atLevel, h]

/-- PIDLE of an idle LIVE pan gates it. -/
theorem exec_pidleExpiry {s : State} {p : Fin 64} (hlevel : (hdr s .pwr).abi = 0x0103) (hpidle : s.pwr.pidle ≠ 0#32)
    (hlive : (pn s p).pwr = .live) (hidle : ∀ m, logOf s p = some m → (lp s m).running = false) (htests : s.tst.tests = []) :
    exec (.pidleExpiry p) s = .next (gatePan s p) := by
  change execPidleExpiry p s = _
  simp only [execPidleExpiry, pidleExpiry, pidleOf_level hlevel, hlive, htests]
  cases hlog : logOf s p with
  | none => simp [hpidle]
  | some m => simp [hpidle, hidle m hlog]

/-! ### The orders of a number that moves (R372, R373) -/

/-- The states differ at most in the orders of the pans, in what their pages hold and in the frames sent. -/
def OrdersOnly (s t : State) : Prop := t = { s with hdrs := t.hdrs, lpan := t.lpan, twn := t.twn, sent := t.sent }

namespace OrdersOnly
variable {s t u : State}

theorem refl (s : State) : OrdersOnly s s := rfl

theorem trans (h : OrdersOnly s t) (k : OrdersOnly t u) : OrdersOnly s u := by
  unfold OrdersOnly at *
  rw [k, h]

theorem foldl {α : Type} {g : State → α → State} (h : ∀ s x, OrdersOnly s (g s x)) (l : List α) (s : State) :
    OrdersOnly s (l.foldl g s) :=
  List.foldlRecOn (motive := OrdersOnly s) l g (refl s) fun _ ht x _ => ht.trans (h _ x)

theorem glb (h : OrdersOnly s t) : t.glb = s.glb := (congrArg State.glb h :)
theorem flt (h : OrdersOnly s t) : t.flt = s.flt := (congrArg State.flt h :)
theorem pan (h : OrdersOnly s t) : t.pan = s.pan := (congrArg State.pan h :)
theorem host (h : OrdersOnly s t) : t.host = s.host := (congrArg State.host h :)

theorem of_sendsOnly (h : SendsOnly s t) : OrdersOnly s t := by
  unfold SendsOnly at h
  unfold OrdersOnly
  rw [h]

theorem modLp (s : State) (l : Fin 60) (f : LPan → LPan) : OrdersOnly s (modLp s l f) := rfl

theorem endReplay (s : State) (p : PageId) : OrdersOnly s (endReplay s p) := rfl

theorem abortSenders (s : State) (ptag : W32) : OrdersOnly s (abortSenders s ptag) := by
  unfold Machine.abortSenders
  refine foldl (fun s l => ?_) _ s
  split
  · split
    · rfl
    · exact refl s
  · exact refl s

theorem sendGrants (s : State) (o : Order) (front pslots : Nat) : OrdersOnly s (sendGrants s o front pslots) := by
  unfold Machine.sendGrants
  extract_lets granted
  have hgranted : OrdersOnly s granted := rfl
  split
  · exact hgranted.trans (foldl (fun _ _ => of_sendsOnly (.sendVia ..)) _ _)
  · exact hgranted

theorem endSettle (s : State) (r : Run) : OrdersOnly s (endSettle s r) := by
  unfold Machine.endSettle
  split
  · exact (sendGrants ..).trans (abortSenders ..)
  · exact refl s

theorem finish (s : State) (l : Fin 60) (w : Place) (status : Nat) : OrdersOnly s (finish s l w status) := by
  unfold Machine.finish
  split
  · exact refl s
  · extract_lets told left
    have htold : OrdersOnly s told := by
      unfold told
      split
      · exact refl s
      · exact endSettle ..
    exact htold.trans <| (modLp ..).trans <| (endReplay ..).trans (modLp ..)

theorem spareResume (s : State) (l : Fin 60) : OrdersOnly s (spareResume s l) := by
  unfold Machine.spareResume
  extract_lets ended
  have hended : OrdersOnly s ended := foldl (fun _ _ => finish ..) _ s
  split
  · split
    · exact hended.trans (finish ..)
    · exact hended.trans (modLp ..)
  · exact hended

end OrdersOnly

/-! ### A number that moves to another pan -/

theorem physOf_mapped {s t : State} {l : Fin 60} {p : Fin 64}
    (h : t.glb.panmap = vset s.glb.panmap l { missing := false, phys := p }) :
    physOf t l = some p ∧ ∀ m, m ≠ l → physOf t m = physOf s m := by
  refine ⟨by simp [physOf, h], fun m hm => ?_⟩
  simp only [physOf, h, vget_vset_ne _ _ _ _ hm.symm]

/-- The state in which a woken spare's orders resume: the number is its own, and the swap is counted. -/
def numbered (s : State) (p : Fin 64) (l : Fin 60) : State :=
  let s := modPan s p fun x => { x with wakeFor := none, forIsolate := false }
  modFlt (modGlb s fun g => { g with panmap := vset g.panmap l { missing := false, phys := p } }) fun f =>
    { f with swapcnt := satAdd f.swapcnt 1 }

theorem takeNumber_spare {s : State} {p : Fin 64} (h : (pn s p).forIsolate = false) (l : Fin 60) :
    takeNumber s p l = spareResume (numbered s p l) l := if_neg (by simp [h])

/-! ### PAN_WAKE_DONE -/

/-- A pan that has woken. -/
def awake (x : Pan) : Pan := { x with pwr := .live }

section
variable {s : State} {p : Fin 64} (hwaking : (pn s p).pwr = .waking)
include hwaking

theorem exec_panWakeDone_plain (hfor : (pn s p).wakeFor = none) :
    exec (.panWakeDone p) s = .next (serveWakes (modPan s p awake)) := by
  change execPanWakeDone p s = _
  simp only [execPanWakeDone, panWakeDone, hwaking, hfor, ne_eq, not_true, if_false]
  rfl

theorem exec_panWakeDone_spare {l : Fin 60} (hfor : (pn s p).wakeFor = some l) (hiso : (pn s p).forIsolate = false) :
    exec (.panWakeDone p) s = .next (serveWakes (spareResume (numbered (modPan s p awake) p l) l)) := by
  have hiso' : (pn (modPan s p awake) p).forIsolate = false := by rw [pn_modPan]; exact hiso
  change execPanWakeDone p s = _
  simp only [execPanWakeDone, panWakeDone, hwaking, hfor, ne_eq, not_true, if_false, ← takeNumber_spare hiso' l]
  rfl

end

/-- A woken spare carries its number, and the swap is counted. -/
theorem spare_carries (s : State) (p : Fin 64) (l : Fin 60) {t : State}
    (ht : serveWakes (spareResume (numbered (modPan s p awake) p l) l) = t) :
    (pn t p).pwr = .live ∧ physOf t l = some p ∧ (∀ m, m ≠ l → physOf t m = physOf s m) ∧
      t.flt.swapcnt = satAdd s.flt.swapcnt 1 ∧ t.host = s.host := by
  have hresumed := OrdersOnly.spareResume (numbered (modPan s p awake) p l) l
  have hlive : (pn (numbered (modPan s p awake) p l) p).pwr = .live := by simp [numbered, pn, awake]
  generalize spareResume (numbered (modPan s p awake) p l) l = u at hresumed ht
  have hlive' : (pn u p).pwr = .live := by rw [pn, hresumed.pan]; exact hlive
  obtain ⟨v, hv⟩ := serveWakes_pansOnly u
  have hmapped : t.glb.panmap = vset s.glb.panmap l { missing := false, phys := p } := by
    rw [← ht, hv]
    exact congrArg Glb.panmap hresumed.glb
  obtain ⟨hphys, hothers⟩ := physOf_mapped hmapped
  refine ⟨?_, hphys, hothers, ?_, ?_⟩
  · rw [← ht, pn_serveWakes_live hlive']
    exact hlive'
  · rw [← ht, hv]
    exact congrArg Flt.swapcnt hresumed.flt
  · rw [← ht, hv]
    exact hresumed.host

/-! ### SPARE_SWAP (R373, R374) -/

section
variable {s : State} {l : Fin 60} (hmissing : physOf s l = none) (hunserved : ∀ q, (pn s q).wakeFor ≠ some l)
include hmissing hunserved

/-- A missing number for which no reserve wakes claims the lowest one. -/
theorem exec_spareSwap_claims {p : Fin 64} (hlow : lowReserve s = some p) :
    exec (.spareSwap l) s = .next (claimReserve s p l false) := by
  change execSpareSwap l s = _
  simp [execSpareSwap, spareFor, hmissing, hunserved, hlow]

/-- It is noted once there is none. -/
theorem exec_spareSwap_none (hnone : lowReserve s = none) (hfirst : s.flt.nospare = false) :
    exec (.spareSwap l) s = .next (raiseInt (modFlt s fun f => { f with nospare := true }) srcNoSpare) := by
  change execSpareSwap l s = _
  simp [execSpareSwap, spareFor, hmissing, hunserved, hnone, hfirst]

end

/-- With no test running, nothing of a claimed pan ends but its wait for a background test. -/
theorem dropTest_idle {s : State} (h : s.tst.tests = []) (p : Fin 64) :
    dropTest s p = modTst s fun t => { t with tests := [], bg := t.bg.filter (· != p.1) } := by
  simp [dropTest, modTst, h]

/-- A claimed reserve that is not LIVE has left the reserve and wakes for the number. -/
theorem claimReserve_wakes {s : State} {p : Fin 64} (hasleep : (pn s p).pwr ≠ .live) (htests : s.tst.tests = []) (l : Fin 60)
    {t : State} (ht : claimReserve s p l false = t) :
    bit t.flt.rsvok p.1 = false ∧ (pn t p).wakeFor = some l ∧ t.glb = s.glb ∧ t.lpan = s.lpan := by
  revert ht
  unfold claimReserve
  extract_lets dropped left unworn claimed
  intro ht
  have hleft : left = { s with
      tst := { s.tst with tests := [], bg := s.tst.bg.filter (· != p.1) }
      flt := { s.flt with rsvok := setBit s.flt.rsvok p.1 false } } := by
    unfold left dropped
    rw [dropTest_idle htests]
    rfl
  have hunworn : ∃ w, unworn = { left with wear := w } := by
    unfold unworn
    split
    · exact ⟨_, rfl⟩
    · exact ⟨_, rfl⟩
  obtain ⟨w, hunworn⟩ := hunworn
  have hclaimed : pn claimed p = { pn s p with wakeFor := some l, forIsolate := false } := by
    unfold claimed
    rw [pn_modPan, hunworn, hleft]
    rfl
  rw [if_neg (by rw [hclaimed]; exact hasleep)] at ht
  obtain ⟨v, hv⟩ := serveWakes_pansOnly claimed
  have hfields : claimed.flt.rsvok = setBit s.flt.rsvok p.1 false ∧ claimed.glb = s.glb ∧ claimed.lpan = s.lpan := by
    unfold claimed
    rw [hunworn, hleft]
    exact ⟨rfl, rfl, rfl⟩
  obtain ⟨hrsvok, hglb, hlpan⟩ := hfields
  refine ⟨?_, ?_, ?_, ?_⟩
  · rw [← ht, hv]
    exact (congrArg (bit · p.1) hrsvok).trans (bit_setBit_cleared ..)
  · rw [← ht, wakeFor_serveWakes, hclaimed]
  · rw [← ht, hv]
    exact hglb
  · rw [← ht, hv]
    exact hlpan

/-! ### WEAR_SWAP (R407) -/

theorem startBg_pan_rest (s : State) (p : Fin 64) : ∃ v t, startBg s p.1 = { s with pan := v, tst := t } := by
  unfold startBg
  split
  · exact ⟨_, _, rfl⟩
  · split
    · exact ⟨_, _, rfl⟩
    · simp only [beginTest, testDestroys, p.2, dite_true]
      obtain ⟨v, hv⟩ := serveWakes_pansOnly (modTstR (modPan (modTst s fun t =>
        { t with tests := t.tests ++ [{ unit := p.1, kind := 2, sw := false }] }) p fun x => { x with store := [] }) fun t =>
        { t with tsVcode := (quad s (quadOf p)).vcode })
      exact ⟨v, _, hv⟩

/-- A wear swap: the number is the reserve's, which has left the reserve. -/
def swapped (s : State) (w : WearRun) (l : Fin 60) : State :=
  { s with
    wear := none
    glb := { s.glb with panmap := vset s.glb.panmap l { missing := false, phys := w.rsv } }
    flt := { s.flt with rsvok := setBit s.flt.rsvok w.rsv.1 false } }

theorem exec_wearSwap {s : State} {w : WearRun} {l : Fin 60} (hwear : s.wear = some w) (hlog : logOf s w.live = some l)
    (hlive : (pn s w.rsv).pwr = .live) (hidle : (lp s l).running = false) :
    exec .wearSwap s = .next (startBg (gatePan (swapped s w l) w.live) w.live.1) := by
  change execWearSwap s = _
  simp only [execWearSwap, wearSwap, hwear, hlog, hlive, hidle, ne_eq, not_true, decide_false, Bool.or_false, Bool.false_eq_true,
    if_false]
  rfl

/-- The test of the old pan and its gating leave the swap as it is. -/
theorem wearSwap_rest (s : State) (p : Fin 64) : ∃ v d t, startBg (gatePan s p) p.1 = { s with pan := v, qd := d, tst := t } := by
  obtain ⟨d, hgated⟩ := gatePan_rest s p
  obtain ⟨v, t, htested⟩ := startBg_pan_rest { modPan s p gated with qd := d } p
  exact ⟨v, d, t, by rw [hgated, htested]; rfl⟩

/-! ### The obligation -/

/-- Settles O40, command by command: what the command comes to, then what the wakes, the gate or the test that follow leave. -/
theorem pansWakeSwapAndGate : Obligations.PansWakeSwapAndGate := by
  unfold Obligations.PansWakeSwapAndGate
  intro p l s
  refine ⟨fun hwaking hfor => ?_, fun hwaking hfor hiso => ?_, fun hmissing hunserved hlow hasleep htests => ?_,
    fun hmissing hunserved hnone hfirst => ?_, fun hlevel hpidle hlive hidle htests => ?_, fun w hwear hlog hlive hidle => ?_⟩
  · have hlive : (pn (modPan s p awake) p).pwr = .live := by rw [pn_modPan]; rfl
    obtain ⟨v, hv⟩ := serveWakes_pansOnly (modPan s p awake)
    refine ⟨_, exec_panWakeDone_plain hwaking hfor, by rw [pn_serveWakes_live hlive]; exact hlive, ?_⟩
    rw [hv]
    exact ⟨rfl, rfl, rfl, rfl⟩
  · exact ⟨_, exec_panWakeDone_spare hwaking hfor hiso, spare_carries s p l rfl⟩
  · exact ⟨_, exec_spareSwap_claims hmissing hunserved hlow, claimReserve_wakes hasleep htests l rfl⟩
  · have hpending := raiseInt_pending (modFlt s fun f => { f with nospare := true }) (by decide : srcNoSpare < 96)
    refine ⟨_, exec_spareSwap_none hmissing hunserved hnone hfirst, ?_, hpending, ?_⟩
    · rw [raiseInt_rest]
      rfl
    · rw [raiseInt_rest]
      rfl
  · obtain ⟨d, hgated⟩ := gatePan_rest s p
    refine ⟨_, exec_pidleExpiry hlevel hpidle hlive hidle htests, ?_⟩
    rw [hgated]
    have hself : pn (modPan s p gated) p = gated (pn s p) := pn_modPan ..
    exact ⟨(congrArg Pan.pwr hself :), (congrArg Pan.regs hself :), fun q hq => (pn_modPan_ne s hq.symm gated :), rfl, rfl⟩
  · obtain ⟨v, d, t, hrest⟩ := wearSwap_rest (swapped s w l) w.live
    refine ⟨_, exec_wearSwap hwear hlog hlive hidle, ?_⟩
    rw [hrest]
    obtain ⟨hphys, hothers⟩ := physOf_mapped (s := s) (t := { swapped s w l with pan := v, qd := d, tst := t }) (l := l) rfl
    exact ⟨rfl, hphys, bit_setBit_cleared .., hothers, rfl, rfl⟩

end Sys2Proof.Machine.PanPower

/-! SUPPORT. Settles O22 (PowerFailAndSupplyLoss): what the power-fail sequence leaves of an instance that is alone and tests
nothing, and what an alarm changes before it. -/

namespace Sys2Proof.Machine.PowerFail

open Sys2Proof.Machine.Settlement Sys2Proof.Machine.ShardState Sys2Proof.Machine.CommitFlip
  Sys2Proof.Machine.VerdictStep Sys2Proof.Machine.FrameSent

/-! ### What runs is abandoned (R289, R382) -/

/-- The states differ at most in what an abandonment reaches: the work of the units, their tests, the pans' power, the shards, the
wear rotation and host memory with the free values it takes. -/
def Abandons (s t : State) : Prop :=
  t = { s with
    tide := t.tide, hrv := t.hrv, pan := t.pan, lpan := t.lpan, qd := t.qd, slt := t.slt, tst := t.tst, host := t.host
    shard := t.shard, wear := t.wear, free := t.free }

namespace Abandons
variable {s t u : State}

theorem refl (s : State) : Abandons s s := rfl

theorem trans (h : Abandons s t) (k : Abandons t u) : Abandons s u := by
  unfold Abandons at *
  rw [k, h]

theorem foldl {α : Type} {g : State → α → State} (h : ∀ s x, Abandons s (g s x)) (l : List α) (s : State) :
    Abandons s (l.foldl g s) :=
  List.foldlRecOn (motive := Abandons s) l g (refl s) fun _ ht x _ => ht.trans (h _ x)

theorem pwr (h : Abandons s t) : t.pwr = s.pwr := (congrArg State.pwr h :)
theorem sec (h : Abandons s t) : t.sec = s.sec := (congrArg State.sec h :)
theorem glb (h : Abandons s t) : t.glb = s.glb := (congrArg State.glb h :)
theorem twn (h : Abandons s t) : t.twn = s.twn := (congrArg State.twn h :)
theorem pins (h : Abandons s t) : t.pins = s.pins := (congrArg State.pins h :)
theorem hist (h : Abandons s t) : t.hist = s.hist := (congrArg State.hist h :)
theorem accesses (h : Abandons s t) : accesses t = accesses s := (congrArg Settlement.accesses h :)

theorem spoilAll (s : State) (rs : List (Nat × Nat)) : Abandons s (spoilAll s rs) :=
  foldl (fun s x => by
    obtain ⟨m, f, heq⟩ := spoilHost_eq x.2 s x.1
    rw [heq]
    rfl) rs s

theorem takeJobOff (s : State) (n : Fin 8) : Abandons s (takeJobOff s n) := by
  unfold Machine.takeJobOff
  split <;> rfl

theorem stopPans (s : State) : Abandons s (stopPans s) := rfl

theorem withSlt (s : State) (v : Vector Slt 8) : Abandons s { s with slt := v } := rfl

theorem abandonAll (s : State) : Abandons s (abandonAll s) :=
  (spoilAll ..).trans <| (foldl takeJobOff _ _).trans <| (stopPans _).trans (withSlt ..)

end Abandons

/-- Memory outside the places that are left partly written is as it was. -/
theorem spoilAll_frame {a : Nat} {rs : List (Nat × Nat)} (h : ∀ x ∈ rs, a < x.1 ∨ x.1 + x.2 ≤ a) (s : State) :
    smGet 0 (spoilAll s rs).host a = smGet 0 s.host a :=
  List.foldlRecOn (motive := fun t : State => smGet 0 t.host a = smGet 0 s.host a) rs _ rfl fun t ht x hx =>
    (spoilHost_frame x.2 t x.1 a (h x hx)).trans ht

theorem host_takeJobOff (s : State) (n : Fin 8) : (takeJobOff s n).host = s.host := by
  unfold takeJobOff
  split <;> rfl

/-- The abandonment of all work writes host memory only where jobs that ran leave it partly written. -/
theorem abandonAll_keepsHost (s : State) : KeepsHost s (abandonAll s) := by
  intro a ha
  have hoff : ∀ t, ((List.finRange 8).foldl takeJobOff t).host = t.host := fun t =>
    List.foldlRecOn (motive := fun u : State => u.host = t.host) _ _ rfl fun u hu n _ => (host_takeJobOff u n).trans hu
  have hplaces : ∀ x ∈ (List.finRange 8).flatMap (partWritten s), a < x.1 ∨ x.1 + x.2 ≤ a := fun x hx => by
    obtain ⟨n, -, hn⟩ := List.mem_flatMap.1 hx
    exact ha n x hn
  simp only [abandonAll, stopPans, hoff]
  exact spoilAll_frame hplaces s

theorem lp_abandonAll (s : State) (l : Fin 60) : (lp (abandonAll s) l).run = none ∧ (lp (abandonAll s) l).parked = [] := by
  simp [abandonAll, stopPans, lp]

/-- Memory is kept from a state on where it is kept from a later one with the same memory and the same work on its engines. -/
theorem keepsHost_of_same {s u t : State} (h : KeepsHost u t) (hhost : u.host = s.host)
    (hpart : ∀ n, partWritten u n = partWritten s n) : KeepsHost s t := fun a ha => by
  rw [h a fun n x hx => ha n x (hpart n ▸ hx), hhost]

/-! ### The sequence of an instance that is alone (R382) -/

/-- What starts the power-fail sequence finds an instance that is not JOINED, has no twin and tests nothing. -/
structure FailReady (s : State) : Prop where
  taken : pfTaken s = true
  alone : s.twn.regs.jstate ≠ .joined
  twinless : s.twn.regs.twen = false
  tests : s.tst.tests = []
  waiting : s.tst.waiting = none

theorem abortTests_rest {s : State} (htests : s.tst.tests = []) (hwaiting : s.tst.waiting = none) :
    ∃ tide pan qd tst wear, abortTests s = { s with tide := tide, pan := pan, qd := qd, tst := tst, wear := wear } := by
  simp only [abortTests, htests, hwaiting, List.map_nil, List.find?_nil, List.foldl_nil, wearEnd]
  split
  · next w _ =>
    obtain ⟨d, hgated⟩ := PanPower.gatePan_rest { s with
      tide := { s.tide with wearTests := false }, tst := { s.tst with tests := [], bg := [], waiting := none }, wear := none } w.rsv
    exact ⟨_, _, _, _, _, hgated⟩
  · exact ⟨_, _, _, _, _, rfl⟩

theorem pfStop_leaves {s : State} (halone : s.twn.regs.jstate ≠ .joined) (htests : s.tst.tests = [])
    (hwaiting : s.tst.waiting = none) :
    Abandons s (pfStop s) ∧ KeepsHost s (pfStop s) ∧ ∀ l, (lp (pfStop s) l).run = none ∧ (lp (pfStop s) l).parked = [] := by
  obtain ⟨tide, pan, qd, tst, wear, haborted⟩ := abortTests_rest htests hwaiting
  have htested : Abandons s (abortTests s) := by rw [haborted]; rfl
  have hall : Abandons s (abandonAll (abortTests s)) := htested.trans (.abandonAll _)
  have hjoined : joined (abandonAll (abortTests s)) = false := by rw [joined, hall.twn]; simpa using halone
  have hstop : pfStop s = abandonAll (abortTests s) := by
    simp only [pfStop, hjoined, Bool.false_and, Bool.false_eq_true, if_false]
  rw [hstop]
  refine ⟨hall, ?_, lp_abandonAll _⟩
  exact keepsHost_of_same (abandonAll_keepsHost _) (by rw [haborted]) fun n => by rw [haborted]; rfl

/-- The end of a debug session shows in the SEC page and the test registers alone (R427). -/
theorem endSession_rest (s : State) (cause : Nat) : ∃ x k, endSession s cause = { s with sec := x, tst := k } ∧
    x.dbglvl = 0 ∧ k.tests = s.tst.tests ∧ k.waiting = s.tst.waiting := by
  unfold endSession setLevel
  dsimp only
  split
  · exact ⟨_, _, rfl, rfl, rfl, rfl⟩
  · exact ⟨_, _, rfl, rfl, rfl, rfl⟩

theorem pfPush_twinless {s : State} (h : s.twn.regs.twen = false) : pfPush s = s := if_neg (by simp [h])

/-- RETAIN does not follow while a supply is good. -/
theorem retainGo_powered {s : State} (h : s.pins.pwrGood ≠ 0) : retainGo s = s := if_pos h

/-- What the power-fail sequence leaves. -/
structure WorkEnded (s t : State) : Prop where
  pfstate : t.flt.pfstate = 2
  dbglvl : t.sec.dbglvl = 0
  ckpt : t.ckpt = s.hist
  pstate : t.pwr.pstate = s.pwr.pstate
  host : KeepsHost s t
  idle : s.pwr.pstate = .active → ∀ l, (lp t l).run = none ∧ (lp t l).parked = []

/-- It leaves, too, the notes and the interrupts that tell its cause as they were. -/
structure PowerFailed (s t : State) : Prop extends WorkEnded s t where
  refloss : t.pwr.refloss = s.pwr.refloss
  ttrip : t.pwr.ttrip = s.pwr.ttrip
  intpnd : t.glb.intpnd = s.glb.intpnd

theorem pfWarn_powerFailed {s : State} (h : FailReady s) (hpower : s.pins.pwrGood ≠ 0) (other : Bool) :
    PowerFailed s (pfWarn s other) ∧ accesses (pfWarn s other) = accesses s := by
  obtain ⟨x, k, hsession, hlevel, htests, hwaiting⟩ := endSession_rest s 4
  unfold pfWarn
  rw [if_neg (by simp [h.taken])]
  extract_lets ended begun stopped pushed
  have hbegun : begun = { s with
      sec := x, tst := k, flt := { s.flt with pfstate := 1 }
      pwr := { s.pwr with ptrans := none, wakeCmd := false, pfOther := other } } := by
    unfold begun ended
    rw [hsession]
    rfl
  have hstopped : Abandons begun stopped ∧ KeepsHost begun stopped ∧
      (s.pwr.pstate = .active → ∀ l, (lp stopped l).run = none ∧ (lp stopped l).parked = []) := by
    have hpstate : begun.pwr.pstate = s.pwr.pstate := by rw [hbegun]
    unfold stopped
    rw [hpstate]
    split
    · obtain ⟨hstop, hmem, hnone⟩ := pfStop_leaves (s := begun) (by rw [hbegun]; exact h.alone)
        (by rw [hbegun]; exact htests.trans h.tests) (by rw [hbegun]; exact hwaiting.trans h.waiting)
      exact ⟨hstop, hmem, fun _ => hnone⟩
    · next hdoze => exact ⟨.refl _, fun _ _ => rfl, fun hactive => absurd hactive hdoze⟩
  obtain ⟨habandons, hhost, hidle⟩ := hstopped
  have hkept : KeepsHost s stopped := keepsHost_of_same hhost (by rw [hbegun]) fun n => by rw [hbegun]; rfl
  clear_value begun stopped
  subst hbegun
  have hpushed : pushed = trimTail (writeCkpt stopped) :=
    pfPush_twinless ((congrArg (·.regs.twen) habandons.twn :).trans h.twinless)
  have hpower' : stopped.pins.pwrGood ≠ 0 := by rw [habandons.pins]; exact hpower
  rw [hpushed, retainGo_powered (s := modFlt (trimTail (writeCkpt stopped)) fun f => { f with pfstate := 2 }) hpower']
  refine ⟨{
    pfstate := rfl
    dbglvl := (congrArg Sec.dbglvl habandons.sec).trans hlevel
    ckpt := habandons.hist
    pstate := (congrArg Pwr.pstate habandons.pwr :)
    host := hkept
    idle := hidle
    refloss := (congrArg Pwr.refloss habandons.pwr :)
    ttrip := (congrArg Pwr.ttrip habandons.pwr :)
    intpnd := (congrArg Glb.intpnd habandons.glb :) }, habandons.accesses⟩

/-- The same of the sequence as a command runs it. -/
theorem command_pfWarn {s : State} (h : FailReady s) (hpower : s.pins.pwrGood ≠ 0) (other : Bool) :
    PowerFailed s (command [] s (pfWarn · other)) := by
  obtain ⟨hfailed, hacc⟩ := pfWarn_powerFailed (s := s.begin []) ⟨h.taken, h.alone, h.twinless, h.tests, h.waiting⟩ hpower other
  rw [command_of_noAccesses (f := (pfWarn · other)) hacc]
  exact ⟨⟨hfailed.pfstate, hfailed.dbglvl, hfailed.ckpt, hfailed.pstate, hfailed.host, hfailed.idle⟩, hfailed.refloss, hfailed.ttrip,
    hfailed.intpnd⟩

/-! ### What starts the sequence (R389, R398, R402, R403) -/

/-- The states differ at most in what an event at the supplies, the clock or a sensor changes before the sequence starts:
PWR_GOOD, the notes of the PWR page, the readings kept, and the PWR interrupt with its message. -/
def Alarmed (s t : State) : Prop :=
  t = { s with
    glb := { s.glb with intpnd := t.glb.intpnd }
    pwr := { s.pwr with refloss := t.pwr.refloss, talm := t.pwr.talm, ttrip := t.pwr.ttrip, heldMsg := t.pwr.heldMsg }
    pins := { s.pins with pwrGood := t.pins.pwrGood }
    tst := { s.tst with regs := t.tst.regs }
    qd := t.qd, txns := t.txns }

namespace Alarmed
variable {s t u : State}

theorem trans (h : Alarmed s t) (k : Alarmed t u) : Alarmed s u := by
  unfold Alarmed at *
  rw [k, h]

theorem raiseInt (s : State) (i : Nat) : Alarmed s (raiseInt s i) := by
  unfold Machine.raiseInt sendMsg
  dsimp only
  split
  · split <;> rfl
  · rfl

theorem ready (h : Alarmed s t) (hs : FailReady s) : FailReady t where
  taken := (congrArg pfTaken h :).trans hs.taken
  alone := by rw [h]; exact hs.alone
  twinless := by rw [h]; exact hs.twinless
  tests := by rw [h]; exact hs.tests
  waiting := by rw [h]; exact hs.waiting

theorem workEnded (h : Alarmed s t) (k : WorkEnded t u) : WorkEnded s u where
  pfstate := k.pfstate
  dbglvl := k.dbglvl
  ckpt := k.ckpt.trans (congrArg State.hist h :)
  pstate := k.pstate.trans (congrArg (·.pwr.pstate) h :)
  host := keepsHost_of_same k.host (congrArg State.host h :) fun n => (congrArg (partWritten · n) h :)
  idle := fun hactive => k.idle ((congrArg (·.pwr.pstate) h :).trans hactive)

end Alarmed

theorem raiseInt_pwr (s : State) (i : Nat) : ∃ held, (raiseInt s i).pwr = { s.pwr with heldMsg := held } := by
  unfold raiseInt sendMsg
  dsimp only
  split
  · split
    · exact ⟨_, rfl⟩
    · exact ⟨_, rfl⟩
  · exact ⟨_, rfl⟩

/-- The PWR page's note of an event, with the PWR interrupt. -/
def noted (s : State) (f : Pwr → Pwr) : State := raiseInt (modPwr s f) srcPwr

/-- With its note and the interrupt of the PWR page, an event that starts the sequence leaves both standing. -/
theorem noted_fails {s t : State} {f : Pwr → Pwr} (h : Alarmed s (modPwr t f)) (hready : FailReady s) (hpower : t.pins.pwrGood ≠ 0) :
    let u := command [] (noted t f) (pfWarn · true)
    WorkEnded s u ∧ u.pwr.refloss = (f t.pwr).refloss ∧ u.pwr.ttrip = (f t.pwr).ttrip ∧ bit u.glb.intpnd srcPwr = true := by
  have hraised : Alarmed (modPwr t f) (noted t f) := .raiseInt ..
  have hall : Alarmed s (noted t f) := h.trans hraised
  have hpins : (noted t f).pins = t.pins := by rw [noted, raiseInt_rest]; rfl
  have hfailed := command_pfWarn (hall.ready hready) (by rw [hpins]; exact hpower) true
  obtain ⟨held, hheld⟩ : ∃ held, (noted t f).pwr = { f t.pwr with heldMsg := held } := raiseInt_pwr ..
  refine ⟨hall.workEnded hfailed.toWorkEnded, ?_, ?_, ?_⟩
  · rw [hfailed.refloss, hheld]
  · rw [hfailed.ttrip, hheld]
  · rw [hfailed.intpnd]
    exact raiseInt_pending _ (by decide)

/-- REFCLK_LOSS is noted and starts the sequence (R389). -/
theorem exec_refclkLoss {s : State} (hrst : s.pins.rstLow = false) (hon : s.pwr.pstate ≠ .off) :
    exec .refclkLoss s = .next (command [] (noted s fun p => { p with refloss := true }) (pfWarn · true)) :=
  congrArg Host.Outcome.next (if_neg (by simp [hrst, hon]))

/-- A fall of PWR_GOOD while the supplies are asked for starts the sequence (R398). -/
theorem exec_pwrGoodFall {s : State} {b : Fin 17} (hgood : bit s.pins.pwrGood b.1 = true) (hen : s.pins.vidSEn = true)
    (htaken : pfTaken s = true) :
    exec (.pwrGoodFall b) s =
      .next (command [] (modPins s fun p => { p with pwrGood := setBit p.pwrGood b.1 false }) (pfWarn · false)) := by
  have htaken' : pfTaken (modPins s fun p => { p with pwrGood := setBit p.pwrGood b.1 false }) = true := htaken
  change execPwrGoodFall b s = _
  simp only [execPwrGoodFall, hgood, hen, htaken', Bool.not_true, Bool.false_eq_true, if_false, Bool.and_true, if_true]

/-- A reading of 125 °C or more is noted, beside the alarm that it may be too, and starts the sequence (R402, R403). -/
theorem reading_trips {s : State} (hrst : s.pins.rstLow = false) (hpstate : s.pwr.pstate = .active ∨ s.pwr.pstate = .doze)
    (x : Fin 17) {r : W16} (htrip : 1000 ≤ r.toInt) :
    ∃ t, Alarmed s t ∧ t.pins = s.pins ∧
      reading s x r = command [] (noted t fun p => { p with ttrip := true }) (pfWarn · true) := by
  have hoff : s.pwr.pstate ≠ .off ∧ s.pwr.pstate ≠ .retain := by rcases hpstate with h | h <;> simp [h]
  unfold reading
  rw [if_neg (by simp [hrst, hoff])]
  extract_lets kept shown judged
  have hshown : Alarmed s shown ∧ shown.pins = s.pins := by
    have hkept : Alarmed s kept := rfl
    unfold shown
    split
    · exact ⟨hkept.trans rfl, rfl⟩
    · exact ⟨hkept, rfl⟩
  have hjudged : Alarmed s judged ∧ judged.pins = s.pins := by
    unfold judged
    split
    · exact ⟨hshown.1.trans (.trans (t := modPwr shown fun p => { p with talm := true }) rfl (.raiseInt ..)),
        (congrArg State.pins (raiseInt_rest ..)).trans hshown.2⟩
    · exact hshown
  exact ⟨judged, hjudged.1, hjudged.2, if_pos htrip⟩

/-! ### The obligation -/

/-- Settles O22: each event comes to the sequence, after its note where it has one; the loss of the always-on supply is the reset of
the block. -/
theorem powerFailAndSupplyLoss : Obligations.PowerFailAndSupplyLoss := by
  unfold Obligations.PowerFailAndSupplyLoss
  refine ⟨fun s c b x r hrst hwrap hpstate hfirst hptrans halone htwinless hen hgood hleft htrip htests hwaiting hc => ?_,
    fun s => ⟨_, rfl, rfl, rfl, rfl, rfl, rfl, rfl, rfl, rfl, rfl, rfl⟩⟩
  have hready : FailReady s := by
    refine ⟨?_, halone, htwinless, htests, hwaiting⟩
    rcases hpstate with h | h <;> simp [pfTaken, hrst, hwrap, h, hfirst, hptrans]
  have hpower : s.pins.pwrGood ≠ 0 := fun h => by simp [h] at hgood
  have hon : s.pwr.pstate ≠ .off := by rcases hpstate with h | h <;> simp [h]
  have hruns : ∃ t, exec c s = .next t ∧ WorkEnded s t ∧
      (c = .refclkLoss → t.pwr.refloss = true ∧ bit t.glb.intpnd srcPwr = true) ∧
      (c = .ttrip x r ∨ c = .talm x r → t.pwr.ttrip = true ∧ bit t.glb.intpnd srcPwr = true) := by
    simp only [List.mem_cons, List.not_mem_nil, or_false] at hc
    rcases hc with rfl | rfl | rfl | hsensor
    · exact ⟨_, rfl, (command_pfWarn hready hpower false).toWorkEnded, nofun, by simp⟩
    · obtain ⟨hended, hrefloss, -, hpending⟩ :=
        noted_fails (s := s) (t := s) (f := fun p => { p with refloss := true }) rfl hready hpower
      exact ⟨_, exec_refclkLoss hrst hon, hended, fun _ => ⟨hrefloss, hpending⟩, by simp⟩
    · have hfell : Alarmed s (modPins s fun p => { p with pwrGood := setBit p.pwrGood b.1 false }) := rfl
      exact ⟨_, exec_pwrGoodFall hgood hen hready.taken,
        hfell.workEnded (command_pfWarn (hfell.ready hready) hleft false).toWorkEnded, nofun, by simp⟩
    · obtain ⟨t, halarmed, hpins, hreading⟩ := reading_trips hrst hpstate x htrip
      have hnoted : Alarmed s (modPwr t fun p => { p with ttrip := true }) := halarmed.trans rfl
      obtain ⟨hended, -, httrip, hpending⟩ := noted_fails hnoted hready (hpins ▸ hpower)
      refine ⟨_, ?_, hended, ?_, fun _ => ⟨httrip, hpending⟩⟩
      · rcases hsensor with rfl | rfl <;> exact congrArg Host.Outcome.next hreading
      · rcases hsensor with rfl | rfl <;> exact nofun
  obtain ⟨t, hexec, hended, hclock, hheat⟩ := hruns
  exact ⟨t, hexec, hended.pfstate, hended.dbglvl, hended.ckpt, hended.pstate, hended.host, hended.idle, hclock, hheat⟩

end Sys2Proof.Machine.PowerFail

/-! SUPPORT. Settles O2 (EmptyQueueTicks): what one tick of the always-on clock counts. -/

namespace Sys2Proof.Machine.AonTick

/-- A pan after one tick of CLK_AON (R407). -/
def counted (x : Pan) : Pan :=
  if x.pwr = .live then { x with regs := { x.regs with liveticks := x.regs.liveticks + 1 } } else x

theorem liveticks_counted (x : Pan) :
    (counted x).regs.liveticks = if x.pwr = .live then x.regs.liveticks + 1 else x.regs.liveticks := by
  unfold counted
  split <;> rfl

/-- A tick of a block that is on counts in TICK, in the pans and in the tide table. -/
theorem idleTick_on {s : State} (hrst : s.pins.rstLow = false) (hon : s.pwr.pstate ≠ .off) :
    ∃ x, idleTick s = { s with pwr := { s.pwr with tick := s.pwr.tick + 1 }, pan := s.pan.map counted, tide := x } :=
  ⟨_, if_neg (by simp [hrst, hon])⟩

/-- With no transition under way there is no DOZE entry to go on. -/
theorem dozeGo_untransiting {s : State} (h : s.pwr.ptrans = none) : dozeGo s = s := by
  simp [dozeGo, h]

theorem step_emptyQueue {s : State} (h : s.pending = []) : step s = .next (dozeGo (idleTick s)) := by
  rw [step, h]

/-- Settles O2: with no command waiting and no transition under way the step is the tick. -/
theorem emptyQueueTicks : Obligations.EmptyQueueTicks := by
  unfold Obligations.EmptyQueueTicks
  intro s hempty hrst hon hptrans
  obtain ⟨x, htick⟩ := idleTick_on hrst hon
  have hstep : step s = .next (idleTick s) := by
    rw [step_emptyQueue hempty, dozeGo_untransiting]
    rw [htick]
    exact hptrans
  refine ⟨_, hstep, ?_⟩
  rw [htick]
  refine ⟨rfl, fun p => ?_, rfl, rfl, rfl, rfl, rfl, rfl, rfl, rfl, rfl, rfl, hempty⟩
  rw [pn, vget_map]
  exact liveticks_counted _

end Sys2Proof.Machine.AonTick

/-! SUPPORT. Settles O20 (SleepStartsAndEnds) and O21 (RetainErasesKeysAndSupplies): what PCMD's commands come to, the end of a DOZE
entry, and what an erasure of the keys changes. -/

namespace Sys2Proof.Machine.Sleep

open Sys2Proof.Machine.PowerFail

/-! ### PCMD (R391, R395) -/

/-- A PCMD is carried out where no transition runs, and outside RETAIN no power-fail sequence. -/
theorem pcmd_runs {s : State} (hptrans : s.pwr.ptrans = none) (hfail : s.flt.pfstate = 0 ∨ s.pwr.pstate = .retain) (f : State → State) :
    pcmd s f = f s :=
  if_neg (by rcases hfail with h | h <;> simp [hptrans, h])

/-- So it is as a command of the control port. -/
theorem cpWrite_pcmd {s : State} (hans : Answers s .pwr) (hptrans : s.pwr.ptrans = none)
    (hfail : s.flt.pfstate = 0 ∨ s.pwr.pstate = .retain) (f : State → State) :
    cpWrite s .pwr (fun u => pcmd u f) = .next (f (answer s cpOk)) := by
  rw [cpWrite_answers hans, pcmd_runs (s := answer s cpOk) hptrans hfail]

theorem wakeCommand_doze {s : State} (h : s.pwr.pstate = .doze) :
    wakeCommand s = modPwr s fun p => { p with ptrans := some .dozeWake, wakeCmd := true } := by
  simp only [wakeCommand, h]

theorem wakeCommand_retain {s : State} (h : s.pwr.pstate = .retain) :
    wakeCommand s = suppliesOn (modPwr s fun p => { p with ptrans := some .retainPower }) := by
  simp only [wakeCommand, h]

theorem wakeCommand_active {s : State} (h : s.pwr.pstate = .active) : wakeCommand s = pRefused s := by
  simp only [wakeCommand, h]

/-- JLAGTO of an entry that waits for the twin (R392). -/
theorem exec_jlagto {s : State} (h : s.pwr.ptrans = some .dozeWait) :
    exec .jlagto s = .next (wakeSalters (modPwr s fun p => { p with ptrans := none, pres := 4 })) :=
  congrArg Host.Outcome.next (if_pos h)

/-! ### Supplies (R397, R443) -/

theorem quad_suppliesOn (s : State) (q : Fin 16) :
    (quad (suppliesOn s) q).vidEn = true ∧ (quad (suppliesOn s) q).vidCode = (quad s q).vmax := by
  simp [quad, suppliesOn, modPins]

theorem quad_suppliesOff (s : State) (q : Fin 16) :
    (quad (suppliesOff s) q).vidEn = false ∧ (quad (suppliesOff s) q).vidCode = 0 := by
  simp [quad, suppliesOff, modPins]

/-! ### The DOZE entry of an idle block (R392) -/

/-- An event to every salter, none of which runs code, starts none. -/
theorem sltEvents_quiet {s : State} (h : ∀ n, (salt s n).mode = .idle) (l : List (Fin 8)) :
    ∃ v, l.foldl sltEvent s = { s with slt := v } ∧ ∀ n, (vget v n).mode = .idle := by
  refine List.foldlRecOn (motive := fun t : State => ∃ v, t = { s with slt := v } ∧ ∀ n, (vget v n).mode = .idle) l sltEvent
    ⟨s.slt, rfl, h⟩ fun t ht n _ => ?_
  obtain ⟨v, rfl, hidle⟩ := ht
  refine ⟨_, rfl, fun m => ?_⟩
  by_cases hnm : n = m
  · subst hnm
    simp [hidle]
  · rw [vget_vmod_ne _ _ _ _ hnm]
    exact hidle m

theorem saltersQuiet_of_idle {s : State} (h : ∀ n, (salt s n).mode = .idle) : saltersQuiet s = true := by
  simp [saltersQuiet, h]

/-- With its salters waiting and no twin to wait for, a DOZE entry writes the checkpoint and ends. -/
theorem dozeGo_ends {s : State} (hentry : s.pwr.ptrans = some .dozeEntry) (hquiet : saltersQuiet s = true)
    (htwin : s.twn.regs.twen = false) :
    dozeGo s = dozeFinish (modPwr (trimTail (writeCkpt s)) fun p => { p with ptrans := some .dozeWait }) := by
  have htwin' : (trimTail (writeCkpt s)).twn.regs.twen = false := htwin
  simp [dozeGo, hentry, hquiet, htwin']

/-- What each step of a fold makes true for its own element, and keeps for the others, holds of every element in the end. -/
theorem foldl_marks {α : Type} {Q : α → State → Prop} {g : State → α → State} (hmark : ∀ s a, Q a (g s a))
    (hkeep : ∀ s a b, Q b s → Q b (g s a)) (l : List α) : ∀ s, ∀ a ∈ l, Q a (l.foldl g s) := by
  induction l with
  | nil => exact fun s a ha => absurd ha List.not_mem_nil
  | cons b l ih =>
    intro s a ha
    rcases List.mem_cons.1 ha with rfl | ha
    · exact List.foldlRecOn (motive := Q a) l g (hmark s a) fun t ht c _ => hkeep t c a ht
    · exact ih (g s b) a ha

/-- A pan gated unless it is. -/
def gateOne (s : State) (p : Fin 64) : State := if (pn s p).pwr = .gated then s else gatePan s p

theorem gateOne_rest (s : State) (p : Fin 64) : ∃ v d, gateOne s p = { s with pan := v, qd := d } := by
  unfold gateOne
  split
  · exact ⟨_, _, rfl⟩
  · obtain ⟨d, hd⟩ := PanPower.gatePan_rest s p
    exact ⟨_, d, hd⟩

theorem pwr_gatePan (s : State) (p q : Fin 64) : (pn (gatePan s p) q).pwr = if p = q then .gated else (pn s q).pwr := by
  obtain ⟨d, hd⟩ := PanPower.gatePan_rest s p
  rw [hd]
  change (pn (modPan s p PanPower.gated) q).pwr = _
  split
  · next hpq =>
    subst hpq
    rw [pn_modPan]
    rfl
  · next hpq => rw [pn_modPan_ne _ hpq]

theorem gated_gateOne (s : State) (p : Fin 64) : (pn (gateOne s p) p).pwr = .gated := by
  unfold gateOne
  split
  · assumption
  · rw [pwr_gatePan, if_pos rfl]

theorem gated_gateOne_keeps (s : State) (p : Fin 64) {q : Fin 64} (h : (pn s q).pwr = .gated) : (pn (gateOne s p) q).pwr = .gated := by
  unfold gateOne
  split
  · exact h
  · rw [pwr_gatePan, h, ite_self]

theorem gateAll_rest (s : State) :
    ∃ v d, (List.finRange 64).foldl gateOne s = { s with pan := v, qd := d } ∧ ∀ q, (vget v q).pwr = .gated := by
  have hrest : ∃ v d, (List.finRange 64).foldl gateOne s = { s with pan := v, qd := d } :=
    List.foldlRecOn (motive := fun t : State => ∃ v d, t = { s with pan := v, qd := d }) _ _ ⟨_, _, rfl⟩ fun t ht p _ => by
      obtain ⟨v, d, rfl⟩ := ht
      obtain ⟨w, e, hone⟩ := gateOne_rest { s with pan := v, qd := d } p
      exact ⟨w, e, hone⟩
  have hgated : ∀ q, (pn ((List.finRange 64).foldl gateOne s) q).pwr = .gated := fun q =>
    foldl_marks (Q := fun q t => (pn t q).pwr = .gated) gated_gateOne (fun t p _ h => gated_gateOne_keeps t p h) _ s q
      (List.mem_finRange q)
  obtain ⟨v, d, hall⟩ := hrest
  rw [hall] at hgated
  exact ⟨v, d, hall, hgated⟩

/-- A trace record goes to the reservoir, and its index to the test page (R422). -/
theorem trace_rest (s : State) (kind : Nat) (p : PageId) (bs : List Byte) :
    ∃ r k, trace s kind p bs = { s with res := r, tst := k } := by
  unfold trace
  dsimp only
  split
  · exact ⟨_, _, rfl⟩
  · exact ⟨_, _, rfl⟩

/-- What the last steps of a DOZE entry leave: every pan GATED and the block in DOZE. -/
theorem dozeFinish_rest (s : State) : ∃ v d x r k, dozeFinish s =
    { s with pan := v, qd := d, tide := x, res := r, tst := k, pwr := { s.pwr with pstate := .doze, ptrans := none, pres := 1 } } ∧
    ∀ q, (vget v q).pwr = .gated := by
  obtain ⟨v, d, hall, hgated⟩ := gateAll_rest s
  unfold dozeFinish
  extract_lets gatedAll suspended dozing
  have hdozing : ∃ x, dozing =
      { s with pan := v, qd := d, tide := x, pwr := { s.pwr with pstate := .doze, ptrans := none, pres := 1 } } := by
    unfold dozing suspended
    rw [show gatedAll = _ from hall]
    exact ⟨_, rfl⟩
  obtain ⟨x, hdozing⟩ := hdozing
  obtain ⟨r, k, htraced⟩ := trace_rest dozing 5 .pwr _
  refine ⟨v, d, x, r, k, ?_, hgated⟩
  rw [tracePower, htraced, hdozing]

/-- PCMD DOZE of an idle block without a twin. -/
theorem dozeCommand_rest {s : State} (hok : dozeOk s = true) (hidle : ∀ n, (salt s n).mode = .idle) (htwin : s.twn.regs.twen = false) :
    ∃ sl v d x r k y, dozeCommand s =
      { s with slt := sl, pan := v, qd := d, tide := x, res := r, tst := k, tail := y, ckpt := s.hist
               pwr := { s.pwr with pstate := .doze, ptrans := none, pres := 1, ckptOk := true } } ∧
      ∀ q, (vget v q).pwr = .gated := by
  obtain ⟨sl, hsalters, hquiet⟩ := sltEvents_quiet (s := modPwr s fun p => { p with ptrans := some .dozeEntry }) hidle (List.finRange 8)
  have hends : dozeCommand s = _ := (if_neg (by simp [hok])).trans <| (congrArg dozeGo hsalters).trans <|
    dozeGo_ends rfl (saltersQuiet_of_idle hquiet) htwin
  obtain ⟨v, d, x, r, k, hfinish, hgated⟩ := dozeFinish_rest _
  exact ⟨sl, v, d, x, r, k, _, hends.trans hfinish, hgated⟩

/-- Settles O20: a DOZE entry that waits for nothing runs to its end in the command; WAKE by the power state, and the end of an entry
that waited in vain for the twin. -/
theorem sleepStartsAndEnds : Obligations.SleepStartsAndEnds := by
  unfold Obligations.SleepStartsAndEnds
  refine ⟨fun s hans hptrans hfail hok hidle htwin => ?_, fun s => ⟨fun hans hptrans hfail hdoze => ?_, fun hans hptrans hretain => ?_,
    fun hans hptrans hfail hactive => ?_, fun hwait => ?_⟩⟩
  · obtain ⟨sl, v, d, x, r, k, y, hleft, hgated⟩ := dozeCommand_rest (s := answer s cpOk) hok hidle htwin
    refine ⟨_, cpWrite_pcmd hans hptrans (.inl hfail) dozeCommand, ?_⟩
    rw [hleft]
    exact ⟨rfl, rfl, rfl, rfl, hgated, rfl, rfl, rfl, rfl⟩
  · refine (cpWrite_pcmd hans hptrans (.inl hfail) wakeCommand).trans (congrArg Host.Outcome.next ?_)
    exact wakeCommand_doze (s := answer s cpOk) hdoze
  · refine ⟨_, cpWrite_pcmd hans hptrans (.inr hretain) wakeCommand, ?_⟩
    rw [wakeCommand_retain (s := answer s cpOk) hretain]
    exact ⟨rfl, rfl, rfl, rfl, quad_suppliesOn _⟩
  · refine (cpWrite_pcmd hans hptrans (.inl hfail) wakeCommand).trans (congrArg Host.Outcome.next ?_)
    exact wakeCommand_active (s := answer s cpOk) hactive
  · exact ⟨_, exec_jlagto hwait, rfl, rfl, rfl, rfl⟩

/-! ### The erasure of the keys (R429) -/

/-- The states differ at most in what an erasure of the keys changes beside the SEC page: the event trace, the KEY port's KID, and the
SEC interrupt with its message. -/
def Erases (s t : State) : Prop :=
  t = { s with
    sec := t.sec, res := t.res, tst := t.tst, txns := t.txns
    glb := { s.glb with intpnd := t.glb.intpnd }
    pwr := { s.pwr with heldMsg := t.pwr.heldMsg }
    pins := { s.pins with keyKid := t.pins.keyKid } }

namespace Erases
variable {s t u : State}

theorem refl (s : State) : Erases s s := rfl

theorem trans (h : Erases s t) (k : Erases t u) : Erases s u := by
  unfold Erases at *
  rw [k, h]

theorem raiseInt (s : State) (i : Nat) : Erases s (raiseInt s i) := by
  unfold Machine.raiseInt sendMsg
  dsimp only
  split
  · split <;> rfl
  · rfl

theorem cp (h : Erases s t) : t.cp = s.cp := (congrArg State.cp h :)
theorem ckpt (h : Erases s t) : t.ckpt = s.ckpt := (congrArg State.ckpt h :)
theorem pwrGood (h : Erases s t) : t.pins.pwrGood = s.pins.pwrGood := (congrArg (·.pins.pwrGood) h :)

theorem traceKey (s : State) (slot event code : Nat) (kid : W32) : Erases s (traceKey s slot event code kid) := by
  obtain ⟨r, k, htraced⟩ := trace_rest s 6 .sec (leBytes 1 slot ++ leBytes 1 event ++ leBytes 1 code ++ [0] ++ leBytes 4 kid.toNat)
  rw [Machine.traceKey, htraced]
  rfl

end Erases

/-- A key slot emptied, and the erasure traced. -/
def eraseSlot (cause : Nat) (s : State) (i : Fin 2) : State :=
  traceKey (modSec s fun x => { x with lk := vset x.lk i {} }) i.1 3 cause (vget s.sec.lk i).kid

theorem eraseSlot_erases (cause : Nat) (s : State) (i : Fin 2) : Erases s (eraseSlot cause s i) :=
  .trans (t := modSec s fun x => { x with lk := vset x.lk i {} }) rfl (.traceKey ..)

theorem sec_eraseSlot (cause : Nat) (s : State) (i : Fin 2) :
    (eraseSlot cause s i).sec = { s.sec with lk := vset s.sec.lk i {} } := (keep_traceKey ..).1

theorem lk_eraseSlot (cause : Nat) (s : State) (i j : Fin 2) :
    vget (eraseSlot cause s i).sec.lk j = if i = j then {} else vget s.sec.lk j := by
  rw [sec_eraseSlot]
  exact vget_vset ..

/-- Both slots emptied. -/
def slotsErased (cause : Nat) (s : State) : State := (List.finRange 2).foldl (eraseSlot cause) s

theorem slotsErased_erases (cause : Nat) (s : State) :
    Erases s (slotsErased cause s) ∧ (slotsErased cause s).sec.dbglvl = s.sec.dbglvl :=
  List.foldlRecOn (motive := fun t : State => Erases s t ∧ t.sec.dbglvl = s.sec.dbglvl) _ _ ⟨.refl s, rfl⟩ fun t ht i _ =>
    ⟨ht.1.trans (eraseSlot_erases cause t i), by rw [sec_eraseSlot]; exact ht.2⟩

theorem lk_slotsErased (cause : Nat) (s : State) (i : Fin 2) : vget (slotsErased cause s).sec.lk i = {} :=
  foldl_marks (Q := fun i t => vget t.sec.lk i = {}) (fun t i => by rw [lk_eraseSlot, if_pos rfl])
    (fun t i j h => by rw [lk_eraseSlot, h, ite_self]) _ s i (List.mem_finRange i)

/-- What an erasure of both slots leaves. -/
structure KeysErased (s t : State) (cause : Nat) : Prop where
  erases : Erases s t
  slots : ∀ i, vget t.sec.lk i = {}
  kercause : t.sec.kercause = BitVec.ofNat 3 cause
  dbglvl : t.sec.dbglvl = s.sec.dbglvl

/-- A load that ends ERASED (R429). -/
def loadErased (s : State) : State :=
  modPins (modSec s fun x => { x with kload := none, kres := 5 }) fun p => { p with keyKid := 0 }

theorem KeysErased.loadErased {s t : State} {cause : Nat} (h : KeysErased s t cause) :
    KeysErased s (raiseInt (loadErased t) srcSec) cause := by
  have hended : Erases t (Sleep.loadErased t) := rfl
  have hsec : (raiseInt (Sleep.loadErased t) srcSec).sec = { t.sec with kload := none, kres := 5 } := (keep_raiseInt ..).1
  refine ⟨h.erases.trans (hended.trans (.raiseInt ..)), ?_, ?_, ?_⟩
  · rw [hsec]
    exact h.slots
  · rw [hsec]
    exact h.kercause
  · rw [hsec]
    exact h.dbglvl

theorem eraseBoth_erased (s : State) (cause : Nat) : KeysErased s (eraseBoth s cause) cause := by
  obtain ⟨herases, hlevel⟩ := slotsErased_erases cause s
  have hall : (List.finRange 2).filter (fun _ => true) = List.finRange 2 := List.filter_eq_self.2 fun _ _ => rfl
  unfold eraseBoth eraseKeys
  rw [hall]
  extract_lets gone erased counted
  have hcounted : KeysErased s counted cause := ⟨herases.trans rfl, lk_slotsErased cause s, rfl, hlevel⟩
  clear_value counted
  split
  · rw [if_pos rfl]
    exact hcounted.loadErased
  · exact hcounted

/-! ### RETAIN (R394) -/

theorem retainCommand_refused {s : State} (h : s.pwr.pstate ≠ .doze ∨ s.twn.regs.jstate = .joined) : retainCommand s = pRefused s :=
  if_pos (by simpa [joined] using h)

/-- What PCMD RETAIN leaves while a supply is still good. -/
theorem retainCommand_leaves {s : State} (hdoze : s.pwr.pstate = .doze) (halone : s.twn.regs.jstate ≠ .joined)
    (hpower : s.pins.pwrGood ≠ 0) {t : State} (ht : retainCommand s = t) :
    t.cp = s.cp ∧ t.pwr.ptrans = some .retainEntry ∧ (∀ i, vget t.sec.lk i = {}) ∧ t.sec.kercause = 2 ∧ t.sec.dbglvl = 0 ∧
      t.ckpt = s.hist ∧ t.pins.vidSEn = false ∧ ∀ q, (quad t q).vidEn = false ∧ (quad t q).vidCode = 0 := by
  subst ht
  obtain ⟨x, k, hsession, hlevel, -, -⟩ := endSession_rest s 2
  rw [retainCommand, if_neg (by simp [hdoze, joined, halone]), hsession]
  extract_lets checked
  have hchecked : checked.cp = s.cp ∧ checked.ckpt = s.hist ∧ checked.pins.pwrGood = s.pins.pwrGood ∧ checked.sec.dbglvl = 0 :=
    ⟨rfl, rfl, rfl, hlevel⟩
  obtain ⟨hcp, hckpt, hgood, hended⟩ := hchecked
  clear_value checked
  obtain ⟨herases, hslots, hcause, hsec⟩ := eraseBoth_erased checked 2
  generalize eraseBoth checked 2 = u at herases hslots hcause hsec
  have hpower' : u.pins.pwrGood ≠ 0 := by rwa [herases.pwrGood, hgood]
  rw [retainGo_powered (s := modPwr (suppliesOff u) fun p => { p with ptrans := some .retainEntry }) hpower']
  exact ⟨herases.cp.trans hcp, rfl, hslots, hcause, hsec.trans hended, herases.ckpt.trans hckpt, rfl, quad_suppliesOff u⟩

/-- Settles O21: what each step of RETAIN leaves, the supplies being still good; elsewhere the command is refused. -/
theorem retainErasesKeysAndSupplies : Obligations.RetainErasesKeysAndSupplies := by
  unfold Obligations.RetainErasesKeysAndSupplies
  refine fun s hans hptrans hfail => ⟨fun hdoze halone hpower => ?_, fun hrefused => ?_⟩
  · obtain ⟨hcp, htrans, hslots, hleft⟩ := retainCommand_leaves (s := answer s cpOk) hdoze halone hpower rfl
    exact ⟨_, cpWrite_pcmd hans hptrans (.inl hfail) retainCommand, hcp, htrans, fun i => by rw [hslots i], hleft⟩
  · refine (cpWrite_pcmd hans hptrans (.inl hfail) retainCommand).trans (congrArg Host.Outcome.next ?_)
    exact retainCommand_refused (s := answer s cpOk) hrefused

end Sys2Proof.Machine.Sleep

/-! SUPPORT. Settles O31 (CoreClockMultiplier): the word of FMUL and FNOW, what writes and a read of it do, and the end of a wake from
DOZE. -/

namespace Sys2Proof.Machine.CoreClock

open Sys2Proof.Machine.ShardState

/-! ### The word at 0x48 of the PWR page (R469) -/

def fmulField : RegF :=
  { lo := 0, w := 7, get := fun s => s.pwr.fmul.toNat, put := fun s v => modPwr s fun p => { p with fmul := bv 7 v }
    locked := fmulLocked, bad := fun _ _ v => rangeIf (decide (v < 40) || decide (88 < v)) }

def fnowField : RegF := { lo := 16, w := 7, get := fun s => s.pwr.fnow.toNat }

theorem fieldsAt_fmul : fieldsAt .pwr 0x48 = [fmulField, fnowField] := rfl

theorem wideAt_fmul : wideAt .pwr 0x48 = none ∧ highAt .pwr 0x48 = none := ⟨rfl, rfl⟩

/-- FMUL's word in the control window. -/
def fmulAddr : BitVec 25 := BitVec.ofNat 25 (0x400 * PageId.pwr.num + 0x12)

theorem atWindow_fmul (s : State) (page : PageId → Nat → State) (res : Nat → State) :
    atWindow s (4 * fmulAddr.toNat) page res = page .pwr 0x48 := rfl

/-- A value of FMUL and FNOW as a write of the word names them. -/
def fmulWrite (v : BitVec 7) : List (RegF × Nat) := [(fmulField, v.toNat), (fnowField, 0)]

theorem writeReg_fmul (s : State) (v : BitVec 7) :
    writeReg s .pwr 0x48 (v.setWidth 32) = writeFields s .pwr 0x48 v.toNat (fmulWrite v) := by
  have hword : (v.setWidth 32 : W32).toNat = v.toNat := by simp; omega
  have hlow : v.toNat / 2 ^ 0 % 2 ^ 7 = v.toNat := by omega
  have hhigh : v.toNat / 2 ^ 16 % 2 ^ 7 = 0 := by omega
  obtain ⟨hwide, hhighAt⟩ := wideAt_fmul
  simp only [writeReg, hwide, hhighAt, fieldsAt_fmul, Option.isSome_none, Bool.false_eq_true, if_false, hword, List.map_cons,
    List.map_nil, fmulWrite, fmulField, fnowField, hlow, hhigh]

/-! ### Writes (R388, R464) -/

theorem fmulLocked_asleep {s : State} (h : s.pwr.pstate = .doze ∨ s.pwr.pstate = .retain) : fmulLocked s = false := by
  rcases h with h | h <;> simp [fmulLocked, h]

theorem fmulLocked_active {s : State} (h : s.pwr.pstate = .active) : fmulLocked s = true := by simp [fmulLocked, h]

theorem dropCause_fmul_locked {s : State} (h : fmulLocked s = true) (w v : Nat) : dropCause s w fmulField v = some .runlock := if_pos h

theorem dropCause_fmul_range {s : State} (h : fmulLocked s = false) (w : Nat) {v : Nat} (hout : v < 40 ∨ 88 < v) :
    dropCause s w fmulField v = some .range := by
  simp [dropCause, fmulField, h, rangeIf, hout]

theorem dropCause_fmul_none {s : State} (h : fmulLocked s = false) (w : Nat) {v : Nat} (hlow : 40 ≤ v) (hhigh : v ≤ 88) :
    dropCause s w fmulField v = none := by
  simp [dropCause, fmulField, h, rangeIf, hlow, hhigh]

theorem modHdr_unchanged {s : State} {p : PageId} {f : PageHdr → PageHdr} (h : f (hdr s p) = hdr s p) : modHdr s p f = s := by
  have hvmod : vmod s.hdrs p.ix f = s.hdrs := by
    rw [vmod, show f (vget s.hdrs p.ix) = vget s.hdrs p.ix from h]
    exact Vector.set_getElem_self _
  rw [modHdr, hvmod]

theorem rejCnt_reject (h : PageHdr) (o : Nat) (c : Rej) : (h.reject o c).rejCnt = satAdd h.rejCnt 1 := by
  unfold PageHdr.reject
  dsimp only
  split <;> rfl

/-- A value in FMUL's range is stored where the field is not locked; FNOW beside it is read-only. -/
theorem writeReg_fmul_stores {s : State} {v : BitVec 7} (hfree : fmulLocked s = false) (hlow : 40 ≤ v.toNat) (hhigh : v.toNat ≤ 88) :
    writeReg s .pwr 0x48 (v.setWidth 32) = modPwr s fun p => { p with fmul := v } := by
  have hfmul := dropCause_fmul_none hfree v.toNat hlow hhigh
  have hfnow : dropCause s v.toNat fnowField 0 = none := rfl
  have hput : fnowField.put (fmulField.put s v.toNat) 0 = modPwr s fun p => { p with fmul := v } := by
    simp only [fnowField, fmulField, bv, BitVec.ofNat_toNat, BitVec.setWidth_eq]
  have hlocks : (fmulWrite v).any (fun x => x.1.locked s) = false := by simp [fmulWrite, fmulField, fnowField, hfree]
  rw [writeReg_fmul, writeFields, hlocks]
  simp only [fmulWrite, List.findSome?_cons, List.findSome?_nil, List.foldl_cons, List.foldl_nil, hfmul, hfnow, Option.isSome_none,
    Bool.false_eq_true, if_false, hput]
  exact modHdr_unchanged (if_neg (by simp [hdr]))

/-- A dropped value is recorded, and answered REJECT where the field is locked. -/
theorem writeReg_fmul_drops {s : State} {v : BitVec 7} {c : Rej} (hdrop : dropCause s v.toNat fmulField v.toNat = some c) :
    writeReg s .pwr 0x48 (v.setWidth 32) =
      if fmulLocked s then answer (cfgRej s .pwr 0x48 c) cpReject else cfgRej s .pwr 0x48 c := by
  have hfnow : dropCause s v.toNat fnowField 0 = none := rfl
  have hput : fnowField.put (cfgRej s .pwr 0x48 c) 0 = cfgRej s .pwr 0x48 c := rfl
  have hlocks : (fmulWrite v).any (fun x => x.1.locked s) = fmulLocked s := by simp [fmulWrite, fmulField, fnowField]
  have hcount : ¬ (hdr s .pwr).rejCnt.toNat + 1 < (hdr (cfgRej s .pwr 0x48 c) .pwr).rejCnt.toNat := by
    rw [cfgRej, hdr_modHdr, rejCnt_reject, satAdd, BitVec.toNat_ofNat]
    omega
  rw [writeReg_fmul, writeFields, hlocks]
  simp only [fmulWrite, List.findSome?_cons, List.foldl_cons, List.foldl_nil, hdrop, hfnow, Option.isSome_some, Option.isSome_none,
    Bool.false_eq_true, if_false, if_true, hput]
  split
  · exact congrArg (answer · cpReject) (modHdr_unchanged (if_neg hcount))
  · exact modHdr_unchanged (if_neg hcount)

/-- A write of FMUL's word whose effect touches no memory ends as the effect leaves it. -/
theorem exec_writeFmul {s : State} (hans : Answers s .pwr) (v : BitVec 7)
    (hlocal : Settlement.accesses (writeReg ((answer s cpOk).begin []) .pwr 0x48 (v.setWidth 32)) = Settlement.noAccesses) :
    exec (.registerWrite fmulAddr 0xF (v.setWidth 32)) s =
      .next { writeReg ((answer s cpOk).begin []) .pwr 0x48 (v.setWidth 32) with hostBad := [], who := none, rsv := false } := by
  change Host.Outcome.next (atWindow s (4 * fmulAddr.toNat) _ _) = _
  rw [atWindow_fmul, if_pos rfl, cpDo_answers hans]
  exact congrArg Host.Outcome.next (command_of_noAccesses (f := (writeReg · .pwr 0x48 (v.setWidth 32))) hlocal)

/-! ### The read (R457) -/

theorem readWord_fmul (s : State) : readWord s .pwr 0x48 = s.pwr.fmul.toNat + 2 ^ 16 * s.pwr.fnow.toNat := by
  obtain ⟨hwide, hhigh⟩ := wideAt_fmul
  simp only [readWord, hwide, hhigh, fieldsAt_fmul, fmulField, fnowField, List.map_cons, List.map_nil, List.sum_cons, List.sum_nil]
  omega

theorem readReg_fmul {s : State} (h : (hdr s .pwr).latch = none) :
    readReg s .pwr 0x48 = answer s cpOk (bv 32 (s.pwr.fmul.toNat + 2 ^ 16 * s.pwr.fnow.toNat)) := by
  have hlatch : latches .pwr 0x48 = false := rfl
  simp only [readReg, hlatch, h, readWord_fmul]
  simp

/-! ### The lock of the core PLL (R389, R393) -/

/-- A block that holds back no frame, no message and no record write has none to send (R245). -/
theorem creditBack_idle {s : State} (hframes : s.twn.held = []) (hmsgs : s.pwr.heldMsg = []) (hshards : s.shard = []) :
    creditBack s = s := by
  have hflips : issueFlips s = s := by simp [issueFlips, hshards]
  have hheld : sendHeldMsgs s = s := by
    rw [sendHeldMsgs, hmsgs, List.foldl_nil, ← hmsgs]
  rw [creditBack, hflips, hheld, serveHeld, hframes, serveHeldList, ite_self]

/-- What the end of a wake from DOZE leaves in a block that held back nothing: the clock is at FMUL. -/
theorem dozeWoken_rest {s : State} (hframes : s.twn.held = []) (hmsgs : s.pwr.heldMsg = []) (hshards : s.shard = []) :
    ∃ r k sl x v n, dozeWoken s =
      { s with
        res := r, tst := k, slt := sl, tide := x, pan := v
        pwr := { s.pwr with pstate := .active, ptrans := none, fnow := s.pwr.fmul, wakeCmd := false, pres := n } } := by
  unfold dozeWoken
  extract_lets cmd awake traced
  obtain ⟨r, k, htraced⟩ : ∃ r k, traced = { awake with res := r, tst := k } := Sleep.trace_rest ..
  obtain ⟨v, hwakes⟩ := serveWakes_pansOnly (tideResume (wakeSalters traced))
  rw [hwakes, htraced]
  exact ⟨r, k, _, _, v, _, creditBack_idle hframes hmsgs hshards⟩

theorem pllLock_wakes {s : State} (h : s.pwr.ptrans = some .dozeWake) (hrst : s.pins.rstLow = false) : pllLock s = dozeWoken s := by
  have hawaited : lockAwaited s = true := by simp [lockAwaited, h, hrst]
  simp [pllLock, hawaited, h]

/-- PLL_LOCK during a wake from DOZE of a block that held back nothing. -/
theorem exec_pllLock_wakes {s : State} (h : s.pwr.ptrans = some .dozeWake) (hrst : s.pins.rstLow = false) (hframes : s.twn.held = [])
    (hmsgs : s.pwr.heldMsg = []) (hshards : s.shard = []) :
    ∃ t, exec .pllLock s = .next t ∧ t.pwr.fnow = s.pwr.fmul ∧ t.pwr.pstate = .active := by
  obtain ⟨r, k, sl, x, v, n, hwoken⟩ := dozeWoken_rest (s := s.begin []) hframes hmsgs hshards
  have hlock : pllLock (s.begin []) = _ := (pllLock_wakes (s := s.begin []) h hrst).trans hwoken
  refine ⟨_, congrArg Host.Outcome.next (command_of_noAccesses (f := pllLock) ?_), ?_, ?_⟩
  · rw [hlock]
    rfl
  · rw [hlock]
    rfl
  · rw [hlock]

/-- Settles O31: the write is stored, out of range or locked by the power state alone; a wake from DOZE takes the value written. -/
theorem coreClockMultiplier : Obligations.CoreClockMultiplier := by
  unfold Obligations.CoreClockMultiplier
  refine ⟨rfl, fun v s hans => ⟨fun hasleep => ⟨fun hlow hhigh => ?_, fun hout => ?_⟩, fun hactive => ?_, fun hlatch => ?_,
    fun hdoze hwake hrst hframes hmsgs hshards => exec_pllLock_wakes hwake hrst hframes hmsgs hshards⟩⟩
  · have hstored := writeReg_fmul_stores (s := (answer s cpOk).begin []) (fmulLocked_asleep hasleep) hlow hhigh
    refine ⟨_, exec_writeFmul hans v (by rw [hstored]; rfl), ?_⟩
    rw [hstored]
    exact ⟨rfl, rfl, rfl⟩
  · have hfree : fmulLocked ((answer s cpOk).begin []) = false := fmulLocked_asleep hasleep
    have hdropped := writeReg_fmul_drops (dropCause_fmul_range hfree v.toNat hout)
    rw [hfree] at hdropped
    refine ⟨_, exec_writeFmul hans v (by rw [hdropped]; rfl), ?_⟩
    rw [hdropped]
    exact ⟨rfl, rfl, hdr_modHdr ..⟩
  · have hlocked : fmulLocked ((answer s cpOk).begin []) = true := fmulLocked_active hactive
    have hdropped := writeReg_fmul_drops (dropCause_fmul_locked hlocked v.toNat v.toNat)
    rw [hlocked] at hdropped
    refine ⟨_, exec_writeFmul hans v (by rw [hdropped]; rfl), ?_⟩
    rw [hdropped]
    exact ⟨rfl, rfl, hdr_modHdr ..⟩
  · change Host.Outcome.next (atWindow s (4 * fmulAddr.toNat) _ _) = _
    rw [atWindow_fmul, cpDo_answers hans, readReg_fmul (s := answer s cpOk) hlatch]
    rfl

end Sys2Proof.Machine.CoreClock

/-! SUPPORT. Refutes O23 (TemperatureAndVoltage) in its part on the AVS window that asks for less, by a quad whose VMAX software has
lowered under the code in force. -/

namespace Sys2Proof.LoweredVmax

open Sys2Proof.Machine

/-- An ACTIVE block with pan 0 LIVE. Quad 0 runs at 0x78, VMAX is now 0x50, and fifteen windows in a row lay over SLACKHI. -/
def lowered : State :=
  let s := modPan (modPwr State.reset fun x => { x with pstate := .active }) 0 fun x => { x with pwr := .live }
  modQd s 0 fun x => { x with vmax := 0x50, high := 15 }

/-- What the sixteenth such window leaves. -/
def left : State := avsWindow lowered 0 63

theorem exec_avsWindow_lowered : exec (.avsWindow 0 63) lowered = .next left := by rfl

theorem lowered_ready :
    lowered.pwr.pstate = .active ∧ quadLive lowered 0 = true ∧ (quad lowered 0).reqout = none ∧
      (hdr lowered (.qd 0)).mode = .active ∧ (quad lowered 0).slacklo.toNat ≤ (63 : BitVec 6).toNat ∧
      (quad lowered 0).slackhi.toNat < (63 : BitVec 6).toNat ∧
      (quad lowered 0).high = 15 ∧ (quad lowered 0).vmin.toNat < (quad lowered 0).vcode.toNat ∧ (quad lowered 0).vcode = 0x78 := by
  decide +kernel

/-- The request is for VMAX, as for every VCODE above a lowered VMAX (R479). -/
theorem left_asks_vmax : (quad left 0).reqout = some 0x50 := by
  decide +kernel

/-- Refutes O23: the statement has such a window ask for one code less, 0x77, whatever VMAX is; the model asks for at most VMAX
(`left_asks_vmax`). -/
theorem not_temperatureAndVoltage : ¬ Obligations.TemperatureAndVoltage := by
  unfold Obligations.TemperatureAndVoltage
  rintro ⟨-, -, avs⟩
  obtain ⟨hactive, hlive, hnone, hmode, hlo, hhi, hhigh, hvmin, hvcode⟩ := lowered_ready
  obtain ⟨t, hexec, -, -, -, less, -⟩ := avs 0 63 lowered hactive hlive hnone hmode
  obtain rfl : left = t := Host.Outcome.next.inj (exec_avsWindow_lowered.symm.trans hexec)
  have hasked := less hlo hhi hhigh hvmin
  rw [left_asks_vmax, hvcode] at hasked
  exact absurd hasked (by decide)

end Sys2Proof.LoweredVmax

/-! SUPPORT. Refutes O60 (BackgroundAndWatchdog) in its part on what a run of the tide table leaves of host memory, by a TELEM run that
finds a sensor at 125 °C in an instance that is JOINED. -/

namespace Sys2Proof.HotTelemetry

open Sys2Proof.Machine

/-- An OWNER shard whose job waits for the verdict of step 0, and a gradient of the next step that waits for it too (R285): the 32
FP32 elements of its plain tensor at 0x7000. -/
def waiting : Shard :=
  { srec := { role := 1 }, pend := true
    gd := { base := 0x7000, rows := 1, klen := 32, rowstride := 128, fmt := 1, layout := 2 }
    held := [{ no := 1, addr := 0x7000, bytes := List.replicate 128 1 }] }

/-- A READY instance, ACTIVE with every supply good, the only member of its domain, whose own flags of step 0 are not sent. -/
def lone : State :=
  let s := modPins State.reset fun x => { x with rstLow := false, pwrGood := allGood, vidSEn := true }
  let s := modGlb (modPwr s fun x => { x with pstate := .active }) fun g => { g with bstage := 8 }
  let s := modVrd (modTwnR s fun r => { r with jstate := .joined }) fun v => { v with activated := true }
  { s with shard := [(1, waiting)] }

/-- Every sensor at 125 °C. -/
def hot : Meas := { temp := Vector.replicate 17 1000 }

/-- What a run of entry 4 leaves, which is TELEM's (R404). -/
def left : State := command [] lone (tideStart · 4 hot)

theorem lone_due : tideDue lone 4 = true := by
  decide +kernel

theorem exec_tideRelease_lone : exec (.tideRelease 4 hot) lone = .next left :=
  congrArg Host.Outcome.next (if_pos lone_due)

/-- No job runs, so none leaves memory partly written. -/
theorem lone_jobless : (∀ n, partWritten lone n = []) ∧ smGet 0 lone.host 0x7000 = 0 := by
  decide +kernel

/-- The power-fail sequence sends the instance's flags with FAULT (R382), which decides the step's verdict here: SKIP. The shard is
released (R288), and its gradient lands. -/
theorem left_landed : left.flt.pfstate = 2 ∧ left.vrd.regs.vstep = 1 ∧ smGet 0 left.host 0x7000 = 1 := by
  decide +kernel

/-- Refutes O60: the statement has a run leave host memory but for the inactive slots of jobs that ran; in the sequence that the
readings start, a gradient that waited for the verdict lands (`left_landed`). -/
theorem not_backgroundAndWatchdog : ¬ Obligations.BackgroundAndWatchdog := by
  unfold Obligations.BackgroundAndWatchdog
  rintro ⟨runs, -⟩
  obtain ⟨release, -⟩ := runs 4 hot lone
  obtain ⟨t, hexec, hkeeps, -⟩ := release lone_due
  obtain rfl : left = t := Host.Outcome.next.inj (exec_tideRelease_lone.symm.trans hexec)
  obtain ⟨hjobless, hzero⟩ := lone_jobless
  have hsame : smGet 0 left.host 0x7000 = smGet 0 lone.host 0x7000 := hkeeps 0x7000 fun n x hx => by
    rw [hjobless n] at hx
    exact absurd hx List.not_mem_nil
  rw [left_landed.2.2, hzero] at hsame
  exact absurd hsame (by decide)

end Sys2Proof.HotTelemetry

/-! What every command keeps: the queue of waiting commands, and the soundness of the SEC page (R413, R420, R429). -/

namespace Sys2Proof.Machine.Invariance

/-- A command's outcome keeps the queue, and a sound SEC page sound. -/
def Kept (s : State) (o : Host.Outcome State Fault Refusal) : Prop := ∀ t, o = .next t → Keeps s t

theorem Kept.next {s t : State} (h : Keeps s t) : Kept s (.next t) := by
  rintro _ ⟨⟩; exact h

/-- A command that leaves the SEC page and the queue alone. -/
theorem Kept.of_eq {s t : State} (h : t.sec = s.sec ∧ t.pending = s.pending) : Kept s (.next t) := .next (.of_eq h)

theorem Kept.cpWrite {s : State} {p : PageId} {f : State → State} (h : ∀ s, Keeps s (f s)) :
    Kept s (Sys2Proof.Machine.cpWrite s p f) := .next (.cpDo h)

/-- A register write that leaves the SEC page and the queue alone. -/
theorem Kept.cpWrite_of_eq {s : State} {p : PageId} {f : State → State}
    (h : ∀ s, (f s).sec = s.sec ∧ (f s).pending = s.pending) : Kept s (Sys2Proof.Machine.cpWrite s p f) :=
  .cpWrite fun s => .of_eq (h s)

/-- A unit's command whose effect leaves the SEC page and the queue alone. -/
theorem Kept.commandAs_of_eq {w : Agent} {bad : List Nat} {s : State} {f : State → State}
    (h : ∀ s, (f s).sec = s.sec ∧ (f s).pending = s.pending) : Kept s (.next (commandAs w bad s f)) :=
  .next (.commandAs fun s => .of_eq (h s))

theorem Kept.command_of_eq {bad : List Nat} {s : State} {f : State → State}
    (h : ∀ s, (f s).sec = s.sec ∧ (f s).pending = s.pending) : Kept s (.next (command bad s f)) :=
  .next (.command fun s => .of_eq (h s))

theorem Kept.receive {bad : List Nat} {s : State} {k : Fin 8} {f : Frame} {lost : Bool} {code op : Nat}
    {act : State → Rx → State} {cakes : State → Frame → Bool}
    (h : ∀ s x, (act s x).sec = s.sec ∧ (act s x).pending = s.pending) :
    Kept s (.next (command bad s fun s => Sys2Proof.Machine.receive s k f lost code op act cakes)) :=
  .next (.command fun _ => .receive fun s x => .of_eq (h s x))

theorem Kept.receiveD {bad : List Nat} {s : State} {k : Fin 8} {f : Frame} {lost : Bool} {code op : Nat}
    {act : State → Rx → Bool × State} {cakes : State → Frame → Bool}
    (h : ∀ s x, (act s x).2.sec = s.sec ∧ (act s x).2.pending = s.pending) :
    Kept s (.next (command bad s fun s => Sys2Proof.Machine.receive s k f lost code op (takeD act) cakes)) :=
  .next (.command fun _ => .receive fun _ _ => .takeD h)

theorem Kept.ite {c : Prop} [Decidable c] {s t u : State} (ht : Kept s (.next t)) (hu : Kept s (.next u)) :
    Kept s (.next (if c then t else u)) := by
  split
  · exact ht
  · exact hu

theorem Kept.refl {s : State} : Kept s (.next s) := .of_eq ⟨rfl, rfl⟩

/-- An access of the control port's window. -/
theorem keeps_atWindow {s : State} {o : Nat} {page : PageId → Nat → State} {res : Nat → State}
    (hp : ∀ p o, Keeps s (page p o)) (hr : ∀ o, Keeps s (res o)) : Keeps s (Sys2Proof.Machine.atWindow s o page res) := by
  unfold Sys2Proof.Machine.atWindow
  split
  · exact hr _
  · split
    · exact .of_eq (by simp)
    · split
      · exact hp _ _
      · exact .of_eq (by simp)

theorem exec_kept (c : Instr) (s : State) : Kept s (exec c s) := by
  cases c
  case nop | faddS | fsubS | fmulS | fdivS | fmaS | fnmaS | f1S | f2S | fcmpS | faddD | fsubD | fmulD | fdivD | fmaD |
    fnmaD | f1D | f2D | fcmpD | cvt | bmrg | sel | mov | plog | setrm | iop => exact .of_eq (keep_runVec ..)
  case alu | addi | lui | xmov | csr | wfe | fence => exact .of_eq (keep_runScalar ..)
  case beq | bne | blt | bge => exact .of_eq (keep_branch ..)
  case jal => exact .of_eq (keep_runJump ..)
  case doorbell | cqCiWrite | vclose | plan | activate | rakeLoad | follow | drop | join | leave | vsharedWrite | tsGo | lforce |
    dwDataRead | dwDataWrite | dhHalt | dhStep | dhResume | ltrain | cgo | cevt | pflush | pgAbiWrite | cfgrejClear | errorAck |
    errcapClr | unfence | svcGo => exact .cpWrite_of_eq fun s => by simp
  case run | stop | quiesce | isolate | bypass | iarm | skipnow | release =>
    exact .cpWrite fun s => .command fun s => .of_eq (by simp)
  case orderFetch | orderTake | tideArm | epochGateCheck | tileStart | tileComplete | settle | partialNotice |
    completionWrite | pageInDone | cgoDone | svcDone => exact .commandAs_of_eq fun s => by simp
  case tile => exact .receiveD keep_serveTile
  case part => exact .receiveD keep_servePart
  case grant => exact .receiveD keep_serveGrant
  case write => exact .receiveD keep_serveWrite
  case rdreq => exact .receiveD keep_serveRdreq
  case rdrsp => exact .receiveD keep_serveRdrsp
  case hold => exact .receiveD keep_serveHold
  case vup | vdn | vack | credit | nack | probe | joinReq | joinDone | takeoverAnnounce | jrnl =>
    exact .receive fun s x => by simp
  case joinRefuse | joinReparent | takeoverAnswer | takeoverRelease | hbeat =>
    refine .receive fun s x => ?_
    (repeat' split) <;> simp
  case cakeReread => exact .of_eq (keep_cakeReread ..)
  case tileReplay => exact .of_eq (keep_tileReplay ..)
  case spareSwap => exact .of_eq (keep_spareFor ..)
  case panWakeDone => exact .of_eq (keep_panWakeDone ..)
  case pidleExpiry => exact .of_eq (keep_pidleExpiry ..)
  case vidAck => exact .of_eq (keep_vidAck ..)
  case avsWindow => exact .of_eq (keep_avsWindow ..)
  case tideRunComplete => exact .of_eq (keep_tideComplete ..)
  case wearSwap => exact .of_eq (keep_wearSwap ..)
  case wdog => exact .of_eq (keep_wdog ..)
  case testDone => exact .of_eq (keep_testDone ..)
  case selftestDone => exact .of_eq (keep_selftestDone ..)
  case sramInitDone => exact .of_eq (keep_sramInitDone ..)
  case commitFlipDone => exact .command_of_eq fun s => by simp
  case brineResponse => exact .command_of_eq fun s => by simp
  case pllLock => exact .command_of_eq fun s => by simp
  case tkwaitExpiry => exact .command_of_eq fun s => by simp
  case gradientLand => exact .command_of_eq fun s => by split <;> simp
  case flush => exact .next (.command fun s => .cpDo fun s => .of_eq (by simp))
  case secondPass => exact .commandAs_of_eq fun s => by split <;> simp
  case ld | ldw | st | stw | halt => exact .ite (.commandAs_of_eq fun s => by simp) .refl
  case trap => exact .ite (.of_eq (by simp)) .refl
  case sadv => exact .ite .refl (.ite (.commandAs_of_eq fun s => by simp) (.of_eq (by simp)))
  case bspl u w =>
    refine .of_eq ?_
    cases u
    · dsimp only; split <;> simp [runLanes]
    · simp [runLanes]
  case lds u w bad =>
    cases u <;> exact .ite (.commandAs_of_eq fun s => by simp) .refl
  case sts u w =>
    cases u
    · exact .ite (.of_eq (by simp)) .refl
    · exact .ite (.commandAs_of_eq fun s => by simp) .refl
  case flagsSend | finalSilence | takeoverTimeout | routeFail => exact .ite (.command_of_eq fun s => by simp) .refl
  case jobComplete => exact .ite (.commandAs_of_eq fun s => by simp) .refl
  case vslow | pageIn | twunclaimed | spareackTimeout | sfwaitExpiry | jlagto | vidto | handler | pllfail | pwrfail =>
    exact .ite (.of_eq (by simp)) .refl
  case laneFail | bpstall => exact .ite .refl (.of_eq (by simp))
  case tideRelease => exact .ite (.next (.command fun s => ⟨by simp, sec_tideStart s _ _⟩)) .refl
  case spare => exact .next (.receiveLctl fun s => .of_eq (by dsimp only; split <;> simp))
  case spareack => exact .next (.receiveLctl fun s => .of_eq (by simp))
  case spareSwitch | deskewDone => exact .of_eq (by simp)
  case releaseDone => exact .ite .refl (.ite (.of_eq (by simp)) (.of_eq (by simp)))
  case linkTrainDone => exact .ite .refl (.of_eq (by simp))
  case pwrGoodRise => exact .ite .refl (.ite (.of_eq (by simp)) (.of_eq (by simp)))
  case doze | wake => exact .cpWrite fun s => .pcmd fun s => .of_eq (by simp)
  case retain => exact .cpWrite fun s => .pcmd fun s => ⟨pend_retainCommand s, sec_retainCommand s⟩
  case aonSupplyLoss => exact .next ⟨pend_aonLoss s, fun _ => sec_aonLoss s⟩
  case pfWarn => exact .next (.command fun s => ⟨pend_pfWarn s _, sec_pfWarn s _⟩)
  case talm | ttrip => exact .next ⟨pend_reading .., sec_reading _ _ _⟩
  case lcsStateChange => exact .next ⟨pend_lcsChange .., sec_lcsChange _ _⟩
  case fwGo => exact .cpWrite fun s => ⟨pend_fwGo s, sec_fwGo s⟩
  case firmwareLoadDone => exact .next (.commandAs fun s => ⟨pend_fwLoadDone s, sec_fwLoadDone s⟩)
  case keyLoad => exact .cpWrite fun s => ⟨pend_keyLoad s _, sec_keyLoad s _⟩
  case keyErase => exact .cpWrite fun s => ⟨pend_keyErase s _, sec_keyErase s _⟩
  case keyAck => exact .next ⟨pend_keyAck .., sec_keyAck _ _ _⟩
  case txkselWrite => exact .cpWrite fun s => ⟨pend_txkselWrite s _, sec_txkselWrite s _⟩
  case dbgmaxWrite => exact .cpWrite fun s => ⟨pend_dbgmaxWrite s _, sec_dbgmaxWrite s _⟩
  case debugGrant => exact .next ⟨pend_debugGrant .., sec_debugGrant _ _⟩
  case rstNLow => exact .next ⟨pend_coldClear s, fun _ => sec_coldClear s⟩
  case coldReset => exact .next ⟨pend_coldStart .., fun _ => sec_coldStart ..⟩
  case warmReset => exact .ite (.next ⟨pend_warmStart s, sec_warmStart s⟩) .refl
  case intRouteWrite | instWrite => exact .cpWrite fun s => ⟨pend_writeReg .., sec_writeReg _ _ _ _⟩
  case reservoirWrite | reservoirRead => exact .next (.cpDo fun s => .of_eq (by simp))
  case wrapperReset | wsBypass | wsVersion => exact .of_eq (by simp)
  case wsExtest | wsIntestScan =>
    refine .next (.invasive fun s => ⟨by simp, fun h => sec_takeCore _ ?_⟩)
    rwa [(keep_loadWir s _).1]
  case wsTstregRead => exact .ite (.of_eq (by simp)) (.of_eq (by simp))
  case wsTstregWrite w d =>
    have hw : Keeps s (command [] (loadWir s 5) (writeReg · .tst (0x200 + 4 * w.toNat) d)) :=
      (Keeps.of_eq (keep_loadWir s 5)).trans (.command fun s => ⟨pend_writeReg .., sec_writeReg _ _ _ _⟩)
    exact .ite (.next (.trans (hw.trans (.of_eq ⟨rfl, rfl⟩)) (.of_eq (keep_tstregDone ..)))) (.of_eq (by simp))
  case wsSel => exact .next (.invasive fun s => .of_eq (by simp))
  case rakeCommandDone =>
    simp only [exec, execRakeCommandDone]
    split
    · exact .refl
    · exact .ite .refl (.next (.trans (.of_eq (keep_useStep s _)) (.commandAs fun s => .of_eq (by split <;> simp))))
  case rakeEvent =>
    simp only [exec, execRakeEvent]
    split
    · exact .refl
    · exact .ite (.next (.trans (.of_eq (keep_useStep s _)) (.commandAs fun s => .of_eq (by simp)))) .refl
  case rakeRetire =>
    simp only [exec, execRakeRetire]
    split
    · exact .refl
    · exact .ite (.commandAs_of_eq fun s => by simp) .refl
  case jobStart =>
    simp only [exec, execJobStart]
    split
    · exact .ite (.commandAs_of_eq fun s => by simp) .refl
    · exact .refl
  case followerFetch =>
    simp only [exec, execFollowerFetch]
    refine .ite .refl ?_
    split
    · exact .commandAs_of_eq fun s => by simp
    · exact .commandAs_of_eq fun s => by simp
    · exact .commandAs_of_eq fun s => by simp
    · exact .refl
  case shtCommandDone =>
    simp only [exec, execShtCommandDone]
    split
    · exact .refl
    · exact .command_of_eq fun s => by simp
    · exact .command_of_eq fun s => by simp
  case rtoExpiry | retransmit | creditTimer | probeTimer =>
    simp only [exec, execRtoExpiry, execRetransmit, execCreditTimer, execProbeTimer]
    split <;> exact .of_eq (by simp)
  case adopted =>
    simp only [exec, execAdopted]
    split
    · refine .next (.command fun s => ?_)
      have hw : Keeps s (if s.twn.tkWork then s else takeoverWork s) := .of_eq (by split <;> simp)
      generalize (if s.twn.tkWork then s else takeoverWork s) = u at hw ⊢
      refine hw.trans ?_
      split
      · exact ⟨pend_takeoverEnd .., sec_takeoverEnd _ _⟩
      · exact .refl _
    · exact .refl
  case brineTimeout =>
    simp only [exec, execBrineTimeout]
    split
    · exact .command_of_eq fun s => by simp
    · exact .refl
  case pwrGoodFall b =>
    refine .ite .refl ?_
    have hp : Keeps s (modPins s fun p => { p with pwrGood := setBit p.pwrGood b.1 false }) := .of_eq (by simp)
    exact .ite (.next (hp.trans (.command fun s => ⟨pend_pfWarn s _, sec_pfWarn s _⟩)))
      (.next (hp.trans ⟨pend_retainGo _, sec_retainGo _⟩))
  case refclkLoss =>
    exact .ite .refl (.next (.trans (.of_eq (by simp)) (.command fun s => ⟨pend_pfWarn s _, sec_pfWarn s _⟩)))
  case keyTimeout =>
    simp only [exec, execKeyTimeout]
    split
    · exact .next ⟨pend_keyEnd .., sec_keyEnd _ _ _ _⟩
    · exact .refl
  case registerWrite =>
    refine .next (keeps_atWindow (fun p o => ?_) fun o => .cpDo fun s => .of_eq (by simp))
    split
    · exact .cpDo fun s => .command fun s => ⟨pend_writeReg .., sec_writeReg _ _ _ _⟩
    · exact .of_eq (by simp)
  case wideReadLatch =>
    exact .next (keeps_atWindow (fun p o => .cpDo fun s => .of_eq (by simp)) fun o => .cpDo fun s => .of_eq (by simp))

theorem step_kept {s t : State} (h : step s = .next t) (hs : secOk s.sec) : secOk t.sec := by
  unfold step at h
  split at h
  · injection h with h
    subst h
    rw [(keep_dozeGo _).1, (keep_idleTick s).1]
    exact hs
  · exact (exec_kept _ _ _ h).sound hs

end Sys2Proof.Machine.Invariance

section
open Sys2Proof Sys2Proof.Machine Sys2Proof.Machine.Invariance

/-- Settles O3: every command runs in a shell that keeps the queue. -/
theorem commandsLeaveQueue : Obligations.CommandsLeaveQueue :=
  fun c s t h => (exec_kept c s t h).queue

/-- Settles O4: a step is a command, or a tick of the always-on clock, which does not touch the SEC page. -/
theorem stepKeepsSecuritySound : Obligations.StepKeepsSecuritySound := fun _ _ hs h => step_kept h hs

/-- Settles O5: every key slot is empty at reset, DBGLVL is 0, and no load has failed. -/
theorem resetSecuritySound : Obligations.ResetSecuritySound := secOk_default _ rfl rfl (by decide) (by simp [State.reset])

/-- Settles O1, by the definition of a step. -/
theorem stepRunsFrontCommand : Obligations.StepRunsFrontCommand := fun c rest s h => by
  simp only [step, h]
end

/-! SUPPORT. Settles O17, O19, O24, O25 and O26: what an erasure of key slots, a new debug level and the end of a key command leave of
the SEC page, and the commands that come to them. -/

namespace Sys2Proof.Machine.KeysAndLevels

open Sys2Proof.Machine.VerdictStep Sys2Proof.Machine.VerdictFrame Sys2Proof.Machine.JoinTwin Sys2Proof.Machine.Sleep
  Sys2Proof.Machine.FrameSent Sys2Proof.Machine.Takeover

/-! ### Key slots erased (R429) -/

theorem lk_foldl_eraseSlot (cause : Nat) (j : Fin 2) (l : List (Fin 2)) (s : State) :
    vget (l.foldl (eraseSlot cause) s).sec.lk j = if j ∈ l then {} else vget s.sec.lk j := by
  induction l generalizing s with
  | nil => rfl
  | cons i l ih =>
    rw [List.foldl_cons, ih, lk_eraseSlot]
    by_cases hl : j ∈ l
    · rw [if_pos hl, if_pos (List.mem_cons_of_mem i hl)]
    · simp only [List.mem_cons, hl, or_false, if_false, eq_comm]

theorem sec_foldl_eraseSlot (cause : Nat) (l : List (Fin 2)) (s : State) :
    Erases s (l.foldl (eraseSlot cause) s) ∧
      (l.foldl (eraseSlot cause) s).sec = { s.sec with lk := (l.foldl (eraseSlot cause) s).sec.lk } := by
  induction l generalizing s with
  | nil => exact ⟨.refl s, rfl⟩
  | cons i l ih =>
    obtain ⟨herases, hsec⟩ := ih (eraseSlot cause s i)
    refine ⟨(eraseSlot_erases cause s i).trans herases, ?_⟩
    rw [List.foldl_cons, hsec, sec_eraseSlot]

/-- What an erasure leaves of the SEC page. -/
structure Erased (s t : State) (which : Fin 2 → Bool) (cause : Nat) : Prop where
  erases : Erases s t
  sec : t.sec = { s.sec with
    lk := t.sec.lk, kerasecnt := satAdd s.sec.kerasecnt 1, kercause := BitVec.ofNat 3 cause, kload := t.sec.kload, kres := t.sec.kres }
  slots : ∀ j, vget t.sec.lk j = if which j then {} else vget s.sec.lk j
  idle : s.sec.kload = none → t.sec.kload = none

/-- The load in progress ends with it where its slot goes. -/
theorem Erased.loadErased {s t : State} {which : Fin 2 → Bool} {cause : Nat} (h : Erased s t which cause) :
    Erased s (raiseInt (loadErased t) srcSec) which cause := by
  obtain ⟨herases, hsec, hslots, -⟩ := h
  have hended : (raiseInt (Sleep.loadErased t) srcSec).sec = { t.sec with kload := none, kres := 5 } := (keep_raiseInt ..).1
  have herased : Erases t (Sleep.loadErased t) := rfl
  exact ⟨(herases.trans herased).trans (.raiseInt ..), by rw [hended, hsec], fun j => by rw [hended]; exact hslots j,
    fun _ => by rw [hended]⟩

theorem eraseKeys_erased (s : State) (which : Fin 2 → Bool) (cause : Nat) : Erased s (eraseKeys s which cause) which cause := by
  obtain ⟨herases, hsec⟩ := sec_foldl_eraseSlot cause ((List.finRange 2).filter which) s
  have hlk := fun j => lk_foldl_eraseSlot cause j ((List.finRange 2).filter which) s
  unfold eraseKeys
  extract_lets gone erased counted
  have herased : Erases s erased := herases
  have hkept : erased.sec = { s.sec with lk := erased.sec.lk } := hsec
  have hslots : ∀ j, vget erased.sec.lk j = if which j then {} else vget s.sec.lk j := fun j => (hlk j).trans (by simp)
  clear_value erased
  have hload : erased.sec.kload = s.sec.kload := (congrArg Sec.kload hkept :)
  have hcounted : Erased s counted which cause :=
    ⟨herased.trans rfl, by unfold counted; rw [modSec_sec, hkept], hslots, fun h => hload.trans h⟩
  split
  · split
    · exact hcounted.loadErased
    · exact hcounted
  · exact hcounted

theorem eraseBoth_empties (s : State) (cause : Nat) : Erased s (eraseBoth s cause) (fun _ => true) cause := eraseKeys_erased ..

/-! ### The debug level (R420, R425, R427) -/

/-- No unit's debug halt bit is set. -/
def NoneHalted (t : TstRegs) : Prop := t.dhPan = 0 ∧ t.dhHrv = 0 ∧ t.dhSlt = 0 ∧ t.dhRak = false

theorem setLevel_rest (s : State) (v : BitVec 2) (cause : Nat) : ∃ n e k, setLevel s v cause =
    { s with sec := { s.sec with dbglvl := v, dbgsess := n, dbgend := e }, tst := k } ∧
    (s.sec.dbglvl = 2 → v ≠ 2 → NoneHalted k.regs) := by
  unfold setLevel
  dsimp only
  split
  · exact ⟨_, _, _, rfl, fun _ _ => ⟨rfl, rfl, rfl, rfl⟩⟩
  · next hstays =>
    exact ⟨_, _, _, rfl, fun h hv => absurd (by simpa [h] using hv) hstays⟩

/-! ### LCS_STATE (R409, R410) -/

theorem lcsOf_eq : ∀ v : BitVec 4, lcsOf v = if v = 0 then (0, false) else if v = 3 then (1, false) else if v = 7 then (2, false)
    else if v = 15 then (3, false) else (3, true) := by
  decide

theorem lcsChange_erases {v : BitVec 4} {s : State} (hnew : v ≠ s.pins.lcsState) (hrst : s.pins.rstLow = false)
    (hon : s.pwr.pstate ≠ .off) :
    lcsChange s v = endSession (eraseBoth (modSec (modPins s fun p => { p with lcsState := v }) fun x => { x with lcschg := true }) 5) 6 :=
  if_neg (by simp [hnew, hrst, hon])

/-- Settles O24: the change erases as R429 does and ends the session; the cold start samples the pins anew. -/
theorem lcsChangeErasesKeys : Obligations.LcsChangeErasesKeys := by
  unfold Obligations.LcsChangeErasesKeys
  refine fun v s hnew hrst hon => ⟨?_, fun svn rv => ?_⟩
  · let noted := modSec (modPins s fun p => { p with lcsState := v }) fun x => { x with lcschg := true }
    obtain ⟨herases, hsec, hslots, -⟩ := eraseBoth_empties noted 5
    obtain ⟨n, e, k, hended, -⟩ := setLevel_rest (eraseBoth noted 5) 0 6
    refine ⟨_, congrArg Host.Outcome.next ((lcsChange_erases hnew hrst hon).trans hended), ?_, hslots, rfl, ?_, ?_, ?_, ?_⟩
    · exact (congrArg Sec.lcschg hsec :)
    · exact (congrArg Sec.lcs hsec :)
    · exact (congrArg Sec.kercause hsec :)
    · exact (congrArg State.host herases :)
    · exact (congrArg State.hdrs herases :)
  · refine ⟨_, rfl, ?_⟩
    exact lcsOf_eq v

/-! ### JOIN (R335, R345, R418) -/

theorem joinCommand_key {s : State} (hidle : s.twn.regs.jstate = .idle) (hvrd : pageState s .vrd ≠ .stopped)
    (h : protOk s.sec.lcs s.twn.regs.prot.toNat = false ∨
      (s.twn.regs.prot ≠ 0 ∧ (vget s.sec.lk s.sec.txksel).valid = false)) :
    joinCommand s = joinRefused s jKey := by
  have hdenies : (!protOk s.sec.lcs s.twn.regs.prot.toNat ||
      (s.twn.regs.prot ≠ 0 && !(vget s.sec.lk s.sec.txksel).valid)) = true := by
    rcases h with h | ⟨hsecured, hkey⟩
    · simp [h]
    · simp_all
  unfold joinCommand
  rw [if_neg (by simp [hidle, hvrd]), if_pos hdenies]

theorem joinCommand_session {s : State} (hidle : s.twn.regs.jstate = .idle) (hvrd : pageState s .vrd ≠ .stopped)
    (hprot : protOk s.sec.lcs s.twn.regs.prot.toNat = true) (hsecured : s.twn.regs.prot ≠ 0)
    (hkey : (vget s.sec.lk s.sec.txksel).valid = true)
    (hlast : s.twn.regs.session + 1 = (vget s.sec.lk s.sec.txksel).ksess0) :
    joinCommand s = joinRefused s jSession := by
  unfold joinCommand
  rw [if_neg (by simp [hidle, hvrd]), if_neg (by simp [hprot, hkey]), if_pos (by simp_all)]

/-- What a refused JOIN leaves. -/
theorem joinRefused_keeps (s : State) (err : Nat) :
    (joinRefused s err).cp = s.cp ∧ (joinRefused s err).sec = s.sec ∧
      (joinRefused s err).twn.regs.session = s.twn.regs.session := by
  unfold joinRefused
  rw [raiseInt_rest]
  exact ⟨rfl, rfl, rfl⟩

/-- Settles O17: the two refusals are the second and third checks of JCMD. -/
theorem joinRefusedWithoutKey : Obligations.JoinRefusedWithoutKey := by
  unfold Obligations.JoinRefusedWithoutKey
  refine fun s hans hidle hvrd => ⟨fun h => ?_, fun hprot hsecured hkey hlast => ?_⟩
  · obtain ⟨hstate, herr, hpending, -, -⟩ := joinRefused_leaves (answer s cpOk) jKey
    obtain ⟨hcp, hsec, hsession⟩ := joinRefused_keeps (answer s cpOk) jKey
    exact ⟨_, (exec_join hans).trans (congrArg _ (joinCommand_key hidle hvrd h)), hcp, hstate, herr, hsession, hpending, hsec⟩
  · obtain ⟨hstate, herr, -, -, -⟩ := joinRefused_leaves (answer s cpOk) jSession
    obtain ⟨hcp, -, hsession⟩ := joinRefused_keeps (answer s cpOk) jSession
    exact ⟨_, (exec_join hans).trans (congrArg _ (joinCommand_session hidle hvrd hprot hsecured hkey hlast)), hcp, hstate, herr,
      hsession⟩

/-! ### DOZE (R428) -/

theorem dozeCommand_halted {s : State} (h : noneHalted s = false) : dozeCommand s = pRefused s :=
  if_pos (by simp [dozeOk, h])

/-- Settles O19: a halted unit fails the conditions of DOZE. -/
theorem dozeRefusedWhileHalted : Obligations.DozeRefusedWhileHalted := by
  unfold Obligations.DozeRefusedWhileHalted
  intro s hans hptrans hfail hhalted
  have hnone : noneHalted (answer s cpOk) = false := by
    rcases hhalted with h | h | h | h <;> simp_all [noneHalted]
  exact (cpWrite_pcmd hans hptrans (.inl hfail) dozeCommand).trans (congrArg _ (dozeCommand_halted hnone))

/-! ### Key commands (R416, R417, R429, R444) -/

theorem keyCommand_free {s : State} {i : Fin 2} (habi : 0x0103 ≤ (hdr s .sec).abi.toNat) (hjoined : s.twn.regs.jstate ≠ .joined)
    (hfree : s.sec.kload = none) (f : State → State) : keyCommand s i f = f s := by
  have hlevel : ¬ (hdr s .sec).abi.toNat < 0x0103 := by omega
  unfold keyCommand
  rw [if_neg (by simp [hfree]), if_neg (by simp [hlevel]), if_neg (by simp [joined, hjoined])]

theorem keyCommand_busy {s : State} (i : Fin 2) (hbusy : s.sec.kload ≠ none) (f : State → State) :
    keyCommand s i f = keyResult s 6 :=
  if_pos (Option.isSome_iff_ne_none.mpr hbusy)

/-- A key command's result is noted in KRES and makes the SEC source pending. -/
theorem keyResult_rest (s : State) (r : BitVec 3) :
    (keyResult s r).sec = { s.sec with kres := r } ∧ (keyResult s r).cp = s.cp ∧ (keyResult s r).hdrs = s.hdrs ∧
      (keyResult s r).pins = s.pins ∧ bit (keyResult s r).glb.intpnd srcSec = true := by
  have hpending := raiseInt_pending (modSec s fun x => { x with kres := r }) (by decide : srcSec < 96)
  unfold keyResult
  rw [raiseInt_rest] at hpending ⊢
  exact ⟨rfl, rfl, rfl, rfl, hpending⟩

/-- The end of a running load leaves the slots alone. -/
theorem keyEnd_rest (s : State) (i : Fin 2) (kid : W32) (r : BitVec 3) :
    (keyEnd s i kid r).sec = { s.sec with kload := none, kres := r } ∧ (keyEnd s i kid r).pins.keyKid = 0 ∧
      bit (keyEnd s i kid r).glb.intpnd srcSec = true := by
  unfold keyEnd
  extract_lets ended
  obtain ⟨m, k, htraced⟩ := trace_rest ended 6 .sec
    (leBytes 1 i.1 ++ leBytes 1 (if r = 1 then 1 else 2) ++ leBytes 1 r.toNat ++ [0] ++ leBytes 4 kid.toNat)
  obtain ⟨hsec, -, -, hpins, hpending⟩ := keyResult_rest (traceKey ended i.1 (if r = 1 then 1 else 2) r.toNat kid) r
  rw [show traceKey ended i.1 (if r = 1 then 1 else 2) r.toNat kid = _ from htraced] at hsec hpins hpending ⊢
  exact ⟨hsec, congrArg Pins.keyKid hpins, hpending⟩

theorem keyAck_ok {s : State} {i : Fin 2} {kid : W32} (hload : s.sec.kload = some (i, kid)) {beats : List W64}
    (hbeats : beats.length = 4) :
    (keyAck s 0 beats).sec = { s.sec with
      lk := vset s.sec.lk i
        { valid := true, kid := kid, ksess0 := s.twn.regs.session, key := keyBits beats, preAdopt := false }
      kload := none, kres := 1 } := by
  simp only [keyAck, hload, hbeats, decide_true, Bool.and_self, if_true]
  rw [(keep_drainAll _).1, (keyEnd_rest ..).1]
  rfl

theorem keyAck_deny {s : State} {i : Fin 2} {kid : W32} (hload : s.sec.kload = some (i, kid)) {sts : BitVec 2} {beats : List W64}
    (h : sts ≠ 0 ∨ beats.length ≠ 4) : keyAck s sts beats = keyEnd s i kid 2 := by
  have hdenied : ¬ (sts = 0 && beats.length = 4) = true := by rcases h with h | h <;> simp_all
  simp only [keyAck, hload, hdenied]
  rfl

theorem keyLoad_starts {s : State} (hpermits : s.sec.lcs = 1 ∨ s.sec.lcs = 2) (hno : s.sec.noload = false) :
    ¬ (s.sec.lcs = lcsBlank || s.sec.lcs = lcsRma || s.sec.noload) = true := by
  rcases hpermits with h | h <;> simp [h, hno, lcsBlank, lcsRma]

theorem keyLoad_refused {s : State} (h : s.sec.lcs = 0 ∨ s.sec.lcs = 3 ∨ s.sec.noload = true) :
    (s.sec.lcs = lcsBlank || s.sec.lcs = lcsRma || s.sec.noload) = true := by
  rcases h with h | h | h <;> simp [h, lcsBlank, lcsRma]

/-- Settles O25: the checks of a key command in their order, then what the end of a load leaves. -/
theorem keysLoadedAndErased : Obligations.KeysLoadedAndErased := by
  unfold Obligations.KeysLoadedAndErased
  refine ⟨fun i s hans habi hjoined => ⟨fun hfree hpermits hno => ?_, fun hfree hforbids => ?_, fun hfree => ?_,
    fun hbusy c hc => ?_⟩, fun i kid beats sts s hload => ⟨fun hsts hbeats => ?_, fun hdenied => ?_, ?_⟩⟩
  · refine ⟨_, (cpWrite_answers hans _).trans (congrArg _ ((keyCommand_free (s := answer s cpOk) habi hjoined hfree _).trans
      (if_neg (keyLoad_starts hpermits hno)))), rfl, rfl, rfl, rfl, rfl⟩
  · obtain ⟨hsec, -, hhdrs, -, hpending⟩ := keyResult_rest (dropOk (answer s cpOk) .sec 0x94 .security) 4
    refine ⟨_, (cpWrite_answers hans _).trans (congrArg _ ((keyCommand_free (s := answer s cpOk) habi hjoined hfree _).trans
      (if_pos (keyLoad_refused hforbids)))), ?_, ?_, ?_, ?_, hpending⟩
    · exact (congrArg Sec.kload hsec).trans hfree
    · exact congrArg Sec.kres hsec
    · exact (congrArg Sec.lk hsec :)
    · exact (congrArg (vget · PageId.sec.ix) hhdrs).trans (hdr_modHdr ..)
  · obtain ⟨herases, hgone, hslots, -⟩ := eraseKeys_erased (answer s cpOk) (fun j => j == i) 3
    obtain ⟨hsec, hcp, -⟩ := keyResult_rest (eraseKeys (answer s cpOk) (fun j => j == i) 3) 1
    refine ⟨_, (cpWrite_answers hans _).trans (congrArg _ (keyCommand_free (s := answer s cpOk) habi hjoined hfree _)), ?_, ?_,
      fun j hj => ?_, ?_, ?_, ?_⟩
    · exact hcp.trans (congrArg State.cp herases :)
    · rw [hsec]
      exact (hslots i).trans (if_pos (beq_self_eq_true i))
    · rw [hsec]
      exact (hslots j).trans (if_neg (by simpa using hj))
    · rw [hsec]
      exact (congrArg Sec.kercause hgone :)
    · rw [hsec]
      exact (congrArg Sec.kerasecnt hgone :)
    · rw [hsec]
  · obtain ⟨hsec, -⟩ := keyResult_rest (answer s cpOk) 6
    rcases hc with rfl | rfl
    all_goals
      exact ⟨_, (cpWrite_answers hans _).trans (congrArg _ (keyCommand_busy (s := answer s cpOk) i hbusy _)),
        (congrArg Sec.kload hsec :), congrArg Sec.kres hsec, (congrArg Sec.lk hsec :)⟩
  · subst hsts
    have hsec := keyAck_ok hload hbeats
    refine ⟨_, rfl, congrArg Sec.kload hsec, congrArg Sec.kres hsec, ?_⟩
    simp only [hsec, vget_vset_self, true_and]
    exact fun j hj => vget_vset_ne _ _ _ _ hj.symm
  · obtain ⟨hsec, hpins, -⟩ := keyEnd_rest s i kid 2
    exact ⟨_, congrArg Host.Outcome.next (keyAck_deny hload hdenied), congrArg Sec.kload hsec, congrArg Sec.kres hsec,
      (congrArg Sec.lk hsec :), hpins⟩
  · obtain ⟨hsec, hpins, hpending⟩ := keyEnd_rest s i kid 3
    refine ⟨keyEnd s i kid 3, ?_, congrArg Sec.kload hsec, congrArg Sec.kres hsec, (congrArg Sec.lk hsec :), hpins, hpending⟩
    show execKeyTimeout s = _
    simp only [execKeyTimeout, hload]

/-! ### TXKSEL, DBGMAX and the debug grant (R417, R420, R421, R423) -/

theorem dbgmaxWrite_takes {s : State} {v : BitVec 2} (h : v.toNat ≤ s.sec.dbgmax.toNat) :
    (dbgmaxWrite s v).cp = s.cp ∧ (dbgmaxWrite s v).sec.dbgmax = v ∧
      (dbgmaxWrite s v).sec.dbglvl = (if v.toNat < s.sec.dbglvl.toNat then v else s.sec.dbglvl) ∧
      (dbgmaxWrite s v).sec.lk = s.sec.lk := by
  unfold dbgmaxWrite
  rw [if_neg (by omega)]
  extract_lets lowered
  split
  · next hbelow =>
    obtain ⟨n, e, k, hset, -⟩ := setLevel_rest lowered v 5
    rw [hset]
    exact ⟨rfl, rfl, (if_pos hbelow).symm, rfl⟩
  · next hbelow => exact ⟨rfl, rfl, (if_neg hbelow).symm, rfl⟩

theorem grantLevel_toNat (s : State) (v : BitVec 2) :
    (grantLevel s v).toNat = min (if s.sec.lcs = 0 then 2 else min v.toNat 2) s.sec.dbgmax.toNat := by
  unfold grantLevel lcsBlank
  split <;> simp only [BitVec.toNat_ofNat] <;> omega

/-- What the block does first where a grant makes the level INVASIVE in PROD. -/
def fencedForDebug (s : State) : State := enterFenced (modSec (eraseBoth s 4) fun x => { x with noload := true })

theorem sec_fencedForDebug (s : State) :
    (fencedForDebug s).sec = { (eraseBoth s 4).sec with noload := true } ∧ (fencedForDebug s).pins.dbgAck = s.pins.dbgAck := by
  have hpins : (eraseBoth s 4).pins.dbgAck = s.pins.dbgAck := (congrArg (·.pins.dbgAck) (eraseBoth_empties s 4).erases :)
  refine ⟨(keep_enterFenced _).1, ?_⟩
  unfold fencedForDebug enterFenced
  dsimp only
  split
  · exact hpins
  · exact hpins

/-- A grant taken up: the state it is taken up in, the level and the acknowledgement. -/
theorem debugGrant_taken {s : State} {v : BitVec 2} (hrst : s.pins.rstLow = false) (htaken : s.wrap.taken = false)
    (hactive : s.pwr.pstate = .active) (hfail : s.flt.pfstate = 0) :
    debugGrant s v =
      modPins (setLevel
        (if grantLevel s v = 2 && s.sec.lcs = lcsProd && s.sec.dbglvl ≠ 2 then
          fencedForDebug (modSec s fun x => { x with dbggrant := v })
        else modSec s fun x => { x with dbggrant := v }) (grantLevel s v) 1) fun p => { p with dbgAck := !p.dbgAck } :=
  if_neg (by simp [hrst, htaken, hactive, hfail])

theorem debugGrant_acknowledged {s : State} {v : BitVec 2} (hrst : s.pins.rstLow = false) (htaken : s.wrap.taken = false)
    (hactive : s.pwr.pstate = .active) (hfail : s.flt.pfstate = 0) :
    (debugGrant s v).pins.dbgAck = !s.pins.dbgAck ∧ (debugGrant s v).sec.dbggrant = v ∧
      (debugGrant s v).sec.dbglvl = grantLevel s v := by
  rw [debugGrant_taken hrst htaken hactive hfail]
  generalize htakes : (if grantLevel s v = 2 && s.sec.lcs = lcsProd && s.sec.dbglvl ≠ 2 then
    fencedForDebug (modSec s fun x => { x with dbggrant := v }) else modSec s fun x => { x with dbggrant := v }) = t
  have ht : t.pins.dbgAck = s.pins.dbgAck ∧ t.sec.dbggrant = v := by
    subst htakes
    split
    · obtain ⟨hsec, hack⟩ := sec_fencedForDebug (modSec s fun x => { x with dbggrant := v })
      refine ⟨hack, ?_⟩
      rw [hsec]
      exact (congrArg Sec.dbggrant (eraseBoth_empties (modSec s fun x => { x with dbggrant := v }) 4).sec :)
    · exact ⟨rfl, rfl⟩
  obtain ⟨n, e, k, hset, -⟩ := setLevel_rest t (grantLevel s v) 1
  rw [hset]
  exact ⟨congrArg not ht.1, ht.2, rfl⟩

theorem debugGrant_fences {s : State} {v : BitVec 2} (hrst : s.pins.rstLow = false) (htaken : s.wrap.taken = false)
    (hactive : s.pwr.pstate = .active) (hfail : s.flt.pfstate = 0) (hlevel : grantLevel s v = 2) (hprod : s.sec.lcs = lcsProd)
    (hbelow : s.sec.dbglvl ≠ 2) :
    (debugGrant s v).sec.dbglvl = 2 ∧ (∀ i, vget (debugGrant s v).sec.lk i = {}) ∧ (debugGrant s v).sec.kercause = 4 ∧
      (debugGrant s v).sec.noload = true ∧ (debugGrant s v).twn.regs.jstate = .fenced := by
  rw [debugGrant_taken hrst htaken hactive hfail, hlevel, if_pos (by simp [hprod]; exact hbelow)]
  let granted := modSec s fun x => { x with dbggrant := v }
  obtain ⟨hsec, -⟩ := sec_fencedForDebug granted
  obtain ⟨-, herased, hslots, -⟩ := eraseBoth_empties granted 4
  have hfenced : (fencedForDebug granted).twn.regs.jstate = .fenced := (enterFenced_leaves _).1
  obtain ⟨n, e, k, hset, -⟩ := setLevel_rest (fencedForDebug granted) 2 1
  rw [hset]
  refine ⟨rfl, fun i => ?_, ?_, ?_, hfenced⟩
  · exact (congrArg (vget ·.lk i) hsec).trans (hslots i)
  · exact (congrArg Sec.kercause hsec).trans (congrArg Sec.kercause herased :)
  · exact congrArg Sec.noload hsec

/-- Settles O26: each register's checks, then what a grant taken up leaves. -/
theorem debugLevels : Obligations.DebugLevels := by
  unfold Obligations.DebugLevels
  refine ⟨fun i v s hans habi => ?_, fun v s hrst htaken hactive hfail => ?_⟩
  · have hlevel : ¬ (i = 1 && decide ((hdr (answer s cpOk) .sec).abi.toNat < 0x0103)) = true := by
      have hnot : ¬ (hdr (answer s cpOk) .sec).abi.toNat < 0x0103 := Nat.not_lt.mpr habi
      simp only [hnot, decide_false, Bool.and_false, Bool.false_eq_true, not_false_eq_true]
    refine ⟨fun hvalid hpairs => ?_, fun hempty => ?_, fun hkeeps => ?_, fun hraises => ?_⟩
    · refine (cpWrite_answers hans (txkselWrite · i)).trans (congrArg Host.Outcome.next ?_)
      unfold txkselWrite
      rw [if_neg hlevel, if_neg (by simp [hvalid]), drainAll_queuesEmpty]
      exact fun x hx => absurd hx (by simp [hpairs])
    · refine (cpWrite_answers hans (txkselWrite · i)).trans (congrArg Host.Outcome.next ?_)
      unfold txkselWrite
      rw [if_neg hlevel, if_pos (by simp [hempty])]
      rfl
    · exact ⟨_, cpWrite_answers hans (dbgmaxWrite · v), dbgmaxWrite_takes (s := answer s cpOk) hkeeps⟩
    · exact (cpWrite_answers hans (dbgmaxWrite · v)).trans (congrArg Host.Outcome.next (if_pos hraises))
  · obtain ⟨hack, hgrant, hlevel⟩ := debugGrant_acknowledged (v := v) hrst htaken hactive hfail
    refine ⟨⟨_, rfl, hack, hgrant, (congrArg BitVec.toNat hlevel).trans (grantLevel_toNat s v)⟩, fun hprod hv hmax hbelow => ?_⟩
    have htop : grantLevel s v = 2 := by
      apply BitVec.eq_of_toNat_eq
      rw [grantLevel_toNat, hmax, if_neg (by rw [hprod]; decide), Nat.min_eq_right hv]
      rfl
    exact ⟨_, rfl, debugGrant_fences hrst htaken hactive hfail htop hprod hbelow⟩

end Sys2Proof.Machine.KeysAndLevels

/-! SUPPORT. Byte strings in memories: what a range reads after bytes are stored, and how ranges and little-endian numbers are
cut in two. -/

namespace Sys2Proof.Machine.Bytes

@[simp] theorem length_memBytes (m : SMap Byte) (a n : Nat) : (memBytes m a n).length = n := by simp [memBytes]

theorem memBytes_append (m : SMap Byte) (a n k : Nat) : memBytes m a (n + k) = memBytes m a n ++ memBytes m (a + n) k := by
  simp only [memBytes, List.range_add, List.map_append, List.map_map, Function.comp_def, Nat.add_assoc]

theorem memBytes_congr {m m' : SMap Byte} {a n : Nat} (h : ∀ i, i < n → smGet 0 m (a + i) = smGet 0 m' (a + i)) :
    memBytes m a n = memBytes m' a n :=
  List.map_congr_left fun i hi => h i (List.mem_range.mp hi)

theorem memBytes_memPut (m : SMap Byte) (a : Nat) (bs : List Byte) : memBytes (memPut m a bs) a bs.length = bs := by
  refine List.ext_getElem (by simp) fun i hi hi' => ?_
  have hinside : a ≤ a + i ∧ a + i < a + bs.length := by omega
  simp only [memBytes, List.getElem_map, List.getElem_range]
  rw [smGet_memPut, if_pos hinside, Nat.add_sub_cancel_left, List.getD_eq_getElem _ _ hi']

theorem smGet_memPut_outside (m : SMap Byte) {a b : Nat} {bs : List Byte} (h : b < a ∨ a + bs.length ≤ b) :
    smGet 0 (memPut m a bs) b = smGet 0 m b := by
  rw [smGet_memPut, if_neg (by omega)]

@[simp] theorem length_leBytes (n x : Nat) : (leBytes n x).length = n := by
  induction n generalizing x with
  | zero => rfl
  | succ n ih => simp [leBytes, ih]

theorem leBytes_add (n k x : Nat) : leBytes (n + k) x = leBytes n x ++ leBytes k (x / 256 ^ n) := by
  induction n generalizing x with
  | zero => simp [leBytes]
  | succ n ih => rw [Nat.succ_add, leBytes, leBytes, ih, List.cons_append, Nat.div_div_eq_div_mul, Nat.pow_succ']

theorem leBytes_mod (n x : Nat) : leBytes n (x % 256 ^ n) = leBytes n x := by
  induction n generalizing x with
  | zero => rfl
  | succ n ih =>
    have hhead : BitVec.ofNat 8 (x % 256 ^ (n + 1)) = BitVec.ofNat 8 x := by
      apply BitVec.eq_of_toNat_eq
      simp only [BitVec.toNat_ofNat, Nat.pow_succ']
      exact Nat.mod_mul_right_mod ..
    rw [leBytes, leBytes, hhead, Nat.pow_succ', Nat.mod_mul_right_div_self, ih]

/-- Eight bytes of two words, the low one first. -/
theorem leBytes_words (lo hi : W32) : leBytes 8 (lo.toNat + 2 ^ 32 * hi.toNat) = leBytes 4 lo.toNat ++ leBytes 4 hi.toNat := by
  have hlo : (lo.toNat + 2 ^ 32 * hi.toNat) % 256 ^ 4 = lo.toNat := by omega
  have hhi : (lo.toNat + 2 ^ 32 * hi.toNat) / 256 ^ 4 = hi.toNat := by omega
  rw [leBytes_add 4 4, ← leBytes_mod 4 (lo.toNat + _), hlo, hhi]

/-- The two words of eight bytes of memory. -/
theorem leAt_low (m : SMap Byte) (a : Nat) : leAt (memBytes m a 8) 0 4 = leNat (memBytes m a 4) := by
  rw [memBytes_append m a 4 4, leAt, List.drop_zero, List.take_left' (length_memBytes ..)]

theorem leAt_high (m : SMap Byte) (a : Nat) : leAt (memBytes m a 8) 4 4 = leNat (memBytes m (a + 4) 4) := by
  rw [memBytes_append m a 4 4, leAt, List.drop_left' (length_memBytes ..), List.take_of_length_le (by simp)]

end Sys2Proof.Machine.Bytes

/-! SUPPORT. Settles O27: debug halts, and the window on a salter's memory. -/

namespace Sys2Proof.Machine.DebugWindow

open Sys2Proof.Machine.KeysAndLevels Sys2Proof.Machine.Bytes Sys2Proof.Machine.TileAttempt Sys2Proof.Machine.VerdictFrame

/-! ### Halting units (R492) -/

theorem dhCommand_invasive {s : State} {u : Nat} (hlevel : s.sec.dbglvl = 2) (hu : u ≤ 0x50) (hok : dhUnitOk s u = true)
    (f : State → State) : dhCommand s u f = f s := by
  unfold dhCommand
  rw [if_neg (not_not.mpr hlevel), if_neg (by omega), if_neg (by simp [hok])]

theorem dhCommand_below {s : State} (hlevel : s.sec.dbglvl ≠ 2) (u : Nat) (f : State → State) :
    dhCommand s u f = dropOk s .tst 0xA0 .security :=
  if_pos hlevel

/-- The halt bit of a unit of R489 is what was written there. -/
theorem dhBit_setDh (s : State) {u : Nat} (hu : u ≤ 0x50) (b : Bool) : dhBit (setDh s u b).tst.regs u = b := by
  have hbit {w : Nat} (x : BitVec w) {i : Nat} (hi : i < w) : bit (setBit x i b) i = b := by
    cases b with
    | true => exact bit_setBit_self x hi
    | false => exact bit_setBit_cleared x i
  show dhBit (if u < 64 then _ else _) u = b
  unfold dhBit
  split
  · next h => exact hbit _ h
  · split
    · next h => exact hbit _ (by omega)
    · split
      · next h => exact hbit _ (by omega)
      · next hpan hhrv hslt =>
        have hrake : u = 0x50 := by omega
        simp [hrake]

theorem stepping_useStep (s : State) (u : Nat) : (useStep s u).tst.stepping.contains u = false := by
  simp [useStep, modTst]

/-! ### The window (R457, R491) -/

/-- DW_UNIT and DW_ADDR name eight bytes of a salter's memory. -/
structure OnSalter (s : State) (n : Fin 8) (a : Nat) : Prop where
  unit : s.tst.regs.dwUnit.toNat = 0x48 + n.1
  addr : s.tst.regs.dwAddr.toNat = 8 * a
  inside : 8 * a + 8 ≤ 0x40000

section
variable {s : State} {n : Fin 8} {a : Nat}

theorem OnSalter.dwOk (h : OnSalter s n a) : dwOk s = true := by
  obtain ⟨hunit, haddr, hinside⟩ := h
  have hsize : dwSize s.tst.regs.dwUnit.toNat = 0x40000 := by
    unfold dwSize
    rw [if_neg (by omega), if_neg (by omega), if_pos (by omega)]
  have hpan : ¬ s.tst.regs.dwUnit.toNat < 64 := by omega
  unfold Machine.dwOk
  simp only [hsize, haddr, hpan, dite_false, Bool.and_true, decide_eq_true_eq]
  omega

theorem OnSalter.dwBytes (h : OnSalter s n a) : dwBytes s = (memBytes (salt s n).lmem (8 * a) 8, s) := by
  obtain ⟨hunit, haddr, -⟩ := h
  have hn : (⟨s.tst.regs.dwUnit.toNat - 0x48, by omega⟩ : Fin 8) = n := Fin.ext (by simp [hunit])
  unfold Machine.dwBytes
  dsimp only
  rw [dif_neg (by omega), dif_neg (by omega), dif_pos (by omega), hn, haddr, Nat.mul_div_cancel_left _ (by decide), Nat.mul_comm]

theorem OnSalter.dwPut (h : OnSalter s n a) (bs : List Byte) :
    dwPut s bs = modSlt s n fun x => { x with lmem := memPut x.lmem (8 * a) bs } := by
  obtain ⟨hunit, haddr, -⟩ := h
  have hn : (⟨s.tst.regs.dwUnit.toNat - 0x48, by omega⟩ : Fin 8) = n := Fin.ext (by simp [hunit])
  unfold Machine.dwPut
  dsimp only
  rw [dif_neg (by omega), dif_neg (by omega), dif_pos (by omega), hn, haddr, Nat.mul_div_cancel_left _ (by decide), Nat.mul_comm]

theorem dwRead_low (h : OnSalter s n a) (hlevel : s.sec.dbglvl = 2) :
    dwRead s false = answer
      (modHdr s .tst fun h => { h with latch := some (0x90, BitVec.ofNat 32 (leNat (memBytes (salt s n).lmem (8 * a + 4) 4))) })
      cpOk (BitVec.ofNat 32 (leNat (memBytes (salt s n).lmem (8 * a) 4))) := by
  unfold dwRead
  rw [if_neg (by rw [hlevel]; decide), if_neg (by simp [h.dwOk]), if_pos Bool.not_false, h.dwBytes]
  dsimp only
  rw [leAt_low, leAt_high]

theorem dwRead_high (h : OnSalter s n a) (hlevel : s.sec.dbglvl = 2) {w : W32} (hlatch : (hdr s .tst).latch = some (0x90, w)) :
    dwRead s true = answer (dwStep (modHdr s .tst fun h => { h with latch := none })) cpOk w := by
  unfold dwRead
  rw [if_neg (by rw [hlevel]; decide), if_neg (by simp [h.dwOk]), if_neg (by simp)]
  simp only [hlatch]

theorem dwWrite_low (hlevel : s.sec.dbglvl = 2) (w : W32) :
    dwWrite s false w = modHdr s .tst fun h => { h with hold := some (0x90, w) } := by
  unfold dwWrite
  exact (if_neg (not_not.mpr hlevel)).trans (if_pos Bool.not_false)

/-- A window whose low word is held, as it stands while the high word is stored. -/
def dwHeld (s : State) (v w : W32) : State :=
  modTstR (modHdr s .tst fun h => { h with hold := none }) fun t => { t with dwData := BitVec.ofNat 64 (v.toNat + 2 ^ 32 * w.toNat) }

theorem dwWrite_high (h : OnSalter s n a) (hlevel : s.sec.dbglvl = 2) {v : W32} (hhold : (hdr s .tst).hold = some (0x90, v))
    (w : W32) :
    dwWrite s true w =
      dwStep (modSlt (dwHeld s v w) n fun x => { x with lmem := memPut x.lmem (8 * a) (leBytes 4 v.toNat ++ leBytes 4 w.toNat) }) := by
  have hheld : OnSalter (dwHeld s v w) n a := ⟨h.unit, h.addr, h.inside⟩
  unfold dwWrite
  rw [if_neg (not_not.mpr hlevel), if_neg (by simp), if_neg (by simp [h.dwOk])]
  simp only [hhold]
  rw [leBytes_words]
  exact congrArg dwStep (hheld.dwPut _)

end

/-! ### The level falls (R425) -/

/-- A level below INVASIVE lets every halted unit go on, and touches nothing but SEC and TST. -/
theorem setLevel_resumes {s : State} {v : BitVec 2} (hlevel : s.sec.dbglvl = 2) (hv : v ≠ 2) (cause : Nat) :
    (setLevel s v cause).sec.dbglvl ≠ 2 ∧ NoneHalted (setLevel s v cause).tst.regs ∧ (setLevel s v cause).pan = s.pan ∧
      (setLevel s v cause).hrv = s.hrv ∧ (setLevel s v cause).slt = s.slt := by
  obtain ⟨n, e, k, hset, hnone⟩ := setLevel_rest s v cause
  rw [hset]
  exact ⟨hv, hnone hlevel hv, rfl, rfl, rfl⟩

theorem dbgmaxWrite_resumes {s : State} {v : BitVec 2} (hlevel : s.sec.dbglvl = 2) (hv : v.toNat < 2)
    (hmax : v.toNat ≤ s.sec.dbgmax.toNat) :
    dbgmaxWrite s v = setLevel (modSec s fun x => { x with dbgmax := v }) v 5 := by
  unfold dbgmaxWrite
  rw [if_neg (by omega), if_pos (by simpa [hlevel] using hv)]

theorem debugGrant_resumes {s : State} {v : BitVec 2} (hrst : s.pins.rstLow = false) (htaken : s.wrap.taken = false)
    (hactive : s.pwr.pstate = .active) (hfail : s.flt.pfstate = 0) (hlow : grantLevel s v ≠ 2) :
    debugGrant s v =
      modPins (setLevel (modSec s fun x => { x with dbggrant := v }) (grantLevel s v) 1) fun p => { p with dbgAck := !p.dbgAck } := by
  rw [debugGrant_taken hrst htaken hactive hfail,
    if_neg (by simp only [hlow, decide_false, Bool.false_and, Bool.false_eq_true, not_false_eq_true])]

/-- A page other than GLB's goes on answering when its own header changes. -/
theorem answers_modHdr {s : State} {p : PageId} (h : Answers s p) (hp : p ≠ .glb) (f : PageHdr → PageHdr) :
    Answers (modHdr s p f) p :=
  ⟨h.1, (congrArg (fun x : PageHdr => x.iarm && !x.imode && x.injEff == cLockstep) (hdr_modHdr_ne s hp f)).trans h.2⟩

theorem salt_dwStep (s : State) (n : Fin 8) : salt (dwStep s) n = salt s n := rfl

/-- Both halves of the window read. -/
theorem window_read {s : State} {n : Fin 8} {a : Nat} (hans : Answers s .tst) (hlevel : s.sec.dbglvl = 2)
    (h : OnSalter (answer s cpOk) n a) :
    ∃ t u, exec (.dwDataRead false) s = .next t ∧ t.cp.code = 0 ∧
      t.cp.data = BitVec.ofNat 32 (leNat (memBytes (salt s n).lmem (8 * a) 4)) ∧
      exec (.dwDataRead true) t = .next u ∧ u.cp.data = BitVec.ofNat 32 (leNat (memBytes (salt s n).lmem (8 * a + 4) 4)) ∧
      u.tst.regs.dwAddr = s.tst.regs.dwAddr + 8 ∧ u.slt = s.slt := by
  generalize hword : BitVec.ofNat 32 (leNat (memBytes (salt s n).lmem (8 * a + 4) 4)) = word
  generalize hlow : BitVec.ofNat 32 (leNat (memBytes (salt s n).lmem (8 * a) 4)) = low
  have hread : dwRead (answer s cpOk) false =
      answer (modHdr (answer s cpOk) .tst fun h => { h with latch := some (0x90, word) }) cpOk low := by
    rw [← hword, ← hlow]
    exact dwRead_low h hlevel
  have hans' := answers_modHdr (s := answer s cpOk) hans (by decide : PageId.tst ≠ .glb) fun h =>
    { h with latch := some (0x90, word) }
  have hlatch := congrArg PageHdr.latch (hdr_modHdr (answer s cpOk) .tst fun h => { h with latch := some (0x90, word) })
  generalize hlatched : modHdr (answer s cpOk) .tst (fun h => { h with latch := some (0x90, word) }) = t at hread hans' hlatch
  have hsec : t.sec = s.sec := hlatched ▸ rfl
  have htst : t.tst = s.tst := hlatched ▸ rfl
  have hslt : t.slt = s.slt := hlatched ▸ rfl
  have hsecond := dwRead_high (s := answer (answer t cpOk low) cpOk) (w := word)
    ⟨(congrArg (·.regs.dwUnit.toNat) htst).trans h.unit, (congrArg (·.regs.dwAddr.toNat) htst).trans h.addr, h.inside⟩
    ((congrArg Sec.dbglvl hsec).trans hlevel) hlatch
  exact ⟨_, _, (cpWrite_answers hans _).trans (congrArg _ hread), rfl, rfl,
    (cpWrite_answers (s := answer t cpOk low) hans' _).trans (congrArg _ hsecond), rfl,
    congrArg (·.regs.dwAddr + 8) htst, by simp only [dwStep, answer_slt, modTstR_slt, modHdr_slt, hslt]⟩

/-- Both halves of the window written. -/
theorem window_write {s : State} {n : Fin 8} {a : Nat} (hans : Answers s .tst) (hlevel : s.sec.dbglvl = 2)
    (h : OnSalter (answer s cpOk) n a) (lo hi : W32) :
    ∃ t u, exec (.dwDataWrite false lo) s = .next t ∧ t.slt = s.slt ∧ exec (.dwDataWrite true hi) t = .next u ∧ u.cp = {} ∧
      memBytes (salt u n).lmem (8 * a) 8 = leBytes 4 lo.toNat ++ leBytes 4 hi.toNat ∧
      (∀ b, b < 8 * a ∨ 8 * a + 8 ≤ b → smGet 0 (salt u n).lmem b = smGet 0 (salt s n).lmem b) ∧
      (∀ m, m ≠ n → salt u m = salt s m) ∧ u.tst.regs.dwAddr = s.tst.regs.dwAddr + 8 := by
  have hans' := answers_modHdr (s := answer s cpOk) hans (by decide : PageId.tst ≠ .glb) fun h => { h with hold := some (0x90, lo) }
  have hhold := congrArg PageHdr.hold (hdr_modHdr (answer s cpOk) .tst fun h => { h with hold := some (0x90, lo) })
  have hfirst := dwWrite_low (s := answer s cpOk) hlevel lo
  generalize hheld : modHdr (answer s cpOk) .tst (fun h => { h with hold := some (0x90, lo) }) = t at hfirst hans' hhold
  have hsec : t.sec = s.sec := hheld ▸ rfl
  have htst : t.tst = s.tst := hheld ▸ rfl
  have hslt : t.slt = s.slt := hheld ▸ rfl
  have hsecond := dwWrite_high (s := answer t cpOk) (v := lo)
    ⟨(congrArg (·.regs.dwUnit.toNat) htst).trans h.unit, (congrArg (·.regs.dwAddr.toNat) htst).trans h.addr, h.inside⟩
    ((congrArg Sec.dbglvl hsec).trans hlevel) hhold hi
  have hlen : (leBytes 4 lo.toNat ++ leBytes 4 hi.toNat).length = 8 := by simp
  have hsalt (m : Fin 8) : salt (dwHeld (answer t cpOk) lo hi) m = salt s m := congrArg (vget · m) hslt
  generalize leBytes 4 lo.toNat ++ leBytes 4 hi.toNat = bs at hlen hsecond ⊢
  refine ⟨_, _, (cpWrite_answers hans _).trans (congrArg Host.Outcome.next hfirst), hslt,
    (cpWrite_answers hans' _).trans (congrArg Host.Outcome.next hsecond), rfl, ?_, fun b hb => ?_, fun m hm => ?_,
    congrArg (·.regs.dwAddr + 8) htst⟩
  · rw [salt_dwStep, salt_modSlt, hsalt, ← hlen]
    exact memBytes_memPut ..
  · rw [salt_dwStep, salt_modSlt, hsalt]
    exact smGet_memPut_outside _ (by omega)
  · rw [salt_dwStep, salt_modSlt_ne _ hm.symm, hsalt]

/-- Settles O27: the halt bits, the fall of the level, and the window's two halves. -/
theorem debugUnits : Obligations.DebugUnits := by
  unfold Obligations.DebugUnits
  refine ⟨fun u s hans hu => ⟨fun hlevel hok => ?_, fun hlevel c hc => ?_⟩,
    fun v s hlevel hrst htaken hactive hfail hlcs hans hv c hc => ?_,
    fun n a lo hi s hans hlevel hunit haddr hinside => ?_⟩
  · have hruns := fun f => dhCommand_invasive (s := answer s cpOk) hlevel hu hok f
    refine ⟨⟨_, (cpWrite_answers hans _).trans (congrArg _ (hruns _)), rfl, dhBit_setDh (answer s cpOk) hu true, ?_⟩,
      ⟨_, (cpWrite_answers hans _).trans (congrArg _ (hruns _)), rfl, dhBit_setDh (answer s cpOk) hu true, ?_⟩,
      ⟨_, (cpWrite_answers hans _).trans (congrArg _ (hruns _)), rfl, dhBit_setDh (answer s cpOk) hu false, rfl⟩⟩
    · have hbit : dhBit (useStep (setDh (answer s cpOk) u.toNat true) u.toNat).tst.regs u.toNat = true := dhBit_setDh _ hu true
      rw [halted, hbit, stepping_useStep]
      rfl
    · simp [halted, modTst]
  · have hdrops := fun f => dhCommand_below (s := answer s cpOk) hlevel u.toNat f
    rcases List.mem_cons.mp hc with rfl | hc
    · exact (cpWrite_answers hans _).trans (congrArg _ (hdrops _))
    · rcases List.mem_cons.mp hc with rfl | hc
      · exact (cpWrite_answers hans _).trans (congrArg _ (hdrops _))
      · obtain rfl := List.mem_singleton.mp hc
        exact (cpWrite_answers hans _).trans (congrArg _ (hdrops _))
  · rcases hc with rfl | ⟨rfl, hmax⟩
    · have hlow : grantLevel s v ≠ 2 := fun h => by
        have htop := (congrArg BitVec.toNat h).symm.trans (grantLevel_toNat s v)
        rw [if_neg hlcs] at htop
        have : (2 : BitVec 2).toNat = 2 := rfl
        omega
      obtain ⟨hends, ⟨hpan, hhrv, hslt, hrake⟩, hkept⟩ :=
        setLevel_resumes (s := modSec s fun x => { x with dbggrant := v }) hlevel hlow 1
      exact ⟨_, congrArg Host.Outcome.next (debugGrant_resumes hrst htaken hactive hfail hlow), hends, hpan, hhrv, hslt, hrake, hkept⟩
    · have hlow : v ≠ 2 := fun h => by simp [h] at hv
      obtain ⟨hends, ⟨hpan, hhrv, hslt, hrake⟩, hkept⟩ :=
        setLevel_resumes (s := modSec (answer s cpOk) fun x => { x with dbgmax := v }) hlevel hlow 5
      exact ⟨_, (cpWrite_answers hans _).trans (congrArg _ (dbgmaxWrite_resumes (s := answer s cpOk) hlevel hv hmax)), hends,
        hpan, hhrv, hslt, hrake, hkept⟩
  · have hwindow : OnSalter (answer s cpOk) n a := ⟨hunit, haddr, hinside⟩
    exact ⟨window_read hans hlevel hwindow, window_write hans hlevel hwindow lo hi⟩

end Sys2Proof.Machine.DebugWindow

/-! SUPPORT. Settles O28: FW_GO, and what the judgement of an image leaves. -/

namespace Sys2Proof.Machine.FirmwareLoad

open Sys2Proof.Machine.Settlement Sys2Proof.Machine.VerdictStep Sys2Proof.Machine.FrameSent Sys2Proof.Machine.TileAttempt
  Sys2Proof.Machine.Takeover Sys2Proof.Machine.Bytes

/-! ### The image read (R413) -/

theorem rdHost_here {s : State} {a : Nat} (h : Here s a) (hc : Credits s) (hb : s.hostBad = []) (n : Nat) :
    rdHost s a n = (some (memBytes s.host (hostAddr s a) n), s) := by
  simp [rdHost, show apertureOf s (addr64 a) = none from h, hb, useCredit_of_credits hc]

/-- The header of the image at FW_BASE. -/
def header (s : State) : List Byte := memBytes s.host (hostAddr s s.sec.fwBase.toNat) 256

/-- The payload that the header describes. -/
def payload (s : State) : List Byte := memBytes s.host (hostAddr s (s.sec.fwBase.toNat + 256)) (leAt (header s) 8 4)

/-- The result of the judgement. -/
def verdict (s : State) : Nat := if fwFormatOk (header s) then fwVerdict s (header s) (payload s) else 3

theorem fwCheck_here {s : State} (hhead : Here s s.sec.fwBase.toNat) (hbody : Here s (s.sec.fwBase.toNat + 256)) (hc : Credits s)
    (hb : s.hostBad = []) :
    fwCheck s = ((verdict s, header s, if fwFormatOk (header s) then payload s else []), s) := by
  unfold fwCheck verdict
  dsimp only
  rw [rdHost_here hhead hc hb]
  dsimp only
  rw [rdHost_here hbody hc hb]
  by_cases hformat : fwFormatOk (header s)
  · rw [if_pos hformat, if_pos hformat, if_neg (by simpa [header] using hformat)]
    rfl
  · rw [if_neg hformat, if_neg hformat, if_pos (by simpa [header] using hformat)]
    rfl

/-! ### After a warm start (R289, R381) -/

theorem issueFlips_rest (s : State) : ∃ x, issueFlips s = { s with txns := x } := by
  unfold issueFlips
  split
  · exact ⟨s.txns, rfl⟩
  · refine List.foldlRecOn (motive := fun t : State => ∃ x, t = { s with txns := x }) s.shard _ ⟨s.txns, rfl⟩ fun t ht i _ => ?_
    obtain ⟨x, rfl⟩ := ht
    dsimp only
    split
    · split
      · exact ⟨_, rfl⟩
      · exact ⟨_, rfl⟩
    · exact ⟨_, rfl⟩

theorem restoreHistory_rest (s : State) : ∃ x, restoreHistory s = { s with hist := x } := by
  unfold restoreHistory
  split
  · exact ⟨_, rfl⟩
  · exact ⟨_, rfl⟩

/-- Without mask directory entries only the scale history and the flips' transactions change. -/
theorem fwRestore_rest {s : State} (hdir : s.flt.lastrst = 1 → s.dir = []) :
    ∃ x m, fwRestore s = { s with hist := x, txns := m } := by
  obtain ⟨x, hhist⟩ := restoreHistory_rest s
  unfold fwRestore
  split
  · next hwarm =>
    obtain ⟨m, hflips⟩ := issueFlips_rest { s with hist := x }
    exact ⟨x, m, by rw [hhist, hflips, resumeRake, hdir hwarm, List.foldl_nil]⟩
  · split
    · exact ⟨x, _, hhist⟩
    · exact ⟨_, _, rfl⟩

/-! ### The judgement (R414, R415) -/

/-- The load ended with its result. -/
def judged (s : State) (res : Nat) : State := modSec s fun x => { x with fwRun := false, fwRes := BitVec.ofNat 4 res }

/-- What PASS holds of the image. -/
def held (s : State) (h : List Byte) : State :=
  modSec s fun x =>
    { x with fwSvn := BitVec.ofNat 8 (byteAt h 12), fwKey := BitVec.ofNat 2 (byteAt h 13), fwDigest := (h.drop 64).take 48 }

/-- What any other result counts. -/
def failed (s : State) : State :=
  modSec s fun x => { x with fwFail := satAdd x.fwFail 1, fwLock := x.fwLock || decide (2 ≤ x.fwFail.toNat) }

theorem fwLoadDone_pass {s : State} {h p : List Byte} (hrun : s.sec.fwRun = true) (hcheck : fwCheck s = ((1, h, p), s)) :
    fwLoadDone s = if s.glb.bstage == 4 then
      fwRestore (modGlb (raiseInt (fwStart (held (judged s 1) h) h p) srcSec) fun g => { g with bstage := 5 })
      else raiseInt (fwStart (held (judged s 1) h) h p) srcSec := by
  simp only [fwLoadDone, hrun, hcheck, Bool.not_true, Bool.false_eq_true, if_false, if_true]
  rfl

theorem fwLoadDone_fail {s : State} {res : Nat} {h p : List Byte} (hrun : s.sec.fwRun = true)
    (hcheck : fwCheck s = ((res, h, p), s)) (hres : res ≠ 1) :
    fwLoadDone s = if s.glb.bstage == 4 then
      raiseInt (modGlb (raiseInt (failed (judged s res)) srcSec) fun g => { g with bstage := 3 }) srcBoot
      else raiseInt (failed (judged s res)) srcSec := by
  simp only [fwLoadDone, hrun, hcheck, Bool.not_true, Bool.false_eq_true, if_false, if_neg hres]
  rfl

/-- A salter takes the payload and starts, unless it is a customer's, fenced or isolated. -/
theorem salt_fwStart (s : State) (h p : List Byte) (n : Fin 8) :
    salt (fwStart s h p) n =
      if (salt s n).regs.cust || bit s.flt.fslt n.1 || (hdr s (.slt n)).mode == .isolated then salt s n
      else { (salt s n).sequence with
        lmem := memPut [] 0 p, mode := .run, pc := BitVec.ofNat 32 (leAt h 16 4), event := false, inTrap := false } := by
  unfold fwStart
  exact vget_ofFn _ _

/-- What PASS leaves. -/
structure Passed (s t : State) (h p : List Byte) : Prop where
  sec : t.sec = (held (judged s 1) h).sec
  pending : bit t.glb.intpnd srcSec = true
  stage : t.glb.bstage = if s.glb.bstage = 4 then 5 else s.glb.bstage
  slt : t.slt = (fwStart s h p).slt
  host : t.host = s.host
  accesses : accesses t = accesses s

theorem fwLoadDone_passes {s : State} {h p : List Byte} (hrun : s.sec.fwRun = true) (hcheck : fwCheck s = ((1, h, p), s))
    (hdir : s.flt.lastrst = 1 → s.dir = []) : Passed s (fwLoadDone s) h p := by
  rw [fwLoadDone_pass hrun hcheck]
  have hpending := raiseInt_pending (fwStart (held (judged s 1) h) h p) (by decide : srcSec < 96)
  rw [raiseInt_rest] at hpending ⊢
  split
  · next hstage =>
    obtain ⟨x, m, hrest⟩ := fwRestore_rest (s := modGlb { fwStart (held (judged s 1) h) h p with
      glb := { (fwStart (held (judged s 1) h) h p).glb with intpnd := setBit (fwStart (held (judged s 1) h) h p).glb.intpnd srcSec true },
      pwr := (raiseInt (fwStart (held (judged s 1) h) h p) srcSec).pwr
      txns := (raiseInt (fwStart (held (judged s 1) h) h p) srcSec).txns } fun g => { g with bstage := 5 }) hdir
    rw [hrest]
    exact ⟨rfl, hpending, (if_pos (by simpa using hstage)).symm, rfl, rfl, rfl⟩
  · next hstage => exact ⟨rfl, hpending, (if_neg (by simpa using hstage)).symm, rfl, rfl, rfl⟩

/-- What any other result leaves. -/
structure Failed (s t : State) (res : Nat) : Prop where
  sec : t.sec = (failed (judged s res)).sec
  pending : bit t.glb.intpnd srcSec = true
  stage : s.glb.bstage = 4 → t.glb.bstage = 3 ∧ bit t.glb.intpnd srcBoot = true
  slt : t.slt = s.slt
  host : t.host = s.host
  accesses : accesses t = accesses s

theorem fwLoadDone_fails {s : State} {res : Nat} {h p : List Byte} (hrun : s.sec.fwRun = true)
    (hcheck : fwCheck s = ((res, h, p), s)) (hres : res ≠ 1) : Failed s (fwLoadDone s) res := by
  rw [fwLoadDone_fail hrun hcheck hres]
  have hpending := raiseInt_pending (failed (judged s res)) (by decide : srcSec < 96)
  generalize hraised : raiseInt (failed (judged s res)) srcSec = t at hpending ⊢
  have ht : t.sec = (failed (judged s res)).sec ∧ t.slt = s.slt ∧ t.host = s.host ∧ Settlement.accesses t = Settlement.accesses s := by
    rw [← hraised, raiseInt_rest]
    exact ⟨rfl, rfl, rfl, rfl⟩
  obtain ⟨hsec, hslt, hhost, hacc⟩ := ht
  split
  · have hboot := raiseInt_pending (modGlb t fun g => { g with bstage := 3 }) (by decide : srcBoot < 96)
    rw [raiseInt_rest] at hboot ⊢
    refine ⟨hsec, ?_, fun _ => ⟨rfl, hboot⟩, hslt, hhost, hacc⟩
    exact (bit_setBit_true t.glb.intpnd srcBoot (by decide : srcSec < 96)).trans (by rw [hpending]; rfl)
  · next hstage => exact ⟨hsec, hpending, fun h => absurd h (by simpa using hstage), hslt, hhost, hacc⟩

/-- Settles O28: FW_GO's two branches, then PASS and the other results of the judgement. -/
theorem firmwareLoadJudged : Obligations.FirmwareLoadJudged := by
  unfold Obligations.FirmwareLoadJudged
  refine fun s => ⟨fun hans hlock hrun => ?_, fun hans hlock => ?_, ?_⟩
  · have hgo : fwGo (answer s cpOk) = if s.glb.bstage = 3
        then modGlb (modSec (answer s cpOk) fun x => { x with fwRun := true }) fun g => { g with bstage := 4 }
        else modSec (answer s cpOk) fun x => { x with fwRun := true } := by
      unfold fwGo
      rw [if_neg (by rw [answer_sec, hlock]; decide), if_neg (by rw [answer_sec, hrun]; decide)]
      rfl
    refine ⟨_, (cpWrite_answers hans _).trans (congrArg Host.Outcome.next hgo), ?_⟩
    split
    · next hstage => exact ⟨rfl, rfl, fun _ => rfl, fun h => absurd hstage h⟩
    · next hstage => exact ⟨rfl, rfl, fun h => absurd h hstage, fun _ => rfl⟩
  · exact (cpWrite_answers hans fwGo).trans (congrArg Host.Outcome.next (if_pos hlock))
  · intro a h p res hrun hcredits hhead hbody hdir
    have hcheck := fwCheck_here (s := s.beginAs .core []) hhead hbody hcredits rfl
    have hverdict : verdict (s.beginAs .core []) = res := rfl
    by_cases hres : res = 1
    · rw [hverdict, hres] at hcheck
      have hformat : fwFormatOk (header (s.beginAs .core [])) = true := by
        by_contra hbad
        exact absurd (hverdict.symm.trans (if_neg hbad)) (by rw [hres]; decide)
      rw [if_pos hformat] at hcheck
      obtain ⟨hsec, hpending, hstage, hslt, hhost, hacc⟩ := fwLoadDone_passes (s := s.beginAs .core []) hrun hcheck hdir
      refine ⟨_, congrArg Host.Outcome.next (commandAs_local hacc), ?_, ?_, hpending, hhost,
        fun _ => ⟨?_, ?_, ?_, ?_, ?_, hstage, fun n hn => ?_, fun n hcust hfence hmode => ?_⟩, fun h => absurd hres h⟩
      · exact congrArg Sec.fwRun hsec
      · rw [hres]
        exact congrArg Sec.fwRes hsec
      · exact congrArg Sec.fwSvn hsec
      · exact congrArg Sec.fwKey hsec
      · exact congrArg Sec.fwDigest hsec
      · exact (congrArg Sec.fwFail hsec :)
      · exact (congrArg Sec.fwLock hsec :)
      · refine ((congrArg (vget · n) hslt).trans (salt_fwStart ..)).trans (if_pos ?_)
        rcases hn with hn | hn | hn
        · exact Bool.or_eq_true_iff.mpr (.inl (Bool.or_eq_true_iff.mpr (.inl hn)))
        · exact Bool.or_eq_true_iff.mpr (.inl (Bool.or_eq_true_iff.mpr (.inr hn)))
        · exact Bool.or_eq_true_iff.mpr (.inr (beq_iff_eq.mpr hn))
      · have hstarts := ((congrArg (vget · n) hslt).trans (salt_fwStart (s.beginAs .core []) h p n)).trans (if_neg (by
          rw [show (salt (s.beginAs .core []) n).regs.cust = false from hcust,
            show bit (s.beginAs .core []).flt.fslt n.1 = false from hfence]
          exact fun hiso => hmode (beq_iff_eq.mp hiso)))
        exact ⟨congrArg Slt.lmem hstarts, congrArg Slt.mode hstarts, congrArg Slt.pc hstarts⟩
    · obtain ⟨hsec, hpending, hstage, hslt, hhost, hacc⟩ :=
        fwLoadDone_fails (s := s.beginAs .core []) hrun (hverdict ▸ hcheck) hres
      refine ⟨_, congrArg Host.Outcome.next (commandAs_local hacc), ?_, ?_, hpending, hhost, fun h => absurd h hres,
        fun _ => ⟨?_, ?_, hslt, hstage⟩⟩
      · exact congrArg Sec.fwRun hsec
      · exact congrArg Sec.fwRes hsec
      · exact congrArg Sec.fwFail hsec
      · exact congrArg Sec.fwLock hsec

end Sys2Proof.Machine.FirmwareLoad

/-! SUPPORT. Settles O29 and O30: the steps of a cold start, the start self-test that finds nothing wrong, and what a warm reset
leaves. -/

namespace Sys2Proof.Machine.StartUp

open Sys2Proof.Machine.VerdictStep Sys2Proof.Machine.Sleep Sys2Proof.Machine.FrameSent Sys2Proof.Machine.ShardState
  Sys2Proof.Machine.KeysAndLevels Sys2Proof.Machine.PowerFail

/-! ### The steps before the self-test (R434, R451, R454) -/

theorem lk_reset : ∀ i : Fin 2, vget ({} : Sec).lk i = {} := by decide

theorem coldStart_leaves (s : State) (lcs : BitVec 4) (svn : BitVec 6) (rv : BitVec 4) :
    (coldStart s lcs svn rv).glb = { bstage := 1 } ∧ (coldStart s lcs svn rv).pins.vidSEn = true ∧
      (∀ q, (quad (coldStart s lcs svn rv) q).vidEn = true) ∧ (coldStart s lcs svn rv).pins.rstLow = false ∧
      (coldStart s lcs svn rv).sec.svnfuse = svn ∧ (coldStart s lcs svn rv).sec.rkrevoke = rv ∧
      (∀ i, vget (coldStart s lcs svn rv).sec.lk i = {}) ∧ (coldStart s lcs svn rv).hdrs = Vector.replicate 114 {} ∧
      (coldStart s lcs svn rv).lpan = Vector.replicate 60 {} ∧ (coldStart s lcs svn rv).host = s.host :=
  ⟨rfl, rfl, fun q => (quad_suppliesOn _ q).1, rfl, rfl, rfl, lk_reset, rfl, rfl, rfl⟩

theorem pllLock_starts {s : State} (hstage : s.glb.bstage = 1) (hactive : s.pwr.pstate = .active) (hrst : s.pins.rstLow = false)
    (hptrans : s.pwr.ptrans = none) (hgood : s.pins.pwrGood = allGood) :
    lockAwaited s = true ∧
      pllLock s = modPwr (modGlb s fun g => { g with bstage := 2 }) fun p => { p with fnow := p.fmul } := by
  have hawaited : lockAwaited s = true := by simp [lockAwaited, hstage, hactive, hrst, hgood]
  refine ⟨hawaited, ?_⟩
  unfold pllLock
  rw [if_neg (by simp [hawaited])]
  simp only [hptrans]

/-- A source made pending leaves the stage and the power state as they were. -/
theorem raiseInt_boot (s : State) :
    bit (raiseInt s srcBoot).glb.intpnd srcBoot = true ∧ (raiseInt s srcBoot).glb.bstage = s.glb.bstage ∧
      (raiseInt s srcBoot).glb.pllfail = s.glb.pllfail ∧ (raiseInt s srcBoot).glb.pwrfail = s.glb.pwrfail ∧
      (raiseInt s srcBoot).glb.stfail = s.glb.stfail ∧ (raiseInt s srcBoot).pwr.pstate = s.pwr.pstate := by
  have hpending := raiseInt_pending s (by decide : srcBoot < 96)
  obtain ⟨held, hpwr⟩ := raiseInt_pwr s srcBoot
  rw [hpwr, raiseInt_rest] at *
  exact ⟨hpending, rfl, rfl, rfl, rfl, rfl⟩

/-! ### The start self-test (R452) -/

/-- Every unit passes. -/
def allPass : SelfTest := { pans := BitVec.allOnes 64, hrv := 0xFF, slt := 0xFF, rake := true }

theorem allPass_passes : ∀ u < 0x51, allPass.passes u = true := by decide

/-- No unit is fenced or bypassed. -/
structure AllFit (s : State) : Prop where
  fpan : s.flt.fpan = 0
  fhrv : s.flt.fhrv = 0
  fslt : s.flt.fslt = 0
  frake : s.flt.frake = false
  bypPan : s.tst.regs.bypPan = 0
  bypHrv : s.tst.regs.bypHrv = 0
  bypSlt : s.tst.regs.bypSlt = 0
  bypRak : s.tst.regs.bypRak = false
  bypLnk : s.tst.regs.bypLnk = 0

/-- The counters of the tests do not speak of it. -/
theorem AllFit.counted {s : State} (h : AllFit s) (n m : W32) : AllFit (modTstR s fun x => { x with svTests := n, svFails := m }) := by
  obtain ⟨hfp, hfh, hfs, hfr, hbp, hbh, hbs, hbr, hbl⟩ := h
  exact ⟨hfp, hfh, hfs, hfr, hbp, hbh, hbs, hbr, hbl⟩

theorem AllFit.tested {s : State} (h : AllFit s) (u : Nat) : tested s u = true := by
  obtain ⟨hfp, hfh, hfs, hfr, hbp, hbh, hbs, hbr, hbl⟩ := h
  have hfence : unitFenced s u = false := by simp [unitFenced, hfp, hfh, hfs, hfr]
  have hbypass : unitBypassed s u = false := by simp [unitBypassed, hbp, hbh, hbs, hbr, hbl]
  simp [Machine.tested, hfence, hbypass]

theorem chooseHsalt_fit {s : State} (h : AllFit s) : chooseHsalt s allPass = some s.flt.hsalt :=
  if_pos (by
    dsimp only
    rw [h.tested, allPass_passes _ (by omega), Bool.and_self])

theorem chooseHsalt_none (s : State) (pans : W64) (hrv : Byte) (rake : Bool) :
    chooseHsalt s { pans := pans, hrv := hrv, slt := 0, rake := rake } = none := by
  have hfails : ∀ n : Fin 8, SelfTest.passes { pans := pans, hrv := hrv, slt := 0, rake := rake } (0x48 + n.1) = false := fun n => by
    have hn := n.isLt
    unfold SelfTest.passes
    rw [if_neg (by omega), if_neg (by omega), if_pos (by omega)]
    exact BitVec.getLsbD_zero
  simp only [chooseHsalt, hfails, Bool.and_false, Bool.false_eq_true, if_false]
  exact List.find?_eq_none.mpr fun _ _ => Bool.false_ne_true

/-- Nothing fails: only the tests are counted. -/
theorem fenceFailing_fit (s : State) :
    ∃ n m, fenceFailing s allPass = modTstR s fun x => { x with svTests := n, svFails := m } := by
  have hbad : ((startUnits.filter (Machine.tested s)).filter fun u => !allPass.passes u) = [] := by
    refine List.filter_eq_nil_iff.mpr fun u hu => ?_
    have hin : u < 0x51 := List.mem_range.mp (List.mem_filter.mp hu).1
    simp [allPass_passes u hin]
  unfold fenceFailing
  dsimp only
  rw [hbad]
  exact ⟨_, _, rfl⟩

/-- The four highest pans, as the reserve. -/
def topPans : List (Fin 64) := [63, 62, 61, 60]

theorem sortBy_top : (sortBy (fun a b : Fin 64 => decide (b.1 < a.1)) (List.finRange 64)).take 4 = topPans := by
  decide +kernel

/-- Of equally worn pans the four highest are the reserve. -/
theorem reserveOf_even {s : State} (h : ∀ p q, ticksOf s p = ticksOf s q) : reserveOf s (List.finRange 64) = topPans := by
  have hbefore : (fun a b : Fin 64 => decide (ticksOf s b < ticksOf s a) || (ticksOf s a == ticksOf s b && decide (b.1 < a.1)))
      = fun a b => decide (b.1 < a.1) := by
    funext a b
    simp [h a b]
  unfold reserveOf
  dsimp only
  rw [hbefore]
  exact sortBy_top

theorem live_top : (List.finRange 64).filter (fun p => !topPans.contains p) =
    (List.finRange 60).map (·.castLE (by decide : 60 ≤ 64)) := by
  decide +kernel

theorem bit_top : ∀ p : Fin 64, bit (topPans.foldl (fun (m : W64) q => setBit m q.1 true) 0) p.1 = decide (60 ≤ p.1) := by
  decide +kernel

/-- What the choice of equally worn pans leaves. -/
structure PansChosen (t : State) : Prop where
  map : ∀ l : Fin 60, physOf t l = some (l.castLE (by decide))
  reserve : ∀ p : Fin 64, bit t.flt.rsvok p.1 = decide (60 ≤ p.1)
  gated : ∀ p, (pn t p).pwr = .gated

theorem choosePans_fit {s : State} (h : AllFit s) (heven : ∀ p q, ticksOf s p = ticksOf s q) :
    PansChosen (choosePans s allPass) ∧ (choosePans s allPass).tst = s.tst := by
  have hpassing : ((List.finRange 64).filter fun p => Machine.tested s p.1 && allPass.passes p.1) = List.finRange 64 :=
    List.filter_eq_self.mpr fun p _ => by
      rw [h.tested, allPass_passes _ (by have := p.isLt; omega)]
      rfl
  unfold choosePans
  dsimp only
  rw [hpassing, reserveOf_even heven, live_top, if_neg (by simp)]
  refine ⟨⟨fun l => ?_, bit_top, fun p => ?_⟩, rfl⟩
  · simp [physOf, modFlt, modGlb]
  · simp [pn]

/-- A link put into training unless it is bypassed. -/
def trainOne (s : State) (k : Fin 8) : State := if linkTrains s k then startTraining s k else s

theorem trainAll_rest (s : State) (l : List (Fin 8)) : ∃ v, l.foldl trainOne s = { s with lnk := v } := by
  refine List.foldlRecOn (motive := fun t : State => ∃ v, t = { s with lnk := v }) l trainOne ⟨s.lnk, rfl⟩ fun t ht k _ => ?_
  obtain ⟨v, rfl⟩ := ht
  unfold trainOne
  split
  · exact ⟨_, rfl⟩
  · exact ⟨_, rfl⟩

/-- The link is in training. -/
def Training (k : Fin 8) (s : State) : Prop := (lk s k).regs.lstate = 1 ∧ (lk s k).regs.ltrain = true

theorem trainAll_training {s : State} (h : s.tst.regs.bypLnk = 0) (k : Fin 8) : Training k ((List.finRange 8).foldl trainOne s) := by
  have hall := foldl_marks (Q := fun k t => t.tst.regs.bypLnk = 0 → Training k t) (g := trainOne)
    (fun t k => ?_) (fun t j k hk => ?_) (List.finRange 8) s k (List.mem_finRange k)
  · obtain ⟨v, hrest⟩ := trainAll_rest s (List.finRange 8)
    exact hall (by rw [hrest]; exact h)
  · unfold trainOne
    split
    · exact fun _ => by simp [Training, startTraining]
    · next hnot => exact fun hbyp => absurd (by simp [linkTrains, hbyp]) hnot
  · unfold trainOne
    split
    · refine fun hbyp => ?_
      by_cases hjk : j = k
      · subst hjk
        simp [Training, startTraining]
      · unfold Training startTraining
        rw [lk_modLk_ne _ hjk]
        exact hk hbyp
    · exact hk

/-- The self-test that finds nothing wrong. -/
theorem selftestDone_fit {s : State} (hstage : s.glb.bstage = 5) (h : AllFit s) (heven : ∀ p q, ticksOf s p = ticksOf s q) :
    (selftestDone s allPass).glb.bstage = 6 ∧ PansChosen (selftestDone s allPass) ∧
      ∀ k, (lk (selftestDone s allPass) k).regs.lstate = 1 := by
  obtain ⟨n, m, hfence⟩ := fenceFailing_fit s
  obtain ⟨hchosen, htst⟩ := choosePans_fit (h.counted n m) heven
  let s₁ := choosePans (modTstR s fun x => { x with svTests := n, svFails := m }) allPass
  let s₂ := (List.finRange 8).foldl trainOne (modGlb s₁ fun g => { g with bstage := 6 })
  have hdone : selftestDone s allPass = startConfig s₂ := by
    unfold selftestDone
    rw [if_neg (not_not.mpr hstage), chooseHsalt_fit h]
    dsimp only
    rw [if_pos rfl, hfence]
    rfl
  obtain ⟨v, hlnk⟩ := trainAll_rest (modGlb s₁ fun g => { g with bstage := 6 }) (List.finRange 8)
  have htraining : ∀ k, Training k s₂ := trainAll_training ((congrArg (·.regs.bypLnk) htst).trans h.bypLnk)
  have hconfig : startConfig s₂ = s₂ := by
    have hany : ((List.finRange 8).any fun k => (lk s₂ k).regs.ltrain) = true :=
      List.any_eq_true.mpr ⟨0, List.mem_finRange 0, (htraining 0).2⟩
    unfold startConfig
    rw [hany]
    exact if_neg (by simp)
  rw [hdone, hconfig]
  have hrest : s₂ = { modGlb s₁ (fun g => { g with bstage := 6 }) with lnk := v } := hlnk
  refine ⟨by rw [hrest]; rfl, ?_, fun k => (htraining k).1⟩
  rw [hrest]
  exact ⟨hchosen.map, hchosen.reserve, hchosen.gated⟩

/-- Settles O29: each step of the cold start from the state that waits for it, then the self-test. -/
theorem startSequence : Obligations.StartSequence := by
  unfold Obligations.StartSequence
  refine ⟨fun s lcs svn rv m => ⟨⟨_, rfl, coldStart_leaves s lcs svn rv⟩, ⟨_, rfl, rfl, rfl, rfl, rfl, rfl, rfl, rfl⟩,
    fun hon hptrans => ?_, fun hstage hactive hrst hptrans hgood => ⟨?_, ?_⟩, fun hstage hrst hon hgood => ?_,
    fun hstage hptrans => ?_⟩, fun s hstage hfp hfh hfs hfr hbp hbh hbs hbr hbl => ⟨fun heven => ?_, ?_⟩⟩
  · refine congrArg Host.Outcome.next ((if_neg (by simp [hon])).trans (if_neg ?_))
    exact fun h => nomatch hptrans.symm.trans h
  · obtain ⟨-, hlock⟩ := pllLock_starts (s := s.begin []) hstage hactive hrst hptrans hgood
    refine ⟨_, congrArg Host.Outcome.next (command_of_noAccesses (f := pllLock) (hlock ▸ rfl)), ?_⟩
    rw [hlock]
    exact ⟨rfl, rfl, rfl⟩
  · obtain ⟨hawaited, -⟩ := pllLock_starts hstage hactive hrst hptrans hgood
    obtain ⟨hpending, hsame, hnoted, -⟩ := raiseInt_boot (modGlb s fun g => { g with pllfail := true })
    exact ⟨_, congrArg Host.Outcome.next (if_pos hawaited), hnoted, hsame.trans hstage, hpending⟩
  · obtain ⟨hpending, hsame, -, hnoted, -⟩ := raiseInt_boot (modGlb s fun g => { g with pwrfail := m })
    refine ⟨_, congrArg Host.Outcome.next (if_pos ?_), hnoted, hsame.trans hstage, hpending⟩
    have hmissing : s.pins.pwrGood ≠ allGood := hgood
    simp [hstage, hrst, hon, hmissing]
  · obtain ⟨hpending, hsame, -, -, -, hpstate⟩ := raiseInt_boot (modGlb s fun g => { g with bstage := 3 })
    have hinit : sramInitDone s = raiseInt (modGlb s fun g => { g with bstage := 3 }) srcBoot :=
      (if_neg (by simp [hptrans])).trans (if_pos hstage)
    exact ⟨_, congrArg Host.Outcome.next hinit, hsame, hpending, hpstate⟩
  · obtain ⟨hnext, hchosen, hlinks⟩ := selftestDone_fit hstage ⟨hfp, hfh, hfs, hfr, hbp, hbh, hbs, hbr, hbl⟩ heven
    exact ⟨_, rfl, hnext, hchosen.map, hchosen.reserve, hchosen.gated, hlinks⟩
  · obtain ⟨hpending, hsame, -, -, hnoted, -⟩ := raiseInt_boot (modGlb s fun g => { g with stfail := true })
    have hnone : selftestDone s { pans := BitVec.allOnes 64, hrv := 0xFF, slt := 0, rake := true } =
        raiseInt (modGlb s fun g => { g with stfail := true }) srcBoot := by
      unfold selftestDone
      rw [if_neg (not_not.mpr hstage), chooseHsalt_none]
    exact ⟨_, congrArg Host.Outcome.next hnone, hnoted, hsame.trans hstage, hpending⟩

/-! ### Warm reset (R453) -/

/-- The states differ at most in the modes of page headers. -/
def ModesOnly (s t : State) : Prop :=
  t = { s with hdrs := t.hdrs } ∧ ∀ p, ∃ m, hdr t p = { hdr s p with mode := m }

theorem ModesOnly.refl (s : State) : ModesOnly s s := ⟨rfl, fun _ => ⟨_, rfl⟩⟩

theorem ModesOnly.trans {s t u : State} (h : ModesOnly s t) (k : ModesOnly t u) : ModesOnly s u := by
  obtain ⟨hst, hmodes⟩ := h
  obtain ⟨htu, hmodes'⟩ := k
  refine ⟨by rw [htu, hst], fun p => ?_⟩
  obtain ⟨m, hm⟩ := hmodes p
  obtain ⟨m', hm'⟩ := hmodes' p
  exact ⟨m', by rw [hm', hm]⟩

theorem ModesOnly.modHdr (s : State) (p : PageId) (m : UMode) : ModesOnly s (modHdr s p fun h => { h with mode := m }) := by
  refine ⟨rfl, fun q => ?_⟩
  by_cases hq : p = q
  · subst hq
    exact ⟨m, hdr_modHdr ..⟩
  · exact ⟨_, hdr_modHdr_ne s hq _⟩

theorem ModesOnly.foldl {α : Type} {g : State → α → State} (h : ∀ s x, ModesOnly s (g s x)) (l : List α) (s : State) :
    ModesOnly s (l.foldl g s) :=
  List.foldlRecOn (motive := ModesOnly s) l g (.refl s) fun _ ht x _ => ht.trans (h _ x)

theorem warmModes_modesOnly (s : State) : ModesOnly s (warmModes s) := by
  refine (ModesOnly.foldl (fun t k => ?_) _ s).trans (ModesOnly.foldl (fun t u => ?_) _ _)
  · split
    · exact .modHdr ..
    · exact .refl t
  · split
    · split
      · exact .modHdr ..
      · split
        · exact .modHdr ..
        · exact .refl t
    · exact .refl t

theorem warmHolds_rest (s : State) : ∃ h d, warmHolds s = { s with shard := h, dir := d } := ⟨_, _, rfl⟩

/-- What a warm reset leaves of a page's header. -/
structure HdrWarm (s t : State) (p : PageId) : Prop where
  err : (hdr t p).err = (hdr s p).err
  ovr : (hdr t p).ovr = (hdr s p).ovr
  abi : (hdr t p).abi = 0x0100
  scratch : (hdr t p).scratch = 0

/-- What it leaves of the block. -/
structure Warmed (s t : State) : Prop where
  glb : t.glb.bstage = 4
  sec : t.sec = s.sec
  lastrst : t.flt.lastrst = 1
  hist : t.hist = s.hist
  host : t.host = s.host
  txns : t.txns = []
  vrd : t.vrd = warmVrd s.vrd
  twn : t.twn = warmTwn s.twn
  hdrs : ∀ p, HdrWarm s t p
  lpan : ∀ l, lp t l = {}
  pan : ∀ p, (pn t p).pwr = .gated

theorem warmClear_warmed (s : State) : Warmed s (warmClear s) := by
  unfold warmClear
  extract_lets initial power cleared
  obtain ⟨hrest, hmodes⟩ := warmModes_modesOnly (warmHolds cleared)
  obtain ⟨h, d, hholds⟩ := warmHolds_rest cleared
  rw [hholds] at hrest hmodes
  rw [hholds]
  generalize warmModes { cleared with shard := h, dir := d } = t at hrest hmodes
  have hpages : ∀ p, HdrWarm s t p := fun p => by
    obtain ⟨m, hm⟩ := hmodes p
    have hwarm : hdr cleared p = warmHdr (hdr s p) := vget_map ..
    have hp : hdr t p = { warmHdr (hdr s p) with mode := m } := by rw [hm, ← hwarm]; rfl
    exact ⟨by rw [hp]; rfl, by rw [hp]; rfl, by rw [hp]; rfl, by rw [hp]; rfl⟩
  generalize t.hdrs = v at hrest
  subst hrest
  exact {
    glb := rfl, sec := rfl, lastrst := rfl, hist := rfl, host := rfl, txns := rfl, vrd := rfl, twn := rfl, hdrs := hpages
    lpan := fun l => show vget (Vector.replicate 60 ({} : LPan)) l = {} from vget_replicate ..
    pan := fun p => congrArg Pan.pwr (vget_map ..) }

/-- What the end of all work before the reset leaves. -/
structure Ended (s t : State) : Prop where
  dbglvl : t.sec.dbglvl = 0
  lk : t.sec.lk = s.sec.lk
  hist : t.hist = s.hist
  host : KeepsHost s t
  vrd : t.vrd = s.vrd
  twn : t.twn = s.twn
  hdrs : t.hdrs = s.hdrs

theorem workEnded {s : State} (htests : s.tst.tests = []) (hwaiting : s.tst.waiting = none) :
    Ended s (endSession (abandonAll (abortTests s)) 3) := by
  obtain ⟨tide, pan, qd, tst, wear, haborted⟩ := abortTests_rest htests hwaiting
  have habandons := Abandons.abandonAll (abortTests s)
  have hmem : KeepsHost s (abandonAll (abortTests s)) :=
    keepsHost_of_same (abandonAll_keepsHost _) (by rw [haborted]) fun n => by rw [haborted]; rfl
  obtain ⟨n, e, k, hset, -⟩ := setLevel_rest (abandonAll (abortTests s)) 0 3
  generalize abandonAll (abortTests s) = t at habandons hmem hset
  rw [endSession, hset]
  rw [haborted] at habandons
  exact {
    dbglvl := rfl
    lk := (congrArg (·.sec.lk) habandons :)
    hist := (congrArg State.hist habandons :)
    host := hmem
    vrd := (congrArg State.vrd habandons :)
    twn := (congrArg State.twn habandons :)
    hdrs := (congrArg State.hdrs habandons :) }

theorem warmStart_warmed (s : State) :
    ∃ t, Warmed (endSession (abandonAll (abortTests s)) 3) t ∧ ∃ p, warmStart s =
      modSec { t with pwr := p } fun x => { x with fwRun := true } := by
  refine ⟨_, warmClear_warmed _, ?_⟩
  unfold warmStart
  dsimp only
  split
  · exact ⟨_, rfl⟩
  · exact ⟨_, rfl⟩

/-- Settles O30: all work ends, then the registers are what the reset leaves of them. -/
theorem warmResetKeepsRecords : Obligations.WarmResetKeepsRecords := by
  unfold Obligations.WarmResetKeepsRecords
  intro s hrst htaken hpstate htests hwaiting _
  have hwarm : warmTaken s = true := by rcases hpstate with h | h <;> simp [warmTaken, hrst, htaken, h]
  obtain ⟨t, hwarmed, p, hstart⟩ := warmStart_warmed s
  obtain ⟨hlevel, hlk, hhist, hhost, hvrd, htwn, hhdrs⟩ := workEnded htests hwaiting
  generalize endSession (abandonAll (abortTests s)) 3 = e at *
  refine ⟨_, congrArg Host.Outcome.next ((if_pos hwarm).trans hstart), hwarmed.glb, rfl, hwarmed.lastrst, ?_, ?_,
    hwarmed.hist.trans hhist, fun a ha => ?_, hwarmed.txns, ?_, ?_, ?_, ?_, fun q => ?_, hwarmed.lpan, hwarmed.pan⟩
  · exact (congrArg Sec.dbglvl hwarmed.sec).trans hlevel
  · exact (congrArg Sec.lk hwarmed.sec).trans hlk
  · exact (congrArg (smGet 0 · a) hwarmed.host).trans (hhost a ha)
  · exact congrArg (·.regs.vstep) (hwarmed.vrd.trans (congrArg warmVrd hvrd))
  · exact congrArg (·.regs.closed) hwarmed.vrd
  · exact congrArg Vrd.pendFt hwarmed.vrd
  · exact congrArg (·.regs.jstate) (hwarmed.twn.trans (congrArg warmTwn htwn))
  · obtain ⟨herr, hovr, habi, hscratch⟩ := hwarmed.hdrs q
    rw [hdr_congr hhdrs] at herr hovr
    exact ⟨herr, hovr, habi, hscratch⟩

end Sys2Proof.Machine.StartUp

/-! SUPPORT. What an error and its response leave of the tests, the pages' other headers and the fields they do not speak of. -/

namespace Sys2Proof.Machine.ErrorFrame

open Sys2Proof.Machine.FrameSent Sys2Proof.Machine.CommitFlip Sys2Proof.Machine.Sleep Sys2Proof.Machine.TileAttempt

/-! ### Records (R359, R361, R363) -/

/-- The states differ at most in what a record changes outside the page headers: the queue, the trace, the interrupts, the flag of the
next step and a power transition on its way. -/
def Queues (s t : State) : Prop :=
  t = { s with
    flt := t.flt, res := t.res, tst := { s.tst with regs := { s.tst.regs with trPi := t.tst.regs.trPi } }
    glb := { s.glb with intpnd := t.glb.intpnd }, txns := t.txns
    pwr := { s.pwr with heldMsg := t.pwr.heldMsg, ptrans := t.pwr.ptrans, pres := t.pwr.pres }
    vrd := { s.vrd with pendFt := t.vrd.pendFt }, slt := t.slt, hdrs := t.hdrs }

namespace Queues
variable {s t u : State}

theorem refl (s : State) : Queues s s := rfl

theorem trans (h : Queues s t) (k : Queues t u) : Queues s u := by
  unfold Queues at *
  rw [k, h]

theorem modHdr (s : State) (p : PageId) (f : PageHdr → PageHdr) : Queues s (modHdr s p f) := rfl

theorem eqPush (s : State) (bs : List Byte) : Queues s (eqPush s bs) := by
  unfold Machine.eqPush
  dsimp only
  split <;> rfl

theorem trace (s : State) (kind : Nat) (p : PageId) (bs : List Byte) : Queues s (trace s kind p bs) := by
  unfold Machine.trace
  dsimp only
  split <;> rfl

theorem raiseInt (s : State) (i : Nat) : Queues s (raiseInt s i) := by
  unfold Machine.raiseInt sendMsg
  dsimp only
  split
  · split <;> rfl
  · rfl

theorem wakeEvent (s : State) : Queues s (wakeEvent s) := by
  unfold Machine.wakeEvent wakeSalters
  split
  · rfl
  · rfl
  · split <;> rfl
  · rfl

theorem recordOnly (s : State) (p : PageId) (e : ErrIn) : Queues s (recordOnly s p e).2 := by
  unfold Machine.recordOnly
  extract_lets h armed inj c0 c1 noted
  have hnoted : Queues s noted := rfl
  split
  · exact hnoted.trans (.modHdr ..)
  · split
    extract_lets r entered fseq queued traced raised vrd pending
    have hraised : Queues traced raised := by
      unfold raised
      split
      · exact .refl _
      · exact .raiseInt ..
    have hpending : Queues raised pending := by
      unfold pending
      split <;> rfl
    exact (((((hnoted.trans (.modHdr ..)).trans (.eqPush ..)).trans (.trace ..)).trans hraised).trans hpending).trans (.wakeEvent _)

end Queues

/-- A record in one page leaves the other headers alone. -/
theorem hdr_recordOnly_ne (s : State) {p q : PageId} (h : p ≠ q) (e : ErrIn) : hdr (recordOnly s p e).2 q = hdr s q := by
  unfold Machine.recordOnly
  extract_lets g armed inj c0 c1 noted
  have hnoted : hdr noted q = hdr s q := hdr_modHdr_ne s h _
  split
  · exact (hdr_modHdr_ne noted h _).trans hnoted
  · split
    extract_lets r entered fseq queued traced raised vrd pending
    have hentered : hdr entered q = hdr s q := (hdr_modHdr_ne noted h _).trans hnoted
    have hraised : raised.hdrs = traced.hdrs := by
      unfold raised
      split
      · rfl
      · exact (raiseInt_unseen ..).hdrs
    have hpending : pending.hdrs = raised.hdrs := by
      unfold pending
      split <;> rfl
    have hdrs : (wakeEvent pending).hdrs = entered.hdrs :=
      (wakeEvent_unseen _).hdrs.trans (hpending.trans (hraised.trans ((trace_unseen ..).hdrs.trans (eqPush_unseen ..).hdrs)))
    exact (congrArg (vget · q.ix) hdrs).trans hentered

/-! ### Instance loss (R380) -/

theorem foldl_takeJobOff_rest (s : State) (l : List (Fin 8)) :
    ∃ v m, l.foldl takeJobOff s = { s with hrv := v, shard := m } := by
  refine List.foldlRecOn (motive := fun t : State => ∃ v m, t = { s with hrv := v, shard := m }) l takeJobOff
    ⟨s.hrv, s.shard, rfl⟩ fun t ht n _ => ?_
  obtain ⟨v, m, rfl⟩ := ht
  unfold takeJobOff
  split
  · exact ⟨v, m, rfl⟩
  · exact ⟨_, _, rfl⟩

theorem spoilAll_rest (s : State) (rs : List (Nat × Nat)) : ∃ h f, spoilAll s rs = { s with host := h, free := f } := by
  refine List.foldlRecOn (motive := fun t : State => ∃ h f, t = { s with host := h, free := f }) rs _ ⟨s.host, s.free, rfl⟩
    fun t ht x _ => ?_
  obtain ⟨h, f, rfl⟩ := ht
  obtain ⟨h', f', hspoiled⟩ := spoilHost_eq x.2 { s with host := h, free := f } x.1
  exact ⟨h', f', hspoiled⟩

theorem abandonAll_rest (s : State) : ∃ v m h f l x, abandonAll s =
    { s with hrv := v, shard := m, host := h, free := f, lpan := l, slt := x } := by
  obtain ⟨h, f, hspoiled⟩ := spoilAll_rest s ((List.finRange 8).flatMap (partWritten s))
  obtain ⟨v, m, hoff⟩ := foldl_takeJobOff_rest { s with host := h, free := f } (List.finRange 8)
  unfold abandonAll stopPans
  dsimp only
  rw [hspoiled, hoff]
  exact ⟨_, _, _, _, _, _, rfl⟩

theorem enterFenced_rest (s : State) : ∃ b, enterFenced s =
    { s with twn := { s.twn with regs := { s.twn.regs with jstate := .fenced } }, glb := { s.glb with bstage := b } } := by
  unfold enterFenced
  dsimp only
  split
  · exact ⟨_, rfl⟩
  · exact ⟨s.glb.bstage, rfl⟩

/-- What the loss of the instance leaves: the page headers, the tests, the tide table, and the fields not named. -/
def Loses (s t : State) : Prop :=
  t = { s with
    flt := t.flt, glb := t.glb, pwr := t.pwr, txns := t.txns, vrd := t.vrd, twn := t.twn, sent := t.sent
    hrv := t.hrv, shard := t.shard, host := t.host, free := t.free, lpan := t.lpan, slt := t.slt }

theorem Loses.refl (s : State) : Loses s s := rfl

theorem Loses.trans {s t u : State} (h : Loses s t) (k : Loses t u) : Loses s u := by
  unfold Loses at *
  rw [k, h]

theorem raiseInt_loses (s : State) (i : Nat) : Loses s (raiseInt s i) := by
  unfold Machine.raiseInt sendMsg
  dsimp only
  split
  · split <;> rfl
  · rfl

theorem abandonAll_loses (s : State) : Loses s (abandonAll s) := by
  obtain ⟨v, m, h, f, l, x, hall⟩ := abandonAll_rest s
  rw [hall]
  rfl

theorem sendsOnly_loses {s t : State} (h : SendsOnly s t) : Loses s t := by
  unfold SendsOnly at h
  rw [h]
  rfl

theorem sendHbeat_loses (s : State) (st : Nat) : Loses s (sendHbeat s st) := by
  unfold sendHbeat
  extract_lets r ts first both
  have hboth : SendsOnly s both := (SendsOnly.sendVia ..).trans (.sendVia ..)
  exact (sendsOnly_loses hboth).trans rfl

theorem enterFenced_loses (s : State) : Loses s (enterFenced s) := by
  obtain ⟨b, hfenced⟩ := enterFenced_rest s
  rw [hfenced]
  rfl

theorem instLoss_loses (s : State) : Loses s (instLoss s) := by
  unfold instLoss
  split
  · exact .refl s
  · extract_lets flt raised abandoned beaten
    have hraised : Loses s raised := .trans (t := { s with flt := { s.flt with lastrst := 3 } }) rfl (raiseInt_loses ..)
    have habandoned : Loses raised abandoned := abandonAll_loses raised
    clear_value abandoned raised
    have hbeaten : Loses abandoned beaten := by
      unfold beaten
      split
      · exact sendHbeat_loses ..
      · exact .refl _
    clear_value beaten
    exact ((hraised.trans habandoned).trans hbeaten).trans
      (.trans (t := { beaten with vrd := { beaten.vrd with pendFt := true } }) rfl (enterFenced_loses _))

end Sys2Proof.Machine.ErrorFrame

/-! SUPPORT. Settles O33 and O34: tests of the engines and salters, and the service record. -/

namespace Sys2Proof.Machine.UnitTest

open Sys2Proof.Machine.ErrorFrame Sys2Proof.Machine.TileAttempt Sys2Proof.Machine.Settlement Sys2Proof.Machine.Bytes
  Sys2Proof.Machine.CommitFlip

/-! ### TS_GO (R497, R499) -/

/-- The codes of engines and salters. -/
structure Core (u : Nat) : Prop where
  low : 0x40 ≤ u
  high : u < 0x50

theorem Core.mayTest {s : State} {u : Nat} (h : Core u) (hbyp : unitBypassed s u = false) (hiso : unitIsolated s u = true) :
    mayTest s u = true := by
  obtain ⟨hlow, hhigh⟩ := h
  unfold Machine.mayTest
  rw [if_neg (by simp [hbyp])]
  split
  · rfl
  · rw [dif_neg (by omega), dif_neg (by omega), hiso, Bool.true_or]

theorem Core.mayTest_inService {s : State} {u : Nat} (h : Core u) (hfw : s.sec.fwRes = 1) (hiso : unitIsolated s u = false)
    (hfence : unitFenced s u = false) : Machine.mayTest s u = false := by
  obtain ⟨hlow, hhigh⟩ := h
  unfold Machine.mayTest
  split
  · rfl
  · rw [if_neg (not_not.mpr hfw), dif_neg (by omega), dif_neg (by omega), hiso, hfence, Bool.or_self]

theorem Core.testPage {u : Nat} (h : Core u) : (testPage u).isNone = false := by
  obtain ⟨hlow, hhigh⟩ := h
  unfold Machine.testPage
  rw [dif_neg (by omega)]
  split
  · rfl
  · rw [dif_pos (by omega)]
    rfl

theorem Core.kindSuits {u k : Nat} (h : Core u) (hk : k ≤ 2) : kindSuits u k = true := by
  unfold Machine.kindSuits
  rw [if_pos (by have := h.high; omega), decide_eq_true hk]

/-- The test of an engine or a salter destroys its memories alone. -/
theorem Core.beginTest {u : Nat} (h : Core u) (s : State) (k : Nat) (sw : Bool) : ∃ v x, beginTest s u k sw =
    { s with tst := { s.tst with tests := s.tst.tests ++ [{ unit := u, kind := k, sw := sw }] }, hrv := v, slt := x } := by
  obtain ⟨hlow, hhigh⟩ := h
  unfold Machine.beginTest testDestroys
  dsimp only
  rw [dif_neg (by omega), dif_neg (by omega)]
  split
  · exact ⟨_, _, rfl⟩
  · rw [dif_pos (by omega)]
    exact ⟨_, _, rfl⟩

/-- TS_GO with its unit and kind noted. -/
def asked (s : State) (u k : Nat) : State := modTstR s fun t => { t with tsUnit := BitVec.ofNat 8 u, tsKind := BitVec.ofNat 4 k }

theorem tsGo_starts {s : State} {u k : Nat} (h : Core u) (hk : k ≤ 2) (hidle : s.tst.regs.tsRes ≠ 1) (hbyp : unitBypassed s u = false)
    (hiso : unitIsolated s u = true) (hfree : testBlocked s u = false) :
    tsGo s u k = beginTest (modTstR (asked s u k) fun t => { t with tsRes := 1 }) u k true := by
  have hknown : ¬ ((testPage u).isNone || !kindSuits u k) = true := by rw [h.testPage, h.kindSuits hk]; decide
  have hmay : ¬ (!mayTest (asked s u k) u) = true := by rw [show mayTest (asked s u k) u = true from h.mayTest hbyp hiso]; decide
  have hnow : ¬ testBlocked (modTstR (asked s u k) fun t => { t with tsRes := 1 }) u = true := Bool.eq_false_iff.mp hfree
  exact (if_neg hidle).trans ((if_neg hknown).trans ((if_neg hmay).trans (if_neg hnow)))

theorem tsGo_refused {s : State} {u k : Nat} (h : Core u) (hk : k ≤ 2) (hidle : s.tst.regs.tsRes ≠ 1) (hfw : s.sec.fwRes = 1)
    (hiso : unitIsolated s u = false) (hfence : unitFenced s u = false) :
    tsGo s u k = tsResult (asked s u k) u 4 := by
  have hknown : ¬ ((testPage u).isNone || !kindSuits u k) = true := by rw [h.testPage, h.kindSuits hk]; decide
  have hmay : (!mayTest (asked s u k) u) = true := by
    rw [show mayTest (asked s u k) u = false from h.mayTest_inService hfw hiso hfence]; rfl
  exact (if_neg hidle).trans ((if_neg hknown).trans (if_pos hmay))

theorem tsGo_busy {s : State} (hbusy : s.tst.regs.tsRes = 1) (u k : Nat) :
    tsGo s u k = dropOk (asked s u k) .tst 0x200 .state :=
  if_pos hbusy

/-! ### The ends of a test (R499) -/

/-- One test of an engine, started by TS_GO, and none waits. -/
structure Testing (s : State) (n : Fin 8) (k : Nat) : Prop where
  tests : s.tst.tests = [{ unit := 0x40 + n.1, kind := k, sw := true }]
  bg : s.tst.bg = []
  waiting : s.tst.waiting = none
  wear : s.tide.wearTests = false

/-- The test ended with a result, not yet served. -/
def ended (s : State) (u : Nat) (res : TestRes) (faddr : W64) (ticks : W32) : State :=
  let s := modTst s fun x => { x with tests := [] }
  let s := if res = .abort then s else modTstR s fun x =>
    { x with svTests := satAdd x.svTests 1, svFails := if res = .fail then satAdd x.svFails 1 else x.svFails }
  modTstR (tsResult s u (match res with | .pass => 2 | .fail => 3 | .abort => 5)) fun x =>
    { x with tsTicks := ticks, tsFaddr := if res = .fail then faddr else x.tsFaddr }

theorem ended_fail (s : State) (u : Nat) (faddr : W64) (ticks : W32) : ended s u .fail faddr ticks =
    { s with tst := { s.tst with tests := [], regs := { s.tst.regs with
      svTests := satAdd s.tst.regs.svTests 1, svFails := satAdd s.tst.regs.svFails 1, tsRes := 3, tsRunit := BitVec.ofNat 8 u
      tsTicks := ticks, tsFaddr := faddr } } } := rfl

/-- What the end of a test does for its result. -/
def answered (s : State) (u : Nat) (res : TestRes) (faddr : W64) : State :=
  match res with
  | .pass => testPass (noteTested s u) u true
  | .fail => testFail (noteTested s u) u faddr
  | .abort => s

/-- A PASS remembered for UNFENCE and RUN. -/
def passNoted (s : State) (u : Nat) : State :=
  modTst s fun t => { t with passed := if t.passed.contains u then t.passed else t.passed ++ [u] }

theorem ended_pass (s : State) (u : Nat) (faddr : W64) (ticks : W32) : ended s u .pass faddr ticks =
    { s with tst := { s.tst with tests := [], regs := { s.tst.regs with
      svTests := satAdd s.tst.regs.svTests 1, tsRes := 2, tsRunit := BitVec.ofNat 8 u, tsTicks := ticks } } } := rfl

theorem ended_abort (s : State) (u : Nat) (faddr : W64) (ticks : W32) : ended s u .abort faddr ticks =
    { s with tst := { s.tst with tests := [], regs := { s.tst.regs with
      tsRes := 5, tsRunit := BitVec.ofNat 8 u, tsTicks := ticks } } } := rfl

theorem mem_passNoted (s : State) (u : Nat) : u ∈ (passNoted s u).tst.passed := by
  show u ∈ if s.tst.passed.contains u then s.tst.passed else s.tst.passed ++ [u]
  split
  · next h => exact List.contains_iff_mem.mp h
  · exact List.mem_append_right _ (List.mem_singleton_self u)

theorem passNoted_rest (s : State) (u : Nat) : ∃ p, passNoted s u = { s with tst := { s.tst with passed := p } } ∧ u ∈ p :=
  ⟨_, rfl, mem_passNoted s u⟩

theorem testDone_ends {s : State} {n : Fin 8} {k : Nat} (h : Testing s n k) (res : TestRes) (faddr : W64) (ticks : W32) :
    testDone s (0x40 + n.1) res faddr ticks =
      wearGo (serveTests (answered (ended s (0x40 + n.1) res faddr ticks) (0x40 + n.1) res faddr)) := by
  have hn := n.isLt
  have hfind : s.tst.tests.find? (fun t => t.unit = 0x40 + n.1) = some { unit := 0x40 + n.1, kind := k, sw := true } := by
    rw [h.tests]
    exact List.find?_cons_of_pos (by simp)
  have hgone : s.tst.tests.filter (fun y => y.unit ≠ 0x40 + n.1) = [] := by
    rw [h.tests]
    simp
  have hmod : (modTst s fun x => { x with tests := x.tests.filter fun y => y.unit ≠ 0x40 + n.1 }) = modTst s fun x => { x with tests := [] } :=
    congrArg (fun l => { s with tst := { s.tst with tests := l } }) hgone
  have hgate (t : State) : testGate t (0x40 + n.1) = t := dif_neg (by omega)
  unfold testDone
  rw [hfind]
  simp only [hgate, if_true, hmod]
  rfl

/-- With nothing waiting the tests are served without effect. -/
theorem Testing.served_none {u s : State} {n : Fin 8} {k : Nat} (h : Testing u n k) (hbg' : s.tst.bg = u.tst.bg)
    (hwaiting' : s.tst.waiting = u.tst.waiting) (htide : s.tide = u.tide) : wearGo (serveTests s) = s := by
  have hbg := hbg'.trans h.bg
  have hwaiting := hwaiting'.trans h.waiting
  have hwear := (congrArg Tide.wearTests htide).trans h.wear
  have hempty : (modTst s fun t => { t with bg := [] }) = s :=
    congrArg (fun l => { s with tst := { s.tst with bg := l } }) hbg.symm
  have hserved : serveTests s = s := by
    unfold serveTests
    simp only [hbg, List.foldl_nil, hempty, hwaiting]
  rw [hserved]
  exact if_neg (by simp [hwear])

/-- What a FAIL keeps of the tests and the tide table. -/
structure TestsKept (s t : State) : Prop where
  tests : t.tst.tests = s.tst.tests
  bg : t.tst.bg = s.tst.bg
  waiting : t.tst.waiting = s.tst.waiting
  passed : ∀ u ∈ t.tst.passed, u ∈ s.tst.passed
  tsRes : t.tst.regs.tsRes = s.tst.regs.tsRes
  tsFaddr : t.tst.regs.tsFaddr = s.tst.regs.tsFaddr
  svFails : t.tst.regs.svFails = s.tst.regs.svFails
  tide : t.tide = s.tide

theorem TestsKept.refl (s : State) : TestsKept s s := ⟨rfl, rfl, rfl, fun _ h => h, rfl, rfl, rfl, rfl⟩

theorem TestsKept.trans {s t u : State} (h : TestsKept s t) (k : TestsKept t u) : TestsKept s u :=
  ⟨k.tests.trans h.tests, k.bg.trans h.bg, k.waiting.trans h.waiting, fun u hu => h.passed u (k.passed u hu), k.tsRes.trans h.tsRes,
    k.tsFaddr.trans h.tsFaddr, k.svFails.trans h.svFails, k.tide.trans h.tide⟩

theorem TestsKept.of_queues {s t : State} (h : Queues s t) : TestsKept s t := by
  unfold Queues at h
  rw [h]
  exact ⟨rfl, rfl, rfl, fun _ h => h, rfl, rfl, rfl, rfl⟩

/-- The loss of the instance keeps them, and the page headers. -/
theorem TestsKept.of_loses {s t : State} (h : Loses s t) : TestsKept s t ∧ t.hdrs = s.hdrs := by
  unfold Loses at h
  rw [h]
  exact ⟨⟨rfl, rfl, rfl, fun _ h => h, rfl, rfl, rfl, rfl⟩, rfl⟩

theorem dropJob_loses (s : State) (n : Fin 8) : Loses s (dropJob s n) := by
  obtain ⟨h, f, hspoiled⟩ := spoilAll_rest s (partWritten s n)
  unfold dropJob takeJobOff
  rw [hspoiled]
  split
  · rfl
  · rfl

theorem fenceHrv_kept (s : State) (n : Fin 8) :
    TestsKept s (fenceHrv s n) ∧ (hdr (fenceHrv s n) (.hrv n)).err = (hdr s (.hrv n)).err := by
  obtain ⟨hdropped, hhdrs⟩ := TestsKept.of_loses (dropJob_loses s n)
  unfold fenceHrv
  generalize dropJob s n = t at hdropped hhdrs
  refine ⟨hdropped.trans ⟨rfl, rfl, rfl, fun u hu => (List.mem_filter.mp hu).1, rfl, rfl, rfl, rfl⟩, ?_⟩
  have hmode := congrArg PageHdr.err (hdr_modHdr (modEng t n fun x => { x with images := [], pflush := false }) (.hrv n)
    fun h => { h with mode := .faulted })
  have hengine : (modEng t n fun x => { x with images := [], pflush := false }).hdrs = s.hdrs := hhdrs
  exact hmode.trans (congrArg PageHdr.err (ShardState.hdr_congr hengine (.hrv n)) :)

theorem respond_hrv (s : State) (n : Fin 8) (cause cls : Nat) :
    TestsKept s (respond s (.hrv n) cause cls) ∧ (hdr (respond s (.hrv n) cause cls) (.hrv n)).err = (hdr s (.hrv n)).err := by
  unfold respond
  split
  · exact ⟨.refl _, rfl⟩
  · rw [if_neg (by simp)]
    split
    · split
      · exact ⟨.refl _, rfl⟩
      · obtain ⟨hkept, hhdrs⟩ := TestsKept.of_loses (instLoss_loses s)
        exact ⟨hkept, congrArg PageHdr.err (ShardState.hdr_congr hhdrs _)⟩
    · split
      · exact fenceHrv_kept s n
      · exact ⟨.refl _, rfl⟩

/-- The record of an engine's error. -/
theorem recordErr_hrv (s : State) (n : Fin 8) (e : ErrIn) (hc : e.cause < 32) :
    TestsKept s (recordErr s (.hrv n) e) ∧ bit (hdr (recordErr s (.hrv n) e) (.hrv n)).err e.cause = true := by
  obtain ⟨hkept, herr⟩ := respond_hrv (recordOnly s (.hrv n) e).2 n e.cause (recordOnly s (.hrv n) e).1
  rw [recordErr_eq, herr]
  exact ⟨(TestsKept.of_queues (.recordOnly ..)).trans hkept, (recordOnly_recorded ..).bit_err hc⟩

theorem testPage_hrv (n : Fin 8) : testPage (0x40 + n.1) = some (.hrv n) := by
  have hn := n.isLt
  unfold testPage
  rw [dif_neg (by omega), dif_pos (by omega)]
  congr 2
  exact Fin.ext (Nat.add_sub_cancel_left ..)

theorem testFail_hrv (s : State) (n : Fin 8) (faddr : W64) :
    TestsKept s (testFail s (0x40 + n.1) faddr) ∧ bit (hdr (testFail s (0x40 + n.1) faddr) (.hrv n)).err 0x14 = true ∧
      0x40 + n.1 ∉ (testFail s (0x40 + n.1) faddr).tst.passed := by
  have hn := n.isLt
  have hfail : testFail s (0x40 + n.1) faddr =
      recordErr (unpass s (0x40 + n.1)) (.hrv n) { cause := cBist, addr := some faddr.toNat, group := 0 } := by
    unfold testFail
    rw [testPage_hrv]
    have hrake : ¬ (0x40 + n.1 = 0x50 && s.flt.frake) = true := by
      simp only [Bool.and_eq_true, decide_eq_true_eq]
      omega
    have hlane : ¬ 0x60 ≤ 0x40 + n.1 := by omega
    dsimp only
    rw [if_neg hrake, if_neg hlane]
  have hunpassed : TestsKept s (unpass s (0x40 + n.1)) :=
    ⟨rfl, rfl, rfl, fun u hu => (List.mem_filter.mp hu).1, rfl, rfl, rfl, rfl⟩
  obtain ⟨hkept, herr⟩ := recordErr_hrv (unpass s (0x40 + n.1)) n { cause := cBist, addr := some faddr.toNat, group := 0 }
    (show cBist < 32 by decide)
  rw [hfail]
  exact ⟨hunpassed.trans hkept, herr, fun hin => absurd (List.mem_filter.mp (hkept.passed _ hin)).2 (by simp)⟩

/-- Settles O33: TS_GO's checks in their order, then the three results. -/
theorem testsRun : Obligations.TestsRun := by
  unfold Obligations.TestsRun
  refine ⟨fun u k s hans hlow hhigh hk => ⟨fun hidle hbyp hiso hfree => ?_, fun hidle hfw hiso hfence => ?_, fun hbusy => ?_,
    fun hidle => ?_⟩, fun n k a ticks s htests hbg hwaiting hwear => ?_⟩
  · have hgo := tsGo_starts (s := answer s cpOk) ⟨hlow, hhigh⟩ hk hidle hbyp hiso hfree
    obtain ⟨v, x, hbegun⟩ := Core.beginTest ⟨hlow, hhigh⟩
      (modTstR (asked (answer s cpOk) u.toNat k.toNat) fun t => { t with tsRes := 1 }) k.toNat true
    exact ⟨_, (cpWrite_answers hans _).trans (congrArg Host.Outcome.next (hgo.trans hbegun)), rfl, rfl, BitVec.ofNat_toNat ..,
      rfl, rfl⟩
  · exact ⟨_, (cpWrite_answers hans _).trans
      (congrArg Host.Outcome.next (tsGo_refused (s := answer s cpOk) ⟨hlow, hhigh⟩ hk hidle hfw hiso hfence)), rfl,
      BitVec.ofNat_toNat .., rfl⟩
  · exact ⟨_, (cpWrite_answers hans _).trans (congrArg Host.Outcome.next (tsGo_busy (s := answer s cpOk) hbusy _ _)), rfl,
      hdr_modHdr ..⟩
  · exact ⟨_, (cpWrite_answers hans svcGo).trans (congrArg Host.Outcome.next (if_neg hidle)), rfl, rfl⟩
  · have htesting : Testing s n k := ⟨htests, hbg, hwaiting, hwear⟩
    have hn := n.isLt
    have hexec (res : TestRes) : exec (.testDone (BitVec.ofNat 8 (0x40 + n.1)) res a ticks) s =
        .next (wearGo (serveTests (answered (ended s (0x40 + n.1) res a ticks) (0x40 + n.1) res a))) := by
      have hunit : (BitVec.ofNat 8 (0x40 + n.1)).toNat = 0x40 + n.1 := by simp; omega
      show Host.Outcome.next (testDone s _ res a ticks) = _
      rw [hunit, testDone_ends htesting]
    refine ⟨?_, ?_, ?_⟩
    · have hpass : answered (ended s (0x40 + n.1) .pass a ticks) (0x40 + n.1) .pass a =
          passNoted (ended s (0x40 + n.1) .pass a ticks) (0x40 + n.1) := by
        unfold answered testPass noteTested
        dsimp only
        rw [dif_neg (by omega), dif_neg (by omega), if_neg (by simp)]
        rfl
      obtain ⟨p, hrest, hin⟩ := passNoted_rest (ended s (0x40 + n.1) .pass a ticks) (0x40 + n.1)
      rw [hrest, ended_pass] at hpass
      have hdone := hexec .pass
      rw [ended_pass, htesting.served_none (by rw [hpass]) (by rw [hpass]) (by rw [hpass]), hpass] at hdone
      exact ⟨_, hdone, rfl, rfl, rfl, rfl, hin, rfl, rfl, rfl⟩
    · obtain ⟨hkept, herr, hpassed⟩ := testFail_hrv (noteTested (ended s (0x40 + n.1) .fail a ticks) (0x40 + n.1)) n a
      have hnoted : noteTested (ended s (0x40 + n.1) .fail a ticks) (0x40 + n.1) = ended s (0x40 + n.1) .fail a ticks :=
        dif_neg (by omega)
      have hfail : answered (ended s (0x40 + n.1) .fail a ticks) (0x40 + n.1) .fail a =
        testFail (noteTested (ended s (0x40 + n.1) .fail a ticks) (0x40 + n.1)) (0x40 + n.1) a := rfl
      rw [← hfail, hnoted] at hkept
      rw [← hfail] at herr hpassed
      have hdone := hexec .fail
      generalize answered (ended s (0x40 + n.1) .fail a ticks) (0x40 + n.1) .fail a = t at hkept herr hpassed hdone
      rw [ended_fail] at hkept
      rw [htesting.served_none hkept.bg hkept.waiting hkept.tide] at hdone
      exact ⟨_, hdone, hkept.tests, hkept.tsRes, hkept.tsFaddr, hpassed, hkept.svFails, herr⟩
    · have habort : answered (ended s (0x40 + n.1) .abort a ticks) (0x40 + n.1) .abort a = _ := ended_abort s (0x40 + n.1) a ticks
      have hdone := hexec .abort
      rw [htesting.served_none (by rw [habort]) (by rw [habort]) (by rw [habort]), habort] at hdone
      exact ⟨_, hdone, rfl, rfl, rfl, rfl, rfl⟩

/-! ### The service record (R504) -/

theorem length_fitTo (n : Nat) (bs : List Byte) : (fitTo n bs).length = n := by
  simp only [fitTo, List.length_take, List.length_append, List.length_replicate]
  omega

theorem length_svcRecord (s : State) : (svcRecord s).length = 4096 := by
  have hlinks : ((List.finRange 8).flatMap (svcLink s)).length = 512 := by
    simp only [List.length_flatMap, svcLink, length_fitTo, List.map_const', List.length_finRange, List.sum_replicate]
    rfl
  unfold svcRecord
  simp only [List.length_append, hlinks, svcQueue, length_fitTo]

theorem svcDone_writes {s : State} (hrun : s.tst.regs.svcRes = 1) (hhere : Here s s.tst.regs.svcAddr.toNat) (hcredits : Credits s)
    (hgood : s.hostBad = []) :
    svcDone s = modTstR { s with host := memPut s.host (hostAddr s s.tst.regs.svcAddr.toNat) (svcRecord s) } fun t =>
      { t with svcRes := 2 } := by
  unfold svcDone
  rw [if_neg (not_not.mpr hrun), wrHost_here hhere hcredits hgood]
  rfl

/-- Settles O34: the record's bytes are the one write of SVC_DONE. -/
theorem serviceRecordWritten : Obligations.ServiceRecordWritten := by
  unfold Obligations.ServiceRecordWritten
  intro s hrun hhere hcredits a
  have hdone := svcDone_writes (s := s.beginAs .svc []) hrun hhere hcredits rfl
  have hlen := length_svcRecord (s.beginAs .svc [])
  generalize svcRecord (s.beginAs .svc []) = bs at hdone hlen ⊢
  have hlocal : accesses (svcDone (s.beginAs .svc [])) = noAccesses := by rw [hdone]; rfl
  refine ⟨_, congrArg Host.Outcome.next (commandAs_local hlocal), ?_⟩
  rw [hdone]
  refine ⟨rfl, rfl, fun b hb => ?_, rfl, rfl⟩
  exact smGet_memPut_outside _ (by rw [hlen]; exact hb)

end Sys2Proof.Machine.UnitTest

/-! SUPPORT. Register accesses: a write whose fields are all taken, and where the control window leads. -/

namespace Sys2Proof.Machine.RegisterAccess

open Sys2Proof.Machine.CoreClock

/-- A write none of whose fields is locked or dropped, and that leaves the page's count of rejects, is its fields' effects in turn. -/
theorem writeFields_stores {s : State} {p : PageId} {o word : Nat} {fs : List (RegF × Nat)}
    (htaken : ∀ x ∈ fs, x.1.locked s = false ∧ x.1.bad s word x.2 = none)
    (hcount : (hdr (fs.foldl (fun t x => x.1.put t x.2) s) p).rejCnt = (hdr s p).rejCnt) :
    writeFields s p o word fs = fs.foldl (fun t x => x.1.put t x.2) s := by
  have hdrop : ∀ x ∈ fs, dropCause s word x.1 x.2 = none := fun x hx => by
    obtain ⟨hlocked, hbad⟩ := htaken x hx
    rw [dropCause, if_neg (by simp [hlocked]), hbad]
  have hnone : fs.findSome? (fun x => dropCause s word x.1 x.2) = none := List.findSome?_eq_none_iff.mpr hdrop
  have hfold : fs.foldl (fun t x => if (dropCause s word x.1 x.2).isSome then t else x.1.put t x.2) s =
      fs.foldl (fun t x => x.1.put t x.2) s :=
    List.foldl_ext _ _ _ fun t x hx => if_neg (by rw [hdrop x hx]; decide)
  have hfree : (fs.any fun x => x.1.locked s) = false := List.any_eq_false.mpr fun x hx => by simp [(htaken x hx).1]
  unfold writeFields
  dsimp only
  rw [hnone, hfold, hfree, if_neg Bool.false_ne_true]
  exact modHdr_unchanged (if_neg (by rw [hcount]; omega))

/-- A write of a word without a wide field is that of its fields. -/
theorem writeReg_narrow {s : State} {p : PageId} {o : Nat} (hwide : wideAt p o = none) (hhigh : highAt p o = none) (v : W32) :
    writeReg s p o v = writeFields s p o v.toNat ((fieldsAt p o).map fun f => (f, v.toNat / 2 ^ f.lo % 2 ^ f.w)) := by
  simp only [writeReg, hwide, hhigh, Option.isSome_none, Bool.false_eq_true, if_false]

end Sys2Proof.Machine.RegisterAccess

/-! SUPPORT. Settles O35: the wrapper's instructions. -/

namespace Sys2Proof.Machine.Wrapper

open Sys2Proof.Machine.KeysAndLevels Sys2Proof.Machine.RegisterAccess Sys2Proof.Machine.ShardState Sys2Proof.Machine.PanPower
  Sys2Proof.Machine.PowerFail Sys2Proof.Machine.Takeover Sys2Proof.Machine.Settlement

/-! ### The core taken (R496) -/

theorem gatePan_abandons (s : State) (p : Fin 64) : Abandons s (gatePan s p) := by
  obtain ⟨d, hgated⟩ := gatePan_rest s p
  rw [hgated]
  rfl

theorem testGate_abandons (s : State) (u : Nat) : Abandons s (testGate s u) := by
  unfold testGate
  split
  · dsimp only
    split
    · exact .refl s
    · exact gatePan_abandons ..
  · exact .refl s

theorem wearEnd_abandons (s : State) : Abandons s (wearEnd s) := by
  unfold wearEnd
  dsimp only
  split
  · next w _ => exact .trans (t := { modTide s fun t => { t with wearTests := false } with wear := none }) rfl (gatePan_abandons ..)
  · rfl

/-- The end of the running tests is an abandonment of work. -/
theorem abortTests_abandons (s : State) : Abandons s (abortTests s) := by
  unfold abortTests
  extract_lets us told gated
  have htold : Abandons s told := by
    unfold told
    split <;> rfl
  have hgated : Abandons told gated := .foldl testGate_abandons us told
  clear_value gated told
  have hcleared : Abandons gated (modTst gated fun t => { t with tests := [], bg := [], waiting := none }) := rfl
  exact ((htold.trans hgated).trans hcleared).trans (wearEnd_abandons _)

/-- What a taken core leaves. -/
structure CoreTaken (t : State) : Prop where
  taken : t.wrap.taken = true
  slots : ∀ i, vget t.sec.lk i = {}
  fenced : t.twn.regs.jstate = .fenced
  cause : t.sec.kercause = 4

theorem takeCore_taken (s : State) : CoreTaken (takeCore s) := by
  obtain ⟨-, hsec, hslots, -⟩ := eraseBoth_empties s 4
  have hkeys : (enterFenced (eraseBoth s 4)).sec = (eraseBoth s 4).sec := (keep_enterFenced _).1
  have hfenced := (enterFenced_leaves (eraseBoth s 4)).1
  unfold takeCore
  extract_lets fenced
  have hwork : Abandons fenced (abandonAll (abortTests fenced)) := (abortTests_abandons _).trans (.abandonAll _)
  generalize abandonAll (abortTests fenced) = t at hwork
  exact {
    taken := rfl
    slots := fun i => (congrArg (vget ·.lk i) (hwork.sec.trans hkeys)).trans (hslots i)
    fenced := (congrArg (·.regs.jstate) hwork.twn).trans hfenced
    cause := (congrArg Sec.kercause (hwork.sec.trans hkeys)).trans (congrArg Sec.kercause hsec :) }

theorem CoreTaken.intLine {t : State} (h : CoreTaken t) : intLine t = 0 := if_pos (by simp [h.taken])

/-! ### WS_VERSION and WS_TSTREG (R494, R495) -/

theorem version_bits (v : W32) (l : BitVec 4) : bv 64 (v.toNat + 2 ^ 32 * l.toNat) = (l.setWidth 32 ++ v : BitVec 64) := by
  apply BitVec.eq_of_toNat_eq
  have hv := v.isLt
  have hl := l.isLt
  rw [bv, BitVec.toNat_ofNat, BitVec.toNat_append, BitVec.toNat_setWidth, Nat.shiftLeft_eq, Nat.mod_eq_of_lt (by omega),
    Nat.mod_eq_of_lt (show l.toNat < 2 ^ 32 by omega), Nat.mul_comm l.toNat, Nat.add_comm]
  exact Nat.two_pow_add_eq_or_of_lt hv _

theorem tstreg_bits (w : BitVec 6) (x : Nat) :
    bit (bv 40 (b2n true + 4 * w.toNat + 256 * x)) 0 = true ∧
      (bv 40 (b2n true + 4 * w.toNat + 256 * x)).toNat / 256 = x % 2 ^ 32 := by
  have hw := w.isLt
  have hone : b2n true = 1 := rfl
  refine ⟨?_, ?_⟩
  · rw [bit, bv, BitVec.getLsbD_ofNat, Nat.testBit_zero, hone, decide_eq_true (by omega), decide_eq_true (by omega), Bool.and_self]
  · rw [bv, BitVec.toNat_ofNat, hone]
    omega

theorem tstregDone_leaves (s : State) (w : BitVec 6) (x : Nat) :
    bit (tstregDone s true w x).wrap.tstreg 0 = true ∧ (tstregDone s true w x).wrap.tstreg.toNat / 256 = x % 2 ^ 32 ∧
      (tstregDone s true w x).tst = s.tst ∧ (tstregDone s true w x).cp = s.cp := by
  obtain ⟨hdone, hdata⟩ := tstreg_bits w x
  exact ⟨hdone, hdata, rfl, rfl⟩

theorem tstregReach_on {s : State} (hstage : 3 ≤ s.glb.bstage.toNat) (hrst : s.pins.rstLow = false) (hactive : s.pwr.pstate = .active) :
    tstregReach s = true := by
  simp [tstregReach, hstage, hrst, hactive]

def tsField : RegF :=
  { lo := 0, w := 17
    get := fun s => s.tst.regs.tsUnit.toNat + 256 * s.tst.regs.tsKind.toNat + 65536 * b2n (s.tst.regs.tsRes == 1) }

def tsGoField : RegF := { lo := 0, w := 17, put := tsWrite }

theorem fieldsAt_ts : fieldsAt .tst 0x200 = [tsField, tsGoField] := rfl

/-- A unit and a kind written without TS_GO. -/
theorem writeReg_ts (s : State) (d : BitVec 12) :
    writeReg s .tst 0x200 (d.setWidth 32) = modTstR s fun t => { t with tsUnit := bv 8 d.toNat, tsKind := bv 4 (d.toNat / 256) } := by
  have hd := d.isLt
  have hvalue : (d.setWidth 32 : W32).toNat / 2 ^ 0 % 2 ^ 17 = d.toNat := by rw [BitVec.toNat_setWidth]; omega
  have hgo : nbit d.toNat 16 = false := Nat.testBit_lt_two_pow (by omega)
  have hput : tsWrite s d.toNat = modTstR s fun t => { t with tsUnit := bv 8 d.toNat, tsKind := bv 4 (d.toNat / 256) } :=
    if_neg (by simp [hgo])
  rw [writeReg_narrow rfl rfl, fieldsAt_ts, writeFields_stores]
  · simp only [List.map_cons, List.map_nil, List.foldl_cons, List.foldl_nil, tsField, tsGoField, hvalue, hput]
  · intro x hx
    rcases List.mem_cons.mp hx with rfl | hx
    · exact ⟨rfl, rfl⟩
    · obtain rfl := List.mem_singleton.mp hx
      exact ⟨rfl, rfl⟩
  · simp only [List.map_cons, List.map_nil, List.foldl_cons, List.foldl_nil, tsField, tsGoField, hvalue, hput]
    rfl

/-- Settles O35: each instruction's branch for its level. -/
theorem wrapperInstructions : Obligations.WrapperInstructions := by
  unfold Obligations.WrapperInstructions
  refine fun s x w d => ⟨fun c hc => ?_, ⟨_, rfl, rfl, version_bits .., rfl⟩, fun hlevel => ?_, fun hlevel c hc => ?_,
    fun hlevel c hc => ?_, fun hstage hrst hactive => ⟨?_, ?_⟩⟩
  · rcases hc with rfl | rfl
    · rfl
    · rfl
  · exact ⟨_, congrArg Host.Outcome.next (if_pos hlevel), rfl, rfl⟩
  · rcases hc with rfl | rfl
    · have htaken := takeCore_taken (loadWir s 2)
      have hexec : exec .wsExtest s = .next (takeCore (loadWir s 2)) := congrArg Host.Outcome.next (if_pos hlevel)
      generalize takeCore (loadWir s 2) = t at htaken hexec
      exact ⟨t, hexec, htaken.taken, htaken.slots, htaken.fenced, htaken.cause, htaken.intLine⟩
    · have htaken := takeCore_taken (loadWir s 3)
      have hexec : exec .wsIntestScan s = .next (takeCore (loadWir s 3)) := congrArg Host.Outcome.next (if_pos hlevel)
      generalize takeCore (loadWir s 3) = t at htaken hexec
      exact ⟨t, hexec, htaken.taken, htaken.slots, htaken.fenced, htaken.cause, htaken.intLine⟩
  · rcases List.mem_cons.mp hc with rfl | hc
    · exact congrArg Host.Outcome.next (if_neg hlevel)
    · rcases List.mem_cons.mp hc with rfl | hc
      · exact congrArg Host.Outcome.next (if_neg hlevel)
      · obtain rfl := List.mem_singleton.mp hc
        exact congrArg Host.Outcome.next (if_neg hlevel)
  · have hreach : tstregReach (loadWir s 5) = true := tstregReach_on hstage hrst hactive
    obtain ⟨hdone, hdata, htst, hcp⟩ := tstregDone_leaves (loadWir s 5) w (readWord (loadWir s 5) .tst (0x200 + 4 * w.toNat))
    exact ⟨_, congrArg Host.Outcome.next (if_pos hreach), hdone, hdata, htst, hcp⟩
  · have hreach : tstregReach (loadWir s 5) = true := tstregReach_on hstage hrst hactive
    have hwrite := writeReg_ts ((loadWir s 5).begin []) d
    have hlocal : accesses (writeReg ((loadWir s 5).begin []) .tst 0x200 (d.setWidth 32)) = noAccesses := by rw [hwrite]; rfl
    have hcommand := command_of_noAccesses (f := (writeReg · .tst 0x200 (d.setWidth 32))) hlocal
    rw [hwrite] at hcommand
    have hd := d.isLt
    have hexec : exec (.wsTstregWrite 0 (d.setWidth 32)) s = .next (tstregDone
        { command [] (loadWir s 5) (writeReg · .tst 0x200 (d.setWidth 32)) with cp := s.cp } true 0 (d.setWidth 32 : W32).toNat) :=
      congrArg Host.Outcome.next (if_pos hreach)
    rw [hcommand] at hexec
    obtain ⟨hdone, -, htst, hcp⟩ := tstregDone_leaves { modTstR ((loadWir s 5).begin []) fun t =>
      { t with tsUnit := bv 8 d.toNat, tsKind := bv 4 (d.toNat / 256) } with hostBad := [], who := none, rsv := false, cp := s.cp } 0
      (d.setWidth 32 : W32).toNat
    refine ⟨_, hexec, hdone, hcp, ?_, ?_⟩
    · exact (congrArg (·.regs.tsUnit.toNat) htst).trans (BitVec.toNat_ofNat ..)
    · exact (congrArg (·.regs.tsKind.toNat) htst).trans ((BitVec.toNat_ofNat ..).trans (Nat.mod_eq_of_lt (by omega)))

end Sys2Proof.Machine.Wrapper

/-! SUPPORT. Settles O32: interrupt routing, INST, PG_SCRATCH, the reads of a page, and plain words of the reservoir. -/

namespace Sys2Proof.Machine.PageAccess

open Sys2Proof.Machine.RegisterAccess Sys2Proof.Machine.CoreClock Sys2Proof.Machine.ShardState Sys2Proof.Machine.Settlement
  Sys2Proof.Machine.Bytes

/-! ### Messages that a change of routing makes due (R448, R473) -/

/-- The states differ at most in messages issued or held. -/
def Messages (s t : State) : Prop := t = { s with txns := t.txns, pwr := { s.pwr with heldMsg := t.pwr.heldMsg } }

theorem Messages.trans {s t u : State} (h : Messages s t) (k : Messages t u) : Messages s u := by
  unfold Messages at *
  rw [k, h]

theorem Messages.cp {s t : State} (h : Messages s t) : t.cp = s.cp := (congrArg State.cp h :)
theorem Messages.glb {s t : State} (h : Messages s t) : t.glb = s.glb := (congrArg State.glb h :)
theorem Messages.hdrs {s t : State} (h : Messages s t) : t.hdrs = s.hdrs := (congrArg State.hdrs h :)

theorem intDest_congr {s t : State} (h : t.glb = s.glb) (i : Nat) : intDest t i = intDest s i := by rw [intDest, h, intDest]

theorem sendRouted_messages (before s : State) : Messages s (sendRouted before s) := by
  unfold sendRouted
  refine List.foldlRecOn (motive := Messages s) (List.range 96) _ rfl fun t ht i _ => ht.trans ?_
  split
  · unfold sendMsg
    dsimp only
    split <;> rfl
  · rfl

/-! ### INTDST and INTEN (R473) -/

def intdstField (k : Nat) : RegF := { lo := 0, w := 32, get := intdstGet k, put := fun s v => intdstWrite s k v }

theorem fieldsAt_intdst (k : Fin 12) : wideAt .glb (0x220 + 4 * k.1) = none ∧ highAt .glb (0x220 + 4 * k.1) = none ∧
    fieldsAt .glb (0x220 + 4 * k.1) = [intdstField k.1] := by
  fin_cases k <;> exact ⟨rfl, rfl, rfl⟩

def intenField (k : Nat) : RegF := { lo := 0, w := 32, get := fun s => get96 s.glb.inten k, put := fun s v => intenWrite s k v }

theorem fieldsAt_inten (k : Fin 3) : wideAt .glb (0x210 + 4 * k.1) = none ∧ highAt .glb (0x210 + 4 * k.1) = none ∧
    fieldsAt .glb (0x210 + 4 * k.1) = [intenField k.1] := by
  fin_cases k <;> exact ⟨rfl, rfl, rfl⟩

theorem intDest_intdstPut (s : State) (k v : Nat) (i : Fin 96) :
    intDest (intdstPut s k v) i.1 = if i.1 / 8 = k then v / 16 ^ (i.1 % 8) % 8 else intDest s i.1 := by
  have hi := i.isLt
  unfold intDest intdstPut
  rw [dif_pos hi, dif_pos hi]
  simp only [modGlb_glb, vget_ofFn]
  split
  · exact BitVec.toNat_ofNat ..
  · rfl

/-- A 32-bit field of a number replaced. -/
theorem testBit_replaced {x e v : Nat} (hv : v < 2 ^ 32) (i : Nat) :
    (x - x / 2 ^ e % 2 ^ 32 * 2 ^ e + v * 2 ^ e).testBit i = if e ≤ i ∧ i < e + 32 then v.testBit (i - e) else x.testBit i := by
  have hlow : x % 2 ^ e < 2 ^ e := Nat.mod_lt _ (Nat.two_pow_pos e)
  have hcut : x = 2 ^ e * (2 ^ 32 * (x / 2 ^ e / 2 ^ 32) + x / 2 ^ e % 2 ^ 32) + x % 2 ^ e := by
    rw [Nat.div_add_mod, Nat.div_add_mod]
  have hnew : x - x / 2 ^ e % 2 ^ 32 * 2 ^ e + v * 2 ^ e = 2 ^ e * (2 ^ 32 * (x / 2 ^ e / 2 ^ 32) + v) + x % 2 ^ e := by
    generalize x / 2 ^ e % 2 ^ 32 = mid at hcut ⊢
    generalize 2 ^ 32 * (x / 2 ^ e / 2 ^ 32) = hi at hcut ⊢
    rw [Nat.mul_add] at hcut ⊢
    rw [Nat.mul_comm mid, Nat.mul_comm v]
    omega
  rw [hnew, Nat.testBit_two_pow_mul_add _ hlow]
  by_cases hi : i < e
  · rw [if_pos hi, if_neg (by omega), Nat.testBit_mod_two_pow, decide_eq_true hi, Bool.true_and]
  · rw [if_neg hi, Nat.testBit_two_pow_mul_add _ hv]
    by_cases hin : i - e < 32
    · rw [if_pos hin, if_pos (by omega)]
    · rw [if_neg hin, if_neg (by omega), Nat.testBit_div_two_pow, Nat.testBit_div_two_pow]
      congr 1
      omega

theorem bit_word96 (x : BitVec 96) {k v : Nat} (hv : v < 2 ^ 32) (i : Fin 96) :
    bit (word96 x k v) i.1 = if i.1 / 32 = k then v.testBit (i.1 % 32) else bit x i.1 := by
  have hi := i.isLt
  rw [word96, bv, bit, BitVec.getLsbD_ofNat, decide_eq_true hi, Bool.true_and, testBit_replaced hv]
  by_cases hk : i.1 / 32 = k
  · rw [if_pos hk, if_pos (by omega)]
    congr 1
    omega
  · rw [if_neg hk, if_neg (by omega)]
    rfl

/-- What a write of the routing leaves. -/
structure Routed (s t : State) (r : Nat) (d : W32) : Prop where
  cp : t.cp = s.cp
  intpnd : t.glb.intpnd = s.glb.intpnd
  hdrs : t.hdrs = s.hdrs
  dest : ∀ i : Fin 96, intDest t i.1 = if i.1 / 8 = r then d.toNat / 16 ^ (i.1 % 8) % 8 else intDest s i.1
  enabled : ∀ i : Fin 96, bit t.glb.inten i.1 = if i.1 / 32 + 12 = r then bit d (i.1 % 32) else bit s.glb.inten i.1

theorem Routed.messages {s u t : State} {r : Nat} {d : W32} (h : Routed s u r d) (hm : Messages u t) : Routed s t r d :=
  ⟨hm.cp.trans h.cp, (congrArg Glb.intpnd hm.glb).trans h.intpnd, hm.hdrs.trans h.hdrs,
    fun i => (intDest_congr hm.glb i.1).trans (h.dest i), fun i => (congrArg (bit ·.inten i.1) hm.glb).trans (h.enabled i)⟩

theorem intdstPut_routed (s : State) (k : Fin 12) (d : W32) : Routed s (intdstPut s k.1 d.toNat) k.1 d := by
  have hk := k.isLt
  exact ⟨modGlb_cp .., by simp only [intdstPut, modGlb_glb], modGlb_hdrs .., fun i => intDest_intdstPut s k.1 d.toNat i,
    fun i => Eq.trans (by simp only [intdstPut, modGlb_glb]) (if_neg (by omega)).symm⟩

theorem word96_routed (s : State) (k : Fin 3) (d : W32) :
    Routed s (modGlb s fun g => { g with inten := word96 g.inten k.1 d.toNat }) (k.1 + 12) d := by
  refine ⟨rfl, rfl, rfl, fun i => (if_neg (by omega)).symm, fun i => (bit_word96 s.glb.inten d.isLt i).trans ?_⟩
  simp only [Nat.add_right_cancel_iff]
  rfl

/-- A word of one field, free and in range, whose effect is the routing's. -/
theorem writeReg_routed {s t : State} {o r : Nat} {d : W32} {f : RegF} (hwide : wideAt .glb o = none) (hhigh : highAt .glb o = none)
    (hfields : fieldsAt .glb o = [f]) (hfree : f.locked s = false ∧ f.bad s d.toNat d.toNat = none) (hlo : f.lo = 0) (hw : f.w = 32)
    (hput : f.put s d.toNat = t) (hrouted : Routed s t r d) : Routed s (writeReg s .glb o d) r d := by
  have hvalue : d.toNat / 2 ^ 0 % 2 ^ 32 = d.toNat := by have := d.isLt; omega
  rw [writeReg_narrow hwide hhigh, hfields, List.map_singleton, hlo, hw, hvalue, writeFields_stores]
  · rw [List.foldl_cons, List.foldl_nil, hput]
    exact hrouted
  · intro x hx
    obtain rfl := List.mem_singleton.mp hx
    exact hfree
  · exact congrArg PageHdr.rejCnt (hdr_congr ((congrArg State.hdrs hput).trans hrouted.hdrs) .glb)

theorem writeReg_intdst (s : State) (k : Fin 12) (d : W32) : Routed s (writeReg s .glb (0x220 + 4 * k.1) d) k.1 d := by
  obtain ⟨hwide, hhigh, hfields⟩ := fieldsAt_intdst k
  exact writeReg_routed hwide hhigh hfields ⟨rfl, rfl⟩ rfl rfl rfl ((intdstPut_routed s k d).messages (sendRouted_messages s _))

theorem writeReg_inten (s : State) (k : Fin 3) (d : W32) : Routed s (writeReg s .glb (0x210 + 4 * k.1) d) (k.1 + 12) d := by
  obtain ⟨hwide, hhigh, hfields⟩ := fieldsAt_inten k
  exact writeReg_routed hwide hhigh hfields ⟨rfl, rfl⟩ rfl rfl rfl ((word96_routed s k d).messages (sendRouted_messages s _))

/-! ### The lines (R447) -/

theorem bit_sum : ∀ (b : Fin 4 → Bool) (n : Fin 4),
    bit (BitVec.ofNat 4 (((List.finRange 4).map fun k => if b k then 2 ^ k.1 else 0).sum)) n.1 = b n := by
  decide

theorem bit_intLine {s : State} (hcore : s.wrap.taken = false) (hawake : s.pwr.pstate = .active ∨ s.pwr.pstate = .doze) (n : Fin 4) :
    bit (intLine s) n.1 = true ↔
      ∃ i : Fin 96, bit s.glb.intpnd i.1 = true ∧ bit s.glb.inten i.1 = true ∧ intDest s i.1 = n.1 := by
  let high (n : Fin 4) : Bool := (List.range 96).any fun i => bit s.glb.intpnd i && bit s.glb.inten i && intDest s i == n.1
  have hline : intLine s = BitVec.ofNat 4 (((List.finRange 4).map fun k => if high k then 2 ^ k.1 else 0).sum) :=
    if_neg (by rcases hawake with h | h <;> simp [hcore, h])
  rw [hline, bit_sum high n]
  simp only [high, List.any_eq_true, List.mem_range, Bool.and_eq_true, beq_iff_eq, and_assoc]
  exact ⟨fun ⟨i, hi, h⟩ => ⟨⟨i, hi⟩, h⟩, fun ⟨i, h⟩ => ⟨i.1, i.isLt, h⟩⟩

/-! ### INST (R466) -/

def instField : RegF :=
  { lo := 0, w := 6, get := fun s => s.glb.inst.toNat, put := fun s v => instWrite s (bv 6 v)
    bad := fun s _ _ => if instLocked s then some .runlock else none }

theorem fieldsAt_inst : fieldsAt .glb 0x40 = [instField] := rfl

theorem writeReg_inst (s : State) (v : BitVec 6) :
    writeReg s .glb 0x40 (v.setWidth 32) = writeFields s .glb 0x40 v.toNat [(instField, v.toNat)] := by
  have hv := v.isLt
  have hword : (v.setWidth 32 : W32).toNat = v.toNat := by rw [BitVec.toNat_setWidth]; omega
  have hvalue : v.toNat / 2 ^ 0 % 2 ^ 6 = v.toNat := by omega
  rw [writeReg_narrow rfl rfl, fieldsAt_inst, hword, List.map_singleton]
  exact congrArg (fun x => writeFields s .glb 0x40 v.toNat [(instField, x)]) hvalue

theorem writeReg_inst_stores {s : State} (hfree : instLocked s = false) (v : BitVec 6) :
    writeReg s .glb 0x40 (v.setWidth 32) = instWrite s v := by
  rw [writeReg_inst, writeFields_stores]
  · rw [List.foldl_cons, List.foldl_nil]
    exact congrArg (instWrite s) (BitVec.ofNat_toNat ..)
  · intro x hx
    obtain rfl := List.mem_singleton.mp hx
    exact ⟨rfl, if_neg (by simp [hfree])⟩
  · rfl

/-- One dropped field that is not run-locked: its record is all that the write leaves. -/
theorem writeFields_drops {s : State} {p : PageId} {o word : Nat} {x : RegF × Nat} {c : Rej} (hfree : x.1.locked s = false)
    (hbad : x.1.bad s word x.2 = some c) : writeFields s p o word [x] = cfgRej s p o c := by
  have hdrop : dropCause s word x.1 x.2 = some c := by rw [dropCause, if_neg (by simp [hfree]), hbad]
  have hcount : ¬ (hdr s p).rejCnt.toNat + 1 < (hdr (cfgRej s p o c) p).rejCnt.toNat := by
    rw [cfgRej, hdr_modHdr, rejCnt_reject, satAdd, BitVec.toNat_ofNat]
    omega
  unfold writeFields
  simp only [List.findSome?_cons, hdrop, List.foldl_cons, List.foldl_nil, Option.isSome_some, if_true, List.any_cons, List.any_nil,
    hfree, Bool.or_self, Bool.false_eq_true, if_false]
  exact modHdr_unchanged (if_neg hcount)

theorem writeReg_inst_locked {s : State} (hlocked : instLocked s = true) (v : BitVec 6) :
    writeReg s .glb 0x40 (v.setWidth 32) = cfgRej s .glb 0x40 .runlock := by
  rw [writeReg_inst]
  exact writeFields_drops rfl (if_pos hlocked)

/-! ### The control window (R455) -/

theorem num_lt (p : PageId) : p.num < 0x79 := by
  cases p <;> simp only [PageId.num] <;> omega

theorem pageOfNum_num (p : PageId) : pageOfNum p.num = some p := by
  cases p with
  | lnk k => fin_cases k <;> rfl
  | hrv n => fin_cases n <;> rfl
  | slt n => fin_cases n <;> rfl
  | qd q => fin_cases q <;> rfl
  | pan q => fin_cases q <;> rfl
  | _ => rfl

/-- The address of a page's word in the control window leads to the word. -/
theorem atWindow_page (s : State) (p : PageId) {o : Nat} (hword : o % 4 = 0) (hin : o < 0x1000) (page : PageId → Nat → State)
    (res : Nat → State) : atWindow s (4 * (BitVec.ofNat 25 (0x400 * p.num + o / 4)).toNat) page res = page p o := by
  have hp := num_lt p
  have haddr : 4 * (BitVec.ofNat 25 (0x400 * p.num + o / 4)).toNat = 0x1000 * p.num + o := by
    rw [BitVec.toNat_ofNat]
    omega
  have hnum : (0x1000 * p.num + o) / 0x1000 = p.num := by omega
  have hoff : (0x1000 * p.num + o) % 0x1000 = o := by omega
  rw [haddr, atWindow, if_neg (by omega), if_neg (by omega), hnum, hoff, pageOfNum_num]

theorem exec_read (s : State) (p : PageId) {o : Nat} (hword : o % 4 = 0) (hin : o < 0x1000) :
    exec (.wideReadLatch (BitVec.ofNat 25 (0x400 * p.num + o / 4))) s = .next (cpDo s (some p) (readReg · p o)) :=
  congrArg Host.Outcome.next (atWindow_page s p hword hin _ _)

theorem exec_write (s : State) (p : PageId) {o : Nat} (hword : o % 4 = 0) (hin : o < 0x1000) (be : BitVec 4) (d : W32) :
    exec (.registerWrite (BitVec.ofNat 25 (0x400 * p.num + o / 4)) be d) s =
      .next (if be = 0xF then cpDo s (some p) fun s => command [] s (writeReg · p o d) else cpRefuse s) :=
  congrArg Host.Outcome.next (atWindow_page s p hword hin _ _)

theorem cpRefuse_reached {s : State} (h : reach s none ≠ .dead) : cpRefuse s = answer s cpError := by
  unfold cpRefuse
  split
  · next hdead => exact absurd hdead h
  · rfl

/-- A page that answers shows a control port that takes requests. -/
theorem cpRefuse_answers {s : State} {p : PageId} (h : Answers s p) : cpRefuse s = answer s cpError := by
  have htaken : ¬ (s.pins.rstLow || s.pwr.pstate = .off || s.wrap.taken) = true := fun hdead => by
    have := h.1
    rw [reach, if_pos hdead] at this
    cases this
  refine cpRefuse_reached ?_
  rw [reach, if_neg htaken]
  split
  · decide
  · split
    · decide
    · split <;> decide

/-! ### PG_SCRATCH (R459) -/

def scratchField (p : PageId) : RegF :=
  { lo := 0, w := 32, get := fun s => (hdr s p).scratch.toNat, put := fun s v => modHdr s p fun h => { h with scratch := bv 32 v } }

theorem fieldsAt_scratch (p : PageId) : fieldsAt p 0x3C = [scratchField p] := rfl

theorem writeReg_scratch (s : State) (p : PageId) (d : W32) :
    writeReg s p 0x3C d = modHdr s p fun h => { h with scratch := d } := by
  have hvalue : d.toNat / 2 ^ 0 % 2 ^ 32 = d.toNat := by have := d.isLt; omega
  have hput : (scratchField p).put s d.toNat = modHdr s p fun h => { h with scratch := d } := by
    simp only [scratchField, bv, BitVec.ofNat_toNat, BitVec.setWidth_eq]
  have hfold : [(scratchField p, d.toNat)].foldl (fun t x => x.1.put t x.2) s = modHdr s p fun h => { h with scratch := d } := hput
  have hfields : (fieldsAt p 0x3C).map (fun f => (f, d.toNat / 2 ^ f.lo % 2 ^ f.w)) = [(scratchField p, d.toNat)] := by
    rw [fieldsAt_scratch, List.map_singleton]
    exact congrArg (fun x => [(scratchField p, x)]) hvalue
  rw [writeReg_narrow rfl rfl, hfields, writeFields_stores, hfold]
  · intro x hx
    obtain rfl := List.mem_singleton.mp hx
    exact ⟨rfl, rfl⟩
  · rw [hfold, hdr_modHdr]

theorem readWord_scratch (s : State) (p : PageId) : bv 32 (readWord s p 0x3C) = (hdr s p).scratch := by
  have hword : readWord s p 0x3C = (hdr s p).scratch.toNat % 2 ^ 32 * 2 ^ 0 + 0 + 0 + 0 := rfl
  rw [hword, bv]
  apply BitVec.eq_of_toNat_eq
  rw [BitVec.toNat_ofNat]
  omega

/-! ### Reads of a page (R457) -/

/-- A read other than DW_DATA's. -/
theorem readReg_plain (s : State) {p : PageId} {o : Nat} (h : p ≠ .tst ∨ (o ≠ 0x90 ∧ o ≠ 0x94)) :
    readReg s p o = if latches p o then
        answer (modHdr s p fun h => { h with latch := some (o, bv 32 (readWord s p (o + 4))) }) cpOk (bv 32 (readWord s p o))
      else match (hdr s p).latch with
        | some (l, w) =>
          if l + 4 = o then answer (modHdr s p fun h => { h with latch := none }) cpOk w
          else answer s cpOk (bv 32 (readWord s p o))
        | none => answer s cpOk (bv 32 (readWord s p o)) :=
  (if_neg (by rcases h with h | ⟨h, h'⟩ <;> simp [*])).trans rfl

theorem readReg_latches {s : State} {p : PageId} {o : Nat} (h : p ≠ .tst ∨ (o ≠ 0x90 ∧ o ≠ 0x94)) (hwide : latches p o = true) :
    readReg s p o =
      answer (modHdr s p fun h => { h with latch := some (o, bv 32 (readWord s p (o + 4))) }) cpOk (bv 32 (readWord s p o)) :=
  (readReg_plain s h).trans (if_pos hwide)

theorem readReg_word {s : State} {p : PageId} {o : Nat} (h : p ≠ .tst ∨ (o ≠ 0x90 ∧ o ≠ 0x94)) (hnarrow : latches p o = false)
    (hlatch : ∀ x, (hdr s p).latch = some x → x.1 + 4 ≠ o) : readReg s p o = answer s cpOk (bv 32 (readWord s p o)) := by
  rw [readReg_plain s h, if_neg (by simp [hnarrow])]
  split
  · next l w hl => exact if_neg (hlatch (l, w) hl)
  · rfl

theorem readReg_latched {s : State} {p : PageId} {o : Nat} (h : p ≠ .tst ∨ (o ≠ 0x90 ∧ o ≠ 0x94)) (hnarrow : latches p o = false)
    {x : Nat × W32} (hlatch : (hdr s p).latch = some x) (hnext : x.1 + 4 = o) :
    readReg s p o = answer (modHdr s p fun h => { h with latch := none }) cpOk x.2 := by
  rw [readReg_plain s h, if_neg (by simp [hnarrow]), hlatch]
  exact if_pos hnext

theorem latches_scratch (p : PageId) : latches p 0x3C = false := by cases p <;> rfl

/-- A read of DW_DATA's words is the debug window's. -/
theorem readReg_dw (s : State) {o : Nat} (h : o = 0x90 ∨ o = 0x94) : readReg s .tst o = dwRead s (o == 0x94) :=
  if_pos (by rcases h with rfl | rfl <;> rfl)

theorem exec_read_dw {s : State} (hans : Answers s .tst) {o : Nat} (h : o = 0x90 ∨ o = 0x94) :
    cpDo s (some .tst) (readReg · .tst o) = cpDo s (some .tst) (dwRead · (o == 0x94)) := by
  rw [cpDo_answers hans, cpDo_answers hans, readReg_dw _ h]

theorem exec_read_reservoir (off : BitVec 24) (s : State) :
    exec (.wideReadLatch (BitVec.ofNat 25 (0x1000000 + off.toNat))) s = exec (.reservoirRead off .none) s := by
  have hoff := off.isLt
  have haddr : 4 * (BitVec.ofNat 25 (0x1000000 + off.toNat)).toNat = 0x4000000 + 4 * off.toNat := by
    rw [BitVec.toNat_ofNat]
    omega
  refine congrArg Host.Outcome.next ?_
  rw [haddr, atWindow, if_pos (by omega), Nat.add_sub_cancel_left]

theorem exec_read_nothing {a : BitVec 25} {s : State} (hreach : reach s none ≠ .dead) (hlow : a.toNat < 0x1000000)
    (hnone : pageOfNum (a.toNat / 0x400) = none) : exec (.wideReadLatch a) s = .next (answer s cpError) := by
  have hnum : 4 * a.toNat / 0x1000 = a.toNat / 0x400 := by omega
  refine congrArg Host.Outcome.next ?_
  rw [atWindow, if_neg (by omega)]
  split
  · exact cpRefuse_reached hreach
  · rw [hnum, hnone]
    exact cpRefuse_reached hreach

/-! ### Plain words of the reservoir (R437, R456) -/

/-- One byte lane of a write. -/
def lanePut (o : Nat) (be : BitVec 4) (d : W32) (s : State) (i : Nat) : State :=
  if bit be i then resPut s (o + i) [bv 8 (d.toNat / 256 ^ i)] else s

theorem foldl_laneBytes (s : State) (o : Nat) (be : BitVec 4) (d : W32) :
    (laneBytes o be d).foldl (fun s x => resPut s x.1 [x.2]) s = (List.range 4).foldl (lanePut o be d) s := by
  unfold laneBytes
  rw [List.foldl_filterMap]
  refine List.foldl_ext _ _ _ fun t i _ => ?_
  unfold lanePut
  by_cases hon : bit be i = true
  · rw [if_pos hon, if_pos hon]
  · rw [if_neg hon, if_neg hon]

theorem lanePut_rest (o : Nat) (be : BitVec 4) (d : W32) (s : State) (i : Nat) : ∃ r, lanePut o be d s i = { s with res := r } ∧
    ∀ a, smGet 0 r a = if a = o + i ∧ bit be i = true then BitVec.ofNat 8 (d.toNat / 256 ^ i) else smGet 0 s.res a := by
  unfold lanePut
  split
  · next hon =>
    refine ⟨_, rfl, fun a => (smGet_memPut ..).trans ?_⟩
    by_cases ha : a = o + i
    · subst ha
      rw [if_pos (by simp), if_pos ⟨rfl, hon⟩, Nat.sub_self]
      rfl
    · rw [if_neg (by simp; omega), if_neg fun h => ha h.1]
  · next hoff => exact ⟨s.res, rfl, fun a => (if_neg fun h => hoff h.2).symm⟩

/-- What the lanes of a write leave. -/
theorem lanesPut_rest (o : Nat) (be : BitVec 4) (d : W32) (s : State) :
    ∃ r, (List.range 4).foldl (lanePut o be d) s = { s with res := r } ∧
      (∀ i : Fin 4, smGet 0 r (o + i.1) = if bit be i.1 then BitVec.ofNat 8 (d.toNat / 256 ^ i.1) else smGet 0 s.res (o + i.1)) ∧
      ∀ a, a < o ∨ o + 4 ≤ a → smGet 0 r a = smGet 0 s.res a := by
  obtain ⟨r₀, h₀, hr₀⟩ := lanePut_rest o be d s 0
  obtain ⟨r₁, h₁, hr₁⟩ := lanePut_rest o be d { s with res := r₀ } 1
  obtain ⟨r₂, h₂, hr₂⟩ := lanePut_rest o be d { s with res := r₁ } 2
  obtain ⟨r₃, h₃, hr₃⟩ := lanePut_rest o be d { s with res := r₂ } 3
  have hall : (List.range 4).foldl (lanePut o be d) s = { s with res := r₃ } := by
    show lanePut o be d (lanePut o be d (lanePut o be d (lanePut o be d s 0) 1) 2) 3 = _
    rw [h₀, h₁, h₂, h₃]
  refine ⟨r₃, hall, fun i => ?_, fun a ha => ?_⟩
  · simp only [hr₃, hr₂, hr₁, hr₀, Nat.add_left_cancel_iff]
    fin_cases i <;> simp
  · rw [hr₃, if_neg (by omega), hr₂, if_neg (by omega), hr₁, if_neg (by omega), hr₀, if_neg (by omega)]

theorem resWrite_plain {s : State} {o : Nat} (h : resRegion s o = .plain) (be : BitVec 4) (d : W32) :
    resWrite s o be d = (List.range 4).foldl (lanePut o be d) s := by
  unfold resWrite
  simp only [h]
  exact foldl_laneBytes s o be d

theorem resWrite_shard {s : State} {o i : Nat} (h : resRegion s o = .shard i) {be : BitVec 4} (hbe : be ≠ 0) (d : W32) :
    resWrite s o be d = resDrop s .glb o .range := by
  have hsome : ∃ i < 4, bit be i = true := by
    by_contra hnone
    refine hbe (BitVec.eq_of_getLsbD_eq fun i hi => ?_)
    rw [show (0 : BitVec 4).getLsbD i = false from BitVec.getLsbD_zero]
    exact Bool.eq_false_iff.mpr fun hbit => hnone ⟨i, hi, hbit⟩
  obtain ⟨j, hj, hbit⟩ := hsome
  have hlanes : (laneBytes o be d).isEmpty = false := by
    refine Bool.eq_false_iff.mpr fun hempty => ?_
    have hin : (o + j, bv 8 (d.toNat / 256 ^ j)) ∈ laneBytes o be d :=
      List.mem_filterMap.mpr ⟨j, List.mem_range.mpr hj, if_pos hbit⟩
    rw [List.isEmpty_iff.mp hempty] at hin
    exact List.not_mem_nil hin
  unfold resWrite
  simp only [h, hlanes, Bool.false_eq_true, if_false]

theorem resRead_plain {s : State} {o : Nat} (h : resRegion s o = .plain) (hunc : corruptArmed s .glb cEccunc = false)
    (hcor : corruptArmed s .glb cEcccor = false) :
    resRead s o .none = answer s cpOk (BitVec.ofNat 32 (leNat (memBytes s.res o 4))) := by
  have hword : resWord s o = leNat (memBytes s.res o 4) := by
    unfold resWord
    simp only [h, resBytes]
  simp only [resRead, eccSeen, hunc, hcor, hword, bv, Bool.false_eq_true, if_false]

theorem cpDo_reservoir {s : State} (hreach : reach s none = .ok) (hstep : corruptArmed s .glb cLockstep = false) (f : State → State) :
    cpDo s none f = f (answer s cpOk) := by
  unfold cpDo
  simp only [hreach, hstep, Bool.false_eq_true, if_false]

/-! ### The obligation's five parts -/

theorem exec_intRouteWrite {s : State} (hans : Answers s .glb) (r : Fin 15) (d : W32) :
    ∃ t, exec (.intRouteWrite r d) s = .next t ∧ Routed (answer s cpOk) t r.1 d := by
  have hr := r.isLt
  by_cases hlow : r.1 < 12
  · refine ⟨_, cpWrite_answers hans _, ?_⟩
    rw [if_pos hlow]
    exact writeReg_intdst _ ⟨r.1, hlow⟩ d
  · refine ⟨_, cpWrite_answers hans _, ?_⟩
    rw [if_neg hlow]
    have hrouted := writeReg_inten (answer s cpOk) ⟨r.1 - 12, by omega⟩ d
    rwa [show r.1 - 12 + 12 = r.1 by omega] at hrouted

theorem exec_scratch {s : State} {p : PageId} (hans : Answers s p) (d : W32) :
    exec (.registerWrite (BitVec.ofNat 25 (0x400 * p.num + 0xF)) 0xF d) s =
      .next { modHdr ((answer s cpOk).begin []) p fun h => { h with scratch := d } with hostBad := [], who := none, rsv := false } := by
  have hwrite := writeReg_scratch ((answer s cpOk).begin []) p d
  have hlocal : accesses (writeReg ((answer s cpOk).begin []) p 0x3C d) = noAccesses := by rw [hwrite]; rfl
  have hcommand := command_of_noAccesses (f := (writeReg · p 0x3C d)) hlocal
  rw [hwrite] at hcommand
  refine (exec_write s p (o := 0x3C) rfl (by decide) 0xF d).trans (congrArg Host.Outcome.next ((if_pos rfl).trans ?_))
  rw [cpDo_answers hans]
  exact hcommand

/-- Settles O32: the routing, INST, PG_SCRATCH, the reads and the reservoir's words, in the order of the statement. -/
theorem pageRegisterStores : Obligations.PageRegisterStores := by
  unfold Obligations.PageRegisterStores
  refine ⟨⟨⟨fun r d s hans => ?_, fun n s hcore => ⟨fun hawake => bit_intLine hcore hawake n, fun hasleep => ?_⟩⟩,
    fun v s hans => ⟨fun hjoining hjoined => ?_, fun hlocked => ?_⟩⟩, fun p d be s hans => ⟨?_, fun hlatch => ?_, fun hbe => ?_⟩,
    ⟨fun p o s hans hword hin => ⟨fun hplain => ⟨fun hwide => ?_, fun hnarrow hlatch => ?_, fun hnarrow x hlatch hnext => ?_⟩,
      fun hp ho => ?_⟩, fun off s => ?_, fun a s hreach hlow hnone => ?_⟩,
    fun off be d s hreach hstep hunc hcor => ⟨fun hregion => ⟨?_, ?_⟩, fun i hregion hbe => ?_⟩⟩
  · obtain ⟨t, hexec, hrouted⟩ := exec_intRouteWrite hans r d
    exact ⟨t, hexec, hrouted.cp, hrouted.intpnd, hrouted.hdrs, fun i _ => hrouted.dest i, fun i _ => hrouted.enabled i⟩
  · exact if_pos (by rcases hasleep with h | h <;> simp [h])
  · have hfree : instLocked (answer s cpOk) = false := by simp [instLocked, hjoining, hjoined]
    refine ⟨_, (cpWrite_answers hans _).trans (congrArg Host.Outcome.next (writeReg_inst_stores hfree v)), rfl, rfl, ?_, rfl⟩
    have hv := v.isLt
    exact (BitVec.toNat_ofNat ..).trans (Nat.mod_eq_of_lt (by omega))
  · have hbusy : instLocked (answer s cpOk) = true := by rcases hlocked with h | h <;> simp [instLocked, h]
    exact ⟨_, (cpWrite_answers hans _).trans (congrArg Host.Outcome.next (writeReg_inst_locked hbusy v)), rfl, rfl, hdr_modHdr ..⟩
  · exact ⟨_, exec_scratch hans d, rfl, congrArg PageHdr.scratch (hdr_modHdr ..), fun q hq => hdr_modHdr_ne _ hq.symm _, rfl, rfl, rfl,
      rfl, rfl⟩
  · refine (exec_read s p (o := 0x3C) rfl (by decide)).trans (congrArg Host.Outcome.next ?_)
    rw [cpDo_answers hans]
    refine (readReg_word (s := answer s cpOk) (o := 0x3C) (.inr ⟨by decide, by decide⟩) (latches_scratch p)
      fun x hx => nomatch hlatch.symm.trans hx).trans ?_
    rw [readWord_scratch]
    rfl
  · refine (exec_write s p (o := 0x3C) rfl (by decide) be d).trans (congrArg Host.Outcome.next ((if_neg hbe).trans ?_))
    exact cpRefuse_answers hans
  · refine (exec_read s p hword hin).trans (congrArg Host.Outcome.next ?_)
    rw [cpDo_answers hans, readReg_latches hplain hwide]
    rfl
  · refine (exec_read s p hword hin).trans (congrArg Host.Outcome.next ?_)
    rw [cpDo_answers hans, readReg_word (s := answer s cpOk) hplain hnarrow hlatch]
    rfl
  · refine (exec_read s p hword hin).trans (congrArg Host.Outcome.next ?_)
    rw [cpDo_answers hans, readReg_latched (s := answer s cpOk) hplain hnarrow hlatch hnext]
    rfl
  · subst hp
    exact (exec_read s .tst hword hin).trans (congrArg Host.Outcome.next (exec_read_dw hans ho))
  · exact exec_read_reservoir off s
  · exact exec_read_nothing hreach hlow hnone
  · obtain ⟨r, hput, hlanes, houtside⟩ := lanesPut_rest (4 * off.toNat) be d (answer s cpOk)
    refine ⟨_, congrArg Host.Outcome.next ((cpDo_reservoir hreach hstep _).trans ((resWrite_plain (s := answer s cpOk) hregion be d).trans
      hput)), rfl, rfl, rfl, hlanes, houtside⟩
  · exact congrArg Host.Outcome.next ((cpDo_reservoir hreach hstep _).trans (resRead_plain (s := answer s cpOk) hregion hunc hcor))
  · exact ⟨_, congrArg Host.Outcome.next ((cpDo_reservoir hreach hstep _).trans (resWrite_shard (s := answer s cpOk) hregion hbe d)), rfl,
      rfl, hdr_modHdr ..⟩

end Sys2Proof.Machine.PageAccess

/-! SUPPORT. Settles O44: the load of a customer kernel, events and PFLUSH. -/

namespace Sys2Proof.Machine.Kernels

open Sys2Proof.Machine.Settlement Sys2Proof.Machine.FirmwareLoad

theorem clenOk_iff (n : Nat) : clenOk n = true ↔ 64 ≤ n ∧ n ≤ 0x40000 ∧ n % 64 = 0 := by
  simp [clenOk, and_assoc]

/-- CGO of a customer salter that is idle and loads nothing is judged by the length alone. -/
theorem cgoWrite_idle {s : State} {n : Fin 8} (hcust : (salt s n).regs.cust = true) (hidle : pageState s (.slt n) = .idle)
    (hfree : (salt s n).regs.cgo = false) :
    cgoWrite s n = modSlt s n fun y =>
      { y with regs := if clenOk (salt s n).regs.clen.toNat then { y.regs with cgo := true, cres := 0 } else { y.regs with cres := 3 } } := by
  unfold cgoWrite
  dsimp only
  rw [if_neg (by simp [hcust, hidle, hfree])]
  cases clenOk (salt s n).regs.clen.toNat
  · exact if_pos rfl
  · exact if_neg (by decide)

/-- The salter once its kernel stands at local address 0. -/
def kernelStarted (s : State) (n : Fin 8) (y : Slt) : Slt :=
  { y.sequence with
    lmem := memPut y.lmem 0 (memBytes s.host (hostAddr s (salt s n).regs.cimg.toNat) (salt s n).regs.clen.toNat)
    x := vset y.x 1 (salt s n).regs.carg, pc := 0, mode := .run, inTrap := false
    regs := { y.regs with cgo := false, chalt := false, cres := 1 } }

theorem cgoDone_starts {s : State} {n : Fin 8} (hgo : (salt s n).regs.cgo = true) (hhere : Here s (salt s n).regs.cimg.toNat)
    (hcredits : Credits s) (hread : s.hostBad = []) : cgoDone s n = modSlt s n (kernelStarted s n) := by
  unfold cgoDone
  simp only [hgo, Bool.not_true, Bool.false_eq_true, if_false, rdHost_here hhere hcredits hread]
  rfl

/-- Settles O44: by the judgement of CGO, and the one read of CGO_DONE. -/
theorem kernelCommands : Obligations.KernelCommands := by
  unfold Obligations.KernelCommands
  refine fun n s => ⟨fun hans hcust hidle hfree => ?_, fun hgo hhere hcredits => ?_, fun hans => ?_, fun hans => ?_⟩
  · have hgo : exec (.cgo n) s = .next (cgoWrite (answer s cpOk) n) := cpWrite_answers hans _
    rw [hgo, cgoWrite_idle (s := answer s cpOk) hcust hidle hfree]
    refine ⟨fun hlen => ?_, fun hlen => ?_⟩
    · have hok : clenOk (salt (answer s cpOk) n).regs.clen.toNat = true := (clenOk_iff _).mpr hlen
      rw [hok]
      rfl
    · have hbad : clenOk (salt (answer s cpOk) n).regs.clen.toNat = false := Bool.eq_false_iff.mpr fun h => hlen ((clenOk_iff _).mp h)
      rw [hbad]
      rfl
  · have hdone := cgoDone_starts (s := s.beginAs (.slt n) []) hgo hhere hcredits rfl
    have hlocal : accesses (cgoDone (s.beginAs (.slt n) []) n) = noAccesses := by rw [hdone]; rfl
    refine ⟨_, congrArg Host.Outcome.next (commandAs_local hlocal), ?_⟩
    rw [hdone]
    have hself := salt_modSlt (s.beginAs (.slt n) []) n (kernelStarted (s.beginAs (.slt n) []) n)
    refine ⟨congrArg Slt.lmem hself, congrArg Slt.mode hself, congrArg Slt.pc hself, ?_, ?_, ?_, fun m hm => ?_, rfl, rfl⟩
    · exact (congrArg (vget ·.x 1) hself).trans (vget_vset_self ..)
    · exact congrArg (·.regs.cgo) hself
    · exact congrArg (·.regs.cres) hself
    · exact salt_modSlt_ne _ (Ne.symm hm) _
  · exact cpWrite_answers hans _
  · exact cpWrite_answers hans _

end Sys2Proof.Machine.Kernels

/-! SUPPORT. Refutes O59 (BrinePortsAnswer) in its part on the time-out, by a message of the FLT source that takes the tag of the
message that was not answered. -/

namespace Sys2Proof.ReusedTag

open Sys2Proof.Machine

/-- An ACTIVE block with FLT and PWR enabled and routed to messages. -/
def routed : State :=
  let s := modPins (modPwr State.reset fun x => { x with pstate := .active }) fun x => { x with rstLow := false }
  modHdr (modGlb s fun g => { g with inten := setBit (setBit g.inten srcFlt true) srcPwr true
                                     intdst := vset (vset g.intdst 64 4) 73 4 }) .glb fun h => { h with abi := 0x0101 }

/-- The message of PWR is outstanding: port 0, tag 0. -/
def outstanding : State := raiseInt routed srcPwr

/-- That message, at reset's message address. -/
def message : Txn := { port := 0, tag := 0, kind := .wr, share := agentShare 0, addr := 0, data := leBytes 4 73, why := .message 73 }

/-- What its time-out leaves. -/
def left : State := command [] outstanding fun s => creditBack (answerTxn s message true 1)

/-- The state meets what the statement asks of it. -/
theorem outstanding_ready : outstanding.pins.rstLow = false ∧ outstanding.wrap.taken = false ∧ outstanding.pwr.pstate = .active ∧
    outstanding.twn.held = [] ∧ outstanding.pwr.heldMsg = [] ∧ outstanding.shard = [] ∧
    txnAt outstanding 0 0 = some message := by
  decide +kernel

theorem exec_brineTimeout {s : State} {q : Fin 16} {tag : BitVec 9} {x : Txn} (h : txnAt s q tag = some x) :
    exec (.brineTimeout q tag) s = .next (command [] s fun s => creditBack (answerTxn s x true 1)) := by
  refine congrArg Host.Outcome.next ?_
  rw [h]

/-- The time-out is an error in GLB's page, which makes FLT pending; FLT's message is issued with the lowest free tag (R448), the one
just returned. -/
theorem left_reuses_tag : txnAt left 0 0 ≠ none := by
  decide +kernel

/-- Refutes O59: the statement has no transaction left at the port and the tag of the message that was not answered; the message that
its error causes is there (`left_reuses_tag`). -/
theorem not_brinePortsAnswer : ¬ Obligations.BrinePortsAnswer := by
  unfold Obligations.BrinePortsAnswer
  intro answers
  obtain ⟨hrst, hcore, hactive, hheld, hmsgs, hshards, htxn⟩ := outstanding_ready
  obtain ⟨-, -, timeout, -⟩ := answers 0 0 message 73 0 outstanding hrst hcore hactive hheld hmsgs hshards
  obtain ⟨t, hexec, hended, -⟩ := timeout htxn rfl
  obtain rfl : left = t := Host.Outcome.next.inj ((exec_brineTimeout htxn).symm.trans hexec)
  exact left_reuses_tag hended

end Sys2Proof.ReusedTag

/-! SUPPORT. Refutes O8 (UnitsLeaveService) in its part on the Rake, by a map of the mask directory that lists a key twice. -/

namespace Sys2Proof.RepeatedKey

open Sys2Proof.Machine

/-- A READY block whose Rake is stopped and idle. Its map of the directory lists entry 5 twice, not busy and then busy: a read of the
entry finds the first of the two. -/
def listed : State :=
  let s := modPins (modPwr State.reset fun x => { x with pstate := .active }) fun x => { x with rstLow := false }
  let s := modHdr (modGlb s fun g => { g with bstage := 8 }) .rak fun h => { h with mode := .stopping }
  { s with dir := [(5, {}), (5, { busy := true })] }

/-- What ISOLATE of the Rake leaves. -/
def left : State := cpDo listed (some .rak) fun s => command [] s (pgCommand · .rak .isolate)

theorem exec_isolate_listed : exec (.isolate .rak) listed = .next left := rfl

theorem listed_ready : Answers listed .rak ∧ pageState listed .rak = .stopped ∧ listed.rak.evq = [] ∧ listed.rak.retire = [] := by
  decide +kernel

theorem listed_free (m : Nat) : (dirOf listed m).busy = false := by
  change (smGet {} [(5, {}), (5, { busy := true })] m : DirE).busy = false
  unfold smGet
  split
  · rfl
  · next hm => rw [smGet, if_neg hm]; rfl

/-- ISOLATE looks at every listed entry and is dropped (R501). -/
theorem left_stopped : pageState left .rak = .stopped := by
  decide +kernel

/-- Refutes O8: the statement has the Rake ISOLATED once no read of the directory finds an entry busy; in a map that is not well formed
an entry that no read finds keeps it in service (`left_stopped`). -/
theorem not_unitsLeaveService : ¬ Obligations.UnitsLeaveService := by
  unfold Obligations.UnitsLeaveService
  rintro ⟨isolates, -⟩
  obtain ⟨-, rake, -⟩ := isolates listed
  obtain ⟨hans, hstopped, hevents, hretire⟩ := listed_ready
  obtain ⟨t, hexec, -, hisolated, -⟩ := rake hans hstopped hevents hretire listed_free
  obtain rfl : left = t := Host.Outcome.next.inj (exec_isolate_listed.symm.trans hexec)
  exact absurd (left_stopped.symm.trans hisolated) (by decide)

end Sys2Proof.RepeatedKey

/-! SUPPORT. Settles O9: PG_ABI, the reject record, the error slots and error injection of a page. -/

namespace Sys2Proof.Machine.PageHeader

open Sys2Proof.Machine.ErrorFrame Sys2Proof.Machine.FrameSent Sys2Proof.Machine.Settlement Sys2Proof.Machine.ShardState
  Sys2Proof.Machine.TileAttempt Sys2Proof.Machine.Takeover Sys2Proof.Machine.UnitTest

/-! ### An error and its response: the port's answer, the command's accesses and what ERR shows -/

/-- The second state comes of the first by errors: it answers the port alike, makes the same accesses, and what the ERR of a page showed
it still shows. -/
structure Errs (s t : State) : Prop where
  cp : t.cp = s.cp
  accessed : accesses t = accesses s
  err : ∀ p c, c < 32 → bit (hdr s p).err c = true → bit (hdr t p).err c = true

namespace Errs
variable {s t u : State}

theorem refl (s : State) : Errs s s := ⟨rfl, rfl, fun _ _ _ h => h⟩

theorem trans (h : Errs s t) (k : Errs t u) : Errs s u :=
  ⟨k.cp.trans h.cp, k.accessed.trans h.accessed, fun p c hc hbit => k.err p c hc (h.err p c hc hbit)⟩

theorem of_hdrs (hcp : t.cp = s.cp) (hacc : accesses t = accesses s) (hhdrs : t.hdrs = s.hdrs) : Errs s t :=
  ⟨hcp, hacc, fun p _ _ hbit => by rwa [hdr_congr hhdrs p]⟩

theorem of_loses (h : Loses s t) : Errs s t := by
  unfold Loses at h
  rw [h]
  exact of_hdrs rfl rfl rfl

theorem of_sendsOnly (h : SendsOnly s t) : Errs s t := of_loses (sendsOnly_loses h)

/-- A header update that keeps ERR. -/
theorem modHdr (s : State) (p : PageId) {f : PageHdr → PageHdr} (h : ∀ x, (f x).err = x.err) : Errs s (modHdr s p f) := by
  refine ⟨rfl, rfl, fun q c _ hbit => ?_⟩
  by_cases hq : p = q
  · subst hq
    rw [hdr_modHdr, h]
    exact hbit
  · rw [hdr_modHdr_ne s hq]
    exact hbit

theorem recordOnly (s : State) (p : PageId) (e : ErrIn) : Errs s (recordOnly s p e).2 := by
  refine ⟨?_, accesses_recordOnly s p e, fun q c hc hbit => ?_⟩
  · have h := Queues.recordOnly s p e
    exact (congrArg State.cp h :)
  · by_cases hq : p = q
    · subst hq
      rw [(recordOnly_recorded s p e).err, bit_setBit_true _ _ hc, hbit, Bool.true_or]
    · rw [hdr_recordOnly_ne s hq]
      exact hbit

theorem handlerError (s : State) : Errs s (handlerError s) := (recordOnly ..).trans (of_loses (instLoss_loses _))

theorem fencePan (s : State) (p : Fin 64) : Errs s (fencePan s p) := by
  unfold Machine.fencePan
  extract_lets halted unmapped faulted gated counted idle
  have hhalted : Errs s halted := by
    unfold halted
    split <;> exact of_hdrs rfl rfl rfl
  have hunmapped : Errs halted unmapped := by
    unfold unmapped unmapPan
    split <;> exact of_hdrs rfl rfl rfl
  have hidle : Errs counted idle := by
    obtain ⟨d, hd⟩ := quadIdle_eq counted (quadOf p)
    unfold idle
    rw [hd]
    exact of_hdrs rfl rfl rfl
  clear_value halted unmapped idle
  have hfaulted : Errs unmapped faulted := modHdr _ _ fun _ => rfl
  have hcounted : Errs faulted counted := of_hdrs rfl rfl rfl
  exact hhalted.trans <| hunmapped.trans <| hfaulted.trans <| hcounted.trans <| hidle.trans <| of_hdrs rfl rfl rfl

theorem fenceHrv (s : State) (n : Fin 8) : Errs s (fenceHrv s n) := by
  have hdropped : Errs s (dropJob s n) := of_loses (dropJob_loses s n)
  unfold Machine.fenceHrv
  generalize dropJob s n = t at hdropped
  extract_lets emptied faulted counted
  have hemptied : Errs t emptied := of_hdrs rfl rfl rfl
  have hfaulted : Errs emptied faulted := modHdr _ _ fun _ => rfl
  exact hdropped.trans <| hemptied.trans <| hfaulted.trans <| of_hdrs rfl rfl rfl

theorem releaseFetches (s : State) (n : Fin 8) : Errs s (releaseFetches s n) := by
  unfold Machine.releaseFetches
  refine List.foldlRecOn (motive := Errs s) s.shard _ (refl s) fun t ht ⟨i, h⟩ _ => ht.trans ?_
  dsimp only
  split
  · next ws m _ _ =>
    have hsent : Errs t (sendHold t h.srec.owner (ws.getD 4 0).toNat 1 (bit (ws.getD 2 0) 0) 0) :=
      of_sendsOnly (SendsOnly.sendVia ..)
    split
    · exact hsent.trans (of_hdrs rfl rfl rfl)
    · exact refl t
  · exact refl t

theorem fenceSlt (s : State) (n : Fin 8) : Errs s (fenceSlt s n) := by
  have hreleased := releaseFetches s n
  unfold Machine.fenceSlt
  generalize Machine.releaseFetches s n = t at hreleased
  extract_lets released idle faulted counted
  have hidle : Errs t idle := of_hdrs rfl rfl rfl
  have hfaulted : Errs idle faulted := modHdr _ _ fun _ => rfl
  exact hreleased.trans <| hidle.trans <| hfaulted.trans <| of_hdrs rfl rfl rfl

theorem fenceRake (s : State) : Errs s (fenceRake s) := by
  unfold Machine.fenceRake
  extract_lets tested faulted counted
  have htested : Errs s tested := by
    unfold tested
    split <;> exact of_hdrs rfl rfl rfl
  clear_value tested
  have hfaulted : Errs tested faulted := modHdr _ _ fun _ => rfl
  exact htested.trans <| hfaulted.trans <| of_hdrs rfl rfl rfl

theorem instLoss (s : State) : Errs s (instLoss s) := of_loses (instLoss_loses s)

theorem respond (s : State) (p : PageId) (cause cls : Nat) : Errs s (respond s p cause cls) := by
  unfold Machine.respond
  split
  · exact refl s
  · split
    · refine Errs.trans ?_ (handlerError _)
      split
      · exact fenceSlt ..
      · exact refl s
    · split
      · split
        · exact refl s
        · exact instLoss s
      · split
        · split
          · exact fencePan ..
          · exact fenceHrv ..
          · exact fenceSlt ..
          · exact fenceRake s
          · exact instLoss s
          · split
            · exact instLoss s
            · exact refl s
          · split
            · exact instLoss s
            · exact refl s
          · exact refl s
        · exact refl s

end Errs

/-- A recorded error shows in ERR. -/
theorem recordErr_shows (s : State) (p : PageId) {e : ErrIn} (hc : e.cause < 32) :
    Errs s (recordErr s p e) ∧ bit (hdr (recordErr s p e) p).err e.cause = true := by
  have hresponse := Errs.respond (recordOnly s p e).2 p e.cause (recordOnly s p e).1
  rw [recordErr_eq]
  exact ⟨(Errs.recordOnly s p e).trans hresponse, hresponse.err p e.cause hc ((recordOnly_recorded s p e).bit_err hc)⟩

/-! ### Injection (R385, R386) -/

theorem afterError_errs (s : State) (p : PageId) (c : Nat) : Errs s (afterError s p c) := by
  unfold afterError
  split
  · split
    · exact .handlerError s
    · exact .refl s
  · split
    · exact .of_hdrs rfl rfl rfl
    · exact .refl s
  · split
    · exact .of_hdrs rfl rfl rfl
    · exact .refl s
  · exact .refl s

theorem injectNow_shows (s : State) (p : PageId) {c : Nat} (hc : c < 32) :
    Errs s (injectNow s p c) ∧ bit (hdr (injectNow s p c) p).err c = true := by
  obtain ⟨herrs, hbit⟩ := recordErr_shows s p (e := { cause := c, cls := unitClass s p c, suspect := panSuspect p c, inj := true }) hc
  have hafter := afterError_errs (recordErr s p { cause := c, cls := unitClass s p c, suspect := panSuspect p c, inj := true }) p c
  exact ⟨herrs.trans hafter, hafter.err p c hc hbit⟩

/-- Every cause that a page reports has a bit of ERR. -/
theorem pageCauses_lt {p : PageId} {c : Nat} (h : c ∈ pageCauses p) : c < 32 := by
  unfold pageCauses at h
  split at h <;> simp only [List.mem_cons, List.not_mem_nil, or_false] at h <;> omega

/-- The header as IARM sets it up. -/
def armed (c : Byte) (report dbl : Bool) (h : PageHdr) : PageHdr :=
  { h with icause := c, imode := report, idbl := dbl, iarm := !report }

theorem iarmWrite_admitted {s : State} {p : PageId} {c : Byte} (hmay : mayInject s = true) (hcause : c.toNat ∈ pageCauses p)
    {report : Bool} (hkind : report = true ∨ corruptible c.toNat = true) (dbl : Bool) :
    iarmWrite s p c.toNat report dbl =
      if report then injectNow (modHdr s p (armed c report dbl)) p c.toNat
      else if waitsDetector p (injCause c.toNat dbl) then modHdr s p (armed c report dbl)
      else modHdr (corruptNow (modHdr s p (armed c report dbl)) p (injCause c.toNat dbl)) p fun h => { h with iarm := false } := by
  have hbyte : BitVec.ofNat 8 c.toNat = c := BitVec.ofNat_toNat ..
  unfold iarmWrite
  rw [if_neg (by simp [hmay]), if_neg (by rcases hkind with h | h <;> simp [hcause, h]), hbyte]
  cases report <;> rfl

theorem iarmWrite_report {s : State} {p : PageId} {c : Byte} (hmay : mayInject s = true) (hcause : c.toNat ∈ pageCauses p)
    (dbl : Bool) : Errs s (iarmWrite s p c.toNat true dbl) ∧ bit (hdr (iarmWrite s p c.toNat true dbl) p).err c.toNat = true := by
  rw [iarmWrite_admitted hmay hcause (.inl rfl), if_pos rfl]
  obtain ⟨herrs, hbit⟩ := injectNow_shows (modHdr s p (armed c true dbl)) p (pageCauses_lt hcause)
  exact ⟨(Errs.modHdr s p (f := armed c true dbl) fun _ => rfl).trans herrs, hbit⟩

/-- The detectors of a pan or an engine meet the values of its work: a corruption waits for them. -/
theorem iarmWrite_corrupt {s : State} {p : PageId} {c : Byte} (hmay : mayInject s = true) (hcause : c.toNat ∈ pageCauses p)
    (hkind : corruptible c.toNat = true) (hunit : (∃ q, p = .pan q) ∨ ∃ n, p = .hrv n) (dbl : Bool) :
    iarmWrite s p c.toNat false dbl = modHdr s p (armed c false dbl) := by
  have hwaits : waitsDetector p (injCause c.toNat dbl) = true := by rcases hunit with ⟨q, rfl⟩ | ⟨n, rfl⟩ <;> rfl
  rw [iarmWrite_admitted hmay hcause (.inr hkind), if_neg (by decide), if_pos hwaits]

theorem iarmWrite_refused {s : State} (hmay : mayInject s = false) (p : PageId) (c : Nat) (report dbl : Bool) :
    iarmWrite s p c report dbl = dropOk s p 0x24 .security :=
  if_pos (by simp [hmay])

/-- IARM is a command of the page. -/
theorem exec_iarm {s : State} {p : PageId} (hans : Answers s p) (c : Byte) (report dbl : Bool)
    (hlocal : accesses (iarmWrite ((answer s cpOk).begin []) p c.toNat report dbl) = noAccesses) :
    exec (.iarm p c report dbl) s = .next { iarmWrite ((answer s cpOk).begin []) p c.toNat report dbl with
      hostBad := [], who := none, rsv := false } := by
  refine (cpWrite_answers hans _).trans (congrArg Host.Outcome.next ?_)
  exact command_of_noAccesses (f := (iarmWrite · p c.toNat report dbl)) hlocal

/-! ### PG_ABI (R465) -/

/-- Where the routing of no source has changed, no message becomes due. -/
theorem sendRouted_same {before s : State} (h : ∀ i, msgRouted before i = msgRouted s i) : sendRouted before s = s := by
  unfold sendRouted
  refine List.foldlRecOn (motive := (· = s)) (List.range 96) _ rfl fun t ht i _ => ?_
  subst ht
  rw [h i]
  exact if_neg (by cases msgRouted t i <;> simp)

/-- The level of a page other than GLB routes no message. -/
theorem sendRouted_modHdr {s : State} {p : PageId} (h : p ≠ .glb) (f : PageHdr → PageHdr) :
    sendRouted s (modHdr s p f) = modHdr s p f :=
  sendRouted_same fun i => by
    unfold msgRouted
    rw [hdr_modHdr_ne s h]
    rfl

theorem levelOk_iff (v : W16) : levelOk v = true ↔ v ∈ [0x0100#16, 0x0101#16, 0x0102#16, 0x0103#16] := by
  have hv := v.isLt
  simp only [levelOk, Bool.and_eq_true, beq_iff_eq, decide_eq_true_eq, List.mem_cons, List.not_mem_nil, or_false, ← BitVec.toNat_inj,
    BitVec.toNat_ofNat]
  omega

theorem abiWrite_stores {s : State} {p : PageId} (hp : p ≠ .glb) (hfree : unlocked s p = true) {v : W16} (hlevel : levelOk v = true) :
    abiWrite s p v = modHdr s p fun h => { h with abi := v } := by
  unfold abiWrite
  rw [if_neg (by simp [hfree]), if_neg (by simp [hlevel])]
  exact sendRouted_modHdr hp _

theorem abiWrite_level {s : State} {p : PageId} (hfree : unlocked s p = true) {v : W16} (hlevel : levelOk v = false) :
    abiWrite s p v = dropOk s p 0x0C .level := by
  unfold abiWrite
  rw [if_neg (by simp [hfree]), if_pos (by simp [hlevel])]

theorem abiWrite_locked {s : State} {p : PageId} (hlocked : unlocked s p = false) (v : W16) :
    abiWrite s p v = dropReject s p 0x0C .runlock :=
  if_pos (by simp [hlocked])

/-! ### ERROR_ACK (R360) -/

theorem errorAck_moves {s : State} {p : PageId} (hvalid : (hdr s p).slotA.valid = true)
    (hended : (hdr s p).slotA.cls = 1 → (hdr s p).slotA.replayOpen = false) :
    errorAck s p = modHdr s p fun h => { h with slotA := h.slotB, slotB := {} } := by
  unfold errorAck
  rw [if_neg (by simp [hvalid]), if_neg (by simpa using hended)]

theorem errorAck_open {s : State} {p : PageId} (hvalid : (hdr s p).slotA.valid = true) (hcls : (hdr s p).slotA.cls = 1)
    (hopen : (hdr s p).slotA.replayOpen = true) : errorAck s p = dropReject s p 0x28 .state := by
  unfold errorAck
  rw [if_neg (by simp [hvalid]), if_pos (by simp [hcls, hopen])]

/-- Settles O9: the three writes of PG_ABI, the registers of the records, and the three cases of IARM. -/
theorem headerRegistersAndInjection : Obligations.HeaderRegistersAndInjection := by
  unfold Obligations.HeaderRegistersAndInjection
  refine ⟨fun p v s hans hp => ⟨fun hfree hlevel => ?_, fun hfree hlevel => ?_, fun hlocked => ?_⟩,
    fun p s hans => ⟨cpWrite_answers hans _, cpWrite_answers hans _, fun hvalid hended => ?_, fun hvalid hcls hopen => ?_⟩,
    fun p c dbl s hans hcause => ⟨fun hmay => ?_, fun hmay hkind hunit => ?_, fun hmay report => ?_⟩⟩
  · refine ⟨_, (cpWrite_answers hans _).trans (congrArg Host.Outcome.next
      (abiWrite_stores (s := answer s cpOk) hp hfree ((levelOk_iff v).mpr hlevel))), rfl, ?_, fun q hq => ?_, rfl⟩
    · exact congrArg PageHdr.abi (hdr_modHdr ..)
    · exact hdr_modHdr_ne _ (Ne.symm hq) _
  · have hbad : levelOk v = false := Bool.eq_false_iff.mpr fun h => hlevel ((levelOk_iff v).mp h)
    exact ⟨_, (cpWrite_answers hans _).trans (congrArg Host.Outcome.next (abiWrite_level (s := answer s cpOk) hfree hbad)), rfl,
      hdr_modHdr .., rfl⟩
  · exact ⟨_, (cpWrite_answers hans _).trans (congrArg Host.Outcome.next (abiWrite_locked (s := answer s cpOk) hlocked v)), rfl,
      hdr_modHdr .., rfl⟩
  · exact (cpWrite_answers hans _).trans (congrArg Host.Outcome.next (errorAck_moves (s := answer s cpOk) hvalid hended))
  · exact (cpWrite_answers hans _).trans (congrArg Host.Outcome.next (errorAck_open (s := answer s cpOk) hvalid hcls hopen))
  · obtain ⟨herrs, hbit⟩ := iarmWrite_report (s := (answer s cpOk).begin []) hmay hcause dbl
    exact ⟨_, exec_iarm hans c true dbl herrs.accessed, herrs.cp, hbit⟩
  · have harmed := iarmWrite_corrupt (s := (answer s cpOk).begin []) hmay hcause hkind hunit dbl
    refine ⟨_, exec_iarm hans c false dbl (by rw [harmed]; rfl), ?_⟩
    rw [harmed]
    have hself := hdr_modHdr ((answer s cpOk).begin []) p (armed c false dbl)
    exact ⟨rfl, congrArg PageHdr.iarm hself, congrArg PageHdr.icause hself, (congrArg PageHdr.err hself :), rfl⟩
  · have hrefused := iarmWrite_refused (s := (answer s cpOk).begin []) hmay p c.toNat report dbl
    refine ⟨_, exec_iarm hans c report dbl (by rw [hrefused]; rfl), ?_⟩
    rw [hrefused]
    exact ⟨rfl, hdr_modHdr .., rfl⟩

end Sys2Proof.Machine.PageHeader

/-! SUPPORT. Settles O6 and O7: RUN, STOP and QUIESCE of a page. -/

namespace Sys2Proof.Machine.PageControl

open Sys2Proof.Machine.Settlement Sys2Proof.Machine.ShardState

/-! ### A command of PG_CTL (R461) -/

/-- The instruction that gives a command. -/
def instr (p : PageId) : PgCmd → Instr
  | .run => .run p
  | .stop => .stop p
  | .quiesce => .quiesce p
  | .isolate => .isolate p
  | .bypass => .bypass p

theorem exec_instr (s : State) (p : PageId) (c : PgCmd) :
    exec (instr p c) s = cpWrite s p fun s => command [] s (pgCommand · p c) := by
  cases c <;> rfl

/-- The state in which the command begins, once the port has answered OK. -/
abbrev begun (s : State) : State := (answer s cpOk).begin []

theorem exec_command {s t : State} {p : PageId} (hans : Answers s p) {c : PgCmd} (ht : pgCommand (begun s) p c = t)
    (hlocal : accesses t = noAccesses) : exec (instr p c) s = .next { t with hostBad := [], who := none, rsv := false } := by
  subst ht
  refine (exec_instr s p c).trans ((cpWrite_answers hans _).trans (congrArg Host.Outcome.next ?_))
  exact command_of_noAccesses (f := (pgCommand · p c)) hlocal

/-! ### The state of a page (R460) -/

theorem pageState_of_mode (s : State) {p : PageId} (h : p ≠ .pwr) :
    pageState s p = match (hdr s p).mode with
      | .active => if unitBusy s p then .running else .idle
      | .stopping => if pieceDone s p then .stopped else .quiescing
      | .quiescing => if workDone s p then .stopped else .quiescing
      | .isolated => .isolated
      | .faulted => .faulted := by
  cases p with
  | pwr => exact absurd rfl h
  | _ => rfl

/-- The power page takes no command. -/
theorem ne_pwr_of_admits {p : PageId} {c : PgCmd} (h : pageAdmits p c = true) : p ≠ .pwr := by
  rintro rfl
  exact absurd h Bool.false_ne_true

theorem pageState_stopping {s : State} {p : PageId} (hp : p ≠ .pwr) (h : (hdr s p).mode = .stopping ∨ (hdr s p).mode = .quiescing) :
    pageState s p = .stopped ∨ pageState s p = .quiescing := by
  rw [pageState_of_mode s hp]
  rcases h with h | h
  · rw [h]
    dsimp only
    split
    · exact .inl rfl
    · exact .inr rfl
  · rw [h]
    dsimp only
    split
    · exact .inl rfl
    · exact .inr rfl

/-! ### STOP and QUIESCE -/

/-- The mode in which STOP or QUIESCE leaves a page: a quad treats both as STOP (R474). -/
def stopMode (p : PageId) (m : UMode) : UMode := match p with | .qd _ => .stopping | _ => m

theorem stopMode_stopping (p : PageId) : stopMode p .stopping = .stopping := by cases p <;> rfl

theorem stopMode_of_ne {p : PageId} (h : ∀ q, p ≠ .qd q) (m : UMode) : stopMode p m = m := by
  cases p with
  | qd q => exact absurd rfl (h q)
  | _ => rfl

theorem stopMode_cases (p : PageId) {m : UMode} (h : m = .stopping ∨ m = .quiescing) :
    stopMode p m = .stopping ∨ stopMode p m = .quiescing := by
  cases p with
  | qd q => exact .inl rfl
  | _ => exact h

theorem abortParked_none {s : State} {l : Fin 60} (h : (lp s l).parked = []) : abortParked s l = s := by
  unfold abortParked
  rw [h]
  rfl

/-- A stopped unit of which no tile is parked: the mode, and of the tide page the entries. -/
theorem stopUnit_rest (s : State) (p : PageId) (m : UMode) (hparked : ∀ q l, p = .pan q → logOf s q = some l → (lp s l).parked = []) :
    ∃ x, stopUnit s p m = { modHdr s p fun h => { h with mode := stopMode p m } with tide := x } := by
  cases p with
  | pan q =>
    refine ⟨s.tide, ?_⟩
    unfold stopUnit
    extract_lets mode stopped
    have hlog : logOf stopped q = logOf s q := rfl
    dsimp only
    rw [hlog]
    split
    · next l hl =>
      split
      · exact abortParked_none (hparked q l rfl hl)
      · rfl
    · rfl
  | _ => exact ⟨_, rfl⟩

theorem stopCommand_working {s : State} {p : PageId} (hwork : Working s p)
    (hvrd : p = .vrd → s.twn.regs.jstate ≠ .joining ∧ s.twn.regs.jstate ≠ .joined) (m : UMode) :
    stopCommand s p m = stopUnit s p m := by
  have hfree : ¬ (p = .vrd && (s.twn.regs.jstate = .joining || s.twn.regs.jstate = .joined)) = true := by
    simpa using hvrd
  unfold stopCommand
  rcases hwork with h | h
  · rw [h]
    exact if_neg hfree
  · rw [h]
    exact if_neg hfree

theorem pgCommand_stop {s : State} {p : PageId} (hadmit : pageAdmits p .stop = true) (hfirm : firmwareOnly s p = false) :
    pgCommand s p .stop = stopCommand s p .stopping := by
  unfold pgCommand
  rw [if_neg (by simp [hadmit]), if_neg (by simp [hfirm])]

theorem pgCommand_quiesce {s : State} {p : PageId} (hadmit : pageAdmits p .quiesce = true) (hfirm : firmwareOnly s p = false) :
    pgCommand s p .quiesce = stopCommand s p .quiescing := by
  unfold pgCommand
  rw [if_neg (by simp [hadmit]), if_neg (by simp [hfirm])]

/-- STOP or QUIESCE of a page at work. -/
theorem exec_stops {s : State} {p : PageId} (hans : Answers s p) (hwork : Working s p) {c : PgCmd} {m : UMode}
    (hm : m = .stopping ∨ m = .quiescing) (hadmit : pageAdmits p c = true)
    (hc : pgCommand (begun s) p c = stopCommand (begun s) p m)
    (hvrd : p = .vrd → s.twn.regs.jstate ≠ .joining ∧ s.twn.regs.jstate ≠ .joined)
    (hparked : ∀ q l, p = .pan q → logOf s q = some l → (lp s l).parked = []) :
    ∃ t, exec (instr p c) s = .next t ∧ t.cp = {} ∧ (hdr t p).mode = stopMode p m ∧
      (pageState t p = .stopped ∨ pageState t p = .quiescing) ∧ ∀ q, q ≠ p → hdr t q = hdr s q := by
  obtain ⟨x, hstopped⟩ := stopUnit_rest (begun s) p m hparked
  have hresult := hc.trans ((stopCommand_working (s := begun s) hwork hvrd m).trans hstopped)
  have hmode : (hdr { modHdr (begun s) p fun h => { h with mode := stopMode p m } with tide := x } p).mode = stopMode p m :=
    congrArg PageHdr.mode (hdr_modHdr ..)
  refine ⟨_, exec_command hans hresult rfl, rfl, hmode, ?_, fun q hq => hdr_modHdr_ne _ (Ne.symm hq) _⟩
  refine pageState_stopping (ne_pwr_of_admits hadmit) ?_
  have hcases := stopMode_cases p hm
  rw [← hmode] at hcases
  exact hcases

/-- Settles O6: by the one stop of a unit, in the mode of STOP and in that of QUIESCE. -/
theorem stopAndQuiesceEndAdmission : Obligations.StopAndQuiesceEndAdmission := by
  unfold Obligations.StopAndQuiesceEndAdmission
  refine fun p s hans hwork hfirm hadmit hvrd hparked => ⟨?_, fun hquiesce => ?_⟩
  · have hstops := exec_stops (c := .stop) hans hwork (.inl rfl) hadmit (pgCommand_stop (s := begun s) hadmit hfirm) hvrd hparked
    rwa [stopMode_stopping] at hstops
  · obtain ⟨t, hexec, hcp, hmode, hstate, hothers⟩ := exec_stops (c := .quiesce) hans hwork (.inr rfl) hquiesce
      (pgCommand_quiesce (s := begun s) hquiesce hfirm) hvrd hparked
    exact ⟨t, hexec, hcp, fun hquad => hmode.trans (stopMode_of_ne hquad _), hstate, hothers⟩

/-! ### RUN of a stopped unit -/

/-- Headers, port and accesses of a unit put back to work: the fields beside them that its page's rule may change. -/
theorem runUnit_rest (s : State) (p : PageId) (hheld : ∀ k, p = .lnk k → s.twn.held = []) :
    ∃ x v r, runUnit s p = { modHdr s p fun h => { h with mode := .active, clkreq := false } with tide := x, pan := v, rak := r } := by
  cases p with
  | tide => exact ⟨_, s.pan, s.rak, rfl⟩
  | rak => exact ⟨s.tide, s.pan, _, rfl⟩
  | lnk k =>
    refine ⟨s.tide, s.pan, s.rak, ?_⟩
    unfold runUnit serveHeld
    extract_lets back
    have hnone : back.twn.held = [] := hheld k rfl
    dsimp only
    rw [hnone]
    exact ite_self back
  | pan q =>
    obtain ⟨v, hv⟩ := serveWakes_pansOnly (modHdr s (.pan q) fun h => { h with mode := .active, clkreq := false })
    exact ⟨s.tide, v, s.rak, hv⟩
  | glb =>
    obtain ⟨v, hv⟩ := serveWakes_pansOnly (modHdr s .glb fun h => { h with mode := .active, clkreq := false })
    exact ⟨s.tide, v, s.rak, hv⟩
  | _ => exact ⟨s.tide, s.pan, s.rak, rfl⟩

theorem pgCommand_run_stopped {s : State} {p : PageId} (hadmit : pageAdmits p .run = true) (hfirm : firmwareOnly s p = false)
    (hstopped : pageState s p = .stopped) : pgCommand s p .run = runUnit s p := by
  unfold pgCommand
  rw [if_neg (by simp [hadmit]), if_neg (by simp [hfirm])]
  dsimp only
  unfold runCommand
  rw [hstopped]

/-! ### Commands that are not admitted (R461, R464) -/

/-- RUN, STOP and QUIESCE. -/
def isBasic (c : PgCmd) : Prop := c = .run ∨ c = .stop ∨ c = .quiesce

/-- The record of a dropped command, which is answered OK. -/
theorem ctlState_eq (s : State) (p : PageId) :
    ctlState s p = { s with hdrs := (modHdr s p fun h => h.reject 0x10 .state).hdrs, cp := {} } := rfl

theorem pgCommand_never {s : State} {p : PageId} (h : p ∈ [PageId.sec, .pwr, .sal, .twn, .tst]) (c : PgCmd) :
    pgCommand s p c = ctlState s p := by
  refine if_pos ?_
  simp only [List.mem_cons, List.not_mem_nil, or_false] at h
  rcases h with rfl | rfl | rfl | rfl | rfl <;> rfl

theorem pageAdmits_basic {p : PageId} (h : pageAdmits p .quiesce = true) {c : PgCmd} (hc : isBasic c) : pageAdmits p c = true := by
  rcases hc with rfl | rfl | rfl
  · cases p <;> simp_all [pageAdmits]
  · cases p <;> simp_all [pageAdmits]
  · exact h

theorem pgCommand_faulted {s : State} {p : PageId} (hfaulted : pageState s p = .faulted) (hfirm : firmwareOnly s p = false)
    (hadmit : pageAdmits p .quiesce = true) {c : PgCmd} (hc : isBasic c) : pgCommand s p c = ctlState s p := by
  unfold pgCommand
  rw [if_neg (by simp [pageAdmits_basic hadmit hc]), if_neg (by simp [hfirm])]
  rcases hc with rfl | rfl | rfl
  · dsimp only
    rw [runCommand, hfaulted]
  · dsimp only
    rw [stopCommand, hfaulted]
  · dsimp only
    rw [stopCommand, hfaulted]

/-- Settles O7: a stopped unit goes back to work, and a command that its page or its state refuses leaves the record and nothing else. -/
theorem runAndUnadmittedCommands : Obligations.RunAndUnadmittedCommands := by
  unfold Obligations.RunAndUnadmittedCommands
  refine ⟨fun p s hans hstopped hfirm hadmit hheld => ?_, fun p s hans hwhy c hc => ?_⟩
  · obtain ⟨x, v, r, hback⟩ := runUnit_rest (begun s) p hheld
    have hresult := (pgCommand_run_stopped (s := begun s) hadmit hfirm hstopped).trans hback
    have hself := hdr_modHdr (begun s) p fun h => { h with mode := .active, clkreq := false }
    exact ⟨_, exec_command (c := .run) hans hresult rfl, rfl, congrArg PageHdr.mode hself, congrArg PageHdr.clkreq hself,
      fun q hq => hdr_modHdr_ne _ (Ne.symm hq) _⟩
  · obtain ⟨d, hd, rfl⟩ : ∃ d, isBasic d ∧ c = instr p d := by
      simp only [List.mem_cons, List.not_mem_nil, or_false] at hc
      rcases hc with rfl | rfl | rfl
      · exact ⟨.run, .inl rfl, rfl⟩
      · exact ⟨.stop, .inr (.inl rfl), rfl⟩
      · exact ⟨.quiesce, .inr (.inr rfl), rfl⟩
    have hresult : pgCommand (begun s) p d = ctlState (begun s) p := by
      rcases hwhy with hnever | ⟨hfaulted, hfirm, hadmit⟩
      · exact pgCommand_never hnever d
      · exact pgCommand_faulted (s := begun s) hfaulted hfirm hadmit hd
    rw [ctlState_eq] at hresult
    exact ⟨_, exec_command hans hresult rfl, rfl, hdr_modHdr .., fun q hq => hdr_modHdr_ne _ (Ne.symm hq) _, rfl, rfl, rfl, rfl⟩

end Sys2Proof.Machine.PageControl
